-- ==== Sys2Proof/Word.lean ====
section
/-! DEFINITION. The word types of the device (R6, R23, R24, R51) and their plainest arithmetic. -/

namespace Sys2Proof

/-- A 64-bit word: an instruction word, a scalar register, an address as computed. -/
abbrev Word := BitVec 64

/-- A 32-bit slice of a vector register. -/
abbrev VWord := BitVec 32

/-- One byte of memory or of a deck. -/
abbrev Byte := BitVec 8

end Sys2Proof
end

