-- ==== Sys2Proof/Syntax.lean ====
section
/-! DEFINITION. The instructions of the opcode map (R73), the paired words (R68) and the steps of the device
(95_what_each_step_holds), one constructor for each row of the table of operations and events. -/

namespace Sys2Proof

/-- The guard of a word or of a half (R52): none, or a predicate number and its sense. -/
inductive Guard where
  | always
  | pred (p : BitVec 4) (neg : Bool)
  deriving DecidableEq, Repr

/-- What every full-form word carries beside its fields: W, the guard and U (R51). -/
structure Ctl where
  w     : Bool := false
  guard : Guard := .always
  u     : Bool := false
  deriving DecidableEq, Repr

/-- The type suffixes of R57. Code 0, `.s8`, also stands in a TYPE field that an instruction does not use. -/
inductive Ty where
  | s8 | s16 | s32 | s64 | n8 | n16 | n32 | n64 | b8 | b16 | b32 | b64 | b128
  | f32 | f16 | bf16 | f16x2 | bf16x2 | l6
  deriving DecidableEq, Repr

/-- Scope codes of R60, narrowest first. -/
inductive Scope where
  | span | block | pier | die | pkg | sys
  deriving DecidableEq, Repr

/-- Order codes of R60. -/
inductive Order where
  | plain | acq | rel | ar | seq
  deriving DecidableEq, Repr

/-- Condition codes of R56. -/
inductive Cond where
  | eq | ne | lt | le | gt | ge | num | nan
  deriving DecidableEq, Repr

/-- Compare combining types of R61. -/
inductive Combine where
  | set | full | and | or | andn | xor
  deriving DecidableEq, Repr

/-- The fields of the RRR layout (R56). -/
structure RRR where
  ctl : Ctl
  d   : BitVec 8 := 0
  a   : BitVec 8 := 0
  b   : BitVec 8 := 0
  ka  : Bool := false
  kb  : Bool := false
  c   : BitVec 8 := 0
  ty  : Ty := .s8
  f6  : BitVec 6 := 0
  deriving DecidableEq, Repr

/-- The RI-typed sub-layout (R58). -/
structure RIT where
  ctl : Ctl
  d   : BitVec 8
  a   : BitVec 8
  ty  : Ty
  imm : BitVec 24
  deriving DecidableEq, Repr

/-- The RI-compare sub-layout (R58). -/
structure RIC where
  ctl  : Ctl
  d    : BitVec 8
  a    : BitVec 8
  ty   : Ty
  cond : Cond
  ct   : Combine
  imm  : BitVec 18
  deriving DecidableEq, Repr

/-- The RI-branch sub-layout (R58). -/
structure RIB where
  ctl : Ctl
  d   : BitVec 8
  a   : BitVec 8
  y   : Bool
  off : BitVec 28
  deriving DecidableEq, Repr

/-- The RI-whole sub-layout (R58). -/
structure RIW where
  ctl : Ctl
  d   : BitVec 8
  a   : BitVec 8
  imm : BitVec 29
  deriving DecidableEq, Repr

/-- The MEM layout (R60). -/
structure MEM where
  ctl   : Ctl
  d     : BitVec 8 := 0
  a     : BitVec 8 := 0
  b     : BitVec 8 := 0
  ka    : Bool := false
  kb    : Bool := false
  scope : Scope := .span
  order : Order := .plain
  size  : BitVec 3 := 0
  off   : BitVec 10 := 0
  deriving DecidableEq, Repr

/-- The fields of one half of a paired word but its compact opcode (R68). -/
structure HalfF where
  guard : Guard := .always
  d     : BitVec 8 := 0
  b     : BitVec 8 := 0
  k     : BitVec 2 := 0
  deriving DecidableEq, Repr

/-- The compact opcodes of R72. -/
inductive Cop where
  | addS32 | subS32 | addsS32 | subsS32 | mulS32 | minS32 | maxS32 | minN32 | maxN32
  | andB32 | orB32 | xorB32 | andnB32 | shlB32 | shrB32 | shaB32 | rotB32 | movB32
  | addS64 | subS64 | andB64 | orB64 | xorB64 | shlB64 | shrB64 | shaB64 | movB64
  | faddF32 | fmulF32 | fminF32 | fmaxF32
  | faddBf16x2 | fmulBf16x2 | fminBf16x2 | fmaxBf16x2
  | faddF16x2 | fmulF16x2 | fminF16x2 | fmaxF16x2
  | nop
  deriving DecidableEq, Repr

/-- One half of a paired word. -/
structure Half where
  cop : Cop
  f   : HalfF
  deriving DecidableEq, Repr

/-- A paired word less the compact opcode of its first half, which the constructor of Instr names. -/
structure Pair where
  w  : Bool
  h0 : HalfF
  h1 : Half
  deriving DecidableEq, Repr

/-! Arguments of the device's steps. A span is named by its place 64 × (40 × die + pier) + slot. -/

/-- What leaves the fork drain (R134): a ferry operation of the span, a plane operation, or a record in the landing. -/
inductive ForkRef where
  | ferry (op : Nat)
  | plane (op : Nat)
  | entry (slot : Nat)
  deriving DecidableEq, Repr

/-- How the fault service supplies a page (R144). -/
inductive Supply where
  | zeros (frame : Nat)
  | data (frame : Nat) (bytes : List (Nat × Byte))
  | present
  | cannot
  deriving DecidableEq, Repr

/-- One partition's row of the partition table (R347) with the values its firmware table gives (R351): ways of the shore cache and sets of
the last-level TLB by die, viaduct slots by router port, its shares of the shared queues in the order of R129 (entries, chain marks), its
shares of a capacity port, a Sheund port, the migration engine and the fault service, link slots by port (the capacity ports 0 to 11, then the
Sheund ports). (log 6, DESIGN CHOICE) -/
structure PartRow where
  piers     : List Nat
  channels  : List Nat
  ways      : List (Nat × Nat)
  tlbSets   : List (Nat × Nat)
  viaSlots  : List (Nat × Nat)
  queues    : List (Nat × Nat)
  zoneSlots : List Nat
  capFrames : List (Nat × Nat)
  shares    : List Nat
  linkSlots : List (Nat × Nat)
  regs      : List (Nat × BitVec 64)
  entryCap  : Nat
  entrySram : Nat
  launchCap : Nat
  slice     : Option Nat
  input     : Bool
  deriving DecidableEq, Repr

/-- One signed image as the boot ROM finds it (R367): is the signature right, does the key hash to the fused value,
its version, and the SHA-512 digest that the measurements report. (log 6, DESIGN CHOICE) -/
structure Image where
  signed  : Bool
  keyHash : Bool
  version : Nat
  digest  : List Byte
  deriving DecidableEq, Repr

/-- What the boot ROM checks and trains at a reset (R345, R367). (log 6, DESIGN CHOICE) -/
structure Boot where
  rom        : List Byte
  hypervisor : Image
  baseDie    : Image
  tables     : Image
  rollback   : Nat
  zoneGiB    : Nat
  ports      : List (Option Nat)
  peers      : List Nat
  deriving DecidableEq, Repr

/-- An access of the host to memory (R150): a read, or a write of bytes, at an address of the memory key space. -/
inductive HostAcc where
  | read (addr : Nat) (len : Nat)
  | write (addr : Nat) (bytes : List Byte)
  deriving DecidableEq, Repr

/-- A future message (R293) on its way, by its place in the list of messages. -/
abbrev MsgIdx := Nat

/-- The rows of spec/opcode_table.json. (log 48, DESIGN CHOICE) -/
inductive Instr where
  -- class 0x0, control
  | nop (x : RRR) | bra (x : RIB) | brx (x : RRR) | brq (x : RIB) | call (x : RIB) | callx (x : RRR) | ret (x : RRR)
  | yield (x : RRR) | cvg (x : RRR) | exit (x : RRR) | trap (x : RIW) | bkpt (x : RIW)
  -- class 0x1, predicate
  | cmp (x : RRR) | cmpImm (x : RIC) | fcmp (x : RRR) | plop (x : RRR) | pmov (x : RRR) | vote (x : RRR) | pset (x : RRR)
  -- class 0x2, integer
  | add (x : RRR) | addImm (x : RIT) | sub (x : RRR) | subImm (x : RIT) | adds (x : RRR) | addsImm (x : RIT)
  | subs (x : RRR) | subsImm (x : RIT) | mul (x : RRR) | mulImm (x : RIT) | mulh (x : RRR) | mulhImm (x : RIT)
  | div (x : RRR) | divImm (x : RIT) | rem (x : RRR) | remImm (x : RIT) | min (x : RRR) | minImm (x : RIT)
  | max (x : RRR) | maxImm (x : RIT) | and (x : RRR) | andImm (x : RIT) | or (x : RRR) | orImm (x : RIT)
  | xor (x : RRR) | xorImm (x : RIT) | andn (x : RRR) | andnImm (x : RIT) | shl (x : RRR) | shlImm (x : RIT)
  | shr (x : RRR) | shrImm (x : RIT) | sha (x : RRR) | shaImm (x : RIT) | rot (x : RRR) | rotImm (x : RIT)
  | mad (x : RRR) | neg (x : RRR) | abs (x : RRR) | sel (x : RRR) | mov (x : RRR) | xtn (x : RRR)
  | movi (x : RIW) | movh (x : RIW) | lea (x : RIW)
  -- class 0x3, integer extended and lane
  | bfx (x : RRR) | bfi (x : RRR) | popc (x : RRR) | clz (x : RRR) | brev (x : RRR) | shfl (x : RRR) | reds (x : RRR)
  | rdln (x : RRR) | wrln (x : RRR) | mfs (x : RRR) | mts (x : RRR) | rdix (x : RRR) | wrix (x : RRR)
  -- class 0x4, memory
  | ld (x : MEM) | st (x : MEM) | ldd (x : MEM) | std (x : MEM) | lda (x : MEM) | stl (x : MEM)
  | pfs (x : RRR) | cctl (x : MEM) | lth (x : RRR)
  -- class 0x5, synchronisation
  | atom (x : MEM) | red (x : MEM) | cas (x : MEM) | atomd (x : MEM) | fence (x : MEM) | waita (x : MEM)
  | bara (x : MEM) | barw (x : MEM) | mbinit (x : MEM) | mbarv (x : MEM) | mbexp (x : MEM) | mbwait (x : MEM) | sred (x : MEM)
  -- class 0x6, ferry and net
  | fcpy (x : MEM) | fcpyt (x : MEM) | fpln (x : MEM) | fcan (x : RRR) | nsend (x : MEM) | fstat (x : RRR)
  -- class 0x7, float
  | fadd (x : RRR) | fsub (x : RRR) | fmul (x : RRR) | ffma (x : RRR) | fmin (x : RRR) | fmax (x : RRR) | fdiv (x : RRR)
  | fsqrt (x : RRR) | frcp (x : RRR) | frsq (x : RRR) | fex2 (x : RRR) | flg2 (x : RRR) | fcls (x : RRR) | frnd (x : RRR)
  | fdot2 (x : RRR)
  -- class 0x8, conversion and random
  | cvt (x : RRR) | rng (x : RRR) | pack (x : RRR) | unpk (x : RRR)
  -- class 0x9, plane
  | pmma (x : RRR) | pmms (x : RRR) | plma (x : RRR) | pacz (x : RRR) | pdrn (x : RRR) | pdrb (x : RRR) | pacs (x : RRR)
  | pacl (x : RRR) | psync (x : RRR)
  -- class 0xA, task
  | spawn (x : RRR) | fref (x : RRR) | fdrop (x : RRR) | fjoin (x : RRR) | fpoll (x : RRR) | fret (x : RRR) | rpt (x : RRR)
  | post (x : RRR) | lnch (x : RRR)
  -- class 0xB, system
  | rft (x : RRR) | mfc (x : RRR) | mtc (x : RRR) | tlbi (x : RRR) | snap (x : RRR) | time (x : RRR) | ctr (x : RRR)
  | sleep (x : RRR)
  -- paired words, by the compact opcode of the first half
  | halfAddS32 (x : Pair) | halfSubS32 (x : Pair) | halfAddsS32 (x : Pair) | halfSubsS32 (x : Pair) | halfMulS32 (x : Pair)
  | halfMinS32 (x : Pair) | halfMaxS32 (x : Pair) | halfMinN32 (x : Pair) | halfMaxN32 (x : Pair) | halfAndB32 (x : Pair)
  | halfOrB32 (x : Pair) | halfXorB32 (x : Pair) | halfAndnB32 (x : Pair) | halfShlB32 (x : Pair) | halfShrB32 (x : Pair)
  | halfShaB32 (x : Pair) | halfRotB32 (x : Pair) | halfMovB32 (x : Pair) | halfAddS64 (x : Pair) | halfSubS64 (x : Pair)
  | halfAndB64 (x : Pair) | halfOrB64 (x : Pair) | halfXorB64 (x : Pair) | halfShlB64 (x : Pair) | halfShrB64 (x : Pair)
  | halfShaB64 (x : Pair) | halfMovB64 (x : Pair) | halfFaddF32 (x : Pair) | halfFmulF32 (x : Pair) | halfFminF32 (x : Pair)
  | halfFmaxF32 (x : Pair) | halfFaddBf16x2 (x : Pair) | halfFmulBf16x2 (x : Pair) | halfFminBf16x2 (x : Pair)
  | halfFmaxBf16x2 (x : Pair) | halfFaddF16x2 (x : Pair) | halfFmulF16x2 (x : Pair) | halfFminF16x2 (x : Pair)
  | halfFmaxF16x2 (x : Pair) | halfNop (x : Pair)
  -- steps of the spans and of the memory system
  | instructionFetch
  | walkComplete (span chk : Nat)
  | trapEntry (span : Nat)
  | spanRetire (span : Nat)
  | blockRetire (launch blk : Nat)
  | preemptionRequest (span : Nat)
  | preemptionSave (span : Nat)
  | preemptionTimeout (span : Nat)
  | resumption (ctx region : Nat)
  | resultArrival (span res : Nat)
  | deckBankAccess (pier bank : Nat)
  | requestPerformed (span slot : Nat) (fromL1 : Bool) (lanes : List Nat)
  | bounce (span slot : Nat) (reason : BitVec 4)
  | backoffExpiry (span slot : Nat)
  | wakeEvent (span slot : Nat)
  | engineFork (span : Nat) (what : ForkRef)
  | faultNotice (n : Nat)
  | faultServiceComplete (ctx page : Nat) (how : Supply)
  | evictionStart (part : Nat) (dest : Nat)
  | expansion (ctx page frame : Nat)
  | pageMove (move : Nat) (promote : Option (Nat × Nat × Nat))
  | shootDownAck (sd recv : Nat)
  | retireNotice (sd pier : Nat)
  | watchWake (span lane : Nat)
  | waitaTimeout (span lane : Nat)
  | watchPoll (span lane : Nat)
  | sleepExpiry (span lane : Nat)
  -- steps of the engines, the shadows and the net
  | ferryChunk (span op chunk : Nat)
  | planeOpStart (pier steps : Nat)
  | planeOpEnd (pier : Nat)
  | shadowMerge (n : Nat)
  | routerAccept (span op : Nat)
  | roundResult (part tree : Nat)
  | roundTimeout (part tree : Nat)
  -- steps of the futures and the schedulers
  | recordArrival (span slot : Nat)
  | spillMove (pier part : Nat)
  | berthStep (pier : Nat)
  | berthTimerExpiry (pier berth : Nat)
  | berthSpanStart (pier berth : Nat)
  | futureMessage (n : MsgIdx)
  | doomArrival (span lane : Nat)
  | fjoinDelivery (span lane : Nat)
  | fjoinPoll (span lane : Nat)
  | quadrantPick (quad : Nat)
  | blockPlacement (launch : Nat)
  | launchComplete (launch : Nat)
  -- steps of the host and the package
  | doorbell (vf q : Nat) (w : Word)
  | recordConsume (vf q : Nat)
  | eridxWrite (vf q : Nat) (v : Word)
  | enable (vf q ctxno : Nat)
  | reset (vf q : Nat)
  | kill (vf q : Nat)
  | clrlost (vf q : Nat)
  | save (vf q : Nat)
  | resume (vf q : Nat)
  | registerWrite (vf off : Nat) (v : Word)
  | dieFence (die reason : Nat)
  | take
  | restore
  | release
  | timeSliceExpiry (part old new : Nat)
  | partitionTableWrite (table : List PartRow)
  | snapshotTrigger (part source : Nat)
  | lineHoldArm (vf n : Nat)
  | lineHoldStart (vf : Nat)
  | lineHoldExpiry
  | deviceReset (boot : Boot)
  | getVersion (fn : Nat)
  | getCapabilities (fn : Nat)
  | negotiateAlgorithms (fn : Nat) (sign hash : Nat)
  | getDigests (fn : Nat)
  | getCertificate (fn off len : Nat)
  | challenge (fn : Nat) (nonce : List Byte)
  | getMeasurements (fn idx : Nat)
  | sheundLinkDown (port : Nat)
  | hostAccess (acc : HostAcc)
  | mailboxRequest (fn : Nat) (msg : List Byte)
  deriving DecidableEq, Repr

end Sys2Proof
end

