-- ==== Sys2Proof/Machine/Legal.lean ====
section
/-! DEFINITION. Which words are instructions (R75): the reserved and forbidden field values of R52 to R62, R70, R71 and of
each instruction's own description, one check a form. A word whose fields break a check traps ILL. -/

namespace Sys2Proof

/-- Why a word is no instruction: the rows of R75. -/
inductive Ill where
  | reservedClass | badFunction | uniformMark | guardField | registerField | pairField | unusedField | reservedCode
  | predicateField | deferBit | memoryCode | pairedForm | forbidden | tooShort
  deriving DecidableEq, Repr

/-- The first check that fails. -/
def firstBad : List (Bool × Ill) → Option Ill
  | [] => none
  | (b, r) :: rest => if b then some r else firstBad rest

/-- How an instruction uses a register field. -/
inductive Use where
  | zero            -- unused: 0 (R54)
  | reg (n : Nat)   -- a register of n words: scalar with U or K, else vector (R53, R54)
  | sca             -- scalar whatever U is (R53)
  | vec             -- vector whatever U is (R53)
  | pred            -- a predicate number: 0 to 15, or 0 to 7 with U
  | qd              -- a span predicate number
  | any             -- checked by the instruction's own line
  deriving DecidableEq, Repr

/-- Is field value `f` outside what its use allows? -/
def Use.bad (use : Use) (u k : Bool) (f : BitVec 8) : Bool :=
  match use with
  | .zero => f != 0
  | .reg n => if u || k then decide (63 < f.toNat) else f.toNat % n != 0
  | .sca => decide (63 < f.toNat)
  | .vec => false
  | .pred => if u then decide (7 < f.toNat) else decide (15 < f.toNat)
  | .qd => decide (7 < f.toNat)
  | .any => false

/-- The registers and predicates that a word reads or writes, by number: vector, scalar, per-lane predicate, span predicate.
REGBUD (R48) and UNSYNC (R65) look at them. -/
structure Uses where
  v : List Nat := []
  s : List Nat := []
  p : List Nat := []
  q : List Nat := []
  deriving DecidableEq, Repr

def Uses.add (a b : Uses) : Uses := ⟨a.v ++ b.v, a.s ++ b.s, a.p ++ b.p, a.q ++ b.q⟩

/-- `n` consecutive numbers from `f`. -/
def run (f n : Nat) : List Nat := (List.range n).map (f + ·)

/-- What a field of this use touches. -/
def Use.regs (use : Use) (u k : Bool) (f : BitVec 8) : Uses :=
  match use with
  | .zero | .any => {}
  | .reg n => if u || k then { s := [f.toNat] } else { v := run f.toNat n }
  | .sca => { s := [f.toNat] }
  | .vec => { v := [f.toNat] }
  | .pred => if u then { q := [f.toNat] } else { p := [f.toNat] }
  | .qd => { q := [f.toNat] }

def guardUses (c : Ctl) : Uses :=
  match c.guard with
  | .always => {}
  | .pred p _ => if c.u then { q := [p.toNat] } else { p := [p.toNat] }

/-- A form of a word: its W, guard and U, the checks of R75 on it, what it touches, and what it computes from what: each of `flows` is what
some of its results are computed from, and where they go (R154). -/
structure Shape where
  ctl    : Ctl := {}
  checks : List (Bool × Ill) := []
  uses   : Uses := {}
  flows  : List (Uses × Uses) := []

/-- The guard's rules (R52): a span guard names q0 to q7. -/
def guardBad (c : Ctl) : Bool :=
  match c.guard with
  | .always => false
  | .pred p _ => c.u && decide (7 < p.toNat)

/-- The opcode map's uniform mark (R53): none is "either". -/
def markBad (mark : Option Bool) (c : Ctl) : Bool :=
  match mark with
  | none => false
  | some m => c.u != m

/-- Registers that a type occupies (R54, R57). -/
def Ty.regs : Ty → Nat
  | .s64 | .n64 | .b64 => 2
  | .b128 => 4
  | _ => 1

def six : List Ty := [.s32, .n32, .b32, .s64, .n64, .b64]
def signedNatural : List Ty := [.s32, .n32, .s64, .n64]
def rawBits : List Ty := [.b32, .b64]
def floats : List Ty := [.f32, .f16, .bf16]
def floatsPacked : List Ty := [.f32, .f16, .bf16, .f16x2, .bf16x2]

/-- What an RRR form accepts: its mark, the use of each field, whether KA and KB are its own, its types (empty: TYPE
unused, 0), and whether its F6 is legal; whether D is read, and whether it is written. -/
structure RForm where
  mark : Option Bool := none
  d : Use := .zero
  a : Use := .zero
  b : Use := .zero
  c : Use := .zero
  ka : Bool := false
  kb : Bool := false
  types : List Ty := []
  f6 : Bool := true
  dIn : Bool := false
  dOut : Bool := true

/-- `also` are registers that the word reads beside those of its fields, `made` those that it writes. -/
def rrrBad (x : RRR) (f : RForm) (more : List (Bool × Ill) := []) (also : Uses := {}) (made : Uses := {}) : Shape where
  ctl := x.ctl
  checks := [
    (markBad f.mark x.ctl, .uniformMark),
    (guardBad x.ctl, .guardField),
    (x.ka && (!f.ka || x.ctl.u), .unusedField),
    (x.kb && (!f.kb || x.ctl.u), .unusedField),
    (f.d.bad x.ctl.u false x.d, .registerField),
    (f.a.bad x.ctl.u x.ka x.a, .registerField),
    (f.b.bad x.ctl.u x.kb x.b, .registerField),
    (f.c.bad x.ctl.u false x.c, .registerField),
    (if f.types.isEmpty then x.ty != .s8 else !f.types.contains x.ty, .reservedCode),
    (!f.f6, .unusedField)] ++ more
  uses := (guardUses x.ctl).add <| (f.d.regs x.ctl.u false x.d).add <| (f.a.regs x.ctl.u x.ka x.a).add <|
    (f.b.regs x.ctl.u x.kb x.b).add <| (f.c.regs x.ctl.u false x.c).add <| also.add made
  flows := [((guardUses x.ctl).add <| (if f.dIn then f.d.regs x.ctl.u false x.d else {}).add <| (f.a.regs x.ctl.u x.ka x.a).add <|
      (f.b.regs x.ctl.u x.kb x.b).add <| (f.c.regs x.ctl.u false x.c).add also,
    (if f.dOut then f.d.regs x.ctl.u false x.d else {}).add made)]

/-- F6 fields. -/
def RRR.lo3 (x : RRR) : Nat := (x.f6.extractLsb' 0 3).toNat
def RRR.hi3 (x : RRR) : Nat := (x.f6.extractLsb' 3 3).toNat
def RRR.lo2 (x : RRR) : Nat := (x.f6.extractLsb' 0 2).toNat
def RRR.bit (x : RRR) (i : Nat) : Bool := x.f6.getLsbD i
/-- F6 has no bit set at or above `n`. -/
def RRR.f6Below (x : RRR) (n : Nat) : Bool := decide (x.f6.toNat < 2 ^ n)

/-- Compare conditions of a .b type are .eq and .ne (R89); CT 110 and 111 are reserved (R61). -/
def condBad (ty : Ty) (cond : Nat) : Bool := decide (5 < cond) || (rawBits.contains ty && decide (1 < cond))

/-- pa and pb of a predicate byte (R61, R62). -/
def predByteBad (u : Bool) (d : BitVec 8) : Bool :=
  d.extractLsb' 4 4 == d.extractLsb' 0 4 || (u && (d.getLsbD 7 || d.getLsbD 3))

def predByteUses (u : Bool) (d : BitVec 8) : Uses :=
  let two := [(d.extractLsb' 4 4).toNat, (d.extractLsb' 0 4).toNat]
  if u then { q := two } else { p := two }

def Cond.code : Cond → Nat
  | .eq => 0 | .ne => 1 | .lt => 2 | .le => 3 | .gt => 4 | .ge => 5 | .num => 6 | .nan => 7

/-- The three-operand integer forms (R95 to R97). -/
def alu (types : List Ty) (x : RRR) : Shape :=
  rrrBad x { d := .reg x.ty.regs, a := .reg x.ty.regs, b := .reg x.ty.regs, ka := true, kb := true, types := types,
             f6 := x.f6Below 0 }

/-- Their immediate forms (R58, R59). -/
def aluImm (types : List Ty) (x : RIT) : Shape where
  ctl := x.ctl
  checks := [
    (guardBad x.ctl, .guardField),
    ((Use.reg x.ty.regs).bad x.ctl.u false x.d, .registerField),
    ((Use.reg x.ty.regs).bad x.ctl.u false x.a, .registerField),
    (!types.contains x.ty, .reservedCode)]
  uses := (guardUses x.ctl).add <| ((Use.reg x.ty.regs).regs x.ctl.u false x.d).add ((Use.reg x.ty.regs).regs x.ctl.u false x.a)
  flows := [((guardUses x.ctl).add ((Use.reg x.ty.regs).regs x.ctl.u false x.a), (Use.reg x.ty.regs).regs x.ctl.u false x.d)]

def branchBad (x : RIB) (mark : Bool) (d : Use) (defer : Bool) : Shape where
  ctl := x.ctl
  checks := [
    (markBad (some mark) x.ctl, .uniformMark), (guardBad x.ctl, .guardField),
    (d.bad x.ctl.u false x.d, .registerField), (x.a != 0, .unusedField), (x.y && !defer, .deferBit)]
  uses := (guardUses x.ctl).add (d.regs x.ctl.u false x.d)
  flows := [(guardUses x.ctl, d.regs x.ctl.u false x.d)]

def wholeBad (x : RIW) (d : Use) (more : List (Bool × Ill)) (dIn : Bool := false) : Shape where
  ctl := x.ctl
  checks := [(guardBad x.ctl, .guardField), (d.bad x.ctl.u false x.d, .registerField)] ++ more
  uses := (guardUses x.ctl).add (d.regs x.ctl.u false x.d)
  flows := [((guardUses x.ctl).add (if dIn then d.regs x.ctl.u false x.d else {}), d.regs x.ctl.u false x.d)]

/-- Float forms (R263): RM used or 0. -/
def floatBad (x : RRR) (types : List Ty) (arity : Nat) (rm : Bool) (low : Nat → Bool) : Shape :=
  rrrBad x { mark := some false, d := .reg 1, a := .reg 1,
             b := if arity < 2 then .zero else .reg 1, c := if arity < 3 then .zero else .vec,
             ka := true, kb := decide (1 < arity), types := types, f6 := low x.lo3 }
    [(if rm then decide (4 < x.hi3) else x.hi3 != 0, .reservedCode)]

/-! Special registers (R107) and control registers (R332) by index. -/

/-- Width of a special register, if the index is listed. -/
def specialWidth (i : Nat) : Option Nat :=
  if i = 2 ∨ i = 5 ∨ i = 6 then some 64 else if i ≤ 0x11 ∨ i = 0x19 then some 32 else none

/-- Is the control register listed (R332)? -/
def ctlListed (i : Nat) : Bool := decide (i ≤ 0x0D) || (decide (0x10 ≤ i) && decide (i ≤ 0x17))

/-- Is it marked privileged, and is it marked slow? -/
def ctlPrivileged (i : Nat) : Bool := [1, 2, 3, 4, 5, 6, 8, 0x0D].contains i
def ctlSlow (i : Nat) : Bool := decide (8 ≤ i)

/-- The type code of a number (R57). -/
def tyOfNat : Nat → Option Ty
  | 0x00 => some .s8 | 0x01 => some .s16 | 0x02 => some .s32 | 0x03 => some .s64
  | 0x04 => some .n8 | 0x05 => some .n16 | 0x06 => some .n32 | 0x07 => some .n64
  | 0x08 => some .b8 | 0x09 => some .b16 | 0x0A => some .b32 | 0x0B => some .b64 | 0x0C => some .b128
  | 0x10 => some .f32 | 0x11 => some .f16 | 0x12 => some .bf16 | 0x13 => some .f16x2 | 0x14 => some .bf16x2
  | 0x15 => some .l6 | _ => none

/-- CVT mode 0: the accepted pairs (R271). -/
def cvtPair (dt st : Ty) : Bool :=
  dt != st && ((floats.contains dt && floats.contains st) || (floats.contains dt && signedNatural.contains st) ||
    (signedNatural.contains dt && floats.contains st))

/-- The source type of CVT mode 0 (R270). -/
def cvtSrc (x : RRR) : Option Ty := tyOfNat (x.c.extractLsb' 0 5).toNat

def cvtBad (x : RRR) : Shape :=
  let base : RForm := { mark := some false, d := .reg x.ty.regs, ka := true }
  let rm := (decide (4 < x.hi3), Ill.reservedCode)
  match x.lo3 with
  | 0 => match cvtSrc x with
    | none => { checks := [(true, .reservedCode)] }
    | some st => rrrBad x { base with a := .reg st.regs, c := .any, types := floats ++ signedNatural }
        [rm, (decide (31 < x.c.toNat), .unusedField), (!cvtPair x.ty st, .forbidden)]
  | 1 => rrrBad x { base with a := .reg 1, types := [.f32] } [rm]
  | 2 => rrrBad x { base with a := .reg 1, types := [.f32] } [rm]
  | 3 => rrrBad x { base with a := .reg 1, b := .reg 1, c := .any, kb := true, types := [.f32] }
      [rm, (decide (31 < x.c.toNat), .unusedField)]
  | 4 => rrrBad x { base with a := .reg 1, b := .reg 1, kb := true, types := [.f32] } [rm]
  | _ => { checks := [(true, .reservedCode)] }

def packBad (x : RRR) : Shape :=
  let f : RForm := { mark := some false, d := .reg 1, a := .reg 1, b := .reg 1, ka := true, kb := true,
                     types := [.f16x2, .bf16x2, .b16, .s16, .n16, .s8, .n8] }
  match x.ty with
  | .f16x2 | .bf16x2 => rrrBad x f [(x.lo3 != 0, .unusedField), (decide (4 < x.hi3), .reservedCode)]
  | .s8 | .n8 => rrrBad x { f with f6 := x.f6Below 1, dIn := true }
  | _ => rrrBad x { f with f6 := x.f6Below 0 }

def unpkBad (x : RRR) : Shape :=
  rrrBad x { mark := some false, d := .reg 1, a := .reg 1, ka := true,
             types := [.f16x2, .bf16x2, .b16, .s16, .n16, .s8, .n8],
             f6 := if x.ty = .s8 ∨ x.ty = .n8 then x.f6Below 2 else x.f6Below 1 }

/-- REDS: which types each operation accepts (R104). -/
def redsTypes : Nat → List Ty
  | 0 => six
  | 1 | 2 => signedNatural
  | 3 | 4 | 5 => rawBits
  | _ => []

/-- Plane forms (R276): the uses of B and C, and the legal F6. D is read. -/
def planeBad (x : RRR) (a b c : Use) (f6 : Bool) (more : List (Bool × Ill) := []) (also : Uses := {}) (d : Use := .vec) : Shape :=
  rrrBad x { mark := some false, d := d, a := a, b := b, c := c, f6 := f6, dIn := true, dOut := false }
    ((x.ctl.guard != .always, .guardField) :: more) also

/-! The MEM layout (R60, R181). -/

/-- How a MEM form uses A and B. -/
inductive MUse where
  | zero
  | base            -- scalar, pair, or absent
  | deckBase        -- scalar, one vector register, or absent (R186)
  | index           -- scalar, vector, or absent
  | opnd (n : Nat)  -- a register operand of n words, never absent
  | sca             -- scalar, never absent
  | vec             -- a vector register
  | any

def MUse.bad (use : MUse) (u k : Bool) (f : BitVec 8) : Bool :=
  match use with
  | .zero => f != 0 || k
  | .base => f != 0xFF && (if u || k then decide (63 < f.toNat) else f.toNat % 2 != 0)
  | .deckBase | .index => f != 0xFF && (u || k) && decide (63 < f.toNat)
  | .opnd n => if u || k then decide (63 < f.toNat) else f.toNat % n != 0
  | .sca => decide (63 < f.toNat)
  | .vec => k
  | .any => false

def MUse.regs (use : MUse) (u k : Bool) (f : BitVec 8) : Uses :=
  let one (n : Nat) : Uses := if u || k then { s := [f.toNat] } else { v := run f.toNat n }
  match use with
  | .zero | .any => {}
  | .base => if f = 0xFF then {} else one 2
  | .deckBase | .index => if f = 0xFF then {} else one 1
  | .opnd n => one n
  | .sca => { s := [f.toNat] }
  | .vec => { v := [f.toNat] }

/-- Registers of an access size (R60). -/
def sizeRegs (size : BitVec 3) : Nat := if size = 3 then 2 else if size = 4 then 4 else 1

structure MForm where
  mark : Option Bool := none
  d : Use := .zero
  a : MUse := .zero
  b : MUse := .zero
  scopes : List Scope := [.span]
  orders : List Order := [.plain]
  sizes : List Nat := [0]
  off : Bool := true
  dIn : Bool := false
  dOut : Bool := true

/-- `also` are registers that the word reads beside those of its fields, `made` those that it writes. (log 18, DEDUCED) -/
def memBad (x : MEM) (f : MForm) (more : List (Bool × Ill) := []) (also : Uses := {}) (made : Uses := {}) : Shape where
  ctl := x.ctl
  checks := [
    (markBad f.mark x.ctl, .uniformMark),
    (guardBad x.ctl, .guardField),
    (x.ctl.u && (x.ka || x.kb), .unusedField),
    (f.d.bad x.ctl.u false x.d, .registerField),
    (f.a.bad x.ctl.u x.ka x.a, .registerField),
    (f.b.bad x.ctl.u x.kb x.b, .registerField),
    (!f.scopes.contains x.scope, .memoryCode),
    (!f.orders.contains x.order, .memoryCode),
    (!f.sizes.contains x.size.toNat, .memoryCode),
    (!f.off, .unusedField)] ++ more
  uses := (guardUses x.ctl).add <| (f.d.regs x.ctl.u false x.d).add <| (f.a.regs x.ctl.u x.ka x.a).add <|
    (f.b.regs x.ctl.u x.kb x.b).add <| also.add made
  flows := [((guardUses x.ctl).add <| (if f.dIn then f.d.regs x.ctl.u false x.d else {}).add <| (f.a.regs x.ctl.u x.ka x.a).add <|
      (f.b.regs x.ctl.u x.kb x.b).add also,
    (if f.dOut then f.d.regs x.ctl.u false x.d else {}).add made)]

def allScopes : List Scope := [.span, .block, .pier, .die, .pkg, .sys]

/-- AOPW (R188). -/
def MEM.aop (x : MEM) : Nat := (x.off.extractLsb' 6 4).toNat
def MEM.aty (x : MEM) : Nat := (x.off.extractLsb' 4 2).toNat
def MEM.uw (x : MEM) : Bool := x.off.getLsbD 0

/-- The operations and their types (R188): `exch` says whether .exch is the instruction's own. -/
def aopBad (x : MEM) (exch : Bool) : Bool :=
  (x.off.extractLsb' 1 3 != 0) ||
  !(match x.aop with
    | 0 => x.aty ≤ 1
    | 1 | 2 => x.aty ≤ 1 || (x.aty == 3 && x.size == 2)
    | 3 | 4 | 5 => x.aty == 2
    | 6 => exch && x.aty == 2
    | _ => false)

/-- `.u` of ATOM and CAS needs an order of release kind (R183, R188). -/
def uwBad (x : MEM) : Bool := x.uw && (x.order == .plain || x.order == .acq)

/-- CAS reads the register or pair after B as well (R189). (log 18, DEDUCED) -/
def casUses (x : MEM) : Uses :=
  if x.ctl.u || x.kb then { s := [x.b.toNat + 1] } else { v := run x.b.toNat (2 * sizeRegs x.size) }

/-- A scope that a named barrier can have (R199), and its count field. (log 18, DEDUCED) -/
def barBad (x : MEM) (off : Bool) (made : Uses := {}) : Shape :=
  memBad x { mark := some false, d := .any, b := .any, scopes := [.block, .die, .pkg], off := off }
    [(decide (15 < x.d.toNat), .registerField), (if x.kb then decide (63 < x.b.toNat) else x.b != 0xFF, .registerField)]
    (if x.kb then { s := [x.b.toNat] } else {}) made

def linkBad (x : MEM) (dmax : Nat) (b : MUse) (bmax : Nat) (also : Uses := {}) : Shape :=
  memBad x { mark := some true, d := .sca, a := .sca, b := b, scopes := allScopes, dIn := true, dOut := false,
             off := x.off.getLsbD 9 || x.off == 0 }
    [(decide (dmax < x.d.toNat) || decide (bmax < x.b.toNat), .registerField)] (also.add { s := run x.d.toNat 4 })

/-- Orders with a release part and with an acquire part (R60). -/
def Order.releases (o : Order) : Bool := o = .rel || o = .ar || o = .seq
def Order.acquires (o : Order) : Bool := o = .acq || o = .ar || o = .seq

/-- Scopes of a die or wider (R161), and those of the whole package or wider (R178). -/
def Scope.wide (c : Scope) : Bool := c = .die || c = .pkg || c = .sys
def Scope.all (c : Scope) : Bool := c = .pkg || c = .sys

/-! Paired words (R68 to R72). -/

def Cop.wide : Cop → Bool
  | .addS64 | .subS64 | .andB64 | .orB64 | .xorB64 | .shlB64 | .shrB64 | .shaB64 | .movB64 => true
  | _ => false

def Cop.float : Cop → Bool
  | .faddF32 | .fmulF32 | .fminF32 | .fmaxF32 | .faddBf16x2 | .fmulBf16x2 | .fminBf16x2 | .fmaxBf16x2
  | .faddF16x2 | .fmulF16x2 | .fminF16x2 | .fmaxF16x2 => true
  | _ => false

def Half.width (h : Half) : Nat := if h.cop.wide then 2 else 1

/-- Vector registers that a half writes. -/
def Half.writes (h : Half) : List Nat :=
  if h.cop = .nop then [] else (List.range h.width).map (h.f.d.toNat + ·)

/-- Vector registers that a half reads (R70), each once: D but in MOV, and a vector B. -/
def Half.reads (h : Half) : List Nat :=
  if h.cop = .nop then [] else
    ((if h.cop = .movB32 ∨ h.cop = .movB64 then [] else h.writes) ++
      (if h.f.k = 0 then (List.range h.width).map (h.f.b.toNat + ·) else [])).eraseDups

def halfBad (h : Half) : Bool :=
  if h.cop = .nop then h.f != {} else
    (h.f.k == 1 && decide (63 < h.f.b.toNat)) ||
    (h.cop.float && h.f.k.getLsbD 1) ||
    (h.cop.wide && (h.f.d.getLsbD 0 || (h.f.k == 0 && h.f.b.getLsbD 0)))

/-- Reads of one bank (R70). -/
def bankReads (h0 h1 : Half) (bank : Nat) : Nat := ((h0.reads ++ h1.reads).filter (· % 4 = bank)).length

/-- What a half touches. -/
def Half.uses (h : Half) : Uses :=
  ((guardUses { guard := h.f.guard }).add { v := h.reads ++ h.writes }).add
    (if h.cop ≠ .nop ∧ h.f.k = 1 then { s := [h.f.b.toNat] } else {})

/-- What a half computes from what. -/
def Half.flow (h : Half) : Uses × Uses :=
  (((guardUses { guard := h.f.guard }).add { v := h.reads ++ if h.f.guard = .always then [] else h.writes }).add (if h.cop ≠ .nop ∧ h.f.k = 1 then { s := [h.f.b.toNat] } else {}),
    { v := h.writes })

/-- What makes a paired word illegal (R54, R69, R70), and what it uses: the causes of R66 are tested once, over the registers of both
halves together (log 16, DEDUCED). -/
def pairBad (cop : Cop) (x : Pair) : Shape :=
  let h0 : Half := ⟨cop, x.h0⟩
  { ctl := { w := x.w }
    checks := [
      (halfBad h0 || halfBad x.h1, .pairedForm),
      (h0.writes.any (x.h1.writes.contains ·), .pairedForm),
      ((List.range 4).any (fun k => decide (2 < bankReads h0 x.h1 k)), .pairedForm)]
    uses := h0.uses.add x.h1.uses
    flows := [h0.flow, x.h1.flow] }

/-! Every instruction's check. -/

/-- (log 18, DEDUCED) -/
def shapeControl : Instr → Option Shape
  | .nop x => some <| rrrBad x { f6 := x.f6Below 0 }
  | .bra x => some <| branchBad x false .zero true
  | .brx x => some <| rrrBad x { mark := some false, a := .reg 2, ka := true, f6 := x.f6Below 1 }
  | .brq x => some <| branchBad x true .zero true
  | .call x => some <| branchBad x false (.reg 2) false
  | .callx x => some <| rrrBad x { mark := some false, d := .reg 2, a := .reg 2, ka := true, f6 := x.f6Below 0 }
  | .ret x => some <| rrrBad x { mark := some false, a := .reg 2, ka := true, f6 := x.f6Below 0 }
  | .yield x | .cvg x | .exit x => some <| rrrBad x { mark := some false, f6 := x.f6Below 0 }
  | .trap x | .bkpt x => some <| wholeBad x .zero [(x.a != 0, .unusedField)]
  | .cmp x => some <| rrrBad x { d := .any, a := .reg x.ty.regs, b := .reg x.ty.regs, ka := true, kb := true, types := six }
      [(condBad x.ty x.hi3 || decide (5 < x.lo3), .reservedCode), (predByteBad x.ctl.u x.d, .predicateField)]
      (if x.lo3 < 2 then {} else predByteUses x.ctl.u x.d) (predByteUses x.ctl.u x.d)
  | .cmpImm x => some <|
      { ctl := x.ctl, checks := [
          (guardBad x.ctl, .guardField), ((Use.reg x.ty.regs).bad x.ctl.u false x.a, .registerField),
          (!six.contains x.ty || condBad x.ty x.cond.code, .reservedCode), (predByteBad x.ctl.u x.d, .predicateField)],
        uses := (guardUses x.ctl).add <| ((Use.reg x.ty.regs).regs x.ctl.u false x.a).add (predByteUses x.ctl.u x.d)
        flows := [((guardUses x.ctl).add <| ((Use.reg x.ty.regs).regs x.ctl.u false x.a).add
            (if x.ct = .full ∨ x.ct = .set then {} else predByteUses x.ctl.u x.d), predByteUses x.ctl.u x.d)] }
  | .fcmp x => some <| rrrBad x { mark := some false, d := .any, a := .reg 1, b := .reg 1, kb := true, types := floats }
      [(decide (5 < x.lo3), .reservedCode), (predByteBad false x.d, .predicateField)]
      (if x.lo3 < 2 then {} else predByteUses false x.d) (predByteUses false x.d)
  | .plop x => some <| rrrBad x { d := .pred, a := .pred, b := .pred, f6 := x.f6Below 4 }
  | .pmov x => some <| match x.f6.toNat with
    | 0 => rrrBad x { mark := some false, d := .reg 1 } [] { p := run 0 16 }
    | 1 => rrrBad x { mark := some false, a := .reg 1 } [] {} { p := run 0 16 }
    | 2 => rrrBad x { mark := some true, d := .reg 1 } [] { q := run 0 8 }
    | 3 => rrrBad x { mark := some true, a := .reg 1 } [] {} { q := run 0 8 }
    | _ => { checks := [(true, .unusedField)] }
  | .vote x => some <| rrrBad x { mark := some false, d := if x.lo2 = 2 then .sca else .qd, a := .pred, f6 := x.f6Below 3 }
      [(x.lo2 == 3, .reservedCode)]
  | .pset x => some <| match x.f6.toNat with
    | 0 | 1 => rrrBad x { d := .pred }
    | 2 => rrrBad x { d := .pred, a := .reg x.ty.regs, ka := true, types := rawBits }
    | _ => { checks := [(true, .reservedCode)] }
  | _ => none

def shapeInteger : Instr → Option Shape
  | .add x | .sub x | .mul x => some <| alu six x
  | .addImm x | .subImm x | .mulImm x => some <| aluImm six x
  | .adds x | .subs x | .mulh x | .div x | .rem x | .min x | .max x => some <| alu signedNatural x
  | .addsImm x | .subsImm x | .mulhImm x | .divImm x | .remImm x | .minImm x | .maxImm x => some <| aluImm signedNatural x
  | .and x | .or x | .xor x | .andn x | .shl x | .shr x | .sha x | .rot x => some <| alu rawBits x
  | .andImm x | .orImm x | .xorImm x | .andnImm x | .shlImm x | .shrImm x | .shaImm x | .rotImm x => some <| aluImm rawBits x
  | .mad x => some <| rrrBad x { d := .reg x.ty.regs, a := .reg x.ty.regs, b := .reg x.ty.regs, c := .reg x.ty.regs, ka := true,
                                 kb := true, types := six, f6 := x.f6Below 0 }
  | .neg x | .abs x => some <| rrrBad x { d := .reg x.ty.regs, a := .reg x.ty.regs, ka := true, types := [.s32, .s64], f6 := x.f6Below 0 }
  | .sel x => some <| rrrBad x { d := .reg x.ty.regs, a := .reg x.ty.regs, b := .reg x.ty.regs, c := .pred, ka := true, kb := true,
                                 types := rawBits, f6 := x.f6Below 1 }
  | .mov x => some <| rrrBad x { d := .reg x.ty.regs, a := .reg x.ty.regs, ka := true, types := [.b32, .b64, .b128], f6 := x.f6Below 0 }
      [(x.ty == .b128 && (x.ka || x.ctl.u), .forbidden)]
  | .xtn x => some <| rrrBad x { d := .reg (if x.bit 0 then 2 else 1), a := .reg 1, ka := true,
                                 types := [.s8, .s16, .s32, .n8, .n16, .n32], f6 := x.f6Below 1 }
  | .movi x => some <| wholeBad x (.reg 1) [(x.a != 0, .unusedField)]
  | .movh x => some <| wholeBad x (.reg 1) [(decide ((if x.ctl.u then 3 else 1) < x.a.toNat), .forbidden),
                                            (decide (65535 < x.imm.toNat), .unusedField)] true
  | .lea x => some <| wholeBad x (.reg 2) [(x.a != 0, .unusedField)]
  | .bfx x => some <| alu signedNatural x
  | .bfi x => some <| rrrBad x { d := .reg x.ty.regs, a := .reg x.ty.regs, b := .reg x.ty.regs, c := .reg x.ty.regs, ka := true,
                                 kb := true, types := rawBits, f6 := x.f6Below 0 }
  | .popc x | .clz x => some <| rrrBad x { d := .reg 1, a := .reg x.ty.regs, ka := true, types := rawBits, f6 := x.f6Below 0 }
  | .brev x => some <| rrrBad x { d := .reg x.ty.regs, a := .reg x.ty.regs, ka := true, types := rawBits, f6 := x.f6Below 0 }
  | .shfl x => some <| rrrBad x { mark := some false, d := .reg x.ty.regs, a := .reg x.ty.regs, b := .reg 1, kb := true,
                                  types := rawBits, f6 := x.f6Below 5 } [(decide (23 < x.f6.toNat), .reservedCode)]
  | .reds x => some <| rrrBad x { mark := some false, d := .sca, a := .reg x.ty.regs, types := six, f6 := x.f6Below 3 }
      [(!(redsTypes x.lo3).contains x.ty, .reservedCode)]
  | .rdln x => some <| rrrBad x { mark := some false, d := .sca, a := .reg x.ty.regs, b := if x.bit 5 then .zero else .sca,
                                  types := rawBits, f6 := x.bit 5 || x.f6Below 0 } [(x.ctl.guard != .always, .guardField)]
  | .wrln x => some <| rrrBad x { mark := some false, d := .reg x.ty.regs, a := .sca, b := if x.bit 5 then .zero else .sca, dIn := true,
                                  types := rawBits, f6 := x.bit 5 || x.f6Below 0 } [(x.ctl.guard != .always, .guardField)]
  | .mfs x => some <| rrrBad x { mark := some false, d := if specialWidth x.a.toNat = some 64 then .reg 2 else .reg 1, a := .any,
                                 f6 := x.f6Below 0 } [((specialWidth x.a.toNat).isNone, .forbidden)]
  | .mts x => some <| rrrBad x { mark := some false, d := .any, a := .sca, f6 := x.f6Below 0 }
      [(x.ctl.guard != .always, .guardField), (x.d != 0x19, .forbidden)]
  | .rdix x => some <| rrrBad x { mark := some false, d := .reg 1, a := .reg 1, types := [.b32], f6 := x.f6Below 0 }
  | .wrix x => some <| rrrBad x { mark := some false, d := .reg 1, a := .reg 1, ka := true, types := [.b32], f6 := x.f6Below 0,
                                  dIn := true, dOut := false }
  | _ => none

def shapeMemory : Instr → Option Shape
  | .ld x => some <| memBad x { d := .reg (sizeRegs x.size), a := .base, b := .index, scopes := allScopes,
                                orders := [.plain, .acq, .seq], sizes := [0, 1, 2, 3, 4, 5, 6] } [(x.ctl.u && x.size == 4, .memoryCode)]
  | .st x => some <| memBad x { d := .reg (sizeRegs x.size), a := .base, b := .index, scopes := allScopes,
                                orders := [.plain, .rel, .ar, .seq], sizes := [0, 1, 2, 3, 4], dIn := true, dOut := false }
      [(x.ctl.u && x.size == 4, .memoryCode)]
  | .ldd x => some <| memBad x { mark := some false, d := .reg (sizeRegs x.size), a := .deckBase, b := .index, sizes := [0, 1, 2, 3, 4, 5, 6] }
  | .std x => some <| memBad x { mark := some false, d := .reg (sizeRegs x.size), a := .deckBase, b := .index, sizes := [0, 1, 2, 3, 4],
                                 dIn := true, dOut := false }
  | .lda x => some <| memBad x { d := .reg (sizeRegs x.size), a := .base, b := .index, scopes := allScopes,
                                 orders := [.plain, .acq, .seq], sizes := [2, 3] }
  | .stl x => some <| memBad x { d := .reg (sizeRegs x.size), a := .base, b := .any, scopes := allScopes,
                                 orders := [.plain, .rel, .ar, .seq], sizes := [2, 3], dIn := true, dOut := false }
      [(x.kb, .unusedField), (Use.pred.bad x.ctl.u false x.b, .registerField)] {} (Use.pred.regs x.ctl.u false x.b)
  | .pfs x => some <| rrrBad x { mark := some true, d := .sca, a := .sca, b := .sca, f6 := x.f6Below 1, dIn := true, dOut := false }
  | .cctl x => some <| memBad x { mark := some true, d := .any, a := .base, b := .index }
      [(decide (3 < x.d.toNat), .unusedField),
       ((x.d == 1 || x.d == 3) && (x.a != 0xFF || x.b != 0xFF || x.off != 0), .forbidden)]
  | .lth x => some <| rrrBad x { mark := some true, d := .sca, a := .sca, b := if x.bit 0 then .zero else .sca, f6 := x.f6Below 1,
                                 dIn := true, dOut := false }
  | .atom x => some <| memBad x { d := .reg (sizeRegs x.size), a := .base, b := .opnd (sizeRegs x.size), scopes := allScopes,
                                  orders := [.plain, .acq, .rel, .ar, .seq], sizes := [2, 3] }
      [(aopBad x true || uwBad x, .forbidden)]
  | .red x => some <| memBad x { a := .base, b := .opnd (sizeRegs x.size), scopes := allScopes,
                                 orders := [.plain, .rel, .ar, .seq], sizes := [2, 3] } [(aopBad x false || x.uw, .forbidden)]
  | .cas x => some <| memBad x { d := .reg (sizeRegs x.size), a := .base, b := .opnd (sizeRegs x.size), scopes := allScopes,
                                 orders := [.plain, .acq, .rel, .ar, .seq], sizes := [2, 3] }
      [((x.ctl.u || x.kb) && decide (62 < x.b.toNat), .registerField),
       (x.off.extractLsb' 1 9 != 0x10 || uwBad x, .forbidden)] (casUses x)
  | .atomd x => some <| memBad x { mark := some false, d := .reg (sizeRegs x.size), a := .deckBase, b := .opnd (sizeRegs x.size),
                                   sizes := [2, 3] } [(aopBad x true || x.uw, .forbidden)]
  | .fence x => some <| memBad x { d := .any, scopes := allScopes, orders := [.acq, .rel, .ar, .seq], off := x.off == 0 }
      [(decide (1 < x.d.toNat), .unusedField), (x.d == 1 && x.order == .acq, .forbidden)]
  | .waita x => some <| memBad x { mark := some false, d := .pred, a := .base, b := .opnd (sizeRegs x.size), scopes := allScopes,
                                   orders := [.plain, .acq], sizes := [2, 3], dIn := true }
      [(decide (5 < (x.off.extractLsb' 7 3).toNat) || decide (40 < (x.off.extractLsb' 0 6).toNat), .reservedCode)]
  | .bara x => some <| barBad x (x.off == 0)
  | .barw x => some <| barBad x (decide (x.off.toNat < 32) && (x.off.getLsbD 4 || x.off == 0))
      (if x.off.getLsbD 4 then { p := [x.off.toNat % 16] } else {})
  | .mbinit x | .mbexp x => some <| memBad x { mark := some true, d := .sca, a := .deckBase, b := .index, dIn := true, dOut := false }
  | .mbarv x => some <| memBad x { mark := some false, a := .deckBase, b := .index }
      [(!x.ka, .forbidden), (!x.kb && x.b != 0xFF, .registerField)]
  | .mbwait x => some <| memBad x { mark := some false, d := .pred, a := .deckBase, b := .sca, dIn := true } [(!x.ka || !x.kb, .forbidden)]
  | .sred x => some <| memBad x { a := .base, b := .opnd (sizeRegs x.size), sizes := [2, 3] } [(aopBad x false || x.uw, .forbidden)]
  | .fcpy x => some <| linkBad x 60 .zero 0
  | .fcpyt x => some <| linkBad x 60 .sca 62 { s := [x.b.toNat + 1] }
  | .fpln x => some <| linkBad x 60 .sca 63
  | .fcan x => some <| rrrBad x { mark := some true, a := if x.bit 0 then .zero else .sca, f6 := x.f6Below 1 }
  | .nsend x => some <| memBad x { mark := some true, d := .sca, a := .vec, scopes := [.die, .pkg, .sys], sizes := [2], off := x.off == 0,
                                   dIn := true, dOut := false }
  | .fstat x => some <| rrrBad x { mark := some true, d := .sca, a := if x.lo2 = 0 then .sca else .zero, f6 := x.f6Below 2 }
      [(x.lo2 == 3, .reservedCode)]
  | _ => none

def shapeFloat : Instr → Option Shape
  | .fadd x | .fsub x | .fmul x => some <| floatBad x floatsPacked 2 true (· == 0)
  | .ffma x => some <| floatBad x floatsPacked 3 true (· < 4)
  | .fmin x | .fmax x => some <| floatBad x floatsPacked 2 false (· < 2)
  | .fdiv x => some <| floatBad x floats 2 true (· == 0)
  | .fsqrt x | .frcp x | .frsq x | .fex2 x | .flg2 x => some <| floatBad x floats 1 true (· == 0)
  | .fcls x => some <| floatBad x floats 1 false (· == 0)
  | .frnd x => some <| floatBad x floatsPacked 1 true (· == 0)
  | .fdot2 x => some <| floatBad x [.f16x2, .bf16x2] 3 true (· == 0)
  | .cvt x => some <| cvtBad x
  | .rng x => some <| rrrBad x { mark := some false, d := .reg 4, a := .reg 4, b := .reg 2, kb := true, types := [.b128], f6 := x.f6Below 1 }
  | .pack x => some <| packBad x
  | .unpk x => some <| unpkBad x
  | .pmma x => some <| planeBad x .sca .sca (if x.bit 0 then .zero else .sca) (x.f6Below 1)
  | .pmms x | .plma x => some <| planeBad x .sca .sca .sca (x.f6Below 0)
  | .pacz x | .pdrb x => some <| planeBad x .sca .zero .zero (x.f6Below 0)
  | .pdrn x | .pacs x | .pacl x => some <| planeBad x .sca .sca .zero (x.f6Below 0)
  | .psync x => some <| planeBad x .zero .zero .zero (x.f6Below 0) (d := .zero)
  | _ => none

def shapeSystem : Instr → Option Shape
  | .spawn x => some <| rrrBad x { mark := some true, d := .sca, a := .sca, f6 := x.f6Below 0 } [(decide (59 < x.a.toNat), .registerField)] { s := run x.a.toNat 5 }
  | .fref x => some <| rrrBad x { mark := some true, d := .qd, a := .sca, f6 := x.f6Below 0 }
  | .fdrop x => some <| rrrBad x { mark := some true, d := .sca, f6 := x.f6Below 0, dIn := true, dOut := false }
  | .fjoin x => some <| rrrBad x { mark := some false, d := .reg x.ty.regs, a := .sca, types := [.b32, .b64, .b128], f6 := x.f6Below 1 }
  | .fpoll x => some <| rrrBad x { mark := some false, d := .reg x.ty.regs, a := .sca, b := .pred, types := [.b32, .b64, .b128], f6 := x.f6Below 0 }
      [] {} (Use.pred.regs x.ctl.u false x.b)
  | .fret x => some <| rrrBad x { mark := some false, d := .reg x.ty.regs, types := [.b32, .b64, .b128], f6 := x.f6Below 0, dIn := true,
                                  dOut := false }
  | .rpt x => some <| rrrBad x { mark := some true, d := if x.bit 0 then .qd else .zero, f6 := x.f6Below 1 }
  | .post x => some <| rrrBad x { mark := some true, d := .sca, f6 := x.f6Below 3, dIn := true, dOut := false }
      [(x.lo3 == 0, .forbidden), (decide (63 < x.d.toNat + x.lo3), .registerField)] { s := run x.d.toNat (x.lo3 + 1) }
  | .lnch x => some <| rrrBad x { mark := some true, d := .qd, a := .sca, f6 := x.f6Below 0 }
  | .rft x => some <| rrrBad x { mark := some true, f6 := x.f6Below 0 } [(x.ctl.guard != .always, .guardField)]
      { s := run 56 8, p := run 0 16, q := run 0 8 }
  | .mfc x => some <| rrrBad x { d := .reg 2 } [(!ctlListed x.f6.toNat, .forbidden)]
  | .mtc x => some <| rrrBad x { mark := some true, d := .sca, dIn := true, dOut := false } [(!ctlListed x.f6.toNat || x.f6 == 0, .forbidden)]
  | .tlbi x => some <| rrrBad x { mark := some true, d := if x.bit 0 then .zero else .sca, a := if x.bit 0 then .zero else .sca, f6 := x.f6Below 1,
                                  dIn := true, dOut := false }
  | .snap x => some <| rrrBad x { mark := some true, d := .qd, a := .sca, f6 := x.f6Below 0 }
  | .time x => some <| rrrBad x { d := .reg 2, f6 := x.f6Below 0 }
  | .ctr x => some <| rrrBad x { d := .reg 2, c := .any } [(decide (4 < x.c.toNat), .forbidden)]
  | .sleep x => some <| rrrBad x { mark := some false, a := .reg 1, ka := true, f6 := x.f6Below 0 }
  | _ => none

/-- The paired word that a constructor stands for: the compact opcode of its first half, and the rest. -/
def Instr.pair? : Instr → Option (Cop × Pair)
  | .halfAddS32 x => some (.addS32, x) | .halfSubS32 x => some (.subS32, x) | .halfAddsS32 x => some (.addsS32, x)
  | .halfSubsS32 x => some (.subsS32, x) | .halfMulS32 x => some (.mulS32, x) | .halfMinS32 x => some (.minS32, x)
  | .halfMaxS32 x => some (.maxS32, x) | .halfMinN32 x => some (.minN32, x) | .halfMaxN32 x => some (.maxN32, x)
  | .halfAndB32 x => some (.andB32, x) | .halfOrB32 x => some (.orB32, x) | .halfXorB32 x => some (.xorB32, x)
  | .halfAndnB32 x => some (.andnB32, x) | .halfShlB32 x => some (.shlB32, x) | .halfShrB32 x => some (.shrB32, x)
  | .halfShaB32 x => some (.shaB32, x) | .halfRotB32 x => some (.rotB32, x) | .halfMovB32 x => some (.movB32, x)
  | .halfAddS64 x => some (.addS64, x) | .halfSubS64 x => some (.subS64, x) | .halfAndB64 x => some (.andB64, x)
  | .halfOrB64 x => some (.orB64, x) | .halfXorB64 x => some (.xorB64, x) | .halfShlB64 x => some (.shlB64, x)
  | .halfShrB64 x => some (.shrB64, x) | .halfShaB64 x => some (.shaB64, x) | .halfMovB64 x => some (.movB64, x)
  | .halfFaddF32 x => some (.faddF32, x) | .halfFmulF32 x => some (.fmulF32, x) | .halfFminF32 x => some (.fminF32, x)
  | .halfFmaxF32 x => some (.fmaxF32, x) | .halfFaddBf16x2 x => some (.faddBf16x2, x) | .halfFmulBf16x2 x => some (.fmulBf16x2, x)
  | .halfFminBf16x2 x => some (.fminBf16x2, x) | .halfFmaxBf16x2 x => some (.fmaxBf16x2, x) | .halfFaddF16x2 x => some (.faddF16x2, x)
  | .halfFmulF16x2 x => some (.fmulF16x2, x) | .halfFminF16x2 x => some (.fminF16x2, x) | .halfFmaxF16x2 x => some (.fmaxF16x2, x)
  | .halfNop x => some (.nop, x)
  | _ => none

def shapePair (i : Instr) : Option Shape :=
  i.pair?.map fun (cop, x) => pairBad cop x

/-- The form of every instruction. Steps of the device are no words: they have no check and no register. -/
def shape (i : Instr) : Shape :=
  ((shapeControl i <|> shapeInteger i) <|> (shapeMemory i <|> shapeFloat i) <|> (shapeSystem i <|> shapePair i)).getD {}

/-- Why the instruction's word would trap ILL, if it would. -/
def illegal (i : Instr) : Option Ill := firstBad (shape i).checks

/-! What words do with values (R154). -/

/-- Words that read registers of other lanes. -/
def Instr.lateral : Instr → Bool
  | .vote _ | .reds _ | .shfl _ | .rdln _ | .nsend _ => true
  | _ => false

/-- Branches. -/
def Instr.branches : Instr → Bool
  | .bra _ | .brx _ | .brq _ | .call _ | .callx _ | .ret _ => true
  | _ => false

/-- Words whose events a read can come before by its value alone (R154): for each lane, or one for the span. -/
def Instr.perLane : Instr → Bool
  | .ld _ | .st _ | .std _ | .lda _ | .stl _ | .atom _ | .red _ | .cas _ | .atomd _ | .waita _ | .fret _ => true
  | _ => false
def Instr.acts : Instr → Bool
  | .fcpy _ | .fcpyt _ | .fpln _ | .nsend _ | .pmma _ | .pmms _ | .plma _ | .pacz _ | .pdrn _ | .pdrb _ | .pacs _ | .pacl _
  | .spawn _ | .post _ | .lnch _ => true
  | i => i.perLane

end Sys2Proof
end

