-- ==== Sys2Proof/Machine/Sparse.lean ====
section
/-! DEFINITION. Finite maps with a default, as lists in one canonical form: keys strictly rising, no entry equal to what
an unlisted key reads as. Memory, decks, tiles and register files are kept in this form. -/

namespace Sys2Proof.Machine

/-- The value at key `k`; an unlisted key reads as `d`. -/
def sget {α : Type} (d : α) : List (Nat × α) → Nat → α
  | [], _ => d
  | (j, v) :: r, k => if j = k then v else sget d r k

/-- Put `v` at key `k`, before the first higher key. -/
def sins {α : Type} : List (Nat × α) → Nat → α → List (Nat × α)
  | [], k, v => [(k, v)]
  | (j, u) :: r, k, v =>
    if k < j then (k, v) :: (j, u) :: r else if k = j then (k, v) :: r else (j, u) :: sins r k v

/-- Write `v` at key `k`, keeping the canonical form: writing the default removes the entry. -/
def sput {α : Type} [DecidableEq α] (d : α) (m : List (Nat × α)) (k : Nat) (v : α) : List (Nat × α) :=
  if v = d then m.filter fun e => !decide (e.1 = k) else sins m k v

/-- The canonical form. -/
def swf {α : Type} [DecidableEq α] (d : α) : List (Nat × α) → Bool
  | [] => true
  | (j, v) :: r => !decide (v = d) && r.all (fun e => decide (j < e.1)) && swf d r

/-- Write a run of values at consecutive keys. -/
def sputs {α : Type} [DecidableEq α] (d : α) (m : List (Nat × α)) (k : Nat) : List α → List (Nat × α)
  | [] => m
  | v :: r => sputs d (sput d m k v) (k + 1) r

/-- Read `n` values at consecutive keys. -/
def sgets {α : Type} (d : α) (m : List (Nat × α)) (k : Nat) : Nat → List α
  | 0 => []
  | n + 1 => sget d m k :: sgets d m (k + 1) n

/-- Map over a list with the index of each element. -/
def imap {α β : Type} (f : Nat → α → β) : Nat → List α → List β
  | _, [] => []
  | i, a :: r => f i a :: imap f (i + 1) r

/-! Dense views of a canonical list. -/

/-- `n` values from key `i` on. -/
def sdense {α : Type} (d : α) : Nat → Nat → List (Nat × α) → List α
  | 0, _, _ => []
  | n + 1, i, [] => d :: sdense d n (i + 1) []
  | n + 1, i, (k, v) :: r => if k = i then v :: sdense d n (i + 1) r else d :: sdense d n (i + 1) ((k, v) :: r)

/-- The canonical list of values from key 0 on. -/
def ssparse {α : Type} [DecidableEq α] (d : α) (vs : List α) : List (Nat × α) :=
  (imap (fun i v => if v = d then none else some (i, v)) 0 vs).filterMap id

end Sys2Proof.Machine
end

