-- ==== Sys2Proof/Config.lean ====
section
/-! DEFINITION. The figures of the shipped configuration (R1, R3) and the free values of the model: what the manual
leaves open, as constants that nothing in Lean can evaluate (log 3, DESIGN CHOICE). -/

namespace Sys2Proof.Config

/-- Compute dies (R1). -/
abbrev dies : Nat := 4
/-- Piers of one die (R1). -/
abbrev piersPerDie : Nat := 40
/-- All piers (R3). -/
abbrev piers : Nat := 160
/-- Span slots of one pier (R3). -/
abbrev slots : Nat := 64
/-- Lanes of a span (R24). -/
abbrev lanes : Nat := 32
/-- Landing entries of a span (R135). -/
abbrev landing : Nat := 32
/-- Watch slots, ferry slots and plane slots of a span (R24, R252). -/
abbrev spanSlots : Nat := 4
/-- Landing entries of a pier's ferry, and of the migration engine of a quay die (R135). -/
abbrev ferryLanding : Nat := 64
abbrev moveLanding : Nat := 1024
/-- Deck bytes of one pier (R3, R244). -/
abbrev deckBytes : Nat := 1572864
/-- Bytes of HBM (R3, R344). -/
abbrev hbmBytes : Nat := 549755813888
/-- First-level TLB entries, and the entries of one of the 16 sets of a last-level TLB (R123, R347). -/
abbrev tlb1 : Nat := 256
abbrev tlbSet : Nat := 1024
/-- Lines of a pier's L1 data cache of 256 KiB and of its instruction cache of 128 KiB (R3). -/
abbrev l1Lines : Nat := 4096
abbrev icLines : Nat := 2048

/-- FREE VALUE (log 3, DESIGN CHOICE): the nanoseconds that pass in a step. -/
opaque elapsed : Nat → Nat
/-- FREE VALUE (log 50, DEDUCED): does a load use a line of its L1 that is older than its span's fill epoch, where no edge of R155
forbids it (R161, R172, R175, R177)? -/
opaque oldLine : Nat → Bool

/-- FREE VALUE (log 50, DEDUCED): how far down in the order of its instance a `.seq` event stands, where the rules let it, by the number of
such events before it (R152, R159). -/
opaque seqPlace : Nat → Nat

/-- FREE VALUE (log 3, DESIGN CHOICE): the stream of a pier that touches its next line in a cycle, and whether the line is dropped for
want of a place to go on (R136, R193). -/
opaque prefetch : Nat → Nat × Bool

/-- FREE VALUE (log 49, DESIGN CHOICE): the TLB entry, by its place in the list, that gives way in a cycle; a place past the end names none
(R123, R148). (log 3, DESIGN CHOICE) -/
opaque tlbDrop : Nat → Nat

/-- FREE VALUE (log 3, DESIGN CHOICE): the pier cycles by which a stall counter outside unit 0 grows in a step, by its unit, its number
and the step. -/
opaque stallCycles : Nat → Nat → Nat → BitVec 64
/-- FREE VALUE (log 3, DESIGN CHOICE): the compressed size, in bytes, of a page whose listed bytes these are (R140). -/
opaque compressedSize : List (Nat × Byte) → Nat
/-- FREE VALUE (log 3, DESIGN CHOICE): the bytes of an SPDM response (R368). -/
opaque spdmBytes : Nat → List Byte
/-- FREE VALUE (log 3, DESIGN CHOICE): the answer of the hypervisor core's mailbox (R366). -/
opaque mailboxBytes : Nat → List Byte
/-- FREE VALUE (log 3, DESIGN CHOICE): the SHA-512 digest of a partition table in force (R365). -/
opaque tableDigest : List PartRow → List Byte

/-- FREE VALUE (log 3, DESIGN CHOICE): the address that FSTAT reports of an FPLN whose shape is refused, by the operation's number (R209). -/
opaque refusedShapeAddress : Nat → Word

/-- FREE VALUE (log 3, DESIGN CHOICE): does the plane engine read or write a deck word, by its offset, in a step that does not end its stripe
step (R247)? -/
opaque planeWord : Nat → Nat → Bool

/-- FREE VALUE (log 3, DESIGN CHOICE): S(64), which no register is, as the second word of STRIDE of an FPLN with B = 63, by the
operation's number (R316). -/
opaque pastRegister : Nat → Word

/-- FREE VALUE (log 3, DESIGN CHOICE): at a KILL, does a completion that is due come first, and is a save in progress completed first, by the
step (R359)? -/
opaque killWord : Nat → Bool
/-- (log 3, DESIGN CHOICE) -/
opaque killSave : Nat → Bool

/-- FREE VALUE (log 3, DESIGN CHOICE): the future slot that SPAWN takes, where it is free (R290). -/
opaque slotChoice : Nat → Nat

/-- FREE VALUE (log 3, DESIGN CHOICE): does the space of a future slot, by its die and its number, pass to another partition when future space
of its partition does, at a step (R290, R349)? -/
opaque slotPasses : Nat → Nat → Nat → Bool

/-- FREE VALUE (log 8, DESIGN CHOICE): the capacity frame that a page takes when a checkpoint makes it move, in units of its size (R362). -/
opaque frameChoice : Nat → Nat

/-- FREE VALUE (log 3, DESIGN CHOICE): the bytes of a checkpoint segment whose layout the manual does not give, by its kind, its partition
and the step that writes it (R365). -/
opaque segmentBytes : Nat → Nat → Nat → List Byte

end Sys2Proof.Config
end

