-- ==== Sys2Proof/Machine/State.lean ====
section
/-! DEFINITION. The state of the device as plain data: everything the manual gives the machine (INVENTORY.md, State), and
the few fields of the model itself. Objects live in flat lists, each object with the numbers that name it: a span by its
place 64 × (40 × die + pier) + slot, a launch, a task or a result by a unique number. -/

namespace Sys2Proof.Machine

/-- Trap causes (R38). -/
inductive Cause where
  | ill | priv | regbud | unsync | depth | swtrap | bkpt | misalign | unmapped | prot
  | deckrange | fmtdiv | subset | sparsemeta | future | barbroken | ferryfail | nettimeout | diefail | accrange
  deriving DecidableEq, Repr

/-- Lane states (R27). -/
inductive LaneState where
  | ready | deferred | waiting | parkedRec | parkedFatal | exited | reclaimed
  deriving DecidableEq, Repr

/-- Park reasons (R121, R211). -/
inductive Park where
  | page | expand | migrate
  deriving DecidableEq, Repr

/-- Page kinds (R124). -/
inductive PKind where
  | s | c | u
  deriving DecidableEq, Repr

/-- What a memory access does at its point of performance (R184, R185, R189, R191, R197). -/
inductive AccOp where
  | load | lda | store | stl | red | sred | atom | cas | waita
  deriving DecidableEq, Repr

/-- The instances of the scopes in which a party lies (R156): a span, a block, a pier, a die, each as far as it lies in one. A party
of no die lies in the system instance alone. -/
structure Party where
  span : Option Nat := none
  blk  : Option (Nat × Nat) := none
  pier : Option Nat := none
  die  : Option Nat := none
  deriving DecidableEq, Repr

/-- Writes of memory that happen before something (R157, R158): each by the key of its byte and the step at which it was performed.
Only writes that a copy in some L1 has missed are kept: every other copy shows them. -/
abbrev View := List (Nat × Nat)

/-- How a span knows of a write: so that every release and every fork after it hands it on; by a plain read, which a release hands on, and a
fork or a write that is computed from the value read; by a store of its own to a U page, which a fork and a release with `.u` hand on
(R154); or by the order of `.seq` fences, which binds its own reads alone (R159). -/
inductive Reach where
  | all | read | uStore | own
  deriving DecidableEq, Repr

/-- A write that a span knows of: it happens before every event of the span from number `since` on. `lane` is that of the read that told of
it, none for a read of the span; `mine` says that the span's own write of the byte did. -/
structure Seen where
  key   : Nat
  step  : Nat
  since : Nat
  reach : Reach := .all
  lane  : Option Nat := none
  mine  : Bool := false
  deriving DecidableEq, Repr

/-- What a release left on the bytes that it wrote (R155): `len` bytes at `at_` of memory, or of a block's deck; the scope of the
release, its party, its place in the order of steps, the counter of its die (R180), and the writes that happen before what it
synchronises with. A plain write of a byte hides it there (`hid`), a read-modify-write later in coherence order shows it again (R155). -/
structure Msg where
  deck  : Option (Nat × Nat)
  at_   : Nat
  len   : Nat
  scope : Scope
  from_ : Party
  hid   : List Nat := []
  time  : Nat
  view  : View
  tsc   : Word
  deriving DecidableEq, Repr

/-- A `.seq` event (R159): its scope, its party, its number in the order of its span; `tok` stands for it in the views of what it happens
before; the bytes that it read and wrote; of a fence, the writes of its span before it. -/
structure SeqEvent where
  scope  : Scope
  from_  : Party
  seq    : Nat
  tok    : Nat × Nat
  wrote  : List Nat := []
  read   : List Nat := []
  fence  : Bool := false
  before : View := []
  deriving DecidableEq, Repr

/-- A read by a span that has issued a `.seq` fence before it (R159): the bytes read, of memory or of a deck, and the writes of them that
the copy read had missed. -/
structure Look where
  uid   : Nat
  seq   : Nat
  deck  : Option (Nat × Nat)
  at_   : Nat
  len   : Nat
  stale : View := []
  deriving DecidableEq, Repr

/-- A write, by its span and its number there, came to bytes after a read of them had returned an older value. -/
structure Overtake where
  reader : Nat
  rseq   : Nat
  writer : Nat
  wseq   : Nat
  deriving DecidableEq, Repr

/-- A release fence without a write after it yet: its number, its scope, whether it carries `.u` (R155, R192). -/
structure FenceRef where
  seq   : Nat
  scope : Scope
  u     : Bool
  deriving DecidableEq, Repr

/-- One access of one lane, or of the span when `lane` is none (R182). `fences` are the release fences whose first write it makes
(R155). -/
structure Access where
  op    : AccOp
  lane  : Option Nat
  ea    : Nat
  size  : Nat
  sgn   : Bool := false
  order : Order := .plain
  scope : Scope := .sys
  u     : Bool := false
  aop   : Nat := 0
  aty   : Nat := 0
  data  : BitVec 128 := 0
  data2 : BitVec 64 := 0
  res   : Option Nat := none
  pd    : Option Nat := none
  armed : Bool := false
  seq   : Nat := 0
  fences : List FenceRef := []
  deriving DecidableEq, Repr

/-- The bytes of an access that lie in one line (R125, R127): `len` bytes at line offset `off`, from byte `skip` of the access. -/
structure Part where
  acc  : Access
  off  : Nat
  skip : Nat
  len  : Nat
  deriving DecidableEq, Repr

/-- A register or predicate of a span: of one lane, or of the span. -/
inductive RegRef where
  | v (lane r : Nat)
  | s (r : Nat)
  | p (lane r : Nat)
  | q (r : Nat)
  deriving DecidableEq, Repr

/-- Where the value of a read can go (R154): into a register or predicate, or into the decisions of the branches of a lane. -/
inductive Spot where
  | reg (r : RegRef)
  | turn (lane : Nat)
  deriving DecidableEq, Repr

/-- A plain read of a span, by its number and its lane. -/
abbrev ReadId := Nat × Option Nat

/-- Of a span, by its unique number: which places hold what is computed from which plain reads, and which events are computed from them, by
their numbers and lanes (R154). -/
structure Flow where
  uid  : Nat
  held : List (Spot × ReadId) := []
  acts : List ((Nat × Option Nat) × ReadId) := []
  deriving DecidableEq, Repr

/-- A variable-latency result that has not arrived (R63): where it goes, what is still missing, its value so far. -/
structure Result where
  id   : Nat
  lane : Option Nat
  vreg : Option (Nat × Nat) := none
  sreg : Option Nat := none
  pred : Option Nat := none
  need : Nat := 0
  val  : BitVec 128 := 0
  pval : Bool := false
  skip : Bool := false
  deriving DecidableEq, Repr

/-- A named barrier instance (R199): its launch, its block or die where the scope is one, its number. -/
structure BarKey where
  launch : Nat
  blk    : Option Nat
  die    : Option Nat
  n      : Nat
  deriving DecidableEq, Repr

/-- A named barrier with arrivals (R200, R201, R314). `view` is what the arrivals of its phase hand on (R155). -/
structure NamedBar where
  key      : BarKey
  phase    : Nat := 0
  arrivals : Nat := 0
  count    : Option Nat := none
  dflt     : Bool := false
  broken   : Bool := false
  view     : View := []
  deriving DecidableEq, Repr

/-- A WAITA in progress (R197, R198). `must` says that the read at RFT or on resumption decides it before its deadline does (R383, R46).
(log 25, DEDUCED) -/
structure Watch where
  acc     : Access
  cond    : Cond
  sgn     : Bool
  cmp     : BitVec 64
  pd      : Nat
  due     : Option Nat
  reading : Bool
  wake    : Bool
  slot    : Bool
  poll    : Nat
  line    : Option Nat := none
  must    : Bool := false
  deriving DecidableEq, Repr

/-- An FJOIN in progress (R323). -/
structure Join where
  handle : Word
  reg    : Nat
  n      : Nat
  drop   : Bool
  slot   : Bool
  poll   : Nat
  asked  : Bool
  deriving DecidableEq, Repr

/-- What a lane in state 2 waits for (R28); `inited` is an MBWAIT of a saved span whose object an MBINIT has initialised meanwhile (R46,
R205). -/
inductive Wait where
  | cvg
  | bar (key : BarKey) (phase : Nat) (pf : Option Nat)
  | watch (w : Watch)
  | mb (obj : Nat) (n : Nat) (pf : Nat)
  | inited (pf : Nat)
  | join (j : Join)
  | sleep (due : Nat)
  | check (id : Nat)
  deriving DecidableEq, Repr

/-- An event held for a waiting lane while its span is in handler mode (R383); a join without a value leaves D unchanged. -/
inductive Held where
  | bar (pf : Bool)
  | mb
  | join (val : Option (BitVec 128)) (bad : Bool)
  deriving DecidableEq, Repr

/-- The task that a lane runs (R286): a unique number, its future's handle (0 for a POST record), its doom. -/
structure Task where
  uid    : Nat
  fut    : Word
  doomed : Bool := false
  deriving DecidableEq, Repr

/-- A lane (R23). `kept` is the wait that a trap found and handler mode keeps registered, `held` the event that came for it
(R383), `atTrap` the state, address and depth at the trap (R40), `savedAs` those that a save wrote (R44). -/
structure Lane where
  st     : LaneState
  pc     : Word
  depth  : Nat := 0
  preds  : BitVec 16 := 0
  reason : Option Park := none
  pages  : List Nat := []
  wait   : Option Wait := none
  kept   : Option Wait := none
  held   : Option Held := none
  atTrap : Option (LaneState × Word × Nat) := none
  savedAs : Option (LaneState × Word × Nat) := none
  resv   : Option Nat := none
  resvVa : Nat := 0
  task   : Option Task := none
  deriving DecidableEq, Repr

/-- States of a landing entry (R137). `done` is an entry whose operation is performed while its values travel to registers. -/
inductive EState where
  | inflight | ashore | chained (pred : Nat) | ordered | done
  deriving DecidableEq, Repr

/-- A task record (R298). `view` is what happens before the first issue of its lane (R155). -/
structure TaskRec where
  words  : List Word
  fut    : Word
  launch : Nat
  uid    : Nat
  since  : Nat := 0
  view   : View := []
  deriving DecidableEq, Repr

/-- What a landing entry carries (R137); `deck` is the entry that an ATOMD holds for a line of the deck (R111). -/
inductive EOp where
  | mem
  | fence
  | deck
  | record (r : TaskRec)
  | launch (qd : Nat) (addr : Nat)
  deriving DecidableEq, Repr

/-- A landing entry (R128, R137). `since` is the step of its last bounce; `noFill` is a load whose line the pier has removed from its L1
since it was sent (R161). -/
structure Entry where
  slot    : Nat
  seq     : Nat
  st      : EState
  op      : EOp
  vline   : Nat := 0
  pline   : Nat := 0
  pkind   : PKind := .c
  order   : Order := .plain
  scope   : Scope := .sys
  u       : Bool := false
  write   : Bool := false
  parts   : List Part := []
  bounces : Nat := 0
  reason  : Nat := 0
  due     : Nat := 0
  woken   : Bool := false
  since   : Nat := 0
  noFill  : Bool := false
  deriving DecidableEq, Repr

/-- An address check that waits for a walk (R18): the accesses whose pages are the same, their sequence number, and of a
WAITA what its watches have in common. A uniform access stands for the lanes of `lanes`. -/
structure Check where
  id    : Nat
  seq   : Nat
  lanes : List Nat
  accs  : List Access
  watch : Option Watch := none
  deriving DecidableEq, Repr

/-- Kinds of ferry-slot operation (R206, R212). -/
inductive FerryKind where
  | fcpy | fcpyt | fpln | nsend
  deriving DecidableEq, Repr

/-- States of a ferry operation (R211). -/
inductive FState where
  | drain | running | parked (r : Park)
  deriving DecidableEq, Repr

/-- A stripe of an FPLN of which some line parts have been performed (R209): its chunk, the bytes that it writes, the places of its line
parts, by the key of the first byte or by deck offset, as its check found them, and the parts performed. -/
structure OpenStripe where
  chunk : Nat
  out   : List Byte
  keys  : List Nat
  parts : List Nat := []
  deriving DecidableEq, Repr

/-- A ferry operation in a slot of its span (R206, R316). `view` is what happens before its end: what its fork handed to it, its own reads
and writes (R154, R155); `words` are the deck words, by chunk and offset, that it has read of chunks not begun (R247). -/
structure FerryOp where
  id     : Nat
  kind   : FerryKind
  st     : FState
  seq    : Nat
  scope  : Scope
  dst    : Word := 0
  src    : Word := 0
  shape  : Word := 0
  comp   : Word := 0
  value  : Word := 0
  strA   : Word := 0
  strB   : Word := 0
  link   : Option Nat := none
  done   : List Nat := []
  stripes : List OpenStripe := []
  bytes  : Nat := 0
  words  : List (Nat × Nat × List Byte) := []
  view   : View := []
  cancel : Bool := false
  fail   : Option (Word × Cause) := none
  pages  : List Nat := []
  tree   : Nat := 0
  round  : Nat := 0
  vec    : List VWord := []
  deriving DecidableEq, Repr

/-- A barrier arrival that waits for the span's earlier requests (R202): at a named barrier, or at a deck barrier. -/
inductive Arrival where
  | named (key : BarKey) (count : Option Nat) (seq : Nat) (lanes : List Nat)
  | deck (obj : Nat) (seq : Nat)
  deriving DecidableEq, Repr

/-- A trap that the span has raised or found and not yet entered (R20, R38, R39, R47). -/
structure TrapReq where
  cause : Cause
  issue : Bool
  iaddr : Word
  imask : List Nat
  deriving DecidableEq, Repr

/-- What became of a span (R22, R32, R44); `stopping` waits for its writes before its span-stop event, `dead` stands on a fenced
die (R360). -/
inductive SpanStatus where
  | running | saved (full : Bool) | stopping | stopped | dead
  deriving DecidableEq, Repr

/-- A span (R24) with what R312, R315 and R342 give it. `cause` is the pending cause (R107), in handler mode the trap's; `first` the first
cause recorded since the start or the last RFT (R45), `late` the first recorded while it is saved. `tbase` is the task area's base
that held at its start (R332). `joining` are requests of lanes that have passed, whose lines other lanes of
the same instruction may still reach (R114, R125); `want` is the number of entries for which memory instructions wait (R111, R128);
`records` are fault records whose page is away (R47), `drafts` those that a span which will stop shows only after its writes (R22); `bulk`
is the last instruction with more than 32 requests (R128);
`point` is the save point that a pre-emption request has found, a full save or a short one (R43). `epoch` is the fill epoch (R161);
`view`, `heard` and `relFence` are what R155 asks of it: the writes that happen before its events, the releases that its reads have met,
the release fences without a write after them; `planesAt` are the numbers of its plane instructions since its last PSYNC (R219). -/
structure Span where
  id       : Nat
  uid      : Nat
  ctx      : Nat
  part     : Nat
  launch   : Nat
  blk      : Nat
  idx      : Nat
  role     : Nat
  budget   : Nat
  berth    : Bool := false
  status   : SpanStatus := .running
  lanes    : List Lane
  vregs    : List (Nat × VWord) := []
  sregs    : List (Nat × Word) := []
  qs       : BitVec 8 := 0
  landing  : List Entry := []
  unsent   : List Entry := []
  joining  : List Entry := []
  want     : Nat := 0
  bulk     : Option Nat := none
  checks   : List Check := []
  results  : List Result := []
  ilock    : List (Nat × RegRef) := []
  ferry    : List FerryOp := []
  lastFail : Option (Word × Cause) := none
  arrivals : List Arrival := []
  hmode    : Bool := false
  fseq     : Nat := 0
  cause    : Option Cause := none
  first    : Option Cause := none
  late     : Option Cause := none
  entered  : Option Cause := none
  due      : Bool := false
  hcause   : Option Cause := none
  stop     : Option (Cause × Word) := none
  trap     : Option TrapReq := none
  records  : List (Nat × List Byte) := []
  drafts   : List (Nat × List Byte) := []
  wHold    : Bool := false
  pHold    : Bool := false
  checkOp  : Option Nat := none
  tlbi     : Option Nat := none
  preempt  : Option (Nat × Bool) := none
  point    : Option Bool := none
  resv     : Option Nat := none
  resvVa   : Nat := 0
  epoch    : Nat := 0
  view     : List Seen := []
  heard    : List Msg := []
  relFence : List FenceRef := []
  planesAt : List Nat := []
  acqSeq   : Nat := 0
  acqScope : Scope := .span
  seq      : Nat := 0
  spantag  : BitVec 32 := 0
  origin   : Word := 0
  tbase    : Word := 0
  rounds   : List (Nat × Nat × Nat) := []
  waited   : Nat := 0
  age      : Nat := 0
  deriving DecidableEq, Repr

/-- An accumulator tile (R238): element 64m + n, NaN flags, anchor. -/
structure Tile where
  acc    : List (Nat × BitVec 96) := []
  flags  : List (Nat × Bool) := []
  anchor : Int := 0
  deriving DecidableEq, Repr

/-- What the arrivals and chunks at a deck barrier hand on (R155): those of its current phase, and of the phases completed. -/
structure ObjView where
  obj  : Nat
  pend : View := []
  done : View := []
  deriving DecidableEq, Repr

/-- A block (R25): its pier, deck, tiles, bypass and spans (by unique number; those that have retired or stopped leave `live`).
`objs` is what its deck barriers hand on (R155), `merged` what the merges of its shadow lines wrote (R178). -/
structure Block where
  launch : Nat
  idx    : Nat
  pier   : Nat
  bytes  : Nat := 0
  deck   : List Host.Cell := []
  tiles  : List Tile := []
  bypass : List (Nat × VWord) := []
  nspans : Nat := 1
  live   : List Nat := []
  berth  : Bool := false
  broken : Bool := false
  objs   : List ObjView := []
  merged : View := []
  deriving DecidableEq, Repr

/-- One role of a launch (R25, R307). -/
structure Role where
  entry  : Word
  budget : Nat
  spans  : Nat
  deriving DecidableEq, Repr

/-- A node (R299). -/
structure Node where
  entry  : Word
  budget : Nat
  count  : Nat
  timer  : Nat
  deriving DecidableEq, Repr

/-- A launch (R26, R307): its record's fields and its progress. `next` holds, per die, the blocks already placed. `view` is what happens
before the first issue of its spans, `ended` what happens before its completion is seen (R155). -/
structure Launch where
  id      : Nat
  ctx     : Nat
  part    : Nat
  prio    : Nat
  gang    : Bool
  note    : Bool
  args    : Word
  nblk    : Nat
  deck    : Nat
  tiles   : Nat
  range   : List (Nat × Nat)
  roles   : List Role
  nodes   : List Node
  donea   : Word
  donev   : Word
  trees   : Word
  lidx    : Option Nat
  byLnch  : Bool
  started : Bool := false
  next    : List Nat := [0, 0, 0, 0]
  retired : Nat := 0
  stopped : Nat := 0
  records : Nat := 0
  view    : View := []
  ended   : View := []
  deriving DecidableEq, Repr

/-- What a context is doing (R363); `killing` waits for pages that writes of its killed spans need (R356). -/
inductive CtxStatus where
  | running | saving | saved | resuming | killing
  deriving DecidableEq, Repr

/-- A write of a killed span that is still to be performed (R356), with what its span was. `passed` says that its check has passed: it is not
translated again. -/
structure Killed where
  party : Party
  part  : Nat
  pier  : Nat
  blk   : Nat × Nat
  passed : Bool := false
  entry : Entry
  deriving DecidableEq, Repr

/-- The landing entries of a killed span in its save record, not read yet (R356): where they stand, what the span was, and the entries as they
were saved, for what the record does not hold (log 12, DESIGN CHOICE). -/
structure SavedArea where
  party : Party
  part  : Nat
  pier  : Nat
  blk   : Nat × Nat
  at_   : Word
  kept  : List Entry
  deriving DecidableEq, Repr

/-- A context (R26, R332): its queue and its control registers 0x01 to 0x07. A save (R363) keeps the spans that a pre-emption
request has yet to reach in `pending`, and the saved blocks with the places of their regions in `regions`; `quiet` is a save that
posts no event, `ckpt` one for a checkpoint; `rest` are the writes that a kill has still to perform, `unread` the saved entries that it has
still to read. (log 4, DESIGN CHOICE) -/
structure Context where
  id       : Nat
  part     : Nat
  number   : Nat
  queue    : Nat
  ptroot   : Word := 0
  handler  : Word := 0
  tfbase   : Word := 0
  fabase   : Word := 0
  savebase : Word := 0
  savesize : Word := 0
  preto    : Word := 20
  status   : CtxStatus := .running
  quiet    : Bool := false
  ckpt     : Bool := false
  pending  : List Nat := []
  regions  : List ((Nat × Nat) × Nat) := []
  rest     : List Killed := []
  unread   : List SavedArea := []
  deriving DecidableEq, Repr

/-- A net tree and its open round (R212 to R214, R334). `owed` is the completion word that the root has still to write, when
the result has been written or will not be; `closing` says that a write of the root waits for the fault service (R384); `shut` is the span or
the launch that has closed a round here to load a table, while no contribution has come since (R334). -/
structure Tree where
  num     : Nat
  ctx     : Nat
  result  : Word
  donea   : Word
  donev   : Word
  timeout : Nat
  scope   : Scope
  root    : Nat
  parent  : List Nat
  round   : Nat := 0
  sent    : List (Nat × List VWord) := []
  owners  : List Nat := []
  due     : Option Nat := none
  owed    : Option Word := none
  closing : Bool := false
  shut    : Option Nat := none
  view    : View := []
  deriving DecidableEq, Repr

/-- A snapshot latched and not yet written (R47, R338, R370): the context that translates its area, the area, the records,
the header. -/
structure SnapJob where
  ctx  : Nat
  at_  : Word
  recs : List Byte
  head : List Byte
  deriving DecidableEq, Repr

/-- A lifetime hint (R141): pages from `start` up to `stop`, in one context's address space. -/
structure Hint where
  ctx   : Nat
  start : Nat
  stop  : Nat
  prio  : Nat
  step  : BitVec 32
  deriving DecidableEq, Repr

/-- A partition (R332, R347). (log 4, DESIGN CHOICE) -/
structure Partition where
  row      : PartRow
  taskbase : Word := 0
  trees    : Word := 0
  step     : Word := 0
  ringk    : Word := 14
  tresv    : Word := 8
  snapbase : Word := 0
  bounds   : List Word := List.replicate 8 2048
  hints    : List Hint := []
  net      : List Tree := []
  snap     : Option SnapJob := none
  deriving DecidableEq, Repr

/-- A TLB entry (R123): a page's leaf as the walk found it. `pier` none is the die's last-level TLB. -/
structure TlbEntry where
  pier  : Option Nat
  die   : Nat
  part  : Nat
  ctx   : Nat
  page  : Nat
  size  : Nat
  frame : Nat
  pkind : PKind
  rd    : Bool
  wr    : Bool
  ex    : Bool
  dirty : Bool
  deriving DecidableEq, Repr

/-- A clean L1 line (R161): its bytes at its fill, the releases that stood on them, and the fill's place in the order of steps. `missed`
are the writes of the line since; `pre` is a line that a prefetch stream filled (R193). -/
structure L1Line where
  pier   : Nat
  line   : Nat
  bytes  : List Byte
  fill   : Nat
  msgs   : List Msg := []
  missed : View := []
  pre    : Bool := false
  deriving DecidableEq, Repr

/-- A prefetch stream (R193); `next` lines of it have been touched. -/
structure Stream where
  pier   : Nat
  ctx    : Nat
  start  : Word
  count  : Nat
  stride : Word
  shore  : Bool
  next   : Nat := 0
  deriving DecidableEq, Repr

/-- What a deck request does at its bank (R187, R190). -/
inductive DeckOp where
  | load (res : Nat)
  | store
  | atomic (aop aty : Nat) (res : Nat)
  deriving DecidableEq, Repr

/-- One lane's bytes in a deck request; `sgn` says that a loaded value is sign-extended. -/
structure DeckPart where
  lane : Nat
  addr : Nat
  len  : Nat
  sgn  : Bool
  data : BitVec 128
  op   : DeckOp
  deriving DecidableEq, Repr

/-- A bank access waiting in its bank's queue (R246): one bank row of one instruction. -/
structure DeckReq where
  pier  : Nat
  bank  : Nat
  row   : Nat
  span  : Nat
  uid   : Nat
  blk   : Nat × Nat
  seq   : Nat
  parts : List DeckPart
  fences : List FenceRef := []
  deriving DecidableEq, Repr

/-- Plane operations (R276). -/
inductive PlaneKind where
  | pmma | pmmabp | pmms | plma | pacz | pdrn | pdrb | pacs | pacl
  deriving DecidableEq, Repr

/-- Where a plane operation stands (R250, R252, R261). -/
inductive PState where
  | drain | queued | running
  deriving DecidableEq, Repr

/-- A plane operation from its issue to its end (R252). `idx` is its span's index in the block; `words` are the deck words, by offset, that
it has read so far in its check or its stripe step, or written so far in its drain (R247). `cmd` is the number of its command record, in a
block that is saved (R261). -/
structure PlaneOp where
  id     : Nat
  pier   : Nat
  span   : Nat
  uid    : Nat
  blk    : Nat × Nat
  kind   : PlaneKind
  st     : PState
  seq    : Nat
  fmt    : VWord
  ctl    : Word
  opa    : Word
  opb    : Word
  done   : Nat := 0
  anchor : Int := 0
  idx    : Nat := 0
  words  : List (Nat × List Byte) := []
  cmd    : Option Nat := none
  deriving DecidableEq, Repr

/-- States of a future (R293). -/
inductive FutState where
  | free | queued | running | done | doomed | failed
  deriving DecidableEq, Repr

/-- A future entry (R290, R292), and the context that created its future. A slot with no entry here is free with SERIAL 1. `view` is
what its FRET hands on (R155). -/
structure Future where
  part   : Nat
  ctx    : Nat := 0
  die    : Nat
  slot   : Nat
  serial : Nat
  count  : Nat := 0
  wait   : Nat := 0
  st     : FutState := .free
  result : BitVec 128 := 0
  view   : View := []
  deriving DecidableEq, Repr

/-- Who owns a reference (R286): a task or a span, by unique number. -/
inductive Owner where
  | task (uid : Nat)
  | span (uid : Nat)
  deriving DecidableEq, Repr

/-- An owned reference (R295). -/
structure Ref where
  owner  : Owner
  handle : Word
  deriving DecidableEq, Repr

/-- A message on its way to a future entry (R293). -/
inductive MsgKind where
  | fref (qd : Nat)
  | drop (owned : Bool)
  | join (lanes : List Nat)
  | poll (lane : Nat) (res : Nat)
  | fret (val : BitVec 128) (seq lane launch : Nat)
  deriving DecidableEq, Repr

structure FMsg where
  span   : Nat
  uid    : Nat
  owner  : Owner
  handle : Word
  kind   : MsgKind
  deriving DecidableEq, Repr

/-- A record in a pier's task queue, with the residence bound that held when it entered (R332), or in its spill ring (R304). -/
structure QRec where
  pier  : Nat
  part  : Nat
  spill : Bool
  body  : TaskRec
  bound : Nat := 0
  deriving DecidableEq, Repr

/-- A berth (R305). -/
structure Berth where
  pier   : Nat
  num    : Nat
  part   : Nat
  launch : Nat
  node   : Node
  recs   : List TaskRec
  due    : Nat
  asking : Option Nat := none
  deriving DecidableEq, Repr

/-- Who waits for the fault service (R144, R47). -/
inductive Waiter where
  | lane (uid lane : Nat)
  | ferry (uid op : Nat)
  | span (uid : Nat)
  | entry (uid slot : Nat)
  | launch (id : Nat)
  | tree (part num : Nat)
  | snap (part : Nat)
  | kill (ctx : Nat)
  deriving DecidableEq, Repr

/-- A fault notice (R144): on its way, or received by the service. -/
structure Notice where
  ctx  : Nat
  page : Nat
  why  : Park
  who  : Waiter
  got  : Bool := false
  deriving DecidableEq, Repr

/-- A page move in progress (R143): its leaf, where it goes, and the steps done. -/
structure Move where
  ctx    : Nat
  page   : Nat
  size   : Nat
  leaf   : Nat
  oldLoc : Nat
  old    : Nat
  newLoc : Nat
  new    : Nat
  step   : Nat := 0
  sd     : Option Nat := none
  deriving DecidableEq, Repr

/-- A shoot-down (R145, R146): the receivers that have not acknowledged, and per pier the requests that still hold an old translation;
`frames` are the pages that TLB entries named when it began. Receivers are pier indices, and 160 + d for the last-level TLB of die d. -/
structure ShootDown where
  id      : Nat
  part    : Nat
  ctx     : Nat
  start   : Nat
  stop    : Nat
  waiting : List Nat
  holders : List (Nat × List (Nat × Nat)) := []
  issuer  : Option Nat := none
  frames  : List (Nat × Nat) := []
  deriving DecidableEq, Repr

/-- A shadow line (R178, R191): per byte offset of an element, its combined operand. -/
structure Shadow where
  die   : Nat
  part  : Nat
  line  : Nat
  aop   : Nat
  aty   : Nat
  size  : Nat
  elems : List (Nat × BitVec 64)
  blks  : List (Nat × Nat)
  deriving DecidableEq, Repr

/-- Queue states (R350). -/
inductive QState where
  | disabled | running | overrun | killing | stopped | saving | saved | resuming
  deriving DecidableEq, Repr

/-- A queue register block (R350), by the number 16 × function + queue, with the events held in the quay die (R355). `late` says
that a doorbell overran the ring in states 5 to 7 (R363). (log 4, DESIGN CHOICE) -/
structure Queue where
  id     : Nat
  rbase  : Word := 0
  rsize  : Word := 0
  widx   : Word := 0
  ridx   : Word := 0
  ebase  : Word := 0
  esize  : Word := 0
  ewidx  : Word := 0
  eridx  : Word := 0
  st     : QState := .disabled
  back   : QState := .running
  elost  : BitVec 32 := 0
  ovidx  : Word := 0
  cinit  : Word := 0
  krep   : Word := 0
  krepsz : Word := 0
  held   : List (List Byte) := []
  posted : Nat := 0
  stops  : List (Nat × Nat) := []
  late   : Bool := false
  deriving DecidableEq, Repr

/-- An armed hold (R371): the values at its arming, and the launch that it waits for once its queue has consumed one. -/
structure Armed where
  addr   : Word
  queue  : Nat
  count  : Nat
  launch : Option Nat
  deriving DecidableEq, Repr

/-- The line-hold facility of a function (R371): its registers, an armed hold, and a hold in force with its line and its end. (log 4,
DESIGN CHOICE) (log 46, DEDUCED) -/
structure Hold where
  vf    : Nat
  addr  : Word := 0
  queue : Word := 0
  armed : Option Armed := none
  on    : Option (Nat × Nat) := none
  deriving DecidableEq, Repr

/-- The checkpoint registers (R364). CKCMD acts on a write of 1 (TAKE, RESTORE, RELEASE) and holds nothing; `restores` are the partitions
whose contexts a RESTORE in progress has still to resume (R362). (log 4, DESIGN CHOICE) -/
structure CkRegs where
  part : Word := 0
  base : Word := 0
  size : Word := 0
  num  : Word := 0
  stat : Word := 0
  used : Word := 0
  restores : List Nat := []
  deriving DecidableEq, Repr

/-- What the boot ROM has come to (R367). -/
inductive BootState where
  | reset | recovery | running
  deriving DecidableEq, Repr

/-- A response that waits in a mailbox for the host (R366, R368). -/
inductive Response where
  | spdm (fn : Nat) (kind : String) (bytes : List Byte)
  | mailbox (fn : Nat) (recovery : Bool) (bytes : List Byte)
  | memory (bytes : List Byte)
  deriving DecidableEq, Repr

/-- What a checkpoint keeps beside the bytes of its region (R361, R365): its number and partitions, the partition table, the
objects of those partitions, their compressed pages, and the capacity frames that it holds. (log 42, DEDUCED) -/
structure CkImage where
  base    : Nat
  num     : Word
  set     : List Nat
  table   : List PartRow
  tsc     : List Word
  parts   : List (Nat × Partition)
  ctxs    : List Context
  queues  : List Queue
  launches : List Launch
  blocks  : List Block
  saved   : List Span
  bars    : List NamedBar
  planeq  : List PlaneOp
  futs    : List Future
  refs    : List Ref
  fmsgs   : List FMsg
  taskq   : List QRec
  berths  : List Berth
  rings   : List (Nat × Nat)
  zone    : List Host.Cell
  guard   : List (Nat × Nat)
  deriving DecidableEq, Repr

/-- The machine. -/
structure State where
  agenda   : List Instr := []
  picked   : Option Nat := none
  ir       : Option Word := none
  turn     : Nat := 0
  steps    : Nat := 0
  uid      : Nat := 1
  boot     : BootState := .reset
  measures : List (Nat × List Byte) := []
  zoneGiB  : Nat := 64
  dead     : List Nat := []
  down     : List Nat := []
  tierSize : Nat := 0
  peers    : List Nat := []
  rollback : Nat := 0
  tsc      : List Word := [0, 0, 0, 0]
  fenced   : List Nat := []
  msgs     : List Msg := []
  seqs     : List SeqEvent := []
  looks    : List Look := []
  overtakes : List Overtake := []
  flows    : List Flow := []
  host     : View := []
  hostTime : Word := 0
  parts    : List Partition := []
  ctxs     : List Context := []
  queues   : List Queue := []
  launches : List Launch := []
  blocks   : List Block := []
  spans    : List Span := []
  saved    : List Span := []
  bars     : List NamedBar := []
  mem      : List Host.Cell := []
  tlb      : List TlbEntry := []
  l1       : List L1Line := []
  icache   : List (Nat × Nat) := []
  streams  : List Stream := []
  demoted  : List Nat := []
  lru      : List (Nat × Nat) := []
  notices  : List Notice := []
  moves    : List Move := []
  locked   : List (Nat × Nat) := []
  shoots   : List ShootDown := []
  shadows  : List Shadow := []
  deckq    : List DeckReq := []
  planeq   : List PlaneOp := []
  engineAt : List (Nat × (Nat × Nat)) := []
  futs     : List Future := []
  refs     : List Ref := []
  fmsgs    : List FMsg := []
  taskq    : List QRec := []
  rings    : List (Nat × Nat) := []
  berths   : List Berth := []
  ctrs     : List (Nat × Word) := []
  holds    : List Hold := []
  ck       : CkRegs := {}
  ckpts    : List CkImage := []
  kept     : List (Nat × Nat) := []
  ckGuard  : List (Nat × Nat) := []
  out      : List Response := []
  deriving DecidableEq, Repr

/-- The machine stops with a fault. -/
inductive Fault where
  /-- Raised by HOST_ACCESS alone: the access names an address that no memory of the device has (R344, R345). Safe: the
  device could only go on in ways the manual does not give. -/
  | noSuchAddress (addr : Nat)
  deriving DecidableEq, Repr

/-- The machine refuses an instruction. -/
inductive Refusal where
  /-- Raised by exec for an instruction that has no meaning yet. Safe. -/
  | notModelled (mnemonic : String)
  deriving DecidableEq, Repr

/-- The machine right after reset: the boot ROM has not yet checked its images (R367), no partition, context, launch or
span exists, every memory byte reads 0 and every timestamp counter stands at 0 (logs 4 and 5). (log 4, DESIGN CHOICE) -/
def State.reset : State := {}

end Sys2Proof.Machine
end

