-- ==== Sys2Proof/Machine/Operands.lean ====
section
/-! DEFINITION. The registers, predicates and lanes of a span (R23, R24), and every way a word names them as an operand
(R52 to R60, R76): vector registers, pairs and quads, broadcast scalars, uniform scalars, immediates. -/

namespace Sys2Proof.Machine

/-! Lanes. -/

/-- What an unlisted lane reads as: an exited lane. -/
def noLane : Lane := { st := .exited, pc := 0 }

def Span.lane (sp : Span) (l : Nat) : Lane := sp.lanes.getD l noLane

def Span.onLane (sp : Span) (l : Nat) (f : Lane → Lane) : Span := { sp with lanes := sp.lanes.modify l f }

/-- Apply `f` to each lane of a list. -/
def Span.onLanes (sp : Span) (ls : List Nat) (f : Lane → Lane) : Span :=
  { sp with lanes := imap (fun l ln => if ls.contains l then f ln else ln) 0 sp.lanes }

/-- The lane numbers. -/
def laneNums : List Nat := List.range Config.lanes

def LaneState.code : LaneState → Nat
  | .ready => 0 | .deferred => 1 | .waiting => 2 | .parkedRec => 3 | .parkedFatal => 4 | .exited => 5 | .reclaimed => 6

def LaneState.ended : LaneState → Bool
  | .exited | .reclaimed => true
  | _ => false

/-- The lanes in one of the states that `f` accepts. -/
def Span.lanesIn (sp : Span) (f : LaneState → Bool) : List Nat := laneNums.filter fun l => f (sp.lane l).st

/-! Registers. -/

def Span.v (sp : Span) (r l : Nat) : VWord := sget 0 sp.vregs (32 * r + l)
def Span.setV (sp : Span) (r l : Nat) (x : VWord) : Span := { sp with vregs := sput 0 sp.vregs (32 * r + l) x }
def Span.s (sp : Span) (r : Nat) : Word := sget 0 sp.sregs r
def Span.setS (sp : Span) (r : Nat) (x : Word) : Span := { sp with sregs := sput 0 sp.sregs r x }

/-- A pair, little-endian (R6). -/
def Span.v64 (sp : Span) (r l : Nat) : Word := sp.v (r + 1) l ++ sp.v r l
def Span.setV64 (sp : Span) (r l : Nat) (x : Word) : Span :=
  (sp.setV r l (x.extractLsb' 0 32)).setV (r + 1) l (x.extractLsb' 32 32)

/-- Four registers, little-endian (R54). -/
def Span.v128 (sp : Span) (r l : Nat) : BitVec 128 := sp.v64 (r + 2) l ++ sp.v64 r l
def Span.setV128 (sp : Span) (r l : Nat) (x : BitVec 128) : Span :=
  (sp.setV64 r l (x.extractLsb' 0 64)).setV64 (r + 2) l (x.extractLsb' 64 64)

/-- `n` registers, n 1, 2 or 4, as one value. -/
def Span.vn (sp : Span) (n r l : Nat) : BitVec 128 :=
  if n = 4 then sp.v128 r l else if n = 2 then (sp.v64 r l).setWidth 128 else (sp.v r l).setWidth 128
def Span.setVn (sp : Span) (n r l : Nat) (x : BitVec 128) : Span :=
  if n = 4 then sp.setV128 r l x else if n = 2 then sp.setV64 r l (x.setWidth 64) else sp.setV r l (x.setWidth 32)

/-- Bit `i` of a bit vector set to `b`. -/
def setBit {n : Nat} (x : BitVec n) (i : Nat) (b : Bool) : BitVec n :=
  if b then x ||| (1#n <<< i) else x &&& ~~~(1#n <<< i)

def Span.p (sp : Span) (r l : Nat) : Bool := (sp.lane l).preds.getLsbD r
def Span.setP (sp : Span) (r l : Nat) (b : Bool) : Span := sp.onLane l fun ln => { ln with preds := setBit ln.preds r b }
def Span.q (sp : Span) (r : Nat) : Bool := sp.qs.getLsbD r
def Span.setQ (sp : Span) (r : Nat) (b : Bool) : Span := { sp with qs := setBit sp.qs r b }

/-! The guard (R52). -/

/-- The guard of lane `l`: per lane, or with U the span's one decision. -/
def Span.guard (sp : Span) (c : Ctl) (l : Nat) : Bool :=
  match c.guard with
  | .always => true
  | .pred p neg => (if c.u then sp.q p.toNat else sp.p p.toNat l) != neg

/-! Operands at a width (R54, R76). -/

/-- The width of an integer or raw type (R76). -/
def tyWidth (t : Ty) : Nat :=
  match t with
  | .s64 | .n64 | .b64 => 64
  | .s8 | .n8 | .b8 => 8
  | .s16 | .n16 | .b16 => 16
  | .b128 => 128
  | _ => 32

def tySigned (t : Ty) : Bool :=
  match t with
  | .s8 | .s16 | .s32 | .s64 => true
  | _ => false

/-- A source of width `w`, 32 or 64: a scalar's low bits, a register, or a pair. `sca` says that the field names a scalar. -/
def Span.src (sp : Span) (w : Nat) (sca : Bool) (f : BitVec 8) (l : Nat) : BitVec w :=
  if sca then (sp.s f.toNat).setWidth w
  else if w = 64 then (sp.v64 f.toNat l).setWidth w else (sp.v f.toNat l).setWidth w

/-- A result of width `w`: into the scalar, filled by R76, or into a register or pair of the lane. -/
def Span.dst (sp : Span) (w : Nat) (u sgn : Bool) (f : BitVec 8) (l : Nat) (x : BitVec w) : Span :=
  if u then sp.setS f.toNat (if sgn then x.signExtend 64 else x.setWidth 64)
  else if w = 64 then sp.setV64 f.toNat l (x.setWidth 64) else sp.setV f.toNat l (x.setWidth 32)

/-- An immediate extended to `w` (R58). -/
def immAt {n : Nat} (w : Nat) (sgn : Bool) (imm : BitVec n) : BitVec w := if sgn then imm.signExtend w else imm.setWidth w

/-- The lanes over which a word acts: with U once, as lane 0, when the issue's guard is true. -/
def actOn (u : Bool) (G : List Nat) : List Nat := if u then (if G.isEmpty then [] else [0]) else G

/-! Memory operands (R182). -/

/-- The base of an address: 0 when absent, a scalar, or a pair. -/
def Span.base (sp : Span) (x : MEM) (l : Nat) : Word :=
  if x.a = 0xFF then 0 else if x.ctl.u || x.ka then sp.s x.a.toNat else sp.v64 x.a.toNat l

/-- The index: 0 when absent, a scalar, or a register zero-extended. -/
def Span.index (sp : Span) (x : MEM) (l : Nat) : Word :=
  if x.b = 0xFF then 0 else if x.ctl.u || x.kb then sp.s x.b.toNat else (sp.v x.b.toNat l).setWidth 64

/-- ea of R182, modulo 2^64. -/
def Span.ea (sp : Span) (x : MEM) (index offset : Bool) (l : Nat) : Word :=
  sp.base x l + (if index then sp.index x l else 0) + (if offset then x.off.signExtend 64 else 0)

/-- A deck base (R186): one register as a 32-bit natural value, or a whole scalar. -/
def Span.deckBase (sp : Span) (x : MEM) (l : Nat) : Nat :=
  if x.a = 0xFF then 0 else if x.ctl.u || x.ka then (sp.s x.a.toNat).toNat else (sp.v x.a.toNat l).toNat

/-- The deck address of R186, exact. -/
def Span.deckAddr (sp : Span) (x : MEM) (index offset : Bool) (l : Nat) : Int :=
  sp.deckBase x l + (if index then ((sp.index x l).toNat : Int) else 0) + (if offset then x.off.toInt else 0)

end Sys2Proof.Machine
end

