-- ==== Sys2Proof/Machine/Flags.lean ====
section
/-! DEFINITION. The device has no status flags: its flags are the predicates. This file holds what computes them: the
integer conditions (R56, R89), the combining types (R61), the truth table of PLOP (R91), and the write of a predicate pair. -/

namespace Sys2Proof.Machine

/-- An integer condition (R89); `num` and `nan` are no conditions of CMP. -/
def intCond {w : Nat} (c : Cond) (sgn : Bool) (a b : BitVec w) : Bool :=
  match c with
  | .eq => a == b
  | .ne => a != b
  | .lt => if sgn then a.slt b else a.ult b
  | .le => if sgn then a.sle b else a.ule b
  | .gt => if sgn then b.slt a else b.ult a
  | .ge => if sgn then b.sle a else b.ule a
  | .num | .nan => false

/-- The condition a three-bit code names (R56). -/
def condOfNat (n : Nat) : Cond :=
  match n with
  | 0 => .eq | 1 => .ne | 2 => .lt | 3 => .le | 4 => .gt | 5 => .ge | 6 => .num | _ => .nan

/-- The combining type a three-bit code names (R61). -/
def combineOfNat (n : Nat) : Combine :=
  match n with
  | 0 => .set | 1 => .full | 2 => .and | 3 => .or | 4 => .andn | _ => .xor

/-- The new value of pa (R61), from the guard, the condition and the old value. -/
def combine (t : Combine) (g c old : Bool) : Bool :=
  match t with
  | .set => c
  | .full => g && c
  | .and => old && c
  | .or => old || c
  | .andn => old && !c
  | .xor => old != c

/-- Does the compare write where the guard is `g` (R61)? -/
def combineWrites (t : Combine) (g : Bool) : Bool := g || t == .full

/-- Write pa and its complement pb (R61, R62) in lane `l`, or in the span with U. -/
def Span.setPair (sp : Span) (u : Bool) (d : BitVec 8) (l : Nat) (n : Bool) : Span :=
  let pa := (d.extractLsb' 4 4).toNat
  let pb := (d.extractLsb' 0 4).toNat
  if u then (sp.setQ pa n).setQ pb (!n) else (sp.setP pa l n).setP pb l (!n)

/-- One compare in one lane (or in the span): from condition value `c`, all of it read from `src` (R61). -/
def Span.compare (sp src : Span) (ctl : Ctl) (t : Combine) (d : BitVec 8) (l : Nat) (c : Bool) : Span :=
  let g := src.guard ctl l
  let pa := (d.extractLsb' 4 4).toNat
  let old := if ctl.u then src.q pa else src.p pa l
  if combineWrites t g then sp.setPair ctl.u d l (combine t g c old) else sp

/-- PLOP's truth table (R91): bit 2a + b of T. -/
def plopTable (t : BitVec 6) (a b : Bool) : Bool := t.getLsbD (2 * a.toNat + b.toNat)

end Sys2Proof.Machine
end

