-- ==== Sys2Proof/Machine/Float.lean ====
section
/-! DEFINITION. The three float formats and exact arithmetic on them (R223 to R229, R263 to R272): every operation is
computed on exact numbers and rounded once. Bit patterns are natural numbers here. -/

namespace Sys2Proof.Machine

/-- A format: exponent and fraction widths (R223). -/
structure Fmt where
  ew : Nat
  fw : Nat
  deriving DecidableEq, Repr

def fp32 : Fmt := ⟨8, 23⟩
def fp16 : Fmt := ⟨5, 10⟩
def bf16 : Fmt := ⟨8, 7⟩

def fmtOf : Ty → Fmt
  | .f16 | .f16x2 => fp16
  | .bf16 | .bf16x2 => bf16
  | _ => fp32

def packed : Ty → Bool
  | .f16x2 | .bf16x2 => true
  | _ => false

def Fmt.bias (f : Fmt) : Nat := 2 ^ (f.ew - 1) - 1
def Fmt.width (f : Fmt) : Nat := 1 + f.ew + f.fw
/-- Bit patterns of infinity, the canonical NaN and the largest finite value, without sign (R224). -/
def Fmt.inf (f : Fmt) : Nat := (2 ^ f.ew - 1) * 2 ^ f.fw
def Fmt.nan (f : Fmt) : Nat := f.inf + 2 ^ (f.fw - 1)
def Fmt.max (f : Fmt) : Nat := f.inf - 1
def Fmt.sign (f : Fmt) (neg : Bool) : Nat := if neg then 2 ^ (f.ew + f.fw) else 0

/-- A number as read: NaN, an infinity, or (−1)^neg × m × 2^e. -/
inductive FV where
  | nan
  | inf (neg : Bool)
  | fin (neg : Bool) (m : Nat) (e : Int)
  deriving DecidableEq, Repr

/-- The value of a bit pattern (R223); bits above the format are ignored (R225). -/
def Fmt.read (f : Fmt) (x : Nat) : FV :=
  let neg := (x / 2 ^ (f.ew + f.fw)) % 2 = 1
  let e := x / 2 ^ f.fw % 2 ^ f.ew
  let m := x % 2 ^ f.fw
  if e = 2 ^ f.ew - 1 then (if m = 0 then .inf neg else .nan)
  else if e = 0 then .fin neg m (1 - f.bias - f.fw)
  else .fin neg (2 ^ f.fw + m) (e - f.bias - f.fw)

/-! Rounding (R226). Modes: 0 RNE, 1 RTZ, 2 RUP, 3 RDN, 4 RNA (R56). -/

/-- Does the magnitude n + rem/2^k (and a little more with `sticky`) round up to n + 1? -/
def roundsUp (mode : Nat) (neg : Bool) (n rem k : Nat) (sticky : Bool) : Bool :=
  let inexact := decide (rem ≠ 0) || sticky
  let twice := 2 * rem
  match mode with
  | 0 => decide (2 ^ k < twice) || (decide (twice = 2 ^ k) && (sticky || decide (n % 2 = 1)))
  | 1 => false
  | 2 => inexact && !neg
  | 3 => inexact && neg
  | _ => decide (2 ^ k ≤ twice)

/-- The magnitude m × 2^e, with a fraction of a unit more when `sticky`, rounded to an integer. -/
def roundInt (mode : Nat) (neg : Bool) (m : Nat) (e : Int) (sticky : Bool) : Nat :=
  if 0 ≤ e then m * 2 ^ e.toNat
  else
    let k := (-e).toNat
    let n := m / 2 ^ k
    if roundsUp mode neg n (m % 2 ^ k) k sticky then n + 1 else n

/-- Overflow (R226). -/
def Fmt.overflow (f : Fmt) (mode : Nat) (neg : Bool) : Nat :=
  f.sign neg + (match mode with
    | 1 => f.max
    | 2 => if neg then f.max else f.inf
    | 3 => if neg then f.inf else f.max
    | _ => f.inf)

/-- rnd(x, mode, fmt) of (−1)^neg × m × 2^e; `sticky` says that x lies a fraction of a unit above m. A magnitude of 0 keeps the sign. -/
def Fmt.round (f : Fmt) (mode : Nat) (neg : Bool) (m : Nat) (e : Int) (sticky : Bool := false) : Nat :=
  if m = 0 then f.sign neg
  else
    let top : Int := m.log2 + e
    let emin : Int := 1 - f.bias
    let q : Int := (if top < emin then emin else top) - f.fw
    let n := roundInt mode neg m (e - q) sticky
    let (n, q) := if 2 ^ (f.fw + 1) ≤ n then (n / 2, q + 1) else (n, q)
    if n < 2 ^ f.fw then f.sign neg + n
    else
      let field := q + f.fw + f.bias
      if (2 ^ f.ew - 1 : Int) ≤ field then f.overflow mode neg
      else f.sign neg + field.toNat * 2 ^ f.fw + (n - 2 ^ f.fw)

/-! Sums and products (R226, R264, R265, R267). -/

/-- A signed integer at exponent e, scaled to the lower exponent `lo`. -/
def scaled (neg : Bool) (m : Nat) (e lo : Int) : Int :=
  let v : Int := m * 2 ^ (e - lo).toNat
  if neg then -v else v

/-- The sum of two exact terms, rounded once, with the sign of an exact zero (R226). -/
def Fmt.sum (f : Fmt) (mode : Nat) : FV → FV → Nat
  | .nan, _ | _, .nan => f.nan
  | .inf a, .inf b => if a = b then f.sign a + f.inf else f.nan
  | .inf a, _ | _, .inf a => f.sign a + f.inf
  | .fin a m e, .fin b n d =>
    let lo := if e < d then e else d
    let v := scaled a m e lo + scaled b n d lo
    if v = 0 then f.sign (if m = 0 ∧ n = 0 ∧ a = b then a else decide (mode = 3))
    else f.round mode (decide (v < 0)) v.natAbs lo

def FV.neg : FV → FV
  | .nan => .nan
  | .inf a => .inf !a
  | .fin a m e => .fin (!a) m e

/-- An exact product; 0 × ∞ is NaN. -/
def FV.mul : FV → FV → FV
  | .nan, _ | _, .nan => .nan
  | .inf a, .inf b => .inf (a != b)
  | .inf a, .fin b n _ | .fin b n _, .inf a => if n = 0 then .nan else .inf (a != b)
  | .fin a m e, .fin b n d => .fin (a != b) (m * n) (e + d)

/-- A value rounded once. -/
def Fmt.put (f : Fmt) (mode : Nat) : FV → Nat
  | .nan => f.nan
  | .inf a => f.sign a + f.inf
  | .fin a m e => f.round mode a m e

def fadd (f : Fmt) (mode a b : Nat) : Nat := f.sum mode (f.read a) (f.read b)
def fsub (f : Fmt) (mode a b : Nat) : Nat := f.sum mode (f.read a) (f.read b).neg
def fmul (f : Fmt) (mode a b : Nat) : Nat := f.put mode ((f.read a).mul (f.read b))
/-- FFMA with `.np` and `.nc` (R264). -/
def ffma (f : Fmt) (mode : Nat) (nc np : Bool) (a b c : Nat) : Nat :=
  let p := (f.read a).mul (f.read b)
  let r := f.read c
  f.sum mode (if np then p.neg else p) (if nc then r.neg else r)

/-- FDOT2 (R267): three exact terms, one rounding to FP32. -/
def fdot2 (f : Fmt) (mode a b c : Nat) : Nat :=
  let t0 := (f.read a).mul (f.read b)
  let t1 := (f.read (a / 65536)).mul (f.read (b / 65536))
  let t2 := fp32.read c
  let ts := [t0, t1, t2]
  let infs := ts.filterMap fun t => match t with | .inf a => some a | _ => none
  if ts.contains .nan then fp32.nan
  else match infs with
    | a :: r => if r.all (· = a) then fp32.sign a + fp32.inf else fp32.nan
    | [] =>
      let fin := ts.filterMap fun t => match t with | .fin a m e => some (a, m, e) | _ => none
      let lo := fin.foldl (fun l t => if t.2.2 < l then t.2.2 else l) 0
      let v : Int := (fin.map fun t => scaled t.1 t.2.1 t.2.2 lo).sum
      if v = 0 then
        let allZero (s : Bool) := fin.all fun t => t.1 = s && t.2.1 = 0
        fp32.sign (allZero true || (decide (mode = 3) && !allZero false))
      else fp32.round mode (decide (v < 0)) v.natAbs lo

/-! Division and roots (R264, R265). -/

/-- m/n × 2^e rounded once; n is not 0. -/
def Fmt.quot (f : Fmt) (mode : Nat) (neg : Bool) (m n : Nat) (e : Int) : Nat :=
  let a := m * 2 ^ 96
  f.round mode neg (a / n) (e - 96) (decide (a % n ≠ 0))

def fdiv (f : Fmt) (mode a b : Nat) : Nat :=
  match f.read a, f.read b with
  | .nan, _ | _, .nan => f.nan
  | .inf _, .inf _ => f.nan
  | .inf a, .fin b _ _ => f.sign (a != b) + f.inf
  | .fin a _ _, .inf b => f.sign (a != b)
  | .fin a m e, .fin b n d =>
    if n = 0 then (if m = 0 then f.nan else f.sign (a != b) + f.inf)
    else if m = 0 then f.sign (a != b)
    else f.quot mode (a != b) m n (e - d)

def frcp (f : Fmt) (mode a : Nat) : Nat :=
  match f.read a with
  | .nan => f.nan
  | .inf s => f.sign s
  | .fin s m e => if m = 0 then f.sign s + f.inf else f.quot mode s 1 m (-e)

/-- The integer square root below `r + 2^(k+1)`, bit by bit from bit k. -/
def isqrtFrom (x : Nat) : Nat → Nat → Nat
  | 0, r => if (r + 1) * (r + 1) ≤ x then r + 1 else r
  | k + 1, r => isqrtFrom x k (if (r + 2 ^ (k + 1)) * (r + 2 ^ (k + 1)) ≤ x then r + 2 ^ (k + 1) else r)

def isqrt (x : Nat) : Nat := isqrtFrom x (x.log2 / 2 + 1) 0

/-- m × 2^e with an even exponent. -/
def evenExp (m : Nat) (e : Int) : Nat × Int := if e % 2 = 0 then (m, e) else (2 * m, e - 1)

def fsqrt (f : Fmt) (mode a : Nat) : Nat :=
  match f.read a with
  | .nan => f.nan
  | .inf s => if s then f.nan else f.inf
  | .fin s m e =>
    if m = 0 then f.sign s else if s then f.nan else
      let (m, e) := evenExp m e
      let x := m * 2 ^ 128
      let r := isqrt x
      f.round mode false r (e / 2 - 64) (decide (r * r ≠ x))

def frsq (f : Fmt) (mode a : Nat) : Nat :=
  match f.read a with
  | .nan => f.nan
  | .inf s => if s then f.nan else 0
  | .fin s m e =>
    if m = 0 then f.sign s + f.inf else if s then f.nan else
      let (m, e) := evenExp m e
      let r := isqrt (2 ^ 160 / m)
      f.round mode false r (-(e / 2) - 80) (decide (r * r * m ≠ 2 ^ 160))

/-! Exponential and logarithm (R264, R265), in fixed point with 320 bits below the point: far finer than the distance of
any result from a rounding boundary, because a result that is not exact is irrational (log 10, DEDUCED). -/

def fixP : Nat := 320
def fixOne : Nat := 2 ^ fixP

/-- ln 2 = Σ 1/(k 2^k). -/
def fixLn2 : Nat := ((List.range 330).map fun k => fixOne / ((k + 1) * 2 ^ (k + 1))).sum

/-- Σ t^k/k! with t in fixed point: `n` more terms from the k-th, which is `term`. (log 10, DEDUCED) -/
def fixExp (t : Nat) : Nat → Nat → Nat → Nat
  | 0, _, term => term
  | n + 1, k, term => term + fixExp t n (k + 1) (term * t / fixOne / (k + 1))

/-- Σ z^(2k+1)/(2k+1): `n` more terms, `p` the power. (log 10, DEDUCED) -/
def fixAtanh (z2 : Nat) : Nat → Nat → Nat → Nat
  | 0, k, p => p / (2 * k + 1)
  | n + 1, k, p => p / (2 * k + 1) + fixAtanh z2 n (k + 1) (p * z2 / fixOne)

/-- (log 10, DEDUCED) -/
def fex2 (f : Fmt) (mode a : Nat) : Nat :=
  match f.read a with
  | .nan => f.nan
  | .inf s => if s then 0 else f.inf
  | .fin s m e =>
    if m = 0 then f.round mode false 1 0
    else if (11 : Int) ≤ m.log2 + e then (if s then f.round mode false 1 (-4096) else f.round mode false 1 4096)
    else if 0 ≤ e ∨ m % 2 ^ (-e).toNat = 0 then
      let k : Int := scaled s m e (if e < 0 then e else 0) / 2 ^ (if e < 0 then (-e).toNat else 0)
      f.round mode false 1 k
    else
      let v : Int := scaled s m e e
      let d : Int := 2 ^ (-e).toNat
      let fr := (v % d).toNat * fixOne / d.toNat
      f.round mode false (fixExp (fr * fixLn2 / fixOne) 120 0 fixOne) (v / d - fixP) true

/-- (log 10, DEDUCED) -/
def flg2 (f : Fmt) (mode a : Nat) : Nat :=
  match f.read a with
  | .nan => f.nan
  | .inf s => if s then f.nan else f.inf
  | .fin s m e =>
    if m = 0 then f.sign true + f.inf else if s then f.nan else
      let k : Int := m.log2 + e
      if m = 2 ^ m.log2 then f.round mode (decide (k < 0)) k.natAbs 0
      else
        let y := m * fixOne / 2 ^ m.log2
        let z := (y - fixOne) * fixOne / (y + fixOne)
        let lg := 2 * fixAtanh (z * z / fixOne) 120 0 z * fixOne / fixLn2
        let v : Int := k * fixOne + lg
        f.round mode (decide (v < 0)) v.natAbs (-fixP) true

/-! Comparison, minimum and maximum, classes, integral rounding (R90, R228, R266, R268, R269). -/

def Fmt.isNan (f : Fmt) (x : Nat) : Bool := f.read x = .nan

/-- An order-preserving key of a bit pattern; `zero` puts −0 below +0. -/
def Fmt.key (f : Fmt) (zero : Bool) (x : Nat) : Int :=
  let mag := x % 2 ^ (f.ew + f.fw)
  if x / 2 ^ (f.ew + f.fw) % 2 = 1 then -(mag : Int) - (if zero then 1 else 0) else mag

/-- FCMP's conditions (R90). -/
def floatCond (c : Cond) (f : Fmt) (a b : BitVec 32) : Bool :=
  let nan := f.isNan a.toNat || f.isNan b.toNat
  let x := f.key false a.toNat
  let y := f.key false b.toNat
  match c with
  | .eq => !nan && x == y
  | .ne => nan || x != y
  | .lt => !nan && decide (x < y)
  | .le => !nan && decide (x ≤ y)
  | .gt => !nan && decide (y < x)
  | .ge => !nan && decide (y ≤ x)
  | .num => !nan
  | .nan => nan

/-- The four min and max operations (R228): `number` prefers a number to a NaN. -/
def fminmax (f : Fmt) (max number : Bool) (a b : Nat) : Nat :=
  let a := a % 2 ^ f.width
  let b := b % 2 ^ f.width
  match f.isNan a, f.isNan b with
  | true, true => f.nan
  | true, false => if number then b else f.nan
  | false, true => if number then a else f.nan
  | false, false => if (decide (f.key true a < f.key true b)) != max then a else b

def fcls (f : Fmt) (x : Nat) : Nat :=
  let quiet := x / 2 ^ (f.fw - 1) % 2
  match f.read x with
  | .nan => 2 ^ quiet
  | .inf s => if s then 4 else 512
  | .fin s m _ =>
    let sub := decide (m < 2 ^ f.fw)
    if m = 0 then (if s then 32 else 64)
    else if s then (if sub then 16 else 8) else (if sub then 128 else 256)

def frnd (f : Fmt) (mode x : Nat) : Nat :=
  match f.read x with
  | .nan => f.nan
  | .inf s => f.sign s + f.inf
  | .fin s m e => f.round mode s (roundInt mode s m e false) 0

/-! Conversions (R229, R271). -/

/-- From one float format to another: one rounding; exact to a wider format. -/
def convert (src dst : Fmt) (mode x : Nat) : Nat := dst.put mode (src.read x)

/-- The range of an integer type (R230). -/
def intRange (w : Nat) (sgn : Bool) : Int × Int := if sgn then (-(2 ^ (w - 1) : Int), 2 ^ (w - 1) - 1) else (0, 2 ^ w - 1)

def clampInt (lo hi x : Int) : Int := if x < lo then lo else if hi < x then hi else x

/-- Float to an integer of `w` bits (R229). -/
def toInteger (f : Fmt) (mode w : Nat) (sgn : Bool) (x : Nat) : Int :=
  let (lo, hi) := intRange w sgn
  match f.read x with
  | .nan => 0
  | .inf s => if s then lo else hi
  | .fin s m e =>
    let n : Int := roundInt mode s m e false
    clampInt lo hi (if s then -n else n)

/-- An integer to a float (R229). -/
def ofInteger (f : Fmt) (mode : Nat) (x : Int) : Nat := f.round mode (decide (x < 0)) x.natAbs 0

end Sys2Proof.Machine
end

