-- ==== Sys2Proof/Machine/Mem.lean ====
section
/-! DEFINITION. Memory: its key space and its bytes (R6, R139, R344), the writes that watches and reservations see, and
translation: the walk, its outcomes, the TLBs (R118 to R123, R346). -/

namespace Sys2Proof.Machine

/-! Keys. One list holds every byte of memory. HBM frame f has key f; a capacity-tier or peer frame, a compressed page
and host memory follow in ranges of their own (log 5, DESIGN CHOICE). -/

/-- (log 5, DESIGN CHOICE) -/
def capBase : Nat := 2 ^ 52
/-- (log 5, DESIGN CHOICE) -/
def zoneBase : Nat := 2 ^ 53
/-- (log 5, DESIGN CHOICE) -/
def hostBase : Nat := 2 ^ 65

/-- The compute die of an HBM key (R344); none elsewhere. -/
def homeDie (key : Nat) : Option Nat := if key < Config.hbmBytes then some (key / 2 ^ 37) else none

/-- The 64-byte line of a key. -/
def lineOf (key : Nat) : Nat := key / 64

/-- What one zone slot takes of the keys: room for a page of any size, whatever its compressed form (log 5, DESIGN CHOICE). -/
def zoneStep : Nat := 2 ^ 30

/-- The key of byte 0 of a place: HBM, the capacity tier, or a zone slot (log 5, DESIGN CHOICE). -/
def placeKey (loc frame : Nat) : Nat := if loc = 2 then capBase + frame else if loc = 3 then zoneBase + frame else frame

/-! Bytes. -/

def maxNat (l : List Nat) : Nat := l.foldl max 0

/-- The canonical form of memory: addresses strictly rising, no entry equal to 0, what an unlisted address reads as. (log 5, DESIGN CHOICE) -/
def Memory.wf (m : List Host.Cell) : Bool := swf 0 m

/-- (log 5, DESIGN CHOICE) -/
def State.byte (s : State) (k : Nat) : Byte := sget 0 s.mem k
def State.bytes (s : State) (k n : Nat) : List Byte := sgets 0 s.mem k n
def State.write (s : State) (k : Nat) (bs : List Byte) : State := { s with mem := sputs 0 s.mem k bs }

/-- Little-endian value of bytes, and the bytes of a value (R6). -/
def leNat : List Byte → Nat
  | [] => 0
  | b :: r => b.toNat + 256 * leNat r

def toBytes : Nat → Nat → List Byte
  | 0, _ => []
  | n + 1, x => BitVec.ofNat 8 x :: toBytes n (x / 256)

def State.nat (s : State) (k n : Nat) : Nat := leNat (s.bytes k n)
def State.word (s : State) (k : Nat) : Word := BitVec.ofNat 64 (s.nat k 8)

/-- A span's place: 64 × pier index + slot, so that its pier index, die and slot are these. -/
def Span.pier (sp : Span) : Nat := sp.id / 64
def Span.die (sp : Span) : Nat := sp.id / 64 / Config.piersPerDie
def Span.slot (sp : Span) : Nat := sp.id % 64

/-- The timestamp of a die (R336). (log 9, DESIGN CHOICE) -/
def State.time (s : State) (die : Nat) : Word := s.tsc.getD die 0

/-- What a performed write does to a span's watches (R197) and reservations (R185) on the lines from `lo` to `hi`. A wait whose deadline
has passed is woken by no later write. (log 25, DEDUCED) -/
def Span.seesWrite (sp : Span) (lo hi now : Nat) : Span :=
  let hit (o : Option Nat) : Bool := match o with | some n => decide (lo ≤ n) && decide (n ≤ hi) | none => false
  let see (o : Option Wait) : Option Wait := match o with
    | some (.watch w) => some (.watch (if hit w.line && w.due.all (decide <| now ≤ ·) then { w with wake := true } else w))
    | o => o
  let cut (e : Entry) : Entry :=
    if hit (some e.pline) then { e with parts := e.parts.map fun p => { p with acc := { p.acc with armed := false } } } else e
  { sp with
    resv := if hit sp.resv then none else sp.resv
    landing := sp.landing.map cut
    unsent := sp.unsent.map cut
    joining := sp.joining.map cut
    lanes := sp.lanes.map fun ln =>
      { ln with resv := if hit ln.resv then none else ln.resv, wait := see ln.wait, kept := see ln.kept } }

/-- Which of these bytes are a release's (R155). -/
def Msg.bytesIn (m : Msg) (at_ len : Nat) : List Nat :=
  ((List.range m.len).map (m.at_ + ·)).filter fun k => decide (at_ ≤ k) && decide (k < at_ + len)

/-- Does a release stand on some of these bytes (R155)? -/
def Msg.on (m : Msg) (deck : Option (Nat × Nat)) (at_ len : Nat) : Bool := m.deck = deck && (m.bytesIn at_ len).any (!m.hid.contains ·)

/-- A write of bytes hides a release there; a read-modify-write shows it again (R155). -/
def Msg.covered (m : Msg) (deck : Option (Nat × Nat)) (at_ len : Nat) (rmw : Bool) : Msg :=
  if m.deck ≠ deck then m else
    let rest := m.hid.filter (!(m.bytesIn at_ len).contains ·)
    { m with hid := if rmw then rest else rest ++ m.bytesIn at_ len }

/-- A copy misses a write of bytes that are its line's (R161). -/
def L1Line.miss (c : L1Line) (k n now : Nat) : L1Line :=
  let new := (((List.range 64).map (64 * c.line + ·)).filter fun b => decide (k ≤ b) && decide (b < k + n)).map fun b => (b, now)
  { c with missed := c.missed ++ new.filter (!c.missed.contains ·) }

/-- What a write of bytes does to the releases that stand on them, and to the copies of their lines. -/
def State.wrote (s : State) (deck : Option (Nat × Nat)) (at_ len : Nat) (rmw : Bool) : State :=
  { s with
    msgs := s.msgs.map (·.covered deck at_ len rmw)
    l1 := if deck.isSome then s.l1 else s.l1.map (·.miss at_ len s.steps) }

/-- The watches and the reservations of every span see a write on the lines from `lo` to `hi` (R185, R197). -/
def State.written (s : State) (lo hi : Nat) : State := 
  { s with spans := s.spans.map fun sp => sp.seesWrite lo hi (s.time sp.die).toNat }

/-- A performed write of bytes at a key: every watch on its lines is woken, every reservation on them is lost. -/
def State.poke (s : State) (k : Nat) (bs : List Byte) : State :=
  if bs.isEmpty then s else
    ((s.write k bs).written (lineOf k) (lineOf (k + bs.length - 1))).wrote none k bs.length false

/-- Is the line held (R109, R116, R371)? -/
def State.lineHeld (s : State) (line : Nat) : Bool :=
  s.holds.any fun h => match h.on with | some (n, _) => n = line | none => false

/-- Is a line of these bytes held? -/
def State.bytesHeld (s : State) (k n : Nat) : Bool := (List.range ((k % 64 + n + 63) / 64)).any fun i => s.lineHeld (lineOf k + i)

/-- The 64 KiB frame of a line has been accessed (R142). -/
def State.touch (s : State) (line : Nat) : State :=
  { s with lru := (line / 1024, s.steps) :: s.lru.filter (·.1 ≠ line / 1024) }

/-! The page table (R118 to R120). -/

/-- The levels: the lowest index bit, the number of index bits, and log₂ of the page a leaf there maps. -/
def walkLevels : List (Nat × Nat × Option Nat) :=
  [(44, 13, none), (30, 14, some 30), (26, 4, some 26), (21, 5, some 21), (16, 5, some 16)]

/-- A leaf as a walk finds it: the key of its entry, its word, log₂ of its page. -/
structure Leaf where
  at_  : Nat
  word : Word
  log  : Nat
  deriving DecidableEq, Repr

/-- The number of the pseudo-channel that holds an HBM frame, over all stacks (R344). -/
def channelOf (frame : Nat) : Nat := 128 * (frame / 2 ^ 37) + 64 * (frame / 65536 % 2) + frame / 2 ^ 17 % 64

/-- The home shore slice of the line of an HBM address, among the 16 of its die (R344). -/
def homeSlice (f : Nat) : Nat :=
  let l := f / 64
  (l % 16) ^^^ (l / 16 % 16) ^^^ (l / 256 % 16) ^^^ (l / 4096 % 16)

/-- The peer port number P of a capacity frame (R346): 0 is the capacity tier itself. (log 47, DESIGN CHOICE) -/
def peerOf (frame : Nat) : Nat := frame / 2 ^ 48 % 16

/-- Does a frame belong to a partition (R347)? -/
def Partition.ownsFrame (p : Partition) (loc frame : Nat) : Bool :=
  if loc = 1 then p.row.channels.contains (channelOf frame)
  else p.row.capFrames.any fun r => decide (r.1 ≤ frame) && decide (frame < r.1 + r.2)

/-- May a partition's requests reach a key: its own frames, and peer frames (R148, R348)? (log 7, DEDUCED) -/
def State.reaches (s : State) (part key : Nat) : Bool :=
  match s.parts[part]? with
  | none => false
  | some p =>
    if key < Config.hbmBytes then p.ownsFrame 1 key
    else decide (capBase ≤ key) && (decide (peerOf (key - capBase) ≠ 0) || p.ownsFrame 2 (key - capBase))

/-- From the table at `tbl`: the leaf that maps `va`. None is every UNMAPPED outcome that the entries themselves give. A
table outside the partition's HBM counts as misaligned (log 7, DEDUCED). -/
def State.walkFrom (s : State) (part va tbl : Nat) : List (Nat × Nat × Option Nat) → Option Leaf
  | [] => none
  | (sh, n, leaf) :: rest =>
    let at_ := tbl + 8 * (va / 2 ^ sh % 2 ^ n)
    let e := s.word at_
    if tbl % (8 * 2 ^ n) ≠ 0 ∨ Config.hbmBytes ≤ tbl ∨ !s.reaches part at_ then none
    else if !e.getLsbD 0 then none
    else if e.getLsbD 1 then leaf.map fun log => ⟨at_, e, log⟩
    else s.walkFrom part va ((e.extractLsb' 7 45).toNat * 128) rest

def Leaf.loc (lf : Leaf) : Nat := (lf.word.extractLsb' 62 2).toNat
def Leaf.frame (lf : Leaf) : Nat := (lf.word.extractLsb' 16 36).toNat * 65536
def Leaf.kindCode (lf : Leaf) : Nat := (lf.word.extractLsb' 59 2).toNat

def pkindOf : Nat → PKind
  | 0 => .s | 1 => .c | _ => .u

/-- The key of byte 0 of a frame. -/
def frameKey (loc frame : Nat) : Nat := if loc = 2 then capBase + frame else frame

/-- Does a walk meet a held line: of a table, or of the leaf (R109)? -/
def State.walkHits (s : State) (va tbl : Nat) : List (Nat × Nat × Option Nat) → Bool
  | [] => false
  | (sh, n, _) :: rest =>
    let at_ := tbl + 8 * (va / 2 ^ sh % 2 ^ n)
    let e := s.word at_
    s.lineHeld (lineOf at_) || (e.getLsbD 0 && !e.getLsbD 1 && s.walkHits va ((e.extractLsb' 7 45).toNat * 128) rest)

/-- (log 46, DEDUCED) -/
def State.walkHeld (s : State) (cx : Context) (va : Nat) : Bool :=
  !s.holds.isEmpty && decide (va < 2 ^ 57) && s.walkHits va (cx.ptroot.extractLsb' 16 36 ++ 0#16).toNat walkLevels

/-- What an access asks of a page (R122); `peer` is a copy by FCPY or FCPYT at system scope, which alone reaches peer frames. -/
structure Need where
  rd   : Bool := false
  wr   : Bool := false
  ex   : Bool := false
  peer : Bool := false
  deriving DecidableEq, Repr

/-- The outcome of translation (R121). -/
inductive XOut where
  | pass (key : Nat) (kind : PKind)
  | park (why : Park)
  | fatal (cause : Cause)
  deriving DecidableEq, Repr

/-- Is the frame misaligned, not one that the device has, on a port that is excluded (R345), or at `va` another partition's (R148,
R348)? (log 7, DEDUCED) -/
def State.frameBad (s : State) (part va : Nat) (lf : Leaf) : Bool :=
  let key := frameKey lf.loc lf.frame + va % 2 ^ lf.log
  (lf.loc = 1 && (decide (lf.frame % 2 ^ lf.log ≠ 0) || decide (Config.hbmBytes ≤ lf.frame) || !s.reaches part key)) ||
  (lf.loc = 2 && (decide (lf.frame % 2 ^ lf.log ≠ 0) || decide (12 < peerOf lf.frame) ||
    (decide (peerOf lf.frame = 0) && (decide (s.tierSize ≤ lf.frame) || s.dead.contains ((key - capBase) / 65536 % 12) || !s.reaches part key))))

def dieFenced (s : State) (loc frame : Nat) : Bool := loc = 1 && s.fenced.contains (frame / 2 ^ 37)

/-- The table of R121 for a leaf, in its order. (log 7, DEDUCED) -/
def State.leafOut (s : State) (part va : Nat) (lf : Leaf) (need : Need) : XOut :=
  if lf.kindCode = 3 || s.frameBad part va lf || dieFenced s lf.loc lf.frame then .fatal .unmapped
  else if (need.rd && !lf.word.getLsbD 2) || (need.wr && !lf.word.getLsbD 3) || (need.ex && !lf.word.getLsbD 4) ||
      (lf.loc = 2 && decide (peerOf lf.frame ≠ 0) && !need.peer) then .fatal .prot
  else if lf.word.getLsbD 61 then .park .migrate
  else if lf.loc = 0 then .park .page
  else if lf.loc = 3 then .park .expand
  else .pass (frameKey lf.loc lf.frame + va % 2 ^ lf.log) (pkindOf lf.kindCode)

/-- The leaf of an address in a context. -/
def State.leafOf (s : State) (cx : Context) (va : Nat) : Option Leaf :=
  if 2 ^ 57 ≤ va then none else s.walkFrom cx.part va (cx.ptroot.extractLsb' 16 36 ++ 0#16).toNat walkLevels

/-- The physical line at an address, where its check would pass with what a program may ask of it: no peer page (R194, R346). R122 names no
permission for CCTL, and none is asked (log 58, DESIGN CHOICE). -/
def State.lineAt (s : State) (cx : Context) (va : Nat) : Option Nat :=
  match s.leafOf cx va with
  | none => none
  | some lf => match s.leafOut cx.part va lf {} with
    | .pass key _ => some (lineOf key)
    | _ => none

/-- Keep only the first `n` elements that `f` accepts. -/
def keepFirst {α : Type} (f : α → Bool) : Nat → List α → List α
  | _, [] => []
  | n, a :: r => if f a then (match n with | 0 => keepFirst f 0 r | m + 1 => a :: keepFirst f m r) else a :: keepFirst f n r

/-- The last-level TLB entries of a partition on a die: its own sets hold them (R123, R347). (log 49, DESIGN CHOICE) -/
def State.tlbShare (s : State) (part die : Nat) : Nat :=
  match s.parts[part]? with
  | some p => Config.tlbSet * (p.row.tlbSets.filter (·.1 = die)).length
  | none => 0

/-- Fill the first-level TLB of a pier and the sets of its partition in the last-level TLB of its die with a leaf (R123, R347, R348); the
entries filled first give way. (log 49, DESIGN CHOICE) -/
def State.fillTlb (s : State) (pier : Nat) (cx : Context) (va : Nat) (lf : Leaf) (dirty : Bool) : State :=
  let die := pier / Config.piersPerDie
  let e : TlbEntry := { pier := some pier, die := die, part := cx.part, ctx := cx.id, page := va / 2 ^ lf.log, size := lf.log,
                        frame := frameKey lf.loc lf.frame, pkind := pkindOf lf.kindCode, rd := lf.word.getLsbD 2,
                        wr := lf.word.getLsbD 3, ex := lf.word.getLsbD 4, dirty := dirty }
  let old := s.tlb.filter fun t => !(t.ctx = cx.id && t.page = e.page && t.size = e.size &&
    (t.pier = some pier || (t.pier = none && t.die = die)))
  let all := e :: { e with pier := none } :: old
  let first := keepFirst (fun t => t.pier = some pier) Config.tlb1 all
  { s with tlb := keepFirst (fun t => t.pier = none && t.die = die && t.part = cx.part) (s.tlbShare cx.part die) first }

/-- The walker's A and D (R122): bits 9 and 10 of the leaf. -/
def State.markLeaf (s : State) (lf : Leaf) (dirty : Bool) : State :=
  s.poke lf.at_ (toBytes 8 (lf.word ||| 0x200 ||| (if dirty then 0x400 else 0)).toNat)

/-- The slots of a compressed page, by the first: one of 48 KiB for each 64 KiB of the page, in the stack of its frame; frames alternate between
the two stacks of a die (R140, R344). (log 43, DESIGN CHOICE) -/
def slotsOf (slot size : Nat) : List Nat := (List.range (size / 65536)).map fun i => slot + i % 2 + 8 * (i / 2)

/-- Does a page's place belong to a partition: its frames, or its slots of the zone (R148, R347, R348)? (log 43, DESIGN CHOICE) -/
def State.ownsPlace (s : State) (part loc place size : Nat) : Bool :=
  match s.parts[part]? with
  | none => false
  | some p =>
    if loc = 3 then (slotsOf (place / zoneStep) size).all p.row.zoneSlots.contains
    else (List.range (size / 65536)).all fun i => p.ownsFrame loc (place + 65536 * i)

/-! The leaves of a context. -/

/-- Indices of a table whose entries are not 0. -/
def State.tableIdx (s : State) (tbl n : Nat) : List Nat :=
  ((s.mem.filter fun c => decide (tbl ≤ c.1) && decide (c.1 < tbl + 8 * n)).map fun c => (c.1 - tbl) / 8).eraseDups

/-- Every leaf under a table with its virtual address, ascending (R119). An entry that is not the partition's own is not followed, as no walk
follows it (R148). -/
def State.leavesFrom (s : State) (part va tbl : Nat) : List (Nat × Nat × Option Nat) → List (Nat × Leaf)
  | [] => []
  | (sh, n, leaf) :: rest =>
    if tbl % (8 * 2 ^ n) ≠ 0 ∨ Config.hbmBytes ≤ tbl then [] else
    ((s.tableIdx tbl (2 ^ n)).map fun i =>
      let e := s.word (tbl + 8 * i)
      if !e.getLsbD 0 || !s.reaches part (tbl + 8 * i) then []
      else if e.getLsbD 1 then match leaf with | some log => [(va + i * 2 ^ sh, (⟨tbl + 8 * i, e, log⟩ : Leaf))] | none => []
      else s.leavesFrom part (va + i * 2 ^ sh) ((e.extractLsb' 7 45).toNat * 128) rest).flatten

def State.leaves (s : State) (cx : Context) : List (Nat × Leaf) :=
  s.leavesFrom cx.part 0 (cx.ptroot.extractLsb' 16 36 ++ 0#16).toNat walkLevels

/-- The tables under a table, itself included, with their sizes, as far as the partition's walks follow them. -/
def State.tablesFrom (s : State) (part tbl : Nat) : List (Nat × Nat × Option Nat) → List (Nat × Nat)
  | [] => []
  | (_, n, _) :: rest =>
    if tbl % (8 * 2 ^ n) ≠ 0 ∨ Config.hbmBytes ≤ tbl then [] else
    (tbl, 8 * 2 ^ n) :: ((s.tableIdx tbl (2 ^ n)).map fun i =>
      let e := s.word (tbl + 8 * i)
      if e.getLsbD 0 && !e.getLsbD 1 && s.reaches part (tbl + 8 * i) then s.tablesFrom part ((e.extractLsb' 7 45).toNat * 128) rest else []).flatten

/-- Pages whose translations are still about (R146): those of TLB entries, of requests under way, and of shoot-downs that are not at
rest. -/
def State.lingering (s : State) (part : Nat) : List (Nat × Nat) :=
  ((s.tlb.filter (·.part = part)).map fun t => (t.frame, 2 ^ t.size)) ++
    (((s.spans.filter (·.part = part)).map fun sp =>
      (((sp.landing ++ sp.unsent ++ sp.joining).filter fun e => e.op = .mem && e.st ≠ .done).map fun e => (64 * e.pline / 65536 * 65536, 65536)) ++
        ((sp.ferry.map fun o => (o.stripes.map (·.keys)).flatten).flatten).map fun k => (k / 65536 * 65536, 65536)).flatten) ++
    (((s.shoots.filter (·.part = part)).map (·.frames)).flatten)

/-- HBM bytes that leaves and tables of a partition's contexts and page moves use, or that old translations still name, as ranges. -/
def State.hbmUsed (s : State) (part : Nat) : List (Nat × Nat) :=
  ((s.lingering part).filter fun r => decide (r.1 < Config.hbmBytes)) ++
  ((s.ctxs.filter (·.part = part)).map fun cx =>
      s.tablesFrom part (cx.ptroot.extractLsb' 16 36 ++ 0#16).toNat walkLevels ++
        ((s.leaves cx).filter (·.2.loc = 1)).map fun l => (l.2.frame, 2 ^ l.2.log)).flatten ++
    (s.moves.filter (·.newLoc = 1)).map (fun m => (m.new, 2 ^ m.size)) ++ (s.moves.filter (·.oldLoc = 1)).map fun m => (m.old, 2 ^ m.size)

def overlapsAny (f size : Nat) (rs : List (Nat × Nat)) : Bool := rs.any fun r => decide (r.1 < f + size) && decide (f < r.1 + r.2)

/-! Capacity frames. -/

/-- Are all the 64 KiB frames of a capacity page on ports in use (R139, R345)? -/
def State.portsUp (s : State) (frame size : Nat) : Bool :=
  (List.range (min 12 (size / 65536))).all fun i => !s.dead.contains ((frame / 65536 + i) % 12)

/-- Capacity frames that leaves of a partition map, that moves use, that old translations still name, and that checkpoints hold, as
ranges. -/
def State.capUsed (s : State) (part : Nat) : List (Nat × Nat) :=
  (((s.lingering part).filter fun r => decide (capBase ≤ r.1)).map fun r => (r.1 - capBase, r.2)) ++
  ((s.ctxs.filter (·.part = part)).map fun cx =>
      ((s.leaves cx).filter fun l => l.2.loc = 2 && decide (peerOf l.2.frame = 0)).map fun l => (l.2.frame, 2 ^ l.2.log)).flatten ++
    (s.moves.filter (·.newLoc = 2)).map (fun m => (m.new, 2 ^ m.size)) ++ (s.moves.filter (·.oldLoc = 2)).map (fun m => (m.old, 2 ^ m.size)) ++
    s.kept.map (fun k => (k.1, 65536)) ++ s.ckGuard.map fun f => (f.1, f.2)

/-- A free aligned frame of the partition's capacity ranges, when a checkpoint makes a capacity page move: the device's choice, which is
a free value (R362; DESIGN CHOICE, log 8); where that names no free frame, the first one. Of as many frames as there are ranges in use
and one more, one is free, or all are taken. -/
def State.capFree (s : State) (part : Nat) (size : Nat) : Option Nat :=
  match s.parts[part]? with
  | none => none
  | some p =>
    let used := s.capUsed part
    let free (f : Nat) : Bool := !overlapsAny f size used && s.portsUp f size
    let pick := Config.frameChoice s.steps * size
    if free pick && p.row.capFrames.any (fun r => decide (r.1 ≤ pick) && decide (pick + size ≤ r.1 + r.2)) then some pick else
      p.row.capFrames.findSome? fun r =>
        let first := (r.1 + size - 1) / size * size
        ((List.range (20 * (used.length + 1))).map fun i => first + size * i).find? fun f => decide (f + size ≤ r.1 + r.2) && free f

/-- A write to a capacity page that a checkpoint keeps starts a move of the page (R362): MIG is set, and the check parks. (log 8, DESIGN
CHOICE) -/
def State.keepPage (s : State) (cx : Context) (va : Nat) (lf : Leaf) (new : Nat) : State :=
  let s1 := s.poke lf.at_ (toBytes 8 (lf.word ||| (1 <<< 61)).toNat)
  { s1 with
    ckGuard := s.ckGuard.filter fun f => !(decide (lf.frame ≤ f.1) && decide (f.1 < lf.frame + 2 ^ lf.log))
    kept := s.kept ++ (List.range (2 ^ lf.log / 65536)).map fun i => (lf.frame + 65536 * i, new + 65536 * i)
    moves := s.moves ++ [{ ctx := cx.id, page := va / 2 ^ lf.log * 2 ^ lf.log, size := lf.log, leaf := lf.at_, oldLoc := 2,
                           old := lf.frame, newLoc := 2, new := new }] }

/-- The move that a write to a kept page starts, of a page that is the partition's own, when a frame is free for it (R148, R362). -/
def State.keepFrame (s : State) (part : Nat) (lf : Leaf) : Option Nat :=
  if s.ownsPlace part 2 lf.frame (2 ^ lf.log) then s.capFree part (2 ^ lf.log) else none

/-- A walk for one page part (R119 to R123): its outcome, with A and D set and, for an agent of a pier, the TLBs filled. -/
def State.walk (s : State) (pier : Option Nat) (cx : Context) (va : Nat) (need : Need) : State × XOut :=
  match s.leafOf cx va with
  | none => (s, .fatal .unmapped)
  | some lf =>
    match s.leafOut cx.part va lf need with
    | .pass key kind =>
      if need.wr && lf.loc = 2 && overlapsAny lf.frame (2 ^ lf.log) s.ckGuard then
        match s.keepFrame cx.part lf with
        | some new => (s.keepPage cx va lf new, .park .migrate)
        | none => (s, .park .migrate)
      else
        let s1 := s.markLeaf lf need.wr
        let s2 := match pier with
          | some p => s1.fillTlb p cx va lf ((need.wr || lf.word.getLsbD 10) && !(lf.loc = 2 && overlapsAny lf.frame (2 ^ lf.log) s.ckGuard))
          | none => s1
        (s2, .pass key kind)
    | o => (s, o)

/-- May an access with these needs go through a TLB entry to a key: a clean entry never serves a write, and what the entry does not
permit, or what lies on a fenced die, an excluded port or with another partition, is for a walk to say (R122, R123, R345, R348, R360). -/
def State.tlbServes (s : State) (part : Nat) (t : TlbEntry) (key : Nat) (need : Need) : Bool :=
  (t.dirty || !need.wr) && (t.rd || !need.rd) && (t.wr || !need.wr) && (t.ex || !need.ex) &&
    s.reaches part key && !(homeDie key).any s.fenced.contains &&
    (decide (key < capBase) || (if peerOf (key - capBase) = 0 then !s.dead.contains ((key - capBase) / 65536 % 12) else need.peer))

/-- What a TLB says, if it can serve the access (R122, R123). It names no fault but that of an address above the space. -/
def State.tlbLook (s : State) (pier : Nat) (cx : Context) (va : Nat) (need : Need) : Option XOut :=
  if 2 ^ 57 ≤ va then some (.fatal .unmapped)
  else (s.tlb.find? fun t => t.ctx = cx.id && t.part = cx.part && t.page = va / 2 ^ t.size &&
      (t.pier = some pier || (t.pier = none && t.die = pier / Config.piersPerDie)) && s.tlbServes cx.part t (t.frame + va % 2 ^ t.size) need).map
    fun t => .pass (t.frame + va % 2 ^ t.size) t.pkind

/-- A TLB entry that the device chooses gives way, in a cycle that a free value names: what is cached of a leaf that has changed, old or
new, is the device's (R148). (log 49, DESIGN CHOICE) -/
def State.forget (s : State) : State := { s with tlb := s.tlb.eraseIdx (Config.tlbDrop s.steps) }

/-- TRANSLATION OF A PAGE PART for an agent: what its pier's TLBs say, where they can serve it, else a walk (R121 to R123, R148). An agent of
the quay has no TLB. (log 49, DESIGN CHOICE) -/
def State.seek (s : State) (pier : Option Nat) (cx : Context) (va : Nat) (need : Need) : State × XOut :=
  match pier.bind fun p => s.tlbLook p cx va need with
  | some o => (s, o)
  | none => s.walk pier cx va need

/-- Does that walk meet a held line (R109)? -/
def State.seekHeld (s : State) (pier : Option Nat) (cx : Context) (va : Nat) (need : Need) : Bool :=
  (pier.bind fun p => s.tlbLook p cx va need).isNone && s.walkHeld cx va

/-! Ports. -/

/-- A request at a capacity port or a Sheund port is done: of the partition's entries that wait there, the one bounced first is woken
(R130). -/
def State.portFrees (s : State) (part line : Nat) : State :=
  let port (n : Nat) : Nat × Nat := (peerOf (64 * n - capBase), if peerOf (64 * n - capBase) = 0 then (64 * n - capBase) / 65536 % 12 else 0)
  let waits (e : Entry) : Bool := e.st = .ashore && e.reason = 6 && !e.woken && decide (capBase ≤ 64 * e.pline) && port e.pline = port line
  if 64 * line < capBase then s else
    match ((s.spans.filter (·.part = part)).map fun sp => (sp.landing.filter waits).map fun e => (e.since, sp.uid, e.slot)).flatten with
    | [] => s
    | a :: r =>
      let best := r.foldl (fun b c => if c.1 < b.1 then c else b) a
      { s with spans := s.spans.map fun sp => if sp.uid = best.2.1 then
          { sp with landing := sp.landing.map fun e => if e.slot = best.2.2 then { e with woken := true } else e } else sp }

/-- The requests for the lines of some bytes are done. -/
def State.portsFree (s : State) (part k n : Nat) : State :=
  if k < capBase then s else (List.range ((k % 64 + n + 63) / 64)).foldl (fun t i => t.portFrees part (lineOf k + i)) s

/-! Ranges. -/

/-- The pieces of a byte range inside 64 KiB pages: address and length. Addresses wrap at 2^64. -/
def pieces (size : Nat) : Nat → Nat → Nat → List (Nat × Nat)
  | 0, _, _ => []
  | fuel + 1, va, len =>
    if len = 0 then [] else
      let n := min len (size - va % size)
      (va % 2 ^ 64, n) :: pieces size fuel (va + n) (len - n)

/-- The pages of a range, as pieces. -/
def pagePieces (va len : Nat) : List (Nat × Nat) := pieces 65536 (len / 65536 + 2) va len

/-- The worst of two outcomes (R127): a fatal one wins over a park, the first of a kind stands, and a pass gives way. -/
def XOut.worst (a b : XOut) : XOut :=
  match a, b with
  | .fatal c, _ => .fatal c
  | _, .fatal c => .fatal c
  | .park r, _ => .park r
  | _, o => o

/-- A page part of a range: its address and length, and what its translation says. -/
abbrev PageOut := (Nat × Nat) × XOut

/-- The outcomes of page parts in order (R121, R122); none where a walk meets a held line: it waits there (R109). (log 46, DEDUCED) -/
def State.lookPages (s : State) (pier : Option Nat) (cx : Context) (need : Need) : List (Nat × Nat) → State × Option (List PageOut)
  | [] => (s, some [])
  | p :: r =>
    if s.seekHeld pier cx p.1 need then (s, none) else
    let (s1, o) := s.seek pier cx p.1 need
    let (s2, os) := s1.lookPages pier cx need r
    (s2, os.map ((p, o) :: ·))

/-- The outcome over page parts; none when every one passes. -/
def worstOut (os : List PageOut) : Option XOut :=
  os.foldr (fun p acc => match p.2, acc with
    | .pass _ _, x => x
    | o, none => some o
    | o, some x => some (o.worst x)) none

/-- The pages that park. -/
def parked (os : List PageOut) : List Nat := os.filterMap fun p => match p.2 with | .park _ => some (p.1.1 / 65536 * 65536) | _ => none

/-- The page parts that pass: the key of the first byte of each, and its length. -/
def passed (os : List PageOut) : List (Nat × Nat) := os.filterMap fun p => match p.2 with | .pass key _ => some (key, p.1.2) | _ => none

/-- Check every page of a range (R121, R122): the outcome over the range, the pages that park, the keys of those that pass. A walk that meets
a held line waits, and parks no page (R109). -/
def State.checkPages (s : State) (pier : Option Nat) (cx : Context) (need : Need) (ps : List (Nat × Nat)) :
    State × Option XOut × List Nat × List (Nat × Nat) :=
  match s.lookPages pier cx need ps with
  | (t, none) => (t, some (.park .page), [], [])
  | (t, some os) => (t, worstOut os, parked os, passed os)

/-- A pier's own write of bytes removes its L1 copies of their lines (R161). -/
def State.unlist (s : State) (pier : Option Nat) (k n : Nat) : State :=
  match pier with
  | some p => { s with l1 := s.l1.filter fun c => !(c.pier = p && decide (lineOf k ≤ c.line) && decide (c.line ≤ lineOf (k + n - 1))) }
  | none => s

/-- Does a request of the device reach a held line (R109)? It bounces there, and is made again once the line is released. (log 46, DEDUCED) -/
def State.meetsHold (s : State) (keys : List (Nat × Nat)) : Bool := !s.holds.isEmpty && keys.any fun k => s.bytesHeld k.1 k.2

/-- The device's own write of bytes in a context (R47), by a pier where it is one's: performed when every page passes, where its check found
the bytes, else its outcome and the pages that park; a held line parks no page. -/
def State.deviceWrite (s : State) (pier : Option Nat) (cx : Context) (va : Word) (bs : List Byte) : State × Option XOut × List Nat :=
  match s.checkPages pier cx { wr := true } (pagePieces va.toNat bs.length) with
  | (s1, some x, pk, _) => (s1, some x, pk)
  | (s1, none, _, keys) =>
    if s1.meetsHold keys then (s1, some (.park .page), []) else
    let put := fun (acc : State × List Byte) (k : Nat × Nat) =>
      ((((acc.1.poke k.1 (acc.2.take k.2)).unlist pier k.1 k.2).portsFree cx.part k.1 k.2).touch (lineOf k.1), acc.2.drop k.2)
    ((keys.foldl put (s1, bs)).1, none, [])

/-- The device's own read of bytes in a context, by a pier where it is one's. -/
def State.deviceRead (s : State) (pier : Option Nat) (cx : Context) (va : Word) (len : Nat) : State × Except (XOut × List Nat) (List Byte) :=
  match s.checkPages pier cx { rd := true } (pagePieces va.toNat len) with
  | (s1, some x, pk, _) => (s1, .error (x, pk))
  | (s1, none, _, keys) =>
    if s1.meetsHold keys then (s1, .error (.park .page, [])) else
    (keys.foldl (fun t k => (t.portsFree cx.part k.1 k.2).touch (lineOf k.1)) s1, .ok (keys.map fun k => s1.bytes k.1 k.2).flatten)

end Sys2Proof.Machine
end

