-- ==== Sys2Proof/Machine/Post.lean ====
section
/-! DEFINITION. The records of the state by name (spans, contexts, launches, blocks, queues), and the posting of events on
a queue's event ring (R354, R355). -/

namespace Sys2Proof.Machine

/-! Records by name. -/

def State.span? (s : State) (id : Nat) : Option Span := s.spans.find? (·.id = id)
def State.putSpan (s : State) (sp : Span) : State :=
  { s with spans := s.spans.map fun t => if t.id = sp.id then sp else t }
def State.onSpan (s : State) (id : Nat) (f : Span → Span) : State :=
  { s with spans := s.spans.map fun t => if t.id = id then f t else t }
/-- The span of a unique number: it may have left its slot. -/
def State.spanOf? (s : State) (uid : Nat) : Option Span := s.spans.find? (·.uid = uid)

def State.ctx? (s : State) (id : Nat) : Option Context := s.ctxs.find? (·.id = id)
def State.onCtx (s : State) (id : Nat) (f : Context → Context) : State :=
  { s with ctxs := s.ctxs.map fun c => if c.id = id then f c else c }
def State.launch? (s : State) (id : Nat) : Option Launch := s.launches.find? (·.id = id)
def State.onLaunch (s : State) (id : Nat) (f : Launch → Launch) : State :=
  { s with launches := s.launches.map fun l => if l.id = id then f l else l }

/-- Blocks are named by their launch and linear index; a berth span's block by its launch and 2^32 + the span's unique number. -/
def State.block? (s : State) (b : Nat × Nat) : Option Block := s.blocks.find? fun k => k.launch = b.1 && k.idx = b.2
def State.onBlock (s : State) (b : Nat × Nat) (f : Block → Block) : State :=
  { s with blocks := s.blocks.map fun k => if k.launch = b.1 && k.idx = b.2 then f k else k }
def Span.block (sp : Span) : Nat × Nat := (sp.launch, sp.blk)

def State.queue? (s : State) (id : Nat) : Option Queue := s.queues.find? (·.id = id)
def State.queue (s : State) (id : Nat) : Queue := (s.queue? id).getD { id := id }
def State.putQueue (s : State) (q : Queue) : State :=
  match s.queue? q.id with
  | none => { s with queues := s.queues ++ [q] }
  | some _ => { s with queues := s.queues.map fun t => if t.id = q.id then q else t }

/-! Events (R354). -/

/-- Two 64-bit fields of an event entry set: SEQ and TIME, at its posting. (log 9, DESIGN CHOICE) -/
def stampEvent (ev : List Byte) (seq time : Word) : List Byte :=
  ev.take 32 ++ toBytes 8 seq.toNat ++ (ev.drop 40).take 16 ++ toBytes 8 time.toNat

/-- The 64 bytes of an event: 32 of body, then TYPE and LIDX; SEQ and TIME are stamped at the posting. -/
def eventBytes (type body : Nat) (lidx : Option Nat) : List Byte :=
  toBytes 32 body ++ toBytes 8 0 ++ toBytes 4 type ++ toBytes 4 0 ++
    toBytes 8 (match lidx with | some i => i | none => 2 ^ 64 - 1) ++ toBytes 8 0

/-- Write the next event of a queue and advance EWIDX (R355). The quay die stamps it with the counter of die 0 (log 9, DESIGN CHOICE). -/
def State.putEvent (s : State) (q : Queue) (ev : List Byte) : State :=
  let size := 2 ^ (q.esize.toNat % 32)
  let at_ := hostBase + q.ebase.toNat + 64 * (q.ewidx.toNat % size)
  (s.poke at_ (stampEvent ev q.ewidx (s.time 0))).putQueue { q with ewidx := q.ewidx + 1, posted := q.posted + 1 }

def Queue.hasRoom (q : Queue) : Bool := decide ((q.ewidx - q.eridx).toNat < 2 ^ (q.esize.toNat % 32))

/-- Post an event: written, held in the quay die, or lost (R355). `slot` is the place of a berth or LNCH span that stopped:
it stays closed until the host has consumed the event (R333). -/
def State.postEvent (s : State) (qid type body : Nat) (lidx : Option Nat) (slot : Option Nat := none) : State :=
  let q := s.queue qid
  let ev := eventBytes type body lidx
  let stops := match slot with | some p => q.stops ++ [(q.ewidx.toNat + q.held.length, p)] | none => q.stops
  if q.hasRoom && q.held.isEmpty then s.putEvent { q with stops := stops } ev
  else if q.held.length < 64 then s.putQueue { q with held := q.held ++ [ev], stops := stops }
  else s.putQueue { q with elost := q.elost + 1 }

/-- The held events that fit, in order (R355). -/
def State.postHeld (s : State) (qid : Nat) : Nat → State
  | 0 => s
  | n + 1 =>
    let q := s.queue qid
    match q.held with
    | [] => s
    | ev :: r => if q.hasRoom then (s.putEvent { q with held := r } ev).postHeld qid n else s

/-- Places that no berth or LNCH span of the partition may take yet (R333). -/
def State.closedPlaces (s : State) : List Nat := (s.queues.map fun q => q.stops.map (·.2)).flatten

end Sys2Proof.Machine
end

