-- ==== Sys2Proof/Machine/Futures.lean ====
section
/-! DEFINITION. Future entries and references (R286 to R295): handles, the transitions of R293, the drop of a reference,
doom, the end of a task, the waits of FJOIN. -/

namespace Sys2Proof.Machine

/-- An asynchronous or per-lane cause is recorded (R20, R38): the first one stands, and the trap is due. -/
def Span.record (sp : Span) (c : Cause) : Span :=
  { sp with
    cause := match sp.cause with | some d => some d | none => some c
    first := match sp.first with | some d => some d | none => some c
    due := true
    hcause := if sp.hmode then (match sp.hcause with | some d => some d | none => some c) else sp.hcause }

/-- A cause that is recorded on a span while it is saved: it is pending once the span is resumed (R45, R342). -/
def Span.recordLate (sp : Span) (c : Cause) : Span := { sp with late := match sp.late with | some d => some d | none => some c }

/-! Handles (R290). -/

def handlePart (h : Word) : Nat := (h.extractLsb' 60 4).toNat
def handleDie (h : Word) : Nat := (h.extractLsb' 58 2).toNat
def handleSlot (h : Word) : Nat := (h.extractLsb' 36 22).toNat
def handleSerial (h : Word) : Nat := (h.extractLsb' 0 36).toNat

def Future.handle (f : Future) : Word :=
  BitVec.ofNat 4 f.part ++ BitVec.ofNat 2 f.die ++ BitVec.ofNat 22 f.slot ++ BitVec.ofNat 36 f.serial

def Future.isAt (f : Future) (h : Word) : Bool := f.part = handlePart h && f.die = handleDie h && f.slot = handleSlot h

/-- The entry in the slot that a handle names. A slot that was never used is free with SERIAL 1. -/
def State.future (s : State) (h : Word) : Future :=
  (s.futs.find? (·.isAt h)).getD { part := handlePart h, die := handleDie h, slot := handleSlot h, serial := 1 }

def State.putFuture (s : State) (f : Future) : State :=
  if s.futs.any (·.isAt f.handle) then { s with futs := s.futs.map fun t => if t.isAt f.handle then f else t }
  else { s with futs := s.futs ++ [f] }

/-- Stale (R290, R360): another partition's, of an earlier serial, of a fenced die, or naming no future. (log 34, DEDUCED) -/
def State.stale (s : State) (part : Nat) (h : Word) : Bool :=
  handlePart h ≠ part || (s.future h).serial ≠ handleSerial h || s.fenced.contains (handleDie h) || (s.future h).st = .free

/-- The entry is freed: its serial advances, modulo 2^36 and skipping 0. -/
def Future.freed (f : Future) : Future :=
  { f with st := .free, count := 0, wait := 0, result := 0, view := [],
           serial := if f.serial + 1 < 2 ^ 36 then f.serial + 1 else 1 }

/-- A queued or running future is doomed, a done or failed one is freed, when nothing reaches it (R293). -/
def Future.unreached (f : Future) : Future :=
  if f.count ≠ 0 || f.wait ≠ 0 then f else
    match f.st with
    | .queued | .running => { f with st := .doomed }
    | .done | .failed => f.freed
    | .free | .doomed => f

/-- The records of a doomed future that wait in a berth are removed (R305), and a berth left empty is freed. -/
def State.removeBerthed (s : State) (h : Word) : State :=
  let held := (s.berths.map fun b => (b.recs.filter (·.fut = h)).map (·.launch)).flatten
  if held.isEmpty then s else
    let rest := s.berths.map fun (b : Berth) => { b with recs := b.recs.filter (·.fut ≠ h) }
    let ls := s.launches.map fun (l : Launch) => { l with records := l.records - (held.filter (· = l.id)).length }
    let s1 : State := { s with berths := rest.filter (!·.recs.isEmpty), launches := ls }
    s1.putFuture (s1.future h).freed

/-- An entry's state changes; when that dooms it, its berthed record goes. -/
def State.setFuture (s : State) (h : Word) (f : Future) : State :=
  let s1 := s.putFuture f
  if f.st = .doomed && (s.future h).st ≠ .doomed then s1.removeBerthed h else s1

/-- One reference to the future is dropped (R293). -/
def State.dropAt (s : State) (h : Word) : State :=
  let f := s.future h
  if f.st = .free || f.serial ≠ handleSerial h then s else s.setFuture h ({ f with count := f.count - 1 }).unreached

/-- A lane leaves its FJOIN, with the result or without (R288, R323). -/
def State.leaveJoin (s : State) (h : Word) : State :=
  let f := s.future h
  if f.st = .free || f.serial ≠ handleSerial h then s else s.setFuture h ({ f with wait := f.wait - 1 }).unreached

/-! Owned references (R286, R295). -/

def State.owns (s : State) (o : Owner) (h : Word) : Bool := s.refs.contains ⟨o, h⟩

/-- The owner drops one of its references to the future. -/
def State.dropRef (s : State) (o : Owner) (h : Word) : State := ({ s with refs := s.refs.erase ⟨o, h⟩ }).dropAt h

/-- Every reference of an owner is dropped (R286). -/
def State.dropAll (s : State) (o : Owner) : State :=
  let mine := s.refs.filter (·.owner = o)
  mine.foldl (fun t r => t.dropAt r.handle) { s with refs := s.refs.filter (·.owner ≠ o) }

/-- A record has run to its end or is gone: its launch counts it no longer (R289, R301). -/
def State.recordGone (s : State) (launch : Nat) : State := s.onLaunch launch fun l => { l with records := l.records - 1 }

/-- A task ends without a result, by EXIT, by a stop, or by reclamation (R286, R293). -/
def State.endTask (s : State) (launch : Nat) (t : Task) : State :=
  let f := s.future t.fut
  let s1 := if t.fut = 0 || f.serial ≠ handleSerial t.fut then s else
    match f.st with
    | .running => s.putFuture ({ f with st := .failed }).unreached
    | .doomed => s.putFuture f.freed
    | _ => s
  (s1.dropAll (.task t.uid)).recordGone launch

/-- Who owns what a lane creates or drops (R286): its task, or its span. -/
def Span.owner (sp : Span) (l : Nat) : Owner :=
  match (sp.lane l).task with
  | some t => .task t.uid
  | none => .span sp.uid

/-- A drop of a reference that the owner does not own has no effect, and FUTURE becomes pending on its span (R294). -/
def State.dropOwned (s : State) (id : Nat) (o : Owner) (h : Word) : State :=
  if s.owns o h then s.dropRef o h
  else { s with spans := s.spans.map fun sp => if sp.id = id then sp.record .future else sp }

/-- The entries of a partition that are in use on a die. -/
def State.entriesOn (s : State) (part die : Nat) : Nat := (s.futs.filter fun f => f.part = part && f.die = die && f.st ≠ .free).length

/-- Has the partition's future space room for one reference more, and with `new` for an entry more on that die (R291, R295)? An entry stands in
the SRAM of its die or in the partition's table in HBM; 4 references take the space of an entry, in either. (log 34, DEDUCED) -/
def State.futureRoom (s : State) (part : Nat) (new : Option Nat) : Bool :=
  match s.parts[part]? with
  | none => false
  | some p =>
    let on (d : Nat) : Nat := s.entriesOn part d + (if new = some d then 1 else 0)
    let refs := (s.refs.filter fun r => handlePart r.handle = part).length + 1
    let dies := List.range Config.dies
    decide ((dies.map fun d => on d - p.row.entrySram).sum ≤ p.row.entryCap) &&
      decide ((dies.map on).sum + (refs + 3) / 4 ≤ p.row.entryCap + Config.dies * p.row.entrySram)

/-- A free slot on a die for SPAWN (R290, R291): the device's choice, or none. -/
def State.freeSlot (s : State) (part die : Nat) : Option Future :=
  if !s.futureRoom part (some die) then none else
    let mine := s.futs.filter fun f => f.part = part && f.die = die
    let n := Config.slotChoice s.steps % 2 ^ 22
    match mine.find? (·.slot = n) with
    | none => some { part := part, die := die, slot := n, serial := 1 }
    | some f =>
      if f.st = .free then some f
      else match mine.find? (·.st = .free) with
        | some g => some g
        | none =>
          ((List.range (mine.length + 1)).find? fun k => decide (k < 2 ^ 22) && !mine.any (·.slot = k)).map fun k =>
            { part := part, die := die, slot := k, serial := 1 }

/-- The message of a lane's FJOIN on a handle is withdrawn for the lane: the first such message. -/
def withdrawJoin (uid l : Nat) (h : Word) : List FMsg → List FMsg
  | [] => []
  | m :: r => match m.kind with
    | .join ls =>
      if m.uid = uid && m.handle = h && ls.contains l then
        (if ls.filter (· ≠ l) = [] then r else { m with kind := .join (ls.filter (· ≠ l)) } :: r)
      else m :: withdrawJoin uid l h r
    | _ => m :: withdrawJoin uid l h r

/-- A lane stops waiting in FJOIN without the result (R288): its message is withdrawn, the last one where `last`, or its count at the entry
falls. -/
def State.quitJoin (s : State) (uid l : Nat) (j : Join) (last : Bool) : State :=
  if j.asked then s.leaveJoin j.handle
  else { s with fmsgs := if last then (withdrawJoin uid l j.handle s.fmsgs.reverse).reverse else withdrawJoin uid l j.handle s.fmsgs }

end Sys2Proof.Machine
end

