-- ==== Sys2Proof/Machine/Order.lean ====
section
/-! DEFINITION. What one party's events tell another (R150 to R161, R180): the scope instances of parties, the writes that happen
before an event, the releases that stand on written bytes, the acquires that meet them, the order of `.seq` events, the counters of the
dies. A load may always read the home copy; it may read an older copy of an L1 where that copy has missed no write that happens before
the load. -/

namespace Sys2Proof.Machine

/-! Parties (R156). -/

/-- A span, and an engine operation of it. -/
def Span.party (sp : Span) : Party := { span := some sp.uid, blk := some sp.block, pier := some sp.pier, die := some sp.die }

/-- A party of a die alone: the root of a tree, a shadow merge. -/
def dieParty (die : Nat) : Party := { die := some die }

def sameInstance {α : Type} [DecidableEq α] (a b : Option α) : Bool := a.isSome && a = b

/-- Do two parties lie in one instance of a scope (R156)? -/
def joins (sc : Scope) (a b : Party) : Bool :=
  match sc with
  | .span => sameInstance a.span b.span
  | .block => sameInstance a.blk b.blk
  | .pier => sameInstance a.pier b.pier
  | .die => sameInstance a.die b.die
  | .pkg => a.die.isSome && b.die.isSome
  | .sys => true

/-! The counters of the dies (R180). -/

/-- The counter of a die is raised to at least `t`. (log 27, DEDUCED) -/
def State.raise (s : State) (die : Nat) (t : Word) : State :=
  { s with tsc := s.tsc.modify die fun c => if c.toNat < t.toNat then t else c }

/-- What reaches a die has passed through other dies: its counter lies above every other die's (R180). (log 27, DEDUCED) -/
def State.crossed (s : State) (die : Nat) : State :=
  let others := (List.range Config.dies).filter (· ≠ die)
  others.foldl (fun t d => t.raise die (s.time d + 1)) s

/-! Happens-before (R154, R157). -/

def joinViews (a b : View) : View := a ++ b.filter (!a.contains ·)

/-- The writes of bytes performed up to a step that some copy has missed: what a party knows of that wrote or read them then (R158,
conditions 2 and 4). (log 50, DEDUCED) -/
def State.known (s : State) (k n upto : Nat) : View :=
  ((s.l1.map (·.missed)).flatten.eraseDups).filter fun x => decide (k ≤ x.1) && decide (x.1 < k + n) && decide (x.2 ≤ upto)

/-- Every write that some copy has missed, and every `.seq` event. -/
def State.missedAll (s : State) : View := (s.l1.map (·.missed)).flatten.eraseDups ++ s.seqs.map (·.tok)

/-- A span knows of writes, from its event `since` on: from a read of a lane, or by its own write (`mine`). (log 50, DEDUCED) -/
def Span.learn (sp : Span) (since : Nat) (reach : Reach) (v : View) (lane : Option Nat := none) (mine : Bool := false) : Span :=
  { sp with view := sp.view ++
      (v.map fun x => ({ key := x.1, step := x.2, since := since, reach := reach, lane := lane, mine := mine } : Seen)).filter (!sp.view.contains ·) }

/-- What a release hands on; `u` says that it carries `.u` (R154). (log 50, DEDUCED) -/
def Reach.byRelease (u : Bool) : Reach → Bool
  | .all | .read => true
  | .uStore => u
  | .own => false

/-- What every fork hands on (R134, R154). (log 50, DEDUCED) -/
def Reach.byFork : Reach → Bool
  | .all | .uStore => true
  | .read | .own => false

/-- What an event at `seq` hands on of what its span knows. -/
def handed (vs : List Seen) (seq : Nat) (f : Reach → Bool) : View :=
  (vs.filter fun x => decide (x.since ≤ seq) && f x.reach).map fun x => (x.key, x.step)

/-- The plain reads that an event of a span, by its number and its lane, is computed from (R154). (log 50, DEDUCED) -/
def State.basis (s : State) (sp : Span) (seq : Nat) (lane : Option Nat) : List ReadId :=
  ((s.flows.filter (·.uid = sp.uid)).map fun f => (f.acts.filter (·.1 = (seq, lane))).map (·.2)).flatten

/-- What those reads told the span. -/
def State.toldBy (s : State) (sp : Span) (seq : Nat) (lane : Option Nat) : View :=
  let rs := s.basis sp seq lane
  if rs.isEmpty then [] else (sp.view.filter fun x => x.reach = .read && rs.contains (x.since, x.lane)).map fun x => (x.key, x.step)

/-- What the fork of an engine operation, a record, a launch or a result at `seq` hands on: the span's writes, what acquires have brought,
and what the reads told that the fork is computed from (R134, R154, R326). (log 50, DEDUCED) -/
def State.forking (s : State) (sp : Span) (seq : Nat) (lane : Option Nat := none) : View :=
  joinViews (handed sp.view seq Reach.byFork) (s.toldBy sp seq lane)

/-- What the reads told that an event is computed from happens before whatever comes after that event, from `since` on (R154). (log 50,
DEDUCED) -/
def State.follows (s : State) (id seq : Nat) (lane : Option Nat) (since : Nat) (reach : Reach) : State :=
  match s.span? id with
  | none => s
  | some sp => s.onSpan id (·.learn since reach (s.toldBy sp seq lane))

/-- A plain read of a span goes into places. -/
def State.seed (s : State) (uid : Nat) (r : ReadId) (ps : List Spot) : State :=
  let put (f : Flow) : Flow := { f with held := f.held ++ (ps.map fun p => (p, r)).filter (!f.held.contains ·) }
  if ps.isEmpty then s
  else if s.flows.any (·.uid = uid) then { s with flows := s.flows.map fun f => if f.uid = uid then put f else f }
  else { s with flows := s.flows ++ [put { uid := uid }] }

/-- What a release of a span at `seq` hands on: at package or system scope, what the merges of its block wrote as well (R178). (log 50,
DEDUCED) -/
def State.handing (s : State) (sp : Span) (seq : Nat) (u all : Bool) : View :=
  joinViews (handed sp.view seq (Reach.byRelease u)) (if all then ((s.block? sp.block).map Block.merged).getD [] else [])

/-- The latest of the counters of the dies. (log 27, DEDUCED) -/
def State.latest (s : State) : Word := s.tsc.foldl (fun (a b : Word) => if a.toNat < b.toNat then b else a) 0

/-- The host has been told of writes, and of a counter (R155, R180). (log 50, DEDUCED) (log 27, DEDUCED) -/
def State.tellHost (s : State) (v : View) (time : Word) : State :=
  { s with host := joinViews s.host v, hostTime := if s.hostTime.toNat < time.toNat then time else s.hostTime }

/-! Releases and acquires (R155). -/

/-- The releases that an access makes when it is performed: its own, and those of the fences before it. -/
def State.releases (s : State) (sp : Span) (a : Access) : List (Scope × View) :=
  (if a.order.releases then [(a.scope, s.handing sp a.seq a.u a.scope.all)] else []) ++
    a.fences.map fun f => (f.scope, s.handing sp f.seq f.u f.scope.all)

/-- A party's write of bytes is a release of some scopes. A release of the party on the same bytes that hands on no more gives way. The
host has no counter: it carries what it has seen of those of the dies (R180). (log 50, DEDUCED) -/
def State.announce (s : State) (deck : Option (Nat × Nat)) (at_ len : Nat) (rels : List (Scope × View)) (from_ : Party) : State :=
  let tsc := match from_.die with | some d => s.time d | none => s.hostTime
  let new := rels.map fun r => ({ deck := deck, at_ := at_, len := len, scope := r.1, from_ := from_, time := s.steps,
                                  view := r.2, tsc := tsc } : Msg)
  let past (m : Msg) : Bool := m.deck = deck && m.at_ = at_ && m.len = len && m.from_ = from_ &&
    rels.any fun r => r.1 = m.scope && m.view.all r.2.contains
  { s with msgs := new ++ s.msgs.filter (!past ·) }

/-- What a party knows of that has written bytes at an address now. -/
def State.knownAt (s : State) (cx : Context) (va len : Nat) : View :=
  ((pagePieces va len).map fun q => match s.lineAt cx q.1 with
    | some n => s.known (64 * n + q.1 % 64) q.2 s.steps
    | none => []).flatten

/-- A device's write of bytes of one line has been made as a release: it hands on `v` and itself. -/
def State.announceAt (s : State) (cx : Context) (va : Word) (len : Nat) (sc : Scope) (v : View) (from_ : Party) : State :=
  match s.lineAt cx va.toNat with
  | some n =>
    let key := 64 * n + va.toNat % 64
    s.announce none key len [(sc, joinViews v (s.known key len s.steps))] from_
  | none => s

/-- The releases that a read of bytes meets at their home. (log 50, DEDUCED) -/
def State.standing (s : State) (deck : Option (Nat × Nat)) (at_ len : Nat) : List Msg := s.msgs.filter (·.on deck at_ len)

/-- One acquire meets one release: with each party in the other's scope instance, what happens before the release happens before the
events of the span from `since` on (R155, R156); the counter of another die is passed (R180). (log 50, DEDUCED) (log 27, DEDUCED) -/
def State.meet1 (id : Nat) (sc : Scope) (since : Nat) (s : State) (m : Msg) : State :=
  match s.span? id with
  | none => s
  | some sp =>
    if !(joins sc sp.party m.from_ && joins m.scope m.from_ sp.party) then s else
      let s1 := s.onSpan id (·.learn since .all m.view)
      if m.from_.die = some sp.die then s1 else s1.raise sp.die (m.tsc + 1)

def State.meet (s : State) (id : Nat) (sc : Scope) (since : Nat) (ms : List Msg) : State := ms.foldl (State.meet1 id sc since) s

/-- A read of a span meets releases: an acquire fence after it will meet them too (R155). -/
def State.hear (s : State) (id : Nat) (ms : List Msg) : State :=
  s.onSpan id fun sp => { sp with heard := sp.heard ++ ms.filter (!sp.heard.contains ·) }

/-- A read at `seq` acts for the acquire fences that have been issued after it. -/
def State.heardLate (s : State) (id seq : Nat) (ms : List Msg) : State :=
  match s.span? id with
  | none => s
  | some sp => if seq < sp.acqSeq then s.meet id sp.acqScope (sp.acqSeq + 1) ms else s

/-- The fill epoch of a span advances (R161, R192). -/
def State.advance (s : State) (id : Nat) (sc : Scope) : State :=
  if sc.wide then s.onSpan id fun sp => { sp with epoch := s.steps } else s

/-- What comes to a span by no read of memory, from any party: an acquire at system scope (R155, R323). (log 50, DEDUCED) -/
def Span.told (now : Nat) (v : View) (sp : Span) : Span := { sp.learn sp.seq .all v with epoch := now }

/-! The order of `.seq` events (R159). State.seqs is that order, the last event first, of all instances together. An event may stand before
events that were performed before it, where happens-before and the two conditions of R159 let it: how far is a free value (R152). -/

/-- Do two `.seq` events lie in one instance? -/
def SeqEvent.beside (x y : SeqEvent) : Bool := x.scope = y.scope && joins x.scope x.from_ y.from_

/-- An event takes its place: before those of its instance that stand before what it `must` precede, and before up to `n` further ones that it
`may` precede. (log 50, DEDUCED) -/
def seqPut (x : SeqEvent) (may must : SeqEvent → Bool) : Nat → List SeqEvent → List SeqEvent
  | _, [] => [x]
  | n, y :: r =>
    if !x.beside y then y :: seqPut x may must n r
    else if (y :: r).any (fun z => x.beside z && must z) then y :: seqPut x may must (n - 1) r
    else if n = 0 || !may y then x :: y :: r
    else y :: seqPut x may must (n - 1) r

/-- Is there such a place? -/
def seqFits (x : SeqEvent) (may must : SeqEvent → Bool) : List SeqEvent → Bool
  | [] => true
  | y :: r => if x.beside y && (y :: r).any (fun z => x.beside z && must z) then may y && seqFits x may must r else seqFits x may must r

/-- Does a `.seq` event happen before the event of a span at `seq` (R157)? Those of one instruction have no order. -/
def SeqEvent.precedes (y : SeqEvent) (sp : Span) (seq : Nat) : Bool :=
  !(y.from_.span = some sp.uid && y.seq = seq) && sp.view.any fun v => (v.key, v.step) = y.tok && decide (v.since ≤ seq + 1)

/-- Has a read behind the fence `f` returned an older value than a write before the fence `g` (R159)? `f` then stands before `g`. (log 50,
DEDUCED) -/
def State.overtook (s : State) (f g : SeqEvent) : Bool :=
  f.fence && g.fence &&
    ((match f.from_.span, g.from_.span with
      | some u, some w => s.overtakes.any fun o => o.reader = u && decide (f.seq < o.rseq) && o.writer = w && decide (o.wseq < g.seq)
      | _, _ => false) ||
     s.looks.any fun k => some k.uid = f.from_.span && decide (f.seq < k.seq) && k.stale.any g.before.contains)

/-- May an event of a span at `seq` stand before one that has its place? (log 50, DEDUCED) -/
def State.seqMay (s : State) (sp : Span) (x y : SeqEvent) : Bool :=
  !y.precedes sp x.seq && !(y.read.any x.wrote.contains) && !s.overtook y x

/-- A `.seq` load from an old copy stands before the `.seq` writes of its bytes that the copy has missed (R159). -/
def missedBy (missed : View) (x y : SeqEvent) : Bool := missed.any fun w => x.read.contains w.1 && y.wrote.contains w.1 && decide (w.2 = y.tok.2)

/-- A `.seq` event of a span takes its place; `missed` are the writes that the copy read had missed. (log 50, DEDUCED) -/
def State.seqEvent (s : State) (id : Nat) (x : SeqEvent) (missed : View) : State :=
  match s.span? id with
  | none => s
  | some sp =>
    let all := seqPut x (s.seqMay sp x) (fun y => missedBy missed x y || s.overtook x y) (Config.seqPlace s.seqs.length) s.seqs
    { s with seqs := all }.onSpan id (·.learn x.seq .all [x.tok])

/-- The token of the next `.seq` event: no byte has its key. -/
def State.seqTok (s : State) : Nat × Nat := (2 ^ 70 + s.seqs.length, s.steps)

/-- A `.seq` fence of a span retires: what the span reads from here on is no older than the writes before the fences that stand before it, and
so it is of the spans whose fences stand behind it (R159). (log 50, DEDUCED) -/
def State.seqFence (s : State) (id seq : Nat) (sc : Scope) : State :=
  match s.span? id with
  | none => s
  | some sp =>
    let x : SeqEvent := { scope := sc, from_ := sp.party, seq := seq, tok := s.seqTok, fence := true
                          before := (sp.view.filter fun v => v.mine && decide (v.since ≤ seq)).map fun v => (v.key, v.step) }
    let s1 := s.seqEvent id x []
    let below := ((s1.seqs.dropWhile (· ≠ x)).drop 1).filter fun y => y.fence && x.beside y
    let above := (s1.seqs.takeWhile (· ≠ x)).filter fun y => y.fence && x.beside y
    let s2 := (s1.onSpan id (·.learn (seq + 1) .own (below.map (·.before)).flatten)).advance id sc
    { s2 with spans := s2.spans.map fun t => above.foldl (fun u y => if y.from_.span = some u.uid then u.learn (y.seq + 1) .own x.before else u) t }

/-- Has a span issued a `.seq` fence before its event `seq`? -/
def State.seqFenced (s : State) (sp : Span) (seq : Nat) : Bool :=
  s.seqs.any (fun f => f.fence && f.from_.span = some sp.uid && decide (f.seq < seq)) ||
    sp.landing.any fun e => e.op = .fence && e.order = .seq && decide (e.seq < seq)

/-- A read of a span behind a `.seq` fence of it, from a copy that had missed `stale`. (log 50, DEDUCED) -/
def State.looked (s : State) (sp : Span) (seq : Nat) (deck : Option (Nat × Nat)) (at_ len : Nat) (stale : View) : State :=
  if s.seqFenced sp seq then { s with looks := s.looks ++ [⟨sp.uid, seq, deck, at_, len, stale⟩] } else s

/-- A write of a span comes to bytes that others have read behind their `.seq` fences. (log 50, DEDUCED) -/
def State.overtake (s : State) (sp : Span) (seq : Nat) (deck : Option (Nat × Nat)) (at_ len : Nat) : State :=
  let hit := s.looks.filter fun k => k.uid ≠ sp.uid && k.deck = deck && decide (k.at_ < at_ + len) && decide (at_ < k.at_ + k.len)
  { s with overtakes := s.overtakes ++ (hit.map fun k => (⟨k.uid, k.seq, sp.uid, seq⟩ : Overtake)).filter (!s.overtakes.contains ·) }

end Sys2Proof.Machine
end

