-- ==== Sys2Proof/Machine/Shadow.lean ====
section
/-! DEFINITION. Atomic operations (R188, R189), shadow lines and their merges (R178, R191). -/

namespace Sys2Proof.Machine

/-- An operation of R189 at width `w`. -/
def rmwAt (w : Nat) (aop aty : Nat) (old b : BitVec w) : BitVec w :=
  let pick (first : Bool) := if first then old else b
  match aop with
  | 0 => old + b
  | 1 => if aty = 3 then BitVec.ofNat w (fminmax fp32 false true old.toNat b.toNat)
         else pick (if aty = 1 then decide (old.toInt ≤ b.toInt) else decide (old.toNat ≤ b.toNat))
  | 2 => if aty = 3 then BitVec.ofNat w (fminmax fp32 true true old.toNat b.toNat)
         else pick (if aty = 1 then decide (b.toInt ≤ old.toInt) else decide (b.toNat ≤ old.toNat))
  | 3 => old &&& b
  | 4 => old ||| b
  | 5 => old ^^^ b
  | _ => b

/-- The operation on a word of `size` bytes, 4 or 8. -/
def rmw (size aop aty : Nat) (old b : BitVec 64) : BitVec 64 :=
  if size = 8 then rmwAt 64 aop aty old b else (rmwAt 32 aop aty (old.setWidth 32) (b.setWidth 32)).setWidth 64

/-- The identity of an operation and type (R191). -/
def rmwUnit (size aop aty : Nat) : BitVec 64 :=
  let w := 8 * size
  let nat : Nat := match aop with
    | 1 => if aty = 3 then fp32.nan else if aty = 1 then 2 ^ (w - 1) - 1 else 2 ^ w - 1
    | 2 => if aty = 3 then fp32.nan else if aty = 1 then 2 ^ (w - 1) else 0
    | 3 => 2 ^ w - 1
    | _ => 0
  BitVec.ofNat 64 nat

/-- Put an element under its byte offset, offsets rising. -/
def putElem (off : Nat) (v : BitVec 64) : List (Nat × BitVec 64) → List (Nat × BitVec 64)
  | [] => [(off, v)]
  | (o, u) :: r => if off < o then (off, v) :: (o, u) :: r else if off = o then (off, v) :: r else (o, u) :: putElem off v r

def elemAt (dflt : BitVec 64) (off : Nat) (es : List (Nat × BitVec 64)) : BitVec 64 :=
  match es.find? (·.1 = off) with
  | some e => e.2
  | none => dflt

/-- One contribution to a shadow line (R191). -/
def Shadow.add (h : Shadow) (blk : Nat × Nat) (off : Nat) (b : BitVec 64) : Shadow :=
  let old := elemAt (rmwUnit h.size h.aop h.aty) off h.elems
  { h with elems := putElem off (rmw h.size h.aop h.aty old b) h.elems, blks := if h.blks.contains blk then h.blks else h.blks ++ [blk] }

/-- The shadow line of a die for one line, operation and type. -/
def Shadow.isFor (h : Shadow) (die part line aop aty size : Nat) : Bool :=
  h.die = die && h.part = part && h.line = line && h.aop = aop && h.aty = aty && h.size = size

/-- SRED's contribution (R191). (log 31, DEDUCED) -/
def State.contribute (s : State) (die part line aop aty size : Nat) (blk : Nat × Nat) (off : Nat) (b : BitVec 64) : State :=
  if s.shadows.any (·.isFor die part line aop aty size) then
    { s with shadows := s.shadows.map fun h => if h.isFor die part line aop aty size then h.add blk off b else h }
  else
    let h : Shadow := ⟨die, part, line, aop, aty, size, [], []⟩
    { s with shadows := s.shadows ++ [h.add blk off b] }

/-- One shadow line merged whole into the home copy (R178, R191), before every later wide release of the blocks that contributed. A line of a
fenced die, or whose home is one, is merged without effect (R360). (log 44, DEDUCED) -/
def State.mergeShadow (s : State) (h : Shadow) : State :=
  if s.fenced.contains h.die || (homeDie (64 * h.line)).any s.fenced.contains then { s with shadows := s.shadows.erase h } else
  h.elems.foldl (fun t e =>
    let key := 64 * h.line + e.1
    let t1 := (t.poke key (toBytes h.size (rmw h.size h.aop h.aty (BitVec.ofNat 64 (t.nat key h.size)) e.2).toNat)).wrote none key h.size true
    h.blks.foldl (fun u b => u.onBlock b fun k => { k with merged := joinViews k.merged (t1.known key h.size t1.steps) }) t1)
    { s with shadows := s.shadows.erase h }

/-- The shadow lines that `f` accepts are merged, in ascending die index. -/
def State.mergeAll (s : State) (f : Shadow → Bool) : State :=
  (List.range Config.dies).foldl (fun t d => (t.shadows.filter fun h => h.die = d && f h).foldl State.mergeShadow t) s

/-- The shadow lines that hold a contribution of a block are merged (R178). (log 31, DEDUCED) -/
def State.mergeBlock (s : State) (b : Nat × Nat) : State := s.mergeAll fun h => h.blks.contains b

/-- A merge of a block's shadow lines waits while a line of them is held (R109): so does what waits for it. -/
def State.mergeWaits (s : State) (b : Nat × Nat) : Bool := s.shadows.any fun h => h.blks.contains b && s.lineHeld h.line

/-- Before a package-scope or system-scope release of a span (R178). -/
def State.mergeFor (s : State) (id : Nat) : State :=
  match s.span? id with
  | none => s
  | some sp => s.mergeBlock sp.block

end Sys2Proof.Machine
end

