-- ==== Sys2Proof/Machine/Bars.lean ====
section
/-! DEFINITION. Barriers: the end of a lane's wait, named barriers (R199 to R202), deck phase barriers and the bytes of a
deck (R203 to R205). -/

namespace Sys2Proof.Machine

/-! The end of a wait (R28): the lane is ready at the next instruction. In handler mode the event is held (R383). -/

def Lane.go (ln : Lane) : Lane := { ln with st := .ready, pc := ln.pc + 8, wait := none }

/-- Change every lane of every span by a rule that sees the span and the lane's number. -/
def State.mapLanes (s : State) (f : Span → Nat → Lane → Lane) : State :=
  { s with spans := s.spans.map fun sp => { sp with lanes := imap (f sp) 0 sp.lanes } }

def setPred (ln : Lane) (pf : Option Nat) (b : Bool) : Lane :=
  match pf with
  | some r => { ln with preds := setBit ln.preds r b }
  | none => ln

/-! Named barriers. -/

def freshBar (key : BarKey) : NamedBar := { key := key, phase := 1 }

def State.bar (s : State) (key : BarKey) : NamedBar := (s.bars.find? (·.key = key)).getD (freshBar key)

def State.putBar (s : State) (b : NamedBar) : State :=
  { s with bars := if s.bars.any (·.key = b.key) then s.bars.map fun t => if t.key = b.key then b else t else s.bars ++ [b] }

/-- Is the instance broken (R201)? -/
def State.barBroken (s : State) (key : BarKey) : Bool :=
  match key.blk with
  | some b => match s.block? (key.launch, b) with | some k => k.broken | none => false
  | none => (s.bar key).broken

def rolesSpans (l : Launch) : Nat := (l.roles.map (·.spans)).sum

/-- The default count of a phase (R200). -/
def State.barDefault (s : State) (key : BarKey) : Nat :=
  match key.blk, key.die with
  | some b, _ => match s.block? (key.launch, b) with | some k => k.live.length | none => 0
  | none, some d => match s.launch? key.launch with | some l => (l.range.getD d (0, 0)).2 * rolesSpans l | none => 0
  | none, none => match s.launch? key.launch with | some l => l.nblk * rolesSpans l | none => 0

/-- Is this a wait at the instance, in this phase (any phase when none)? Phase 0 is an arrival not yet made. -/
def waitsAt (key : BarKey) (phase : Option Nat) (o : Option Wait) : Option (Option Nat) :=
  match o with
  | some (.bar k ph pf) =>
    if k = key ∧ ph ≠ 0 ∧ phase.getD ph = ph then some pf else none
  | _ => none

/-- A wait that handler mode keeps registered receives its event: it is held for the lane (R383). -/
def Lane.holdBar (ln : Lane) (key : BarKey) (phase : Option Nat) (broken : Bool) : Lane :=
  match waitsAt key phase ln.kept with
  | some pf => { ln with held := some (.bar broken), kept := some (.bar key 0 pf) }
  | none => ln

/-- The waiting lanes of an instance go on: pf 0 at a completion, pf 1 at a break, which is recorded on their spans (for a lane
whose event is held, when it receives it, R383). The end of the wait follows every arrival of the phase, as an acquire of the
barrier's scope: `view` is what they hand on (R155, R161, R180, R202). A span that is saved tests its own waits again at its resumption
(R46); what handler mode keeps of it receives its event now. (log 41, DEDUCED) -/
def State.wakeBar (s : State) (key : BarKey) (phase : Option Nat) (broken : Bool) (view : View) : State :=
  let wake := fun (_ : Span) (_ : Nat) (ln : Lane) =>
    let ln1 := ln.holdBar key phase broken
    match waitsAt key phase ln.wait with
    | some pf => (setPred ln1 pf broken).go
    | none => ln1
  let hit := fun (sp : Span) => sp.lanes.any fun ln =>
    (waitsAt key phase ln.wait).isSome || (waitsAt key phase ln.kept).isSome
  let now := fun (sp : Span) => sp.lanes.any fun ln => (waitsAt key phase ln.wait).isSome
  let s1 := if broken then { s with spans := s.spans.map fun sp => if now sp then sp.record .barbroken else sp } else s
  let hear (sp : Span) : Span := if !hit sp then sp else if key.blk.isSome then sp.learn sp.seq .all view else sp.told s.steps view
  let s2 := if key.blk.isSome then s1 else ((s.spans ++ s.saved).filter hit).foldl (fun t sp => t.crossed sp.die) s1
  { s2 with spans := s1.spans.map hear
            saved := s.saved.map fun (sp : Span) => { hear sp with lanes := sp.lanes.map fun (ln : Lane) => ln.holdBar key phase broken } }.mapLanes wake

/-- The phase of an instance completes when its arrivals reach its count (R200). -/
def State.testBar (s : State) (key : BarKey) : State :=
  let b := s.bar key
  match b.count with
  | some c =>
    if 0 < b.arrivals ∧ c ≤ b.arrivals then
      (s.putBar { b with phase := b.phase + 1, arrivals := 0, count := none, dflt := false, view := [] }).wakeBar key (some b.phase) false b.view
    else s
  | none => s

/-- One arrival (R200): the first of a phase sets its count. `lanes` of span `id` wait for the phase. It counts as a release with `.u` of
the barrier's scope at `seq` (R202). (log 35, DEDUCED) -/
def State.arrive (s : State) (id : Nat) (key : BarKey) (count : Option Nat) (lanes : List Nat) (seq : Nat) : State :=
  let made (ph : Nat) (o : Option Wait) : Option Wait := match o with
    | some (.bar k 0 pf) => if k = key then some (.bar k ph pf) else o
    | _ => o
  let enter (ph : Nat) : State := s.onSpan id fun sp => sp.onLanes lanes fun ln =>
    { ln with wait := made ph ln.wait, kept := if ln.held = none then made ph ln.kept else ln.kept }
  if s.barBroken key then
    ((enter 1).onSpan id (·.record .barbroken)).wakeBar key none true []
  else
    let b0 := s.bar key
    let b := { b0 with view := joinViews b0.view (((s.span? id).map fun sp => s.handing sp seq true (key.blk.isNone && key.die.isNone)).getD []) }
    let b1 : NamedBar := match b.count, count with
      | some _, _ => b
      | none, some c => { b with count := some c, dflt := false }
      | none, none => { b with count := some (s.barDefault key), dflt := true }
    ((enter b.phase).putBar { b1 with arrivals := b.arrivals + 1 }).testBar key

/-- A block's instances at block scope. -/
def blockKey (b : Nat × Nat) (n : Nat) : BarKey := ⟨b.1, some b.2, none, n⟩

/-- A span of the block stopped (R201): its 16 instances break at once. -/
def State.breakBlock (s : State) (b : Nat × Nat) : State :=
  (List.range 16).foldl (fun t n => t.wakeBar (blockKey b n) none true []) (s.onBlock b fun k => { k with broken := true })

/-- A span of the block retired (R200): the default count of every incomplete phase falls by one. A count that the program
gave stays. -/
def State.lowerBars (s : State) (b : Nat × Nat) : State :=
  (List.range 16).foldl (fun t n =>
    let bar := t.bar (blockKey b n)
    match bar.count, bar.dflt with
    | some c, true => (t.putBar { bar with count := some (c - 1) }).testBar (blockKey b n)
    | _, _ => t) s

/-! The deck (R244): bytes of a block, in one canonical form. -/

def Block.deckNat (k : Block) (off n : Nat) : Nat := leNat (sgets 0 k.deck off n)
def Block.deckPut (k : Block) (off : Nat) (bs : List Byte) : Block := { k with deck := sputs 0 k.deck off bs }

/-- An engine's write of a block's deck: it hides the releases that stand on the bytes (R155). -/
def State.deckWrite (s : State) (b : Nat × Nat) (off : Nat) (bs : List Byte) : State :=
  if bs.isEmpty then s else (s.onBlock b fun k => k.deckPut off bs).wrote (some b) off bs.length false

/-- A deck barrier object (R203). -/
structure MBar where
  target  : Nat
  remain  : Nat
  pending : Nat
  compl   : Nat
  deriving DecidableEq, Repr

def Block.mbar (k : Block) (obj : Nat) : MBar :=
  ⟨k.deckNat obj 2, k.deckNat (obj + 2) 2, k.deckNat (obj + 8) 5, k.deckNat (obj + 13) 3⟩

def MBar.bytes (m : MBar) : List Byte :=
  toBytes 2 m.target ++ toBytes 2 m.remain ++ toBytes 1 (m.compl % 2) ++ toBytes 3 0 ++ toBytes 5 m.pending ++ toBytes 3 m.compl

/-- Write the fields that an operation changes; the reserved bytes and bits keep what an MBINIT or an STD put there. -/
def Block.putMbar (k : Block) (obj : Nat) (m : MBar) : Block :=
  let ph := (k.deckNat (obj + 4) 1) / 2 * 2 + m.compl % 2
  ((((k.deckPut obj (toBytes 2 m.target)).deckPut (obj + 2) (toBytes 2 m.remain)).deckPut (obj + 4) (toBytes 1 ph)).deckPut
    (obj + 8) (toBytes 5 m.pending)).deckPut (obj + 13) (toBytes 3 m.compl)

/-- Has the barrier completed its n-th phase (R205)? -/
def MBar.reached (m : MBar) (n : Nat) : Bool := decide ((m.compl + 2 ^ 24 - n % 2 ^ 24) % 2 ^ 24 < 2 ^ 23)

/-- test() of R204: the completed barrier, and whether a phase completed. -/
def MBar.test (m : MBar) : MBar × Bool :=
  if m.remain = 0 ∧ m.pending = 0 then ({ m with compl := (m.compl + 1) % 2 ^ 24, remain := m.target }, true) else (m, false)

def Block.objView (k : Block) (obj : Nat) : ObjView := (k.objs.find? (·.obj = obj)).getD { obj := obj }
def Block.putObj (k : Block) (v : ObjView) : Block := { k with objs := v :: k.objs.filter (·.obj ≠ v.obj) }

/-- What an arrival or a chunk hands on reaches the deck barrier, and with the end of its phase every MBWAIT that sees it complete (R155,
R202). -/
def State.tellObj (s : State) (b : Nat × Nat) (obj : Nat) (v : View) : State :=
  s.onBlock b fun k => k.putObj { k.objView obj with pend := joinViews (k.objView obj).pend v }

def State.hearObj (s : State) (id obj : Nat) : State :=
  match s.span? id with
  | none => s
  | some sp => s.onSpan id fun t => t.learn t.seq .all (((s.block? sp.block).map fun k => (k.objView obj).done).getD [])

/-- Lanes in MBWAIT on an object of the block test their count again (R205); at an MBINIT they end with pf 1. A lane of a saved span tests its
count at its resumption (R46), and an MBINIT meanwhile is kept for it. -/
def State.wakeMb (s : State) (b : Nat × Nat) (obj : Nat) (m : MBar) (init : Bool) : State :=
  let on := fun (ln : Lane) => match ln.wait with | some (.mb o n _) => o = obj && m.reached n | _ => false
  let heard := (s.spans.filter fun sp => !init && sp.block = b && sp.lanes.any on).foldl (fun t sp => t.hearObj sp.id obj) s
  let hold := fun (ln : Lane) => match ln.kept, init with
    | some (.mb o _ _), true => if o = obj then { ln with held := some .mb } else ln
    | _, _ => ln
  let away := fun (ln : Lane) => match ln.wait, init with
    | some (.mb o _ pf), true => if o = obj then { ln with wait := some (.inited pf) } else ln
    | _, _ => ln
  { heard with saved := heard.saved.map fun (sp : Span) => if sp.block ≠ b then sp else { sp with lanes := sp.lanes.map fun ln => away (hold ln) } }.mapLanes fun sp _ ln =>
    if sp.block ≠ b then ln else
      let ln1 := hold ln
      match ln.wait with
      | some (.mb o n pf) => if o = obj ∧ (init ∨ m.reached n) then (setPred ln1 (some pf) init).go else ln1
      | _ => ln1

/-- Change a deck barrier at its bank, with test() (R204). What releases left on its bytes is hidden (R155). -/
def State.mbChange (s : State) (b : Nat × Nat) (obj : Nat) (f : MBar → MBar) : State :=
  match s.block? b with
  | none => s
  | some k =>
    let (m, fin) := (f (k.mbar obj)).test
    let s1 := (s.onBlock b fun k => if fin then
        (k.putMbar obj m).putObj { obj := obj, done := joinViews (k.objView obj).done (k.objView obj).pend } else k.putMbar obj m).wrote (some b) obj 16 false
    if fin then s1.wakeMb b obj m false else s1

/-- MBINIT (R204). -/
def State.mbInit (s : State) (b : Nat × Nat) (obj target : Nat) : State :=
  let t := if target % 65536 = 0 then 1 else target % 65536
  let m : MBar := ⟨t, t, 0, 0⟩
  ((s.onBlock b fun k => (k.deckPut obj m.bytes).putObj { obj := obj }).wrote (some b) obj 16 false).wakeMb b obj m true

def MBar.expect (m : MBar) (c : Nat) : MBar := { m with pending := (m.pending + c) % 2 ^ 40 }
def MBar.arrived (m : MBar) : MBar := { m with remain := (m.remain + 65535) % 65536 }
def MBar.chunk (m : MBar) (c : Nat) : MBar := { m with pending := (m.pending + 2 ^ 40 - c % 2 ^ 40) % 2 ^ 40 }

end Sys2Proof.Machine
end

