-- ==== Sys2Proof/Machine/Ops.lean ====
section
/-! DEFINITION. The operations that the meanings share: lane selection (R30), faults and fault records (R19, R21), stopping a
span (R22), taking a trap and returning from one (R38 to R42, R383), what follows at once from a change (R32, R36, R37, R64,
R192), and the issue of a word with the causes in their order (R66). -/

namespace Sys2Proof.Machine

/-- What a meaning answers. -/
abbrev Out := Host.Outcome State Fault Refusal

/-! Selection (R30). -/

def minNat : List Nat → Nat
  | [] => 0
  | a :: r => r.foldl min a

/-- The span with its deferral flags as selection leaves them, the issuing set, and its address. -/
def Span.select (sp : Span) : Option (Span × List Nat × Word) :=
  let E := sp.lanesIn fun st => st = .ready || st = .deferred
  if E.isEmpty then none else
    let N := sp.lanesIn (· = .ready)
    let sp1 := if N.isEmpty then sp.onLanes E fun ln => { ln with st := .ready } else sp
    let M := if N.isEmpty then E else N
    let d := maxNat (M.map fun l => (sp1.lane l).depth)
    let D := M.filter fun l => (sp1.lane l).depth = d
    let a := minNat (D.map fun l => (sp1.lane l).pc.toNat)
    some (sp1, D.filter fun l => (sp1.lane l).pc.toNat = a, BitVec.ofNat 64 a)

/-- Fully reconverged (R43): every lane not ended is ready at one (depth, address). -/
def Span.reconverged (sp : Span) : Bool :=
  let L := sp.lanesIn (!·.ended)
  L.all fun l => (sp.lane l).st = .ready && (sp.lane l).pc = (sp.lane (L.headD 0)).pc && (sp.lane l).depth = (sp.lane (L.headD 0)).depth

def Span.noEligible (sp : Span) : Bool := (sp.lanesIn fun st => st = .ready || st = .deferred).isEmpty

/-- The save point of a requested span (R43, R46): a full save (true) when one is forced or no lane is eligible, a short one when the span
is fully reconverged, as a span is whose lanes have all ended (log 58, DESIGN CHOICE). A point once found stands; a trap that is due is
taken first. (log 41, DEDUCED) -/
def Span.savePoint (sp : Span) : Option Bool :=
  match sp.preempt with
  | none => none
  | some (_, forced) =>
    if sp.status ≠ .running || sp.trap.isSome || (sp.due && sp.noEligible) then none
    else match sp.point with
      | some full => some full
      | none => if forced then some true else if sp.reconverged then some false else if sp.noEligible then some true else none

/-- A requested span that stands at a save point keeps it (R43). -/
def Span.keepPoint (sp : Span) : Span := { sp with point := sp.savePoint }

/-- Does a hold keep the whole span from issuing: W (R64), PSYNC (R284), a check of PMMS or PACL (R250, R283), TLBI or
MTC (R335), a trap on its way (R20), a save whose point is reached (R43)? -/
def Span.held (sp : Span) : Bool :=
  sp.status ≠ .running || sp.trap.isSome || sp.wHold || sp.pHold || sp.checkOp.isSome || sp.tlbi.isSome || sp.savePoint.isSome

/-! What the span has in flight. -/

def DeckOp.stores : DeckOp → Bool
  | .load _ => false
  | _ => true

/-- A deck store of the span, issued before `seq`, that its bank has not accepted. -/
def State.deckStoreBefore (s : State) (uid seq : Nat) : Bool :=
  s.deckq.any fun r => r.uid = uid && decide (r.seq < seq) && r.parts.any (·.op.stores)

def State.deckBefore (s : State) (uid seq : Nat) : Bool := s.deckq.any fun r => r.uid = uid && decide (r.seq < seq)

def AccOp.writes : AccOp → Bool
  | .load | .lda | .waita => false
  | _ => true
def AccOp.reads : AccOp → Bool
  | .store | .stl | .sred => false
  | _ => true

def Entry.isMem (e : Entry) : Bool := e.op = .mem
def Entry.any (e : Entry) (f : AccOp → Bool) : Bool := e.parts.any (f ·.acc.op)
def Entry.isFence (e : Entry) : Bool := e.op = .fence
/-- A write of its location, which an SRED is not (R178). -/
def Entry.stores (e : Entry) : Bool := e.isMem && e.any fun o => o.writes && o ≠ .sred
def Entry.isStore (e : Entry) : Bool := e.any fun o => o = .store || o = .stl

/-- Every request of the span issued before `seq` that is not performed, sent or not. -/
def Span.before (sp : Span) (seq : Nat) : List Entry :=
  (sp.landing ++ sp.unsent ++ sp.joining).filter fun e => decide (e.seq < seq) && e.st ≠ .done && e.isMem

/-- An access issued before `seq` whose address check waits for a walk. (log 21, DEDUCED) -/
def Span.checkBefore (sp : Span) (seq : Nat) (f : AccOp → Bool) : Bool :=
  sp.checks.any fun c => decide (c.seq < seq) && c.accs.any (f ·.op)

/-- Every earlier request of the span is performed, on every page kind (R134, R202, R326). (log 21, DEDUCED) -/
def State.drained (s : State) (sp : Span) (seq : Nat) : Bool :=
  (sp.before seq).isEmpty && !sp.checkBefore seq (fun _ => true) && !s.deckBefore sp.uid seq

/-- Every earlier write of the span is performed: the fork drain (R134). (log 21, DEDUCED) -/
def State.forkDrained (s : State) (sp : Span) (seq : Nat) : Bool :=
  (sp.before seq).all (!·.any AccOp.writes) && !sp.checkBefore seq AccOp.writes && !s.deckStoreBefore sp.uid seq

/-- Does a release, or a fence's release part, at `seq` still wait (R113, R124, R154, R192)? Stores to U pages are waited for with
`.u` alone; deck accesses count, loads among them. (log 21, DEDUCED) -/
def State.releaseWaits (s : State) (sp : Span) (seq : Nat) (u : Bool) : Bool :=
  (sp.before seq).any (fun e => u || !(e.pkind = .u && e.isStore)) || sp.checkBefore seq (fun _ => true) ||
    s.deckBefore sp.uid seq

/-- The virtual lines of an access. -/
def Access.vlines (a : Access) : List Nat := (pieces 64 4 a.ea a.size).map (·.1 / 64)

/-- Landing entries that are free and not kept for an address check or for requests that wait to be joined (R128). (log 32, DEDUCED) -/
def Span.landFree (sp : Span) : Nat :=
  Config.landing - sp.landing.length - sp.unsent.length - sp.joining.length -
    (sp.checks.map fun c => (((c.accs.map Access.vlines).flatten.eraseDups).filter fun n => !sp.joining.any fun e => e.seq = c.seq && e.vline = n).length).sum

/-- Do memory instructions wait until as many entries are free as an earlier one needs (R111, R128)? (log 32, DEDUCED) -/
def Span.lacks (sp : Span) : Bool := decide (sp.landFree < sp.want)

/-- Does an acquire hold what follows it: one that has not read, an acquire fence whose earlier reads of memory or the deck are out, an
FPOLL whose answer is out (R115, R154, R192, R324)? (log 32, DEDUCED) -/
def Span.acqHeld (sp : Span) : Bool :=
  (sp.landing ++ sp.unsent ++ sp.joining).any (fun e => e.any AccOp.reads &&
    ((e.st ≠ .done && e.order.acquires) || decide (e.seq < sp.acqSeq))) ||
  sp.results.any (fun r => r.need ≠ 0 && (decide (r.id < sp.acqSeq) || (r.vreg.isSome && r.pred.isSome))) ||
  sp.checks.any (fun c => c.accs.any fun a => a.op.reads && a.order.acquires) || sp.checkBefore sp.acqSeq AccOp.reads

/-- Is a `.seq` event of the span not yet performed: it holds memory instructions (R161, R192)? (log 32, DEDUCED) -/
def Span.seqHeld (sp : Span) : Bool :=
  (sp.landing ++ sp.unsent ++ sp.joining).any (fun e => e.st ≠ .done && e.order = .seq) || sp.checks.any (fun c => c.accs.any fun a => a.order = .seq)

/-- Do the landing entries hold the words of class 0x4 and the other memory instructions: too few are free for an earlier one, or one with
more than 32 requests has not sent them all (R111, R128)? (log 32, DEDUCED) -/
def Span.crowded (sp : Span) : Bool :=
  sp.lacks || !sp.unsent.isEmpty || sp.joining.any (fun e => sp.bulk = some e.seq) || sp.checks.any fun c => sp.bulk = some c.seq

/-- What holds a deck instruction of class 0x4, or ATOMD. -/
def Span.deckHeld (sp : Span) : Bool := sp.acqHeld || sp.crowded

/-- What holds a memory instruction. -/
def Span.memHeld (sp : Span) : Bool := sp.deckHeld || sp.seqHeld

/-! Fault notices (R144). -/

/-- Why a page parks (R121): as its leaf says, or for the reason given, where a page that would pass is to be moved first (R362). -/
def State.parkReason (s : State) (ctx page : Nat) (why : Park) : Park :=
  match (s.ctx? ctx).bind fun cx => (s.leafOf cx page).map (s.leafOut cx.part page · {}) with
  | some (.park w) => w
  | _ => why

/-- A fault notice for each of these pages, with the page's own reason (R127, R144). -/
def State.notify (s : State) (ctx : Nat) (why : Park) (who : Waiter) (pages : List Nat) : State :=
  pages.foldl (fun t p =>
    let n : Notice := ⟨ctx, p, s.parkReason ctx p why, who, false⟩
    if t.notices.any fun m => m.ctx = ctx && m.page = p && m.who = who then t else { t with notices := t.notices ++ [n] }) s

/-! Trap causes (R38). -/

def Cause.code : Cause → Nat
  | .ill => 1 | .priv => 2 | .regbud => 3 | .unsync => 4 | .depth => 5 | .swtrap => 6 | .bkpt => 7 | .misalign => 8
  | .unmapped => 9 | .prot => 10 | .deckrange => 11 | .fmtdiv => 12 | .subset => 13 | .sparsemeta => 14 | .future => 15
  | .barbroken => 16 | .ferryfail => 17 | .nettimeout => 18 | .diefail => 19 | .accrange => 20

def causeOf (n : Nat) : Option Cause :=
  [Cause.ill, .priv, .regbud, .unsync, .depth, .swtrap, .bkpt, .misalign, .unmapped, .prot, .deckrange, .fmtdiv, .subset,
   .sparsemeta, .future, .barbroken, .ferryfail, .nettimeout, .diefail, .accrange].find? (·.code = n)

/-- The linear block index as programs see it: 0 in a berth span (R306). -/
def Span.bidx (sp : Span) : Nat := if sp.berth then 0 else sp.blk

/-- The trap frame and the fault area of a span (R333). -/
def State.areas (s : State) (sp : Span) (cx : Context) : Word × Word :=
  let lnch := match s.launch? sp.launch with | some l => l.byLnch | none => false
  if sp.berth || lnch then
    let f := sp.tbase + BitVec.ofNat 64 (20971520 + 98304 * sp.pier + 1536 * sp.slot)
    (f, f + 512)
  else (cx.tfbase + BitVec.ofNat 64 (32768 * sp.blk + 512 * sp.idx), cx.fabase + BitVec.ofNat 64 (65536 * sp.blk + 1024 * sp.idx))

/-- The INFO word (R21). -/
def faultInfo (sp : Span) (l : Nat) (c : Cause) (kind log2 part : Nat) : Nat :=
  c.code + 2 ^ 8 * l + 2 ^ 13 * log2 + 2 ^ 16 * kind + 2 ^ 18 * (sp.lane l).depth + 2 ^ 26 * part +
    2 ^ 32 * (sp.pier % Config.piersPerDie) + 2 ^ 38 * sp.die + 2 ^ 40 * sp.slot + 2 ^ 48 * (sp.fseq % 256)

/-- The fault record (R21). -/
def faultRecord (sp : Span) (l : Nat) (c : Cause) (kind log2 part : Nat) (vaddr iaddr : Word) : List Byte :=
  toBytes 8 vaddr.toNat ++ toBytes 8 iaddr.toNat ++ toBytes 4 sp.bidx ++ toBytes 2 sp.idx ++ toBytes 1 sp.role ++ toBytes 1 0 ++
    toBytes 8 (faultInfo sp l c kind log2 part)

/-- Will a trap stop the span: it is in handler mode, or its context has no handler (R39, R41)? -/
def State.stops (s : State) (sp : Span) : Bool := sp.hmode || (match s.ctx? sp.ctx with | some cx => cx.handler = 0 | none => true)

/-- Must the fault records of a span wait to be seen? One that will stop shows them only once it has stopped and every write that its lanes
issued before is performed, shadow contributions included (R22, R178). (log 51, DEDUCED) -/
def State.recordsWait (s : State) (sp : Span) : Bool :=
  (s.stops sp || sp.status = .stopping) && !(sp.status = .stopping && s.forkDrained sp sp.seq && !s.mergeWaits sp.block)

/-- A fault record of a lane counts as recorded (R38). It makes a trap due while the lane is parked fatal; a trap taken at issue meanwhile
has taken the lane to the handler, and the record is then the handler's to read. (log 51, DEDUCED) -/
def Span.recordAt (sp : Span) (l : Nat) (c : Cause) : Span :=
  if (sp.lane l).st = .parkedFatal then sp.record c
  else { sp with cause := some (sp.cause.getD c), first := some (sp.first.getD c) }

/-- Where a lane's fault record goes (R21, R333). -/
def State.recordPlace (s : State) (sp : Span) (cx : Context) (l : Nat) : Word := (s.areas sp cx).2 + BitVec.ofNat 64 (32 * l)

/-- Write a fault record: recorded when its write has passed; that of a span that will stop is kept back until it may be seen (R22); after a
park outcome it waits for the fault service; after a fatal outcome the failed write's cause stands in (R47). (log 51, DEDUCED) -/
def State.writeRecord (s : State) (id l : Nat) (c : Cause) (bs : List Byte) : State :=
  match s.span? id with
  | none => s
  | some sp =>
    match s.ctx? sp.ctx with
    | none => s.onSpan id (·.recordAt l c)
    | some cx =>
      let at_ := s.recordPlace sp cx l
      let wait := s.recordsWait sp
      match if wait then (let r := s.checkPages (some sp.pier) cx { wr := true } (pagePieces at_.toNat bs.length); (r.1, r.2.1, r.2.2.1))
        else s.deviceWrite (some sp.pier) cx at_ bs with
      | (s1, none, _) => s1.onSpan id fun t => { t.recordAt l c with drafts := if wait then t.drafts ++ [(l, bs)] else t.drafts }
      | (s1, some (.fatal d), _) => s1.onSpan id (·.recordAt l d)
      | (s1, some (.park why), pages) =>
        (s1.onSpan id fun t => { t with records := t.records ++ [(l, bs)], due := t.due || (t.lane l).st = .parkedFatal }).notify sp.ctx why
          (.span sp.uid) pages
      | (s1, some (.pass _ _), _) => s1

/-- The fault records of a span that have waited for their pages are written (R47). (log 51, DEDUCED) -/
def State.retryRecords (s : State) (id : Nat) : State :=
  match s.span? id with
  | none => s
  | some sp =>
    if sp.records.isEmpty then s else
      sp.records.foldl (fun t r => t.writeRecord id r.1 ((causeOf (leNat ((r.2.drop 24).take 1))).getD .unmapped) r.2)
        (s.onSpan id fun t => { t with records := [] })

/-- The fault records that were kept back are written, each as a release at system scope (R22, R45, R178). One whose page has gone meanwhile
is written when it has come. (log 51, DEDUCED) -/
def State.putDrafts (s : State) (id : Nat) : State :=
  match s.span? id with
  | none => s
  | some sp =>
    match s.ctx? sp.ctx with
    | none => s
    | some cx =>
      let put := fun (t : State) (r : Nat × List Byte) =>
        let at_ := s.recordPlace sp cx r.1
        match t.deviceWrite (some sp.pier) cx at_ r.2 with
        | (u, none, _) => u.announceAt cx at_ r.2.length .sys (u.handing sp sp.seq true true) sp.party
        | (u, some (.park why), pages) => (u.onSpan id fun w => { w with drafts := w.drafts ++ [r] }).notify sp.ctx why (.span sp.uid) pages
        | (u, some _, _) => u
      sp.drafts.foldl put (s.onSpan id fun t => { t with drafts := [] })

/-- The records of a span that will stop are seen once they may be (R22, R178). (log 51, DEDUCED) -/
def State.showRecords (s : State) (id : Nat) : State :=
  match s.span? id with
  | none => s
  | some sp => if sp.drafts.isEmpty || s.recordsWait sp then s else (s.mergeFor id).putDrafts id

/-- A fatal fault of one lane (R19): its record, its number, the lane parked fatal at its address. -/
def State.faultLane (s : State) (id l : Nat) (c : Cause) (kind log2 part : Nat) (vaddr iaddr : Word) : State :=
  match s.span? id with
  | none => s
  | some sp =>
    let bs := faultRecord sp l c kind log2 part vaddr iaddr
    let s1 := s.onSpan id fun t =>
      { t.onLane l fun ln => { ln with st := .parkedFatal, wait := none } with fseq := (t.fseq + 1) % 256 }
    s1.writeRecord id l c bs

/-- A recoverable outcome of one lane (R28, R144): parked with the reason, a notice for each page. -/
def State.parkLane (s : State) (id l : Nat) (why : Park) (pages : List Nat) : State :=
  match s.span? id with
  | none => s
  | some sp =>
    (s.onSpan id fun t => t.onLane l fun ln => { ln with st := .parkedRec, reason := some why, pages := pages, wait := none }).notify
      sp.ctx why (.lane sp.uid l) pages

/-! Lanes that end. -/

/-- A wait of a lane is given up: a waiter of a future leaves it (R288). `last` says that it is the later of two waits. -/
def State.dropOne (s : State) (sp : Span) (l : Nat) (o : Option Wait) (last : Bool) : State :=
  match o with
  | some (.join j) => s.quitJoin sp.uid l j last
  | _ => s

/-- The waits of a lane are given up. A lane for which a delivery is held has left its kept wait (R383). -/
def State.dropWait (s : State) (sp : Span) (l : Nat) : State :=
  (s.dropOne sp l (sp.lane l).wait true).dropOne sp l (if (sp.lane l).held.isSome then none else (sp.lane l).kept) false

/-- The task of a lane ends without a result (R286). -/
def State.endLaneTask (s : State) (sp : Span) (l : Nat) : State :=
  match (sp.lane l).task with
  | some t => s.endTask sp.launch t
  | none => s

/-- A doomed lane is reclaimed (R28, R287, R297): its pc and depth stay, its wait and its task end. -/
def State.reclaim (s : State) (id l : Nat) : State :=
  match s.span? id with
  | none => s
  | some sp =>
    (((s.dropWait sp l).endLaneTask sp l)).onSpan id fun t => t.onLane l fun ln =>
      { ln with st := .reclaimed, wait := none, kept := none, held := none, task := none, resv := none, reason := none, pages := [] }

/-- A lane exits (R86): it ends its task without a result. -/
def State.exitLane (s : State) (id l : Nat) : State :=
  match s.span? id with
  | none => s
  | some sp => (s.endLaneTask sp l).onSpan id fun t => t.onLane l fun ln => { ln with st := .exited, task := none }

/-! Stopping a span (R22). -/

def maskOf (sp : Span) (f : LaneState → Bool) : Nat := ((sp.lanesIn f).map (2 ^ ·)).sum

/-- The body of a span-stop event (R22). -/
def stopBody (sp : Span) (area : Word) (c : Cause) (time : Word) : Nat :=
  area.toNat + 2 ^ 64 * sp.bidx + 2 ^ 96 * sp.idx + 2 ^ 112 * sp.role + 2 ^ 120 * c.code +
    2 ^ 128 * maskOf sp (· = .parkedFatal) + 2 ^ 160 * maskOf sp LaneState.ended + 2 ^ 192 * time.toNat

/-- The event of a stopped span is posted once its writes are performed and its records are written: each is released at system scope,
so the block's shadow lines are merged before it, and the host has been told of them (R22, R155, R178). -/
def State.settleStop (s : State) (id : Nat) : State :=
  match s.span? id with
  | none => s
  | some sp =>
    match sp.status, sp.stop, s.ctx? sp.ctx with
    | .stopping, some (c, time), some cx =>
      if !s.forkDrained sp sp.seq || !sp.records.isEmpty || !sp.drafts.isEmpty || s.mergeWaits sp.block then s else
        let l := s.launch? sp.launch
        let lnch := match l with | some k => k.byLnch | none => false
        let slot := if sp.berth || lnch then some sp.id else none
        let s1 := s.mergeBlock sp.block
        ((s1.tellHost (s1.handing sp sp.seq true true) (s1.time sp.die)).postEvent cx.queue 1 (stopBody sp (s.areas sp cx).2 c time) (l.bind (·.lidx)) slot).onSpan id
          fun t => { t with status := .stopped }
    | _, _, _ => s

/-- The span stops for want of a handler, or by R40, R41 or R47: its tasks and waits end, its block's barriers break, and its
event follows its writes. -/
def State.stopSpan (s : State) (id : Nat) (c : Cause) : State :=
  match s.span? id with
  | none => s
  | some sp =>
    let s1 := laneNums.foldl (fun t l => (t.dropWait sp l).endLaneTask sp l) s
    let s2 := s1.dropAll (.span sp.uid)
    let s3 := s2.onSpan id fun t =>
      { t.onLanes laneNums (fun ln => { ln with wait := none, kept := none, held := none, task := none, resv := none }) with
        status := .stopping, stop := some (c, s.time sp.die), trap := none, resv := none, checks := [], joining := []
        unsent := t.unsent ++ t.joining, due := false, arrivals := [],
        wHold := false, pHold := false, checkOp := none, tlbi := none, preempt := none, point := none }
    let s4 := s3.onBlock sp.block fun k => { k with live := k.live.filter (· ≠ sp.uid) }
    let s5 := (s4.breakBlock sp.block).onLaunch sp.launch fun l => { l with stopped := l.stopped + 1 }
    ((s5.retryRecords id).showRecords id).settleStop id

/-! Taking a trap (R38 to R42): one operation for every cause. -/

def LaneState.atTrap (ln : Lane) : Option (LaneState × Word × Nat) := some (ln.st, ln.pc, ln.depth)

/-- The head word (R42). -/
def headWord (kind : Nat) (full hmode atIssue : Bool) (lane cause : Nat) : Nat :=
  cause + 2 ^ 8 * lane + 2 ^ 13 * atIssue.toNat + 2 ^ 14 * hmode.toNat + 2 ^ 15 * full.toNat + 2 ^ 16 * kind

/-- The bytes 0x000 to 0x03F of an execution-state block (R42). -/
def blockHead (sp : Span) (head : Nat) (iaddr : Word) (imask depth : Nat) : List Byte :=
  toBytes 8 head ++ toBytes 8 iaddr.toNat ++ toBytes 8 imask ++ toBytes 8 (depth + 256 * sp.qs.toNat) ++
    toBytes 8 (maskOf sp (· = .exited) + 2 ^ 32 * maskOf sp (· = .reclaimed)) ++ toBytes 24 0

def blockStates (sp : Span) : List Byte := laneNums.map fun l => BitVec.ofNat 8 (sp.lane l).st.code
def blockDepths (sp : Span) : List Byte := laneNums.map fun l => BitVec.ofNat 8 (sp.lane l).depth
def blockPreds (sp : Span) : List Byte := (laneNums.map fun l => toBytes 2 (sp.lane l).preds.toNat).flatten
def blockPcs (sp : Span) : List Byte := (laneNums.map fun l => toBytes 8 (sp.lane l).pc.toNat).flatten

/-- The trap frame: the execution-state block with KIND 0 and FULL 1 (R39, R42). -/
def trapFrame (sp : Span) (r : TrapReq) (c : Cause) : List Byte :=
  blockHead sp (headWord 0 true false r.issue (if r.issue then minNat r.imask else 0) c.code) r.iaddr
      ((r.imask.map (2 ^ ·)).sum) 0 ++
    blockStates sp ++ blockDepths sp ++ blockPreds sp ++ ((List.range 8).map fun i => toBytes 8 (sp.s (56 + i)).toNat).flatten ++
    blockPcs sp

/-- The span in handler mode (R39, R185, R383): all lanes ready at the handler, their waits kept registered. -/
def Span.enterHandler (sp : Span) (handler tf fa : Word) (c : Cause) : Span :=
  let sp1 := sp.onLanes laneNums fun ln =>
    { ln with atTrap := LaneState.atTrap ln, kept := ln.wait, wait := none, held := none, st := .ready, pc := handler,
              depth := 0, preds := 0, resv := none, reason := none, pages := [] }
  { (sp1.setS 63 tf).setS 62 fa with
    qs := 0, hmode := true, cause := some c, entered := some c, due := false, hcause := none, trap := none, resv := none, point := none }

/-- The cause of a trap (R38): its own when taken at issue, else the first recorded. -/
def Span.trapCause (sp : Span) (r : TrapReq) : Cause :=
  if r.issue then r.cause else ((if sp.hmode then sp.hcause else sp.cause).getD r.cause)

/-- TAKING A TRAP. It waits for the span's address checks (R20), while its frame's page is away (R47), and, where it is not taken at issue,
while a fault record's page is away, whose outcome may give the cause (log 51, DEDUCED); in handler mode, or without a handler, the span
stops (R39, R41). The handler sees every record that was kept back. -/
def State.takeTrap (s : State) (id : Nat) (r : TrapReq) : State :=
  match s.span? id with
  | none => s
  | some sp =>
    let c := sp.trapCause r
    if !sp.checks.isEmpty || (!r.issue && !sp.records.isEmpty) || (!s.stops sp && !sp.drafts.isEmpty) then s.onSpan id fun t => { t with trap := some r }
    else match s.ctx? sp.ctx with
      | none => s
      | some cx =>
        if sp.hmode || cx.handler = 0 then s.stopSpan id c
        else
          let (tf, fa) := s.areas sp cx
          match s.deviceWrite (some sp.pier) cx tf (trapFrame sp r c) with
          | (s1, none, _) => s1.onSpan id (·.enterHandler cx.handler tf fa c)
          | (s1, some (.fatal d), _) => s1.stopSpan id d
          | (s1, some (.park why), pages) =>
            (s1.onSpan id fun t => { t with trap := some r }).notify sp.ctx why (.span sp.uid) pages
          | (s1, some (.pass _ _), _) => s1

/-! Watches (R198). -/

/-- What a wait of WAITA or FJOIN needs a watch slot for: a virtual line, or a handle (R198, R323). -/
def slotKey (o : Option Wait) : Option (Bool × Nat × Bool) :=
  match o with
  | some (.watch w) => some (false, w.acc.ea / 64, w.slot)
  | some (.join j) => some (true, j.handle.toNat, j.slot)
  | _ => none

/-- The watch slots in use: lanes that wait on one line, or on one handle, share a slot. -/
def Span.slotKeys (sp : Span) : List (Bool × Nat) :=
  ((sp.lanes.map fun ln =>
    let held (o : Option Wait) : List (Bool × Nat) := match slotKey o with
      | some (b, n, true) => [(b, n)]
      | _ => []
    held ln.wait ++ held ln.kept).flatten).eraseDups

def Wait.withSlot : Wait → Wait
  | .watch w => .watch { w with slot := true }
  | .join j => .join { j with slot := true }
  | w => w

/-- Waits take free slots, the lowest lanes first. (log 34, DEDUCED) -/
def Span.takeSlots (sp : Span) : Span :=
  laneNums.foldl (fun t l =>
    match slotKey (t.lane l).wait with
    | some (b, n, false) =>
      if t.slotKeys.contains (b, n) || decide (t.slotKeys.length < Config.spanSlots) then
        t.onLane l fun ln => { ln with wait := ln.wait.map Wait.withSlot }
      else t
    | _ => t) sp

/-! What follows at once from a change of a span. -/

/-- CVG completion (R36, R37): when every lane not ended waits at a CVG, those that R30 would choose first go on. The
condition of R37 also asks that no lane is parked; a parked lane does not wait at a CVG. A trap on its way finds them waiting (R20). -/
def Span.settleCvg (sp : Span) : Span :=
  let L := sp.lanesIn (!·.ended)
  if sp.trap.isSome || L.isEmpty || !L.all (fun l => (sp.lane l).st = .waiting && (sp.lane l).wait = some .cvg) then sp
  else
    let d := maxNat (L.map fun l => (sp.lane l).depth)
    let D := L.filter fun l => (sp.lane l).depth = d
    let a := minNat (D.map fun l => (sp.lane l).pc.toNat)
    sp.onLanes (D.filter fun l => (sp.lane l).pc.toNat = a) Lane.go

/-- The results that an entry's parts still travel to. -/
def Span.waitsFor (sp : Span) (e : Entry) : Bool :=
  e.parts.any fun p => match p.acc.res with | some r => sp.results.any (·.id = r) | none => false

/-- Are two requests of an owner to one line (R132)? A page that moves between them keeps its virtual lines. -/
def Entry.sameLine (e f : Entry) : Bool := e.pline = f.pline || e.vline = f.vline

/-- The state in which an entry boards, behind the entries `ls` of its span (R113, R132, R137, R192): chained behind the latest
entry ashore or chained on its line, chained behind the latest fence if it writes, waiting on release order, or sent. -/
def boardState (ls : List Entry) (e : Entry) : EState :=
  let onLine := ls.filter fun f => f.isMem && decide (f.seq < e.seq) && f.sameLine e &&
    (match f.st with | .ashore | .chained _ => true | _ => false)
  let fences := ls.filter fun f => f.isFence && decide (f.seq < e.seq)
  match onLine.getLast?, fences.getLast? with
  | some f, _ => .chained f.slot
  | none, some f => if e.write then .chained f.slot else .inflight
  | none, none => if e.order.releases && e.write || e.order = .seq then .ordered else .inflight

/-- One round of the landing: entries whose values have arrived retire (R128, R111); a fence retires when its waiting ends
(R192); an entry whose predecessor has retired boards again (R132); unsent requests take free entries (R128). -/
def State.landingRound (s : State) (sp : Span) : Span :=
  let keep := fun (e : Entry) =>
    if e.isFence then s.releaseWaits sp e.seq e.u || (e.scope.all && s.mergeWaits sp.block) || sp.landing.any (fun f => f.isFence && decide (f.seq < e.seq))
    else e.st ≠ .done || sp.waitsFor e
  let kept := sp.landing.filter keep
  let board := fun (ls : List Entry) (e : Entry) => match e.st with
    | .chained p => if kept.any (·.slot = p) then ls ++ [e] else ls ++ [{ e with st := boardState ls e }]
    | _ => ls ++ [e]
  let kept1 := kept.foldl board []
  let free := (List.range Config.landing).filter fun i => !kept1.any (·.slot = i)
  let take := free.zip sp.unsent
  { sp with
    landing := take.foldl (fun ls (i, e) => ls ++ [{ e with slot := i, st := if e.isMem then boardState ls e else e.st }]) kept1
    unsent := sp.unsent.drop take.length }

/-- A pier's write removes the pier's own copy of its line when it is sent: the copy leaves the L1, and loads of the pier that are on
their way install nothing (R161). (log 26, DEDUCED) -/
def State.writeSent (s : State) (pier : Nat) (e : Entry) : State :=
  let mark (f : Entry) : Entry := if f.pline = e.pline && f.any (· = .load) then { f with noFill := true } else f
  { s with
    l1 := s.l1.filter fun c => !(c.pier = pier && c.line = e.pline)
    spans := s.spans.map fun sp => if sp.pier = pier then { sp with landing := sp.landing.map mark } else sp }

/-- The landing follows; a fence of package or system scope that retires here releases its block's shadow lines (R178), a `.seq` fence
takes its place in the order of its instance (R159). -/
def State.settleLanding (s : State) (id : Nat) : State :=
  match s.span? id with
  | none => s
  | some sp =>
    let sp1 := s.landingRound (s.landingRound sp)
    let gone := sp.landing.filter fun e => e.isFence && !sp1.landing.any (fun f => f.isFence && f.seq = e.seq)
    let sent := sp1.landing.filter fun e => e.st = .inflight && e.stores && !sp.landing.any (fun f => f.slot = e.slot && f.seq = e.seq && f.st = .inflight)
    let s1 := sent.foldl (fun t e => t.writeSent sp.pier e) (s.putSpan { sp1 with want := if sp1.lacks then sp1.want else 0 })
    let s2 := if gone.any (·.scope.all) then s1.mergeFor id else s1
    (gone.filter (·.order = .seq)).foldl (fun t e => t.seqFence id e.seq e.scope) s2

/-- Barrier arrivals whose earlier requests are performed are made, in order (R202). -/
def State.settleArrivals (s : State) (id : Nat) : Nat → State
  | 0 => s
  | n + 1 =>
    match s.span? id with
    | none => s
    | some sp =>
      match sp.arrivals with
      | [] => s
      | .named key count seq lanes :: rest =>
        if s.drained sp seq && !(key.blk.isNone && key.die.isNone && s.mergeWaits sp.block) then
          let s1 := if key.blk.isNone && key.die.isNone then s.mergeFor id else s
          ((s1.onSpan id fun t => { t with arrivals := rest }).arrive id key count lanes seq).settleArrivals id n
        else s
      | .deck obj seq :: rest =>
        if s.drained sp seq then
          (((s.onSpan id fun t => { t with arrivals := rest }).tellObj sp.block obj (s.handing sp seq true false)).mbChange sp.block obj
            MBar.arrived).settleArrivals id n
        else s

/-- PSYNC joins the span with its plane operations (R155, R219): what their forks handed to them happens before what follows. -/
def State.joinPlanes (s : State) (sp : Span) : Span :=
  { sp.learn sp.seq .all (sp.planesAt.foldl (fun v n => joinViews v (s.forking sp n)) []) with planesAt := [] }

/-- The holds of W and PSYNC end when what they wait for has come (R64, R284). -/
def State.settleHolds (s : State) (id : Nat) : State :=
  match s.span? id with
  | none => s
  | some sp =>
    let w := sp.wHold && (!sp.results.isEmpty || s.deckStoreBefore sp.uid (sp.seq + 1))
    let p := sp.pHold && s.planeq.any (·.uid = sp.uid)
    s.onSpan id fun t => { (if t.pHold && !p then s.joinPlanes t else t) with wHold := w, pHold := p }

/-- A due trap is taken when no eligible lane remains (R20, R32). -/
def State.settleTrap (s : State) (id : Nat) : State :=
  match s.span? id with
  | none => s
  | some sp =>
    if sp.status ≠ .running then s
    else match sp.trap with
      | some r => s.takeTrap id r
      | none =>
        if sp.due && sp.noEligible then
          s.takeTrap id ⟨(if sp.hmode then sp.hcause else sp.cause).getD .future, false, 0, []⟩
        else s

/-- Everything that follows at once from a change of span `id`. A CVG that completes does so before the want of an eligible lane takes a
trap (R20, R36; log 58, DESIGN CHOICE). -/
def State.settle (s : State) (id : Nat) : State :=
  if (s.span? id).any (fun sp => match sp.status with | .saved _ => true | _ => false) then s else
  let s1 := (s.settleLanding id).settleArrivals id 64
  let s2 := (((s1.settleLanding id).settleHolds id).retryRecords id).showRecords id
  let s3 := (s2.onSpan id Span.takeSlots).onSpan id Span.settleCvg
  ((s3.settleTrap id).settleStop id).onSpan id Span.keepPoint

def State.settleAll (s : State) : State := s.spans.foldl (fun t sp => t.settle sp.id) s

/-! RETURNING FROM A TRAP (R40, R41, R383), beside taking one. -/

/-- The fields of an execution-state block (R42). -/
structure ExecBlock where
  head  : Nat
  iaddr : Word
  dq    : Nat
  ended : Nat
  state : List Nat
  depth : List Nat
  preds : List Nat
  shi   : List Nat
  pc    : List Word

/-- Cut a list of bytes into little-endian values of `n` bytes. -/
def chop (n : Nat) : Nat → List Byte → List Nat
  | 0, _ => []
  | k + 1, bs => leNat (bs.take n) :: chop n k (bs.drop n)

def readBlock (bs : List Byte) : ExecBlock where
  head := leNat (bs.take 8)
  iaddr := BitVec.ofNat 64 (leNat ((bs.drop 8).take 8))
  dq := leNat ((bs.drop 0x18).take 8)
  ended := leNat ((bs.drop 0x20).take 8)
  state := chop 1 32 (bs.drop 0x40)
  depth := chop 1 32 (bs.drop 0x60)
  preds := chop 2 32 (bs.drop 0x80)
  shi := chop 8 8 (bs.drop 0xC0)
  pc := (chop 8 32 (bs.drop 0x100)).map (BitVec.ofNat 64)

/-- Invalid (R41): a state code above 6, or a program counter that is not a multiple of 8. -/
def ExecBlock.bad (b : ExecBlock) : Bool := b.state.any (decide <| 6 < ·) || b.pc.any (fun p => decide (p.toNat % 8 ≠ 0))

/-- Does the lane go on with the wait that the trap or the save found (R40, R383)? -/
def Lane.sameWait (ln : Lane) (code : Nat) (pc : Word) (depth : Nat) : Bool :=
  decide (code = 2) && ln.atTrap = some (.waiting, pc, depth) && ln.kept.isSome

/-- A lane restored from its code (R40, R383). A FUTURE result held for it is written by the caller. -/
def Lane.restore (ln : Lane) (code : Nat) (pc : Word) (depth : Nat) (preds : BitVec 16) : Lane :=
  let b : Lane := { ln with pc := pc, depth := depth, preds := preds, atTrap := none, held := none, kept := none, wait := none,
                            reason := none, pages := [] }
  if ln.st = .reclaimed || (match ln.atTrap with | some (st, _, _) => st = .reclaimed | none => false) then { b with st := .reclaimed }
  else if ln.sameWait code pc depth then
    match ln.kept, ln.held with
    | some (.bar _ _ pf), some (.bar broken) => (setPred b pf broken).go
    | some (.mb _ _ pf), some .mb => (setPred b (some pf) true).go
    | some (.join _), some (.join _ _) => b.go
    | some (.sleep _), _ => b.go
    | some (.watch w), _ => { b with st := .waiting, wait := some (.watch { w with wake := true, reading := false, line := none, poll := 0, must := true }) }
    | some w, _ => { b with st := .waiting, wait := some w }
    | none, _ => { b with st := .ready }
  else match code with
    | 1 => { b with st := .deferred }
    | 4 => { b with st := .parkedFatal }
    | 5 | 6 => { b with st := .exited }
    | _ => { b with st := .ready }

/-- One lane of a span restored: a wait given up leaves its future, a lane that ends here ends its task, a held event is received
with its cause and its drop, an MBWAIT tests its count again. -/
def State.restoreLane (s : State) (id : Nat) (b : ExecBlock) (l : Nat) : State :=
  match s.span? id with
  | none => s
  | some sp =>
    let ln := sp.lane l
    let code := b.state.getD l 0
    let ln1 := ln.restore code (b.pc.getD l 0) (b.depth.getD l 0) (BitVec.ofNat 16 (b.preds.getD l 0))
    let s0 := s.dropOne sp l ln.wait true
    let s1 := if ln.sameWait code (b.pc.getD l 0) (b.depth.getD l 0) || ln.held.isSome then s0 else s0.dropOne sp l ln.kept false
    let s2 := if ln1.st = .exited then s1.endLaneTask sp l else s1
    let ln2 := if ln1.st = .exited then { ln1 with task := none } else ln1
    let ln3 := match ln2.wait, s.block? sp.block with
      | some (.mb o n pf), some k => if (k.mbar o).reached n then (setPred ln2 (some pf) false).go else ln2
      | _, _ => ln2
    let s3 := s2.onSpan id fun t => t.onLane l fun _ => ln3
    match ln.kept, ln.held, ln.sameWait code (b.pc.getD l 0) (b.depth.getD l 0) with
    | some (.join j), some (.join val bad), true =>
      let put (t : Span) : Span := match val with | some x => t.setVn j.n j.reg l x | none => t
      let s4 := s3.onSpan id fun t => put (if bad then t.record .future else t)
      if j.drop then s4.dropOwned id (sp.owner l) j.handle else s4
    | some (.bar _ _ _), some (.bar true), true => s3.onSpan id (·.record .barbroken)
    | some (.mb o _ _), none, true => if ln3.wait.isNone then s3.hearObj id o else s3
    | _, _, _ => s3

/-- A lane whose task was doomed meanwhile and that stands waiting or parked is reclaimed at once (R287, R318). -/
def State.reclaimStanding (s : State) (id l : Nat) : State :=
  match s.span? id with
  | none => s
  | some sp =>
    let ln := sp.lane l
    match ln.task with
    | some t => if t.doomed && (ln.st = .waiting || ln.st = .parkedRec) then s.reclaim id l else s
    | none => s

/-- RETURN FROM A TRAP (R40, R41): the block restored; an invalid frame, or a lane restored parked fatal, stops the span. (log 36, DEDUCED) -/
def State.returnFromTrap (s : State) (id : Nat) (b : ExecBlock) : State :=
  match s.span? id with
  | none => s
  | some sp =>
    if b.bad then s.stopSpan id .ill
    else
      let s1 := s.onSpan id fun t =>
        let t1 := (List.range 8).foldl (fun u i => u.setS (56 + i) (BitVec.ofNat 64 (b.shi.getD i 0))) t
        { t1 with qs := BitVec.ofNat 8 (b.dq / 256), hmode := false, fseq := 0, cause := none, first := none, due := false, hcause := none, resv := none,
                  lanes := t1.lanes.map fun ln => { ln with resv := none } }
      let s2 := laneNums.foldl (fun t l => t.restoreLane id b l) s1
      let s3 := laneNums.foldl (fun t l => t.reclaimStanding id l) s2
      match s3.span? id with
      | none => s3
      | some t =>
        if (t.lanesIn (· = .parkedFatal)).isEmpty then s3.settle id
        else s3.stopSpan id (sp.entered.getD .ill)

/-- A result that is pending from now on, with its number from the span's own count (R63). -/
def Span.pend (sp : Span) (r : Result) : Span := { sp with results := sp.results ++ [{ r with id := sp.seq }], seq := sp.seq + 1 }

/-! The issue of a word. -/

/-- One issue: the span as selected, the issuing set, the lanes of it whose guard is true, the address of the word. -/
structure Iss where
  sp : Span
  I  : List Nat
  G  : List Nat
  a  : Word

/-- Every lane of I at the next instruction. -/
def Iss.moved (x : Iss) : Span := x.sp.onLanes x.I fun ln => { ln with pc := x.a + 8 }

def Iss.id (x : Iss) : Nat := x.sp.id

/-- What an instruction adds to the rules of every issue. -/
structure Rules where
  /-- Handler mode only (R74). -/
  priv   : State → Iss → Bool := fun _ _ => false
  /-- Span-collective (R31). -/
  whole  : Bool := false
  /-- More registers for the UNSYNC test (R106). -/
  unsync : State → Iss → Bool := fun _ _ => false
  /-- The instruction's own causes (R66), the first that applies. -/
  own    : State → Iss → Option Cause := fun _ _ => none
  /-- Can the word issue now, or is it held (R128, R206, R252)? -/
  ready  : State → Iss → Bool := fun _ _ => true
  /-- The landing entries that it needs: memory instructions wait for as many (R111, R128). -/
  want   : State → Iss → Nat := fun _ _ => 0
  /-- Is this issue a reclamation point for the lane (R296)? -/
  recl   : Iss → Nat → Bool := fun _ _ => false
  /-- RPT executes even when no lane remains (R327). -/
  always : Bool := false

/-- Is a result pending in a register or predicate that the word touches (R65)? -/
def Result.hits (r : Result) (u : Uses) (I : List Nat) : Bool :=
  match r.lane with
  | some l => I.contains l &&
      ((match r.vreg with | some (f, n) => u.v.any (fun k => decide (f ≤ k) && decide (k < f + n)) | none => false) ||
       (match r.pred with | some p => u.p.contains p | none => false))
  | none =>
      (match r.sreg with | some k => u.s.contains k | none => false) ||
      (match r.pred with | some p => u.q.contains p | none => false)

/-- Is an interlocked result that has not been answered touched (R63)? The word then waits. -/
def RegRef.hits (r : RegRef) (u : Uses) (I : List Nat) : Bool :=
  match r with
  | .v l k => I.contains l && u.v.contains k
  | .s k => u.s.contains k
  | .p l k => I.contains l && u.p.contains k
  | .q k => u.q.contains k

def Span.interlocked (sp : Span) (u : Uses) (I : List Nat) : Bool := sp.ilock.any fun e => e.2.hits u I

/-- The first cause taken at issue, in the order of R66; ILL is the decoder's. (log 16, DEDUCED) -/
def issueCause (i : Instr) (r : Rules) (s : State) (x : Iss) : Option Cause :=
  let u := (shape i).uses
  if r.priv s x && !x.sp.hmode then some .priv
  else if u.v.any (fun k => decide (x.sp.budget ≤ k)) then some .regbud
  else if r.whole && x.I ≠ x.sp.lanesIn (!·.ended) then some .subset
  else if x.sp.results.any (·.hits u x.I) || r.unsync s x then some .unsync
  else r.own s x

/-- The wait marker W holds the span from now on if something is out (R64). -/
def Span.hold (sp : Span) (b : Bool) : Span := { sp with wHold := sp.wHold || b }

/-- Is a result of the span, or a deck store, still out when a word with W issues (R64)? -/
def State.waitsAt (s : State) (i : Instr) (sp : Span) : Bool :=
  (shape i).ctl.w && (!sp.results.isEmpty || s.deckStoreBefore sp.uid (sp.seq + 1))

/-! What is computed from what (R154). -/

/-- The places of registers, in a lane. -/
def placesOf (u : Uses) (l : Nat) : List Spot :=
  u.v.map (fun k => .reg (.v l k)) ++ u.s.map (fun k => .reg (.s k)) ++ u.p.map (fun k => .reg (.p l k)) ++ u.q.map fun k => .reg (.q k)

/-- What a lane's results are computed from: registers of its own, of every lane in a word that reads other lanes (log 50, DEDUCED), and the
decisions of the branches before it. -/
def Iss.reads (x : Iss) (i : Instr) (from_ : Uses) (l : Nat) : List Spot :=
  .turn l :: (if i.lateral then (laneNums.map (placesOf from_)).flatten else placesOf from_ l) ++
    match i with | .rdix y => [.reg (.v l (x.sp.v y.a.toNat l).toNat)] | _ => []

/-- Where they go. -/
def Iss.makes (x : Iss) (i : Instr) (goal : Uses) (l : Nat) : List Spot :=
  match i with
  | .wrix y => [.reg (.v l (x.sp.v y.d.toNat l).toNat)]
  | .wrln y => placesOf goal (if y.bit 5 then y.f6.toNat % 32 else (x.sp.s y.b.toNat).toNat % 32)
  | _ => if i.branches then .turn l :: placesOf goal l else placesOf goal l

/-- The reads whose values some places hold. -/
def Flow.from_ (f : Flow) (ps : List Spot) : List ReadId := ((f.held.filter fun h => ps.contains h.1).map (·.2)).eraseDups

/-- The issue of a word: its results hold what they are computed from, and no longer what they held, outside handler mode, after which the
values that the trap found come back; a lane whose guard is false keeps what it held, by the guard's decision. (log 50, DEDUCED) -/
def Flow.issue (f : Flow) (i : Instr) (x : Iss) : Flow :=
  if f.held.isEmpty then f else
    let fs := (shape i).flows
    let gone (p : Spot) : Bool := !x.sp.hmode && fs.any fun w => x.G.any fun l => (x.makes i w.2 l).contains p && p ≠ .turn l
    let new := (fs.map fun w => (x.I.map fun l =>
      let rs := f.from_ (if x.G.contains l then x.reads i w.1 l else .turn l :: placesOf (guardUses (shape i).ctl) l)
      ((x.makes i w.2 l).map fun p => rs.map fun r => (p, r)).flatten).flatten).flatten
    let rest := f.held.filter fun h => !gone h.1
    let by_ (l : Nat) : List ReadId := (fs.map fun w => f.from_ (x.reads i w.1 l)).flatten.eraseDups
    let acts := if !i.acts then []
      else if i.perLane && !(shape i).ctl.u then (x.G.map fun l => (by_ l).map fun r => ((x.sp.seq, some l), r)).flatten
      else ((x.G.map by_).flatten.eraseDups).map fun r => ((x.sp.seq, none), r)
    { f with held := rest ++ (new.filter (!rest.contains ·)).eraseDups, acts := f.acts ++ acts }

/-- The word has issued: the wait marker holds the span if something is out (R64), no span is picked, and what the word computes is known
by what it is computed from (R154). -/
def State.issued (s : State) (i : Instr) (x : Iss) : State :=
  let s1 := { s with picked := none, flows := s.flows.map fun f => if f.uid = x.sp.uid then f.issue i x else f }
  match s.span? x.sp.id with
  | none => s1
  | some sp => s1.onSpan x.sp.id (·.hold (s.waitsAt i sp))

/-- The guard's lanes: each lane's own guard, or with U the whole set or nothing (R52). -/
def guardLanes (sp : Span) (c : Ctl) (I : List Nat) : List Nat := I.filter (sp.guard c)

/-- Does the lane run a task that its pier knows is doomed (R296)? -/
def Span.doomedAt (sp : Span) (l : Nat) : Bool := match (sp.lane l).task with | some t => t.doomed | none => false

/-- ISSUE OF A WORD by the picked span: the causes in order, the holds, the doomed lanes, then the effect on what remains. (log 16, DEDUCED) -/
def issue (i : Instr) (r : Rules) (body : State → Iss → State) (s : State) : Out :=
  match s.picked with
  | none => .next s
  | some id =>
    match s.span? id with
    | none => .next { s with picked := none }
    | some sp0 =>
      if sp0.held then .next { s with picked := none } else
      match sp0.select with
      | none => .next { s with picked := none }
      | some (sp, I, a) =>
        let x : Iss := ⟨sp, I, guardLanes sp (shape i).ctl I, a⟩
        if sp.interlocked (shape i).uses I then .next { s with picked := none } else
        match issueCause i r s x with
        | some c => .next { ((s.putSpan sp).takeTrap id ⟨c, true, a, I⟩) with picked := none }
        | none =>
          if !r.ready s x then .next { s.onSpan id (fun t => { t with want := max t.want (r.want s x) }) with picked := none } else
          let gone := I.filter fun l => sp.doomedAt l && r.recl x l
          if gone.isEmpty then .next ((body s x).issued i x)
          else
            let s1 := gone.foldl (fun t l => t.reclaim id l) (s.putSpan sp)
            let rest := I.filter (!gone.contains ·)
            match s1.span? id with
            | none => .next { s1 with picked := none }
            | some sp1 =>
              if rest.isEmpty && !r.always then .next ({ s1 with picked := none }.settle id)
              else
                let y : Iss := ⟨sp1, rest, guardLanes sp1 (shape i).ctl rest, a⟩
                .next ((body s1 y).issued i y)

/-- An instruction that touches the registers and predicates of its span alone: `f` gives the span after it from the span
before it, all of whose lanes of I have moved on. -/
def regOp (i : Instr) (r : Rules) (f : Iss → Span → Span) (s : State) : Out :=
  issue i r (fun t x => t.putSpan (f x x.moved)) s

/-- A trap cause that a fetched word raises when it is no instruction (R75). -/
def illTrap (s : State) : State :=
  match s.picked with
  | none => s
  | some id =>
    match s.span? id with
    | none => { s with picked := none }
    | some sp0 =>
      if sp0.held then { s with picked := none } else
      match sp0.select with
      | none => { s with picked := none }
      | some (sp, I, a) => { ((s.putSpan sp).takeTrap id ⟨.ill, true, a, I⟩) with picked := none }

end Sys2Proof.Machine
end

