-- ==== Sys2Proof/Machine/Control.lean ====
section
/-! DEFINITION. Class 0x0: branches, calls, the end of a lane, software traps (R79 to R88). -/

namespace Sys2Proof.Machine

/-- A relative target (R58). -/
def relTarget (a : Word) (off : BitVec 28) : Word := a + 8 + 8 * off.signExtend 64

/-- The 64-bit target operand A of a lane. -/
def Span.target (sp : Span) (x : RRR) (l : Nat) : Word := if x.ka then sp.s x.a.toNat else sp.v64 x.a.toNat l

/-- A lane at a target, deferred with Y (R80, R16). -/
def Lane.jump (ln : Lane) (t : Word) (y : Bool) : Lane := { ln with pc := t, st := if y then .deferred else .ready }

/-- A taken branch whose target is at or below its own address is a reclamation point (R83). -/
def backward (a t : Word) : Bool := decide (t.toNat ≤ a.toNat)

/-- Misaligned target (R81). -/
def badTarget (t : Word) : Bool := decide (t.toNat % 8 ≠ 0)

/-- NOP (R88). -/
def execNop (x : RRR) (s : State) : Out := regOp (.nop x) {} (fun _ t => t) s

/-- BRA (R80): each lane by its own guard. -/
def execBra (x : RIB) (s : State) : Out :=
  regOp (.bra x) { recl := fun i l => i.G.contains l && backward i.a (relTarget i.a x.off) }
    (fun i t => t.onLanes i.G fun ln => ln.jump (relTarget i.a x.off) x.y) s

/-- BRQ (R80): one decision for the whole issuing set. -/
def execBrq (x : RIB) (s : State) : Out :=
  regOp (.brq x) { recl := fun i l => i.G.contains l && backward i.a (relTarget i.a x.off) }
    (fun i t => t.onLanes i.G fun ln => ln.jump (relTarget i.a x.off) x.y) s

/-- The lanes of G with misaligned targets fault (R81): parked fatal on the word, in ascending lane order. -/
def faultTargets (s : State) (i : Iss) (target : Nat → Word) : State :=
  (i.G.filter fun l => badTarget (target l)).foldl (fun t l => t.faultLane i.id l .misalign 3 3 0 (target l) i.a) s

/-- The lanes of G whose target is a multiple of 8. -/
def goodLanes (i : Iss) (target : Nat → Word) : List Nat := i.G.filter fun l => !badTarget (target l)

/-- Lanes of I that do not stay on the word: all but those whose target faults. -/
def movedBut (i : Iss) (target : Nat → Word) : Span :=
  i.sp.onLanes (i.I.filter fun l => !(i.G.contains l && badTarget (target l))) fun ln => { ln with pc := i.a + 8 }

/-- BRX (R80, R81). A doomed lane is reclaimed before its target is looked at (R296). -/
def execBrx (x : RRR) (s : State) : Out :=
  issue (.brx x) { recl := fun i l => i.G.contains l && backward i.a (i.sp.target x l) }
    (fun s i =>
      let target := i.sp.target x
      let sp := (goodLanes i target).foldl (fun t l => t.onLane l fun ln => ln.jump (target l) (x.bit 0)) (movedBut i target)
      (faultTargets (s.putSpan sp) i target).settle i.id) s

/-- CALL and CALLX write the link pair and raise the depth (R82). -/
def Span.call (sp : Span) (d : BitVec 8) (a t : Word) (l : Nat) : Span :=
  (sp.setV64 d.toNat l (a + 8)).onLane l fun ln => { ln with pc := t, depth := ln.depth + 1 }

/-- DEPTH (R35): a guarded lane at depth 255. -/
def deepCall (i : Iss) : Option Cause := if i.G.any (fun l => (i.sp.lane l).depth = 255) then some .depth else none

/-- CALL (R82). -/
def execCall (x : RIB) (s : State) : Out :=
  regOp (.call x) { own := fun _ i => deepCall i, recl := fun i l => i.G.contains l }
    (fun i t => i.G.foldl (fun t l => t.call x.d i.a (relTarget i.a x.off) l) t) s

/-- CALLX (R82): the target is read before the link is written. -/
def execCallx (x : RRR) (s : State) : Out :=
  issue (.callx x) { own := fun _ i => deepCall i, recl := fun i l => i.G.contains l }
    (fun s i =>
      let target := i.sp.target x
      let sp := (goodLanes i target).foldl (fun t l => t.call x.d i.a (target l) l) (movedBut i target)
      (faultTargets (s.putSpan sp) i target).settle i.id) s

/-- RET (R82): DEPTH when a guarded lane stands at depth 0. -/
def execRet (x : RRR) (s : State) : Out :=
  issue (.ret x) { own := fun _ i => if i.G.any (fun l => (i.sp.lane l).depth = 0) then some .depth else none }
    (fun s i =>
      let target := i.sp.target x
      let sp := (goodLanes i target).foldl
        (fun t l => t.onLane l fun ln => { ln with pc := target l, depth := ln.depth - 1 }) (movedBut i target)
      (faultTargets (s.putSpan sp) i target).settle i.id) s

/-- YIELD (R84): guarded lanes are deferred at the next instruction. -/
def execYield (x : RRR) (s : State) : Out :=
  regOp (.yield x) {} (fun i t => t.onLanes i.G fun ln => ln.jump (i.a + 8) true) s

/-- CVG (R36, R37, R85): guarded lanes wait; a due trap is taken at this issue, with the address of the CVG (R20, R42). (log 17, DEDUCED) -/
def execCvg (x : RRR) (s : State) : Out :=
  issue (.cvg x) { recl := fun i l => i.G.contains l }
    (fun s i =>
      let sp := i.moved.onLanes i.G fun ln => { ln with pc := i.a, st := .waiting, wait := some .cvg }
      let s1 := s.putSpan sp
      if sp.due then s1.takeTrap i.id ⟨(if sp.hmode then sp.hcause else sp.cause).getD .future, false, i.a, []⟩
      else s1.settle i.id) s

/-- EXIT (R86): guarded lanes exit with their address unchanged, and their tasks end. -/
def execExit (x : RRR) (s : State) : Out :=
  issue (.exit x) {}
    (fun s i =>
      let sp := i.moved.onLanes i.G fun ln => { ln with pc := i.a }
      (i.G.foldl (fun t l => t.exitLane i.id l) (s.putSpan sp)).settle i.id) s

/-- TRAP (R87): SWTRAP at issue when a guard is true. -/
def execTrap (x : RIW) (s : State) : Out :=
  regOp (.trap x) { own := fun _ i => if i.G.isEmpty then none else some .swtrap } (fun _ t => t) s

/-- BKPT (R87): BKPT at issue when a guard is true. -/
def execBkpt (x : RIW) (s : State) : Out :=
  regOp (.bkpt x) { own := fun _ i => if i.G.isEmpty then none else some .bkpt } (fun _ t => t) s

end Sys2Proof.Machine
end

