-- ==== Sys2Proof/Machine/Blocks.lean ====
section
/-! DEFINITION. Block-scaled numbers: E8 scales, BQp and L6 elements, their quantisation (R231 to R237, R272), and the
products that the plane engine sums (R236, R239). -/

namespace Sys2Proof.Machine

/-- 2^k as an exponent pair of an E8 scale (R231). (log 29, DEDUCED) -/
def e8exp (e : Nat) : Int := (e : Int) - 127

/-- The integer of a BQp element (R232). -/
def bqInt (p : Nat) (sgn : Bool) (bits : Nat) : Int :=
  let x := bits % 2 ^ p
  if !sgn then x
  else if p = 1 then 2 * x - 1
  else if 2 ^ (p - 1) ≤ x then (x : Int) - 2 ^ p else x

/-- The range of a BQp integer (R230, R233). -/
def bqRange (p : Nat) (sgn : Bool) : Int × Int :=
  if sgn then (if p = 1 then (-1, 1) else (-(2 ^ (p - 1) : Int), 2 ^ (p - 1) - 1)) else (0, 2 ^ p - 1)

/-- The bits of a BQp integer. -/
def bqBits (p : Nat) (sgn : Bool) (q : Int) : Nat :=
  if sgn && p == 1 then (if 0 < q then 1 else 0) else (BitVec.ofInt p q).toNat

/-- The table T (R235). -/
def l6T (f : Nat) : Nat := [16384, 19484, 23170, 27554].getD (f % 4) 0

/-- M(E, e), E not 0, as m × 2^k (R235). -/
def l6Mag (E e : Nat) : Nat × Int := (l6T E, (E / 4 : Nat) - 30 + e8exp e)

/-- An element as an exact number. -/
def bqValue (p : Nat) (sgn : Bool) (bits e : Nat) : FV :=
  let q := bqInt p sgn bits
  .fin (decide (q < 0)) q.natAbs (e8exp e)

def l6Value (bits e : Nat) : FV :=
  let E := bits % 32
  if E = 0 then .fin false 0 0 else .fin (decide (bits / 32 % 2 = 1)) (l6Mag E e).1 (l6Mag E e).2

/-- CVT of a block element to FP32 (R272). -/
def blockToF32 (v : FV) (e : Nat) : Nat := if e = 255 then fp32.nan else fp32.put 0 v

/-! Quantisation. -/

def FV.finite : FV → Bool
  | .fin _ _ _ => true
  | _ => false

/-- rnd(x / 2^(e − 127), RNE, integer). -/
def scaleInt (e : Nat) : FV → Int
  | .fin neg m k => let n : Int := roundInt 0 neg m (k - e8exp e) false; if neg then -n else n
  | _ => 0

def FV.nonneg : FV → Bool
  | .fin neg m _ => !neg || m = 0
  | _ => true

/-- The integers at scale e, and whether they fit (R233). -/
def quantAt (p : Nat) (sgn : Bool) (xs : List FV) (e : Nat) : List Int × Bool :=
  let qs := xs.map (scaleInt e)
  let (lo, hi) := bqRange p sgn
  if p = 1 && sgn then (xs.map fun x => if x.nonneg then 1 else -1, qs.all fun q => decide (q.natAbs ≤ 1))
  else (qs, qs.all fun q => decide (lo ≤ q) && decide (q ≤ hi))

/-- quant of R233: the E8 and the elements' bits. -/
def quant (p : Nat) (sgn : Bool) (xs : List FV) : Nat × List Nat :=
  if !xs.all FV.finite then (255, xs.map fun _ => 0)
  else
    let (lo, hi) := bqRange p sgn
    match (List.range 255).find? fun e => (quantAt p sgn xs e).2 with
    | some e => (e, (quantAt p sgn xs e).1.map (bqBits p sgn))
    | none => (254, (quantAt p sgn xs 254).1.map fun q => bqBits p sgn (clampInt lo hi q))

/-- a × 2^j ≤ b × 2^k. -/
def leExp (a : Nat) (j : Int) (b : Nat) (k : Int) : Bool :=
  let lo := if j < k then j else k
  decide (a * 2 ^ (j - lo).toNat ≤ b * 2 ^ (k - lo).toNat)

def FV.mag : FV → Nat × Int
  | .fin _ m k => (m, k)
  | _ => (0, 0)

/-- The distance of two magnitudes in units of 2^lo. -/
def distAt (lo : Int) (x y : Nat × Int) : Nat :=
  ((x.1 * 2 ^ (x.2 - lo).toNat : Nat) - (y.1 * 2 ^ (y.2 - lo).toNat : Nat) : Int).natAbs

/-- The E nearest to a magnitude, on a tie the even E (R237). -/
def l6Nearest (e : Nat) (x : Nat × Int) : Nat :=
  let lo := if x.2 < -160 then x.2 else (-160 : Int)
  let magOf := fun E => if E = 0 then ((0, 0) : Nat × Int) else l6Mag E e
  (List.range 32).foldl (fun best E =>
    let d := distAt lo x (magOf E)
    let b := distAt lo x (magOf best)
    if d < b || (d = b && E % 2 = 0) then E else best) 0

/-- quantl6 of R237. -/
def quantl6 (xs : List FV) : Nat × List Nat :=
  if !xs.all FV.finite then (255, xs.map fun _ => 0)
  else
    let e := ((List.range 255).find? fun e => xs.all fun x => leExp x.mag.1 x.mag.2 (l6Mag 31 e).1 (l6Mag 31 e).2).getD 254
    (e, xs.map fun x =>
      let E := l6Nearest e x.mag
      E + (if !x.nonneg && E ≠ 0 then 32 else 0))

/-! Products. -/

/-- The product of two L6 elements without their scales, in units of 2^−46 (R236). -/
def l6Product (a b : Nat) : Int :=
  if a % 32 = 0 ∨ b % 32 = 0 then 0
  else
    let S := a % 32 + b % 32
    let m : Int := l6T S * 2 ^ (S / 4)
    if (a / 32 + b / 32) % 2 = 1 then -m else m

/-- rnd(v × 2^k, RNE, grid 2^g) / 2^g (R239). -/
def onGrid (v k g : Int) : Int :=
  let n : Int := roundInt 0 (decide (v < 0)) v.natAbs (k - g) false
  if v < 0 then -n else n

end Sys2Proof.Machine
end

