-- ==== Sys2Proof/Machine/Integer.lean ====
section
/-! DEFINITION. Class 0x2: integer arithmetic, logic, shifts and moves (R76, R77, R95 to R100). -/

namespace Sys2Proof.Machine

/-! The functions of R95 to R97 at width `w`; `sgn` says whether the type is signed. -/

/-- An operand's exact value (R76). -/
def exact {w : Nat} (sgn : Bool) (a : BitVec w) : Int := if sgn then a.toInt else a.toNat

/-- sat: the value clamped to the range of the type. -/
def satTo (w : Nat) (sgn : Bool) (x : Int) : BitVec w :=
  let lo : Int := if sgn then -(2 ^ (w - 1)) else 0
  let hi : Int := if sgn then 2 ^ (w - 1) - 1 else 2 ^ w - 1
  BitVec.ofInt w (if x < lo then lo else if hi < x then hi else x)

/-- A binary function of the class. -/
abbrev Fn2 := (w : Nat) → Bool → BitVec w → BitVec w → BitVec w

def fAdd : Fn2 := fun _ _ a b => a + b
def fSub : Fn2 := fun _ _ a b => a - b
def fAdds : Fn2 := fun w sgn a b => satTo w sgn (exact sgn a + exact sgn b)
def fSubs : Fn2 := fun w sgn a b => satTo w sgn (exact sgn a - exact sgn b)
def fMul : Fn2 := fun _ _ a b => a * b
def fMulh : Fn2 := fun w sgn a b => BitVec.ofInt w (exact sgn a * exact sgn b / 2 ^ w)

/-- DIV (R96). -/
def fDiv : Fn2 := fun w sgn a b =>
  if b = 0 then (if sgn && a.msb then 1 else BitVec.allOnes w)
  else BitVec.ofInt w (Int.tdiv (exact sgn a) (exact sgn b))

/-- REM (R96). -/
def fRem : Fn2 := fun w sgn a b =>
  if b = 0 then a else BitVec.ofInt w (Int.tmod (exact sgn a) (exact sgn b))

def fMin : Fn2 := fun _ sgn a b => if exact sgn a ≤ exact sgn b then a else b
def fMax : Fn2 := fun _ sgn a b => if exact sgn a ≤ exact sgn b then b else a
def fAnd : Fn2 := fun _ _ a b => a &&& b
def fOr : Fn2 := fun _ _ a b => a ||| b
def fXor : Fn2 := fun _ _ a b => a ^^^ b
def fAndn : Fn2 := fun _ _ a b => a &&& ~~~b
def fShl : Fn2 := fun w _ a b => if w ≤ b.toNat then 0 else a <<< b.toNat
def fShr : Fn2 := fun w _ a b => if w ≤ b.toNat then 0 else a >>> b.toNat
def fSha : Fn2 := fun w _ a b => a.sshiftRight (min b.toNat w)
def fRot : Fn2 := fun w _ a b => a.rotateLeft (b.toNat % w)

/-! The forms. -/

/-- A and B of a register form at width `w`. -/
def Span.opA (sp : Span) (x : RRR) (w : Nat) (l : Nat) : BitVec w := sp.src w (x.ctl.u || x.ka) x.a l
def Span.opB (sp : Span) (x : RRR) (w : Nat) (l : Nat) : BitVec w := sp.src w (x.ctl.u || x.kb) x.b l
def Span.opC (sp : Span) (x : RRR) (w : Nat) (l : Nat) : BitVec w := sp.src w x.ctl.u x.c l

/-- Write D in every lane that acts: a function of the lane's operands, read before any lane writes (R95). -/
def writeD (w : Nat) (u sgn : Bool) (d : BitVec 8) (f : Span → Nat → BitVec w) (i : Iss) (sp : Span) : Span :=
  (actOn u i.G).foldl (fun t l => t.dst w u sgn d l (f i.sp l)) sp

/-- A binary instruction, register form. -/
def bin (f : Fn2) (i : Instr) (x : RRR) (s : State) : Out :=
  let w := tyWidth x.ty
  regOp i {} (writeD w x.ctl.u (tySigned x.ty) x.d fun sp l => f w (tySigned x.ty) (sp.opA x w l) (sp.opB x w l)) s

/-- A binary instruction, immediate form (R58). -/
def binImm (f : Fn2) (i : Instr) (x : RIT) (s : State) : Out :=
  let w := tyWidth x.ty
  regOp i {} (writeD w x.ctl.u (tySigned x.ty) x.d fun sp l =>
    f w (tySigned x.ty) (sp.src w x.ctl.u x.a l) (immAt w (tySigned x.ty) x.imm)) s

/-- ADD (R95). -/
def execAdd (x : RRR) (s : State) : Out := bin fAdd (.add x) x s
/-- ADD, immediate form (R95). -/
def execAddImm (x : RIT) (s : State) : Out := binImm fAdd (.addImm x) x s

/-- SUB (R95). -/
def execSub (x : RRR) (s : State) : Out := bin fSub (.sub x) x s
/-- SUB, immediate form (R95). -/
def execSubImm (x : RIT) (s : State) : Out := binImm fSub (.subImm x) x s

/-- ADDS (R95). -/
def execAdds (x : RRR) (s : State) : Out := bin fAdds (.adds x) x s
/-- ADDS, immediate form (R95). -/
def execAddsImm (x : RIT) (s : State) : Out := binImm fAdds (.addsImm x) x s

/-- SUBS (R95). -/
def execSubs (x : RRR) (s : State) : Out := bin fSubs (.subs x) x s
/-- SUBS, immediate form (R95). -/
def execSubsImm (x : RIT) (s : State) : Out := binImm fSubs (.subsImm x) x s

/-- MUL (R95). -/
def execMul (x : RRR) (s : State) : Out := bin fMul (.mul x) x s
/-- MUL, immediate form (R95). -/
def execMulImm (x : RIT) (s : State) : Out := binImm fMul (.mulImm x) x s

/-- MULH (R95). -/
def execMulh (x : RRR) (s : State) : Out := bin fMulh (.mulh x) x s
/-- MULH, immediate form (R95). -/
def execMulhImm (x : RIT) (s : State) : Out := binImm fMulh (.mulhImm x) x s

/-- DIV (R96). -/
def execDiv (x : RRR) (s : State) : Out := bin fDiv (.div x) x s
/-- DIV, immediate form (R96). -/
def execDivImm (x : RIT) (s : State) : Out := binImm fDiv (.divImm x) x s

/-- REM (R96). -/
def execRem (x : RRR) (s : State) : Out := bin fRem (.rem x) x s
/-- REM, immediate form (R96). -/
def execRemImm (x : RIT) (s : State) : Out := binImm fRem (.remImm x) x s

/-- MIN (R95). -/
def execMin (x : RRR) (s : State) : Out := bin fMin (.min x) x s
/-- MIN, immediate form (R95). -/
def execMinImm (x : RIT) (s : State) : Out := binImm fMin (.minImm x) x s

/-- MAX (R95). -/
def execMax (x : RRR) (s : State) : Out := bin fMax (.max x) x s
/-- MAX, immediate form (R95). -/
def execMaxImm (x : RIT) (s : State) : Out := binImm fMax (.maxImm x) x s

/-- AND (R95). -/
def execAnd (x : RRR) (s : State) : Out := bin fAnd (.and x) x s
/-- AND, immediate form (R95). -/
def execAndImm (x : RIT) (s : State) : Out := binImm fAnd (.andImm x) x s

/-- OR (R95). -/
def execOr (x : RRR) (s : State) : Out := bin fOr (.or x) x s
/-- OR, immediate form (R95). -/
def execOrImm (x : RIT) (s : State) : Out := binImm fOr (.orImm x) x s

/-- XOR (R95). -/
def execXor (x : RRR) (s : State) : Out := bin fXor (.xor x) x s
/-- XOR, immediate form (R95). -/
def execXorImm (x : RIT) (s : State) : Out := binImm fXor (.xorImm x) x s

/-- ANDN (R95). -/
def execAndn (x : RRR) (s : State) : Out := bin fAndn (.andn x) x s
/-- ANDN, immediate form (R95). -/
def execAndnImm (x : RIT) (s : State) : Out := binImm fAndn (.andnImm x) x s

/-- SHL (R97). -/
def execShl (x : RRR) (s : State) : Out := bin fShl (.shl x) x s
/-- SHL, immediate form (R97). -/
def execShlImm (x : RIT) (s : State) : Out := binImm fShl (.shlImm x) x s

/-- SHR (R97). -/
def execShr (x : RRR) (s : State) : Out := bin fShr (.shr x) x s
/-- SHR, immediate form (R97). -/
def execShrImm (x : RIT) (s : State) : Out := binImm fShr (.shrImm x) x s

/-- SHA (R97). -/
def execSha (x : RRR) (s : State) : Out := bin fSha (.sha x) x s
/-- SHA, immediate form (R97). -/
def execShaImm (x : RIT) (s : State) : Out := binImm fSha (.shaImm x) x s

/-- ROT (R97). -/
def execRot (x : RRR) (s : State) : Out := bin fRot (.rot x) x s
/-- ROT, immediate form (R97). -/
def execRotImm (x : RIT) (s : State) : Out := binImm fRot (.rotImm x) x s

/-- MAD (R95). -/
def execMad (x : RRR) (s : State) : Out :=
  let w := tyWidth x.ty
  regOp (.mad x) {} (writeD w x.ctl.u (tySigned x.ty) x.d fun sp l => sp.opA x w l * sp.opB x w l + sp.opC x w l) s

/-- NEG (R95). -/
def execNeg (x : RRR) (s : State) : Out :=
  let w := tyWidth x.ty
  regOp (.neg x) {} (writeD w x.ctl.u true x.d fun sp l => -(sp.opA x w l)) s

/-- ABS (R95): the most negative value stays, because the slice wraps it. -/
def execAbs (x : RRR) (s : State) : Out :=
  let w := tyWidth x.ty
  regOp (.abs x) {} (writeD w x.ctl.u true x.d fun sp l => if (sp.opA x w l).msb then -(sp.opA x w l) else sp.opA x w l) s

/-- SEL (R98). -/
def execSel (x : RRR) (s : State) : Out :=
  let w := tyWidth x.ty
  regOp (.sel x) {} (writeD w x.ctl.u false x.d fun sp l =>
    if (if x.ctl.u then sp.q x.c.toNat else sp.p x.c.toNat l) != x.bit 0 then sp.opA x w l else sp.opB x w l) s

/-- MOV (R98). -/
def execMov (x : RRR) (s : State) : Out :=
  if x.ty = .b128 then
    regOp (.mov x) {} (fun i sp => i.G.foldl (fun t l => t.setV128 x.d.toNat l (i.sp.v128 x.a.toNat l)) sp) s
  else
    let w := tyWidth x.ty
    regOp (.mov x) {} (writeD w x.ctl.u false x.d fun sp l => sp.opA x w l) s

/-- The low n bits of a source extended to `w` bits (R99). -/
def extended (ty : Ty) (w : Nat) (a : BitVec 32) : BitVec w :=
  immAt w (tySigned ty) (a.setWidth (tyWidth ty))

/-- XTN (R99). A uniform form writes the 64-bit scalar with either destination width. -/
def execXtn (x : RRR) (s : State) : Out :=
  let w := if x.bit 0 || x.ctl.u then 64 else 32
  regOp (.xtn x) {} (writeD w x.ctl.u (tySigned x.ty) x.d fun sp l => extended x.ty w (sp.opA x 32 l)) s

/-- MOVI (R100). -/
def execMovi (x : RIW) (s : State) : Out :=
  if x.ctl.u then regOp (.movi x) {} (writeD 64 true true x.d fun _ _ => x.imm.signExtend 64) s
  else regOp (.movi x) {} (writeD 32 false true x.d fun _ _ => x.imm.signExtend 32) s

/-- Bits [16k+15:16k] of `old` replaced. -/
def putHalf {w : Nat} (old : BitVec w) (k : Nat) (h : BitVec 16) : BitVec w :=
  (old &&& ~~~((0xFFFF#w) <<< (16 * k))) ||| (h.setWidth w <<< (16 * k))

/-- MOVH (R100): D's other bits stay. -/
def execMovh (x : RIW) (s : State) : Out :=
  let k := x.a.toNat % 4
  if x.ctl.u then regOp (.movh x) {} (writeD 64 true false x.d fun sp _ => putHalf (sp.s x.d.toNat) k (x.imm.setWidth 16)) s
  else regOp (.movh x) {} (writeD 32 false false x.d fun sp l => putHalf (sp.v x.d.toNat l) k (x.imm.setWidth 16)) s

/-- LEA (R100). -/
def execLea (x : RIW) (s : State) : Out :=
  regOp (.lea x) {} (fun i sp => writeD 64 x.ctl.u false x.d (fun _ _ => i.a + 8 * x.imm.signExtend 64) i sp) s

end Sys2Proof.Machine
end

