-- ==== Sys2Proof/Machine/Lane.lean ====
section
/-! DEFINITION. Class 0x3: bit fields, bit counts, exchanges between lanes, special registers, indexed registers (R101 to
R108). -/

namespace Sys2Proof.Machine

/-! Bit fields (R101). -/

/-- Position, and the length that fits. -/
def bfSpan (w : Nat) (b : Nat) : Nat × Nat :=
  let pos := b % 256
  (pos, if w ≤ pos then 0 else min (b / 256 % 256) (w - pos))

/-- (log 18, DEDUCED) -/
def bfxOf {w : Nat} (sgn : Bool) (a b : BitVec w) : BitVec w :=
  let (pos, len) := bfSpan w b.toNat
  let f := a.toNat / 2 ^ pos % 2 ^ len
  if sgn && decide (0 < len) && decide (2 ^ (len - 1) ≤ f) then BitVec.ofInt w ((f : Int) - 2 ^ len) else BitVec.ofNat w f

/-- (log 18, DEDUCED) -/
def bfiOf {w : Nat} (a b c : BitVec w) : BitVec w :=
  let (pos, len) := bfSpan w b.toNat
  let mask : BitVec w := BitVec.ofNat w ((2 ^ len - 1) * 2 ^ pos)
  (c &&& ~~~mask) ||| ((a <<< pos) &&& mask)

/-- BFX (R101). -/
def execBfx (x : RRR) (s : State) : Out :=
  let w := tyWidth x.ty
  regOp (.bfx x) {} (writeD w x.ctl.u (tySigned x.ty) x.d fun sp l => bfxOf (tySigned x.ty) (sp.opA x w l) (sp.opB x w l)) s

/-- BFI (R101). -/
def execBfi (x : RRR) (s : State) : Out :=
  let w := tyWidth x.ty
  regOp (.bfi x) {} (writeD w x.ctl.u false x.d fun sp l => bfiOf (sp.opA x w l) (sp.opB x w l) (sp.opC x w l)) s

/-! Bit counts (R102). -/

def popcount {w : Nat} (a : BitVec w) : Nat := ((List.range w).filter fun i => a.getLsbD i).length
def leadingZeros {w : Nat} (a : BitVec w) : Nat := if a = 0 then w else w - 1 - a.toNat.log2

/-- POPC (R102). -/
def execPopc (x : RRR) (s : State) : Out :=
  let w := tyWidth x.ty
  regOp (.popc x) {} (writeD 32 x.ctl.u false x.d fun sp l => BitVec.ofNat 32 (popcount (sp.opA x w l))) s

/-- CLZ (R102). -/
def execClz (x : RRR) (s : State) : Out :=
  let w := tyWidth x.ty
  regOp (.clz x) {} (writeD 32 x.ctl.u false x.d fun sp l => BitVec.ofNat 32 (leadingZeros (sp.opA x w l))) s

/-- BREV (R102). -/
def execBrev (x : RRR) (s : State) : Out :=
  let w := tyWidth x.ty
  regOp (.brev x) {} (writeD w x.ctl.u false x.d fun sp l => (sp.opA x w l).reverse) s

/-! Exchanges between lanes (R103 to R106). -/

/-- The registers that an FJOIN in progress is to write (R106). -/
def Lane.awaits (ln : Lane) : List Nat :=
  match ln.st, ln.wait with
  | .waiting, some (.join j) => run j.reg j.n
  | _, _ => []

/-- The test of R106: a register of these is pending, or awaited by FJOIN, in one of these lanes. (log 24, DEDUCED) -/
def Span.crossPending (sp : Span) (regs lanes : List Nat) : Bool :=
  sp.results.any (·.hits { v := regs } lanes) || lanes.any fun l => (sp.lane l).awaits.any (regs.contains ·)

/-- The source lane of SHFL (R103): `mode`, segment width `n`, the lane and its amount. -/
def shflSrc (mode n l k : Nat) : Nat :=
  let base := l - l % n
  match mode with
  | 0 => base + k % n
  | 1 => if k ≤ l - base then l - k else l
  | 2 => if l + k < base + n then l + k else l
  | _ => base + ((l - base) ^^^ (k % n))

def shflFrom (x : RRR) (sp : Span) (l : Nat) : Nat :=
  shflSrc x.lo2 (2 ^ (x.f6.toNat / 4 % 8)) l (sp.src 32 x.kb x.b l).toNat

/-- SHFL (R103, R106). (log 24, DEDUCED) -/
def execShfl (x : RRR) (s : State) : Out :=
  let w := tyWidth x.ty
  regOp (.shfl x)
    { unsync := fun _ i => i.sp.crossPending (run x.a.toNat x.ty.regs) (i.G.map (shflFrom x i.sp)) }
    (writeD w false false x.d fun sp l => sp.src w false x.a (shflFrom x sp l)) s

/-- The reduction of REDS over the lanes of J (R104). -/
def redsOf (w : Nat) (op : Nat) (sgn : Bool) (vs : List (BitVec w)) : BitVec w :=
  match op with
  | 0 => vs.foldl (· + ·) 0
  | 1 => vs.foldl (fMin w sgn) (BitVec.ofInt w (if sgn then 2 ^ (w - 1) - 1 else 2 ^ w - 1))
  | 2 => vs.foldl (fMax w sgn) (BitVec.ofInt w (if sgn then -(2 ^ (w - 1)) else 0))
  | 3 => vs.foldl (· &&& ·) (BitVec.allOnes w)
  | 4 => vs.foldl (· ||| ·) 0
  | _ => vs.foldl (· ^^^ ·) 0

/-- REDS (R104). -/
def execReds (x : RRR) (s : State) : Out :=
  let w := tyWidth x.ty
  regOp (.reds x) {} (fun i sp =>
    sp.dst w true (tySigned x.ty) x.d 0 (redsOf w x.lo3 (tySigned x.ty) (i.G.map fun l => i.sp.src w false x.a l))) s

/-- The lane index of RDLN and WRLN (R105). -/
def laneIndex (x : RRR) (sp : Span) : Nat := if x.bit 5 then x.f6.toNat % 32 else (sp.s x.b.toNat).toNat % 32

/-- RDLN (R105, R106). -/
def execRdln (x : RRR) (s : State) : Out :=
  let w := tyWidth x.ty
  regOp (.rdln x) { unsync := fun _ i => i.sp.crossPending (run x.a.toNat x.ty.regs) [laneIndex x i.sp] }
    (fun i sp => sp.dst w true false x.d 0 (i.sp.src w false x.a (laneIndex x i.sp))) s

/-- WRLN (R105, R106): lane L whatever its state. -/
def execWrln (x : RRR) (s : State) : Out :=
  let w := tyWidth x.ty
  regOp (.wrln x) { unsync := fun _ i => i.sp.crossPending (run x.d.toNat x.ty.regs) [laneIndex x i.sp] }
    (fun i sp => sp.dst w false false x.d (laneIndex x i.sp) (i.sp.src w true x.a 0)) s

/-! Special registers (R107). -/

/-- State codes of 16 lanes from lane `l`, 4 bits each. -/
def stateCodes (sp : Span) (l : Nat) : Nat := ((List.range 16).map fun i => (sp.lane (l + i)).st.code * 2 ^ (4 * i)).sum

/-- The value of a special register in a lane (R107). -/
def State.special (s : State) (i : Iss) (idx l : Nat) : Nat :=
  let sp := i.sp
  match idx with
  | 0x00 => l
  | 0x01 => (sp.lane l).depth
  | 0x02 => i.a.toNat
  | 0x03 => (i.I.map (2 ^ ·)).sum
  | 0x04 => maskOf sp LaneState.ended
  | 0x05 => stateCodes sp 0
  | 0x06 => stateCodes sp 16
  | 0x07 => sp.budget
  | 0x08 => sp.slot + 2 ^ 8 * (sp.pier % Config.piersPerDie) + 2 ^ 16 * sp.die + 2 ^ 24 * sp.part
  | 0x09 => sp.bidx
  | 0x0A => sp.idx
  | 0x0B => sp.role
  | 0x0C => sp.hmode.toNat
  | 0x0D => sp.fseq
  | 0x0E => sp.landFree
  | 0x0F => Config.spanSlots - sp.ferry.length
  | 0x10 => match s.block? sp.block with | some k => k.bytes | none => 0
  | 0x11 => match sp.cause with | some c => c.code | none => 0
  | _ => sp.spantag.toNat

/-- MFS (R107). -/
def execMfs (x : RRR) (s : State) : Out :=
  issue (.mfs x) {} (fun t i =>
    let value := fun l => BitVec.ofNat 64 (t.special i x.a.toNat l)
    let sp := i.G.foldl (fun u l =>
      if specialWidth x.a.toNat = some 64 then u.setV64 x.d.toNat l (value l)
      else u.setV x.d.toNat l ((value l).setWidth 32)) i.moved
    t.putSpan sp) s

/-- MTS (R107): spantag is the one writable special register. -/
def execMts (x : RRR) (s : State) : Out :=
  regOp (.mts x) {} (fun i sp => { sp with spantag := (i.sp.s x.a.toNat).setWidth 32 }) s

/-! Indexed registers (R108). -/

/-- An index of R108: the lane's own register value. -/
def indexIn (sp : Span) (f : BitVec 8) (l : Nat) : Nat := (sp.v f.toNat l).toNat

/-- The causes of R108 after those of R66: an index past the budget where the guard is true, then a pending register that an index
names in any issuing lane, as R65 counts named registers. -/
def indexCause (f : BitVec 8) (_ : State) (i : Iss) : Option Cause :=
  if i.G.any (fun l => decide (i.sp.budget ≤ indexIn i.sp f l)) then some .regbud
  else if i.I.any (fun l => i.sp.results.any (·.hits { v := [indexIn i.sp f l] } [l])) then some .unsync
  else none

/-- RDIX (R108). -/
def execRdix (x : RRR) (s : State) : Out :=
  regOp (.rdix x) { own := indexCause x.a }
    (fun i sp => i.G.foldl (fun t l => t.setV x.d.toNat l (i.sp.v (indexIn i.sp x.a l) l)) sp) s

/-- WRIX (R108). -/
def execWrix (x : RRR) (s : State) : Out :=
  regOp (.wrix x) { own := indexCause x.d }
    (fun i sp => i.G.foldl (fun t l => t.setV (indexIn i.sp x.d l) l (i.sp.src 32 x.ka x.a l)) sp) s

end Sys2Proof.Machine
end

