-- ==== Sys2Proof/Machine/FloatOps.lean ====
section
/-! DEFINITION. Class 0x7: float operations (R263 to R269). -/

namespace Sys2Proof.Machine

/-- A function on bit patterns, applied to each element of the operands (R225, R264). -/
def eachElem (ty : Ty) (f : Nat → Nat → Nat → Nat) (a b c : BitVec 32) : BitVec 32 :=
  let lo := fun (x : BitVec 32) => x.toNat % 65536
  let hi := fun (x : BitVec 32) => x.toNat / 65536
  if packed ty then BitVec.ofNat 32 (f (lo a) (lo b) (lo c) + 65536 * f (hi a) (hi b) (hi c))
  else if ty = .f32 then BitVec.ofNat 32 (f a.toNat b.toNat c.toNat)
  else BitVec.ofNat 32 (f (lo a) (lo b) (lo c))

/-- The operands A, B and C of a lane: B and C are 0 where the instruction has none. -/
def floatArgs (f : BitVec 32 → BitVec 32 → BitVec 32 → BitVec 32) (x : RRR) (sp : Span) (l : Nat) : BitVec 32 :=
  f (sp.src 32 x.ka x.a l) (sp.src 32 x.kb x.b l) (sp.v x.c.toNat l)

/-- A float instruction with an interlocked result. -/
def floatOp (i : Instr) (x : RRR) (f : BitVec 32 → BitVec 32 → BitVec 32 → BitVec 32) (s : State) : Out :=
  regOp i {} (fun i sp => i.G.foldl (fun t l => t.setV x.d.toNat l (floatArgs f x i.sp l)) sp) s

/-- A float instruction with a pending result. -/
def floatPending (i : Instr) (x : RRR) (f : BitVec 32 → BitVec 32 → BitVec 32 → BitVec 32) (s : State) : Out :=
  regOp i {} (fun i sp => i.G.foldl (fun t l =>
    t.pend { id := 0, lane := some l, vreg := some (x.d.toNat, 1), val := (floatArgs f x i.sp l).setWidth 128 }) sp) s

/-- FADD (R264, R265). -/
def execFadd (x : RRR) (s : State) : Out :=
  floatOp (.fadd x) x (eachElem x.ty fun a b _ => fadd (fmtOf x.ty) x.hi3 a b) s

/-- FSUB (R264, R265). -/
def execFsub (x : RRR) (s : State) : Out :=
  floatOp (.fsub x) x (eachElem x.ty fun a b _ => fsub (fmtOf x.ty) x.hi3 a b) s

/-- FMUL (R264, R265). -/
def execFmul (x : RRR) (s : State) : Out :=
  floatOp (.fmul x) x (eachElem x.ty fun a b _ => fmul (fmtOf x.ty) x.hi3 a b) s

/-- FFMA (R264, R265): `.nc` is F6[0], `.np` F6[1]. -/
def execFfma (x : RRR) (s : State) : Out :=
  floatOp (.ffma x) x (eachElem x.ty fun a b c => ffma (fmtOf x.ty) x.hi3 (x.bit 0) (x.bit 1) a b c) s

/-- FMIN (R266). -/
def execFmin (x : RRR) (s : State) : Out :=
  floatOp (.fmin x) x (eachElem x.ty fun a b _ => fminmax (fmtOf x.ty) false (!x.bit 0) a b) s

/-- FMAX (R266). -/
def execFmax (x : RRR) (s : State) : Out :=
  floatOp (.fmax x) x (eachElem x.ty fun a b _ => fminmax (fmtOf x.ty) true (!x.bit 0) a b) s

/-- FDIV (R264, R265). -/
def execFdiv (x : RRR) (s : State) : Out :=
  floatPending (.fdiv x) x (eachElem x.ty fun a b _ => fdiv (fmtOf x.ty) x.hi3 a b) s

/-- FSQRT (R264, R265). -/
def execFsqrt (x : RRR) (s : State) : Out :=
  floatPending (.fsqrt x) x (eachElem x.ty fun a _ _ => fsqrt (fmtOf x.ty) x.hi3 a) s

/-- FRCP (R264, R265). -/
def execFrcp (x : RRR) (s : State) : Out :=
  floatPending (.frcp x) x (eachElem x.ty fun a _ _ => frcp (fmtOf x.ty) x.hi3 a) s

/-- FRSQ (R264, R265). -/
def execFrsq (x : RRR) (s : State) : Out :=
  floatPending (.frsq x) x (eachElem x.ty fun a _ _ => frsq (fmtOf x.ty) x.hi3 a) s

/-- FEX2 (R264, R265). -/
def execFex2 (x : RRR) (s : State) : Out :=
  floatPending (.fex2 x) x (eachElem x.ty fun a _ _ => fex2 (fmtOf x.ty) x.hi3 a) s

/-- FLG2 (R264, R265). -/
def execFlg2 (x : RRR) (s : State) : Out :=
  floatPending (.flg2 x) x (eachElem x.ty fun a _ _ => flg2 (fmtOf x.ty) x.hi3 a) s

/-- FCLS (R268). -/
def execFcls (x : RRR) (s : State) : Out :=
  floatOp (.fcls x) x (eachElem x.ty fun a _ _ => fcls (fmtOf x.ty) a) s

/-- FRND (R269). -/
def execFrnd (x : RRR) (s : State) : Out :=
  floatOp (.frnd x) x (eachElem x.ty fun a _ _ => frnd (fmtOf x.ty) x.hi3 a) s

/-- FDOT2 (R267). -/
def execFdot2 (x : RRR) (s : State) : Out :=
  floatOp (.fdot2 x) x (fun a b c => BitVec.ofNat 32 (fdot2 (fmtOf x.ty) x.hi3 a.toNat b.toNat c.toNat)) s

end Sys2Proof.Machine
end

