-- ==== Sys2Proof/Machine/Convert.lean ====
section
/-! DEFINITION. Class 0x8: conversion, random numbers, packing (R243, R270 to R275). -/

namespace Sys2Proof.Machine

def isFloatTy (t : Ty) : Bool := floats.contains t

/-- CVT mode 0 on the bits of a source (R271). -/
def cvtBits (dt st : Ty) (mode : Nat) (x : BitVec 64) : BitVec 64 :=
  if isFloatTy st then
    let f := fmtOf st
    if isFloatTy dt then BitVec.ofNat 64 (convert f (fmtOf dt) mode x.toNat)
    else (BitVec.ofInt (tyWidth dt) (toInteger f mode (tyWidth dt) (tySigned dt) x.toNat)).setWidth 64
  else
    let v : Int := if tySigned st then (x.setWidth (tyWidth st)).toInt else (x.setWidth (tyWidth st)).toNat
    BitVec.ofNat 64 (ofInteger (fmtOf dt) mode v)

/-- Uniform values of a random word (R243). -/
def uniform01 (open_ : Bool) (u : BitVec 32) : Nat :=
  fp32.round 0 false (if open_ then 2 * (u.toNat / 512) + 1 else u.toNat / 256) (-24)

/-- Modes 1 to 4 of CVT (R272), from A and B. -/
def cvtSpecial (x : RRR) (a b : BitVec 32) : Nat :=
  let e := b.toNat % 256
  match x.lo3 with
  | 1 => uniform01 false a
  | 2 => uniform01 true a
  | 3 => blockToF32 (bqValue (x.c.toNat % 16 + 1) (x.c.getLsbD 4) a.toNat e) e
  | _ => blockToF32 (l6Value (a.toNat % 64) e) e

/-- CVT (R270 to R272). -/
def execCvt (x : RRR) (s : State) : Out :=
  regOp (.cvt x) {} (fun i sp =>
    if x.lo3 = 0 then
      let st := (cvtSrc x).getD .f32
      let dw := if isFloatTy x.ty then 32 else tyWidth x.ty
      let sw := if isFloatTy st then 32 else tyWidth st
      i.G.foldl (fun t l =>
        let r := cvtBits x.ty st x.hi3 ((i.sp.src sw x.ka x.a l).setWidth 64)
        if dw = 64 then t.setV64 x.d.toNat l r else t.setV x.d.toNat l (r.setWidth 32)) sp
    else i.G.foldl (fun t l =>
      t.setV x.d.toNat l (BitVec.ofNat 32 (cvtSpecial x (i.sp.src 32 x.ka x.a l) (i.sp.src 32 x.kb x.b l)))) sp) s

/-- The rounds of RNG (R273): the four counter words, low word first, and the two key words. -/
def philox : Nat → VWord → VWord → VWord → VWord → VWord → VWord → BitVec 128
  | 0, c0, c1, c2, c3, _, _ => c3 ++ c2 ++ c1 ++ c0
  | n + 1, c0, c1, c2, c3, k0, k1 =>
    let p0 : Word := (0xD2511F53#32).setWidth 64 * c0.setWidth 64
    let p1 : Word := (0xCD9E8D57#32).setWidth 64 * c2.setWidth 64
    philox n (p1.extractLsb' 32 32 ^^^ c1 ^^^ k0) (p1.setWidth 32) (p0.extractLsb' 32 32 ^^^ c3 ^^^ k1) (p0.setWidth 32)
      (k0 + 0x9E3779B9#32) (k1 + 0xBB67AE85#32)

/-- RNG (R273). -/
def execRng (x : RRR) (s : State) : Out :=
  regOp (.rng x) {} (fun i sp => i.G.foldl (fun t l =>
    let a := x.a.toNat
    let k := i.sp.src 64 x.kb x.b l
    t.setV128 x.d.toNat l (philox (if x.bit 0 then 7 else 10) (i.sp.v a l) (i.sp.v (a + 1) l) (i.sp.v (a + 2) l) (i.sp.v (a + 3) l)
      (k.setWidth 32) (k.extractLsb' 32 32))) sp) s

/-- sat of R274: a value read as .s32, clamped to a type of `w` bits. -/
def satBits (w : Nat) (sgn : Bool) (a : BitVec 32) : BitVec w := satTo w sgn a.toInt

/-- PACK of two operands over the old destination (R274). -/
def packBits (ty : Ty) (mode : Nat) (hi : Bool) (old a b : BitVec 32) : BitVec 32 :=
  match ty with
  | .f16x2 | .bf16x2 =>
    BitVec.ofNat 32 (convert fp32 (fmtOf ty) mode a.toNat + 65536 * convert fp32 (fmtOf ty) mode b.toNat)
  | .s16 | .n16 => satBits 16 (tySigned ty) b ++ satBits 16 (tySigned ty) a
  | .s8 | .n8 => putHalf old (if hi then 1 else 0) (satBits 8 (tySigned ty) b ++ satBits 8 (tySigned ty) a)
  | _ => b.setWidth 16 ++ a.setWidth 16

/-- PACK (R274). -/
def execPack (x : RRR) (s : State) : Out :=
  regOp (.pack x) {} (fun i sp => i.G.foldl (fun t l =>
    t.setV x.d.toNat l (packBits x.ty x.hi3 (x.bit 0) (i.sp.v x.d.toNat l) (i.sp.src 32 x.ka x.a l) (i.sp.src 32 x.kb x.b l))) sp) s

/-- UNPK of element k (R275). -/
def unpkBits (ty : Ty) (k : Nat) (a : BitVec 32) : BitVec 32 :=
  let h := (a >>> (16 * k)).setWidth 16
  let q := (a >>> (8 * k)).setWidth 8
  match ty with
  | .f16x2 | .bf16x2 => BitVec.ofNat 32 (convert (fmtOf ty) fp32 0 h.toNat)
  | .s8 => q.signExtend 32
  | .n8 => q.setWidth 32
  | .s16 => h.signExtend 32
  | _ => h.setWidth 32

/-- UNPK (R275). -/
def execUnpk (x : RRR) (s : State) : Out :=
  regOp (.unpk x) {} (fun i sp => i.G.foldl (fun t l =>
    t.setV x.d.toNat l (unpkBits x.ty (x.f6.toNat % 4) (i.sp.src 32 x.ka x.a l))) sp) s

end Sys2Proof.Machine
end

