-- ==== Sys2Proof/Machine/Access.lean ====
section
/-! DEFINITION. Accesses to memory, shared by classes 0x4 and 0x5: the address check (R18, R121, R127), the requests of an
instruction and their boarding (R125 to R128), the watches of WAITA (R197, R198), and what a request does at its point of
performance (R112, R114, R126, R161, R178, R184 to R191). -/

namespace Sys2Proof.Machine

/-! Sizes, permissions and fault kinds. -/

/-- Bytes of a SIZE code (R60). -/
def sizeBytes (n : BitVec 3) : Nat :=
  match n.toNat with
  | 0 | 5 => 1
  | 1 | 6 => 2
  | 2 => 4
  | 3 => 8
  | _ => 16

def sizeSigned (n : BitVec 3) : Bool := n = 5 || n = 6

/-- What the access needs of its pages (R122). -/
def AccOp.need (o : AccOp) : Need :=
  { rd := o ≠ .store && o ≠ .stl, wr := o.writes }

/-- A read-modify-write at the home copy (R189). -/
def AccOp.isRmw (o : AccOp) : Bool := o = .red || o = .atom || o = .cas

/-- KIND of the fault record (R21). -/
def AccOp.faultKind (o : AccOp) : Nat :=
  match o with
  | .load | .lda | .waita => 0
  | .store | .stl => 1
  | .red | .sred | .atom | .cas => 2

def log2Size (n : Nat) : Nat := n.log2

/-- MISALIGN (R18). -/
def Access.misaligned (a : Access) : Bool :=
  (a.order ≠ .plain || (a.op ≠ .load && a.op ≠ .store)) && decide (a.ea % a.size ≠ 0)

/-! The check. -/

/-- A page part that passes: its address and length, the key of its first byte, the page's kind. -/
structure Piece where
  va    : Nat
  len   : Nat
  key   : Nat
  pkind : PKind
  deriving DecidableEq, Repr

/-- The outcome of an access's check (R127). -/
inductive Verdict where
  | wait
  | pass (ps : List Piece)
  | park (why : Park) (pages : List Nat)
  | fatal (cause : Cause) (part : Nat)
  deriving DecidableEq, Repr

/-- The verdict over the outcomes of the page parts, in address order (R127). -/
def verdict (outs : List ((Nat × Nat) × XOut)) : Verdict :=
  let fatals := (imap (fun i (o : (Nat × Nat) × XOut) => match o.2 with | .fatal c => some (c, i) | _ => none) 0 outs).filterMap id
  let parks := outs.filterMap fun o => match o.2 with | .park w => some (w, o.1.1 / 65536 * 65536) | _ => none
  match fatals, parks with
  | (c, i) :: _, _ => .fatal c i
  | [], (w, _) :: _ => .park w (parks.map (·.2))
  | [], [] => .pass (outs.filterMap fun o => match o.2 with | .pass k kind => some ⟨o.1.1, o.1.2, k, kind⟩ | _ => none)

/-- The check at issue: by the TLBs alone, or it waits for a walk (R18). -/
def State.checkNow (s : State) (pier : Nat) (cx : Context) (a : Access) : Verdict :=
  if a.misaligned then .fatal .misalign 0
  else
    let outs := (pagePieces a.ea a.size).map fun p => (p, s.tlbLook pier cx p.1 a.op.need)
    if outs.any (·.2.isNone) then .wait
    else verdict (outs.filterMap fun o => o.2.map fun x => (o.1, x))

/-- Does the walk of a check meet a held line: its request bounces there, and the walk returns once the line is released (R109)? (log 46,
DEDUCED) -/
def State.checkHeld (s : State) (pier : Nat) (cx : Context) (a : Access) : Bool :=
  (pagePieces a.ea a.size).any fun p => s.seekHeld (some pier) cx p.1 a.op.need

/-- The check when its walk returns. -/
def State.checkWalk (s : State) (pier : Nat) (cx : Context) (a : Access) : State × Verdict :=
  let (s1, outs) := (pagePieces a.ea a.size).foldl (fun (acc : State × List ((Nat × Nat) × XOut)) p =>
    let (t, x) := acc.1.seek (some pier) cx p.1 a.op.need
    (t, acc.2 ++ [(p, x)])) (s, [])
  (s1, verdict outs)

/-! Requests (R125). -/

/-- The lines of a piece, as parts of the access: virtual line, physical line, kind, part. -/
def lineParts (a : Access) (p : Piece) : List (Nat × Nat × PKind × Part) :=
  (pieces 64 4 p.va p.len).map fun q =>
    (q.1 / 64, lineOf (p.key + (q.1 - p.va)), p.pkind,
      ⟨a, q.1 % 64, ((BitVec.ofNat 64 q.1) - (BitVec.ofNat 64 a.ea)).toNat, q.2⟩)

/-- Add a part to a request, its lanes in ascending order: the byte of the highest stands (R126). -/
def insertPart (p : Part) : List Part → List Part
  | [] => [p]
  | q :: r => if p.acc.lane.getD 0 < q.acc.lane.getD 0 then p :: q :: r else q :: insertPart p r

/-- Add a part to the requests of its instruction, one request for each line, in ascending line order. -/
def addPart (proto : Entry) (x : Nat × Nat × PKind × Part) : List Entry → List Entry
  | [] => [{ proto with vline := x.1, pline := x.2.1, pkind := x.2.2.1, parts := [x.2.2.2] }]
  | e :: r =>
    if e.vline = x.1 ∧ e.pline = x.2.1 then { e with parts := insertPart x.2.2.2 e.parts } :: r
    else if x.1 < e.vline then { proto with vline := x.1, pline := x.2.1, pkind := x.2.2.1, parts := [x.2.2.2] } :: e :: r
    else e :: addPart proto x r

/-- What the requests of an access have in common. -/
def protoEntry (a : Access) : Entry :=
  { slot := 0, seq := a.seq, st := .inflight, op := .mem, order := a.order, scope := a.scope, u := a.u, write := a.op.writes }

/-- The lines of an instruction, which are its requests (R125). -/
def linesOf (as_ : List Access) : Nat := ((as_.map Access.vlines).flatten.eraseDups).length

/-- The landing entries that an instruction's requests need before it issues: one each, and all of them for more than 32 (R128).
(log 32, DEDUCED) -/
def entriesFor (as_ : List Access) : Nat := min Config.landing (linesOf as_)

/-- Is there room for an instruction's requests (R128)? (log 32, DEDUCED) -/
def Span.room (sp : Span) (as_ : List Access) : Bool := decide (entriesFor as_ ≤ sp.landFree)

/-- May a memory instruction that needs `n` entries issue (R111, R115, R128)? (log 32, DEDUCED) -/
def Span.memReady (sp : Span) (n : Nat) : Bool := !sp.memHeld && decide (n ≤ sp.landFree)

/-- May a deck instruction that needs `n` entries issue: only an ATOMD needs any? (log 32, DEDUCED) -/
def Span.deckReady (sp : Span) (n : Nat) : Bool := !sp.deckHeld && decide (n ≤ sp.landFree)

/-- The entries that it waits for when it may not. (log 32, DEDUCED) -/
def Span.memWant (sp : Span) (n : Nat) : Nat := if n ≤ sp.landFree then 0 else n

/-! Results of requests. -/

/-- The value that a load or an atomic writes, extended as its size says (R60, R76, R184). -/
def Access.fill (a : Access) (raw : BitVec 128) : BitVec 128 :=
  if a.sgn then (if a.size = 1 then (raw.setWidth 8).signExtend 128 else if a.size = 2 then (raw.setWidth 16).signExtend 128
    else if a.size = 4 then (raw.setWidth 32).signExtend 128 else raw)
  else raw

/-- The result that an access starts, and the register or pair it goes to. -/
def Access.result (a : Access) (d : Nat) (id : Nat) : Result :=
  match a.lane with
  | some l => { id := id, lane := some l, vreg := some (d, if a.size = 16 then 4 else if a.size = 8 then 2 else 1), need := 1 }
  | none => { id := id, lane := none, sreg := some d, need := 1 }

def Span.onResult (sp : Span) (id : Nat) (f : Result → Result) : Span :=
  { sp with results := sp.results.map fun r => if r.id = id then f r else r }

/-- Bytes arrive for a part: they join the value, and the last one extends it. -/
def Span.deliver (sp : Span) (p : Part) (bytes : Nat) : Span :=
  match p.acc.res with
  | none => sp
  | some id => sp.onResult id fun r =>
      let raw := r.val ||| BitVec.ofNat 128 (bytes * 2 ^ (8 * p.skip))
      { r with need := r.need - 1, val := if r.need ≤ 1 then p.acc.fill raw else raw }

/-- An access that will not be made starts nothing. -/
def Span.withdraw (sp : Span) (a : Access) : Span :=
  { sp with
    results := match a.res with | some r => sp.results.filter (·.id ≠ r) | none => sp.results
    ilock := match a.res with | some r => sp.ilock.filter (·.1 ≠ r) | none => sp.ilock }

/-- The result predicate of STL, per lane or of the span. -/
def Span.putPd (sp : Span) (a : Access) (b : Bool) : Span :=
  match a.pd, a.lane with
  | some r, some l => sp.setP r l b
  | some r, none => sp.setQ r b
  | none, _ => sp

/-! The outcome of a check (R18, R19, R28). -/

/-- The lanes of an access that has passed go on, or watch. -/
def Span.passLanes (sp : Span) (lanes : List Nat) (a : Access) (watch : Option Watch) : Span :=
  match watch with
  | none => sp.onLanes lanes Lane.go
  | some w => sp.onLanes lanes fun ln =>
      { ln with st := .waiting, wait := some (.watch { w with acc := a, cmp := a.data2, reading := true, wake := false, line := none }) }

/-- A fault of an access in the lanes that take it, in ascending order. -/
def State.faultLanes (s : State) (id : Nat) (lanes : List Nat) (a : Access) (c : Cause) (part : Nat) : State :=
  lanes.foldl (fun t l =>
    match t.span? id with
    | none => t
    | some sp => t.faultLane id l c a.op.faultKind (log2Size a.size) part (BitVec.ofNat 64 a.ea) (sp.lane l).pc) s

/-- What an access's verdict does to its lanes; a passed access is then to be sent. -/
def State.settleVerdict (s : State) (id : Nat) (lanes : List Nat) (a : Access) (watch : Option Watch) (v : Verdict) : State :=
  match v with
  | .wait => s
  | .pass _ => s.onSpan id (·.passLanes lanes a watch)
  | .park why pages => lanes.foldl (fun t l => t.parkLane id l why pages) (s.onSpan id (·.withdraw a))
  | .fatal c part => (s.onSpan id (·.withdraw a)).faultLanes id lanes a c part

/-- The reservation that decides an STL (R185). -/
def Span.armedOn (sp : Span) (a : Access) (line : Nat) : Bool :=
  match a.lane with
  | some l => (sp.lane l).resv = some line
  | none => sp.resv = some line

def Span.disarm (sp : Span) (a : Access) : Span :=
  match a.lane with
  | some l => sp.onLane l fun ln => { ln with resv := none }
  | none => { sp with resv := none }

/-- An STL that has passed: its reservation decides whether it is sent, and is spent. -/
def Span.decideStl (sp : Span) (a : Access) (ps : List Piece) : Span × Option Access :=
  if a.op ≠ .stl then (sp, some a)
  else match ps with
    | p :: _ =>
      if sp.armedOn a (lineOf p.key) then (sp.disarm a, some { a with armed := true })
      else (((sp.putPd a false).withdraw a).disarm a, none)
    | [] => (sp, none)

/-- Can a lane of the same instruction, whose address check still waits, bring bytes to this request (R114, R125)? -/
def Span.stillReached (sp : Span) (e : Entry) : Bool :=
  sp.checks.any fun c => c.seq = e.seq && c.accs.any (·.vlines.contains e.vline)

/-- Requests that no other lane of their instruction can reach any more are sent. (log 22, DEDUCED) -/
def Span.sendJoined (sp : Span) : Span :=
  { sp with joining := sp.joining.filter sp.stillReached, unsent := sp.unsent ++ sp.joining.filter (!sp.stillReached ·) }

/-- The passed accesses of an instruction become requests, one for each line (R125, R128). -/
def Span.send (sp : Span) (as_ : List (Access × List Piece)) : Span :=
  let (sp1, go) := as_.foldl (fun (acc : Span × List (Access × List Piece)) x =>
    match acc.1.decideStl x.1 x.2 with
    | (t, some a) => (t, acc.2 ++ [(a, x.2)])
    | (t, none) => (t, acc.2)) (sp, [])
  let parts := (go.map fun x => (x.2.map (lineParts x.1)).flatten).flatten
  let counted := go.foldl (fun (t : Span) x => match x.1.res with
    | some r => t.onResult r fun q => { q with need := ((x.2.map (lineParts x.1)).flatten).length }
    | none => t) sp1
  match go with
  | [] => counted.sendJoined
  | (a, _) :: _ =>
    let mine := counted.joining.filter (·.seq = a.seq)
    ({ counted with joining := counted.joining.filter (·.seq ≠ a.seq) ++ parts.foldl (fun es p => addPart (protoEntry a) p es) mine } : Span).sendJoined

/-- The pages of an access: accesses with the same pages wait for the same walks. -/
def Access.pages (a : Access) : List Nat := (pagePieces a.ea a.size).map (·.1 / 65536)

/-- Put an access that waits into the check of its pages. (log 22, DEDUCED) -/
def joinCheck (lanes : List Nat) (a : Access) (watch : Option Watch) (id : Nat) : List Check → List Check
  | [] => [{ id := id, seq := a.seq, lanes := lanes, accs := [a], watch := watch }]
  | c :: r =>
    if c.seq = a.seq ∧ c.accs.head?.map Access.pages = some a.pages then { c with lanes := c.lanes ++ lanes, accs := c.accs ++ [a] } :: r
    else c :: joinCheck lanes a watch id r

/-- The accesses of an instruction, each with the lanes that take its outcome: one for a uniform word. -/
def jobs (u : Bool) (i : Iss) (mk : Nat → Access) : List (List Nat × Access) :=
  if u then (if i.G.isEmpty then [] else [(i.I, { mk 0 with lane := none })])
  else i.G.map fun l => ([l], { mk l with lane := some l })

/-- Number the accesses of an instruction: one sequence number for all, and a number for each one's result. -/
def numbered (seq : Nat) (hasRes : Bool) (js : List (List Nat × Access)) : List (List Nat × Access) :=
  imap (fun k (j : List Nat × Access) => (j.1, { j.2 with seq := seq, res := if hasRes then some (seq + 1 + k) else none })) 0 js

/-- THE ACCESSES OF ONE ISSUE: the checks that hit, the lanes that wait for walks, the requests. `d` is the register that
receives results; an STL's result is interlocked. (log 22, DEDUCED) -/
def State.access (s : State) (i : Iss) (d : Option Nat) (watch : Option Watch) (js : List (List Nat × Access)) : State :=
  match s.ctx? i.sp.ctx with
  | none => s
  | some cx =>
    let stl := js.any (·.2.op = .stl)
    let stores := js.any fun j => j.2.op.writes && j.2.op ≠ .sred
    let ns := (numbered i.sp.seq (d.isSome || stl) js).map fun j => (j.1, if stores then { j.2 with fences := i.sp.relFence } else j.2)
    let acting := (ns.map (·.1)).flatten
    let sp0 := i.sp.onLanes (i.I.filter (!acting.contains ·)) fun ln => { ln with pc := i.a + 8 }
    let starts := ns.filterMap fun j => match d, j.2.res with | some r, some n => some (j.2.result r n) | _, _ => none
    let locks := ns.filterMap fun j => match j.2.pd, j.2.res, stl with
      | some r, some n, true => some (n, match j.2.lane with | some l => RegRef.p l r | none => RegRef.q r)
      | _, _, _ => none
    let vs := ns.map fun j => (j, s.checkNow i.sp.pier cx j.2)
    let waits := vs.filter (·.2 = .wait)
    let next := i.sp.seq + 1 + ns.length
    let checks := waits.foldl (fun cs v => joinCheck v.1.1 v.1.2 watch (next + cs.length) cs) []
    let writes := stores && !stl && vs.any fun v => match v.2 with | .pass _ => true | _ => false
    let sp1 : Span := { sp0 with
      relFence := if writes then [] else sp0.relFence
      bulk := if Config.landing < linesOf (ns.map (·.2)) then some i.sp.seq else sp0.bulk
      seq := next + checks.length, results := sp0.results ++ starts, ilock := sp0.ilock ++ locks, checks := sp0.checks ++ checks }
    let sp2 := checks.foldl (fun t c => t.onLanes c.lanes fun ln => { ln with st := .waiting, wait := some (.check c.id) }) sp1
    let s1 := vs.foldl (fun t v => t.settleVerdict i.id v.1.1 v.1.2 watch v.2) (s.putSpan sp2)
    let passed := vs.filterMap fun v => match v.2 with | .pass ps => some (v.1.2, ps) | _ => none
    (s1.onSpan i.id (·.send passed)).settle i.id

/-- A memory instruction (R18, R125, R128): its form's accesses. (log 32, DEDUCED) -/
def memIssue (i : Instr) (u : Bool) (d : Option Nat) (recl : Iss → Nat → Bool) (watch : State → Iss → Option Watch)
    (mk : Iss → Nat → Access) (s : State) : Out :=
  issue i
    { ready := fun _ x => x.sp.memReady (entriesFor ((jobs u x (mk x)).map (·.2))), recl := recl
      want := fun _ x => x.sp.memWant (entriesFor ((jobs u x (mk x)).map (·.2))) }
    (fun t x => t.access x d (watch t x) (jobs u x (mk x))) s

/-! At the point of performance. -/

/-- The bytes of a part of the access's data. -/
def Part.bytes (p : Part) : List Byte := ((toBytes 16 p.acc.data.toNat).drop p.skip).take p.len

/-- What a load part finds: from an L1 copy, or from memory. -/
def State.partNat (s : State) (line : Nat) (copy : Option (List Byte)) (p : Part) : Nat :=
  match copy with
  | some bs => leNat ((bs.drop p.off).take p.len)
  | none => s.nat (64 * line + p.off) p.len

/-- A read of WAITA returns: the wait ends satisfied, or the watch is armed (R197). -/
def Lane.watchRead (ln : Lane) (a : Access) (line : Nat) (x : Nat) (poll : Nat) : Lane :=
  match ln.wait with
  | some (.watch w) =>
    if w.acc.seq ≠ a.seq then ln
    else
      let hit := if a.size = 8 then intCond w.cond w.sgn (BitVec.ofNat 64 x) w.cmp
        else intCond w.cond w.sgn (BitVec.ofNat 32 x) (w.cmp.setWidth 32)
      if hit then (setPred ln (some w.pd) true).go
      else { ln with wait := some (.watch { w with reading := false, line := some line, poll := poll, must := false }) }
  | _ => match ln.kept with
    | some (.watch w) => if w.acc.seq = a.seq then { ln with kept := some (.watch { w with reading := false }) } else ln
    | _ => ln

/-- A write stands behind release fences, and no later write of the span does: it is the first after them (R155). -/
def Span.takeFences (sp : Span) (a : Access) : Span :=
  let cut (e : Entry) : Entry := if e.seq ≤ a.seq then e else
    { e with parts := e.parts.map fun p => { p with acc := { p.acc with fences := p.acc.fences.filter (!a.fences.contains ·) } } }
  { sp with relFence := sp.relFence.filter (!a.fences.contains ·), landing := sp.landing.map cut, unsent := sp.unsent.map cut,
            joining := sp.joining.map cut }

/-- A write of a span has been performed on some bytes: its span knows of it, and it is a release of its own scope and of the fences before
it (R154, R155). A store to a U page is handed on with `.u` alone. -/
def State.released (s : State) (id key : Nat) (kind : PKind) (p : Part) : State :=
  let reach : Reach := if kind = .u && (p.acc.op = .store || p.acc.op = .stl) then .uStore else .all
  let s1 := (s.onSpan id (·.learn p.acc.seq reach (s.known key p.len s.steps) none true)).follows id p.acc.seq p.acc.lane p.acc.seq reach
  match s1.span? id with
  | none => s1
  | some sp => (s1.overtake sp p.acc.seq none key p.len).announce none key p.len (s1.releases sp p.acc) sp.party

/-- The slice releases a line: every landing that holds an entry bounced on it with LINEBUSY is woken (R116). -/
def State.lineRelease (s : State) (line : Nat) : State :=
  { s with spans := s.spans.map fun sp =>
      { sp with landing := sp.landing.map fun e =>
          if e.st = .ashore && e.pline = line && e.reason = 5 then { e with woken := true } else e } }

/-- A read-modify-write leaves a value at its key, or none where a comparison failed: it is one event of the line all the same (R153, R185,
R189, R197), and the slice releases the line. -/
def State.rmwDone (s : State) (key : Nat) (bs : Option (List Byte)) (len : Nat) : State :=
  ((match bs with
    | some b => s.poke key b
    | none => s.written (lineOf key) (lineOf key)).wrote none key len true).lineRelease (lineOf key)

/-- One part takes effect (R184, R185, R189, R191, R197). -/
def State.performPart (s : State) (id : Nat) (e : Entry) (copy : Option (List Byte)) (p : Part) : State :=
  let key := 64 * e.pline + p.off
  let a := p.acc
  match a.op with
  | .load => s.onSpan id (·.deliver p (s.partNat e.pline copy p))
  | .lda => s.onSpan id fun t =>
      let t1 := t.deliver p (s.partNat e.pline none p)
      match a.lane with
      | some l => t1.onLane l fun ln => { ln with resv := some e.pline, resvVa := 64 * e.vline }
      | none => { t1 with resv := some e.pline, resvVa := 64 * e.vline }
  | .waita => match a.lane, s.span? id with
      | some l, some t =>
        let ended (u : Span) : Bool := match (u.lane l).wait with | some (.watch w) => decide (w.acc.seq ≠ a.seq) | _ => true
        let t1 := t.onLane l fun ln => ln.watchRead a e.pline (s.partNat e.pline none p) ((s.time t.die).toNat + 1000)
        let s1 := s.putSpan t1
        if !ended t && ended t1 && a.order = .acq then
          (((s1.onSpan id (·.learn (a.seq + 1) .all (s.known key p.len s.steps))).meet id a.scope (a.seq + 1) (s.standing none key p.len)).advance
            id a.scope).follows id a.seq a.lane (a.seq + 1) .all
        else s1
      | _, _ => s
  | .store => (s.poke key p.bytes).released id key e.pkind p
  | .stl =>
    let armed := match s.span? id with
      | some t => t.landing.any fun f => f.slot = e.slot && f.parts.any fun q => q.acc.lane = a.lane && q.acc.armed
      | none => false
    let s1 := if armed then (s.poke key p.bytes).released id key e.pkind p else s
    s1.onSpan id fun t => ((if armed then t.takeFences a else t).putPd a armed).withdraw a
  | .red =>
    let new := toBytes a.size (rmw a.size a.aop a.aty (BitVec.ofNat 64 (s.nat key a.size)) (a.data.setWidth 64)).toNat
    (s.rmwDone key (some new) a.size).released id key e.pkind p
  | .atom =>
    let old := s.nat key a.size
    let new := toBytes a.size (rmw a.size a.aop a.aty (BitVec.ofNat 64 old) (a.data.setWidth 64)).toNat
    ((s.rmwDone key (some new) a.size).released id key e.pkind p).onSpan id (·.deliver p old)
  | .cas =>
    let old := s.nat key a.size
    let new := if old = a.data.toNat % 2 ^ (8 * a.size) then some (toBytes a.size a.data2.toNat) else none
    ((s.rmwDone key new a.size).released id key e.pkind p).onSpan id (·.deliver p old)
  | .sred => match s.span? id with
    | some t => s.contribute t.die t.part e.pline a.aop a.aty a.size t.block p.off (a.data.setWidth 64)
    | none => s

/-- The parts in the order in which they take effect: the home slice chooses it for the lanes of an atomic (R126). -/
def Entry.inOrder (e : Entry) (lanes : List Nat) : List Part :=
  if e.any AccOp.isRmw && decide (lanes.Perm (e.parts.filterMap (·.acc.lane))) && !lanes.isEmpty then
    lanes.filterMap fun l => e.parts.find? (·.acc.lane = some l)
  else e.parts

/-- Entries in program order. -/
def insertSeq (e : Entry) : List Entry → List Entry
  | [] => [e]
  | f :: r => if e.seq ≤ f.seq then e :: f :: r else f :: insertSeq e r

/-- Is the frame of a line locked or given up by a move (R143)? -/
def State.lineMoved (s : State) (line : Nat) : Bool :=
  s.locked.any fun r => decide (r.1 ≤ 64 * line) && decide (64 * line < r.1 + r.2)

/-- The line to which a move sends a request that was bounced from its old frame, once the new frame is known (R131, R143): of a page that
was compressed, once it has been expanded again. -/
def State.forwarded (s : State) (line : Nat) : Option Nat :=
  let by_ (k : Nat) (m : Move) : Option Nat :=
    let oldK := placeKey m.oldLoc m.old
    if decide (5 ≤ m.step) && decide (oldK ≤ 64 * k) && decide (64 * k < oldK + 2 ^ m.size) then
      some (lineOf (placeKey m.newLoc m.new + (64 * k - oldK)))
    else none
  (s.moves.findSome? (by_ line)).bind fun k => if zoneBase ≤ 64 * k then s.moves.findSome? (by_ k) else some k

/-- May the request be sent: its place in the order of S pages (R124), of releases and `.seq` events (R113, R161), and behind fences
(R192)? (log 21, DEDUCED) -/
def State.maySend (s : State) (sp : Span) (e : Entry) : Bool :=
  e.isMem && (e.st = .inflight || e.st = .ordered) &&
    !(e.pkind = .s && ((sp.before e.seq).any (·.pkind = .s) || sp.checkBefore e.seq fun _ => true)) &&
    !(((e.order.releases && e.write) || e.order = .seq) && s.releaseWaits sp e.seq e.u) &&
    !(e.write && sp.landing.any fun f => f.isFence && decide (f.seq < e.seq))

/-- May the request be performed now: its place in its span's order, and the state of its line (R132)? (log 21, DEDUCED) -/
def State.canPerform (s : State) (sp : Span) (e : Entry) : Bool :=
  let sred (f : Entry) := f.any (· = .sred)
  s.maySend sp e && !((sp.before e.seq).any fun f => f.sameLine e && !sred f && !sred e) &&
    !(!sred e && sp.checks.any fun c => decide (c.seq < e.seq) && c.accs.any fun a => a.op ≠ .sred && a.vlines.contains e.vline) &&
    !s.lineMoved e.pline && !s.lineHeld e.pline && !(e.write && e.order.releases && e.scope.all && s.mergeWaits sp.block)

/-- Has a copy missed a write of the bytes that a load reads which happens before the load (R157, R158)? (log 50, DEDUCED) -/
def Span.outdated (sp : Span) (e : Entry) (c : L1Line) : Bool :=
  c.missed.any fun w => (e.parts.any fun p => decide (64 * e.pline + p.off ≤ w.1) && decide (w.1 < 64 * e.pline + p.off + p.len)) &&
    sp.view.any fun x => x.key = w.1 && x.step = w.2 && decide (x.since ≤ e.seq)

/-- The releases that the reads of a request meet (R155): on the bytes of its lanes, in the line as it was read. -/
def State.meets (s : State) (e : Entry) (copy : Option L1Line) : List Msg :=
  ((e.parts.filter (·.acc.op.reads)).map fun p => match copy with
    | some c => c.msgs.filter (·.on none (64 * e.pline + p.off) p.len)
    | none => s.standing none (64 * e.pline + p.off) p.len).flatten.eraseDups

/-- The keys of the bytes of a request's parts of some kind. -/
def Entry.keys (e : Entry) (f : Access → Bool) : List Nat :=
  ((e.parts.filter fun p => f p.acc).map fun p => run (64 * e.pline + p.off) p.len).flatten.eraseDups

/-- A `.seq` request of a span as an event (R159): an STL writes when its reservation holds. -/
def State.asSeq (s : State) (sp : Span) (e : Entry) : SeqEvent :=
  { scope := e.scope, from_ := sp.party, seq := e.seq, tok := s.seqTok, read := e.keys fun a => a.op.reads
    wrote := e.keys fun a => a.op.writes && (a.op ≠ .stl || a.armed) }

/-- Can a `.seq` load of an old copy take a place in the order of its instance (R159), once it has met what the copy's releases hand on?
(log 50, DEDUCED) -/
def State.seqLoad (s : State) (sp : Span) (e : Entry) (c : L1Line) : Bool :=
  match (s.meet sp.id e.scope e.seq (s.meets e (some c))).span? sp.id with
  | some t => seqFits (s.asSeq sp e) (s.seqMay t (s.asSeq sp e)) (missedBy c.missed (s.asSeq sp e)) s.seqs
  | none => false

/-- The L1 copy that may serve a load (R161): on no S page; one that has missed no write which happens before the load (R158); for a
`.seq` load, one that lets it take a place in the order of its instance (R159); of a line that a prefetch filled, none from before the
span's fill epoch (R193). A load that acquires at a wide scope, a `.seq` load, and any load behind the fill epoch use a copy only by the
free choice of log 50, DEDUCED, DEDUCED, as R172, R175 and R177 show. (log 26, DEDUCED) -/
def State.l1Copy (s : State) (sp : Span) (e : Entry) : Option L1Line :=
  if e.pkind = .s || !(e.parts.all (·.acc.op = .load)) then none
  else s.l1.find? fun c => c.pier = sp.pier && c.line = e.pline && !sp.outdated e c && (!c.pre || decide (sp.epoch ≤ c.fill)) &&
    (e.order ≠ .seq || s.seqLoad sp e c) &&
    (Config.oldLine s.steps || (decide (sp.epoch ≤ c.fill) && !(e.order = .seq || (e.order = .acq && e.scope.wide))))

/-- A line leaves a pier's L1; a line enters it with what memory holds. (log 26, DEDUCED) -/
def State.dropL1 (s : State) (pier line : Nat) : State := { s with l1 := s.l1.filter fun c => !(c.pier = pier && c.line = line) }
/-- (log 26, DEDUCED) -/
def State.fillL1 (s : State) (pier line : Nat) (pre : Bool := false) : State :=
  let t := s.dropL1 pier line
  let c : L1Line := { pier := pier, line := line, bytes := s.bytes (64 * line) 64, fill := s.steps, msgs := s.standing none (64 * line) 64, pre := pre }
  { t with l1 := keepFirst (fun c => c.pier = pier) Config.l1Lines (c :: t.l1) }

/-- Has a span of the pier sent a write of the line that is not performed? A fill that returns meanwhile is not installed (R161). -/
def State.writeOut (s : State) (pier line : Nat) : Bool :=
  s.spans.any fun sp => sp.pier = pier && sp.landing.any fun e => e.stores && e.pline = line && (e.st = .inflight || e.st = .ashore)

/-- Where the value of an access goes: its result's registers, or the predicate of its wait. -/
def Span.places (sp : Span) (a : Access) : List Spot :=
  let result := match a.res.bind fun id => sp.results.find? (·.id = id) with
    | some r => (match r.lane, r.vreg with | some l, some (d, n) => (run d n).map fun k => Spot.reg (.v l k) | _, _ => []) ++
        (match r.sreg with | some d => [Spot.reg (.s d)] | none => [])
    | none => []
  let pred (l : Nat) (o : Option Wait) : List Spot := match o with | some (.watch w) => if w.acc.seq = a.seq then [.reg (.p l w.pd)] else [] | _ => []
  result ++ (match a.lane with | some l => pred l (sp.lane l).wait ++ pred l (sp.lane l).kept | none => [])

/-- What one part of a read tells its span: of a plain read, for the reads of its place and for what is computed from its value (R154). It
stands behind the `.seq` fences before it (R159). -/
def State.partTold (s : State) (id : Nat) (e : Entry) (copy : Option L1Line) (p : Part) : State :=
  match s.span? id with
  | none => s
  | some sp =>
    let key := 64 * e.pline + p.off
    let v := s.known key p.len (match copy with | some c => c.fill | none => s.steps)
    let plain := !e.write && (!e.order.acquires || e.any (· = .waita))
    let s1 := s.onSpan id fun t => if plain then t.learn e.seq .read v p.acc.lane else t.learn e.seq .all v
    let s2 := if plain && !v.isEmpty then s1.seed sp.uid (e.seq, p.acc.lane) (sp.places p.acc) else s1
    let missed := match copy with | some c => c.missed.filter fun w => decide (key ≤ w.1) && decide (w.1 < key + p.len) | none => []
    (if !plain && !e.write then s2.follows id e.seq p.acc.lane (e.seq + 1) .all else s2).looked sp e.seq none key p.len missed

/-- What the reads of a performed request do to the order of its span (R155, R158, R161, R192): the span knows of the writes that it has
read or passed over; an acquire meets the releases, and so does an acquire fence issued behind it. What a read-modify-write acquires
it hands on itself. A wait's acquire has met them already. (log 50, DEDUCED) -/
def State.acquired (s : State) (id : Nat) (e : Entry) (copy : Option L1Line) : State :=
  let ms := s.meets e copy
  let s1 := (((e.parts.filter (·.acc.op.reads)).foldl (fun t p => t.partTold id e copy p) s).hear id ms).heardLate id e.seq ms
  let s2 := match s1.span? id with
    | some sp => if e.seq < sp.acqSeq then s1.advance id sp.acqScope else s1
    | none => s1
  if e.order.acquires && !e.any (· = .waita) then (s2.meet id e.scope (if e.write then e.seq else e.seq + 1) ms).advance id e.scope else s2

/-- A REQUEST IS PERFORMED, once and whole (R112). -/
def State.perform (s : State) (sp : Span) (e : Entry) (fromL1 : Bool) (lanes : List Nat) : State :=
  let id := sp.id
  let s0 := if e.write && e.order.releases && e.scope.all then s.mergeFor id else s
  let copy := if fromL1 then s0.l1Copy sp e else none
  let s1' := if e.any AccOp.reads then s0.acquired id e copy else s0
  let s1 := if e.order = .seq then s1'.seqEvent id (s1'.asSeq sp e) (match copy with | some c => c.missed | none => []) else s1'
  let s2 := (e.inOrder lanes).foldl (fun t p => t.performPart id e (copy.map (·.bytes)) p) s1
  let s3 := if e.stores then s2.writeSent sp.pier e
    else if e.any (· = .load) && copy.isNone && !e.noFill && !s2.writeOut sp.pier e.pline then s2.fillL1 sp.pier e.pline else s2
  let s4 := s3.onSpan id fun t =>
    { t with landing := t.landing.map fun f => if f.slot = e.slot then { f with st := .done } else f }
  ((if copy.isSome then s4 else s4.portFrees sp.part e.pline).touch e.pline).settle id

end Sys2Proof.Machine
end

