-- ==== Sys2Proof/Machine/Memory.lean ====
section
/-! DEFINITION. Class 0x4: loads and stores, the deck, load-and-arm pairs, prefetch, cache control, lifetime hints (R184 to
R187, R193 to R195). -/

namespace Sys2Proof.Machine

/-! Fields. -/

/-- An order code as a write carries it: code 3 of ST, STL and RED is the release that waits for U stores too (R183). -/
def writeOrder (o : Order) : Order := if o = .ar then .rel else o
def writeU (o : Order) : Bool := o = .ar || o = .seq

/-- The data of a store. -/
def Span.data (sp : Span) (x : MEM) (f : BitVec 8) (l : Nat) : BitVec 128 :=
  if x.ctl.u then (sp.s f.toNat).setWidth 128 else sp.vn (sizeRegs x.size) f.toNat l

def noRecl (_ : Iss) (_ : Nat) : Bool := false
def noWatch (_ : State) (_ : Iss) : Option Watch := none

/-- LD (R184). -/
def execLd (x : MEM) (s : State) : Out :=
  memIssue (.ld x) x.ctl.u (some x.d.toNat) noRecl noWatch (fun i l =>
    { op := .load, lane := none, ea := (i.sp.ea x true true l).toNat, size := sizeBytes x.size, sgn := sizeSigned x.size,
      order := x.order, scope := x.scope, u := x.order = .seq }) s

/-- ST (R184). -/
def execSt (x : MEM) (s : State) : Out :=
  memIssue (.st x) x.ctl.u none noRecl noWatch (fun i l =>
    { op := .store, lane := none, ea := (i.sp.ea x true true l).toNat, size := sizeBytes x.size, order := writeOrder x.order,
      scope := x.scope, u := writeU x.order, data := i.sp.data x x.d l }) s

/-- LDA (R185). -/
def execLda (x : MEM) (s : State) : Out :=
  memIssue (.lda x) x.ctl.u (some x.d.toNat) noRecl noWatch (fun i l =>
    { op := .lda, lane := none, ea := (i.sp.ea x true true l).toNat, size := sizeBytes x.size, order := x.order, scope := x.scope,
      u := x.order = .seq }) s

/-- STL (R185): no index; B names the result predicate. -/
def execStl (x : MEM) (s : State) : Out :=
  memIssue (.stl x) x.ctl.u none noRecl noWatch (fun i l =>
    { op := .stl, lane := none, ea := (i.sp.ea x false true l).toNat, size := sizeBytes x.size, order := writeOrder x.order,
      scope := x.scope, u := writeU x.order, data := i.sp.data x x.d l, pd := some x.b.toNat }) s

/-! The deck (R186, R187). -/

/-- Is a deck range of a block's allocation good: inside it and aligned? -/
def deckOk (bytes : Nat) (da : Int) (size : Nat) : Bool :=
  decide (0 ≤ da) && decide (da + size ≤ bytes) && decide (da % size = 0)

def State.deckBytes (s : State) (sp : Span) : Nat := match s.block? sp.block with | some k => k.bytes | none => 0

/-- DECKRANGE (R186). -/
def deckCause (size : Nat) (addr : Iss → Nat → Int) (s : State) (i : Iss) : Option Cause :=
  if i.G.any (fun l => !deckOk (s.deckBytes i.sp) (addr i l) size) then some .deckrange else none

/-- Put a lane's bytes into the request of its bank row, rows in ascending order (R246). -/
def addDeck (proto : DeckReq) (row : Nat) (p : DeckPart) : List DeckReq → List DeckReq
  | [] => [{ proto with row := row, bank := row % 48, parts := [p] }]
  | r :: rest =>
    if r.row = row then { r with parts := r.parts ++ [p] } :: rest
    else if row < r.row then { proto with row := row, bank := row % 48, parts := [p] } :: r :: rest
    else r :: addDeck proto row p rest

/-- An arrival of the span at a deck barrier that holds one of these addresses is not yet made: it comes first (R154, R202). -/
def Span.arrivesAt (sp : Span) (das : List Int) : Bool :=
  sp.arrivals.any fun r => match r with
    | .deck obj _ => das.any fun d => decide ((obj : Int) ≤ d) && decide (d < obj + 16)
    | _ => false

/-- The bank rows that a deck instruction names. -/
def deckRows (addr : Iss → Nat → Int) (x : Iss) : List Nat := (x.G.map fun l => (addr x l).toNat / 64).eraseDups

/-- The result that a deck part starts. -/
def DeckOp.res : DeckOp → Option Nat
  | .load r => some r
  | .store => none
  | .atomic _ _ r => some r

/-- The landing entries that an ATOMD reserves, one for each line of the deck, until its results are written (R111). -/
def deckEntries (sp : Span) (seq : Nat) (reqs : List DeckReq) : List Entry :=
  let free := (List.range Config.landing).filter fun k => !sp.landing.any (·.slot = k)
  (free.zip reqs).map fun (k, r) =>
    { slot := k, seq := seq, st := .done, op := .deck, vline := r.row
      parts := r.parts.map fun p => ⟨{ op := .atom, lane := some p.lane, ea := p.addr, size := p.len, seq := seq, res := p.op.res }, p.addr % 64, 0, p.len⟩ }

/-- A deck instruction: its requests join the queues of their banks; `res` names the register of pending results. An ATOMD needs landing
entries (R111); a want of entries holds every word of class 0x4 (log 32, DEDUCED). -/
def deckIssue (i : Instr) (size : Nat) (sgn : Bool) (res : Option Nat) (addr : Iss → Nat → Int) (op : Nat → DeckOp)
    (data : Iss → Nat → BitVec 128) (atomd : Bool) (s : State) : Out :=
  let need (x : Iss) : Nat := if atomd then min Config.landing (deckRows addr x).length else 0
  issue i { own := deckCause size addr
            ready := fun _ x => x.sp.deckReady (need x) && !x.sp.arrivesAt (x.G.map (addr x))
            want := fun _ x => x.sp.memWant (need x) }
    (fun t x =>
      let seq := x.sp.seq
      let stores := !x.G.isEmpty && (op 0).stores
      let ids := imap (fun k l => (l, seq + 1 + k)) 0 x.G
      let results := match res with
        | some d => ids.map fun e => ({ id := e.2, lane := some e.1, vreg := some (d, if size = 16 then 4 else if size = 8 then 2 else 1),
                                        need := 1 } : Result)
        | none => []
      let proto : DeckReq := ⟨x.sp.pier, 0, 0, x.sp.id, x.sp.uid, x.sp.block, seq, [], if stores then x.sp.relFence else []⟩
      let reqs := ids.foldl (fun rs e =>
        let da := (addr x e.1).toNat
        addDeck proto (da / 64) ⟨e.1, da, size, sgn, data x e.1, op e.2⟩ rs) []
      let sp := { x.moved with
        seq := seq + 1 + ids.length, results := x.sp.results ++ results, relFence := if stores then [] else x.sp.relFence
        landing := x.sp.landing ++ (if atomd then deckEntries x.sp seq reqs else []) }
      { t.putSpan sp with deckq := t.deckq ++ reqs }) s

/-- LDD (R187). -/
def execLdd (x : MEM) (s : State) : Out :=
  deckIssue (.ldd x) (sizeBytes x.size) (sizeSigned x.size) (some x.d.toNat) (fun i l => i.sp.deckAddr x true true l)
    DeckOp.load (fun _ _ => 0) false s

/-- STD (R187). -/
def execStd (x : MEM) (s : State) : Out :=
  deckIssue (.std x) (sizeBytes x.size) false none (fun i l => i.sp.deckAddr x true true l) (fun _ => .store)
    (fun i l => i.sp.vn (sizeRegs x.size) x.d.toNat l) false s

/-! Prefetch, cache control, hints. -/

/-- A memory instruction without requests that changes the state when its guard is true. -/
def quietOp (i : Instr) (f : State → Iss → State) (s : State) : Out :=
  issue i { ready := fun _ x => !x.sp.memHeld }
    (fun t x =>
      let t1 := t.putSpan x.moved
      if x.G.isEmpty then t1 else f t1 x) s

/-- A prefetch stream starts; of 16 running ones the earliest gives way (R193). -/
def State.startStream (s : State) (n : Stream) : State :=
  let mine := s.streams.filter (·.pier = n.pier)
  let rest := if 16 ≤ mine.length then match mine.head? with | some o => s.streams.erase o | none => s.streams else s.streams
  { s with streams := rest ++ [n] }

/-- The next line of a running stream is touched, or dropped: for want of RD, where a park or a fault would apply, or where it would be
bounced (R109, R136, R193). A stream ends with its last line. -/
def State.touchLine (s : State) (n : Stream) (drop : Bool) : State :=
  let s0 : State := { s with streams := if n.next + 1 < n.count then s.streams.replace n { n with next := n.next + 1 } else s.streams.erase n }
  let va := (n.start + BitVec.ofNat 64 n.next * n.stride).toNat
  match s.ctx? n.ctx with
  | none => { s with streams := s.streams.erase n }
  | some cx =>
    if drop || s.walkHeld cx va then s0 else
      let (s1, o) := match s0.tlbLook n.pier cx va { rd := true } with
        | some x => (s0, x)
        | none => s0.walk (some n.pier) cx va { rd := true }
      match o with
      | .pass key kind =>
        if n.shore || kind = .s || s1.lineMoved (lineOf key) || s1.lineHeld (lineOf key) || s1.writeOut n.pier (lineOf key) then s1
        else s1.fillL1 n.pier (lineOf key) true
      | _ => s0

/-- A cycle of a pier's streams: the one that the device chooses touches a line (R193). -/
def State.prefetch (s : State) (pier : Nat) : State :=
  let (n, drop) := Config.prefetch s.steps
  match (s.streams.filter fun x => x.pier = pier && !s.fenced.contains (pier / Config.piersPerDie))[n]? with
  | some x => s.touchLine x drop
  | none => s

/-- PFS (R193). -/
def execPfs (x : RRR) (s : State) : Out :=
  quietOp (.pfs x) (fun t i =>
    let n : Stream := { pier := i.sp.pier, ctx := i.sp.ctx, start := i.sp.s x.d.toNat, count := (i.sp.s x.a.toNat).toNat % 2 ^ 32,
                          stride := i.sp.s x.b.toNat, shore := x.bit 0 }
    if n.count = 0 then t else t.startStream n) s

/-- CCTL (R194). -/
def execCctl (x : MEM) (s : State) : Out :=
  quietOp (.cctl x) (fun t i =>
    let line := match t.ctx? i.sp.ctx with | some cx => t.lineAt cx (i.sp.ea x true true 0).toNat | none => none
    match x.d.toNat with
    | 0 => match line with | some n => t.dropL1 i.sp.pier n | none => t
    | 1 => { t with l1 := t.l1.filter (·.pier ≠ i.sp.pier) }
    | 2 => match line with | some n => { t with demoted := if t.demoted.contains n then t.demoted else t.demoted ++ [n] } | none => t
    | _ => t.onSpan i.id fun sp => { sp with epoch := t.steps }) s

/-- What of a hint lies outside a range (R141). -/
def Hint.outside (h : Hint) (ctx lo hi : Nat) : List Hint :=
  if h.ctx ≠ ctx ∨ h.stop ≤ lo ∨ hi ≤ h.start then [h]
  else (if h.start < lo then [{ h with stop := lo }] else []) ++ (if hi < h.stop then [{ h with start := hi }] else [])

/-- Is the first hint ranked before the second to give way: lowest priority, then earliest next-use step, as the 32-bit number that it
is (R141)? (log 49, DESIGN CHOICE) -/
def Hint.weaker (a b : Hint) : Bool := decide (a.prio < b.prio) || (a.prio = b.prio && decide (a.step.toNat < b.step.toNat))

/-- The weakest hint gives way. -/
def dropWeakest (hs : List Hint) : List Hint :=
  match hs with
  | [] => []
  | h :: r => hs.erase (r.foldl (fun b c => if c.weaker b then c else b) h)

/-- A table of 4 096 hints with room for `n` more (R141). -/
def makeRoom (n : Nat) (hs : List Hint) : List Hint :=
  (List.range (hs.length + n - 4096)).foldl (fun t _ => dropWeakest t) hs

def State.onPart (s : State) (n : Nat) (f : Partition → Partition) : State := { s with parts := s.parts.modify n f }

/-- LTH (R141, R195). -/
def execLth (x : RRR) (s : State) : Out :=
  quietOp (.lth x) (fun t i =>
    let start := (i.sp.s x.d.toNat).toNat
    let len := (i.sp.s x.a.toNat).toNat
    if len = 0 then t else
      let lo := start / 65536 * 65536
      let hi := (start + len - 1) / 65536 * 65536 + 65536
      let h := i.sp.s x.b.toNat
      t.onPart i.sp.part fun p =>
        let cut := (p.hints.map fun g => g.outside i.sp.ctx lo hi).flatten
        if x.bit 0 then { p with hints := makeRoom 0 cut }
        else { p with hints := makeRoom 1 cut ++ [⟨i.sp.ctx, lo, hi, (h.extractLsb' 32 3).toNat, h.setWidth 32⟩] }) s

end Sys2Proof.Machine
end

