-- ==== Sys2Proof/Machine/Sync.lean ====
section
/-! DEFINITION. Class 0x5: atomics, fences, waits on an address, barriers (R188 to R192, R196 to R205). -/

namespace Sys2Proof.Machine

/-- Operand B of an atomic: a scalar, or the lane's register or pair. `k` words further for CAS's second operand. -/
def Span.atomArg (sp : Span) (x : MEM) (k l : Nat) : BitVec 64 :=
  if x.ctl.u || x.kb then sp.s (x.b.toNat + k) else (sp.vn (sizeRegs x.size) (x.b.toNat + k * sizeRegs x.size) l).setWidth 64

/-- The access of an atomic (R188, R189): base alone; a uniform signed result fills the scalar by R76. -/
def atomAccess (op : AccOp) (x : MEM) (order : Order) (u : Bool) (i : Iss) (l : Nat) : Access :=
  { op := op, lane := none, ea := (i.sp.ea x false false l).toNat, size := sizeBytes x.size, sgn := x.ctl.u && x.aty = 1,
    order := order, scope := x.scope, u := u, aop := x.aop, aty := x.aty, data := (i.sp.atomArg x 0 l).setWidth 128,
    data2 := i.sp.atomArg x 1 l }

/-- ATOM (R189). -/
def execAtom (x : MEM) (s : State) : Out :=
  memIssue (.atom x) x.ctl.u (some x.d.toNat) noRecl noWatch (atomAccess .atom x x.order (x.uw || x.order = .seq)) s

/-- RED (R189). -/
def execRed (x : MEM) (s : State) : Out :=
  memIssue (.red x) x.ctl.u none noRecl noWatch (atomAccess .red x (writeOrder x.order) (writeU x.order)) s

/-- CAS (R189). -/
def execCas (x : MEM) (s : State) : Out :=
  memIssue (.cas x) x.ctl.u (some x.d.toNat) noRecl noWatch (atomAccess .cas x x.order (x.uw || x.order = .seq)) s

/-- SRED (R191). -/
def execSred (x : MEM) (s : State) : Out :=
  memIssue (.sred x) x.ctl.u none noRecl noWatch (atomAccess .sred x .plain false) s

/-- ATOMD (R190). -/
def execAtomd (x : MEM) (s : State) : Out :=
  deckIssue (.atomd x) (sizeBytes x.size) false (some x.d.toNat) (fun i l => i.sp.deckAddr x false false l)
    (DeckOp.atomic x.aop x.aty) (fun i l => (i.sp.atomArg x 0 l).setWidth 128) true s

/-- FENCE (R192): once per issue in which its guard is true. Its acquire part meets what the span's reads have met (R155). -/
def execFence (x : MEM) (s : State) : Out :=
  let need := if x.order.releases then 1 else 0
  issue (.fence x) { ready := fun _ i => i.sp.memReady need, want := fun _ i => i.sp.memWant need }
    (fun t i =>
      let sp := i.moved
      if i.G.isEmpty then t.putSpan sp else
        let seq := sp.seq
        let slot := ((List.range Config.landing).find? fun k => !sp.landing.any (·.slot = k)).getD 0
        let e : Entry := { slot := slot, seq := seq, st := .ordered, op := .fence, order := x.order, scope := x.scope,
                           u := x.d = 1 || x.order = .seq }
        let t1 := t.putSpan { sp with
          seq := seq + 1
          landing := if x.order.releases then sp.landing ++ [e] else sp.landing
          relFence := if x.order.releases then sp.relFence ++ [⟨seq, x.scope, e.u⟩] else sp.relFence
          acqSeq := if x.order.acquires then seq else sp.acqSeq
          acqScope := if x.order.acquires then x.scope else sp.acqScope }
        (if x.order.acquires then (t1.meet i.id x.scope (seq + 1) sp.heard).advance i.id x.scope else t1).settle i.id) s

/-- The condition and timeout of WAITA (R196). -/
def waitaWatch (x : MEM) (s : State) (i : Iss) : Option Watch :=
  let texp := (x.off.extractLsb' 0 6).toNat
  some { acc := { op := .waita, lane := none, ea := 0, size := 4 }, cond := condOfNat (x.off.extractLsb' 7 3).toNat,
         sgn := x.off.getLsbD 6, cmp := 0, pd := x.d.toNat, due := if texp = 0 then none else some ((s.time i.sp.die).toNat + 2 ^ texp),
         reading := true, wake := false, slot := false, poll := 0 }

/-- WAITA (R196 to R198). -/
def execWaita (x : MEM) (s : State) : Out :=
  memIssue (.waita x) false none (fun i l => i.G.contains l) (waitaWatch x) (fun i l =>
    { op := .waita, lane := none, ea := (i.sp.ea x false false l).toNat, size := sizeBytes x.size, order := x.order,
      scope := x.scope, data2 := i.sp.atomArg x 0 l }) s

/-! Named barriers (R199 to R202). -/

/-- The instance that a barrier instruction names (R199). -/
def barKey (x : MEM) (sp : Span) : BarKey :=
  match x.scope with
  | .block => blockKey sp.block x.d.toNat
  | .die => ⟨sp.launch, none, some sp.die, x.d.toNat⟩
  | _ => ⟨sp.launch, none, none, x.d.toNat⟩

/-- The count that the instruction gives (R200): none when absent or 0. -/
def barCount (x : MEM) (sp : Span) : Option Nat :=
  let c := (sp.s x.b.toNat).toNat % 2 ^ 32
  if x.kb && c ≠ 0 then some c else none

/-- One arrival at a barrier of issue `i`, made when the span's earlier requests are performed (R202). -/
def barArrive (x : MEM) (lanes : List Nat) (sp : Span) : Span :=
  { sp with seq := sp.seq + 1, arrivals := sp.arrivals ++ [.named (barKey x sp) (barCount x sp) sp.seq lanes] }

/-- BARA (R200). -/
def execBara (x : MEM) (s : State) : Out :=
  issue (.bara x) {}
    (fun t i => if i.G.isEmpty then t.putSpan i.moved else (t.putSpan (barArrive x [] i.moved)).settle i.id) s

/-- BARW (R200): guarded lanes wait. -/
def execBarw (x : MEM) (s : State) : Out :=
  issue (.barw x) {}
    (fun t i =>
      if i.G.isEmpty then t.putSpan i.moved else
        let pf := if x.off.getLsbD 4 then some (x.off.toNat % 16) else none
        let sp := i.moved.onLanes i.G fun ln => { ln with pc := i.a, st := .waiting, wait := some (.bar (barKey x i.sp) 0 pf) }
        (t.putSpan (barArrive x i.G sp)).settle i.id) s

/-! Deck phase barriers (R203 to R205). They act at their bank ahead of the spans' queued accesses (R246), after the span's
own accesses and, but for MBARV, after its own arrivals at the object. -/

def mbCause (x : MEM) (index : Bool) (s : State) (i : Iss) : Option Cause :=
  if !i.G.isEmpty && !deckOk (s.deckBytes i.sp) (i.sp.deckAddr x index true 0) 16 then some .deckrange else none

/-- Are the span's own earlier accesses and arrivals at the object done, and, for a word that writes the object, its release fences (R192)? -/
def mbReady (x : MEM) (index arrivals writes : Bool) (t : State) (j : Iss) : Bool :=
  !j.sp.acqHeld && !t.deckq.any (·.uid = j.sp.uid) && !(arrivals && j.sp.arrivesAt [j.sp.deckAddr x index true 0]) &&
    !(writes && j.sp.landing.any Entry.isFence)

/-- A write of a deck barrier by an instruction is the first after the release fences before it, and makes them releases (R155). -/
def State.mbFenced (s : State) (i : Iss) (obj : Nat) : State :=
  (s.announce (some i.sp.block) obj 16 (i.sp.relFence.map fun f => (f.scope, s.handing i.sp f.seq f.u f.scope.all)) i.sp.party).onSpan i.id
    fun sp => { sp with relFence := [] }

/-- A deck barrier instruction of the whole issue, acting when its guard is true. -/
def mbIssue (i : Instr) (x : MEM) (arrivals writes : Bool) (f : State → Iss → Nat → State) (s : State) : Out :=
  issue i { own := mbCause x true, ready := mbReady x true arrivals writes }
    (fun t j =>
      let t1 := t.putSpan j.moved
      if j.G.isEmpty then t1 else f t1 j (j.sp.deckAddr x true true 0).toNat) s

/-- MBINIT (R204). -/
def execMbinit (x : MEM) (s : State) : Out :=
  mbIssue (.mbinit x) x true true (fun t i da => ((t.mbInit i.sp.block da (i.sp.s x.d.toNat).toNat).mbFenced i da).settle i.id) s

/-- MBEXP (R204). -/
def execMbexp (x : MEM) (s : State) : Out :=
  mbIssue (.mbexp x) x true true (fun t i da =>
    ((t.mbChange i.sp.block da (·.expect ((i.sp.s x.d.toNat).toNat % 2 ^ 40))).mbFenced i da).settle i.id) s

/-- MBARV (R202, R204): an arrival, made when the span's earlier requests are performed. -/
def execMbarv (x : MEM) (s : State) : Out :=
  mbIssue (.mbarv x) x false false (fun t i da =>
    (t.onSpan i.id fun sp => { sp with seq := sp.seq + 1, arrivals := sp.arrivals ++ [.deck da sp.seq] }).settle i.id) s

/-- MBWAIT (R205): a lane goes on when the barrier has reached its count, and waits otherwise. -/
def execMbwait (x : MEM) (s : State) : Out :=
  issue (.mbwait x) { own := mbCause x false, ready := mbReady x false true false }
    (fun t i =>
      let da := (i.sp.deckAddr x false true 0).toNat
      let n := (i.sp.s x.b.toNat).toNat % 2 ^ 24
      let m := match t.block? i.sp.block with | some k => k.mbar da | none => ⟨0, 0, 0, 0⟩
      let sp := i.moved.onLanes i.G fun ln =>
        if m.reached n then setPred ln (some x.d.toNat) false
        else { ln with pc := i.a, st := .waiting, wait := some (.mb da n x.d.toNat) }
      (if m.reached n && !i.G.isEmpty then (t.putSpan sp).hearObj i.id da else t.putSpan sp).settle i.id) s

end Sys2Proof.Machine
end

