-- ==== Sys2Proof/Machine/FerryOps.lean ====
section
/-! DEFINITION. What a ferry operation does after its issue (R134, R149, R206 to R211, R346): its fork, its chunks, its
completion, its failure and its cancellation. -/

namespace Sys2Proof.Machine

/-! Places. -/

/-- A byte range of an operand: in the block's deck, or virtual. -/
inductive Place where
  | deck (off : Int)
  | mem (va : Nat)
  deriving DecidableEq, Repr

def isDeckAddr (base : Word) : Bool := base.getLsbD 63

/-- `delta` bytes past a destination or source address (R206). -/
def placeAt (base : Word) (delta : Int) : Place :=
  if isDeckAddr base then .deck ((base.extractLsb' 0 24).toNat + delta)
  else .mem (BitVec.ofInt 64 (base.toNat + delta)).toNat

/-! Shapes. -/

def sext32 (w : Word) (lo : Nat) : Int := (w.extractLsb' lo 32).toInt
def atLeastOne (n : Nat) : Nat := if n = 0 then 1 else n

/-- FPLN's shape (R209). -/
def FerryOp.fpTR (o : FerryOp) : Bool := o.shape.getLsbD 39
def FerryOp.fpSRC (o : FerryOp) : Nat := (o.shape.extractLsb' 37 2).toNat
def FerryOp.fpSigned (o : FerryOp) : Bool := o.shape.getLsbD 36
def FerryOp.fpP (o : FerryOp) : Nat := (o.shape.extractLsb' 32 4).toNat + 1
def FerryOp.fpNS (o : FerryOp) : Nat := atLeastOne (o.shape.extractLsb' 16 16).toNat
def FerryOp.fpNR (o : FerryOp) : Nat := atLeastOne (o.shape.extractLsb' 0 16).toNat
def FerryOp.fpBytes (o : FerryOp) : Nat := 8 + 24 * o.fpP
def FerryOp.fpQ (o : FerryOp) : Int := if sext32 o.strA 32 = 0 then o.fpNS * o.fpBytes else sext32 o.strA 32
def FerryOp.fpSize (o : FerryOp) : Nat := if o.fpSRC = 0 then 4 else 2

/-- Rows of a copy: how many, the length of each, and the source and destination displacement of row i (R207, R208). -/
def FerryOp.rowLen (o : FerryOp) : Nat :=
  if o.kind = .fcpyt then (o.shape.extractLsb' 0 20).toNat else (o.shape.extractLsb' 0 40).toNat
def FerryOp.perPlane (o : FerryOp) : Nat := if o.kind = .fcpyt then atLeastOne (o.shape.extractLsb' 20 16).toNat else 1
def FerryOp.rowCount (o : FerryOp) : Nat :=
  if o.kind = .fcpyt then o.perPlane * atLeastOne (o.shape.extractLsb' 36 16).toNat else 1
def FerryOp.rowAt (o : FerryOp) (i : Nat) : Int × Int :=
  if o.kind = .fcpyt then
    let r : Int := (i % o.perPlane : Nat)
    let k : Int := (i / o.perPlane : Nat)
    (k * sext32 o.strB 0 + r * sext32 o.strA 0, k * sext32 o.strB 32 + r * sext32 o.strA 32)
  else (0, 0)

/-- Bytes of the whole operation. -/
def FerryOp.total (o : FerryOp) : Nat :=
  match o.kind with
  | .fpln => o.fpNS * o.fpNR * o.fpBytes
  | .nsend => 0
  | _ => o.rowLen * o.rowCount

/-! Chunks (R149). A chunk's number is 2^40 × its row + its place in the row: a destination line part of a copy, a stripe of
an FPLN. A line part of a stripe is named by 2^40 × the row + 2^8 × the stripe + its place in the stripe. -/

/-- The offset of a destination's first byte in its line. -/
def lineOff (p : Place) : Nat :=
  match p with
  | .deck off => (off % 64).toNat
  | .mem va => va % 64

structure Chunk where
  src : List (Place × Nat)
  dst : Place
  len : Nat
  deriving DecidableEq, Repr

/-- Source ranges of a stripe: the bytes of its elements, or of its eight blocks (R209, R234). -/
def FerryOp.stripeSrc (o : FerryOp) (r st : Nat) : List (Place × Nat) :=
  let P := sext32 o.strA 0
  if o.fpSRC = 2 then [(placeAt o.src (r * P + 8 * st * (1 + 3 * o.fpP)), 8 * (1 + 3 * o.fpP))]
  else if o.fpTR then (List.range 192).map fun e => (placeAt o.src ((192 * st + e : Nat) * P + r * o.fpSize), o.fpSize)
  else [(placeAt o.src (r * P + 192 * st * o.fpSize), 192 * o.fpSize)]

def FerryOp.chunk? (o : FerryOp) (c : Nat) : Option Chunk :=
  let row := c / 2 ^ 40
  let k := c % 2 ^ 40
  if o.kind = .fpln then
    if row < o.fpNR ∧ k < o.fpNS then
      some ⟨o.stripeSrc row k, placeAt o.dst (row * o.fpQ + k * o.fpBytes), o.fpBytes⟩
    else none
  else if o.rowCount ≤ row then none
  else
    let (ds, dd) := o.rowAt row
    let a := lineOff (placeAt o.dst dd)
    let lo := 64 * k - a
    let hi := min o.rowLen (64 * (k + 1) - a)
    if lo < hi then some ⟨[(placeAt o.src (ds + lo), hi - lo)], placeAt o.dst (dd + lo), hi - lo⟩ else none

/-- What a step of the ferry names: a chunk, and a line part of it. -/
def FerryOp.named (o : FerryOp) (c : Nat) : Nat × Nat :=
  if o.kind = .fpln then (c / 2 ^ 40 * 2 ^ 40 + c % 2 ^ 40 / 2 ^ 8, c % 2 ^ 8) else (c, 0)

/-- `n` bytes past a place. -/
def Place.plus (p : Place) (n : Nat) : Place :=
  match p with
  | .deck off => .deck (off + n)
  | .mem va => .mem ((va + n) % 2 ^ 64)

/-- The line parts of a chunk's destination: the offset and the length of each. -/
def Chunk.lineParts (ch : Chunk) : List (Nat × Nat) :=
  let a := lineOff ch.dst
  (pieces 64 (ch.len / 64 + 2) a ch.len).map fun q => (q.1 - a, q.2)

/-! Checks of a chunk's pages (R149). -/

/-- Ranges in ascending address order. -/
def insertRange (r : Nat × Nat) : List (Nat × Nat) → List (Nat × Nat)
  | [] => [r]
  | q :: rest => if r.1 ≤ q.1 then r :: q :: rest else q :: insertRange r rest

def memRanges (ps : List (Place × Nat)) : List (Nat × Nat) :=
  (ps.filterMap fun p => match p.1 with | .mem va => some (va, p.2) | .deck _ => none).foldl (fun l r => insertRange r l) []

/-- A peer frame whose link is down (R346). -/
def State.linkDown (s : State) (key : Nat) : Bool :=
  decide (capBase ≤ key) && decide (key < zoneBase) && decide (peerOf (key - capBase) ≠ 0) && s.down.contains (peerOf (key - capBase) - 1)

/-- The outcomes of the pages of ranges, in order, by the translation of the operation's pier. -/
def State.ferryWalk (s : State) (pier : Nat) (cx : Context) (need : Need) (rs : List (Nat × Nat)) : State × List (Nat × XOut) :=
  ((rs.map fun r => pagePieces r.1 r.2).flatten).foldl (fun (acc : State × List (Nat × XOut)) p =>
    match acc.1.seek (some pier) cx p.1 need with
    | (t, .pass key kind) => (t.touch (lineOf key), acc.2 ++ [(p.1, if t.linkDown key then .fatal .unmapped else .pass key kind)])
    | (t, o) => (t, acc.2 ++ [(p.1, o)])) (s, [])

/-- The key at an address, as the check of a chunk found its page part. -/
def keyAt (os : List (Nat × XOut)) (va : Nat) : Option Nat :=
  os.findSome? fun o => if o.1 / 65536 = va / 65536 ∧ o.1 ≤ va then (match o.2 with | .pass key _ => some (key + (va - o.1)) | _ => none) else none

/-- The parts of a range of memory in one page each, by key and length, as the check found them. -/
def keysIn (os : List (Nat × XOut)) (va len : Nat) : List (Nat × Nat) :=
  (pagePieces va len).filterMap fun q => (keyAt os q.1).map (·, q.2)

def firstFatal (os : List (Nat × XOut)) : Option (Nat × Cause) :=
  os.findSome? fun o => match o.2 with | .fatal c => some (o.1, c) | _ => none
def firstPark (os : List (Nat × XOut)) : Option Park :=
  os.findSome? fun o => match o.2 with | .park w => some w | _ => none
def parkPages (os : List (Nat × XOut)) : List Nat :=
  os.filterMap fun o => match o.2 with | .park _ => some (o.1 / 65536 * 65536) | _ => none

/-! Bytes of a chunk. -/

/-- A read of a chunk: a deck word that the operation has read of it before stays as it was then (R247). -/
def State.readPlace (s : State) (os : List (Nat × XOut)) (blk : Nat × Nat) (words : List (Nat × List Byte)) (p : Place) (len : Nat) : List Byte :=
  match p with
  | .deck off => match s.block? blk with
    | some k => sgets 0 (words.foldl (fun b w => b.deckPut w.1 w.2) k).deck off.toNat len
    | none => []
  | .mem va => ((keysIn os va len).map fun q => s.bytes q.1 q.2).flatten

/-- A write of a chunk, where its check found its pages. -/
def State.writePlace (s : State) (os : List (Nat × XOut)) (sp : Span) (p : Place) (bs : List Byte) : State :=
  match p with
  | .deck off => s.deckWrite sp.block off.toNat bs
  | .mem va => ((keysIn os va bs.length).foldl (fun (acc : State × List Byte) q =>
      (((acc.1.poke q.1 (acc.2.take q.2)).unlist (some sp.pier) q.1 q.2).portsFree sp.part q.1 q.2, acc.2.drop q.2)) (s, bs)).1

/-- The writes of a range that a party knows of when it has read or written it now (R158). -/
def State.seenAt (s : State) (os : List (Nat × XOut)) (p : Place × Nat) : View :=
  match p.1 with
  | .deck _ => []
  | .mem va => ((keysIn os va p.2).map fun q => s.known q.1 q.2 s.steps).flatten

/-- Bytes of a stripe in the layout of R215, from eight scales and 192 integers' bits. -/
def stripeBytes (p : Nat) (scales : List Nat) (els : List Nat) : List Byte :=
  scales.map (BitVec.ofNat 8) ++
    ((List.range p).map fun j => (List.range 24).map fun b =>
      BitVec.ofNat 8 (((List.range 8).map fun i => els.getD (8 * b + i) 0 / 2 ^ j % 2 * 2 ^ i).sum)).flatten

/-- Cut a list into runs of 24. -/
def blocks24 {α : Type} (xs : List α) : List (List α) := (List.range 8).map fun b => (xs.drop (24 * b)).take 24

/-- Row-major blocks of 1 + 3p bytes (R234): scales and elements. -/
def readRowMajor (p : Nat) (bs : List Byte) : List Nat × List Nat :=
  let blk := (List.range 8).map fun b => (bs.drop ((1 + 3 * p) * b)).take (1 + 3 * p)
  (blk.map fun x => leNat (x.take 1), (blk.map fun x => (List.range 24).map fun i => leNat (x.drop 1) / 2 ^ (p * i) % 2 ^ p).flatten)

/-- The bytes that an FPLN stripe writes, from its source bytes (R209, R233). -/
def FerryOp.stripe (o : FerryOp) (bs : List Byte) : List Byte :=
  if o.fpSRC = 2 then let (sc, els) := readRowMajor o.fpP bs; stripeBytes o.fpP sc els
  else
    let f := if o.fpSRC = 0 then fp32 else bf16
    let xs := (List.range 192).map fun e => f.read (leNat ((bs.drop (o.fpSize * e)).take o.fpSize))
    let qs := (blocks24 xs).map (quant o.fpP o.fpSigned)
    stripeBytes o.fpP (qs.map (·.1)) ((qs.map (·.2)).flatten)

/-! The operation in its span. -/

def Span.ferry? (sp : Span) (op : Nat) : Option FerryOp := sp.ferry.find? (·.id = op)
def Span.putFerry (sp : Span) (o : FerryOp) : Span := { sp with ferry := sp.ferry.map fun t => if t.id = o.id then o else t }
def Span.freeFerry (sp : Span) (op : Nat) : Span := { sp with ferry := sp.ferry.filter (·.id ≠ op) }

/-- A linked barrier loses bytes (R149, R204); who sees its phase complete has been told what the operation was (R155). -/
def State.linkFall (s : State) (sp : Span) (o : FerryOp) (n : Nat) : State :=
  match o.link with
  | some obj => if n = 0 then s else (s.tellObj sp.block obj o.view).mbChange sp.block obj (MBar.chunk · n)
  | none => s

/-- The value that the completion word receives (R149, R206, R210). -/
def FerryOp.word (o : FerryOp) : Word :=
  if o.fail.isSome then o.value ^^^ (1 <<< 63) else if o.cancel then o.value ^^^ (1 <<< 62) else o.value

/-- FERRYFAIL (R149, R206): the failure is the span's latest, the cause is recorded, the slot frees. (log 30, DEDUCED) -/
def State.ferryFail (s : State) (id op : Nat) (f : Word × Cause) : State :=
  (s.onSpan id fun t => ({ t.freeFerry op with lastFail := some f }).record .ferryfail).settle id

/-- The completion of a launch follows what an operation of it did (R155). -/
def State.opEnded (s : State) (sp : Span) (o : FerryOp) : State :=
  s.onLaunch sp.launch fun l => { l with ended := joinViews l.ended o.view }

/-- Has an operation come to its end: failed, cancelled with no stripe open, or with every chunk performed? -/
def FerryOp.over (o : FerryOp) : Bool := o.fail.isSome || (o.cancel && o.st ≠ .drain && o.stripes.isEmpty) || decide (o.total ≤ o.bytes)

/-- An operation ends: its completion word is written, if it has one, as a release of all that it did, and its slot frees (R155, R206). A line
that is held keeps the word, or the merge before it, waiting: the operation runs on until it is written (R109, R211). -/
def State.ferryFinish (s : State) (id : Nat) (o : FerryOp) : State :=
  match s.span? id with
  | none => s
  | some sp =>
    let free (t : State) : State := match o.fail with
      | some f => (t.opEnded sp o).ferryFail id o.id f
      | none => ((t.opEnded sp o).onSpan id (·.freeFerry o.id)).settle id
    let wait (t : State) : State := t.onSpan id (·.putFerry { o with st := .running, pages := [] })
    let bare := o.comp.toNat % 8 ≠ 0 || o.comp.getLsbD 63
    if o.comp = 0 || bare then free s
    else if o.scope.all && s.mergeWaits sp.block then wait s
    else match s.ctx? sp.ctx with
      | none => free s
      | some cx =>
        let s0 := if o.scope.all then s.mergeFor sp.id else s
        let merged := if o.scope.all then ((s0.block? sp.block).map Block.merged).getD [] else []
        match s0.deviceWrite (some sp.pier) cx o.comp (toBytes 8 o.word.toNat) with
        | (t, none, _) =>
          free (t.announceAt cx o.comp 8 o.scope (joinViews o.view merged) sp.party)
        | (t, some (.park _), []) => wait t
        | (t, some (.park w), pages) =>
          (t.onSpan id (·.putFerry { o with st := .parked w, pages := pages })).notify sp.ctx w (.ferry sp.uid o.id) pages
        | (t, some (.fatal c), _) => (t.opEnded sp o).ferryFail id o.id (o.fail.getD (o.comp, c))
        | (t, some (.pass _ _), _) => t

/-! The fork (R206). -/

/-- Do the bytes from `lo` to `hi` of a deck operand leave the allocation? -/
def deckOut (bytes : Nat) (base : Word) (lo hi : Int) : Bool :=
  isDeckAddr base && ((base.extractLsb' 24 39 ≠ 0) ||
    decide ((base.extractLsb' 0 24).toNat + lo < 0) || decide ((bytes : Int) < (base.extractLsb' 0 24).toNat + hi))

/-- The displacement of every range of an operand. -/
def FerryOp.extents (o : FerryOp) (dst : Bool) : List (Int × Int) :=
  let P := sext32 o.strA 0
  let each (f : Nat → Nat → List (Int × Int)) : List (Int × Int) :=
    ((List.range o.fpNR).map fun r => ((List.range o.fpNS).map (f r)).flatten).flatten
  let from_ (a : Int) (n : Nat) : Int × Int := (a, a + n)
  if o.kind = .fpln then
    if dst then each fun r k => [from_ (r * o.fpQ + k * o.fpBytes) o.fpBytes]
    else if o.fpSRC = 2 then each fun r k => [from_ (r * P + 8 * k * (1 + 3 * o.fpP)) (8 * (1 + 3 * o.fpP))]
    else if o.fpTR then each fun r k => (List.range 192).map fun (e : Nat) => from_ ((192 * k + e) * P + r * o.fpSize) o.fpSize
    else each fun r k => [from_ (r * P + 192 * k * o.fpSize) (192 * o.fpSize)]
  else if o.rowLen = 0 then []
  else (List.range o.rowCount).map fun i => from_ (if dst then (o.rowAt i).2 else (o.rowAt i).1) o.rowLen

/-- Does a copy touch a peer frame (R346)? -/
def State.touchesPeer (s : State) (cx : Context) (o : FerryOp) : Option Nat :=
  let ranges := (o.extents false).map (fun e => (o.src, e)) ++ (o.extents true).map fun e => (o.dst, e)
  ranges.findSome? fun r =>
    match placeAt r.1 r.2.1 with
    | .deck _ => none
    | .mem va => (pagePieces va (r.2.2 - r.2.1).toNat).findSome? fun q =>
        match s.leafOf cx q.1 with
        | some lf => if lf.loc = 2 && decide (peerOf lf.frame ≠ 0) && decide (peerOf lf.frame < 13) then some q.1 else none
        | none => none

/-- A shape that FPLN does not accept (R209), and a peer frame that a copy may not touch (R346). -/
def State.ferryShape (s : State) (cx : Context) (o : FerryOp) : Option (Word × Cause) :=
  if o.kind = .fpln && (o.fpSRC = 3 || (o.fpSRC = 2 && o.fpTR)) then some (Config.refusedShapeAddress o.id, .ill)
  else if o.kind ≠ .fpln && o.scope ≠ .sys then (s.touchesPeer cx o).map fun va => (BitVec.ofNat 64 va, .prot)
  else none

/-- What makes an operation fail before any chunk (R206, R209, R346). FSTAT's address of a deck range outside the allocation is the operand's
base, of a link its offset. (log 55, DESIGN CHOICE) -/
def State.ferryRefused (s : State) (cx : Context) (sp : Span) (o : FerryOp) : Option (Word × Cause) :=
  let bytes := s.deckBytes sp
  if o.comp.toNat % 8 ≠ 0 then some (o.comp, .misalign)
  else if o.comp.getLsbD 63 then some (o.comp, .unmapped)
  else if (o.extents true).any (fun e => deckOut bytes o.dst e.1 e.2) || (isDeckAddr o.dst && o.dst.extractLsb' 24 39 ≠ 0) then
    some (o.dst, .deckrange)
  else if (o.extents false).any (fun e => deckOut bytes o.src e.1 e.2) || (isDeckAddr o.src && o.src.extractLsb' 24 39 ≠ 0) then
    some (o.src, .deckrange)
  else match o.link with
    | some obj =>
      if bytes < obj + 16 then some (BitVec.ofNat 64 obj, .deckrange) else s.ferryShape cx o
    | none => s.ferryShape cx o

/-- The fork of a ferry operation, its drain done (R134, R155, R206). (log 30, DEDUCED) -/
def State.ferryFork (s : State) (sp : Span) (o0 : FerryOp) : State :=
  let o := { o0 with view := s.forking sp o0.seq }
  match s.ctx? sp.ctx with
  | none => s
  | some cx =>
    if o.cancel then s.ferryFinish sp.id o
    else match s.ferryRefused cx sp o with
      | some f => s.ferryFinish sp.id { o with fail := some f }
      | none =>
        let o1 := { o with st := FState.running }
        let s1 := s.onSpan sp.id (·.putFerry o1)
        if o.total = 0 then s1.ferryFinish sp.id o1 else s1

/-- The place of a chunk in its operation's chunk order (R316). -/
def FerryOp.order (o : FerryOp) (c : Nat) : Nat :=
  let row := c / 2 ^ 40
  let k := c % 2 ^ 40
  if o.kind = .fpln then row * o.fpNS + k
  else ((List.range row).map fun i => (lineOff (placeAt o.dst (o.rowAt i).2) + o.rowLen + 63) / 64).sum + k

/-- The first place that is not performed (R316). -/
def FerryOp.nextChunk (o : FerryOp) : Nat :=
  let done := o.done.map o.order
  ((List.range (done.length + 1)).find? fun n => !done.contains n).getD 0

/-- Is a line of a range of memory locked by a move or held (R109, R143)? A request of the ferry bounces there, and is made again. -/
def State.placeBusy (s : State) (os : List (Nat × XOut)) (p : Place × Nat) : Bool :=
  match p.1 with
  | .deck _ => false
  | .mem va => (keysIn os va p.2).any fun q =>
      s.bytesHeld q.1 q.2 || (List.range ((q.1 % 64 + q.2 + 63) / 64)).any fun i => s.lineMoved (lineOf q.1 + i)

/-- Does a walk for one of these ranges meet a held line (R109)? -/
def State.rangesHeld (s : State) (pier : Nat) (cx : Context) (need : Need) (rs : List (Nat × Nat)) : Bool :=
  rs.any fun r => (pagePieces r.1 r.2).any fun q => s.seekHeld (some pier) cx q.1 need

/-- The places of a stripe's line parts, once their pages have passed. -/
def stripeKeys (os : List (Nat × XOut)) (ch : Chunk) : List Nat :=
  ch.lineParts.map fun q => match ch.dst.plus q.1 with
    | .deck off => off.toNat
    | .mem va => (keyAt os va).getD 0

/-- The source lines of a chunk have been read at their ports (R130). -/
def State.portsRead (s : State) (os : List (Nat × XOut)) (part : Nat) (ps : List (Place × Nat)) : State :=
  ps.foldl (fun t p => match p.1 with
    | .deck _ => t
    | .mem va => (keysIn os va p.2).foldl (fun u q => u.portsFree part q.1 q.2) t) s

/-- A chunk has been performed: it counts, its barrier falls, and the operation ends with its last one (R149, R206). An operation that
has been cancelled ends with its last open stripe, whose bytes its cancellation left to it (R209, R210). -/
def State.chunkDone (s : State) (sp : Span) (o : FerryOp) (c len : Nat) : State :=
  let o1 := { o with done := o.done ++ [c], stripes := o.stripes.filter (·.chunk ≠ c), bytes := o.bytes + len, words := o.words.filter (·.1 ≠ c) }
  let s1 := (s.onSpan sp.id (·.putFerry o1)).linkFall sp o len
  if decide (o.total ≤ o1.bytes) || (o1.cancel && o1.stripes.isEmpty) then s1.ferryFinish sp.id o1 else s1

/-- One line part of a stripe is performed (R209): once, where its check found it or where a move has sent it. -/
def State.stripePart (s : State) (sp : Span) (o : FerryOp) (ch : Chunk) (st : OpenStripe) (j : Nat) : State :=
  match ch.lineParts[j]?, st.keys[j]? with
  | some (off, len), some k =>
    let line := if isDeckAddr o.dst then 0 else (s.forwarded (lineOf k)).getD (lineOf k)
    if st.parts.contains j || (!isDeckAddr o.dst && (s.lineMoved line || s.lineHeld line)) then s else
      let bs := (st.out.drop off).take len
      let s1 := if isDeckAddr o.dst then s.deckWrite sp.block k bs
        else if (homeDie (64 * line)).any s.fenced.contains then s
        else ((s.poke (64 * line + k % 64) bs).unlist (some sp.pier) (64 * line) 64).portFrees sp.part line
      let st1 := { st with parts := st.parts ++ [j] }
      let o1 := { o with view := if isDeckAddr o.dst then o.view else joinViews o.view (s1.known (64 * line + k % 64) len s1.steps) }
      if st1.parts.length < ch.lineParts.length then
        s1.onSpan sp.id (·.putFerry { o1 with stripes := o1.stripes.map fun t => if t.chunk = st.chunk then st1 else t })
      else s1.chunkDone sp o1 st.chunk ch.len
  | _, _ => s

/-- Landing entries of a pier's ferry that hold line parts of open stripes (R135). -/
def State.ferryOut (s : State) (pier : Nat) : Nat :=
  ((s.spans.filter (·.pier = pier)).map fun sp =>
    (sp.ferry.map fun o => (o.stripes.map fun st => st.keys.length - st.parts.length).sum).sum).sum

/-- May a chunk that is not begun begin: not cancelled or failed, at most 64 places beyond the first that is not performed (R316)? -/
def FerryOp.mayBegin (o : FerryOp) (c : Nat) : Bool :=
  o.fail.isNone && !o.cancel && !o.done.contains c && decide (o.order c ≤ o.nextChunk + 64)

/-- Some deck words of the source of a chunk that is not begun are read, and stay for it as they were read (R247): the device's choice, made
afresh for each. (log 28, DESIGN CHOICE) -/
def State.ferryTouch (s : State) (sp : Span) (o : FerryOp) (c : Nat) : State :=
  let (n, _) := o.named c
  match s.block? sp.block, o.chunk? n with
  | some k, some ch =>
    if !o.mayBegin n || o.stripes.any (·.chunk = n) then s else
      let offs := ((ch.src.map fun p => match p.1 with
        | .deck off => (List.range ((off.toNat % 8 + p.2 + 7) / 8)).map fun i => off.toNat / 8 * 8 + 8 * i
        | .mem _ => []).flatten).eraseDups
      let read := (offs.filter fun a => Config.planeWord s.steps a && !o.words.any fun w => w.1 = n && w.2.1 = a).map fun a => (n, a, sgets 0 k.deck a 8)
      s.onSpan sp.id (·.putFerry { o with words := o.words ++ read })
  | _, _ => s

/-- One step of the ferry (R149, R209): a line part of a stripe that is open; or a chunk, checked and then performed, of a stripe its first
line part. A park or a failure is found at the first chunk that is not performed, and once no stripe is open, so every chunk before it
stays performed. (log 30, DEDUCED) -/
def State.ferryChunk (s : State) (sp : Span) (o : FerryOp) (c : Nat) : State :=
  let (n, j) := o.named c
  match s.ctx? sp.ctx, o.chunk? n with
  | some cx, some ch =>
    match o.stripes.find? (·.chunk = n) with
    | some st => s.stripePart sp o ch st j
    | none =>
      let peer := o.kind ≠ .fpln && o.scope = .sys
      let rd : Need := { rd := true, peer := peer }
      let wr : Need := { wr := true, peer := peer }
      if !o.mayBegin n || s.rangesHeld sp.pier cx rd (memRanges ch.src) || s.rangesHeld sp.pier cx wr (memRanges [(ch.dst, ch.len)]) then s else
        let (s1, so) := s.ferryWalk sp.pier cx rd (memRanges ch.src)
        let (s2, dO) := s1.ferryWalk sp.pier cx wr (memRanges [(ch.dst, ch.len)])
        let all := so ++ dO
        let first := decide (o.order n = o.nextChunk) && o.stripes.isEmpty
        match firstFatal all, firstPark all with
        | some (va, cause), _ => if !first then s else s2.ferryFinish sp.id { o with fail := some (BitVec.ofNat 64 va, cause) }
        | none, some w => if !first then s else
          (s2.onSpan sp.id (·.putFerry { o with st := .parked w, pages := parkPages all })).notify sp.ctx w (.ferry sp.uid o.id) (parkPages all)
        | none, none =>
          if ch.src.any (s2.placeBusy so) then s else
            let words := (o.words.filter (·.1 = n)).map (·.2)
            let bs := (ch.src.map fun p => s2.readPlace so sp.block words p.1 p.2).flatten
            let o0 := { o with view := joinViews o.view (ch.src.map (s2.seenAt so)).flatten }
            if o.kind ≠ .fpln then
              if s2.placeBusy dO (ch.dst, ch.len) then s else
                let s3 := (s2.portsRead so sp.part ch.src).writePlace dO sp ch.dst bs
                s3.chunkDone sp { o0 with view := joinViews o0.view (s3.seenAt dO (ch.dst, ch.len)) } n ch.len
            else if Config.ferryLanding < s2.ferryOut sp.pier + ch.lineParts.length then s
            else
              let st : OpenStripe := { chunk := n, out := o.stripe bs, keys := stripeKeys dO ch }
              let o1 := { o0 with stripes := o0.stripes ++ [st] }
              ((s2.portsRead so sp.part ch.src).onSpan sp.id (·.putFerry o1)).stripePart sp o1 ch st j
  | _, _ => s

/-- An operation at its end whose last write a held line has kept waiting tries it again (R109). -/
def State.ferryRetry (s : State) (id : Nat) (o : FerryOp) : State := if o.st = .running && o.kind ≠ .nsend && o.over then s.ferryFinish id o else s

/-- A parked operation woken by the fault service (R144, R149). -/
def State.ferryWake (s : State) (id : Nat) (o : FerryOp) : State :=
  let o1 := { o with st := FState.running, pages := [] }
  if o1.over then (s.onSpan id (·.putFerry o1)).ferryFinish id o1
  else s.onSpan id (·.putFerry o1)

/-- A cancellation (R210): at once but for an operation that has not forked, and for stripes that are open, which are finished (R209).
(log 30, DEDUCED) -/
def State.ferryCancel (s : State) (sp : Span) (o : FerryOp) : State :=
  let done := o.st ≠ .drain && decide (o.total ≤ o.bytes)
  if o.fail.isSome || o.cancel || done then s
  else
    let o1 := { o with cancel := true, pages := [] }
    let s1 := (s.onSpan sp.id (·.putFerry o1)).linkFall sp o (o.total - o.bytes - o.stripes.length * o.fpBytes)
    if o.st = .drain || !o.stripes.isEmpty then s1 else s1.ferryFinish sp.id o1

end Sys2Proof.Machine
end

