-- ==== Sys2Proof/Machine/Ferry.lean ====
section
/-! DEFINITION. Class 0x6: the ferry and the net (R206 to R212). -/

namespace Sys2Proof.Machine

/-- A free ferry slot, and no acquire of the span that its fork could pass (R154, R206). -/
def ferryReady (_ : State) (i : Iss) : Bool := !i.sp.acqHeld && decide (i.sp.ferry.length < Config.spanSlots)

/-- The operation that a descriptor in S(D) to S(D + 3) gives, all operands read at issue (R206). -/
def ferryOp (kind : FerryKind) (x : MEM) (sp : Span) (strA strB : Word) : FerryOp :=
  let d := x.d.toNat
  { id := sp.seq, kind := kind, st := .drain, seq := sp.seq, scope := x.scope, dst := sp.s d, src := sp.s (d + 1), shape := sp.s (d + 2),
    comp := sp.s (d + 3), value := sp.s x.a.toNat, strA := strA, strB := strB,
    link := if x.off.getLsbD 9 then some (16 * (x.off.toNat % 512)) else none }

def ferryIssue (i : Instr) (op : Span → FerryOp) (s : State) : Out :=
  issue i { ready := ferryReady }
    (fun t x =>
      let sp := x.moved
      if x.G.isEmpty then t.putSpan sp else t.putSpan { sp with seq := sp.seq + 1, ferry := sp.ferry ++ [op x.sp] }) s

/-- FCPY (R207). -/
def execFcpy (x : MEM) (s : State) : Out := ferryIssue (.fcpy x) (fun sp => ferryOp .fcpy x sp 0 0) s

/-- FCPYT (R208). -/
def execFcpyt (x : MEM) (s : State) : Out :=
  ferryIssue (.fcpyt x) (fun sp => ferryOp .fcpyt x sp (sp.s x.b.toNat) (sp.s (x.b.toNat + 1))) s

/-- FPLN (R209). -/
def execFpln (x : MEM) (s : State) : Out := ferryIssue (.fpln x) (fun sp =>
  ferryOp .fpln x sp (sp.s x.b.toNat) (if x.b.toNat = 63 then Config.pastRegister sp.seq else sp.s (x.b.toNat + 1))) s

/-- FCAN (R210). (log 30, DEDUCED) -/
def execFcan (x : RRR) (s : State) : Out :=
  issue (.fcan x) {}
    (fun t i =>
      let t1 := t.putSpan i.moved
      if i.G.isEmpty then t1 else
        (i.sp.ferry.filter fun o => o.kind ≠ .nsend && (x.bit 0 || o.comp = i.sp.s x.a.toNat)).foldl
          (fun u o => match u.span? i.id with | some sp => u.ferryCancel sp o | none => u) t1) s

/-- The state word of FSTAT (R211). (log 30, DEDUCED) -/
def ferryState (o : FerryOp) : Nat :=
  256 * (o.bytes % 2 ^ 40) + (match o.st with
    | .drain => 1
    | .running => 2
    | .parked .page => 16 + 3
    | .parked .expand => 32 + 3
    | .parked .migrate => 48 + 3)

/-- FSTAT (R211): the result is pending. (log 30, DEDUCED) -/
def execFstat (x : RRR) (s : State) : Out :=
  regOp (.fstat x) {} (fun i sp =>
    if i.G.isEmpty then sp else
      let v : Nat := match x.lo2 with
        | 0 => match i.sp.ferry.find? (fun o => o.kind ≠ .nsend && o.comp = i.sp.s x.a.toNat) with
          | some o => ferryState o
          | none => 0
        | 1 => match i.sp.lastFail with | some (a, _) => a.toNat | none => 0
        | _ => match i.sp.lastFail with | some (_, c) => c.code | none => 0
      sp.pend { id := 0, lane := none, sreg := some x.d.toNat, val := BitVec.ofNat 128 v }) s

/-- NSEND (R212): the vector of all 32 lanes, whatever their states. -/
def execNsend (x : MEM) (s : State) : Out :=
  issue (.nsend x)
    { ready := ferryReady, unsync := fun _ i => !i.G.isEmpty && i.sp.crossPending [x.a.toNat] laneNums }
    (fun t i =>
      let sp := i.moved
      if i.G.isEmpty then t.putSpan sp else
        let w := i.sp.s x.d.toNat
        let o : FerryOp := { id := sp.seq, kind := .nsend, st := .drain, seq := sp.seq, scope := x.scope, tree := w.toNat % 256,
                             round := w.toNat / 2 ^ 32, vec := laneNums.map fun l => i.sp.v x.a.toNat l }
        t.putSpan { sp with seq := sp.seq + 1, ferry := sp.ferry ++ [o] }) s

end Sys2Proof.Machine
end

