-- ==== Sys2Proof/WellFormed.lean ====
section
/-! DEFINITION. Well-formed instructions: those whose word the device would issue, not trap ILL (R75). -/

namespace Sys2Proof

/-- No rule of R75 is broken. -/
def wf (i : Instr) : Bool := (illegal i).isNone

end Sys2Proof
end

