-- ==== Sys2Proof/Decode.lean ====
section
/-! DEFINITION. Reading a word as an instruction, and writing an instruction as its word (R51 to R75): the two forms, the
three extension layouts, the opcode map and the compact opcodes. A word that is no instruction is refused with the row of
R75 that it breaks. -/

namespace Sys2Proof

/-- The bits [hi:lo] of a word. -/
abbrev bits (w : Word) (lo n : Nat) : BitVec n := w.extractLsb' lo n

/-! Codes. -/

/-- The TYPE code (R57). -/
def Ty.code : Ty → BitVec 5
  | .s8 => 0x00 | .s16 => 0x01 | .s32 => 0x02 | .s64 => 0x03 | .n8 => 0x04 | .n16 => 0x05 | .n32 => 0x06 | .n64 => 0x07
  | .b8 => 0x08 | .b16 => 0x09 | .b32 => 0x0A | .b64 => 0x0B | .b128 => 0x0C
  | .f32 => 0x10 | .f16 => 0x11 | .bf16 => 0x12 | .f16x2 => 0x13 | .bf16x2 => 0x14 | .l6 => 0x15

/-- The SCOPE code (R60). -/
def Scope.code : Scope → BitVec 3
  | .span => 0 | .block => 1 | .pier => 2 | .die => 3 | .pkg => 4 | .sys => 5

def scopeOf : BitVec 3 → Option Scope
  | 0 => some .span | 1 => some .block | 2 => some .pier | 3 => some .die | 4 => some .pkg | 5 => some .sys | _ => none

/-- The ORDER code (R60). -/
def Order.code : Order → BitVec 3
  | .plain => 0 | .acq => 1 | .rel => 2 | .ar => 3 | .seq => 4

def orderOf : BitVec 3 → Option Order
  | 0 => some .plain | 1 => some .acq | 2 => some .rel | 3 => some .ar | 4 => some .seq | _ => none

/-- The COND code (R56). -/
def condOf : BitVec 3 → Cond
  | 0 => .eq | 1 => .ne | 2 => .lt | 3 => .le | 4 => .gt | 5 => .ge | 6 => .num | 7 => .nan

/-- The CT code (R61). -/
def Combine.code : Combine → BitVec 3
  | .set => 0 | .full => 1 | .and => 2 | .or => 3 | .andn => 4 | .xor => 5

def combineOf : BitVec 3 → Option Combine
  | 0 => some .set | 1 => some .full | 2 => some .and | 3 => some .or | 4 => some .andn | 5 => some .xor | _ => none

/-! The guard: GE, GP, GS (R52). -/

def guardBits : Guard → BitVec 6
  | .always => 0
  | .pred p neg => 1#1 ++ p ++ BitVec.ofBool neg

/-- Without GE, GP and GS are 0 or the word traps ILL. -/
def guardOf (g : BitVec 6) : Except Ill Guard :=
  if g.getLsbD 5 then .ok (.pred (g.extractLsb' 1 4) (g.getLsbD 0))
  else if g = 0 then .ok .always else .error .guardField

/-! The full form (R51): FORM, W, guard, OP, U, D, A, and 29 bits that the layout shares out. -/

def packFull (op : BitVec 10) (c : Ctl) (d a : BitVec 8) (rest : BitVec 29) : Word :=
  0#1 ++ BitVec.ofBool c.w ++ guardBits c.guard ++ op ++ BitVec.ofBool c.u ++ d ++ a ++ rest

def ctlOf (w : Word) : Except Ill Ctl := do
  let g ← guardOf (bits w 56 6)
  .ok ⟨w.getLsbD 62, g, w.getLsbD 45⟩

def opOf (w : Word) : BitVec 10 := bits w 46 10
def dOf (w : Word) : BitVec 8 := bits w 37 8
def aOf (w : Word) : BitVec 8 := bits w 29 8

/-- A code that may be reserved. -/
def code {α : Type} (o : Option α) (e : Ill) : Except Ill α := match o with | some a => .ok a | none => .error e

/-! The layouts (R56, R58, R60). -/

def packRRR (op : BitVec 10) (x : RRR) : Word :=
  packFull op x.ctl x.d x.a (x.b ++ BitVec.ofBool x.ka ++ BitVec.ofBool x.kb ++ x.c ++ x.ty.code ++ x.f6)

def readRRR (w : Word) : Except Ill RRR := do
  let c ← ctlOf w
  let ty ← code (tyOfNat (bits w 6 5).toNat) .reservedCode
  .ok { ctl := c, d := dOf w, a := aOf w, b := bits w 21 8, ka := w.getLsbD 20, kb := w.getLsbD 19, c := bits w 11 8, ty := ty,
        f6 := bits w 0 6 }

def packRIT (op : BitVec 10) (x : RIT) : Word := packFull op x.ctl x.d x.a (x.ty.code ++ x.imm)

def readRIT (w : Word) : Except Ill RIT := do
  let c ← ctlOf w
  let ty ← code (tyOfNat (bits w 24 5).toNat) .reservedCode
  .ok { ctl := c, d := dOf w, a := aOf w, ty := ty, imm := bits w 0 24 }

def packRIC (op : BitVec 10) (x : RIC) : Word :=
  packFull op x.ctl x.d x.a (x.ty.code ++ BitVec.ofNat 3 x.cond.code ++ x.ct.code ++ x.imm)

def readRIC (w : Word) : Except Ill RIC := do
  let c ← ctlOf w
  let ty ← code (tyOfNat (bits w 24 5).toNat) .reservedCode
  let ct ← code (combineOf (bits w 18 3)) .reservedCode
  .ok { ctl := c, d := dOf w, a := aOf w, ty := ty, cond := condOf (bits w 21 3), ct := ct, imm := bits w 0 18 }

def packRIB (op : BitVec 10) (x : RIB) : Word := packFull op x.ctl x.d x.a (BitVec.ofBool x.y ++ x.off)

def readRIB (w : Word) : Except Ill RIB := do
  let c ← ctlOf w
  .ok { ctl := c, d := dOf w, a := aOf w, y := w.getLsbD 28, off := bits w 0 28 }

def packRIW (op : BitVec 10) (x : RIW) : Word := packFull op x.ctl x.d x.a x.imm

def readRIW (w : Word) : Except Ill RIW := do
  let c ← ctlOf w
  .ok { ctl := c, d := dOf w, a := aOf w, imm := bits w 0 29 }

def packMEM (op : BitVec 10) (x : MEM) : Word :=
  packFull op x.ctl x.d x.a
    (x.b ++ BitVec.ofBool x.ka ++ BitVec.ofBool x.kb ++ x.scope.code ++ x.order.code ++ x.size ++ x.off)

def readMEM (w : Word) : Except Ill MEM := do
  let c ← ctlOf w
  let sc ← code (scopeOf (bits w 16 3)) .memoryCode
  let or ← code (orderOf (bits w 13 3)) .memoryCode
  .ok { ctl := c, d := dOf w, a := aOf w, b := bits w 21 8, ka := w.getLsbD 20, kb := w.getLsbD 19, scope := sc, order := or,
        size := bits w 10 3, off := bits w 0 10 }

/-! The paired form (R68). -/

/-- The compact opcode COP (R72). -/
def Cop.code : Cop → BitVec 7
  | .addS32 => 0x00 | .subS32 => 0x01 | .addsS32 => 0x02 | .subsS32 => 0x03 | .mulS32 => 0x04 | .minS32 => 0x05
  | .maxS32 => 0x06 | .minN32 => 0x07 | .maxN32 => 0x08 | .andB32 => 0x09 | .orB32 => 0x0A | .xorB32 => 0x0B
  | .andnB32 => 0x0C | .shlB32 => 0x0D | .shrB32 => 0x0E | .shaB32 => 0x0F | .rotB32 => 0x10 | .movB32 => 0x11
  | .addS64 => 0x12 | .subS64 => 0x13 | .andB64 => 0x14 | .orB64 => 0x15 | .xorB64 => 0x16 | .shlB64 => 0x17
  | .shrB64 => 0x18 | .shaB64 => 0x19 | .movB64 => 0x1A | .faddF32 => 0x20 | .fmulF32 => 0x21 | .fminF32 => 0x22
  | .fmaxF32 => 0x23 | .faddBf16x2 => 0x24 | .fmulBf16x2 => 0x25 | .fminBf16x2 => 0x26 | .fmaxBf16x2 => 0x27
  | .faddF16x2 => 0x28 | .fmulF16x2 => 0x29 | .fminF16x2 => 0x2A | .fmaxF16x2 => 0x2B | .nop => 0x7F

def copOf (c : BitVec 7) : Option Cop :=
  match c.toNat with
  | 0x00 => some .addS32 | 0x01 => some .subS32 | 0x02 => some .addsS32 | 0x03 => some .subsS32
  | 0x04 => some .mulS32 | 0x05 => some .minS32 | 0x06 => some .maxS32 | 0x07 => some .minN32
  | 0x08 => some .maxN32 | 0x09 => some .andB32 | 0x0A => some .orB32 | 0x0B => some .xorB32
  | 0x0C => some .andnB32 | 0x0D => some .shlB32 | 0x0E => some .shrB32 | 0x0F => some .shaB32
  | 0x10 => some .rotB32 | 0x11 => some .movB32 | 0x12 => some .addS64 | 0x13 => some .subS64
  | 0x14 => some .andB64 | 0x15 => some .orB64 | 0x16 => some .xorB64 | 0x17 => some .shlB64 | 0x18 => some .shrB64
  | 0x19 => some .shaB64 | 0x1A => some .movB64 | 0x20 => some .faddF32 | 0x21 => some .fmulF32
  | 0x22 => some .fminF32 | 0x23 => some .fmaxF32 | 0x24 => some .faddBf16x2 | 0x25 => some .fmulBf16x2
  | 0x26 => some .fminBf16x2 | 0x27 => some .fmaxBf16x2 | 0x28 => some .faddF16x2 | 0x29 => some .fmulF16x2
  | 0x2A => some .fminF16x2 | 0x2B => some .fmaxF16x2 | 0x7F => some .nop
  | _ => none

def packHalf (cop : Cop) (f : HalfF) : BitVec 31 := guardBits f.guard ++ cop.code ++ f.d ++ f.b ++ f.k

def readHalf (h : BitVec 31) : Except Ill Half := do
  let g ← match guardOf (h.extractLsb' 25 6) with | .ok g => .ok g | .error _ => .error .pairedForm
  let cop ← code (copOf (h.extractLsb' 18 7)) .pairedForm
  .ok ⟨cop, { guard := g, d := h.extractLsb' 10 8, b := h.extractLsb' 2 8, k := h.extractLsb' 0 2 }⟩

def packPair (cop : Cop) (x : Pair) : Word :=
  1#1 ++ BitVec.ofBool x.w ++ packHalf cop x.h0 ++ packHalf x.h1.cop x.h1.f

/-- The constructor for a first half's compact opcode. -/
def pairInstr (x : Pair) : Cop → Instr
  | .addS32 => .halfAddS32 x | .subS32 => .halfSubS32 x | .addsS32 => .halfAddsS32 x | .subsS32 => .halfSubsS32 x
  | .mulS32 => .halfMulS32 x | .minS32 => .halfMinS32 x | .maxS32 => .halfMaxS32 x | .minN32 => .halfMinN32 x
  | .maxN32 => .halfMaxN32 x | .andB32 => .halfAndB32 x | .orB32 => .halfOrB32 x | .xorB32 => .halfXorB32 x
  | .andnB32 => .halfAndnB32 x | .shlB32 => .halfShlB32 x | .shrB32 => .halfShrB32 x | .shaB32 => .halfShaB32 x
  | .rotB32 => .halfRotB32 x | .movB32 => .halfMovB32 x | .addS64 => .halfAddS64 x | .subS64 => .halfSubS64 x
  | .andB64 => .halfAndB64 x | .orB64 => .halfOrB64 x | .xorB64 => .halfXorB64 x | .shlB64 => .halfShlB64 x
  | .shrB64 => .halfShrB64 x | .shaB64 => .halfShaB64 x | .movB64 => .halfMovB64 x | .faddF32 => .halfFaddF32 x
  | .fmulF32 => .halfFmulF32 x | .fminF32 => .halfFminF32 x | .fmaxF32 => .halfFmaxF32 x
  | .faddBf16x2 => .halfFaddBf16x2 x | .fmulBf16x2 => .halfFmulBf16x2 x | .fminBf16x2 => .halfFminBf16x2 x
  | .fmaxBf16x2 => .halfFmaxBf16x2 x | .faddF16x2 => .halfFaddF16x2 x | .fmulF16x2 => .halfFmulF16x2 x
  | .fminF16x2 => .halfFminF16x2 x | .fmaxF16x2 => .halfFmaxF16x2 x | .nop => .halfNop x

def readPair (w : Word) : Except Ill Instr := do
  let h0 ← readHalf (bits w 31 31)
  let h1 ← readHalf (bits w 0 31)
  .ok (pairInstr ⟨w.getLsbD 62, h0.f, h1⟩ h0.cop)

/-! The opcode map (R73). A function marked +I has its listed code and that code plus 0x20 (R59). -/

def readFull (w : Word) : Except Ill Instr :=
  match (opOf w).toNat with
  | 0x000 => .nop <$> readRRR w | 0x001 => .bra <$> readRIB w | 0x002 => .brx <$> readRRR w
  | 0x003 => .brq <$> readRIB w | 0x004 => .call <$> readRIB w | 0x005 => .callx <$> readRRR w
  | 0x006 => .ret <$> readRRR w | 0x007 => .yield <$> readRRR w | 0x008 => .cvg <$> readRRR w
  | 0x009 => .exit <$> readRRR w | 0x00A => .trap <$> readRIW w | 0x00B => .bkpt <$> readRIW w
  | 0x040 => .cmp <$> readRRR w | 0x041 => .fcmp <$> readRRR w | 0x042 => .plop <$> readRRR w
  | 0x043 => .pmov <$> readRRR w | 0x044 => .vote <$> readRRR w | 0x045 => .pset <$> readRRR w
  | 0x060 => .cmpImm <$> readRIC w | 0x080 => .add <$> readRRR w | 0x081 => .sub <$> readRRR w
  | 0x082 => .adds <$> readRRR w | 0x083 => .subs <$> readRRR w | 0x084 => .mul <$> readRRR w
  | 0x085 => .mulh <$> readRRR w | 0x086 => .mad <$> readRRR w | 0x087 => .div <$> readRRR w
  | 0x088 => .rem <$> readRRR w | 0x089 => .neg <$> readRRR w | 0x08A => .abs <$> readRRR w
  | 0x08B => .min <$> readRRR w | 0x08C => .max <$> readRRR w | 0x08D => .and <$> readRRR w
  | 0x08E => .or <$> readRRR w | 0x08F => .xor <$> readRRR w | 0x090 => .andn <$> readRRR w
  | 0x091 => .shl <$> readRRR w | 0x092 => .shr <$> readRRR w | 0x093 => .sha <$> readRRR w
  | 0x094 => .rot <$> readRRR w | 0x095 => .sel <$> readRRR w | 0x096 => .mov <$> readRRR w
  | 0x097 => .movi <$> readRIW w | 0x098 => .movh <$> readRIW w | 0x099 => .lea <$> readRIW w
  | 0x09A => .xtn <$> readRRR w | 0x0A0 => .addImm <$> readRIT w | 0x0A1 => .subImm <$> readRIT w
  | 0x0A2 => .addsImm <$> readRIT w | 0x0A3 => .subsImm <$> readRIT w | 0x0A4 => .mulImm <$> readRIT w
  | 0x0A5 => .mulhImm <$> readRIT w | 0x0A7 => .divImm <$> readRIT w | 0x0A8 => .remImm <$> readRIT w
  | 0x0AB => .minImm <$> readRIT w | 0x0AC => .maxImm <$> readRIT w | 0x0AD => .andImm <$> readRIT w
  | 0x0AE => .orImm <$> readRIT w | 0x0AF => .xorImm <$> readRIT w | 0x0B0 => .andnImm <$> readRIT w
  | 0x0B1 => .shlImm <$> readRIT w | 0x0B2 => .shrImm <$> readRIT w | 0x0B3 => .shaImm <$> readRIT w
  | 0x0B4 => .rotImm <$> readRIT w | 0x0C0 => .bfx <$> readRRR w | 0x0C1 => .bfi <$> readRRR w
  | 0x0C2 => .popc <$> readRRR w | 0x0C3 => .clz <$> readRRR w | 0x0C4 => .brev <$> readRRR w
  | 0x0C5 => .shfl <$> readRRR w | 0x0C6 => .reds <$> readRRR w | 0x0C7 => .rdln <$> readRRR w
  | 0x0C8 => .wrln <$> readRRR w | 0x0C9 => .mfs <$> readRRR w | 0x0CA => .mts <$> readRRR w
  | 0x0CB => .rdix <$> readRRR w | 0x0CC => .wrix <$> readRRR w | 0x100 => .ld <$> readMEM w
  | 0x101 => .st <$> readMEM w | 0x102 => .ldd <$> readMEM w | 0x103 => .std <$> readMEM w
  | 0x104 => .lda <$> readMEM w | 0x105 => .stl <$> readMEM w | 0x106 => .pfs <$> readRRR w
  | 0x107 => .cctl <$> readMEM w | 0x108 => .lth <$> readRRR w | 0x140 => .atom <$> readMEM w
  | 0x141 => .red <$> readMEM w | 0x142 => .cas <$> readMEM w | 0x143 => .atomd <$> readMEM w
  | 0x144 => .fence <$> readMEM w | 0x145 => .waita <$> readMEM w | 0x146 => .bara <$> readMEM w
  | 0x147 => .barw <$> readMEM w | 0x148 => .mbinit <$> readMEM w | 0x149 => .mbarv <$> readMEM w
  | 0x14A => .mbexp <$> readMEM w | 0x14B => .mbwait <$> readMEM w | 0x14C => .sred <$> readMEM w
  | 0x180 => .fcpy <$> readMEM w | 0x181 => .fcpyt <$> readMEM w | 0x182 => .fpln <$> readMEM w
  | 0x183 => .fcan <$> readRRR w | 0x184 => .nsend <$> readMEM w | 0x185 => .fstat <$> readRRR w
  | 0x1C0 => .fadd <$> readRRR w | 0x1C1 => .fsub <$> readRRR w | 0x1C2 => .fmul <$> readRRR w
  | 0x1C3 => .ffma <$> readRRR w | 0x1C4 => .fmin <$> readRRR w | 0x1C5 => .fmax <$> readRRR w
  | 0x1C6 => .fdiv <$> readRRR w | 0x1C7 => .fsqrt <$> readRRR w | 0x1C8 => .frcp <$> readRRR w
  | 0x1C9 => .frsq <$> readRRR w | 0x1CA => .fex2 <$> readRRR w | 0x1CB => .flg2 <$> readRRR w
  | 0x1CC => .fcls <$> readRRR w | 0x1CD => .frnd <$> readRRR w | 0x1CE => .fdot2 <$> readRRR w
  | 0x200 => .cvt <$> readRRR w | 0x201 => .rng <$> readRRR w | 0x202 => .pack <$> readRRR w
  | 0x203 => .unpk <$> readRRR w | 0x240 => .pmma <$> readRRR w | 0x241 => .pmms <$> readRRR w
  | 0x242 => .plma <$> readRRR w | 0x243 => .pacz <$> readRRR w | 0x244 => .pdrn <$> readRRR w
  | 0x245 => .pdrb <$> readRRR w | 0x246 => .pacs <$> readRRR w | 0x247 => .pacl <$> readRRR w
  | 0x248 => .psync <$> readRRR w | 0x280 => .spawn <$> readRRR w | 0x281 => .fref <$> readRRR w
  | 0x282 => .fdrop <$> readRRR w | 0x283 => .fjoin <$> readRRR w | 0x284 => .fpoll <$> readRRR w
  | 0x285 => .fret <$> readRRR w | 0x286 => .rpt <$> readRRR w | 0x287 => .post <$> readRRR w
  | 0x288 => .lnch <$> readRRR w | 0x2C0 => .rft <$> readRRR w | 0x2C1 => .mfc <$> readRRR w
  | 0x2C2 => .mtc <$> readRRR w | 0x2C3 => .tlbi <$> readRRR w | 0x2C4 => .snap <$> readRRR w
  | 0x2C5 => .time <$> readRRR w | 0x2C6 => .ctr <$> readRRR w | 0x2C7 => .sleep <$> readRRR w
  | _ => .error (if (bits w 52 4).toNat < 12 then .badFunction else .reservedClass)

/-- The instruction that a word stands for, or the row of R75 that it breaks. -/
def decode (w : Word) : Except Ill Instr := do
  let i ← if w.getLsbD 63 then readPair w else readFull w
  match illegal i with
  | none => .ok i
  | some e => .error e

/-- Eight bytes, the lowest address first, as a word (R6). -/
def wordOfBytes : List Byte → Word
  | [] => 0
  | b :: r => b.zeroExtend 64 ||| (wordOfBytes r <<< 8)

/-- The bytes of a word, the lowest address first. -/
def bytesOfWord (w : Word) : List Byte := (List.range 8).map fun i => w.extractLsb' (8 * i) 8

/-- The instruction at the head of a list of bytes, with the bytes that follow it. -/
def decodeBytes (bs : List Byte) : Except Ill (Instr × List Byte) :=
  if bs.length < 8 then .error .tooShort
  else match decode (wordOfBytes (bs.take 8)) with
    | .ok i => .ok (i, bs.drop 8)
    | .error e => .error e

/-- The word of an instruction by the opcode map; the steps of the device have none. -/
def encodeFull : Instr → Option Word
  | .nop x => some (packRRR 0x000 x) | .bra x => some (packRIB 0x001 x) | .brx x => some (packRRR 0x002 x)
  | .brq x => some (packRIB 0x003 x) | .call x => some (packRIB 0x004 x) | .callx x => some (packRRR 0x005 x)
  | .ret x => some (packRRR 0x006 x) | .yield x => some (packRRR 0x007 x) | .cvg x => some (packRRR 0x008 x)
  | .exit x => some (packRRR 0x009 x) | .trap x => some (packRIW 0x00A x) | .bkpt x => some (packRIW 0x00B x)
  | .cmp x => some (packRRR 0x040 x) | .fcmp x => some (packRRR 0x041 x) | .plop x => some (packRRR 0x042 x)
  | .pmov x => some (packRRR 0x043 x) | .vote x => some (packRRR 0x044 x) | .pset x => some (packRRR 0x045 x)
  | .cmpImm x => some (packRIC 0x060 x) | .add x => some (packRRR 0x080 x) | .sub x => some (packRRR 0x081 x)
  | .adds x => some (packRRR 0x082 x) | .subs x => some (packRRR 0x083 x) | .mul x => some (packRRR 0x084 x)
  | .mulh x => some (packRRR 0x085 x) | .mad x => some (packRRR 0x086 x) | .div x => some (packRRR 0x087 x)
  | .rem x => some (packRRR 0x088 x) | .neg x => some (packRRR 0x089 x) | .abs x => some (packRRR 0x08A x)
  | .min x => some (packRRR 0x08B x) | .max x => some (packRRR 0x08C x) | .and x => some (packRRR 0x08D x)
  | .or x => some (packRRR 0x08E x) | .xor x => some (packRRR 0x08F x) | .andn x => some (packRRR 0x090 x)
  | .shl x => some (packRRR 0x091 x) | .shr x => some (packRRR 0x092 x) | .sha x => some (packRRR 0x093 x)
  | .rot x => some (packRRR 0x094 x) | .sel x => some (packRRR 0x095 x) | .mov x => some (packRRR 0x096 x)
  | .movi x => some (packRIW 0x097 x) | .movh x => some (packRIW 0x098 x) | .lea x => some (packRIW 0x099 x)
  | .xtn x => some (packRRR 0x09A x) | .addImm x => some (packRIT 0x0A0 x) | .subImm x => some (packRIT 0x0A1 x)
  | .addsImm x => some (packRIT 0x0A2 x) | .subsImm x => some (packRIT 0x0A3 x)
  | .mulImm x => some (packRIT 0x0A4 x) | .mulhImm x => some (packRIT 0x0A5 x)
  | .divImm x => some (packRIT 0x0A7 x) | .remImm x => some (packRIT 0x0A8 x) | .minImm x => some (packRIT 0x0AB x)
  | .maxImm x => some (packRIT 0x0AC x) | .andImm x => some (packRIT 0x0AD x) | .orImm x => some (packRIT 0x0AE x)
  | .xorImm x => some (packRIT 0x0AF x) | .andnImm x => some (packRIT 0x0B0 x)
  | .shlImm x => some (packRIT 0x0B1 x) | .shrImm x => some (packRIT 0x0B2 x) | .shaImm x => some (packRIT 0x0B3 x)
  | .rotImm x => some (packRIT 0x0B4 x) | .bfx x => some (packRRR 0x0C0 x) | .bfi x => some (packRRR 0x0C1 x)
  | .popc x => some (packRRR 0x0C2 x) | .clz x => some (packRRR 0x0C3 x) | .brev x => some (packRRR 0x0C4 x)
  | .shfl x => some (packRRR 0x0C5 x) | .reds x => some (packRRR 0x0C6 x) | .rdln x => some (packRRR 0x0C7 x)
  | .wrln x => some (packRRR 0x0C8 x) | .mfs x => some (packRRR 0x0C9 x) | .mts x => some (packRRR 0x0CA x)
  | .rdix x => some (packRRR 0x0CB x) | .wrix x => some (packRRR 0x0CC x) | .ld x => some (packMEM 0x100 x)
  | .st x => some (packMEM 0x101 x) | .ldd x => some (packMEM 0x102 x) | .std x => some (packMEM 0x103 x)
  | .lda x => some (packMEM 0x104 x) | .stl x => some (packMEM 0x105 x) | .pfs x => some (packRRR 0x106 x)
  | .cctl x => some (packMEM 0x107 x) | .lth x => some (packRRR 0x108 x) | .atom x => some (packMEM 0x140 x)
  | .red x => some (packMEM 0x141 x) | .cas x => some (packMEM 0x142 x) | .atomd x => some (packMEM 0x143 x)
  | .fence x => some (packMEM 0x144 x) | .waita x => some (packMEM 0x145 x) | .bara x => some (packMEM 0x146 x)
  | .barw x => some (packMEM 0x147 x) | .mbinit x => some (packMEM 0x148 x) | .mbarv x => some (packMEM 0x149 x)
  | .mbexp x => some (packMEM 0x14A x) | .mbwait x => some (packMEM 0x14B x) | .sred x => some (packMEM 0x14C x)
  | .fcpy x => some (packMEM 0x180 x) | .fcpyt x => some (packMEM 0x181 x) | .fpln x => some (packMEM 0x182 x)
  | .fcan x => some (packRRR 0x183 x) | .nsend x => some (packMEM 0x184 x) | .fstat x => some (packRRR 0x185 x)
  | .fadd x => some (packRRR 0x1C0 x) | .fsub x => some (packRRR 0x1C1 x) | .fmul x => some (packRRR 0x1C2 x)
  | .ffma x => some (packRRR 0x1C3 x) | .fmin x => some (packRRR 0x1C4 x) | .fmax x => some (packRRR 0x1C5 x)
  | .fdiv x => some (packRRR 0x1C6 x) | .fsqrt x => some (packRRR 0x1C7 x) | .frcp x => some (packRRR 0x1C8 x)
  | .frsq x => some (packRRR 0x1C9 x) | .fex2 x => some (packRRR 0x1CA x) | .flg2 x => some (packRRR 0x1CB x)
  | .fcls x => some (packRRR 0x1CC x) | .frnd x => some (packRRR 0x1CD x) | .fdot2 x => some (packRRR 0x1CE x)
  | .cvt x => some (packRRR 0x200 x) | .rng x => some (packRRR 0x201 x) | .pack x => some (packRRR 0x202 x)
  | .unpk x => some (packRRR 0x203 x) | .pmma x => some (packRRR 0x240 x) | .pmms x => some (packRRR 0x241 x)
  | .plma x => some (packRRR 0x242 x) | .pacz x => some (packRRR 0x243 x) | .pdrn x => some (packRRR 0x244 x)
  | .pdrb x => some (packRRR 0x245 x) | .pacs x => some (packRRR 0x246 x) | .pacl x => some (packRRR 0x247 x)
  | .psync x => some (packRRR 0x248 x) | .spawn x => some (packRRR 0x280 x) | .fref x => some (packRRR 0x281 x)
  | .fdrop x => some (packRRR 0x282 x) | .fjoin x => some (packRRR 0x283 x) | .fpoll x => some (packRRR 0x284 x)
  | .fret x => some (packRRR 0x285 x) | .rpt x => some (packRRR 0x286 x) | .post x => some (packRRR 0x287 x)
  | .lnch x => some (packRRR 0x288 x) | .rft x => some (packRRR 0x2C0 x) | .mfc x => some (packRRR 0x2C1 x)
  | .mtc x => some (packRRR 0x2C2 x) | .tlbi x => some (packRRR 0x2C3 x) | .snap x => some (packRRR 0x2C4 x)
  | .time x => some (packRRR 0x2C5 x) | .ctr x => some (packRRR 0x2C6 x) | .sleep x => some (packRRR 0x2C7 x)
  | _ => none

/-- The word of an instruction; the steps of the device have none. -/
def encode (i : Instr) : Option Word :=
  match i.pair? with
  | some (cop, x) => some (packPair cop x)
  | none => encodeFull i

/-- The instruction whose bits, numbered as the opcode table numbers them, are `w`. The device stores the word's low byte at
the lowest address (R6). -/
def decodeTableWord (nbits w : Nat) : Option Instr :=
  match decodeBytes (bytesOfWord (BitVec.ofNat 64 (w % 2 ^ min nbits 64))) with
  | .ok (i, _) => some i
  | .error _ => none

end Sys2Proof
end

