-- ==== Sys2Proof/Machine/Kill.lean ====
section
/-! DEFINITION. What a kill leaves to be done (R356, R358): the writes that its spans had sent, each performed once, the stripes that its
ferry operations had begun, the report of dirty pages, and the end of the context. -/

namespace Sys2Proof.Machine

/-! Writes. -/

/-- The line on which a killed write takes effect: a move that has copied its page sends it to the new frame. -/
def State.killLine (s : State) (line : Nat) : Nat :=
  (s.moves.findSome? fun m =>
    let oldK := placeKey m.oldLoc m.old
    if decide (4 ≤ m.step) && decide (oldK ≤ 64 * line) && decide (64 * line < oldK + 2 ^ m.size) then
      some (lineOf (placeKey m.newLoc m.new + (64 * line - oldK)))
    else none).getD line

/-- One lane's part of a killed write (step 4). Its result, if it has one, is discarded. A release of it hands on all that is known, its own
span's earlier writes among it (log 50, DEDUCED). -/
def State.killPart (s : State) (w : Killed) (line : Nat) (p : Part) : State :=
  let a := p.acc
  let key := 64 * line + p.off
  let old := s.nat key a.size
  let said (t : State) : State :=
    t.announce none key p.len (((if a.order.releases then [a.scope] else []) ++ a.fences.map (·.scope)).map fun sc => (sc, t.missedAll)) w.party
  match a.op with
  | .load | .lda | .waita => s
  | .store => said (s.poke key p.bytes)
  | .stl => if a.armed then said (s.poke key p.bytes) else s
  | .red | .atom => said (s.rmwDone key (some (toBytes a.size (rmw a.size a.aop a.aty (BitVec.ofNat 64 old) (a.data.setWidth 64)).toNat)) a.size)
  | .cas => said (s.rmwDone key (if old = a.data.toNat % 2 ^ (8 * a.size) then some (toBytes a.size a.data2.toNat) else none) a.size)
  | .sred => s.contribute (w.pier / Config.piersPerDie) w.part line a.aop a.aty a.size w.blk p.off (a.data.setWidth 64)

/-- A write that has passed its check is performed once; on a fenced die it has no effect. -/
def State.killWrite (s : State) (w : Killed) (line : Nat) : State :=
  if (homeDie (64 * line)).any s.fenced.contains then s
  else ((w.entry.parts.foldl (fun (t : State) p => t.killPart w line p) s).dropL1 w.pier line).portFrees w.part line

def Killed.of (sp : Span) (e : Entry) (passed : Bool) : Killed :=
  { party := sp.party, part := sp.part, pier := sp.pier, blk := sp.block, passed := passed, entry := e }

/-- What a killed write needs of its page when it is translated again (R122). -/
def Killed.need (w : Killed) : Need := { rd := w.entry.any fun o => o.isRmw || o = .sred, wr := true }

/-- A killed write: performed, given up with its page, or still to be performed, when its page parks, or its line is held or locked, where
it bounces and waits for the release (R109, R116, R143). One that has not passed is translated again. (log 44, DEDUCED) (log 46, DEDUCED) -/
def State.killTry (s : State) (cx : Context) (w : Killed) : State × Option Killed :=
  let va := 64 * w.entry.vline
  let go (t : State) (line : Nat) : State × Option Killed :=
    if t.lineHeld line then (t, some w) else (t.killWrite w line, none)
  if w.passed then go s (s.killLine w.entry.pline)
  else if s.walkHeld cx va then (s, some w)
  else match s.walk none cx va w.need with
    | (t, .pass key _) => go t (lineOf key)
    | (t, .park why) => (t.notify cx.id why (.kill cx.id) [va / 65536 * 65536], some w)
    | (t, .fatal _) => (t, none)

/-- Killed writes, in order; behind one that is left, those of its span are left too (R132). -/
def State.killAll (s : State) (cx : Context) (ws : List Killed) : State × List Killed :=
  ws.foldl (fun (acc : State × List Killed) w =>
    if acc.2.any (·.party = w.party) then (acc.1, acc.2 ++ [w])
    else match acc.1.killTry cx w with
      | (t, some k) => (t, acc.2 ++ [k])
      | (t, none) => (t, acc.2)) (s, [])

/-- The bytes of a line part as stores of up to 16 bytes. -/
def storeParts (key : Nat) (bs : List Byte) : List Part :=
  (List.range ((bs.length + 15) / 16)).map fun i =>
    let x := (bs.drop (16 * i)).take 16
    ⟨{ op := .store, lane := none, ea := 0, size := x.length, data := BitVec.ofNat 128 (leNat x) }, key % 64 + 16 * i, 0, x.length⟩

/-- The line parts that the open stripes of a killed span have still to write (R149, R209, R356): a stripe of which a part is performed is
performed whole, one without a part performed is withdrawn. (log 44, DEDUCED) -/
def Span.killedStripes (sp : Span) : List Killed :=
  let party := { sp.party with span := none }
  (((sp.ferry.filter fun o => !isDeckAddr o.dst).map fun o => ((o.stripes.filter (!·.parts.isEmpty)).map fun st => match o.chunk? st.chunk with
    | none => []
    | some ch => (imap (fun j (q : Nat × Nat) => (j, q)) 0 ch.lineParts).filterMap fun x =>
        if st.parts.contains x.1 then none else (st.keys[x.1]?).map fun k =>
          { party := party, part := sp.part, pier := sp.pier, blk := sp.block, passed := true
            entry := { slot := 0, seq := o.seq, st := .inflight, op := .mem, pline := lineOf k, write := true
                       parts := storeParts k ((st.out.drop x.2.1).take x.2.2) } }).flatten).flatten)

/-- The writes of a killed span that is resident, in program order; those of a resumed one that wait for their translation are translated
again. What is left is still to be performed. -/
def State.killWrites (s : State) (cx : Context) (sp : Span) : State × List Killed :=
  let es := ((sp.landing ++ sp.unsent ++ sp.joining).filter fun e => e.isMem && e.st ≠ .done && e.any AccOp.writes).foldr insertSeq []
  let fresh (t : State) (e : Entry) : Entry := match (t.spanOf? sp.uid).bind fun u => (u.landing ++ u.unsent).find? fun f => f.seq = e.seq && f.vline = e.vline with
    | some f => f
    | none => e
  let one := fun (acc : State × List Killed) (e : Entry) =>
    let w := Killed.of sp (fresh acc.1 e) (e.reason ≠ 2)
    if acc.2.isEmpty then
      let (t, left) := acc.1.killTry cx w
      (t, left.toList)
    else (acc.1, acc.2 ++ [w])
  let (s1, left) := es.foldl one (s, [])
  let (s2, more) := s1.killAll cx sp.killedStripes
  (s2, left ++ more)

/-! The entries of a saved span (R137, R356). -/

/-- The runs of set bits of a line's byte mask, each of at most 16 bytes: the first byte and the length. -/
def maskRuns (mask : Nat) : List (Nat × Nat) :=
  (List.range 64).foldl (fun rs i =>
    if mask / 2 ^ i % 2 = 0 then rs else
      match rs.getLast? with
      | some (o, n) => if o + n = i ∧ n < 16 then rs.dropLast ++ [(o, n + 1)] else rs ++ [(i, 1)]
      | none => [(i, 1)]) []

/-- A saved landing entry of OPK 0 to 2, from its 128 bytes (R137); none of another kind, or free. The width of a reduction's elements, and
the fences before a write, are those of the entry kept beside it (log 12, DESIGN CHOICE). -/
def Entry.load (kept : Option Entry) (bs : List Byte) : Option Entry :=
  let word (at_ : Nat) : Nat := leNat ((bs.drop at_).take 8)
  let ctrl := word 8
  let opk := ctrl / 2 ^ 16 % 8
  if ctrl / 2 ^ 33 % 8 = 0 || 2 < opk then none else
    let code := ctrl / 2 ^ 21 % 8
    let order := if code = 3 then .rel else (orderOf (BitVec.ofNat 3 code)).getD .plain
    let scope := (scopeOf (BitVec.ofNat 3 (ctrl / 2 ^ 24))).getD .sys
    let olds := (kept.map fun e => e.parts.map (·.acc)).getD []
    let size := ((olds.head?).map (·.size)).getD 4
    let part (off n : Nat) : Part :=
      ⟨{ op := if opk = 0 then .store else if opk = 1 then .red else .sred, lane := none, ea := 0, size := n, order := order, scope := scope
         aop := ctrl % 8, aty := ctrl / 8 % 4, data := BitVec.ofNat 128 (leNat ((bs.drop (0x40 + off)).take n))
         fences := (olds.map (·.fences)).flatten.eraseDups }, off, 0, n⟩
    let parts := if opk = 0 then (maskRuns (word 0x10)).map fun r => part r.1 r.2
      else ((List.range (64 / size)).filter fun k => word 0x10 / 2 ^ (size * k) % 2 = 1).map fun k => part (size * k) size
    some { slot := 0, seq := 0, st := .inflight, op := .mem, vline := word 0 / 64, order := order, scope := scope, write := true, parts := parts }

/-- The writes that a save record still holds, in program order. -/
def SavedArea.writes (a : SavedArea) (bs : List Byte) : List Killed :=
  (List.range Config.landing).filterMap fun i => (Entry.load a.kept[i]? ((bs.drop (128 * i)).take 128)).map fun e =>
    { party := a.party, part := a.part, pier := a.pier, blk := a.blk, entry := e }

/-- The saved entries are read from the save area, as far as its pages allow; a record that cannot be read has none (R47, R356). (log 44,
DEDUCED) -/
def State.readAreas (s : State) (cx : Context) (as_ : List SavedArea) : State × List Killed × List SavedArea :=
  as_.foldl (fun (acc : State × List Killed × List SavedArea) a =>
    match acc.1.deviceRead none cx a.at_ 4096 with
    | (t, .ok bs) => (t, acc.2.1 ++ a.writes bs, acc.2.2)
    | (t, .error (.park w, pages)) => (t.notify cx.id w (.kill cx.id) pages, acc.2.1, acc.2.2 ++ [a])
    | (t, .error _) => (t, acc.2)) (s, [], [])

/-! The report and the end. -/

/-- The dirty-page report (R358): the pages found, and whether the report was cut. -/
def State.dirtyReport (s : State) (cx : Context) (k : Queue) : State × Nat × Bool :=
  let code (log : Nat) : Nat := match log with | 16 => 0 | 21 => 1 | 26 => 2 | _ => 3
  let dirty := ((s.leaves cx).filter fun l => l.2.word.getLsbD 0 && l.2.word.getLsbD 10).map fun l => l.1 + code l.2.log
  if k.krep = 0 then (s, dirty.length, false) else
    let room := (max 64 k.krepsz.toNat - 64) / 8
    let cut := decide (room < dirty.length)
    let bytes := toBytes 8 dirty.length ++ toBytes 1 cut.toNat ++ toBytes 55 0 ++ ((dirty.take room).map (toBytes 8)).flatten
    (s.poke (hostBase + k.krep.toNat) bytes, dirty.length, cut)

/-- The kill is done (steps 6 and 7): the report, the queue stopped, event 7, and the context is no more; the host has been told of what the
kill performed (R357). A round that a tree of it has still to close is closed by the next step of the net (R342). -/
def State.killEnd (s : State) (cx : Context) : State :=
  let k := s.queue cx.queue
  let (s1, n, cut) := (s.tellHost s.missedAll s.latest).dirtyReport cx k
  ({ s1 with
     ctxs := s1.ctxs.filter (·.id ≠ cx.id)
     notices := s1.notices.filter (·.ctx ≠ cx.id)
     parts := s1.parts.map fun (p : Partition) => { p with net := p.net.map fun (t : Tree) => if t.ctx = cx.id then { t with closing := false } else t } }.putQueue { s1.queue k.id with st := .stopped, late := false }).postEvent k.id 7
    (n + 2 ^ 64 * cut.toNat) none

/-- The writes that a kill has left are performed as far as their pages allow, saved ones once they have been read; with the last, the kill
ends. -/
def State.killGo (s : State) (ctx : Nat) : State :=
  match s.ctx? ctx with
  | none => s
  | some cx =>
    if cx.status ≠ .killing then s else
      let (s0, more, unread) := s.readAreas cx cx.unread
      let all := cx.rest ++ more
      let (s1, left) := s0.killAll cx all
      let s2 := all.foldl (fun (t : State) w => t.mergeBlock w.blk) (s1.onCtx ctx fun c => { c with rest := left, unread := unread })
      if left.isEmpty && unread.isEmpty then s2.killEnd cx else s2

end Sys2Proof.Machine
end

