-- ==== Sys2Proof/Machine/Net.lean ====
section
/-! DEFINITION. The net (R212 to R214, R334, R341 to R343, R384): the tree table, contributions, rounds. -/

namespace Sys2Proof.Machine

/-! The tree table (R334). -/

def zeros (bs : List Byte) (lo hi : Nat) : Bool := ((bs.drop lo).take (hi - lo)).all (· = 0)

def field (bs : List Byte) (lo n : Nat) : Nat := leNat ((bs.drop lo).take n)

/-- Does the path of parents lead from a contributor to the root? -/
def leadsTo (parent : List Nat) (root : Nat) : Nat → Nat → Bool
  | 0, i => i = root
  | n + 1, i => i = root || (decide (i < Config.piers) && leadsTo parent root n (parent.getD i 255))

def Tree.contributors (t : Tree) : List Nat := (List.range Config.piers).filter fun i => t.parent.getD i 255 ≠ 255

def Tree.children (t : Tree) (i : Nat) : List Nat := (List.range Config.piers).filter fun c => t.parent.getD c 255 = i

def Tree.rootDie (t : Tree) : Nat := t.root / Config.piersPerDie

/-- One entry of the table, if the tree is configured. A scope code outside 3 to 5 leaves it unconfigured. (log 37, DEDUCED) -/
def treeOf (num ctx : Nat) (piers : List Nat) (bs : List Byte) : Option Tree :=
  let scope : Option Scope := match field bs 0x1A 1 with | 3 => some .die | 4 => some .pkg | 5 => some .sys | _ => none
  match scope with
  | none => none
  | some sc =>
    let timeout := field bs 0x18 2
    let t : Tree := { num := num, ctx := ctx, result := BitVec.ofNat 64 (field bs 0 8), donea := BitVec.ofNat 64 (field bs 8 8),
                      donev := BitVec.ofNat 64 (field bs 16 8), timeout := if timeout = 0 then 100 else timeout, scope := sc,
                      root := field bs 0x1B 1, parent := (List.range Config.piers).map fun i => field bs (0x40 + i) 1 }
    let cs := t.contributors
    let ok := decide (t.root < Config.piers) && t.parent.getD t.root 255 = 254 && (t.parent.filter (· = 254)).length = 1 &&
      cs.all (fun i => i = t.root || cs.contains (t.parent.getD i 255)) && cs.all (leadsTo t.parent t.root Config.piers) &&
      cs.all piers.contains && (sc ≠ .die || cs.all (fun i => i / Config.piersPerDie = t.rootDie)) &&
      decide (t.result.toNat % 128 = 0) && decide (t.donea.toNat % 8 = 0) && t.donea ≠ 0 && zeros bs 0x1C 0x40 && zeros bs 0xE0 0x100
    if ok then some t else none

/-- The table at an address is loaded for a partition: done, or waiting for the pages that park (R334). -/
def State.loadTrees (s : State) (pier : Option Nat) (part : Nat) (cx : Context) (addr : Word) : State × Option (Park × List Nat) :=
  let put (t : State) (ts : List Tree) : State := t.onPart part fun p => { p with net := ts, trees := addr }
  if addr = 0 then (put s [], none) else
    match s.deviceRead pier cx addr 64 with
    | (s1, .error (.park w, pages)) => (s1, some (w, pages))
    | (s1, .error _) => (put s1 [], none)
    | (s1, .ok head) =>
      let n := field head 0 1
      if 16 < n || !zeros head 1 64 then (put s1 [], none) else
        match s1.deviceRead pier cx (addr + 64) (256 * n) with
        | (s2, .error (.park w, pages)) => (s2, some (w, pages))
        | (s2, .error _) => (put s2 [], none)
        | (s2, .ok bs) =>
          let piers := match s.parts[part]? with | some p => p.row.piers | none => []
          (put s2 ((List.range n).filterMap fun k => treeOf k cx.id piers ((bs.drop (256 * k)).take 256)), none)

/-! Rounds. -/

def State.tree? (s : State) (part num : Nat) : Option Tree :=
  match s.parts[part]? with
  | some p => p.net.find? (·.num = num)
  | none => none

def State.putTree (s : State) (part : Nat) (t : Tree) : State :=
  s.onPart part fun p => { p with net := p.net.map fun u => if u.num = t.num then t else u }

/-- partial(i, ·) of R341; `n` bounds the depth of the tree. -/
def Tree.partialSum (t : Tree) : Nat → Nat → List VWord
  | 0, _ => List.replicate Config.lanes 0
  | n + 1, i =>
    let own := match t.sent.find? (·.1 = i) with | some c => c.2 | none => List.replicate Config.lanes 0
    (t.children i).foldl (fun x c =>
      List.zipWith (fun (a b : VWord) => BitVec.ofNat 32 (fadd fp32 0 a.toNat b.toNat)) x (t.partialSum n c)) own

/-- NETTIMEOUT on every span that contributed (R214); on one that is saved it is pending at its resumption. -/
def State.netFail (s : State) (t : Tree) : State :=
  let hit := fun (sp : Span) => t.owners.contains sp.uid
  let s1 := { s with spans := s.spans.map fun sp => if hit sp then sp.record .nettimeout else sp
                     saved := s.saved.map fun sp => if hit sp then sp.recordLate .nettimeout else sp }
  (s.spans.filter hit).foldl (fun u sp => u.settle sp.id) s1

/-- The round closes: the next one opens, and its contributors are no longer held (R342). The completion of their launches follows what the
root has done (R155). -/
def State.closeRound (s : State) (part : Nat) (t : Tree) : State :=
  let ls := ((s.spans ++ s.saved).filter fun sp => t.owners.contains sp.uid).map (·.launch)
  let s0 := { s with launches := s.launches.map fun (l : Launch) => if ls.contains l.id then { l with ended := joinViews l.ended t.view } else l }
  let s1 := s0.putTree part
    { t with round := (t.round + 1) % 2 ^ 32, sent := [], owners := [], due := none, owed := none, closing := false, view := [] }
  let out (sp : Span) : Span := { sp with rounds := sp.rounds.filter (· ≠ (part, t.num, t.round)) }
  { s1 with spans := s1.spans.map out, saved := s1.saved.map out }

/-- A write of the root (R384): made, as a release of what the contributions handed on and of its own writes (R155), waiting for the fault
service or a held line, or failed. The tree after it, where it is made. -/
def State.rootWrite (s : State) (part : Nat) (t : Tree) (at_ : Word) (bs : List Byte) : State × Option (Option Tree) :=
  match s.ctx? t.ctx with
  | none => (s, some none)
  | some cx =>
    match s.deviceWrite none cx at_ bs with
    | (s1, none, _) =>
      let t1 := { t with view := joinViews t.view (s1.knownAt cx at_.toNat bs.length) }
      (s1.announceAt cx at_ bs.length t.scope t1.view (dieParty t.rootDie), some (some t1))
    | (s1, some (.park w), pages) => ((s1.putTree part { t with closing := true }).notify t.ctx w (.tree part t.num) pages, none)
    | (s1, some _, _) => (s1, some none)

/-- The completion word that is owed is written, and the round closes; a fatal outcome closes it with NETTIMEOUT. -/
def State.payRound (s : State) (part : Nat) (t : Tree) : State :=
  match t.owed with
  | none => s
  | some v =>
    match s.rootWrite part t t.donea (toBytes 8 v.toNat) with
    | (s1, some (some t1)) => s1.closeRound part t1
    | (s1, some none) => (s1.closeRound part t).netFail t
    | (s1, none) => s1

/-- The round fails (R214): no result, NETTIMEOUT, the value with bit 63 inverted. -/
def State.failRound (s : State) (part : Nat) (t : Tree) : State :=
  let t1 := { t with owed := some (t.donev ^^^ (1 <<< 63)) }
  ((s.putTree part t1).netFail t).payRound part t1

/-- The result, then the completion value (R213). -/
def State.finishRound (s : State) (part : Nat) (t : Tree) : State :=
  let bytes := ((t.partialSum Config.piers t.root).map fun x => toBytes 4 x.toNat).flatten
  match s.rootWrite part t t.result bytes with
  | (s1, some (some t0)) =>
    let t1 := { t0 with owed := some t.donev }
    (s1.putTree part t1).payRound part t1
  | (s1, some none) => s1.failRound part t
  | (s1, none) => s1

/-- The open rounds of the trees of a partition that `f` accepts are closed as by a timeout (R214): a result that waits for its page is not
written any more. `g` marks the trees. -/
def State.closeRounds (s : State) (part : Nat) (f : Tree → Bool) (g : Tree → Tree) : State :=
  match s.parts[part]? with
  | none => s
  | some p => (p.net.filter f).foldl (fun u t =>
      match (u.tree? part t.num).map g with
      | some t1 =>
        if t1.owed.isNone then u.failRound part { t1 with closing := false } else if t1.closing then u.putTree part t1 else u.payRound part t1
      | none => u) s

/-- Before a table is loaded every open round of the partition's trees is closed, contributed to or not (R334): once for the load, which the
span or the launch `who` makes, and may have to try again. (log 37, DEDUCED) -/
def State.shutRounds (s : State) (part who : Nat) : State :=
  s.closeRounds part (fun t => t.shut ≠ some who || !t.owners.isEmpty || t.owed.isSome) fun t => { t with shut := some who }

/-- A vector reaches the router of its pier (R212, R213, R342, R343): accepted, waiting for its round, or discarded with
NETTIMEOUT. -/
def State.routerAccept (s : State) (sp : Span) (o : FerryOp) : State :=
  let free (t : State) : State := t.onSpan sp.id fun u => { u with ferry := u.ferry.filter (·.id ≠ o.id) }
  let refuse : State := ((free s).onSpan sp.id (·.record .nettimeout)).settle sp.id
  match s.tree? sp.part o.tree with
  | none => refuse
  | some t =>
    if t.parent.getD sp.pier 255 = 255 then refuse
    else if t.round < o.round then s
    else if o.round < t.round || t.sent.any (·.1 = sp.pier) then refuse
    else
      let now := (s.time t.rootDie).toNat
      let late := match t.due with | some d => decide (d < now) | none => false
      if t.owed.isSome || late then s
      else
        let t1 := { t with sent := t.sent ++ [(sp.pier, o.vec)], owners := if t.owners.contains sp.uid then t.owners else t.owners ++ [sp.uid],
                           due := some (t.due.getD (now + 1000 * t.timeout)), shut := none, view := joinViews t.view o.view }
        let s1 := if t.rootDie = sp.die then s else s.raise t.rootDie (s.time sp.die + 1)
        ((free (s1.putTree sp.part t1)).onSpan sp.id fun u => { u with rounds := u.rounds ++ [(sp.part, t.num, t.round)] }).settle sp.id

/-- Have all contributions of the open round been accepted? -/
def Tree.complete (t : Tree) : Bool := t.contributors.all fun i => t.sent.any (·.1 = i)

/-! The steps of the net. -/

/-- ROUTER_ACCEPT (R212). -/
def execRouterAccept (span op : Nat) (s : State) : Out :=
  match s.span? span with
  | some sp => match sp.ferry.find? (·.id = op) with
    | some o => .next (if o.kind = .nsend && o.st = .running then s.routerAccept sp o else s)
    | none => .next s
  | none => .next s

/-- ROUND_RESULT (R213). -/
def execRoundResult (part tree : Nat) (s : State) : Out :=
  match s.tree? part tree with
  | some t =>
    .next (if t.closing then s else if t.owed.isSome then s.payRound part t else if t.complete then s.finishRound part t else s)
  | none => .next s

/-- ROUND_TIMEOUT (R214): not once the last contribution has come in time. -/
def execRoundTimeout (part tree : Nat) (s : State) : Out :=
  match s.tree? part tree with
  | some t => match t.due with
    | some d => .next (if decide (d ≤ (s.time t.rootDie).toNat) && t.owed.isNone && !t.closing && !t.complete then s.failRound part t else s)
    | none => .next s
  | none => .next s

end Sys2Proof.Machine
end

