-- ==== Sys2Proof/Machine/Observe.lean ====
section
/-! DEFINITION. Stall counters (R339, R369) and snapshots (R338, R370). -/

namespace Sys2Proof.Machine

/-! Counters. A counter is named by its unit, the place the unit stands at, and its number. -/

/-- The counters that a unit has (R369). -/
def ctrListed (unit n : Nat) : Bool :=
  match unit with
  | 0 | 4 => decide (n ≤ 7)
  | 1 | 2 => decide (n ≤ 4)
  | _ => n = 0 || (decide (2 ≤ n) && decide (n ≤ 10))

/-- Where the unit of a span stands: its quadrant, its pier, or its own slot. -/
def ctrPlace (sp : Span) (unit : Nat) : Nat :=
  match unit with
  | 0 => sp.id / 16
  | 3 => sp.id
  | _ => sp.pier

def ctrKey (unit place n : Nat) : Nat := (unit * 2 ^ 16 + place) * 64 + n

def State.ctr (s : State) (key : Nat) : Word := sget 0 s.ctrs key
def State.addCtr (s : State) (key : Nat) (x : Word) : State := { s with ctrs := sput 0 s.ctrs key (s.ctr key + x) }

/-- A span holds its slot and its pier acts for it: it is not saved, and its die is not fenced (R312, R360). -/
def Span.resident (sp : Span) : Bool := match sp.status with | .saved _ | .dead => false | _ => true

/-- A read of a counter. The cycles in which an engine is idle with nothing in its drain are added when they are read: a free amount
(log 3, DESIGN CHOICE). (log 47, DESIGN CHOICE) -/
def State.readCtr (s : State) (sp : Span) (unit n : Nat) : State × Word :=
  if !ctrListed unit n then (s, 0) else
    let key := ctrKey unit (ctrPlace sp unit) n
    let s1 := if unit = 1 && n = 4 then s.addCtr key (Config.stallCycles unit n s.steps) else s
    (s1, s1.ctr key)

/-- What the counters outside unit 0 count, where it is so now, by unit, place and number (R369). -/
def State.stallCauses (s : State) : List (Nat × Nat × Nat) :=
  let plane (o : PlaneOp) : List (Nat × Nat × Nat) := match o.st with
    | .running => [(1, o.pier, match o.kind with | .pmma | .pmmabp | .pmms | .plma => 0 | _ => 1)] ++
        (if s.deckq.any (·.pier = o.pier) then [(1, o.pier, 2)] else [])
    | .drain => if s.planeq.any (fun p => p.pier = o.pier && p.st = .running) then [] else [(1, o.pier, 3)]
    | .queued => []
  let ferry (sp : Span) (o : FerryOp) : List (Nat × Nat × Nat) := match o.st with
    | .drain => [(2, sp.pier, 1)]
    | .parked _ => [(2, sp.pier, 2)]
    | .running => [(2, sp.pier, 0), (2, sp.pier, 3)] ++ (if s.deckq.any (·.pier = sp.pier) then [(2, sp.pier, 4)] else [])
  let entry (sp : Span) (e : Entry) : List (Nat × Nat × Nat) := match e.st with
    | .inflight => (3, sp.id, 0) :: (List.range 8).map fun n => (4, sp.pier, n)
    | .ashore => if e.reason = 0 then [] else [(3, sp.id, 1 + e.reason)]
    | _ => []
  let span (sp : Span) : List (Nat × Nat × Nat) :=
    if !sp.resident then [] else
      (sp.ferry.map (ferry sp)).flatten ++ (sp.landing.map (entry sp)).flatten ++ (if Config.landing ≤ sp.landing.length then [(3, sp.id, 10)] else [])
  ((s.planeq.map plane).flatten ++ (s.spans.map span).flatten).eraseDups

/-- In a step each of them grows by the cycles of its cause, a free amount (log 3, DESIGN CHOICE). (log 47, DESIGN CHOICE) -/
def State.countStalls (s : State) : State :=
  s.stallCauses.foldl (fun t c => t.addCtr (ctrKey c.1 c.2.1 c.2.2) (Config.stallCycles c.1 c.2.2 s.steps)) s

/-! Snapshots. -/

def Span.eligible (sp : Span) : List Nat := sp.lanesIn fun st => st = .ready || st = .deferred

/-- The record of one span (R370). -/
def State.snapRecord (s : State) (sp : Span) : List Byte :=
  let place := sp.slot + 2 ^ 8 * (sp.pier % Config.piersPerDie) + 2 ^ 16 * sp.die + 2 ^ 24 * sp.part
  let pc := minNat ((sp.eligible).map fun l => (sp.lane l).pc.toNat)
  toBytes 4 place ++ toBytes 4 sp.bidx ++
    toBytes 8 (sp.idx + 2 ^ 16 * sp.role + 2 ^ 24 * sp.landFree + 2 ^ 32 * (Config.spanSlots - sp.ferry.length)) ++
    toBytes 8 sp.spantag.toNat ++ toBytes 8 (stateCodes sp 0) ++ toBytes 8 (stateCodes sp 16) ++ toBytes 8 pc ++
    toBytes 8 (s.ctr (ctrKey 0 (sp.id / 16) 0)).toNat ++ toBytes 8 (s.ctr (ctrKey 0 (sp.id / 16) 3)).toNat

/-- Put a span into a list in ascending place. -/
def insertSpan (sp : Span) : List Span → List Span
  | [] => [sp]
  | t :: r => if sp.id ≤ t.id then sp :: t :: r else t :: insertSpan sp r

def sortSpans (l : List Span) : List Span := l.foldr insertSpan []

/-- The snapshot is written, or waits, or is abandoned (R47); its header is a release at system scope of its records (R370), by no span, with
the counter of die 0. (log 38, DEDUCED) -/
def State.trySnap (s : State) (part : Nat) : State :=
  match (s.parts[part]?).bind (·.snap) with
  | none => s
  | some j =>
    let done (t : State) : State := t.onPart part fun p => { p with snap := none }
    match s.ctx? j.ctx with
    | none => done s
    | some cx =>
      match s.deviceWrite none cx (j.at_ + 64) j.recs with
      | (s1, some (.park w), pages) => s1.notify j.ctx w (.snap part) pages
      | (s1, some _, _) => done s1
      | (s1, none, _) =>
        match s1.deviceWrite none cx j.at_ j.head with
        | (s2, some (.park w), pages) => s2.notify j.ctx w (.snap part) pages
        | (s2, none, _) => done (s2.announceAt cx j.at_ 64 .sys (s2.knownAt cx (j.at_ + 64).toNat j.recs.length) (dieParty 0))
        | (s2, _, _) => done s2

/-- A trigger (R338, R370): every span's registers are latched; dropped while an earlier snapshot is being written. `ctx` is the
context whose translation the writes use. (log 38, DEDUCED) -/
def State.snapshot (s : State) (part ctx source : Nat) (tag : Word) : State × Bool :=
  match s.parts[part]? with
  | none => (s, false)
  | some p =>
    if p.snap.isSome then (s, false) else
      let sps := sortSpans (s.spans.filter fun sp => sp.part = part && sp.resident)
      let recs := (sps.map s.snapRecord).flatten
      let head := toBytes 8 tag.toNat ++ toBytes 8 (s.time 0).toNat ++ toBytes 8 (source + 2 ^ 8 * part) ++ toBytes 8 sps.length ++ toBytes 32 0
      ((s.onPart part fun p => { p with snap := some ⟨ctx, p.snapbase, recs, head⟩ }).trySnap part, true)

/-- SNAPSHOT_TRIGGER (R370): source 1 the host, 2 the package input where the firmware tables enable it. The writes use the
partition's first context. (log 38, DEDUCED) -/
def execSnapshotTrigger (part source : Nat) (s : State) : Out :=
  match s.parts[part]?, s.ctxs.find? (·.part = part) with
  | some p, some cx => .next (if source = 1 || (source = 2 && p.row.input) then (s.snapshot part cx.id source 0).1 else s)
  | _, _ => .next s

end Sys2Proof.Machine
end

