-- ==== Sys2Proof/Machine/Pages.lean ====
section
/-! DEFINITION. Pages: shoot-downs (R145, R146), moves (R140, R142, R143), the fault service (R144). -/

namespace Sys2Proof.Machine

/-! Shoot-downs. Receivers 0 to 159 are piers, 160 + d the last-level TLB of die d. -/

def Partition.dies (p : Partition) : List Nat :=
  (List.range Config.dies).filter fun d => p.row.piers.any (· / Config.piersPerDie = d) || p.row.channels.any (· / 128 = d)

/-- Does a TLB entry of the context overlap the range? -/
def ShootDown.covers (d : ShootDown) (t : TlbEntry) : Bool :=
  t.part = d.part && t.ctx = d.ctx && decide (t.page * 2 ^ t.size < d.stop) && decide (d.start < (t.page + 1) * 2 ^ t.size)

/-- A shoot-down is sent (R145). -/
def State.shoot (s : State) (part ctx start stop : Nat) (issuer : Option Nat) : State × Nat :=
  let to_ := match s.parts[part]? with
    | some p => (List.range Config.piers).filter p.row.piers.contains ++ p.dies.map (Config.piers + ·)
    | none => []
  let d : ShootDown := { id := s.uid, part := part, ctx := ctx, start := start, stop := stop, waiting := to_, issuer := issuer }
  let named := ((s.tlb.filter d.covers).map fun t => (t.frame, 2 ^ t.size)).eraseDups
  ({ s with uid := s.uid + 1, shoots := s.shoots ++ [{ d with frames := named }] }, s.uid)

/-- The requests of a pier that hold a translation of the range (R146): those of spans, and stripes that the ferry has begun. -/
def State.holders (s : State) (d : ShootDown) (pier : Nat) : List (Nat × Nat) :=
  ((s.spans.filter fun sp => sp.pier = pier && sp.ctx = d.ctx).map fun sp =>
    (((sp.landing ++ sp.unsent ++ sp.joining).filter fun e => e.isMem && e.st ≠ .done && decide (d.start ≤ 64 * e.vline) && decide (64 * e.vline < d.stop)).map
      fun e => (sp.uid, e.seq)) ++ (sp.ferry.filter (!·.stripes.isEmpty)).map fun o => (sp.uid, o.id)).flatten

/-- Reservations on the range are cleared (R185). -/
def Span.shotDown (sp : Span) (d : ShootDown) : Span :=
  let inside (va : Nat) : Bool := decide (d.start ≤ va) && decide (va < d.stop)
  { sp with resv := if inside sp.resvVa then none else sp.resv
            lanes := sp.lanes.map fun ln => if inside ln.resvVa then { ln with resv := none } else ln }

/-- A shoot-down with nothing outstanding is forgotten; the issuer of a complete one runs on (R335). -/
def State.settleShoot (s : State) (d : ShootDown) : State :=
  let s1 := if d.waiting.isEmpty && d.holders.isEmpty then { s with shoots := s.shoots.filter (·.id ≠ d.id) }
    else { s with shoots := s.shoots.map fun e => if e.id = d.id then d else e }
  if !d.waiting.isEmpty then s1 else
    match d.issuer.bind s1.spanOf? with
    | some sp => (s1.onSpan sp.id fun t => if t.tlbi = some d.id then { t with tlbi := none } else t).settle sp.id
    | none => s1

/-- Is the shoot-down of a move complete: every acknowledgement in? -/
def State.shootDone (s : State) (sd : Nat) : Bool := s.shoots.all fun d => d.id ≠ sd || d.waiting.isEmpty
/-- Have the notices of R146 come from every pier as well? -/
def State.shootQuiet (s : State) (sd : Nat) : Bool := s.shoots.all (·.id ≠ sd)

/-- A receiver removes its entries and acknowledges (R145). Until the last-level TLB of its die has acknowledged, a pier may still be served from
that: the requests that hold an old translation are counted with both (R146). -/
def State.shootAck (s : State) (d : ShootDown) (recv : Nat) : State :=
  if !d.waiting.contains recv then s else
    let mine (t : TlbEntry) : Bool := d.covers t && (if recv < Config.piers then t.pier = some recv else t.pier = none && t.die + Config.piers = recv)
    let acked := if recv < Config.piers then [recv] else
      (List.range Config.piers).filter fun p => p / Config.piersPerDie + Config.piers = recv && !d.waiting.contains p
    let s1 := { s with
      tlb := s.tlb.filter (!mine ·)
      spans := s.spans.map fun (sp : Span) => if sp.pier = recv && sp.ctx = d.ctx then sp.shotDown d else sp }
    let keep (hs : List (Nat × List (Nat × Nat))) (p : Nat) : List (Nat × List (Nat × Nat)) :=
      let now := ((((hs.filter (·.1 = p)).map (·.2)).flatten) ++ s.holders d p).eraseDups
      if now.isEmpty then hs else hs.filter (·.1 ≠ p) ++ [(p, now)]
    s1.settleShoot { d with waiting := d.waiting.filter (· ≠ recv), holders := acked.foldl keep d.holders }

/-- The last holder of a pier has retired or is saved (R146). -/
def State.shootNotice (s : State) (d : ShootDown) (pier : Nat) : State :=
  match d.holders.find? (·.1 = pier) with
  | none => s
  | some h =>
    let out := h.2.any fun u => match s.spanOf? u.1 with
      | some sp => (match sp.status with | .saved _ => false | _ => true) && ((sp.landing ++ sp.unsent ++ sp.joining).any (fun e => e.seq = u.2 && e.st ≠ .done) ||
          sp.ferry.any fun o => o.id = u.2 && !o.stripes.isEmpty)
      | none => false
    if out then s else s.settleShoot { d with holders := d.holders.filter (·.1 ≠ pier) }

/-! Frames. -/

/-- Bytes of a range become 0. -/
def State.clearRange (s : State) (lo n : Nat) : State := { s with mem := s.mem.filter fun c => !(decide (lo ≤ c.1) && decide (c.1 < lo + n)) }

/-- Listed bytes of a range, by their offsets. -/
def State.listed (s : State) (lo n : Nat) : List (Nat × Byte) :=
  (s.mem.filter fun c => decide (lo ≤ c.1) && decide (c.1 < lo + n)).map fun c => (c.1 - lo, c.2)

def State.fillRange (s : State) (lo n : Nat) (bs : List (Nat × Byte)) : State :=
  bs.foldl (fun t c => if c.1 < n then { t with mem := sput 0 t.mem (lo + c.1) c.2 } else t) (s.clearRange lo n)

/-- What releases left on a range, and when it was last accessed, go with its page (R142, R155). -/
def State.marksMoved (s : State) (oldK newK size : Nat) : State :=
  let old (f : Nat) : Bool := decide (oldK / 65536 ≤ f) && decide (f < (oldK + size) / 65536)
  { s with
    msgs := s.msgs.map fun m => if m.deck.isNone && decide (oldK ≤ m.at_) && decide (m.at_ < oldK + size) then { m with at_ := m.at_ - oldK + newK } else m
    lru := (newK / 65536, maxNat ((s.lru.filter (old ·.1)).map (·.2))) :: s.lru.filter fun e => !old e.1 && e.1 ≠ newK / 65536 }

/-- Everything that watches lines of a range sees it written, and no L1 holds a line of it. -/
def State.rangeWritten (s : State) (lo n : Nat) : State :=
  { s.written (lineOf lo) (lineOf (lo + n - 1)) with l1 := s.l1.filter fun c => !(decide (lineOf lo ≤ c.line) && decide (c.line ≤ lineOf (lo + n - 1))) }

/-- A frame begins to hold a page: no copy and no release of what it held before is left (R143, R144). (log 26, DEDUCED) -/
def State.freshRange (s : State) (lo n : Nat) : State :=
  let t := s.rangeWritten lo n
  { t with msgs := t.msgs.filter fun m => !(m.deck.isNone && decide (lo ≤ m.at_) && decide (m.at_ < lo + n)) }

/-- Is an HBM frame of a size one that the partition may be given: aligned, of its channels, and free? -/
def State.frameFree (s : State) (part frame size : Nat) : Bool :=
  match s.parts[part]? with
  | none => false
  | some p =>
    decide (frame % size = 0) && decide (frame + size ≤ Config.hbmBytes) &&
      (List.range (size / 65536)).all (fun i =>
        let f := frame + 65536 * i
        p.ownsFrame 1 f) &&
      !overlapsAny frame size (s.hbmUsed part)

/-! Moves. -/

/-- A leaf's word for a place (R120). For a zone slot FRAME is the slot number. -/
def leafWord (w : Word) (loc frame : Nat) (mig : Bool) : Word :=
  let f := if loc = 3 then frame / zoneStep else frame / 65536
  BitVec.ofNat 2 loc ++ BitVec.ofBool mig ++ w.extractLsb' 52 9 ++ BitVec.ofNat 36 f ++ w.extractLsb' 0 16

def Leaf.place (lf : Leaf) : Nat := if lf.loc = 3 then (lf.word.extractLsb' 16 36).toNat * zoneStep else lf.frame

/-- The quay die whose migration engine makes a move: that paired with the page's home die (R143). A move of no HBM frame is quay die 0's
(log 43, DESIGN CHOICE). -/
def quayOf (oldLoc old newLoc new : Nat) : Nat := if oldLoc = 1 then old / 2 ^ 38 else if newLoc = 1 then new / 2 ^ 38 else 0

def Move.quay (m : Move) : Nat := quayOf m.oldLoc m.old m.newLoc m.new

/-- Moves of a leaf whose new place is not yet written to it. -/
def Move.early (m : Move) : Bool := decide (m.step < 5)

/-- Moves of a partition that an engine has under way, and the partition's share of its landing of 1 024 entries (R135, R347). (log 43,
DESIGN CHOICE) -/
def State.movesOf (s : State) (part quay : Nat) : Nat :=
  (s.moves.filter fun m => m.quay = quay && (s.ctx? m.ctx).any (·.part = part)).length
def State.moveShare (s : State) (part : Nat) : Nat := match s.parts[part]? with | some p => p.row.shares.getD 2 0 | none => 0

/-- A move starts: its leaf is marked (R143), once its line is not held (R109). It is of a page of the partition's own, and takes an entry of
the partition's share of the engine's landing (R135, R347). (log 43, DESIGN CHOICE) -/
def State.startMove (s : State) (cx : Context) (va : Nat) (lf : Leaf) (newLoc new : Nat) : State :=
  if s.moves.any (fun m => m.leaf = lf.at_ && m.early) || lf.word.getLsbD 61 || s.lineHeld (lineOf lf.at_) ||
      !s.ownsPlace cx.part lf.loc lf.place (2 ^ lf.log) ||
      decide (s.moveShare cx.part ≤ s.movesOf cx.part (quayOf lf.loc lf.place newLoc new)) then s else
    let s1 := s.poke lf.at_ (toBytes 8 (lf.word ||| (1 <<< 61)).toNat)
    { s1 with moves := s1.moves ++ [{ ctx := cx.id, page := va / 2 ^ lf.log * 2 ^ lf.log, size := lf.log, leaf := lf.at_, oldLoc := lf.loc,
                                      old := lf.place, newLoc := newLoc, new := new, step := 1 }] }

/-- Are two moves one: of one leaf, from one place? -/
def Move.same (m n : Move) : Bool := m.leaf = n.leaf && m.oldLoc = n.oldLoc && m.old = n.old

def State.putMove (s : State) (m : Move) : State := { s with moves := s.moves.map fun n => if n.same m then m else n }

/-- The next step of a move (R143): shoot-down, lock, copy, leaf, unlock with the wake, and the end of its grace. (log 43, DESIGN CHOICE) -/
def State.moveStep (s : State) (m : Move) : State :=
  let size := 2 ^ m.size
  let oldK := placeKey m.oldLoc m.old
  let newK := placeKey m.newLoc m.new
  match m.step with
  | 0 | 1 => match s.ctx? m.ctx with
    | none => { s with moves := s.moves.filter (!·.same m) }
    | some cx =>
      let (s1, sd) := s.shoot cx.part m.ctx m.page (m.page + size) none
      s1.putMove { m with step := 2, sd := some sd }
  | 2 =>
    if s.shootDone (m.sd.getD 0) then
      (({ s with locked := s.locked ++ [(oldK, size)] }).rangeWritten oldK size).putMove { m with step := 3 }
    else s
  | 3 =>
    let held (lo : Nat) : Bool := s.holds.any fun h => match h.on with | some (n, _) => decide (lo ≤ 64 * n) && decide (64 * n < lo + size) | none => false
    if held oldK || held newK then s else
    let s1 := s.mergeAll fun h => decide (oldK ≤ 64 * h.line) && decide (64 * h.line < oldK + size)
    (((s1.freshRange newK size).fillRange newK size (s1.listed oldK size)).marksMoved oldK newK size).putMove { m with step := 4 }
  | 4 =>
    if s.lineHeld (lineOf m.leaf) then s else
    (s.poke m.leaf (toBytes 8 (leafWord (s.word m.leaf) m.newLoc m.new false).toNat)).putMove ({ m with step := 5 } : Move)
  | 5 =>
    let s1 := s.putMove { m with step := 6 }
    let wake (e : Entry) : Entry :=
      if e.st = .ashore && (e.reason = 3 || e.reason = 4) && (s1.forwarded e.pline).isSome then { e with woken := true } else e
    { s1 with spans := s1.spans.map fun (sp : Span) => { sp with landing := sp.landing.map wake } }
  | _ =>
    if s.shootQuiet (m.sd.getD 0) then
      { s with moves := s.moves.filter (!·.same m), locked := s.locked.erase (oldK, size) }
    else s

/-! Eviction (R142). -/

/-- The hint of a page: its priority and the signed distance to its next use, if the hint is live (R141). Of a page that hints cover in
part, it is the one over the page's first address (log 49, DESIGN CHOICE). -/
def Partition.hintOf (p : Partition) (ctx va : Nat) : Option (Nat × Int) :=
  (p.hints.find? fun h => h.ctx = ctx && decide (h.start ≤ va) && decide (va < h.stop)).bind fun h =>
    let d := (h.step - p.step.setWidth 32).toInt
    if 0 ≤ d then some (h.prio, d) else none

/-- The rank of a page, smallest first: priority, hinted before unhinted, distance, last access, address. -/
def State.pageRank (s : State) (p : Partition) (ctx va : Nat) (lf : Leaf) : List Int :=
  let key := placeKey lf.loc lf.place
  let last := maxNat ((s.lru.filter fun e => decide (key / 65536 ≤ e.1) && decide (e.1 < (key + 2 ^ lf.log) / 65536)).map (·.2))
  match p.hintOf ctx va with
  | some (prio, d) => [Int.ofNat prio, 0, -d, 0, Int.ofNat va]
  | none => [4, 1, 0, Int.ofNat last, Int.ofNat va]

def lexLess : List Int → List Int → Bool
  | [], _ => false
  | _, [] => false
  | a :: r, b :: q => decide (a < b) || (decide (a = b) && lexLess r q)

/-- The page of a partition at a place `loc` that ranks first, of those whose frames are the partition's own (R142, R148). -/
def State.firstRanked (s : State) (part loc : Nat) : Option (Context × Nat × Leaf) :=
  match s.parts[part]? with
  | none => none
  | some p =>
    let all := ((s.ctxs.filter (·.part = part)).map fun cx =>
      ((s.leaves cx).filter fun l => l.2.loc = loc && !l.2.word.getLsbD 61 && s.ownsPlace part loc l.2.place (2 ^ l.2.log)).map fun l => (cx, l)).flatten
    all.foldl (fun best c => match best with
      | none => some c
      | some b => if lexLess (s.pageRank p c.1.id c.2.1 c.2.2) (s.pageRank p b.1.id b.2.1 b.2.2) then some c else some b) none

/-- Does the compressed form of a page fit in 48 KiB per 64 KiB (R140)? -/
def State.compressible (s : State) (lf : Leaf) : Bool :=
  decide (Config.compressedSize (s.listed (placeKey lf.loc lf.place) (2 ^ lf.log)) ≤ 49152 * (2 ^ lf.log / 65536))

/-- Is a capacity range of the partition free at a frame? -/
def State.capOk (s : State) (part frame size : Nat) : Bool :=
  match s.parts[part]? with
  | none => false
  | some p => decide (frame % size = 0) && s.portsUp frame size && p.row.capFrames.any (fun r => decide (r.1 ≤ frame) && decide (frame + size ≤ r.1 + r.2)) &&
      !overlapsAny frame size (s.capUsed part)

/-- Slots of the zone, of 48 KiB (R140); slot n lies in stack n mod 8, of 64 pseudo-channels. (log 43, DESIGN CHOICE) -/
def State.zoneSlots (s : State) : Nat := s.zoneGiB * 2 ^ 30 / 49152
def slotStack (slot : Nat) : Nat := slot % 8

/-- The slots of the zone that pages of a partition take, and moves. -/
def State.slotsUsed (s : State) (part : Nat) : List Nat :=
  ((s.ctxs.filter (·.part = part)).map fun cx =>
      (((s.leaves cx).filter (·.2.loc = 3)).map fun l => slotsOf (l.2.place / zoneStep) (2 ^ l.2.log)).flatten).flatten ++
    ((s.moves.filter (·.newLoc = 3)).map fun m => slotsOf (m.new / zoneStep) (2 ^ m.size)).flatten ++
    ((s.moves.filter (·.oldLoc = 3)).map fun m => slotsOf (m.old / zoneStep) (2 ^ m.size)).flatten

/-- Are the slots from `slot` on, as many as a page of that size takes, the partition's, in the stacks of its HBM frame, and free? (log
43, DESIGN CHOICE) (log 43, DESIGN CHOICE) -/
def State.zoneOk (s : State) (part frame size slot : Nat) : Bool :=
  let used := s.slotsUsed part
  s.ownsPlace part 3 (zoneStep * slot) size && slotStack slot = channelOf frame / 64 &&
    (slotsOf slot size).all fun n => decide (n < s.zoneSlots) && !used.contains n

/-- HBM bytes of a partition in use, by its own frames of 64 KiB: each counts once, whatever names it (R142). -/
def State.hbmTaken (s : State) (part : Nat) : Nat :=
  let rs := ((s.hbmUsed part).map fun r => (r.1 / 65536 * 65536, max 65536 r.2)).eraseDups
  let own (r : Nat × Nat) : Nat := (((List.range (r.2 / 65536)).map (r.1 + 65536 * ·)).filter fun f => (s.parts[part]?).any (·.ownsFrame 1 f)).length
  65536 * ((rs.filter fun r => !rs.any fun q => q ≠ r && decide (q.1 ≤ r.1) && decide (r.1 + r.2 ≤ q.1 + q.2)).map own).sum

/-- Does the eviction engine of a partition start: with less than 1 % of its HBM free, or with a page that the fault service or an expansion
has to bring in (R142)? (log 43, DESIGN CHOICE) -/
def State.evictWanted (s : State) (part : Nat) : Bool :=
  match s.parts[part]? with
  | none => false
  | some p =>
    let all := p.row.channels.length * 2 ^ 30
    decide (100 * (all - s.hbmTaken part) < all) ||
      s.notices.any fun n => n.got && (n.why = .page || n.why = .expand) && (match s.ctx? n.ctx with | some cx => cx.part = part | none => false)

/-- EVICTION_START (R140, R142): the first-ranked HBM page goes to the zone where it compresses and slots of its stacks are free; when the
share of the zone is full, its first-ranked page goes to the capacity tier; a page that does not compress goes there. (log 43, DESIGN CHOICE) -/
def State.evict (s : State) (part dest : Nat) : State :=
  if !s.evictWanted part then s else
  match s.firstRanked part 1 with
  | none => s
  | some (cx, va, lf) =>
    let size := 2 ^ lf.log
    if s.compressible lf then
      let slots := match s.parts[part]? with | some p => p.row.zoneSlots | none => []
      if slots.any (s.zoneOk part lf.frame size) then (if s.zoneOk part lf.frame size dest then s.startMove cx va lf 3 (zoneStep * dest) else s)
      else match s.firstRanked part 3 with
        | some (cy, vb, lz) => if s.capOk part dest (2 ^ lz.log) then s.startMove cy vb lz 2 dest else s
        | none => if s.capOk part dest size then s.startMove cx va lf 2 dest else s
    else if s.capOk part dest size then s.startMove cx va lf 2 dest else s

/-! The fault service (R144). -/

/-- A lane of which some pages have been served: it is ready when none of its pages is left (R127). -/
def Lane.served (f : Nat → Bool) (ln : Lane) : Lane :=
  let rest := ln.pages.filter (!f ·)
  if rest.isEmpty then { ln with st := .ready, reason := none, pages := [] } else { ln with pages := rest }

/-- The operation, lane or write that waited goes on (R144), with the pages that have been served. LNCH, DONEA and root writes are tried
again by their own steps. -/
def State.wakeWaiter (s : State) (f : Nat → Bool) (w : Waiter) : State :=
  match w with
  | .lane uid l => match s.spanOf? uid with
    | some sp => if (sp.lane l).st = .parkedRec then (s.onSpan sp.id fun t => t.onLane l (Lane.served f)).settle sp.id else s
    | none => s
  | .ferry uid op => match s.spanOf? uid with
    | some sp => match sp.ferry? op with
      | some o => s.ferryWake sp.id o
      | none => s
    | none => s
  | .span uid => match s.spanOf? uid with
    | some sp => (s.retryRecords sp.id).settle sp.id
    | none => s
  | .entry uid slot => match s.spanOf? uid with
    | some sp => s.onSpan sp.id fun t => { t with landing := t.landing.map fun e => if e.slot = slot then { e with woken := true } else e }
    | none => s
  | .launch _ => s
  | .tree part num => match s.tree? part num with
    | some t => s.putTree part { t with closing := false }
    | none => s
  | .snap part => s.trySnap part
  | .kill ctx => s.killGo ctx

/-- Supply the contents of an absent page, or give up (R144): the leaf after it, or none when it is not the service's turn, or a line that it
walks or writes is held (R109). `moved` says that some waiter found the page being moved: such a wait ends with the move, wherever the page
then is. (log 43, DESIGN CHOICE) -/
def State.supply (s : State) (cx : Context) (page : Nat) (how : Supply) (moved : Bool) : Option State :=
  if s.walkHeld cx page then none else
  match s.leafOf cx page, how with
  | none, .cannot | none, .present => some s
  | some lf, .cannot => some (s.poke lf.at_ (toBytes 8 (lf.word &&& ~~~1).toNat))
  | some lf, .present => if lf.word.getLsbD 61 || (!moved && (lf.loc = 0 || lf.loc = 3)) then none else some s
  | some lf, .zeros frame =>
    if lf.loc = 0 && s.frameFree cx.part frame (2 ^ lf.log) then
      some (((s.freshRange frame (2 ^ lf.log)).clearRange frame (2 ^ lf.log)).poke lf.at_ (toBytes 8 (leafWord lf.word 1 frame false).toNat))
    else none
  | some lf, .data frame bs =>
    if lf.loc = 0 && s.frameFree cx.part frame (2 ^ lf.log) then
      some (((s.freshRange frame (2 ^ lf.log)).fillRange frame (2 ^ lf.log) bs).poke lf.at_ (toBytes 8 (leafWord lf.word 1 frame false).toNat))
    else none
  | _, _ => none

/-- FAULT SERVICE COMPLETE (R144): it wakes everything parked on the page, of whatever size it is. -/
def State.serve (s : State) (ctx page : Nat) (how : Supply) : State :=
  let size := match (s.ctx? ctx).bind fun cx => s.leafOf cx page with | some lf => 2 ^ lf.log | none => 65536
  let inPage (p : Nat) : Bool := p / size = page / size
  let here (n : Notice) : Bool := n.ctx = ctx && inPage n.page
  if !s.notices.any (fun n => here n && n.got) then s else
    match s.ctx? ctx with
    | none => s
    | some cx =>
      match s.supply cx page how (s.notices.any fun n => here n && n.got && n.why = .migrate) with
      | none => s
      | some s1 =>
        let woken := s1.notices.filter here
        woken.foldl (fun t n => t.wakeWaiter inPage n.who) { s1 with notices := s1.notices.filter (!here ·) }

/-! The steps. -/

/-- FAULT_NOTICE (R144). -/
def execFaultNotice (n : Nat) (s : State) : Out :=
  .next { s with notices := s.notices.modify n fun m => { m with got := true } }

/-- FAULT_SERVICE_COMPLETE (R144). -/
def execFaultServiceComplete (ctx page : Nat) (how : Supply) (s : State) : Out := .next (s.serve ctx page how)

/-- EVICTION_START (R142). -/
def execEvictionStart (part dest : Nat) (s : State) : Out := .next (s.evict part dest)

/-- EXPANSION (R140): a compressed page moves to a free HBM frame. -/
def execExpansion (ctx page frame : Nat) (s : State) : Out :=
  match s.ctx? ctx with
  | none => .next s
  | some cx =>
    match s.leafOf cx page with
    | some lf => .next (if lf.loc = 3 && s.frameFree cx.part frame (2 ^ lf.log) then s.startMove cx page lf 1 frame else s)
    | none => .next s

/-- PAGE_MOVE (R143): the next step of a move, or the start of a promotion of a capacity-tier page to a free HBM frame. -/
def execPageMove (move : Nat) (promote : Option (Nat × Nat × Nat)) (s : State) : Out :=
  match promote with
  | none => match s.moves[move]? with
    | some m => .next (s.moveStep m)
    | none => .next s
  | some (ctx, page, frame) => match s.ctx? ctx with
    | none => .next s
    | some cx => match s.leafOf cx page with
      | some lf => .next (if lf.loc = 2 && decide (peerOf lf.frame = 0) && s.frameFree cx.part frame (2 ^ lf.log) then s.startMove cx page lf 1 frame else s)
      | none => .next s

/-- SHOOT_DOWN_ACK (R145). -/
def execShootDownAck (sd recv : Nat) (s : State) : Out :=
  match s.shoots.find? (·.id = sd) with
  | some d => .next (s.shootAck d recv)
  | none => .next s

/-- RETIRE_NOTICE (R146). -/
def execRetireNotice (sd pier : Nat) (s : State) : Out :=
  match s.shoots.find? (·.id = sd) with
  | some d => .next (s.shootNotice d pier)
  | none => .next s

end Sys2Proof.Machine
end

