-- ==== Sys2Proof/Machine/Launch.lean ====
section
/-! DEFINITION. Launches (R299, R307 to R311, R329): reading and checking a launch record, room on a pier, the start of a span, the
placement of blocks, completion. -/

namespace Sys2Proof.Machine

/-! The record (R307). -/

def recNodes (bs : List Byte) : Nat := field bs 0x80 8
def recNNode (bs : List Byte) : Nat := field bs 0x88 8 % 512

/-- The roles that CTRL counts. -/
def recRoles (bs : List Byte) : List Role :=
  (List.range (field bs 0 8 / 64 % 4 + 1)).map fun r =>
    ⟨BitVec.ofNat 64 (field bs (0x40 + 16 * r) 8), field bs (0x48 + 16 * r) 2, field bs (0x4A + 16 * r) 2⟩

def nodeList (n : Nat) (bs : List Byte) : List Node :=
  (List.range n).map fun k =>
    let b := bs.drop (32 * k)
    ⟨BitVec.ofNat 64 (field b 0 8), field b 8 2, field b 0xA 1, field b 0xC 2⟩

def launchOf (id ctx part : Nat) (lidx : Option Nat) (byLnch : Bool) (bs : List Byte) (nodes : List Node) : Launch :=
  let ctrl := field bs 0 8
  { id := id, ctx := ctx, part := part, prio := ctrl % 8, gang := decide (ctrl / 8 % 2 = 1), note := decide (ctrl / 256 % 2 = 1),
    args := BitVec.ofNat 64 (field bs 8 8), nblk := field bs 0x10 4, deck := field bs 0x18 8 % 2 ^ 21, tiles := field bs 0x18 8 / 2 ^ 24 % 16,
    range := (List.range 4).map fun d => (field bs (0x20 + 8 * d) 4, field bs (0x24 + 8 * d) 4), roles := recRoles bs, nodes := nodes,
    donea := BitVec.ofNat 64 (field bs 0x90 8), donev := BitVec.ofNat 64 (field bs 0x98 8), trees := BitVec.ofNat 64 (field bs 0xA0 8),
    lidx := lidx, byLnch := byLnch }

/-- The budgets of a block's spans, in span order. -/
def Launch.budgets (l : Launch) : List (Nat × Role) :=
  ((imap (fun r (x : Role) => List.replicate x.spans (r, x)) 0 l.roles)).flatten

/-! Room on a pier (R48, R49, R244, R256, R311). A pier's use is the list of its taken slots with their budgets. -/

def quadRegs (used : List (Nat × Nat)) (q : Nat) : Nat := 2048 - ((used.filter (·.1 / 16 = q)).map (·.2)).sum

/-- The slot that the next span takes: the quadrant with a free slot and the most free registers, its lowest free slot. -/
def nextSlot (used : List (Nat × Nat)) (closed : List Nat) (budget : Nat) : Option Nat :=
  let slotIn (q : Nat) := (List.range 16).find? fun k => !used.any (·.1 = 16 * q + k) && !closed.contains (16 * q + k)
  let best := (List.range 4).foldl (fun (b : Option (Nat × Nat)) q =>
    match slotIn q with
    | none => b
    | some k => if quadRegs used q < budget then b else match b with
      | some (p, _) => if quadRegs used p < quadRegs used q then some (q, 16 * q + k) else b
      | none => some (q, 16 * q + k)) none
  best.map (·.2)

/-- Slots for the spans of a block, one after another in span order. -/
def placeSpans (used : List (Nat × Nat)) (closed : List Nat) : List Nat → Option (List Nat)
  | [] => some []
  | b :: r =>
    match nextSlot used closed b with
    | none => none
    | some k => (placeSpans ((k, b) :: used) closed r).map (k :: ·)

def rowsOf (bytes : Nat) : Nat := (bytes + 3071) / 3072 * 3072

/-- What a pier's blocks have taken: deck, tiles, bypasses. -/
structure Room where
  used  : List (Nat × Nat)
  deck  : Nat
  tiles : Nat
  byp   : Nat

def emptyRoom : Room := ⟨[], 0, 0, 0⟩

/-- The slots of a block on a pier with this use, if it fits outside the task reserve. (log 39, DEDUCED) -/
def Room.fits (r : Room) (closed : List Nat) (l : Launch) (reserve : Nat) : Option (List Nat) :=
  let bs := l.budgets.map (·.2.budget)
  if r.used.length + bs.length + reserve ≤ Config.slots && r.deck + rowsOf l.deck ≤ Config.deckBytes && r.tiles + l.tiles ≤ 8 &&
      (l.tiles = 0 || decide (r.byp < 4)) then placeSpans r.used closed bs
  else none

def Room.take (r : Room) (l : Launch) (slots : List Nat) : Room :=
  ⟨List.zip slots (l.budgets.map (·.2.budget)) ++ r.used, r.deck + rowsOf l.deck, r.tiles + l.tiles, r.byp + (if l.tiles = 0 then 0 else 1)⟩

/-- Blocks of a launch that an empty pier holds. -/
def capacityOf (l : Launch) (reserve : Nat) : Nat → Room → Nat
  | 0, _ => 0
  | n + 1, r => match r.fits [] l reserve with
    | some ks => 1 + capacityOf l reserve n (r.take l ks)
    | none => 0

def State.room (s : State) (pier : Nat) : Room :=
  let sps := s.spans.filter (·.pier = pier)
  let bks := s.blocks.filter fun k => k.pier = pier && !k.berth && !s.saved.any (·.block = (k.launch, k.idx))
  ⟨sps.map fun sp => (sp.slot, sp.budget), (bks.map fun k => rowsOf k.bytes).sum, (bks.map (·.tiles.length)).sum,
    (bks.filter (!·.tiles.isEmpty)).length⟩

/-! Validity (R308). -/

/-- Do the ranges of the dies together cover the blocks exactly? -/
def rangeOk (l : Launch) : Bool :=
  let rs := l.range.filter (·.2 ≠ 0)
  decide (0 < l.nblk) && (rs.map (·.2)).sum = l.nblk && rs.all (fun r => decide (r.1 + r.2 ≤ l.nblk)) &&
    (imap (fun i (a : Nat × Nat) => (imap (fun j (b : Nat × Nat) => decide (j ≤ i) || decide (a.1 + a.2 ≤ b.1) || decide (b.1 + b.2 ≤ a.1)) 0 rs).all id) 0 rs).all id

def roleBad (r : Role) : Bool :=
  decide (r.entry.toNat % 8 ≠ 0) || decide (r.budget < 8) || decide (256 < r.budget) || decide (r.budget % 8 ≠ 0) || decide (r.spans = 0)

/-- A node descriptor outside R299. (log 39, DEDUCED) -/
def nodeBad (n : Node) : Bool :=
  decide (n.entry.toNat % 8 ≠ 0) || decide (n.budget < 8) || decide (256 < n.budget) || decide (n.budget % 8 ≠ 0) ||
    decide (n.count = 0) || decide (32 < n.count) || decide (n.timer = 0) || decide (256 < n.timer)

/-- A reserved field that is not zero. -/
def reservedSet (bs : List Byte) : Bool :=
  let ctrl := field bs 0 8
  let store := field bs 0x18 8
  decide (ctrl / 2 ^ 9 ≠ 0) || decide (ctrl / 16 % 4 ≠ 0) || !zeros bs 0x14 0x18 || decide (store / 2 ^ 21 % 8 ≠ 0) || decide (store / 2 ^ 28 ≠ 0) ||
    !(List.range 4).all (fun r => zeros bs (0x4C + 16 * r) (0x50 + 16 * r)) || decide (field bs 0x88 8 / 512 ≠ 0) || !zeros bs 0xA8 0x100

def State.piersOn (s : State) (p : Partition) (d : Nat) : List Nat :=
  (List.range Config.piers).filter fun i => p.row.piers.contains i && i / Config.piersPerDie = d && !s.fenced.contains d

/-- The lowest reason for which a launch is invalid (R308, R385). `tableRead` says that the node table could be read; nodes
without a table are refused with the reason of the table. (log 39, DEDUCED) -/
def State.launchBad (s : State) (p : Partition) (l : Launch) (bs : List Byte) (tableRead : Bool) : Option Nat :=
  let reserve := p.tresv.toNat
  let total : Nat := (l.roles.map (·.spans)).sum
  let dieOk (d : Nat) : Bool := (l.range.getD d (0, 0)).2 = 0 || (!(s.piersOn p d).isEmpty && decide (0 < capacityOf l reserve 1 emptyRoom))
  let gangOk (d : Nat) : Bool := decide ((l.range.getD d (0, 0)).2 ≤ (s.piersOn p d).length * capacityOf l reserve 64 emptyRoom)
  let checks : List (Bool × Nat) := [
    (!rangeOk l, 1), (p.row.piers.isEmpty || !(List.range 4).all dieOk, 2), (l.roles.any roleBad, 3), (decide (64 < total), 4),
    (decide (l.deck % 16 ≠ 0) || decide (Config.deckBytes < l.deck) || decide (8 < l.tiles) || !tableRead || decide (256 < recNNode bs) ||
      (decide (recNNode bs ≠ 0) && decide (recNodes bs = 0)) || l.nodes.any nodeBad || decide ((l.nodes.map (·.entry)).eraseDups.length ≠ l.nodes.length), 5),
    (reservedSet bs, 6), (l.gang && !(List.range 4).all gangOk, 7), (decide (l.donea.toNat % 8 ≠ 0), 9)]
  (checks.find? (·.1)).map (·.2)

/-- What reading and checking a launch record comes to. -/
inductive Admit where
  | ok (l : Launch)
  | bad (reason : Nat)
  | park (why : Park) (pages : List Nat)

/-- The node table is read in the context, by the pier of an LNCH or by the quay, then the record is checked (R299, R308). -/
def State.admitRecord (s : State) (pier : Option Nat) (cx : Context) (lidx : Option Nat) (byLnch : Bool) (bs : List Byte) : State × Admit :=
  match s.parts[cx.part]? with
  | none => (s, .bad 2)
  | some p =>
    let n := recNNode bs
    let judge (t : State) (nodes : List Node) (ok : Bool) : State × Admit :=
      let l := launchOf t.uid cx.id cx.part lidx byLnch bs nodes
      match t.launchBad p l bs ok with
      | some r => (t, .bad r)
      | none => (t, .ok l)
    if n = 0 || 256 < n || recNodes bs = 0 then judge s [] true else
      match s.deviceRead pier cx (BitVec.ofNat 64 (recNodes bs)) (32 * n) with
      | (s1, .ok nb) => judge s1 (nodeList n nb) true
      | (s1, .error (.park w, pages)) => (s1, .park w pages)
      | (s1, .error _) => judge s1 [] false

/-- A valid launch waits for admission (R309). -/
def State.submit (s : State) (l : Launch) : State := { s with uid := s.uid + 1, launches := s.launches ++ [l] }

/-- LNCH at its fork (R329): the spans of its launch follow what the fork hands on (R155). Event 3 says that the record could not be read
(R354). (log 39, DEDUCED) -/
def State.lnchFork (s : State) (sp : Span) (e : Entry) (qd addr : Nat) : State :=
  let answer (t : State) (b : Bool) : State :=
    (t.onSpan sp.id fun u => { u.setQ qd b with
      ilock := u.ilock.filter (·.2 ≠ .q qd), landing := u.landing.filter (·.slot ≠ e.slot) }).settle sp.id
  if addr % 64 ≠ 0 then answer s false else
    match s.ctx? sp.ctx with
    | none => s
    | some cx =>
      let wait (t : State) (w : Park) (pages : List Nat) : State := t.notify sp.ctx w (.entry sp.uid e.slot) pages
      match s.deviceRead (some sp.pier) cx (BitVec.ofNat 64 addr) 256 with
      | (s1, .error (.park w, pages)) => wait s1 w pages
      | (s1, .error _) => answer (s1.postEvent cx.queue 3 8 none) false
      | (s1, .ok bs) =>
        match s1.admitRecord (some sp.pier) cx none true bs with
        | (s2, .park w pages) => wait s2 w pages
        | (s2, .bad _) => answer s2 false
        | (s2, .ok l) =>
          let prio := match s2.launch? sp.launch with | some p => min p.prio l.prio | none => l.prio
          answer (s2.submit { l with prio := prio, view := s.forking sp e.seq }) true

/-! The start of a span (R50, R155, R161). -/

def startRegs (args : Word) (blk idx role : Nat) : List (Nat × Word) :=
  ssparse 0 [args, BitVec.ofNat 64 blk, BitVec.ofNat 64 idx, BitVec.ofNat 64 role]

def startLanes : List (Nat × VWord) := ssparse 0 (laneNums.map (BitVec.ofNat 32))

def State.newSpan (s : State) (l : Launch) (id blk idx role budget : Nat) (entry : Word) : Span :=
  { id := id, uid := s.uid, ctx := l.ctx, part := l.part, launch := l.id, blk := blk, idx := idx, role := role, budget := budget,
    lanes := List.replicate Config.lanes { st := .ready, pc := entry }, vregs := startLanes, sregs := startRegs l.args blk idx role,
    epoch := s.steps, view := l.view.map fun x => { key := x.1, step := x.2, since := 0 }, age := s.steps, tbase := match s.parts[l.part]? with | some p => p.taskbase | none => 0 }

/-- Does a checkpoint that runs stop consumption and admission in a partition (R361)? -/
def State.ckStops (s : State) (part : Nat) : Bool := s.ck.stat.toNat % 8 = 1 && s.ck.restores.isEmpty && s.ck.part.getLsbD part

/-! Placement (R309). -/

/-- Launches of a partition that still wait to place a block, first the highest PRIO, then the earliest. (log 39, DEDUCED) -/
def Launch.before (a b : Launch) : Bool := decide (b.prio < a.prio) || (a.prio = b.prio && decide (a.id < b.id))

def Launch.left (l : Launch) (d : Nat) : Nat := (l.range.getD d (0, 0)).2 - l.next.getD d 0
def Launch.unplaced (l : Launch) : Bool := (List.range 4).any fun d => decide (0 < l.left d)

def State.admitted (s : State) (l : Launch) : Bool :=
  let mine := s.launches.filter (·.part = l.part)
  let cap := match s.parts[l.part]? with | some p => min 256 p.row.launchCap | none => 0
  l.started || decide ((mine.filter fun k => k.started || k.before l).length < cap)

/-- Room of a pier for placement: none where a resumption waits for its room (R363). -/
def State.openTo (s : State) (pier : Nat) : Bool :=
  !s.saved.any fun sp => sp.pier = pier && (match s.ctx? sp.ctx with | some cx => cx.status = .resuming | none => false)

def State.closedOn (s : State) (pier : Nat) : List Nat := (s.closedPlaces.filter (· / 64 = pier)).map (· % 64)

/-- The lowest pier of a die that holds the next block, and its slots. LNCH spans avoid slots that await a host (R333). -/
def State.pierFor (s : State) (p : Partition) (l : Launch) (d : Nat) : Option (Nat × List Nat) :=
  (s.piersOn p d).findSome? fun i =>
    if s.openTo i then ((s.room i).fits (if l.byLnch then s.closedOn i else []) l p.tresv.toNat).map fun ks => (i, ks) else none

/-- Place the next block of a die. Its spans come after what the launch follows, on any die (R155, R180). -/
def State.placeOne (s : State) (l : Launch) (d pier : Nat) (slots : List Nat) : State :=
  let b := (l.range.getD d (0, 0)).1 + l.next.getD d 0
  let start := fun (acc : State × Nat × List Nat) (x : Nat × (Nat × Role)) =>
    let sp := acc.1.newSpan l (64 * pier + x.1) b acc.2.1 x.2.1 x.2.2.budget x.2.2.entry
    ({ acc.1 with uid := acc.1.uid + 1, spans := acc.1.spans ++ [sp] }, acc.2.1 + 1, acc.2.2 ++ [sp.uid])
  let (s1, n, uids) := (List.zip slots l.budgets).foldl start (s, 0, [])
  let k : Block := { launch := l.id, idx := b, pier := pier, bytes := l.deck, tiles := List.replicate l.tiles {}, nspans := n, live := uids }
  (({ s1 with blocks := s1.blocks ++ [k] } : State).crossed d).onLaunch l.id fun m => { m with started := true, next := m.next.set d (m.next.getD d 0 + 1) }

/-- The next block of a launch that fits now on a die that `f` allows: its die, pier and slots. -/
def State.nextBlock (s : State) (p : Partition) (l : Launch) (f : Nat → Bool) : Option (Nat × Nat × List Nat) :=
  (List.range 4).findSome? fun d => if decide (0 < l.left d) && f d then (s.pierFor p l d).map fun x => (d, x.1, x.2) else none

/-- All blocks of a gang, or none (R309). -/
def State.placeGang (s : State) (p : Partition) (id : Nat) : Nat → Option State
  | 0 => none
  | n + 1 =>
    match s.launch? id with
    | none => none
    | some l =>
      if !l.unplaced then some s else
        match s.nextBlock p l fun _ => true with
        | some (d, i, ks) => (s.placeOne l d i ks).placeGang p id n
        | none => none

/-- Is a launch next in turn on a die: no launch before it has a block that fits, and the first one that waits is no gang that wants
the die (R309)? (log 39, DEDUCED) -/
def State.inTurn (s : State) (p : Partition) (l : Launch) (d : Nat) : Bool :=
  let ahead := s.launches.filter fun k => k.part = l.part && k.id ≠ l.id && k.before l && k.unplaced && s.admitted k &&
    (match s.ctx? k.ctx with | some cx => cx.status = .running | none => false)
  let first (k : Launch) : Bool := !ahead.any (·.before k)
  ahead.all fun k =>
    if k.gang then !(first k && decide ((k.range.getD d (0, 0)).2 ≠ 0)) && (s.placeGang p k.id 20000).isNone
    else (s.nextBlock p k fun _ => true).isNone

/-- BLOCK PLACEMENT (R309, R334): the next block, or all of a gang; the tree table is loaded before the first. -/
def State.place (s : State) (l : Launch) : State :=
  match s.parts[l.part]?, s.ctx? l.ctx with
  | some p, some cx =>
    if cx.status ≠ .running || s.ckStops l.part || !s.admitted l || !l.unplaced then s else
      let go (t : State) : State :=
        if l.gang then
          if (List.range 4).all fun d => l.left d = 0 || t.inTurn p l d then (t.placeGang p l.id 20000).getD s else s
        else match t.nextBlock p l (t.inTurn p l) with
          | some (d, i, ks) => t.placeOne l d i ks
          | none => s
      if l.started || l.trees = 0 then go s
      else
        let s1 := s.shutRounds l.part l.id
        if (match s1.parts[l.part]? with | some q => q.net.any (·.owed.isSome) | none => false) then s1 else
          match s1.loadTrees none l.part cx l.trees with
          | (s2, none) => go s2
          | (s2, some (w, pages)) => s2.notify l.ctx w (.launch l.id) pages
  | _, _ => s

/-! Completion (R289, R309, R310). -/

def Launch.done (l : Launch) (s : State) : Bool :=
  !l.unplaced && decide (l.records = 0) && !s.spans.any (·.launch = l.id) && !s.blocks.any (·.launch = l.id)

/-- The completion event, and the launch is gone with its barriers. -/
def State.noteDone (s : State) (l : Launch) (cx : Context) : State :=
  let v := if l.stopped = 0 then l.donev else l.donev ^^^ (1 <<< 63)
  let s1 := if l.note then s.postEvent cx.queue 2 (v.toNat + 2 ^ 64 * l.stopped) l.lidx else s
  { s1 with launches := s1.launches.filter (·.id ≠ l.id), bars := s1.bars.filter (·.key.launch ≠ l.id) }

/-- What a launch that completes tells the host and hands on with its word: all that its spans and operations did, and the merges before it
(R155, R178, R180); `s` is the state after the merges, `hs` the lines merged. -/
def State.tellDone (s : State) (l : Launch) (hs : List Shadow) : State :=
  let v := joinViews l.ended ((hs.map fun h => s.known (64 * h.line) 64 s.steps).flatten.eraseDups)
  (s.onLaunch l.id fun k => { k with ended := v }).tellHost v s.latest

/-- The word of a launch, where it was written, is a release at system scope (R309). -/
def State.doneWord (s : State) (l : Launch) (cx : Context) : State :=
  s.announceAt cx l.donea 8 .sys (((s.launch? l.id).map Launch.ended).getD []) {}

/-- A launch that is done completes: the shadow lines that remain are merged (R178), then its word is written, as a release at system scope
(R309). -/
def State.complete (s0 : State) (l : Launch) : State :=
  match s0.ctx? l.ctx with
  | none => s0
  | some cx =>
    let s := (s0.mergeAll (·.part = l.part)).tellDone l (s0.shadows.filter (·.part = l.part))
    if !l.done s0 || cx.status ≠ .running || s0.shadows.any (fun h => h.part = l.part && s0.lineHeld h.line) then s0
    else if l.donea = 0 then s.noteDone l cx
    else
      let v := if l.stopped = 0 then l.donev else l.donev ^^^ (1 <<< 63)
      match s.deviceWrite none cx l.donea (toBytes 8 v.toNat) with
      | (s1, none, _) => (s1.doneWord l cx).noteDone l cx
      | (s1, some (.park w), pages) => s1.notify l.ctx w (.launch l.id) pages
      | (s1, some (.fatal c), _) => (s1.postEvent cx.queue 10 (l.donea.toNat + 2 ^ 64 * c.code) l.lidx).noteDone l cx
      | (s1, some (.pass _ _), _) => s1

/-- BLOCK_PLACEMENT (R309). -/
def execBlockPlacement (launch : Nat) (s : State) : Out :=
  match s.launch? launch with
  | some l => .next (s.place l)
  | none => .next s

/-- LAUNCH_COMPLETE (R309, R310). -/
def execLaunchComplete (launch : Nat) (s : State) : Out :=
  match s.launch? launch with
  | some l => .next (s.complete l)
  | none => .next s

end Sys2Proof.Machine
end

