-- ==== Sys2Proof/Machine/PlaneOps.lean ====
section
/-! DEFINITION. The plane engine (R215, R220 to R222, R236 to R242, R247 to R259, R280 to R283): stripes, block products,
drains, tile images, and what an operation does when the engine runs it. -/

namespace Sys2Proof.Machine

/-! Format and control words (R216, R218). -/

def fmtPA (f : VWord) : Nat := (f.extractLsb' 0 4).toNat + 1
def fmtPB (f : VWord) : Nat := (f.extractLsb' 4 4).toNat + 1
def fmtSA (f : VWord) : Bool := f.getLsbD 8
def fmtSB (f : VWord) : Bool := f.getLsbD 9
def fmtAK (f : VWord) : Bool := f.getLsbD 10
def fmtSP (f : VWord) : Nat := (f.extractLsb' 11 2).toNat
def fmtAnchor (f : VWord) : Int := (f.extractLsb' 16 10).toInt
def fmtDF (f : VWord) : Nat := (f.extractLsb' 26 3).toNat

def ctlTile (c : Word) : Nat := (c.extractLsb' 0 3).toNat
def ctlSeg (c : Word) : Nat := (c.extractLsb' 8 2).toNat
def ctlCount (c : Word) : Nat := (c.extractLsb' 16 16).toNat

/-! Tiles as dense lists. -/

def Tile.elems (t : Tile) : List (BitVec 96) := sdense 0 4096 0 t.acc
def Tile.nans (t : Tile) : List Bool := sdense false 4096 0 t.flags
def Tile.make (acc : List (BitVec 96)) (nans : List Bool) (anchor : Int) : Tile := ⟨ssparse 0 acc, ssparse false nans, anchor⟩

/-! Stripes. A decoded stripe is its eight scales and its 192 integers or codes. -/

abbrev Stripe := List Nat × List Int

/-- Element `e` of a stripe of p planes of `n` 8-byte words each, from `off` on (R215). -/
def planeBits (bs : List Byte) (off words p : Nat) : Nat → Nat :=
  let planes := (List.range p).map fun j => leNat ((bs.drop (off + 8 * words * j)).take (8 * words))
  fun e => (imap (fun j x => x / 2 ^ e % 2 * 2 ^ j) 0 planes).sum

def scalesOf (bs : List Byte) : List Nat := (bs.take 8).map (·.toNat)

/-- A dense BQ stripe (R215). -/
def denseStripe (p : Nat) (sgn : Bool) (bs : List Byte) : Stripe :=
  let bit := planeBits bs 8 3 p
  (scalesOf bs, (List.range 192).map fun e => bqInt p sgn (bit e))

/-- An L6 stripe: the codes (R248). -/
def l6Stripe (bs : List Byte) : Stripe :=
  let bit := planeBits bs 8 3 6
  (scalesOf bs, (List.range 192).map fun e => (bit e : Int))

/-- Positions that a mask keeps, ascending. -/
def kept (mask : Nat) : List Nat := (List.range 16).filter fun i => mask / 2 ^ i % 2 = 1

def maskOfGroup (bs : List Byte) (g : Nat) : Nat := leNat ((bs.drop (8 + 2 * g)).take 2)

/-- A sparse A stripe, N of 16 (R249): an element that no mask keeps is exactly 0. -/
def sparseStripe (N p : Nat) (sgn : Bool) (bs : List Byte) : Stripe :=
  let bit := planeBits bs 32 (N / 4) p
  (scalesOf bs, (List.range 192).map fun e =>
    match ((kept (maskOfGroup bs (e / 16))).take N).idxOf? (e % 16) with
    | some r => bqInt p sgn (bit (N * (e / 16) + r))
    | none => 0)

/-- A mask with more than N bits set (R250). -/
def sparseBad (N : Nat) (bs : List Byte) : Bool := (List.range 12).any fun g => decide (N < (kept (maskOfGroup bs g)).length)

def denseSize (p : Nat) : Nat := 8 + 24 * p
def sparseN (f : VWord) : Nat := if fmtSP f = 1 then 8 else 4

/-- Bytes of one A stripe and of one B stripe. -/
def sizeA (k : PlaneKind) (f : VWord) : Nat :=
  match k with
  | .plma => denseSize 6
  | .pmms => 32 + 2 * sparseN f * fmtPA f
  | _ => denseSize (fmtPA f)
def sizeB (k : PlaneKind) (f : VWord) : Nat := if k = .plma then denseSize 6 else denseSize (fmtPB f)

/-! Products (R220, R236, R239, R241). -/

/-- (log 29, DEDUCED) -/
def dot (a b : List Int) : Int := (List.zipWith (· * ·) a b).sum
def l6Dot (a b : List Int) : Int := (List.zipWith (fun x y => l6Product x.toNat y.toNat) a b).sum

/-- What one pair of stripes adds to an element of anchor g, and whether a NaN scale touches it. -/
def stripeProduct (l6 : Bool) (g : Int) (a b : Stripe) : Int × Bool :=
  let blk := (List.range 8).map fun k =>
    let ea := a.1.getD k 0
    let eb := b.1.getD k 0
    let xa := (a.2.drop (24 * k)).take 24
    let xb := (b.2.drop (24 * k)).take 24
    let x := if l6 then onGrid (l6Dot xa xb) ((ea : Int) + eb - 300) g else onGrid (dot xa xb) ((ea : Int) + eb - 254) g
    (x, ea = 255 || eb = 255)
  ((blk.map (·.1)).sum, blk.any (·.2))

/-- One stripe step: every pair of a row stripe and a column stripe. -/
def Tile.addStripes (t : Tile) (l6 : Bool) (rows cols : List Stripe) : Tile :=
  let adds := (rows.map fun a => cols.map fun b => stripeProduct l6 t.anchor a b).flatten
  Tile.make (List.zipWith (fun (x : BitVec 96) d => x + BitVec.ofInt 96 d.1) t.elems adds)
    (List.zipWith (fun (n : Bool) d => n || d.2) t.nans adds) t.anchor

/-! Drains (R221, R222, R242, R259). -/

def accValue (g : Int) (a : BitVec 96) : FV := .fin (decide (a.toInt < 0)) a.toInt.natAbs g

def drainFloat (f : Fmt) (g : Int) (a : BitVec 96) (nan : Bool) : Nat := if nan then f.nan else f.put 0 (accValue g a)

/-- Codes of `p` bits packed little-endian into 3p bytes (R234). -/
def packCodes (p : Nat) (cs : List Nat) : List Byte := toBytes (3 * p) ((imap (fun i c => c * 2 ^ (p * i)) 0 cs).sum)

/-- One block of a drained row: up to 24 elements. -/
def drainBlock (l6 : Bool) (p : Nat) (sgn : Bool) (g : Int) (es : List (BitVec 96 × Bool)) : List Byte :=
  let p := if l6 then 6 else p
  if es.any (·.2) then toBytes 1 255 ++ toBytes (3 * p) 0
  else
    let (e, cs) := if l6 then quantl6 (es.map fun x => accValue g x.1) else quant p sgn (es.map fun x => accValue g x.1)
    toBytes 1 e ++ packCodes p cs

/-- The bytes of a drain (R259). -/
def drainBytes (f : VWord) (t : Tile) : List Byte :=
  let es := List.zip t.elems t.nans
  match fmtDF f with
  | 0 => (es.map fun x => toBytes 4 (drainFloat fp32 t.anchor x.1 x.2)).flatten
  | 1 => (es.map fun x => toBytes 2 (drainFloat bf16 t.anchor x.1 x.2)).flatten
  | df => ((List.range 64).map fun m => ((List.range 3).map fun b =>
      drainBlock (df = 2) (fmtPA f) (fmtSA f) t.anchor (((es.drop (64 * m)).take 64).drop (24 * b) |>.take 24)).flatten).flatten

def drainSize (f : VWord) : Nat :=
  match fmtDF f with
  | 0 => 16384
  | 1 => 8192
  | 2 => 3648
  | _ => 192 * (1 + 3 * fmtPA f)

/-! Images (R257, R258). -/

def imageSize : Nat := 49728
def bypassSize : Nat := 49152

def Tile.image (t : Tile) : List Byte :=
  (t.elems.map fun a => toBytes 12 a.toNat).flatten ++
    ((List.range 512).map fun b => BitVec.ofNat 8 (((List.range 8).map fun i => if sget false t.flags (8 * b + i) then 2 ^ i else 0).sum)) ++
    toBytes 8 (BitVec.ofInt 64 t.anchor).toNat ++ toBytes 56 0

/-- ANCHOR of an image. -/
def imageAnchor (bs : List Byte) : Int := (BitVec.ofNat 64 (leNat ((bs.drop 0xC200).take 8))).toInt

def anchorOk (g : Int) : Bool := decide (-512 ≤ g) && decide (g ≤ 511)

def tileOfImage (bs : List Byte) (g : Int) : Tile :=
  Tile.make ((chop 12 4096 bs).map (BitVec.ofNat 96))
    (((chop 1 512 (bs.drop 0xC000)).map fun x => (List.range 8).map fun i => decide (x / 2 ^ i % 2 = 1)).flatten) g

def Block.bypassBytes (k : Block) : List Byte := ((sdense 0 12288 0 k.bypass).map fun (x : VWord) => toBytes 4 x.toNat).flatten
def bypassOf (bs : List Byte) : List (Nat × VWord) := ssparse 0 ((chop 4 12288 bs).map (BitVec.ofNat 32))

/-! What an operation does. -/

/-- Stripe steps of an operation; every other operation is one step. -/
def PlaneOp.steps (o : PlaneOp) : Nat :=
  match o.kind with
  | .pmma | .pmms | .plma => ctlCount o.ctl
  | _ => 1

/-- Stripe s of the A and B operands of a product, in the block's deck (R220). -/
def PlaneOp.rowStripes (o : PlaneOp) (k : Block) (s : Nat) : List Stripe :=
  let n := sizeA o.kind o.fmt
  (List.range 64).map fun m =>
    let bs := sgets 0 k.deck (o.opa.toNat + (m * ctlCount o.ctl + s) * n) n
    match o.kind with
    | .plma => l6Stripe bs
    | .pmms => sparseStripe (sparseN o.fmt) (fmtPA o.fmt) (fmtSA o.fmt) bs
    | _ => denseStripe (fmtPA o.fmt) (fmtSA o.fmt) bs

def PlaneOp.colStripes (o : PlaneOp) (k : Block) (s : Nat) : List Stripe :=
  let n := sizeB o.kind o.fmt
  (List.range 64).map fun m =>
    let bs := sgets 0 k.deck (o.opb.toNat + (m * ctlCount o.ctl + s) * n) n
    if o.kind = .plma then l6Stripe bs else denseStripe (fmtPB o.fmt) (fmtSB o.fmt) bs

/-- A row of the bypass as a stripe, quantised (R221). -/
def bypassStripe (p : Nat) (sgn : Bool) (row : List VWord) : Stripe :=
  let qs := (blocks24 (row.map fun x => fp32.read x.toNat)).map (quant p sgn)
  (qs.map (·.1), ((qs.map fun q => q.2.map (bqInt p sgn))).flatten)

/-- SPARSEMETA (R250): some mask of the A operand has too many bits. -/
def PlaneOp.sparseBad (o : PlaneOp) (k : Block) : Bool :=
  let n := sizeA o.kind o.fmt
  (List.range (64 * ctlCount o.ctl)).any fun i => Machine.sparseBad (sparseN o.fmt) (sgets 0 k.deck (o.opa.toNat + i * n) n)

/-- The deck words that an operation reads in its stripe step, and those that it writes (R247). -/
def PlaneOp.readWords (o : PlaneOp) : List Nat :=
  let stripes (base n : Nat) : List Nat := ((List.range 64).map fun m => (List.range (n / 8)).map fun j => base + (m * ctlCount o.ctl + o.done) * n + 8 * j).flatten
  match o.kind with
  | .pmma | .pmms | .plma => stripes o.opa.toNat (sizeA o.kind o.fmt) ++ stripes o.opb.toNat (sizeB o.kind o.fmt)
  | .pmmabp => stripes o.opb.toNat (sizeB o.kind o.fmt)
  | .pacl => (List.range (imageSize / 8)).map fun j => o.opb.toNat + 8 * j
  | _ => []

/-- What a drain or a tile save writes. -/
def PlaneOp.output (o : PlaneOp) (k : Block) : List Byte :=
  let t := k.tiles.getD (ctlTile o.ctl) {}
  match o.kind with
  | .pdrn => drainBytes o.fmt t
  | .pacs => t.image
  | _ => []

def PlaneOp.read? (o : PlaneOp) (a : Nat) : Bool := o.words.any (·.1 = a)

/-- The words of the output that are not yet written. -/
def PlaneOp.unwritten (o : PlaneOp) (k : Block) : List (Nat × List Byte) :=
  let out := o.output k
  ((List.range (out.length / 8)).map fun j => (o.opb.toNat + 8 * j, (out.drop (8 * j)).take 8)).filter (!o.read? ·.1)

/-- The block as an operation sees it: a word that it has read stays as it was then. -/
def PlaneOp.seen (o : PlaneOp) (k : Block) : Block := o.words.foldl (fun b w => b.deckPut w.1 w.2) k

/-- Some words of the stripe step are read, or some words of the drain written: the device's choice, made afresh for each (R247). (log 28,
DESIGN CHOICE) -/
def PlaneOp.touch (o : PlaneOp) (k : Block) (now : Nat) : Block × PlaneOp :=
  let reads := (o.readWords.filter fun a => Config.planeWord now a && !o.read? a).map fun a => (a, sgets 0 k.deck a 8)
  let writes := (o.unwritten k).filter fun w => Config.planeWord now w.1
  (writes.foldl (fun b w => b.deckPut w.1 w.2) k, { o with words := o.words ++ reads ++ writes })

/-- Some words of the masks of a PMMS are read for its check, and what it has read stays so (R247, R250). (log 28, DESIGN CHOICE) -/
def PlaneOp.touchMasks (o : PlaneOp) (k : Block) (now : Nat) : PlaneOp :=
  let n := sizeA o.kind o.fmt
  let masks := ((List.range (64 * ctlCount o.ctl)).map fun i => [o.opa.toNat + i * n + 8, o.opa.toNat + i * n + 16, o.opa.toNat + i * n + 24]).flatten
  { o with words := o.words ++ (masks.filter fun a => Config.planeWord now a && !o.read? a).map fun a => (a, sgets 0 k.deck a 8) }

/-- One step of an operation on its block (R220 to R222, R280 to R283), with what is left to read and write. (log 28, DESIGN CHOICE) -/
def PlaneOp.step (o : PlaneOp) (k : Block) : Block :=
  let i := ctlTile o.ctl
  let t := k.tiles.getD i {}
  let put (u : Tile) : Block := { k with tiles := k.tiles.set i u }
  let d := o.seen k
  match o.kind with
  | .pmma | .pmms => put (t.addStripes false (o.rowStripes d o.done) (o.colStripes d o.done))
  | .plma => put (t.addStripes true (o.rowStripes d o.done) (o.colStripes d o.done))
  | .pmmabp =>
    let all := sdense 0 12288 0 k.bypass
    let rows := (List.range 64).map fun m => bypassStripe (fmtPA o.fmt) (fmtSA o.fmt) ((all.drop (192 * m)).take 192)
    { put (t.addStripes false rows (o.colStripes d 0)) with bypass := [] }
  | .pacz => put { acc := [], flags := [], anchor := fmtAnchor o.fmt }
  | .pdrn | .pacs => (o.unwritten k).foldl (fun b w => b.deckPut w.1 w.2) k
  | .pdrb =>
    let vals := (List.zip t.elems t.nans).map fun x => BitVec.ofNat 32 (drainFloat fp32 t.anchor x.1 x.2)
    let all := sdense 0 12288 0 k.bypass
    { k with bypass := ssparse 0 (imap (fun j old =>
        if j % 192 / 64 = ctlSeg o.ctl then vals.getD (64 * (j / 192) + j % 64) 0 else old) 0 all) }
  | .pacl => put (tileOfImage (sgets 0 d.deck o.opb.toNat imageSize) o.anchor)

/-- Deck words that an operation has written hide the releases that stand on them (R155). -/
def State.planeWrote (s : State) (o : PlaneOp) (ws : List (Nat × List Byte)) : State :=
  ws.foldl (fun t w => t.wrote (some o.blk) w.1 8 false) s

/-- `n` steps, as far as they go. (log 28, DESIGN CHOICE) -/
def State.planeSteps (s : State) (o : PlaneOp) : Nat → State × PlaneOp
  | 0 => (s, o)
  | n + 1 =>
    if o.steps ≤ o.done then (s, o)
    else ((s.onBlock o.blk o.step).planeWrote o ((s.block? o.blk).elim [] o.unwritten)).planeSteps { o with done := o.done + 1, words := [] } n

def State.putPlane (s : State) (o : PlaneOp) : State :=
  { s with planeq := s.planeq.map fun t => if t.uid = o.uid ∧ t.id = o.id then o else t }

def State.dropPlane (s : State) (o : PlaneOp) : State :=
  { s with planeq := s.planeq.filter fun t => !(t.uid = o.uid && t.id = o.id) }

/-- The operation leaves its drain and joins the engine's queue behind those that left before it (R252). -/
def State.queuePlane (s : State) (o : PlaneOp) : State :=
  let t := s.dropPlane o
  { t with planeq := t.planeq ++ [{ o with st := .queued }] }

/-- A check that fails traps at issue, with every lane on the instruction and without its wait marker (R64, R250, R283). -/
def State.planeTrap (s : State) (sp : Span) (o : PlaneOp) (c : Cause) : State :=
  let L := sp.lanesIn (!·.ended)
  let a := (sp.lane (L.headD 0)).pc - 8
  ((s.dropPlane o).onSpan sp.id fun t =>
    { t.onLanes L (fun ln => { ln with pc := a }) with checkOp := none, wHold := false }).takeTrap sp.id ⟨c, true, a, L⟩

/-- The fork of a plane operation, with its check (R134, R250, R283). -/
def State.planeFork (s : State) (sp : Span) (o : PlaneOp) : State :=
  match s.block? o.blk with
  | none => s
  | some k =>
    let pass (o : PlaneOp) : State := ((s.queuePlane o).onSpan sp.id fun t => { t with checkOp := if t.checkOp = some o.id then none else t.checkOp }).settle sp.id
    match o.kind with
    | .pmms => if o.sparseBad (o.seen k) then s.planeTrap sp o .sparsemeta else pass { o with words := [] }
    | .pacl =>
      let g := imageAnchor (sgets 0 k.deck o.opb.toNat imageSize)
      if anchorOk g then pass { o with anchor := g } else s.planeTrap sp o .accrange
    | _ => pass o

end Sys2Proof.Machine
end

