-- ==== Sys2Proof/Machine/Events.lean ====
section
/-! DEFINITION. The steps of the spans, the memory system and the engines: walks, traps, retirement, results, the deck's banks,
requests and bounces, forks, watches, chunks, plane operations, merges. A step that is not enabled changes nothing. -/

namespace Sys2Proof.Machine

/-! Walks (R18, R121). -/

/-- A walk returns: the accesses of its check pass, park or fault in the lanes that still wait for it; that of a lane which has been
reclaimed meanwhile is given up (log 53, DESIGN CHOICE). (log 22, DEDUCED) -/
def State.walkDone (s : State) (sp : Span) (cx : Context) (c : Check) : State :=
  let live := fun (l : Nat) => (sp.lane l).wait = some (.check c.id)
  let s0 := s.onSpan sp.id fun t => { t with checks := t.checks.filter (·.id ≠ c.id) }
  let one := fun (acc : State × List (Access × List Piece)) (a : Access) =>
    let lanes := (match a.lane with | some l => [l] | none => c.lanes).filter live
    if lanes.isEmpty then (acc.1.onSpan sp.id (·.withdraw a), acc.2) else
      match acc.1.checkWalk sp.pier cx a with
      | (t, .pass ps) =>
        let u := t.settleVerdict sp.id lanes a c.watch (.pass ps)
        (if a.op = .stl then u else u.onSpan sp.id (·.takeFences a), acc.2 ++ [(a, ps)])
      | (t, v) => (t.settleVerdict sp.id lanes a c.watch v, acc.2)
  let (s1, passed) := c.accs.foldl one (s0, [])
  (s1.onSpan sp.id (·.send passed)).settle sp.id

/-- WALK_COMPLETE (R18): not while its walk meets a held line (R109). (log 22, DEDUCED) -/
def execWalkComplete (span chk : Nat) (s : State) : Out :=
  match s.span? span with
  | none => .next s
  | some sp => match sp.checks.find? (·.id = chk), s.ctx? sp.ctx with
    | some c, some cx => .next (if sp.resident && !c.accs.any (s.checkHeld sp.pier cx) then s.walkDone sp cx c else s)
    | _, _ => .next s

/-- TRAP_ENTRY (R20, R39). -/
def execTrapEntry (span : Nat) (s : State) : Out := .next (s.settle span)

/-! Retirement (R32). -/

def Span.allEnded (sp : Span) : Bool := (sp.lanesIn (!·.ended)).isEmpty

/-- Nothing left in flight (R32). -/
def State.quiet (s : State) (sp : Span) : Bool :=
  sp.landing.isEmpty && sp.unsent.isEmpty && sp.joining.isEmpty && sp.results.isEmpty && sp.checks.isEmpty && sp.ferry.isEmpty && sp.rounds.isEmpty &&
    sp.arrivals.isEmpty && sp.records.isEmpty && sp.drafts.isEmpty && !s.planeq.any (·.uid = sp.uid) && !s.deckq.any (·.uid = sp.uid) &&
    !s.fmsgs.any (fun m => m.uid = sp.uid && (match m.kind with | .fret _ _ _ _ => true | _ => false))

/-- A span retires, or a stopped one gives up its slot (R32, R333). Its drops of references that it owned go on to their entries. A future on
which a lane that exited in handler mode was still counted as a waiter keeps that count (log 58, DESIGN CHOICE). The completion of its launch
follows all that it did (R155). -/
def State.retire (s : State) (sp : Span) : State :=
  let gone (t : State) : State :=
    ({ t with spans := t.spans.filter (·.uid ≠ sp.uid), flows := t.flows.filter (·.uid ≠ sp.uid), fmsgs := t.fmsgs.filter fun m => m.uid ≠ sp.uid || m.kind = .drop true } : State).onLaunch sp.launch
      fun l => { l with ended := joinViews l.ended (s.handing sp sp.seq true true) }
  match sp.status with
  | .stopped => if s.quiet sp then (gone s).dropAll (.span sp.uid) else s
  | .running =>
    if sp.allEnded && s.quiet sp && !sp.due && sp.trap.isNone && sp.preempt.isNone then
      let s1 := (gone s).dropAll (.span sp.uid)
      let s2 := s1.onBlock sp.block fun k => { k with live := k.live.filter (· ≠ sp.uid) }
      (s2.lowerBars sp.block).onLaunch sp.launch fun l => { l with retired := l.retired + 1 }
    else s
  | _ => s

/-- SPAN_RETIRE (R32). -/
def execSpanRetire (span : Nat) (s : State) : Out :=
  match s.span? span with
  | some sp => .next (s.retire sp)
  | none => .next s

/-- BLOCK_RETIRE (R32): no span of the block is left, and no engine operation of it; its shadow lines are merged (R178). -/
def execBlockRetire (launch blk : Nat) (s : State) : Out :=
  let b := (launch, blk)
  if s.spans.any (·.block = b) || s.saved.any (·.block = b) || s.planeq.any (·.blk = b) || s.deckq.any (·.blk = b) || s.mergeWaits b then .next s
  else
    let s0 := s.mergeBlock b
    let s1 := s0.onLaunch launch fun l => { l with ended := joinViews l.ended (((s0.block? b).map Block.merged).getD []) }
    .next { s1 with blocks := s1.blocks.filter (fun k => !(k.launch = launch && k.idx = blk)), bars := s1.bars.filter (·.key.blk ≠ some blk) ++ s1.bars.filter (fun n => n.key.blk = some blk && n.key.launch ≠ launch) }

/-! Results (R63). -/

/-- A result is written where it goes, and is pending no more. -/
def Span.arrive (sp : Span) (r : Result) : Span :=
  let sp0 := { sp with results := sp.results.filter (·.id ≠ r.id), ilock := sp.ilock.filter (·.1 ≠ r.id) }
  if r.skip then sp0 else
    match r.lane with
    | some l =>
      let sp1 := match r.vreg with | some (d, n) => sp0.setVn n d l r.val | none => sp0
      (match r.pred with | some p => sp1.setP p l r.pval | none => sp1)
    | none =>
      let sp1 := match r.sreg with | some d => sp0.setS d (r.val.setWidth 64) | none => sp0
      (match r.pred with | some p => sp1.setQ p r.pval | none => sp1)

/-- RESULT_ARRIVAL (R63). -/
def execResultArrival (span res : Nat) (s : State) : Out :=
  match s.span? span with
  | none => .next s
  | some sp => match sp.results.find? (·.id = res) with
    | some r => .next (if r.need = 0 then (s.onSpan span (·.arrive r)).settle span else s)
    | none => .next s

/-! The deck's banks (R187, R190, R246). -/

/-- One lane's bytes at the bank: the block after it, and the value that a result receives. -/
def Block.deckPart (k : Block) (p : DeckPart) : Block × Option (Nat × BitVec 128) :=
  let raw : BitVec 128 := BitVec.ofNat 128 (k.deckNat p.addr p.len)
  match p.op with
  | .load r => (k, some (r, Access.fill { op := .load, lane := none, ea := 0, size := p.len, sgn := p.sgn } raw))
  | .store => (k.deckPut p.addr (toBytes p.len p.data.toNat), none)
  | .atomic aop aty r => (k.deckPut p.addr (toBytes p.len (rmw p.len aop aty (raw.setWidth 64) (p.data.setWidth 64)).toNat), some (r, raw))

/-- What a lane's access to the deck tells its span, and leaves for others (R155, R192). -/
def State.deckTold (s : State) (sp : Span) (r : DeckReq) (p : DeckPart) : State :=
  let reads := match p.op with | .store => false | _ => true
  let s1 := if reads then
      let ms := s.standing (some r.blk) p.addr p.len
      let t := ((s.hear sp.id ms).heardLate sp.id r.seq ms).looked sp r.seq (some r.blk) p.addr p.len []
      if r.seq < sp.acqSeq then t.advance sp.id sp.acqScope else t
    else s
  let rels := r.fences.map fun f => (f.scope, s1.handing sp f.seq f.u f.scope.all)
  if p.op.stores then
    (((s1.follows sp.id r.seq (some p.lane) r.seq .all).overtake sp r.seq (some r.blk) p.addr p.len).wrote (some r.blk) p.addr p.len reads).announce
      (some r.blk) p.addr p.len rels sp.party
  else s1

/-- May a deck access be served: a store or an atomic not before the release fences before it have retired (R155, R192)? -/
def State.deckHeld (s : State) (r : DeckReq) : Bool :=
  r.parts.any (·.op.stores) && (s.spanOf? r.uid).any fun sp => sp.landing.any fun e => e.isFence && decide (e.seq < r.seq)

/-- The access that a bank serves next: the first in arrival order, but for those of a span behind an access of it that is held. -/
def State.nextDeck (s : State) (pier bank : Nat) : Option DeckReq :=
  let q := s.deckq.filter fun r => r.pier = pier && r.bank = bank
  q.find? fun r => !q.any fun b => b.uid = r.uid && decide (b.seq ≤ r.seq) && s.deckHeld b

def State.deckServe (s : State) (r : DeckReq) : State :=
  let s0 := { s with deckq := s.deckq.erase r }
  let one := fun (t : State) (p : DeckPart) =>
    match t.block? r.blk with
    | none => t
    | some k =>
      let (k1, v) := k.deckPart p
      let t0 := t.onBlock r.blk fun _ => k1
      let t1 := match t0.spanOf? r.uid with | some sp => t0.deckTold sp r p | none => t0
      match v with
      | some (id, x) => { t1 with spans := t1.spans.map fun sp =>
          if sp.uid = r.uid then sp.onResult id fun q => { q with need := 0, val := x } else sp }
      | none => t1
  (r.parts.foldl one s0).settle r.span

/-- DECK_BANK_ACCESS (R246): the next access in the queue of a bank. -/
def execDeckBankAccess (pier bank : Nat) (s : State) : Out :=
  match s.nextDeck pier bank with
  | some r => .next (if s.fenced.contains (pier / Config.piersPerDie) then s else s.deckServe r)
  | none => .next s

/-! Requests (R112, R116, R129 to R132, R360). -/

/-- A request to a fenced die has no effect: its results read 0, and DIEFAIL is recorded (R360). (log 44, DEDUCED) -/
def State.performDead (s : State) (sp : Span) (e : Entry) : State :=
  let quit := fun (t : Span) (p : Part) =>
    let t1 := match p.acc.res with | some r => t.onResult r fun q => { q with need := 0, val := 0 } | none => t
    if p.acc.op = .stl then (t1.putPd p.acc false).withdraw p.acc else t1
  (s.onSpan sp.id fun t =>
    ({ e.parts.foldl quit t with landing := t.landing.map fun f => if f.slot = e.slot then { f with st := .done } else f } : Span).record .diefail).settle sp.id

/-- REQUEST_PERFORMED (R112). -/
def execRequestPerformed (span slot : Nat) (fromL1 : Bool) (lanes : List Nat) (s : State) : Out :=
  match s.span? span with
  | none => .next s
  | some sp => match sp.landing.find? (·.slot = slot) with
    | none => .next s
    | some e =>
      if !sp.resident || !s.canPerform sp e then .next s
      else if (homeDie (64 * e.pline)).any s.fenced.contains then .next (s.performDead sp e)
      else .next (s.perform sp e fromL1 lanes)

def State.onEntry (s : State) (id slot : Nat) (f : Entry → Entry) : State :=
  s.onSpan id fun sp => { sp with landing := sp.landing.map fun e => if e.slot = slot then f e else e }

/-- Another atomic of any span is on its way to the line (R116). -/
def State.atomicBusy (s : State) (sp : Span) (e : Entry) : Bool :=
  s.spans.any fun t => t.landing.any fun f =>
    !(t.id = sp.id && f.slot = e.slot) && f.st = .inflight && f.pline = e.pline && f.any AccOp.isRmw

/-- The entries of a span before a request on its line that are ashore or chained: while one of them stands, the mark that it left bounces
the request with its reason (R132). -/
def Span.marks (sp : Span) (e : Entry) : List Entry :=
  sp.landing.filter fun f => f.isMem && e.isMem && decide (f.seq < e.seq) && f.sameLine e && (match f.st with | .ashore | .chained _ => true | _ => false)

/-- Can a request be bounced with a reason (R130, R132)? XLATE is raised on no request that has passed its check. (log 43, DESIGN CHOICE) -/
def State.bounceable (s : State) (sp : Span) (e : Entry) (reason : Nat) : Bool :=
  (if e.isMem then s.maySend sp e else e.st = .inflight) && ((sp.marks e).any (fun f => f.reason = reason && decide (reason ≠ 0) && decide (reason ≠ 2)) || match reason with
    | 1 | 7 => true
    | 3 => e.isMem && s.lineMoved e.pline
    | 4 => e.isMem && s.lineMoved e.pline && s.moves.any fun m =>
        (m.newLoc = 3 || m.oldLoc = 3) && decide (placeKey m.oldLoc m.old ≤ 64 * e.pline) && decide (64 * e.pline < placeKey m.oldLoc m.old + 2 ^ m.size)
    | 5 => e.isMem && (s.lineHeld e.pline || s.atomicBusy sp e)
    | 6 => e.isMem && decide (capBase ≤ 64 * e.pline)
    | 8 => true
    | _ => false)

/-- The backoff of the n-th bounce, in nanoseconds (R131). -/
def backoff (n : Nat) : Nat := 64 * 2 ^ min n 7

/-- BOUNCE (R129, R130): the request is ashore, or chained behind the latest entry whose mark bounced it (R132). One that waited for its order
has been sent, and its pier's copy of the line has left the L1 (R161). (log 20, DESIGN CHOICE) -/
def execBounce (span slot : Nat) (reason : BitVec 4) (s : State) : Out :=
  match s.span? span with
  | none => .next s
  | some sp => match sp.landing.find? (·.slot = slot) with
    | none => .next s
    | some e =>
      if !sp.resident || !s.bounceable sp e reason.toNat then .next s
      else .next ((if e.st = .ordered && e.stores then s.writeSent sp.pier e else s).onEntry span slot fun f =>
        { f with st := (match (sp.marks e).getLast? with | some b => EState.chained b.slot | none => .ashore), since := s.steps, reason := reason.toNat, bounces := min 255 (f.bounces + 1), due := (s.time sp.die).toNat + backoff f.bounces,
                 woken := (reason = 3 || reason = 4) && (s.forwarded f.pline).isSome })

def Entry.need (e : Entry) : Need := { rd := e.any (fun o => o.need.rd), wr := e.write }

/-- A request's page is looked up again, as its parts need it. -/
def State.lookAgain (s : State) (sp : Span) (e : Entry) (cx : Context) : State × XOut :=
  s.seek (some sp.pier) cx (64 * e.vline) e.need

/-- Does the walk of an entry that is to be checked again meet a held line (R109)? -/
def State.entryHeld (s : State) (sp : Span) (e : Entry) : Bool :=
  e.isMem && (e.reason = 2 || (e.woken && (e.reason = 3 || e.reason = 4))) && (s.ctx? sp.ctx).any fun cx =>
    s.seekHeld (some sp.pier) cx (64 * e.vline) e.need

/-- A saved request is translated again (R138): it boards, waits for the fault service, or is discarded and stops the span, which stops once. -/
def State.retranslate (s : State) (sp : Span) (e : Entry) (cx : Context) : State :=
  let (s1, o) := s.lookAgain sp e cx
  match o with
  | .pass key kind =>
    let e1 := { e with pline := lineOf key, pkind := kind, reason := 0, woken := false }
    (s1.onEntry sp.id e.slot fun _ => { e1 with st := boardState (sp.landing.filter (·.slot ≠ e.slot)) e1 }).settle sp.id
  | .park w => (s1.onEntry sp.id e.slot fun f => { f with woken := false }).notify sp.ctx w (.entry sp.uid e.slot) [64 * e.vline / 65536 * 65536]
  | .fatal c =>
    let s2 := s1.onSpan sp.id fun t => { t with landing := t.landing.filter (·.slot ≠ e.slot) }
    if sp.status = .running then s2.stopSpan sp.id c else s2.settle sp.id

/-- An entry ashore boards again (R131, R132). A wake of MIGRATE or EXPAND carries the new frame, and the request is checked again: where
the check does not pass, it goes on with the frame that the wake carried (R131, R148; log 43, DESIGN CHOICE). Saved entries are
translated in program order. A walk that meets a held line is waited for (R109). -/
def State.reboard (s : State) (sp : Span) (e : Entry) : State :=
  if s.entryHeld sp e then s
  else if e.reason = 2 then match s.ctx? sp.ctx with
    | some cx => if e.isMem && !sp.landing.any (fun f => f.reason = 2 && decide (f.seq < e.seq)) then s.retranslate sp e cx else s
    | none => s
  else if !e.isMem then s.onEntry sp.id e.slot fun f => { f with st := .inflight, woken := false }
  else
    let (s1, line, kind) := if !(e.woken && (e.reason = 3 || e.reason = 4)) then (s, e.pline, e.pkind) else
      let carried := (s.forwarded e.pline).getD e.pline
      match s.ctx? sp.ctx with
      | none => (s, carried, e.pkind)
      | some cx => match s.lookAgain sp e cx with
        | (t, .pass key k) => (t, lineOf key, k)
        | (t, _) => (t, carried, e.pkind)
    let e1 := { e with pline := line, pkind := kind, woken := false }
    (s1.onEntry sp.id e.slot fun _ => { e1 with st := boardState (sp.landing.filter (·.slot ≠ e.slot)) e1 }).settle sp.id

/-- BACKOFF_EXPIRY (R131). -/
def execBackoffExpiry (span slot : Nat) (s : State) : Out :=
  match s.span? span with
  | none => .next s
  | some sp => match sp.landing.find? (·.slot = slot) with
    | some e => .next (if sp.resident && e.st = .ashore && decide (e.due ≤ (s.time sp.die).toNat) then s.reboard sp e else s)
    | none => .next s

/-- WAKE_EVENT (R130): OVERBOUND has none; MIGRATE, EXPAND, LINEBUSY and PORTFULL are woken by the move, the line and the port; a walk, a
slot or a queue entry wakes the others. -/
def execWakeEvent (span slot : Nat) (s : State) : Out :=
  match s.span? span with
  | none => .next s
  | some sp => match sp.landing.find? (·.slot = slot) with
    | some e => .next (if sp.resident && e.st = .ashore && (e.woken || e.reason = 2 || e.reason = 7 || e.reason = 8) then s.reboard sp e else s)
    | none => .next s

/-! Forks (R134, R252, R326). -/

/-- A ferry operation or a reduction leaves its drain. -/
def State.forkFerry (s : State) (sp : Span) (o : FerryOp) : State :=
  if o.st ≠ .drain || !s.forkDrained sp o.seq then s
  else if o.kind ≠ .nsend then s.ferryFork sp o
  else if (s.tree? sp.part o.tree).isSome then s.onSpan sp.id (·.putFerry { o with st := .running, view := s.forking sp o.seq })
  else ((s.onSpan sp.id (·.freeFerry o.id)).onSpan sp.id (·.record .nettimeout)).settle sp.id

/-- A plane operation leaves its drain, in the order of its span. -/
def State.forkPlane (s : State) (sp : Span) (op : Nat) : State :=
  match s.planeq.find? fun o => o.uid = sp.uid && o.st = .drain with
  | some o => if o.id = op && s.forkDrained sp o.seq then s.planeFork sp o else s
  | none => s

/-- A record is sent, with what happens before the first issue of its lane (R155, R326), or an LNCH reads its record. -/
def State.forkEntry (s : State) (sp : Span) (e : Entry) : State :=
  if e.st ≠ .ordered || !s.drained sp e.seq then s else
    match e.op with
    | .record r => s.onEntry sp.id e.slot fun f => { f with st := .inflight, op := .record { r with view := s.forking sp e.seq } }
    | .launch qd addr => s.lnchFork sp e qd addr
    | _ => s

/-- ENGINE_FORK (R134). -/
def execEngineFork (span : Nat) (what : ForkRef) (s : State) : Out :=
  match s.span? span with
  | none => .next s
  | some sp => if !sp.resident then .next s else .next <| match what with
    | .ferry op => match sp.ferry? op with | some o => s.forkFerry sp o | none => s
    | .plane op => s.forkPlane sp op
    | .entry slot => match sp.landing.find? (·.slot = slot) with | some e => s.forkEntry sp e | none => s

/-! Watches and sleeps (R197, R198, R337). -/

def watchOf (sp : Span) (l : Nat) : Option Watch := match (sp.lane l).wait with | some (.watch w) => some w | _ => none

/-- The lanes that wait on the line of a lane's watch and are due to read again with it: they share its slot and its read (R198). (log 25,
DEDUCED) -/
def sharers (sp : Span) (w : Watch) (due : Watch → Bool) : List Nat :=
  laneNums.filter fun k => match watchOf sp k with
    | some v => decide (v.acc.ea / 64 = w.acc.ea / 64) && due v
    | none => false

/-- The lanes of a watch read their words again and arm again, as one action; the pages are checked again. (log 25, DEDUCED) -/
def State.reread (s : State) (sp : Span) (ls : List Nat) : State :=
  match s.ctx? sp.ctx with
  | none => s
  | some cx =>
    if sp.landFree = 0 || !sp.unsent.isEmpty || (ls.filterMap (watchOf sp)).any (fun w => s.checkHeld sp.pier cx w.acc) then s else
      let one := fun (acc : State × List (Access × List Piece)) (l : Nat) =>
        match watchOf sp l with
        | none => acc
        | some w =>
          let a := { w.acc with seq := sp.seq, lane := some l }
          match acc.1.checkWalk sp.pier cx a with
          | (t, .pass ps) => (t.onSpan sp.id (·.onLane l fun ln =>
              { ln with wait := some (.watch { w with acc := a, reading := true, wake := false, line := none }) }), acc.2 ++ [(a, ps)])
          | (t, v) => (t.settleVerdict sp.id [l] a none v, acc.2)
      let (s1, passed) := ls.foldl one (s.onSpan sp.id fun t => { t with seq := t.seq + 1 }, [])
      (s1.onSpan sp.id (·.send passed)).settle sp.id

/-- WATCH_WAKE (R197). (log 25, DEDUCED) -/
def execWatchWake (span lane : Nat) (s : State) : Out :=
  let due (w : Watch) : Bool := w.wake && w.slot && !w.reading
  match s.span? span with
  | none => .next s
  | some sp => match watchOf sp lane with
    | some w => .next (if sp.status = .running && due w then s.reread sp (sharers sp w due) else s)
    | none => .next s

/-- WATCH_POLL (R198): not after the deadline. -/
def execWatchPoll (span lane : Nat) (s : State) : Out :=
  match s.span? span with
  | none => .next s
  | some sp =>
    let now := (s.time sp.die).toNat
    let due (w : Watch) : Bool := !w.slot && !w.reading && decide (w.poll ≤ now) && (w.must || w.due.all (decide <| now ≤ ·))
    match watchOf sp lane with
    | some w => .next (if sp.status = .running && due w then s.reread sp (sharers sp w due) else s)
    | none => .next s

/-- Lanes that end a wait because their deadlines have passed: they end it together, with 0 in their predicates. (log 25, DEDUCED) -/
def State.endWaits (s : State) (id : Nat) (ls : List Nat) (pred : Lane → Option Nat) : State :=
  (s.onSpan id fun t => t.onLanes ls fun ln => (setPred ln (pred ln) false).go).settle id

/-- WAITA_TIMEOUT (R197): every other lane of the span with no later deadline, no read in flight and no wake pending ends with it. (log
25, DEDUCED) (log 25, DEDUCED) -/
def execWaitaTimeout (span lane : Nat) (s : State) : Out :=
  match s.span? span with
  | none => .next s
  | some sp => match watchOf sp lane with
    | some w => match w.due with
      | some d =>
        let with_ (k : Nat) : Bool := k = lane || (match watchOf sp k with
          | some v => (match v.due with | some e => decide (e ≤ d) | none => false) && !v.wake && !v.reading && !v.must
          | none => false)
        .next (if sp.status = .running && !w.must && decide (d ≤ (s.time sp.die).toNat) then
          s.endWaits span (laneNums.filter with_) (fun ln => match ln.wait with | some (.watch v) => some v.pd | _ => none) else s)
      | none => .next s
    | none => .next s

/-- SLEEP_EXPIRY (R337): the lanes of the span whose times have passed by then become ready together. -/
def execSleepExpiry (span lane : Nat) (s : State) : Out :=
  match s.span? span with
  | none => .next s
  | some sp => match (sp.lane lane).wait with
    | some (.sleep d) =>
      let with_ (k : Nat) : Bool := match (sp.lane k).wait with | some (.sleep e) => decide (e ≤ d) | _ => false
      .next (if sp.status = .running && decide (d ≤ (s.time sp.die).toNat) then
        s.endWaits span (laneNums.filter with_) (fun _ => none) else s)
    | _ => .next s

/-! Engines (R149, R178, R252, R316). -/

/-- FERRY_CHUNK (R149): each chunk once, of an FPLN each line part of a stripe once; a number of 2^80 more names a step that reads some deck
words of the chunk's source and no more (R247; log 28, DESIGN CHOICE). -/
def execFerryChunk (span op chunk : Nat) (s : State) : Out :=
  match s.span? span with
  | none => .next s
  | some sp => match sp.ferry? op with
    | some o => .next (if !(sp.resident && o.st = .running && o.kind ≠ .nsend) then s
        else if chunk < 2 ^ 80 then s.ferryChunk sp o chunk else s.ferryTouch sp o (chunk - 2 ^ 80))
    | none => .next s

/-- Products, which a save stops between stripe steps; every other operation runs to its end (R260). -/
def PlaneKind.product : PlaneKind → Bool
  | .pmma | .pmms | .plma => true
  | _ => false

/-- Is a block to be saved, or is its save under way (R43, R260)? -/
def State.blockSaving (s : State) (b : Nat × Nat) : Bool := s.spans.any fun sp => sp.block = b && (sp.preempt.isSome || !sp.resident)

/-- Is a block to be saved, or saved (R43, R260)? -/
def State.blockHeld (s : State) (b : Nat × Nat) : Bool := s.blockSaving b || s.saved.any (·.block = b)

/-- May the engine run an operation: its die is not fenced; of a block that is to be saved it runs on what it has started, a product to
the end of its stripe step; and it takes up nothing else before the plane state of a block at which it has stopped is written (R260, R360). -/
def State.planeRuns (s : State) (o : PlaneOp) : Bool :=
  !s.fenced.contains (o.pier / Config.piersPerDie) &&
    (if o.st = .running then !s.blockHeld o.blk || !o.kind.product || !o.words.isEmpty
     else !s.blockHeld o.blk && !s.engineAt.any fun e => e.1 = o.pier && s.blockSaving e.2)

/-- Each PMMS of the pier whose drain is done may read some of the words of its check (R247, R250). (log 28, DESIGN CHOICE) -/
def State.checkReads (s : State) (pier : Nat) : State :=
  let first (o : PlaneOp) : Bool := (s.planeq.find? fun p => p.uid = o.uid && p.st = .drain).any (·.id = o.id)
  let due (o : PlaneOp) : Bool := o.pier = pier && o.kind = .pmms && first o && (s.spanOf? o.uid).any fun sp => sp.resident && s.forkDrained sp o.seq
  { s with planeq := s.planeq.map fun o => if due o then (match s.block? o.blk with | some k => o.touchMasks k s.steps | none => o) else o }

/-- PLANE_OP_START (R252): the pier's running operation, or the first queued one, goes on by `steps` stripe steps; by none, it reads or writes
some of its words, and the checks of the pier read some of theirs (R247). -/
def execPlaneOpStart (pier steps : Nat) (s : State) : Out :=
  let next := match s.planeq.find? fun o => o.pier = pier && o.st = .running with
    | some o => if s.planeRuns o then some o else none
    | none => s.planeq.find? fun o => o.pier = pier && o.st = PState.queued && s.planeRuns o
  match next with
  | some o =>
    let o0 := { o with st := PState.running }
    match steps, s.block? o.blk with
    | 0, some k =>
      let (k1, o1) := if o.steps ≤ o.done then (k, o0) else o0.touch k s.steps
      let ws := if o.kind = .pdrn || o.kind = .pacs then o1.words.drop o0.words.length else []
      .next ((((s.onBlock o.blk fun _ => k1).planeWrote o ws).putPlane o1).checkReads pier)
    | _, _ =>
      let (s1, o1) := s.planeSteps o0 (if s.blockHeld o.blk && o.kind.product then min steps 1 else steps)
      .next (s1.putPlane o1)
  | none => .next (if steps = 0 then s.checkReads pier else s)

/-- PLANE_OP_END (R252). Of a block that is to be saved, the engine then stays at it (R260). -/
def execPlaneOpEnd (pier : Nat) (s : State) : Out :=
  match s.planeq.find? fun o => o.pier = pier && o.st = .running with
  | some o => .next (if o.steps ≤ o.done then
      ({ s.dropPlane o with engineAt := (if s.blockSaving o.blk then [(pier, o.blk)] else []) ++ s.engineAt.filter (·.1 ≠ pier) } : State).settle o.span else s)
  | none => .next s

/-- SHADOW_MERGE (R178). (log 31, DEDUCED) -/
def execShadowMerge (n : Nat) (s : State) : Out :=
  match s.shadows[n]? with
  | some h => .next (if s.lineHeld h.line then s else s.mergeShadow h)
  | none => .next s

end Sys2Proof.Machine
end

