-- ==== Sys2Proof/Machine/Fetch.lean ====
section
/-! DEFINITION. The pick of a span by its quadrant (R312, R369) and the fetch of its next word (R67). -/

namespace Sys2Proof.Machine

/-! The next word of a span. -/

/-- The word at an address, where a fetch would pass now. -/
def State.peek (s : State) (sp : Span) (a : Word) : Option Word :=
  match s.ctx? sp.ctx with
  | none => none
  | some cx => match s.leafOf cx a.toNat with
    | none => none
    | some lf => match s.leafOut cx.part a.toNat lf { ex := true } with
      | .pass key _ => some (s.word key)
      | _ => none

/-- Words of class 0x4 that access memory, and hints: what holds them is `memHeld`. -/
def memWord : Instr → Bool
  | .ld _ | .st _ | .lda _ | .stl _ | .atom _ | .red _ | .cas _ | .sred _ | .waita _ | .fence _ | .pfs _ | .cctl _ | .lth _ => true
  | _ => false

/-- Words of class 0x4 that access the deck: what holds them is `deckHeld`. -/
def deckWord : Instr → Bool
  | .ldd _ | .std _ | .atomd _ => true
  | _ => false

/-- Instructions that the want of landing entries holds (R111, R128). -/
def takesEntry (i : Instr) : Bool := memWord i || deckWord i

/-- The landing entries that a word needs before it issues (R111, R128, R303). -/
def wordEntries (i : Instr) (x : Iss) : Nat :=
  let mem (u : Bool) (m : MEM) (ea : Nat → Nat) : Nat :=
    entriesFor ((jobs u x fun l => { op := .load, lane := none, ea := ea l, size := sizeBytes m.size }).map (·.2))
  match i with
  | .ld m | .st m | .lda m => mem m.ctl.u m fun l => (x.sp.ea m true true l).toNat
  | .stl m => mem m.ctl.u m fun l => (x.sp.ea m false true l).toNat
  | .atom m | .red m | .cas m | .sred m => mem m.ctl.u m fun l => (x.sp.ea m false false l).toNat
  | .waita m => mem false m fun l => (x.sp.ea m false false l).toNat
  | .atomd m => min Config.landing (deckRows (fun j l => j.sp.deckAddr m false false l) x).length
  | .fence m => if m.order.releases then 1 else 0
  | .spawn _ | .post _ | .lnch _ => 1
  | _ => 0

/-- Other instructions that an acquire before them holds (R115, R154). -/
def heldByAcquire : Instr → Bool
  | .spawn _ | .post _ | .lnch _ | .mbinit _ | .mbarv _ | .mbexp _ | .mbwait _ | .fcpy _ | .fcpyt _ | .fpln _ | .nsend _ | .time _
  | .pmma _ | .pmms _ | .plma _ | .pacz _ | .pdrn _ | .pdrb _ | .pacs _ | .pacl _ => true
  | _ => false

def takesFerry : Instr → Bool
  | .fcpy _ | .fcpyt _ | .fpln _ | .nsend _ => true
  | _ => false

def takesPlane : Instr → Bool
  | .pmma _ | .pmms _ | .plma _ | .pacz _ | .pdrn _ | .pdrb _ | .pacs _ | .pacl _ => true
  | _ => false

/-- What the next word of a span waits for (R312), by the number of its stall counter (R369); 1 is the want of an eligible lane, and 8 a
hold that no counter counts. None: the span is ready. -/
def State.wordHold (s : State) (sp0 : Span) : Option Nat :=
  match sp0.select with
  | none => some 1
  | some (sp, I, a) =>
    if sp.wHold then some 3
    else if sp.pHold then some 4
    else if sp.held then some 8
    else match (s.peek sp a).map decode with
      | some (.ok i) =>
        if sp.interlocked (shape i).uses I then some 5
        else if decide (sp.landFree < wordEntries i ⟨sp, I, guardLanes sp (shape i).ctl I, a⟩) || (takesEntry i && sp.crowded) then some 6
        else if takesFerry i && decide (Config.spanSlots ≤ sp.ferry.length) then some 7
        else if takesPlane i && decide (Config.spanSlots ≤ (s.planeq.filter (·.uid = sp.uid)).length) then some 7
        else if (memWord i && sp.memHeld) || ((deckWord i || heldByAcquire i) && sp.acqHeld) then some 8
        else none
      | _ => none

/-- The entries for which the next word of a span waits: no other memory instruction of it issues meanwhile (R111, R128). -/
def State.wants (s : State) (sp0 : Span) : Nat :=
  match sp0.select with
  | none => 0
  | some (sp, I, a) => match (s.peek sp a).map decode with
    | some (.ok i) => let n := wordEntries i ⟨sp, I, guardLanes sp (shape i).ctl I, a⟩; if takesEntry i && decide (sp.landFree < n) then n else 0
    | _ => 0

/-- Does a hold that is armed begin with the first issue of the launch (R371)? (log 46, DEDUCED) -/
def State.startsHold (s : State) (launch : Nat) : Bool := s.holds.any fun h => h.armed.any (·.launch = some launch)

/-- What holds a span's next issue; the first issue of a launch waits for the start of a line hold that is armed for it (R371). (log 46,
DEDUCED) -/
def State.holdOf (s : State) (sp : Span) : Option Nat :=
  match s.wordHold sp with
  | some k => some k
  | none => if s.startsHold sp.launch then some 8 else none

/-! The pick (R312). -/

/-- The span that started or was resumed first; of two of one step, the one with the lower unique number (log 57, DESIGN CHOICE). -/
def older (a b : Span) : Bool := decide (a.age < b.age) || (a.age = b.age && decide (a.uid < b.uid))

def oldest : List Span → Option Span
  | [] => none
  | a :: r => some (r.foldl (fun b c => if older c b then c else b) a)

/-- Of the spans that have waited 48 cycles or more, the one that has waited longest; else the oldest. -/
def choose (ready : List Span) : Option Span :=
  let late := ready.filter fun sp => decide (48 ≤ sp.waited)
  let most := maxNat (late.map (·.waited))
  if late.isEmpty then oldest ready else oldest (late.filter (·.waited = most))

/-- What the quadrant's counters count in this cycle (R369). -/
def State.countPick (s : State) (quad : Nat) (here : List Span) (picked : Bool) : State :=
  let n : Option Nat :=
    if picked then some 0
    else if here.isEmpty then some 2
    else if here.all (·.noEligible) then some 1
    else (oldest here).bind fun sp => (s.holdOf sp).bind fun h => if 3 ≤ h && h ≤ 7 then some h else none
  match n with
  | some k => s.addCtr (ctrKey 0 quad k) 1
  | none => s

def State.pick (s : State) (quad : Nat) : State :=
  let here := s.spans.filter fun sp => sp.id / 16 = quad && sp.resident
  let ready := here.filter fun sp => (s.holdOf sp).isNone
  let p := (choose ready).map (·.uid)
  let s1 := s.countPick quad here p.isSome
  { s1 with
    picked := match choose ready with | some sp => some sp.id | none => s1.picked
    spans := s1.spans.map fun sp =>
      if sp.id / 16 = quad && sp.resident then
        { sp with waited := if ready.any (·.uid = sp.uid) && p ≠ some sp.uid then sp.waited + 1 else 0, want := max sp.want (s.wants sp) }
      else sp }

/-- QUADRANT_PICK (R312); a stream of the pier may go on meanwhile (R193), and a TLB entry may give way (R148). -/
def execQuadrantPick (quad : Nat) (s : State) : Out := .next (if s.picked.isSome then s else (s.pick quad).prefetch (quad / 4)).forget

/-! The fetch (R67). -/

/-- The outcome of a fetch in the issuing set: every lane parks or faults. (log 40, DEDUCED) -/
def State.fetchFails (s : State) (id : Nat) (I : List Nat) (a : Word) (o : XOut) : State :=
  let s1 := match o with
    | .fatal c => I.foldl (fun (t : State) l => t.faultLane id l c 3 3 0 a a) s
    | .park w => I.foldl (fun (t : State) l => t.parkLane id l w [a.toNat / 65536 * 65536]) s
    | .pass _ _ => s
  { s1 with picked := none }.settle id

/-- A line enters the instruction cache of a pier (R3). (log 56, DESIGN CHOICE) -/
def State.fillIc (s : State) (pier line : Nat) : State :=
  { s with icache := keepFirst (·.1 = pier) Config.icLines ((pier, line) :: s.icache.filter (· ≠ (pier, line))) }

/-- The word at the picked span's next address is fetched, or its lanes park or fault; a held line is asked for again. What the instruction
cache holds is what memory holds: no fetch returns an older word (log 56, DESIGN CHOICE). (log 23, DESIGN CHOICE) -/
def State.fetch (s : State) : State :=
  match s.picked with
  | none => { s with ir := none }
  | some id =>
    match s.span? id with
    | none => { s with picked := none, ir := none }
    | some sp0 =>
      if sp0.held then { s with picked := none, ir := none } else
      match sp0.select, s.ctx? sp0.ctx with
      | some (sp, I, a), some cx =>
        let hit := s.tlbLook sp.pier cx a.toNat { ex := true }
        if hit.isNone && s.walkHeld cx a.toNat then { s with picked := none, ir := none } else
        (match (match hit with | some o => (s, o) | none => s.walk (some sp.pier) cx a.toNat { ex := true }) with
          | (s1, .pass key _) =>
            if s1.lineHeld (lineOf key) then { s1 with picked := none, ir := none }
            else { (s1.fillIc sp.pier (lineOf key)).touch (lineOf key) with ir := some (s1.word key) }
          | (s1, o) => { s1.putSpan sp with ir := none }.fetchFails id I a o)
      | _, _ => { s with picked := none, ir := none }

/-- INSTRUCTION_FETCH (R67). (log 23, DESIGN CHOICE) -/
def execInstructionFetch (s : State) : Out := .next s.fetch

/-- Time passes before a step: every die's counter by the same free amount (R2, R180, log 3). (log 20, DESIGN CHOICE) -/
def State.tick (s : State) : State :=
  { s.countStalls with steps := s.steps + 1, tsc := s.tsc.map (· + BitVec.ofNat 64 (Config.elapsed s.steps)) }

end Sys2Proof.Machine
end

