-- ==== Sys2Proof/Machine/Task.lean ====
section
/-! DEFINITION. Class 0xA: futures, task records, launches (R319 to R329). A message to a future entry travels in the list of
messages until FUTURE_MESSAGE applies it (R293). -/

namespace Sys2Proof.Machine

/-- The owner of what a uniform issue creates or drops: that of its lowest lane (R286). -/
def Iss.owner (i : Iss) : Owner := i.sp.owner (i.I.headD 0)

def State.sendMsg (s : State) (i : Iss) (o : Owner) (h : Word) (k : MsgKind) : State :=
  { s with fmsgs := s.fmsgs ++ [⟨i.sp.id, i.sp.uid, o, h, k⟩] }

/-- The place value (R107). -/
def Span.place (sp : Span) : Nat := sp.slot + 2 ^ 8 * (sp.pier % Config.piersPerDie) + 2 ^ 16 * sp.die + 2 ^ 24 * sp.part

/-- A record or a launch waits in a landing entry for the fork drain (R303, R320, R328, R329). -/
def Span.board (sp : Span) (op : EOp) : Span :=
  let slot := ((List.range Config.landing).find? fun k => !sp.landing.any (·.slot = k)).getD 0
  let e : Entry := { slot := slot, seq := sp.seq, st := .ordered, op := op }
  { sp with seq := sp.seq + 1, landing := sp.landing ++ [e] }

/-- A landing entry is free for the record. -/
def boardReady (_ : State) (i : Iss) : Bool := !i.sp.acqHeld && decide (0 < i.sp.landFree)

/-- SPAWN (R291, R295, R298, R320). -/
def execSpawn (x : RRR) (s : State) : Out :=
  issue (.spawn x) { ready := boardReady, recl := fun _ _ => true }
    (fun t i =>
      let sp := i.moved
      if i.G.isEmpty then t.putSpan sp else
        match t.freeSlot sp.part sp.die with
        | none => t.putSpan (sp.setS x.d.toNat 0)
        | some f =>
          let h := f.handle
          let word := fun k => i.sp.s (x.a.toNat + k)
          let r : TaskRec := { words := [word 0, word 1, word 2, word 3, word 4, h, BitVec.ofNat 64 sp.place, 0], fut := h,
                               launch := sp.launch, uid := t.uid }
          let t1 := (t.putSpan ((sp.board (.record r)).setS x.d.toNat h)).putFuture
            { f with ctx := sp.ctx, st := .queued, count := 1, wait := 0, result := 0 }
          let t2 := t1.onLaunch sp.launch fun l => { l with records := l.records + 1 }
          { t2 with uid := t2.uid + 1, refs := t2.refs ++ [⟨i.owner, h⟩] }) s

/-- FREF (R321): the answer in qd is interlocked. -/
def execFref (x : RRR) (s : State) : Out :=
  issue (.fref x) {}
    (fun t i =>
      let sp := i.moved
      if i.G.isEmpty then t.putSpan sp else
        (t.putSpan { sp with seq := sp.seq + 1, ilock := sp.ilock ++ [(sp.seq, .q x.d.toNat)] }).sendMsg i i.owner
          (i.sp.s x.a.toNat) (.fref x.d.toNat)) s

/-- Is a reference that this issue would drop still being created? -/
def creating (h : Word) (t : State) (i : Iss) : Bool :=
  t.fmsgs.any fun m => m.owner = i.owner && m.handle = h && (match m.kind with | .fref _ => true | _ => false)

/-- FDROP (R294, R322): the reference leaves its owner at issue, the future at the message. -/
def execFdrop (x : RRR) (s : State) : Out :=
  issue (.fdrop x) { ready := fun t i => !creating (i.sp.s x.d.toNat) t i }
    (fun t i =>
      let t1 := t.putSpan i.moved
      if i.G.isEmpty then t1 else
        let h := i.sp.s x.d.toNat
        let owned := t1.owns i.owner h
        ({ t1 with refs := if owned then t1.refs.erase ⟨i.owner, h⟩ else t1.refs }).sendMsg i i.owner h (.drop owned)) s

/-- FJOIN (R323): its lanes wait, in one watch slot; a stale handle lets them pass. -/
def execFjoin (x : RRR) (s : State) : Out :=
  issue (.fjoin x) { recl := fun i l => i.G.contains l }
    (fun t i =>
      let h := i.sp.s x.a.toNat
      if i.G.isEmpty then t.putSpan i.moved
      else if t.stale i.sp.part h then t.putSpan (i.moved.record .future)
      else
        let j : Join := { handle := h, reg := x.d.toNat, n := x.ty.regs, drop := x.bit 0, slot := false,
                          poll := (t.time i.sp.die).toNat + 1000, asked := false }
        let sp := i.moved.onLanes i.G fun ln => { ln with pc := i.a, st := .waiting, wait := some (.join j) }
        ((t.putSpan sp).sendMsg i i.owner h (.join i.G)).settle i.id) s

/-- FPOLL (R324): D and pd are pending in every lane until the answer. -/
def execFpoll (x : RRR) (s : State) : Out :=
  issue (.fpoll x) { recl := fun i l => i.G.contains l }
    (fun t i =>
      let h := i.sp.s x.a.toNat
      let ids := imap (fun k l => (l, i.sp.seq + k)) 0 i.G
      let results := ids.map fun e => ({ id := e.2, lane := some e.1, vreg := some (x.d.toNat, x.ty.regs),
                                         pred := some x.b.toNat, need := 1 } : Result)
      let sp := { i.moved with seq := i.sp.seq + ids.length, results := i.sp.results ++ results }
      ids.foldl (fun u e => u.sendMsg i i.owner h (.poll e.1 e.2)) (t.putSpan sp)) s

/-- One lane of FRET (R325): it ends at once; its message follows when the span's earlier requests are performed. Its task's
reference to its own future is dropped with that message. (log 34, DEDUCED) -/
def State.fret (s : State) (i : Iss) (l : Nat) (v : BitVec 128) : State :=
  match (i.sp.lane l).task with
  | some t =>
    if t.fut = 0 then s.exitLane i.id l else
      let mine := s.refs.filter fun r => r.owner = .task t.uid && r.handle ≠ t.fut
      let s1 := mine.foldl (fun u r => u.dropRef r.owner r.handle) s
      (s1.onSpan i.id fun sp => sp.onLane l fun ln => { ln with st := .exited, task := none }).sendMsg i (.task t.uid) t.fut
        (.fret v i.sp.seq l i.sp.launch)
  | none => s.exitLane i.id l

/-- FRET (R325). -/
def execFret (x : RRR) (s : State) : Out :=
  issue (.fret x) {}
    (fun t i =>
      let sp := i.moved.onLanes i.G fun ln => { ln with pc := i.a }
      let value := fun l => i.sp.vn x.ty.regs x.d.toNat l
      (i.G.foldl (fun u l => u.fret i l (value l)) (t.putSpan { sp with seq := sp.seq + 1 })).settle i.id) s

/-- RPT (R327). -/
def execRpt (x : RRR) (s : State) : Out :=
  issue (.rpt x) { recl := fun _ _ => true, always := true }
    (fun t i =>
      let sp := i.moved
      (t.putSpan (if x.bit 0 && sp.guard x.ctl 0 then sp.setQ x.d.toNat (!i.I.isEmpty) else sp)).settle i.id) s

/-- POST (R298, R328): a node record without a future. -/
def execPost (x : RRR) (s : State) : Out :=
  issue (.post x) { ready := boardReady }
    (fun t i =>
      let sp := i.moved
      if i.G.isEmpty then t.putSpan sp else
        let words := (List.range (x.lo3 + 1)).map fun k => i.sp.s (x.d.toNat + k)
        let r : TaskRec := { words := words, fut := 0, launch := sp.launch, uid := t.uid }
        let t1 := (t.putSpan (sp.board (.record r))).onLaunch sp.launch fun l => { l with records := l.records + 1 }
        { t1 with uid := t1.uid + 1 }) s

/-- LNCH (R329): the launch record is read after the fork drain; qd is interlocked. -/
def execLnch (x : RRR) (s : State) : Out :=
  issue (.lnch x) { ready := boardReady }
    (fun t i =>
      let sp := i.moved
      if i.G.isEmpty then t.putSpan sp else
        t.putSpan { sp.board (.launch x.d.toNat (i.sp.s x.a.toNat).toNat) with ilock := sp.ilock ++ [(sp.seq, .q x.d.toNat)] }) s

end Sys2Proof.Machine
end

