-- ==== Sys2Proof/Machine/Sched.lean ====
section
/-! DEFINITION. The steps of the futures and the schedulers: routing of records, task queues, spill rings and berths (R300 to
R306), messages at future entries (R293), doom (R287), deliveries of FJOIN (R323). -/

namespace Sys2Proof.Machine

/-! Where a record goes (R302). -/

/-- The next die from `d` on which the partition owns a pier. -/
def dieWithPier (piers : List Nat) (d : Nat) : Nat → Nat
  | 0 => d
  | n + 1 => if piers.any (· / Config.piersPerDie = d) then d else dieWithPier piers ((d + 1) % 4) n

/-- The hash of a home word. -/
def homeHash (home : Word) : Nat :=
  let w := home.extractLsb' 2 55
  ((w.extractLsb' 0 16) ^^^ (w.extractLsb' 16 16) ^^^ (w.extractLsb' 32 16) ^^^ ((w.extractLsb' 48 7).setWidth 16)).toNat

/-- (log 26, DEDUCED) -/
def State.route (s : State) (sp : Span) (home : Word) : Option Nat :=
  match s.parts[sp.part]?, s.ctx? sp.ctx with
  | some p, some cx =>
    let die := match s.tlbLook sp.pier cx home.toNat {} with
      | some (.pass key _) => (homeDie key).getD (home.toNat / 64 % 4)
      | _ => home.toNat / 64 % 4
    let piers := (List.range Config.piers).filter p.row.piers.contains
    let mine := piers.filter (· / Config.piersPerDie = dieWithPier piers die 4)
    mine[homeHash home % mine.length]?
  | _, _ => none

/-! Queues and rings (R304). -/

def State.queued (s : State) (pier part : Nat) (spill : Bool) : List QRec :=
  s.taskq.filter fun q => q.pier = pier && q.part = part && q.spill = spill

/-- The records that a ring holds: its size changes only while it is empty (R332). -/
def State.ringCap (s : State) (pier part : Nat) : Nat :=
  let k := match s.parts[part]? with | some p => p.ringk.toNat | none => 10
  2 ^ (if (s.queued pier part true).isEmpty then k else match s.rings.find? (·.1 = pier) with | some r => r.2 | none => k)

def State.spill (s : State) (q : QRec) : State :=
  let k := match s.parts[q.part]? with | some p => p.ringk.toNat | none => 10
  { s with
    rings := if (s.queued q.pier q.part true).isEmpty then (q.pier, k) :: s.rings.filter (·.1 ≠ q.pier) else s.rings
    taskq := s.taskq ++ [{ q with spill := true }] }

/-- The residence bound of the scheduler and task queues, in cycles (R129, R332). -/
def State.taskBound (s : State) (part : Nat) : Nat := match s.parts[part]? with | some p => (p.bounds.getD 7 0).toNat | none => 0

/-- A record at the tail of its queue, with the bound that holds as it enters (R332). -/
def State.atTail (s : State) (q : QRec) : State := { s with taskq := s.taskq ++ [{ q with spill := false, bound := s.taskBound q.part }] }

/-- A record enters a pier: its queue, its ring, or neither. -/
def State.enqueue (s : State) (pier part : Nat) (r : TaskRec) : Option State :=
  let q : QRec := { pier := pier, part := part, spill := false, body := r }
  let ring := s.queued pier part true
  if ring.isEmpty && (s.queued pier part false).length < 32 then some (s.atTail q)
  else if ring.length < s.ringCap pier part then some (s.spill q)
  else none

def State.nodeOf (s : State) (r : TaskRec) : Option Node :=
  (s.launch? r.launch).bind fun l => l.nodes.find? (·.entry = r.words.getD 0 0)

/-- A record that will not run: its future fails or is freed, and its launch counts it no longer (R287, R300). -/
def State.discard (s : State) (r : TaskRec) (failed : Bool) : State :=
  let f := s.future r.fut
  let s1 := if r.fut = 0 || f.serial ≠ handleSerial r.fut || f.st = .free then s
    else s.setFuture r.fut (if failed && f.st ≠ .doomed then ({ f with st := .failed }).unreached else f.freed)
  s1.recordGone r.launch

/-- The record's future is doomed (R287). -/
def State.isDoomed (s : State) (r : TaskRec) : Bool :=
  r.fut ≠ 0 && (s.future r.fut).serial = handleSerial r.fut && (s.future r.fut).st = .doomed

/-- RECORD_ARRIVAL (R300, R303, R304, R360): accepted, discarded for want of a node, without effect on a fenced die, or left to be
bounced. The node is tested before the room (log 59, DESIGN CHOICE). -/
def execRecordArrival (span slot : Nat) (s : State) : Out :=
  match s.span? span with
  | none => .next s
  | some sp => match sp.landing.find? (·.slot = slot) with
    | none => .next s
    | some e => match e.op, s.route sp (match e.op with | .record r => r.words.getD 1 0 | _ => 0) with
      | .record r, some pier =>
        if e.st ≠ .inflight then .next s
        else
          let leave (t : State) : State := t.onSpan span fun u => { u with landing := u.landing.filter (·.slot ≠ slot) }
          if s.fenced.contains (pier / Config.piersPerDie) then .next (((leave s).onSpan span (·.record .diefail)).settle span)
          else if (s.nodeOf r).isNone then .next (((leave (s.discard r true)).onSpan span (·.record .future)).settle span)
          else match s.enqueue pier sp.part r with
            | some t => .next ((leave t).settle span)
            | none => .next s
      | _, _ => .next s

/-- Does a record stay where it stands: its context is saved, or not yet resumed (R318, R363)? Records of other contexts pass it (log 58,
DESIGN CHOICE). -/
def State.rests (s : State) (r : TaskRec) : Bool :=
  ((s.launch? r.launch).bind fun l => s.ctx? l.ctx).any fun cx => cx.status = .saved || cx.status = .resuming

/-- SPILL_MOVE (R304): a doomed record at the head is removed instead. -/
def execSpillMove (pier part : Nat) (s : State) : Out :=
  match (s.queued pier part true).filter fun q => !s.rests q.body with
  | [] => .next s
  | q :: _ =>
    if s.isDoomed q.body then .next (({ s with taskq := s.taskq.erase q }).discard q.body false)
    else if (s.queued pier part false).length < 32 then .next (({ s with taskq := s.taskq.erase q } : State).atTail q)
    else .next s

/-- The 64 bytes of a record: the words of a POST beyond its length read zero (R298). -/
def TaskRec.bytes (r : TaskRec) : List Byte := ((List.range 8).map fun k => toBytes 8 (r.words.getD k 0).toNat).flatten

/-! Berths (R305). -/

def State.putBerth (s : State) (b : Berth) : State :=
  { s with berths := s.berths.map fun c => if c.pier = b.pier && c.num = b.num then b else c }

/-- An open berth that is full stops accepting and asks for a span; `n` orders those that ask. -/
def askFull (n : Nat) (b : Berth) : Berth :=
  if b.asking.isNone && decide (b.node.count ≤ b.recs.length) then { b with asking := some n } else b

/-- The head record of a pier's queue goes into a berth, or behind the others after its bound. -/
def State.berthHead (s : State) (q : QRec) : State :=
  let now := (s.time (q.pier / Config.piersPerDie)).toNat
  let out (t : State) : State := { t with taskq := t.taskq.erase q }
  if s.isDoomed q.body then (out s).discard q.body false
  else match s.nodeOf q.body with
    | none => (out s).discard q.body true
    | some n =>
      let mine := s.berths.filter (·.pier = q.pier)
      match mine.find? fun b => b.launch = q.body.launch && b.node.entry = n.entry && b.asking.isNone && decide (b.recs.length < b.node.count) with
      | some b => (out s).putBerth { b with recs := b.recs ++ [q.body] }
      | none =>
        match (List.range 16).find? fun k => !mine.any (·.num = k) with
        | some k =>
          let t := out s
          { t with berths := t.berths ++ [{ pier := q.pier, num := k, part := q.part, launch := q.body.launch, node := n, recs := [q.body],
                                            due := now + 250 * n.timer }] }
        | none =>
          if q.body.since = 0 then { s with taskq := s.taskq.map fun r => if r = q then { r with body := { r.body with since := now + 1 } } else r }
          else if 5 * q.bound ≤ 18 * (now + 1 - q.body.since) then
            let q1 := { q with body := { q.body with since := 0 } }
            let t := out s
            if (t.queued q.pier q.part true).isEmpty then t.atTail q1 else t.spill q1
          else s

/-- BERTH_STEP (R305): for the first record of the queue that moves on. -/
def execBerthStep (pier : Nat) (s : State) : Out :=
  if s.fenced.contains (pier / Config.piersPerDie) then .next s else
  let s1 := match s.taskq.find? fun q => q.pier = pier && !q.spill && !s.rests q.body with
    | some q => s.berthHead q
    | none => s
  .next { s1 with berths := s1.berths.map fun b => if b.pier = pier then askFull s1.steps b else b }

/-- BERTH_TIMER_EXPIRY (R305). -/
def execBerthTimerExpiry (pier berth : Nat) (s : State) : Out :=
  match s.berths.find? fun b => b.pier = pier && b.num = berth with
  | some b => .next (if b.asking.isNone && decide (b.due ≤ (s.time (pier / Config.piersPerDie)).toNat) then s.putBerth { b with asking := some s.steps } else s)
  | none => .next s

/-- Lane `l` of a berth span (R306). -/
def berthLane (entry : Word) (r : Option TaskRec) : Lane :=
  match r with
  | some t => { st := .ready, pc := entry, task := some ⟨t.uid, t.fut, false⟩ }
  | none => { st := .exited, pc := entry }

/-- The record's future enters state 2 (R293). -/
def State.startFuture (s : State) (h : Word) : State :=
  let f := s.future h
  if h = 0 || f.serial ≠ handleSerial h || f.st ≠ .queued then s else s.putFuture { f with st := .running }

/-- The span of a berth (R306): a block of one span; its window zeroed (R349) and its records in it, performed before its first issue. A window
page that is away is waited for; a window that cannot be written stops the span with the cause. ORIGIN is word 6 of the berth's first
record (log 54, DESIGN CHOICE). What SPAWN and POST hand on happens before its first issue (R155). (log 40, DEDUCED) -/
def State.startBerth (s : State) (b : Berth) (l : Launch) (cx : Context) (base : Word) (slot : Nat) : State :=
  let id := 64 * b.pier + slot
  let at_ := base + BitVec.ofNat 64 (131072 * b.pier + 2048 * slot)
  let recs := (b.recs.map TaskRec.bytes).flatten
  let bytes := recs ++ List.replicate (2048 - recs.length) 0
  let (s1, o, pages) := s.deviceWrite (some b.pier) cx at_ bytes
  match o with
  | some (.park w) => s1.notify cx.id w (.launch l.id) pages
  | _ =>
    let blk := 2 ^ 32 + s1.uid
    let sp0 := s1.newSpan l id blk 0 0 b.node.budget b.node.entry
    let sp1 : Span := { sp0 with berth := true, sregs := startRegs l.args 0 0 0, origin := (b.recs.head?.map fun r => r.words.getD 6 0).getD 0
                                 lanes := laneNums.map fun k => berthLane b.node.entry b.recs[k]? }
    let sp2 := (imap (fun k r => (k, r)) 0 b.recs).foldl (fun (t : Span) e =>
      (t.setV64 2 e.1 e.2.fut).setV64 4 e.1 (at_ + BitVec.ofNat 64 (64 * e.1))) sp1
    let sp3 := b.recs.foldl (fun (t : Span) r => t.learn 0 .all r.view) sp2
    let k : Block := { launch := l.id, idx := blk, pier := b.pier, live := [s1.uid], berth := true }
    let s2 := { s1 with uid := s1.uid + 1, spans := s1.spans ++ [sp3], blocks := s1.blocks ++ [k], berths := s1.berths.erase b }
    let s3 := (b.recs.foldl (fun t r => t.startFuture r.fut) s2).crossed sp3.die
    match o with
    | some (.fatal c) => s3.stopSpan id c
    | _ => s3

/-- BERTH_SPAN_START (R305, R306, R311, R318): berths that ask are served in order. -/
def execBerthSpanStart (pier berth : Nat) (s : State) : Out :=
  match s.berths.find? fun b => b.pier = pier && b.num = berth with
  | none => .next s
  | some b => match b.asking, s.launch? b.launch, s.parts[b.part]? with
    | some n, some l, some p => match s.ctx? l.ctx, nextSlot (s.room pier).used (s.closedOn pier) b.node.budget with
      | some cx, some slot =>
        let runs (c : Berth) : Bool := match (s.launch? c.launch).bind (fun k => s.ctx? k.ctx) with | some cy => cy.status = .running | none => false
        if cx.status ≠ .running || s.ckStops b.part || !s.openTo pier || s.fenced.contains (pier / Config.piersPerDie) || s.berths.any (fun c => c.pier = pier && c.num ≠ berth && runs c && (match c.asking with
            | some m => decide (m < n) || (m = n && decide (c.num < berth)) | none => false)) then .next s
        else .next (s.startBerth b l cx p.taskbase slot)
      | _, _ => .next s
    | _, _, _ => .next s

/-! Messages (R293). -/

/-- The span that sent a message, while it holds its slot. -/
def State.sender (s : State) (m : FMsg) : Option Span := s.spanOf? m.uid

/-- (log 34, DEDUCED) -/
def Owner.alive (o : Owner) (sp : Span) : Bool :=
  match o with
  | .span u => u = sp.uid && sp.status ≠ .stopping && sp.status ≠ .stopped
  | .task t => sp.lanes.any fun ln => match ln.task with | some k => k.uid = t | none => false

/-- FREF (R321, R295). A reference for a task that has ended is dropped again at once. -/
def State.applyFref (s : State) (m : FMsg) (sp : Span) (qd : Nat) : State :=
  let lock := match sp.ilock.find? (·.2 = .q qd) with | some e => e.1 | none => 0
  let answer (t : State) (b : Bool) : State := (t.onSpan sp.id fun u => { u.setQ qd b with ilock := u.ilock.filter (·.1 ≠ lock) }).settle sp.id
  let f := s.future m.handle
  if s.stale sp.part m.handle || f.count = 0 || !s.futureRoom sp.part none then answer s false
  else if !m.owner.alive sp then answer s true
  else answer { s.putFuture { f with count := f.count + 1 } with refs := s.refs ++ [⟨m.owner, m.handle⟩] } true

/-- FDROP (R294). -/
def State.applyDrop (s : State) (m : FMsg) (owned : Bool) : State :=
  match s.sender m with
  | some sp =>
    if owned && !s.stale sp.part m.handle then (s.dropAt m.handle).settleAll
    else (s.onSpan sp.id (·.record .future)).settle sp.id
  | none => if owned then s.dropAt m.handle else s

/-! A lane of a span in handler mode may wait in one FJOIN and have the wait of another kept (R383): each has its own message and its own
count at the entry. -/

/-- The lane's own FJOIN on a handle, and the one that is kept for it with no event held yet. -/
def Lane.joinNow (ln : Lane) (h : Word) : Option Join :=
  match ln.wait with
  | some (.join j) => if j.handle = h then some j else none
  | _ => none

def Lane.joinKept (ln : Lane) (h : Word) : Option Join :=
  match ln.kept with
  | some (.join j) => if j.handle = h && ln.held.isNone then some j else none
  | _ => none

/-- Is the message of a lane's FJOIN that arrives next that of the kept one: it was issued first? -/
def Lane.askKept (ln : Lane) (h : Word) : Bool := (ln.joinKept h).any (!·.asked)
def Lane.askNow (ln : Lane) (h : Word) : Bool := !ln.askKept h && (ln.joinNow h).any (!·.asked)

/-- The message of a lane's FJOIN arrives: counted as a waiter, or its handle is stale by now (`gone`). -/
def Lane.joinArrives (h : Word) (gone : Bool) (ln : Lane) : Lane :=
  if ln.askKept h then match ln.joinKept h with
    | some j => if gone then { ln with held := some (.join none true), kept := some (.join { j with drop := false }) }
      else { ln with kept := some (.join { j with asked := true }) }
    | none => ln
  else if ln.askNow h then match ln.joinNow h with
    | some j => if gone then ln.go else { ln with wait := some (.join { j with asked := true }) }
    | none => ln
  else ln

/-- FJOIN's message (R323): the lanes are counted as waiters; a handle that is stale by now lets them pass, with FUTURE and with D
unchanged. A lane whose wait is kept holds that event (R383). -/
def State.applyJoin (s : State) (m : FMsg) (sp : Span) (ls : List Nat) : State :=
  if s.stale sp.part m.handle then
    let now := ls.any fun l => (sp.lane l).askNow m.handle
    (s.onSpan sp.id fun t =>
      let u := t.onLanes ls (Lane.joinArrives m.handle true)
      if now then u.record .future else u).settle sp.id
  else
    let f := s.future m.handle
    (s.putFuture { f with wait := f.wait + ls.length }).onSpan sp.id (·.onLanes ls (Lane.joinArrives m.handle false))

/-- FPOLL's answer (R324). A value that is not written is the register's own. -/
def State.applyPoll (s : State) (m : FMsg) (sp : Span) (l res : Nat) : State :=
  let f := s.future m.handle
  let own (r : Result) : BitVec 128 := match r.vreg with | some (d, n) => sp.vn n d l | none => 0
  let set (t : State) (g : Result → Result) : State := t.onSpan sp.id (·.onResult res fun r => { g r with need := 0 })
  if s.stale sp.part m.handle then ((set s fun r => { r with skip := true }).onSpan sp.id (·.record .future)).settle sp.id
  else match f.st with
    | .done => (set (s.crossed sp.die) fun r => { r with val := f.result, pval := true }).onSpan sp.id (·.told s.steps f.view)
    | .failed | .doomed => ((set s fun r => { r with val := 0, pval := true }).onSpan sp.id (·.record .future)).settle sp.id
    | _ => set s fun r => { r with val := own r, pval := false }

/-- FRET's message (R325): the result, or nothing for a doomed future; then the task's last references are dropped. `view` is what it hands
on to the FJOIN or FPOLL that delivers the result (R155, R326). -/
def State.applyFret (s : State) (m : FMsg) (val : BitVec 128) (launch : Nat) (view : View) : State :=
  let f := s.future m.handle
  let s1 := if f.serial ≠ handleSerial m.handle then s else
    match f.st with
    | .running => s.putFuture { f with st := .done, result := val, view := view }
    | .doomed => s.putFuture f.freed
    | _ => s
  (s1.dropAll m.owner).recordGone launch

/-- A message is applied; those of one span to one entry keep their order. (log 34, DEDUCED) -/
def State.applyMsg (s : State) (m : FMsg) : State :=
  let s0 := { s with fmsgs := s.fmsgs.erase m }
  match m.kind, s.sender m with
  | .fref qd, some sp => s0.applyFref m sp qd
  | .drop owned, _ => s0.applyDrop m owned
  | .join ls, some sp => s0.applyJoin m sp ls
  | .poll l res, some sp => s0.applyPoll m sp l res
  | .fret val seq lane launch, _ =>
    (match (s.spans ++ s.saved).find? (·.uid = m.uid) with
      | some sp => if s.drained sp seq then s0.applyFret m val launch (s.forking sp seq (some lane)) else s
      | none => s0.applyFret m val launch [])
  | _, none => s0

/-- FUTURE_MESSAGE (R293). (log 33, PRESUMED) -/
def execFutureMessage (n : MsgIdx) (s : State) : Out :=
  match s.fmsgs[n]? with
  | none => .next s
  | some m => .next (if (s.fmsgs.take n).any (fun k => k.uid = m.uid && k.handle = m.handle) then s else s.applyMsg m)

/-- DOOM_ARRIVAL (R287, R296): the doom reaches the lane's pier; a lane that stands waiting or parked is reclaimed. One that begins to wait
or is parked only after that is reclaimed when a further event names it (log 59, DESIGN CHOICE). -/
def execDoomArrival (span lane : Nat) (s : State) : Out :=
  match s.span? span with
  | none => .next s
  | some sp => match (sp.lane lane).task with
    | none => .next s
    | some t =>
      if t.fut ≠ 0 && sp.resident && (s.future t.fut).serial = handleSerial t.fut && (s.future t.fut).st = .doomed then
        .next (((s.onSpan span (·.onLane lane fun ln => { ln with task := some { t with doomed := true } })).reclaimStanding span lane).settle span)
      else .next s

/-! Deliveries of FJOIN (R323). -/

/-- Has the future a result or a failure for its waiters? -/
def FutState.settled : FutState → Bool
  | .done | .failed | .doomed => true
  | _ => false

/-- The lanes of a span that the entry counts as waiters on a handle: by their own waits, and by kept ones. -/
def Span.joinedNow (sp : Span) (h : Word) : List Nat := laneNums.filter fun l => ((sp.lane l).joinNow h).any (·.asked)
def Span.joinedKept (sp : Span) (h : Word) : List Nat := laneNums.filter fun l => ((sp.lane l).joinKept h).any (·.asked)

/-- A delivery to every waiting lane of a span: values, then WAIT falls, then FUTURE for a failure, then the drops. Lanes whose
waits are kept hold what comes for them (R383). -/
def State.deliverJoin (s : State) (sp : Span) (h : Word) : State :=
  let f := s.future h
  let gone := s.stale sp.part h
  let now := sp.joinedNow h
  let later := sp.joinedKept h
  let bad := gone || f.st ≠ .done
  let value : Option (BitVec 128) := if gone then none else some (if f.st = .done then f.result else 0)
  let give := fun (t : Span) (l : Nat) => match (t.lane l).joinNow h with
    | some j => (match value with | some x => t.setVn j.n j.reg l x | none => t).onLane l Lane.go
    | none => t
  let hold := fun (ln : Lane) => match ln.joinKept h with
    | some j => { ln with held := some (.join value bad), kept := some (.join { j with drop := j.drop && !gone }) }
    | none => ln
  let s1 := (s.crossed sp.die).onSpan sp.id fun t =>
    let u := now.foldl give (t.onLanes later hold)
    (if bad && !now.isEmpty then u.record .future else u).told s.steps (if gone then [] else f.view)
  let s2 := if gone then s1 else s1.setFuture h ({ f with wait := f.wait - now.length - later.length }).unreached
  let drops := now.filter fun l => ((sp.lane l).joinNow h).any fun j => j.drop && !gone
  (drops.foldl (fun t l => t.dropOwned sp.id (sp.owner l) h) s2).settle sp.id

/-- The FJOIN waits of a lane, its own and a kept one. -/
def joinsOf (sp : Span) (l : Nat) : List Join :=
  let ln := sp.lane l
  (match ln.wait with | some (.join j) => [j] | _ => []) ++ (match ln.kept, ln.held with | some (.join j), none => [j] | _, _ => [])

/-- Is there something to deliver to an FJOIN: a settled future, or a handle that has become stale? -/
def State.joinEnds (s : State) (sp : Span) (h : Word) : Bool := (s.future h).st.settled || s.stale sp.part h

/-- FJOIN_DELIVERY (R323). -/
def execFjoinDelivery (span lane : Nat) (s : State) : Out :=
  match s.span? span with
  | none => .next s
  | some sp => match (joinsOf sp lane).find? fun j => j.slot && j.asked && s.joinEnds sp j.handle with
    | some j => .next (if sp.resident then s.deliverJoin sp j.handle else s)
    | none => .next s

/-- The next check of a lane's FJOIN that has no watch slot. -/
def Lane.pollAgain (h : Word) (now : Nat) (ln : Lane) : Lane :=
  let again (o : Option Wait) : Option Wait := match o with
    | some (.join j) => some (.join (if j.handle = h && !j.slot && decide (j.poll ≤ now) then { j with poll := now + 1000 } else j))
    | o => o
  { ln with wait := again ln.wait, kept := again ln.kept }

/-- FJOIN_POLL (R198, R323): a lane without a watch slot checks every 1 µs. -/
def execFjoinPoll (span lane : Nat) (s : State) : Out :=
  match s.span? span with
  | none => .next s
  | some sp =>
    let now := (s.time sp.die).toNat
    match (joinsOf sp lane).find? fun j => !j.slot && j.asked && decide (j.poll ≤ now) with
    | some j =>
      if !sp.resident then .next s
      else if s.joinEnds sp j.handle then .next (s.deliverJoin sp j.handle)
      else .next (s.onSpan span (·.onLane lane (Lane.pollAgain j.handle now)))
    | none => .next s

end Sys2Proof.Machine
end

