-- ==== Sys2Proof/Machine/Save.lean ====
section
/-! DEFINITION. Pre-emption, the saves of a context and its resumption (R43 to R46, R138, R260 to R262, R313 to R318). -/

namespace Sys2Proof.Machine

/-! The point of a save. -/

/-- Entries that a save keeps (R138): stores, reductions and order entries that are not in flight, records, launches. -/
def Entry.savable (e : Entry) : Bool :=
  match e.op with
  | .mem => e.st ≠ .inflight && e.st ≠ .done && e.parts.all fun p => p.acc.op = .store || p.acc.op = .red || p.acc.op = .sred
  | .record _ => e.st ≠ .inflight
  | .deck => false
  | _ => true

def MsgKind.isFret : MsgKind → Bool
  | .fret _ _ _ _ => true
  | _ => false

/-- Has the engine stopped on an operation that it has begun: a product between its stripe steps (R260)? -/
def PlaneOp.stopped (o : PlaneOp) : Bool := o.st ≠ .running || (o.kind.product && decide (o.done < o.steps) && o.words.isEmpty)

/-- What a save waits for has come (R44, R138, R260, R316): checks, results, answers, requests in flight, the operation that the engine
runs to its end, the stripes of an FPLN that are open. (log 41, DEDUCED) -/
def State.saveReady (s : State) (sp : Span) : Bool :=
  sp.checks.isEmpty && sp.results.isEmpty && sp.unsent.isEmpty && sp.joining.isEmpty && sp.records.isEmpty && sp.tlbi.isNone &&
    sp.landing.all Entry.savable && sp.ferry.all (·.stripes.isEmpty) &&
    !s.deckq.any (·.uid = sp.uid) && !s.fmsgs.any (fun m => m.uid = sp.uid && !m.kind.isFret) &&
    s.planeq.all fun o => o.uid ≠ sp.uid || o.stopped

/-- The span is stopped for its save: its reservations are lost (R185), and its fault records stand in the fault area (R45). The engine
stays at a product that it has begun until the plane state is written (R260). (log 41, DEDUCED) -/
def State.saveSpan (s : State) (sp : Span) (full : Bool) : State :=
  let s1 := (s.putDrafts sp.id).onSpan sp.id fun t =>
    { t with status := .saved full, preempt := none, point := none, resv := none, lanes := t.lanes.map fun ln => { ln with resv := none } }
  { s1 with picked := if s.picked = some sp.id then none else s.picked }

/-! The save record (R42, R44, R137, R315, R316). -/

def Entry.opk (e : Entry) : Nat :=
  match e.op with
  | .fence => 6
  | .deck => 4
  | .record _ | .launch _ _ => 7
  | .mem => if e.any (· = .red) then 1 else if e.any (· = .sred) then 2 else 0

/-- Bytes of one line that an entry writes, later lanes over earlier ones, or combines: operands of its lanes for one word as their operation
combines them (R137, R189). -/
def Entry.lineBytes (e : Entry) : List (Nat × Byte) :=
  e.parts.foldl (fun m p =>
    let old := (List.range p.len).filterMap fun i => (m.find? (·.1 = p.off + i)).map (·.2)
    let bs := if e.opk = 0 || old.length < p.len then p.bytes else
      toBytes p.len (rmw p.len p.acc.aop p.acc.aty (BitVec.ofNat 64 (leNat old)) (BitVec.ofNat 64 (leNat p.bytes))).toNat
    (imap (fun i b => (p.off + i, b)) 0 bs).foldl (fun m x => x :: m.filter (·.1 ≠ x.1)) m) []

/-- OPARG (R137). The two codes of a reduction stand one above the other (log 11, DEDUCED). -/
def Entry.oparg (e : Entry) : Nat :=
  match e.op, e.parts.head? with
  | .fence, _ => e.order.code.toNat + 8 * e.u.toNat
  | .record r, _ => r.words.length - 1
  | .launch _ _, _ => 2 ^ 15
  | .deck, _ => 0
  | .mem, some p => if e.opk = 0 then 0 else p.acc.aop + 8 * p.acc.aty
  | .mem, none => 0

/-- STATE and, for a chained entry, CHAIN and PRED: the place of its predecessor among the saved entries. -/
def Entry.chainWord (e : Entry) (ls : List Entry) : Nat :=
  match e.st with
  | .ashore => 2 * 2 ^ 33
  | .chained p => 3 * 2 ^ 33 + 2 ^ 27 + (ls.findIdx (·.slot = p)) % 32 * 2 ^ 28
  | .ordered => 4 * 2 ^ 33
  | _ => 2 ^ 33

/-- The order code of the instruction: a store or a reduction with `.rel.u` has code 3 (R60, R183). -/
def Entry.orderCode (e : Entry) : Nat := if e.isMem && e.u && e.order = .rel then 3 else e.order.code.toNat

/-- A landing entry of 128 bytes (R137). One that carries a record has VADDR 0, and the bits of BMASK of the record's words
(log 54, DESIGN CHOICE); LANES of a uniform access is 0 (log 58, DESIGN CHOICE). -/
def Entry.save (ls : List Entry) (e : Entry) : List Byte :=
  let addr := match e.op with | .mem => 64 * e.vline | .launch _ a => a | _ => 0
  let kind : Nat := match e.pkind with | .s => 0 | .c => 1 | .u => 2
  let ctrl := e.oparg + e.opk * 2 ^ 16 + kind * 2 ^ 19 + e.orderCode * 2 ^ 21 + e.scope.code.toNat * 2 ^ 24 + e.chainWord ls +
    e.reason * 2 ^ 36 + e.bounces * 2 ^ 40
  let data : List (Nat × Byte) := match e.op with
    | .record r => imap (fun i b => (i, b)) 0 ((r.words.map fun (w : Word) => toBytes 8 w.toNat).flatten)
    | _ => e.lineBytes
  toBytes 8 addr ++ toBytes 8 ctrl ++ toBytes 8 ((data.map fun x => 2 ^ x.1).sum) ++
    toBytes 8 (((e.parts.filterMap (·.acc.lane)).eraseDups.map (2 ^ ·)).sum) ++ toBytes 32 0 ++
    (List.range 64).map fun i => match data.find? (·.1 = i) with | some x => x.2 | none => 0

def padTo (n : Nat) (bs : List Byte) : List Byte := bs ++ List.replicate (n - bs.length) 0

/-- The waits of a lane that hold watch slots. -/
def Lane.slotWaits (ln : Lane) : List (Bool × Nat × Nat) :=
  ([ln.wait, ln.kept].filterMap fun o => match o with
    | some (.watch w) => if w.slot then some (false, w.acc.ea / 64 * 64, w.due.getD 0) else none
    | some (.join j) => if j.slot then some (true, j.handle.toNat, 0) else none
    | _ => none)

/-- Time left before a timeout, at least 1 ns while there is one (R315). -/
def leftOf (due now : Nat) : Nat := if due = 0 then 0 else max 1 (due - now)

/-- The four watch slots (R315). LEFT of a slot that lanes with different deadlines share is the time to the latest
(log 54, DESIGN CHOICE). -/
def Span.saveWatches (sp : Span) (now : Nat) : List Byte :=
  let all := (imap (fun l (ln : Lane) => ln.slotWaits.map fun w => (l, w)) 0 sp.lanes).flatten
  let keys := (all.map fun x => (x.2.1, x.2.2.1)).eraseDups
  padTo 128 ((keys.map fun k =>
    let mine := all.filter fun x => x.2.1 = k.1 && x.2.2.1 = k.2
    let due := (mine.map (·.2.2.2)).foldl max 0
    toBytes 8 k.2 ++ toBytes 4 ((mine.map fun x => 2 ^ x.1).eraseDups.sum) ++ toBytes 1 (if k.1 then 2 else 1) ++ toBytes 3 0 ++
      toBytes 8 (leftOf due now) ++ toBytes 8 0).flatten)

/-- A ferry command (R316). -/
def FerryOp.save (o : FerryOp) : List Byte :=
  let op : Nat := match o.kind with | .fcpy => 0x180 | .fcpyt => 0x181 | .fpln => 0x182 | .nsend => 0x184
  let link := match o.link with | some n => 512 + n / 16 | none => 0
  let st : Nat := match o.st with
    | .drain => 1
    | .running => 2
    | .parked .page => 3 + 4 | .parked .expand => 3 + 8 | .parked .migrate => 3 + 12
  let next := o.nextChunk
  let win := ((o.done.map o.order).filterMap fun n => if next < n then some (2 ^ (n - next - 1)) else none).sum
  [o.dst, o.src, o.shape, o.comp, o.value, o.strA, o.strB].foldl (fun bs (w : Word) => bs ++ toBytes 8 w.toNat) [] ++
    toBytes 8 (op + o.scope.code.toNat * 2 ^ 10 + link * 2 ^ 13 + st * 2 ^ 23) ++ toBytes 8 next ++ toBytes 8 win ++ toBytes 8 o.bytes ++
    toBytes 40 0

/-- Landing entries in program order (R138). -/
def Span.ordered (sp : Span) : List Entry := sp.landing.foldr insertSeq []

/-- The part of the record after the registers (R315): PCAUSE is the first cause recorded since the start or the last RFT (R45). A send of
the net is no ferry command (log 12, DESIGN CHOICE). -/
def Span.saveTail (sp : Span) (now : Nat) : List Byte :=
  padTo 4096 (sp.ordered.map (Entry.save sp.ordered)).flatten ++ sp.saveWatches now ++
    padTo 512 (((sp.ferry.filter (·.kind ≠ .nsend)).map FerryOp.save).flatten) ++
    toBytes 4 sp.spantag.toNat ++ toBytes 4 sp.fseq ++ toBytes 8 sp.origin.toNat ++ toBytes 1 (match sp.first with | some c => c.code | none => 0) ++
    toBytes 47 0

def Span.recordSize (sp : Span) : Nat := 0x400 + 128 * sp.budget + 4800

def Span.saveRegs (sp : Span) : List Byte :=
  (((List.range 64).map fun r => toBytes 8 (sp.s r).toNat).flatten) ++
    ((sgets 0 sp.vregs 0 (32 * sp.budget)).map fun (x : VWord) => toBytes 4 x.toNat).flatten

/-- The bytes of a save record with their offsets; a short save leaves STATE, DCV and PCV unwritten. -/
def Span.saveBytes (sp : Span) (full ckpt : Bool) (now : Nat) : List (Nat × List Byte) :=
  let head := headWord (if ckpt then 2 else 1) full sp.hmode false 0 0
  let l0 := (sp.lanesIn (!·.ended)).headD 0
  let top := blockHead sp head (if full then 0 else (sp.lane l0).pc) 0 (if full then 0 else (sp.lane l0).depth)
  let mid := blockPreds sp ++ toBytes 64 0
  let rest := sp.saveRegs ++ sp.saveTail now
  if full then [(0, top ++ blockStates sp ++ blockDepths sp ++ mid ++ blockPcs sp ++ rest)]
  else [(0, top), (0x80, mid), (0x200, rest)]

/-! The region of a block (R261, R314). -/

def up (n x : Nat) : Nat := (x + n - 1) / n * n

def PlaneOp.word (o : PlaneOp) : Nat :=
  match o.kind with
  | .pmma => 0x240 | .pmmabp => 0x240 + 2 ^ 10 | .pmms => 0x241 | .plma => 0x242 | .pacz => 0x243 | .pdrn => 0x244 | .pdrb => 0x245
  | .pacs => 0x246 | .pacl => 0x247

/-- A command record (R261). -/
def PlaneOp.save (o : PlaneOp) : List Byte :=
  toBytes 2 o.word ++ toBytes 1 o.idx ++ toBytes 1 (if o.st = .drain then 0 else 1) ++ toBytes 4 o.fmt.toNat ++ toBytes 8 o.ctl.toNat ++
    toBytes 8 o.opa.toNat ++ toBytes 8 o.opb.toNat ++ toBytes 4 o.done ++ toBytes 28 0

/-- Commands of a block in the order in which the engine would start them. -/
def State.planeCmds (s : State) (b : Nat × Nat) : List PlaneOp :=
  let mine := s.planeq.filter (·.blk = b)
  mine.filter (·.st ≠ .drain) ++ mine.filter (·.st = .drain)

def State.savedPlane (s : State) (k : Block) : List Byte :=
  let cmds := s.planeCmds (k.launch, k.idx)
  toBytes 4 cmds.length ++ toBytes 1 k.tiles.length ++ toBytes 59 0 ++ (cmds.map PlaneOp.save).flatten ++ k.bypassBytes ++
    (k.tiles.map Tile.image).flatten

def State.barBytes (s : State) (b : Nat × Nat) (broken : Bool) : List Byte :=
  ((List.range 16).map fun n =>
    let bar := s.bar (blockKey b n)
    toBytes 4 bar.arrivals ++ toBytes 2 (bar.count.getD 0) ++ toBytes 2 broken.toNat).flatten

/-- Where each span's record, the deck image and the plane state of a region begin, and the region's size. -/
structure RegionAt where
  recs  : List Nat
  deck  : Nat
  plane : Nat
  size  : Nat

def regionAt (k : Block) (sps : List Span) (ncmd : Nat) : RegionAt :=
  let (recs, e) := sps.foldl (fun (acc : List Nat × Nat) sp => (acc.1 ++ [acc.2], acc.2 + up 64 sp.recordSize)) ([], 0x100)
  let deck := e
  let plane := if k.berth then deck else deck + up 64 k.bytes
  ⟨recs, deck, plane, if k.tiles.isEmpty then plane else plane + 64 + 64 * ncmd + bypassSize + k.tiles.length * imageSize⟩

/-- The bytes of a region with their offsets. Its span count and its records are those of the saved spans: a span that has retired has none
(log 58, DESIGN CHOICE). -/
def State.regionBytes (s : State) (k : Block) (sps : List Span) (ckpt : Bool) : List (Nat × List Byte) :=
  let at_ := regionAt k sps (s.planeCmds (k.launch, k.idx)).length
  let now := (s.time (k.pier / Config.piersPerDie)).toNat
  let head := padTo 128 (toBytes 4 sps.length ++ toBytes 4 k.bytes ++ toBytes 1 k.tiles.length) ++ s.barBytes (k.launch, k.idx) k.broken
  let recs := (List.zip at_.recs sps).map fun x =>
    (x.2.saveBytes (match x.2.status with | .saved f => f | _ => true) ckpt now).map fun y => (x.1 + y.1, y.2)
  [(0, head)] ++ recs.flatten ++
    (if k.berth then [] else [(at_.deck, sgets 0 k.deck 0 (up 64 k.bytes))]) ++
    (if k.tiles.isEmpty then [] else [(at_.plane, s.savedPlane k)])

/-! The save area (R313). -/

def insertIdx (sp : Span) : List Span → List Span
  | [] => [sp]
  | t :: r => if sp.idx ≤ t.idx then sp :: t :: r else t :: insertIdx sp r

/-- The saved spans of a block, in span index order. -/
def blockSpans (sps : List Span) (k : Block) : List Span := (sps.filter (·.block = (k.launch, k.idx))).foldr insertIdx []

/-- The saved blocks of a context with the offsets of their regions, and the bytes in use. The directory has them in the order in which they
started (log 58, DESIGN CHOICE). -/
def State.saveLayout (s : State) (sps : List Span) : List (Block × Nat) × Nat :=
  let ks := s.blocks.filter fun k => sps.any (·.block = (k.launch, k.idx))
  ks.foldl (fun (acc : List (Block × Nat) × Nat) k =>
    let off := up 4096 acc.2
    (acc.1 ++ [(k, off)], off + (regionAt k (blockSpans sps k) (s.planeCmds (k.launch, k.idx)).length).size)) ([], 64 + 16 * ks.length)

/-- A directory entry (R313). SLOTB is the lowest slot of the block's saved spans (log 59, DESIGN CHOICE). -/
def dirEntry (sps : List Span) (x : Block × Nat) : List Byte :=
  let k := x.1
  let first := minNat (((blockSpans sps k).map (·.slot)))
  toBytes 8 x.2 ++ toBytes 4 (if k.berth then 2 ^ 32 - 1 else k.idx) ++ toBytes 1 (k.pier / Config.piersPerDie) ++
    toBytes 1 (k.pier % Config.piersPerDie) ++ toBytes 1 first ++ toBytes 1 0

/-- Write runs of bytes at offsets of an area, up to the first that is not written. -/
def State.writeRuns (s : State) (cx : Context) (base : Word) : List (Nat × List Byte) → State × Option XOut × List Nat
  | [] => (s, none, [])
  | (off, bs) :: r =>
    match s.deviceWrite none cx (base + BitVec.ofNat 64 off) bs with
    | (s1, none, _) => s1.writeRuns cx base r
    | x => x

/-! The end of a RESTORE. -/

/-- Event 9 on every queue of the partitions that has been enabled, with the low 32 bits of CKNUM (R354, R361). (log 42, DEDUCED) -/
def State.postCk (s : State) (set : List Nat) (body : Nat) : State :=
  (s.queues.filter fun q => set.contains (q.id / 16) && q.st ≠ .disabled).foldl
    (fun (t : State) q => t.postEvent q.id 9 (body + 2 ^ 32 * (s.ck.num.toNat % 2 ^ 32)) none) s

/-- A RESTORE is done once each context that the checkpoint had saved has resumed: CKSTAT says so, and event 9 is posted (R362, R364). (log 42,
DEDUCED) -/
def State.restoreDone (s : State) : State :=
  if s.ck.restores.isEmpty || s.ctxs.any (fun c => s.ck.restores.contains c.part && c.ckpt && c.status = .resuming) then s
  else { s with ck := { s.ck with stat := 2, restores := [] } }.postCk s.ck.restores 1

/-! The kill of a context (R356 to R359). -/

/-- Tasks, waits and references of a killed span end (step 5). -/
def State.killOwned (s : State) (sp : Span) : State :=
  (laneNums.foldl (fun (t : State) l => (t.dropWait sp l).endLaneTask sp l) s).dropAll (.span sp.uid)

/-- The landing entries of a saved span in its record of the save area (R313, R315). (log 12, DESIGN CHOICE) -/
def State.areaOf (s : State) (cx : Context) (sp : Span) : Option SavedArea :=
  match s.block? sp.block, cx.regions.find? (·.1 = sp.block) with
  | some k, some r =>
    let sps := blockSpans (s.saved.filter (·.ctx = cx.id)) k
    let off := r.2 + (regionAt k sps 0).recs.getD (sps.findIdx (·.uid = sp.uid)) 0 + 0x400 + 128 * sp.budget
    some { party := sp.party, part := sp.part, pier := sp.pier, blk := sp.block, at_ := cx.savebase + BitVec.ofNat 64 off, kept := sp.ordered }
  | _, _ => none

/-- Everything of a killed context is gone but the writes that its pages keep waiting, and those that are still to be read from its save area
(steps 1 to 5). A fault record that was kept back is written (R45; log 51, DEDUCED). A drop that is on its way to a future of
another context arrives (R293); a task whose FRET is on its way has ended with its references (R286). (log 44, DEDUCED) -/
def State.killContext (s : State) (cx : Context) : State :=
  let sps := (s.spans ++ s.saved).filter (·.ctx = cx.id)
  let ls := (s.launches.filter (·.ctx = cx.id)).map (·.id)
  let uids := sps.map (·.uid)
  let (s1, rest) := (s.spans.filter (·.ctx = cx.id)).foldl (fun (acc : State × List Killed) sp =>
    let (t, left) := acc.1.killWrites cx sp
    (t.putDrafts sp.id, acc.2 ++ left)) (s, [])
  let unread := (s.saved.filter (·.ctx = cx.id)).filterMap (s.areaOf cx)
  let s2 := s1.mergeAll fun h => h.blks.any fun b => ls.contains b.1
  let rets := (s.fmsgs.filter fun m => uids.contains m.uid && m.kind.isFret).map (·.owner)
  let s3 := (rets.foldl State.dropAll (sps.foldl State.killOwned s2)).closeRounds cx.part (fun t => t.owners.any uids.contains) id
  let free (f : Future) : Future := if f.ctx = cx.id && f.st ≠ .free then f.freed else f
  { s3 with
    spans := s3.spans.filter (·.ctx ≠ cx.id)
    saved := s3.saved.filter (·.ctx ≠ cx.id)
    blocks := s3.blocks.filter (!ls.contains ·.launch)
    launches := s3.launches.filter (·.ctx ≠ cx.id)
    bars := s3.bars.filter (!ls.contains ·.key.launch)
    taskq := s3.taskq.filter (!ls.contains ·.body.launch)
    berths := s3.berths.filter (!ls.contains ·.launch)
    futs := s3.futs.map free
    fmsgs := s3.fmsgs.filter fun m => !uids.contains m.uid || m.kind = .drop true
    ctxs := s3.ctxs.map fun (c : Context) => if c.id = cx.id then { c with status := .killing, rest := rest, unread := unread, quiet := false, ckpt := false, pending := [], regions := [] } else c
    holds := s3.holds.map fun (h : Hold) => { h with armed := h.armed.filter fun a => a.launch.all (!ls.contains ·) }
    deckq := s3.deckq.filter (!uids.contains ·.uid)
    planeq := s3.planeq.filter (!uids.contains ·.uid)
    notices := s3.notices.filter fun (n : Notice) => n.ctx ≠ cx.id || n.who = .kill cx.id
    tlb := s3.tlb.filter (·.ctx ≠ cx.id)
    streams := s3.streams.filter (·.ctx ≠ cx.id)
    parts := s3.parts.map fun (p : Partition) => { p with
      hints := p.hints.filter (·.ctx ≠ cx.id)
      snap := p.snap.filter (·.ctx ≠ cx.id)
      net := p.net.map fun (t : Tree) => if t.ctx = cx.id then { t with closing := false } else t }
    picked := match s3.picked with | some p => if sps.any (·.id = p) then none else some p | none => none }

/-- A context is killed now. -/
def State.killNow (s : State) (cx : Context) : State := ((s.killContext cx).killGo cx.id).restoreDone

/-! The save of a context. -/

/-- A save of a context begins: a pre-emption request is on its way to each of its spans (R43, R363). -/
def State.beginSave (s : State) (ctx : Nat) (quiet ckpt : Bool) : State :=
  let uids := (s.spans.filter fun sp => sp.ctx = ctx && sp.status = .running).map (·.uid)
  s.onCtx ctx fun c => { c with status := .saving, quiet := quiet, ckpt := ckpt, pending := uids }

/-- Every region of a context is restored: the queue runs on (R363), but for a SAVE that has come meanwhile, or a checkpoint that stops the
partition (R361). -/
def State.resumeDone (s : State) (cx : Context) : State :=
  if s.saved.any (·.ctx = cx.id) then s else
    let s1 := s.onCtx cx.id fun c => { c with status := .running, quiet := false, ckpt := false, regions := [] }
    let q := s1.queue cx.queue
    let s2 := if cx.quiet || cx.ckpt then s1 else
      (s1.putQueue { q with st := if q.late then .overrun else .running, late := false }).postEvent cx.queue 11 (1 + 2 ^ 32 * cx.regions.length) none
    if (s2.queue cx.queue).st = .saving then s2.beginSave cx.id false false
    else if s2.ckStops cx.part then s2.beginSave cx.id true true else s2.restoreDone

/-- The spans of contexts that `f` accepts leave their saves before the save area is written. -/
def State.unsave (s : State) (f : Nat → Bool) : State :=
  let back (sp : Span) : SpanStatus := match sp.status with | .saved _ => .running | st => st
  { s with spans := s.spans.map fun (sp : Span) => if f sp.ctx then { sp with status := back sp, preempt := none, point := none } else sp }

/-- A checkpoint ends without its region (R364): its contexts resume as they were saved, and the region has no valid header, whatever it held
before. A RESTORE that fails leaves the region, and its contexts resume. (log 42, DEDUCED) -/
def State.abandonCk (s : State) (reason : Nat) : State :=
  let mine := s.ctxs.filter (·.ckpt)
  let bare := if s.ck.restores.isEmpty && s.ck.base.toNat + 8 ≤ s.tierSize then s.poke (capBase + s.ck.base.toNat) (toBytes 8 0) else s
  let s1 := bare.unsave fun c => mine.any fun cx => cx.id = c && cx.status = .saving
  let turn (cx : Context) : Context :=
    if !cx.ckpt then cx else match cx.status with
    | .saving => { cx with status := .running, quiet := false, ckpt := false, pending := [], regions := [] }
    | .saved => { cx with status := .resuming }
    | _ => cx
  let s2 := { s1 with ctxs := s1.ctxs.map turn, ck := { s1.ck with stat := BitVec.ofNat 64 (4 + 256 * reason), restores := [] } }
  (s2.ctxs.filter fun cx => cx.ckpt && cx.status = .resuming).foldl State.resumeDone s2

/-- A save is refused (R47, R313): the context runs on, and event 6 is posted, but for a time slice (R363). A checkpoint that it belongs
to fails; a kill that has waited for it goes on (R359). -/
def State.refuseSave (s : State) (cx : Context) (needed : Nat) (cause : Nat) : State :=
  let body := needed + 2 ^ 64 * cx.savesize.toNat + 2 ^ 128 * cause
  if (s.queue cx.queue).st = .killing then s.killNow cx
  else if cx.ckpt then (s.abandonCk 0).postEvent cx.queue 6 body none else
  let s1 := (s.unsave (· = cx.id)).onCtx cx.id fun c => { c with status := .running, quiet := false, pending := [], regions := [] }
  if cx.quiet then s1 else
    let q := s1.queue cx.queue
    (s1.putQueue { q with st := if q.late then .overrun else q.back, late := false }).postEvent cx.queue 6 body none

/-- A lane as a save leaves it: what was written for it, and the time left of its timeout (R315). -/
def Lane.keep (now : Nat) (ln : Lane) : Lane :=
  let rel (o : Option Wait) : Option Wait := match o with
    | some (.watch w) => some (.watch { w with due := w.due.map fun d => leftOf d now })
    | o => o
  { ln with savedAs := some (ln.st, ln.pc, ln.depth), wait := rel ln.wait, kept := rel ln.kept }

/-- A plane operation of a saved block: the number of its command record (R261), and a product stopped between its stripe steps (R260). A
check that has not passed is repeated whole (R250, R262). -/
def PlaneOp.kept (cmds : List PlaneOp) (o : PlaneOp) : PlaneOp :=
  { o with st := if o.st = .running then .queued else o.st, words := if o.st = .drain then [] else o.words, cmd := some (cmds.findIdx fun p => p.id = o.id && p.uid = o.uid) }

/-- The save of a context is complete: its spans leave their slots, its engines are free of its blocks, and the host is told (R260, R363); a
kill that has let it come to its end goes on (R359). -/
def State.saveDone (s : State) (cx : Context) (sps : List Span) (lay : List (Block × Nat)) : State :=
  let keep (sp : Span) : Span := { sp with lanes := sp.lanes.map (Lane.keep (s.time sp.die).toNat) }
  let ours (b : Nat × Nat) : Bool := sps.any (·.block = b)
  let s1 : State := { s with
    spans := s.spans.filter fun sp => !sps.any (·.uid = sp.uid), saved := s.saved ++ sps.map keep
    planeq := s.planeq.map fun o => if ours o.blk then o.kept (s.planeCmds o.blk) else o
    engineAt := s.engineAt.filter fun e => !ours e.2 }
  let s2 := s1.onCtx cx.id fun c => { c with status := .saved, pending := [], regions := lay.map fun x => ((x.1.launch, x.1.idx), x.2) }
  if (s2.queue cx.queue).st = .killing then (match s2.ctx? cx.id with | some cy => s2.killNow cy | none => s2)
  else if cx.quiet || cx.ckpt then s2 else
    (s2.putQueue { s2.queue cx.queue with st := .saved }).postEvent cx.queue 11 (2 ^ 32 * lay.length) none

/-- A context that is being saved, with every span of it stopped: its save area is written, and the save is complete, waits or is
refused (R47, R313). (log 41, DEDUCED) -/
def State.trySave (s : State) (cx : Context) : State :=
  let mine := s.spans.filter (·.ctx = cx.id)
  let sps := mine.filter fun sp => match sp.status with | .saved _ => true | _ => false
  let ours (o : PlaneOp) : Bool := sps.any (·.block = o.blk)
  if cx.status ≠ .saving || mine.any (·.status = .running) || s.planeq.any (fun o => ours o && !o.stopped) then s else
    let (lay, used) := s.saveLayout sps
    if cx.savesize.toNat < used then s.refuseSave cx used 0 else
      let head := toBytes 8 lay.length ++ toBytes 8 used ++ toBytes 48 0
      let regions := (lay.map fun x => (s.regionBytes x.1 (blockSpans sps x.1) cx.ckpt).map fun y => (x.2 + y.1, y.2)).flatten
      let entries := imap (fun i x => (64 + 16 * i, dirEntry sps x)) 0 lay
      match s.writeRuns cx cx.savebase ([(0, head)] ++ regions ++ entries) with
      | (s1, none, _) => s1.saveDone cx sps lay
      | (s1, some (.park w), pages) => s1.notify cx.id w (.span ((sps.head?.map (·.uid)).getD 0)) pages
      | (s1, some (.fatal c), _) => s1.refuseSave cx 0 c.code
      | (s1, some (.pass _ _), _) => s1

def State.trySaves (s : State) : State := s.ctxs.foldl (fun t cx => t.trySave ((t.ctx? cx.id).getD cx)) s

/-- A save begins, and is complete at once where no span is to be saved. -/
def State.startSave (s : State) (ctx : Nat) (quiet ckpt : Bool) : State := (s.beginSave ctx quiet ckpt).trySaves

/-- PREEMPTION_REQUEST (R43): it carries the context's timeout. -/
def execPreemptionRequest (span : Nat) (s : State) : Out :=
  match s.span? span with
  | none => .next s
  | some sp => match s.ctx? sp.ctx with
    | none => .next s
    | some cx =>
      if !cx.pending.contains sp.uid || sp.status ≠ .running then .next s else
        .next ((s.onCtx cx.id fun c => { c with pending := c.pending.filter (· ≠ sp.uid) }).onSpan span fun t =>
          ({ t with preempt := some ((s.time sp.die).toNat + 1000 * cx.preto.toNat, cx.preto = 0) } : Span).keepPoint)

/-- PREEMPTION_TIMEOUT (R43): it forces a full save of a span that has not come to its point. -/
def execPreemptionTimeout (span : Nat) (s : State) : Out :=
  match s.span? span with
  | none => .next s
  | some sp => match sp.preempt with
    | some (d, false) => .next (if decide (d ≤ (s.time sp.die).toNat) then s.onSpan span fun t => ({ t.keepPoint with preempt := some (d, true) } : Span).keepPoint else s)
    | _ => .next s

/-- PREEMPTION_SAVE (R44, R138, R313): the span that has reached its point stops, is saved once nothing of it is in flight, and with
the last span of a context the save area is written. -/
def execPreemptionSave (span : Nat) (s : State) : Out :=
  match s.span? span with
  | none => .next s.trySaves
  | some sp => match sp.savePoint with
    | none => .next s.trySaves
    | some full =>
      if s.saveReady sp then .next (s.saveSpan sp full).trySaves
      else .next (s.onSpan span Span.keepPoint)

/-! Resumption (R45, R138, R262, R317, R318). -/

/-- A watch slot as a record gives it (R315). -/
structure SlotRec where
  kind  : Nat
  addr  : Nat
  lanes : Nat
  left  : Nat

def readSlots (bs : List Byte) : List SlotRec :=
  (List.range 4).map fun i =>
    let b := bs.drop (32 * i)
    ⟨leNat ((b.drop 12).take 1), leNat (b.take 8), leNat ((b.drop 8).take 4), leNat ((b.drop 16).take 8)⟩

def slotFor (slots : List SlotRec) (l kind addr : Nat) : Option SlotRec :=
  slots.find? fun r => r.kind = kind && r.addr = addr && decide (r.lanes / 2 ^ l % 2 = 1)

/-- A wait goes on after a resumption (R46, R315): in the watch slot that the record gives it, for the time that is left; a lane without a
slot has its own time left. -/
def Wait.resumed (now l : Nat) (slots : List SlotRec) : Wait → Wait
  | .watch w =>
    let mine := slotFor slots l 1 (w.acc.ea / 64 * 64)
    let left := match mine with | some r => r.left | none => w.due.getD 0
    .watch { w with wake := true, reading := false, line := none, poll := 0, must := true, slot := mine.isSome,
                    due := if left = 0 then none else w.due.map fun _ => now + left }
  | .join j => .join { j with slot := (slotFor slots l 2 j.handle.toNat).isSome }
  | w => w

/-- A lane restored from its code (R40, R45, R46): a lane saved waiting goes on with its wait, and tests it again. A state code above 6
restores it ready, and its program counter is taken as it was read (log 54, DESIGN CHOICE). -/
def Lane.resume (ln : Lane) (now l : Nat) (slots : List SlotRec) (code : Nat) (pc : Word) (depth : Nat) : Lane :=
  let same := decide (code = 2) && ln.savedAs = some (.waiting, pc, depth) && ln.wait.isSome
  let was := match ln.savedAs with | some (st, _, _) => st | none => .exited
  let again (o : Option Wait) : Option Wait := o.map (Wait.resumed now l slots)
  let b : Lane := { ln with pc := pc, depth := depth, savedAs := none, wait := none, kept := again ln.kept, reason := none, pages := [] }
  if was = .reclaimed then { b with st := .reclaimed }
  else if same then
    match ln.wait with
    | some (.sleep _) => b.go
    | w => { b with st := .waiting, wait := again w }
  else match code with
    | 1 => { b with st := .deferred }
    | 4 => { b with st := .parkedFatal }
    | 5 | 6 => { b with st := .exited }
    | _ => { b with st := .ready }

/-- One lane of a span resumed: a wait given up leaves its future, a lane that ends here ends its task. A wait is tested again (R46): an MBWAIT
tests its count, a wait at a named barrier ends when its phase has completed meanwhile, or its instance has broken. -/
def State.resumeLane (s : State) (id : Nat) (slots : List SlotRec) (code : Nat) (pc : Word) (depth : Nat) (preds : BitVec 16) (l : Nat) : State :=
  match s.span? id with
  | none => s
  | some sp =>
    let ln := sp.lane l
    let ln1 : Lane := { ln.resume (s.time sp.die).toNat l slots code pc depth with preds := preds }
    let s1 := match ln.wait, ln1.wait with
      | some (.join j), none => s.quitJoin sp.uid l j true
      | _, _ => s
    let s2 := if ln1.st = .exited then s1.endLaneTask sp l else s1
    let ln2 := if ln1.st = .exited then { ln1 with task := none } else ln1
    let arrived := match ln2.wait with | some (.bar key ph _) => decide (ph ≠ 0) && decide (ph < (s.bar key).phase) | _ => false
    let broken := match ln2.wait with | some (.bar key ph _) => decide (ph ≠ 0) && !arrived && s.barBroken key | _ => false
    let reached := match ln2.wait, s.block? sp.block with | some (.mb o n _), some k => (k.mbar o).reached n | _, _ => false
    let ln3 := match ln2.wait with
      | some (.mb _ _ pf) => if reached then (setPred ln2 (some pf) false).go else ln2
      | some (.inited pf) => (setPred ln2 (some pf) true).go
      | some (.bar _ _ pf) => if arrived || broken then (setPred ln2 pf broken).go else ln2
      | _ => ln2
    let s3 := s2.onSpan id fun t => t.onLane l fun _ => ln3
    match ln2.wait with
    | some (.mb o _ _) => if reached then s3.hearObj id o else s3
    | _ => if broken then s3.onSpan id (·.record .barbroken) else s3

/-- Saved entries wait for their translation with reason XLATE; records and order entries go on as they were (R138). -/
def Entry.resumed (e : Entry) : Entry :=
  if e.isMem then { e with st := .ashore, reason := 2, woken := false, due := 0 } else e

/-- The registers of a span from its record. -/
def Span.withRegs (sp : Span) (bs : List Byte) : Span :=
  { sp with
    sregs := ssparse 0 ((chop 8 64 (bs.drop 0x200)).map (BitVec.ofNat 64))
    vregs := ssparse 0 ((chop 4 (32 * sp.budget) (bs.drop 0x400)).map (BitVec.ofNat 32)) }

/-- The chunk at a place of its operation's chunk order (R316). -/
def FerryOp.chunkAt (o : FerryOp) (n : Nat) : Nat :=
  if o.kind = .fpln then n / o.fpNS * 2 ^ 40 + n % o.fpNS
  else ((List.range o.rowCount).foldl (fun (acc : Nat × Option Nat) r =>
    let k := (lineOff (placeAt o.dst (o.rowAt r).2) + o.rowLen + 63) / 64
    match acc.2 with
    | some _ => acc
    | none => if acc.1 < k then (acc.1, some (r * 2 ^ 40 + acc.1)) else (acc.1 - k, none)) (n, none)).2.getD 0

/-- A ferry operation from its command (R316, R317). What the command does not hold, its place in the span's order and a cancellation or a
failure whose completion word is still to be written, is kept beside it (log 12, DESIGN CHOICE). -/
def FerryOp.ofCommand (o : FerryOp) (bs : List Byte) : Option FerryOp :=
  let word (at_ : Nat) : Word := BitVec.ofNat 64 (leNat ((bs.drop at_).take 8))
  let ctrl := (word 0x38).toNat
  let next := (word 0x40).toNat
  let op := ctrl % 2 ^ 10
  let link := ctrl / 2 ^ 13 % 2 ^ 10
  let why : Park := match ctrl / 2 ^ 25 % 4 with | 2 => .expand | 3 => .migrate | _ => .page
  let o1 := { o with
    kind := if op = 0x182 then .fpln else if op = 0x181 then .fcpyt else .fcpy
    scope := (scopeOf (BitVec.ofNat 3 (ctrl / 2 ^ 10))).getD .sys
    link := if 512 ≤ link then some (16 * (link - 512)) else none
    st := match ctrl / 2 ^ 23 % 4 with | 1 => .drain | 3 => .parked why | _ => .running
    dst := word 0, src := word 8, shape := word 0x10, comp := word 0x18, value := word 0x20, strA := word 0x28, strB := word 0x30
    bytes := (word 0x50).toNat, words := [] }
  let places := List.range next ++ ((List.range 64).filter (word 0x48).getLsbD).map (next + 1 + ·)
  if ctrl / 2 ^ 23 % 4 = 0 then none else some { o1 with done := places.map o1.chunkAt }

/-- The ferry slots of a span from its four commands; a send of the net is no command. -/
def Span.withFerry (sp : Span) (bs : List Byte) : Span :=
  let mine := sp.ferry.filter (·.kind ≠ .nsend)
  { sp with ferry := (imap (fun i o => o.ofCommand ((bs.drop (128 * i)).take 128)) 0 mine).filterMap (fun o => o) ++ sp.ferry.filter (·.kind = .nsend) }

/-- A span restored from its record: registers, predicates, lanes, mode, cause, watches, landing, ferry (R45, R315, R317). What the record
does not hold of them is kept beside it (log 12, DESIGN CHOICE). -/
def State.resumeSpan (s : State) (sp : Span) (bs : List Byte) : State :=
  let b := readBlock bs
  let full := decide (b.head / 2 ^ 15 % 2 = 1)
  let hmode := decide (b.head / 2 ^ 14 % 2 = 1)
  let rest := bs.drop (0x400 + 128 * sp.budget)
  let slots := readSlots (rest.drop 0x1000)
  let tail := rest.drop 0x1280
  let cause := causeOf (leNat ((tail.drop 16).take 1))
  let ended := fun l => decide (b.ended / 2 ^ l % 2 = 1)
  let gone := fun l => decide (b.ended / 2 ^ (32 + l) % 2 = 1)
  let code := fun l => if full then b.state.getD l 0 else if gone l then 6 else if ended l then 5 else 0
  let sp1 : Span := { ((sp.withRegs bs).withFerry (rest.drop 0x1080)).told s.steps [] with
    status := .running, hmode := hmode, qs := BitVec.ofNat 8 (b.dq / 256), spantag := BitVec.ofNat 32 (leNat (tail.take 4)),
    fseq := leNat ((tail.drop 4).take 4) % 256, origin := BitVec.ofNat 64 (leNat ((tail.drop 8).take 8)), cause := if hmode then sp.cause else cause, first := cause,
    landing := sp.landing.map Entry.resumed, age := s.steps, waited := 0 }
  let s1 := { s with saved := s.saved.filter (·.uid ≠ sp.uid), spans := s.spans ++ [sp1] }
  let s2 := laneNums.foldl (fun t l =>
    let pc := if full then b.pc.getD l 0 else if code l = 0 then b.iaddr else (sp.lane l).pc
    let depth := if full then b.depth.getD l 0 else if code l = 0 then b.dq % 256 else (sp.lane l).depth
    t.resumeLane sp.id slots (code l) pc depth (BitVec.ofNat 16 (b.preds.getD l 0)) l) s1
  let s3 := s2.onSpan sp.id fun t =>
    let u := { t with late := none, due := if t.hmode then t.due else t.cause.isSome || !(t.lanesIn (· = .parkedFatal)).isEmpty }
    match sp.late with | some c => u.record c | none => u
  let stood (l : Nat) : Bool := match (sp.lane l).savedAs with | some (st, _, _) => st = .waiting || st = .parkedRec | none => false
  let dooms := fun (t : State) (l : Nat) => match (sp.lane l).task with
    | some k => if k.fut ≠ 0 && (t.future k.fut).serial = handleSerial k.fut && (t.future k.fut).st = .doomed then
        let u := t.onSpan sp.id fun u => u.onLane l fun ln => { ln with task := ln.task.map fun j => { j with doomed := true } }
        if stood l && (u.span? sp.id).any (fun v => !(v.lane l).st.ended) then u.reclaim sp.id l else u
      else t
    | none => t
  let s4 := laneNums.foldl dooms s3
  let s5 := sp1.ferry.foldl (fun (t : State) o => match o.st with | .parked _ => t.ferryWake sp.id o | _ => t.ferryRetry sp.id o) s4
  s5.settle sp.id

/-- Room on the pier for a block's spans, at their own slots, its deck and its tiles (R363). -/
def State.roomFor (s : State) (k : Block) (sps : List Span) : Bool :=
  let r := s.room k.pier
  let regs := fun q => decide (((sps.filter (·.slot / 16 = q)).map (·.budget)).sum ≤ quadRegs r.used q)
  sps.all (fun sp => !r.used.any (·.1 = sp.slot)) && (List.range 4).all regs &&
    (k.berth || (decide (r.deck + rowsOf k.bytes ≤ Config.deckBytes) && decide (r.tiles + k.tiles.length ≤ 8) &&
      (k.tiles.isEmpty || decide (r.byp < 4))))

/-- Tiles and bypass from a plane state with `ncmd` commands; none where an anchor lies outside its range (R257). -/
def planeImage (k : Block) (ncmd : Nat) (bs : List Byte) : Option Block :=
  let byp := bs.drop (64 + 64 * ncmd)
  let images := (List.range k.tiles.length).map fun i => (byp.drop (bypassSize + imageSize * i)).take imageSize
  if images.all fun b => anchorOk (imageAnchor b) then
    some { k with bypass := bypassOf byp, tiles := images.map fun b => tileOfImage b (imageAnchor b) }
  else none

/-- A plane operation from its command record (R261, R262). -/
def PlaneOp.ofRecord (o : PlaneOp) (spans : List Span) (bs : List Byte) : PlaneOp :=
  let opw := leNat (bs.take 2)
  let idx := leNat ((bs.drop 2).take 1)
  let who := (spans.find? (·.idx = idx)).map fun sp => (sp.id, sp.uid)
  let kind : PlaneKind := match opw % 2 ^ 10 with
    | 0x240 => if opw / 2 ^ 10 % 2 = 1 then .pmmabp else .pmma
    | 0x241 => .pmms | 0x242 => .plma | 0x243 => .pacz | 0x244 => .pdrn | 0x245 => .pdrb | 0x246 => .pacs | 0x247 => .pacl
    | _ => o.kind
  let word (at_ : Nat) : Word := BitVec.ofNat 64 (leNat ((bs.drop at_).take 8))
  { o with kind := kind, idx := idx, span := (who.map (·.1)).getD o.span, uid := (who.map (·.2)).getD o.uid
           st := if leNat ((bs.drop 3).take 1) = 0 then .drain else .queued
           fmt := BitVec.ofNat 32 (leNat ((bs.drop 4).take 4)), ctl := word 8, opa := word 0x10, opb := word 0x18
           done := leNat ((bs.drop 0x20).take 4) }

/-- The operations of a block from the records of its plane state, in their order (R262): each record is that of the operation that it was
written for. What a record does not hold, the anchor that a PACL's check has read and the place in its span's order, is kept beside it
(log 12, DESIGN CHOICE). -/
def State.restorePlane (s : State) (b : Nat × Nat) (sps : List Span) (ncmd : Nat) (bs : List Byte) : State :=
  let mine := s.planeq.filter (·.blk = b)
  let spans := sps ++ s.spans.filter (·.block = b)
  let cmds := (List.range ncmd).filterMap fun i => (mine.find? (·.cmd = some i)).map fun o =>
    { o.ofRecord spans ((bs.drop (64 + 64 * i)).take 64) with cmd := none }
  { s with planeq := s.planeq.filter (·.blk ≠ b) ++ cmds }

/-- The bytes of a region in the save area, and NCMD of its plane state: the one says where the other ends (R261, R314). -/
def State.readRegion (s : State) (cx : Context) (k : Block) (sps : List Span) (off : Nat) : State × Except (XOut × List Nat) (Nat × List Byte) :=
  let base := cx.savebase + BitVec.ofNat 64 off
  let at_ := regionAt k sps 0
  let (s1, n) := if k.tiles.isEmpty then (s, .ok []) else s.deviceRead none cx (base + BitVec.ofNat 64 at_.plane) 4
  match n with
  | .error e => (s1, .error e)
  | .ok nb =>
    let ncmd := leNat nb
    match s1.deviceRead none cx base (regionAt k sps ncmd).size with
    | (s2, .ok bs) => (s2, .ok (ncmd, bs))
    | (s2, .error e) => (s2, .error e)

/-- One region read and restored: the deck, the bypass, the tiles and the commands, then the spans. (log 12, DESIGN CHOICE) (log 41, DEDUCED) -/
def State.resumeRegion (s : State) (cx : Context) (k : Block) (sps : List Span) (off : Nat) : State :=
  match s.readRegion cx k sps off with
  | (s1, .error (.park w, pages)) => s1.notify cx.id w (.span 0) pages
  | (s1, .error (.fatal c, _)) =>
    let s2 := { s1 with saved := s1.saved.filter fun t => !sps.any (·.uid = t.uid), spans := s1.spans ++ sps.map fun t => { t with status := SpanStatus.running } }
    (sps.foldl (fun (t : State) sp => t.stopSpan sp.id c) s2).resumeDone cx
  | (s1, .error (.pass _ _, _)) => s1
  | (s1, .ok (ncmd, bs)) =>
    let at_ := regionAt k sps ncmd
    let deck := if k.berth then k else { k with deck := ssparse 0 ((bs.drop at_.deck).take k.bytes) }
    let whole := if k.tiles.isEmpty then some deck else planeImage deck ncmd (bs.drop at_.plane)
    let s2 := (s1.restorePlane (k.launch, k.idx) sps ncmd (bs.drop at_.plane)).onBlock (k.launch, k.idx) fun _ => whole.getD deck
    let s3 := (List.zip at_.recs sps).foldl (fun (t : State) x => t.resumeSpan x.2 ((bs.drop x.1).take x.2.recordSize)) s2
    let s4 := if whole.isNone then sps.foldl (fun (t : State) sp => t.stopSpan sp.id .accrange) s3 else s3
    s4.resumeDone cx

/-- RESUMPTION (R45, R138, R262, R317, R363): the next region of a resuming context, once its pier has room. The spans of a region whose pier
has stopped, with its die fenced meanwhile, do not run again (R26, R360). (log 44, DEDUCED) -/
def execResumption (ctx region : Nat) (s : State) : Out :=
  match s.ctx? ctx with
  | none => .next s
  | some cx => match cx.regions[region]? with
    | none => .next s
    | some (b, off) => match s.block? b with
      | none => .next s
      | some k =>
        let sps := blockSpans (s.saved.filter (·.ctx = ctx)) k
        if cx.status ≠ .resuming || sps.isEmpty then .next s
        else if s.fenced.contains (k.pier / Config.piersPerDie) then
          .next ((({ s with saved := s.saved.filter fun sp => !sps.any (·.uid = sp.uid) } : State).resumeDone cx).trySaves)
        else if !s.roomFor k sps then .next s
        else .next (s.resumeRegion cx k sps off).trySaves

end Sys2Proof.Machine
end

