-- ==== Sys2Proof/Machine/System.lean ====
section
/-! DEFINITION. Class 0xB: return from a trap, control registers, TLB removal, time, sleep, observation (R330 to R339). -/

namespace Sys2Proof.Machine

/-- RFT (R40, R41, R330): its frame is read when the handler's stores have been performed. A page of the frame that is away is
waited for; a frame that cannot be read stops the span. (log 36, DEDUCED) -/
def execRft (x : RRR) (s : State) : Out :=
  issue (.rft x) { priv := fun _ _ => true, ready := fun t i => t.drained i.sp i.sp.seq }
    (fun t i =>
      match t.ctx? i.sp.ctx with
      | none => t
      | some cx =>
        match t.deviceRead (some i.sp.pier) cx (t.areas i.sp cx).1 512 with
        | (t1, .ok bs) => (t1.putSpan i.moved).returnFromTrap i.id (readBlock bs)
        | (t1, .error (.park w, pages)) => t1.notify i.sp.ctx w (.span i.sp.uid) pages
        | (t1, .error (.fatal c, _)) => (t1.putSpan i.moved).stopSpan i.id c
        | (t1, .error (.pass _ _, _)) => t1) s

/-! Control registers (R332). -/

def Context.ctlReg (cx : Context) (p : Partition) (n : Nat) : Word :=
  match n with
  | 0x00 => BitVec.ofNat 64 (cx.part + 256 * cx.number)
  | 0x01 => cx.ptroot
  | 0x02 => cx.handler
  | 0x03 => cx.tfbase
  | 0x04 => cx.fabase
  | 0x05 => cx.savebase
  | 0x06 => cx.savesize
  | 0x07 => cx.preto
  | 0x08 => p.taskbase
  | 0x09 => p.trees
  | 0x0A => p.step
  | 0x0B => p.ringk
  | 0x0C => p.tresv
  | 0x0D => p.snapbase
  | _ => p.bounds.getD (n - 0x10) 0

/-- (log 37, DEDUCED) -/
def clampWord (lo hi x : Nat) : Word := BitVec.ofNat 64 (max lo (min hi x))

/-- Bits from `lo` up to `hi` of a word, the others 0. -/
def keepBits (w : Word) (hi lo : Nat) : Word := w &&& BitVec.ofNat 64 (2 ^ (hi + 1) - 2 ^ lo)

/-- A context register takes a value, its ignored bits 0 (R332). -/
def Context.setReg (cx : Context) (n : Nat) (w : Word) : Context :=
  match n with
  | 0x01 => { cx with ptroot := keepBits w 51 16 }
  | 0x02 => { cx with handler := keepBits w 63 3 }
  | 0x03 => { cx with tfbase := keepBits w 63 9 }
  | 0x04 => { cx with fabase := keepBits w 63 10 }
  | 0x05 => { cx with savebase := keepBits w 63 12 }
  | 0x06 => { cx with savesize := keepBits w 63 12 }
  | 0x07 => { cx with preto := keepBits w 9 0 }
  | _ => cx

/-- A partition register takes a value, but for the table of trees. (log 37, DEDUCED) -/
def Partition.setReg (p : Partition) (n : Nat) (w : Word) : Partition :=
  match n with
  | 0x08 => { p with taskbase := keepBits w 63 16 }
  | 0x0A => { p with step := keepBits w 31 0 }
  | 0x0B => { p with ringk := clampWord 10 20 (w.toNat % 32) }
  | 0x0C => { p with tresv := clampWord 0 64 (w.toNat % 128) }
  | 0x0D => { p with snapbase := keepBits w 63 12 }
  | _ => if 0x10 ≤ n then { p with bounds := p.bounds.set (n - 0x10) (clampWord 256 65536 (w.toNat % 131072)) } else p

/-- MFC (R331): a slow register's value is pending. -/
def execMfc (x : RRR) (s : State) : Out :=
  let n := x.f6.toNat
  issue (.mfc x) { priv := fun _ _ => ctlPrivileged n }
    (fun t i =>
      match t.ctx? i.sp.ctx, t.parts[i.sp.part]? with
      | some cx, some p =>
        let v := cx.ctlReg p n
        let put : Span → Nat → Span := fun sp l =>
          if ctlSlow n then
            (if x.ctl.u then sp.pend { id := 0, lane := none, sreg := some x.d.toNat, val := v.setWidth 128 }
             else sp.pend { id := 0, lane := some l, vreg := some (x.d.toNat, 2), val := v.setWidth 128 })
          else if x.ctl.u then sp.setS x.d.toNat v else sp.setV64 x.d.toNat l v
        t.putSpan ((actOn x.ctl.u i.G).foldl put i.moved)
      | _, _ => t.putSpan i.moved) s

/-- MTC to `trees` (R334): open rounds close, then the table is read. (log 37, DEDUCED) -/
def State.mtcTrees (s : State) (i : Iss) (cx : Context) (v : Word) : State :=
  let s1 := s.shutRounds i.sp.part i.sp.uid
  let open_ := match s1.parts[i.sp.part]? with | some p => p.net.any (·.owed.isSome) | none => false
  if open_ then s1 else
    match s1.loadTrees (some i.sp.pier) i.sp.part cx v with
    | (s2, none) => s2.onSpan i.id fun sp => sp.onLanes i.I fun ln => { ln with pc := i.a + 8 }
    | (s2, some (w, pages)) => s2.notify i.sp.ctx w (.span i.sp.uid) pages

/-- MTC (R331, R332): the value is in force with the instruction. -/
def execMtc (x : RRR) (s : State) : Out :=
  let n := x.f6.toNat
  issue (.mtc x) { priv := fun _ _ => true, ready := fun t i => n ≠ 9 || t.forkDrained i.sp i.sp.seq }
    (fun t i =>
      let v := i.sp.s x.d.toNat
      if i.G.isEmpty then t.putSpan i.moved
      else if n = 9 then match t.ctx? i.sp.ctx with
        | some cx => (t.putSpan i.sp).mtcTrees i cx v
        | none => t
      else if n < 8 then (t.putSpan i.moved).onCtx i.sp.ctx fun cx => cx.setReg n v
      else (t.putSpan i.moved).onPart i.sp.part fun p => p.setReg n v) s

/-- TLBI (R335): the span issues nothing more until the shoot-down is complete. -/
def execTlbi (x : RRR) (s : State) : Out :=
  issue (.tlbi x) { priv := fun _ _ => true }
    (fun t i =>
      let t1 := t.putSpan i.moved
      let start := (i.sp.s x.d.toNat).toNat
      let len := (i.sp.s x.a.toNat).toNat
      if i.G.isEmpty || (!x.bit 0 && len = 0) then t1 else
        let (lo, hi) := if x.bit 0 then (0, 2 ^ 64) else (start / 65536 * 65536, (start + len - 1) / 65536 * 65536 + 65536)
        let (t2, sd) := t1.shoot i.sp.part i.sp.ctx lo hi (some i.sp.uid)
        t2.onSpan i.id fun sp => { sp with tlbi := some sd }) s

/-- SNAP (R338). -/
def execSnap (x : RRR) (s : State) : Out :=
  issue (.snap x) {}
    (fun t i =>
      let t1 := t.putSpan i.moved
      if i.G.isEmpty then t1 else
        let (t2, ok) := t1.snapshot i.sp.part i.sp.ctx 0 (i.sp.s x.a.toNat)
        t2.onSpan i.id fun sp => sp.setQ x.d.toNat ok) s

/-- A 64-bit value, read once per issue, to the scalar or to every guarded lane. -/
def writeWord (x : RRR) (i : Iss) (v : Word) : Span :=
  (actOn x.ctl.u i.G).foldl (fun sp l => if x.ctl.u then sp.setS x.d.toNat v else sp.setV64 x.d.toNat l v) i.moved

/-- TIME (R180, R336): after the acquires before it. -/
def execTime (x : RRR) (s : State) : Out :=
  issue (.time x) { ready := fun _ i => !i.sp.acqHeld }
    (fun t i => t.putSpan (writeWord x i (t.time i.sp.die))) s

/-- CTR (R339). -/
def execCtr (x : RRR) (s : State) : Out :=
  issue (.ctr x) {}
    (fun t i =>
      let (t1, v) := t.readCtr i.sp x.c.toNat x.f6.toNat
      t1.putSpan (writeWord x i v)) s

/-- SLEEP (R337). With no eligible lane left, a due trap is taken (R20). -/
def execSleep (x : RRR) (s : State) : Out :=
  issue (.sleep x) { recl := fun i l => i.G.contains l }
    (fun t i =>
      let now := (t.time i.sp.die).toNat
      let due := fun l => now + (i.sp.src 32 x.ka x.a l).toNat
      (t.putSpan (i.G.foldl (fun sp l => sp.onLane l fun ln => { ln with pc := i.a, st := .waiting, wait := some (.sleep (due l)) }) i.moved)).settle i.id) s

end Sys2Proof.Machine
end

