-- ==== Sys2Proof/Machine/Queue.lean ====
section
/-! DEFINITION. The host's queues (R350 to R355), the saves and resumptions that it asks for (R363), killing a queue (R356 to R359),
time slices, and the line-hold facility (R371). Queue q of virtual function f has the number 16 f + q, and serves partition f. -/

namespace Sys2Proof.Machine

/-- (log 45, DEDUCED) -/
def qid (vf q : Nat) : Nat := 16 * vf + q

/-- The queues of the functions that the firmware tables give: one function for each partition (R347). -/
def State.hasQueue (s : State) (vf q : Nat) : Bool := s.boot = .running && decide (q < 16) && decide (vf < 16) && (s.parts[vf]?).isSome

/-- The context that a queue serves. -/
def State.queueCtx (s : State) (id : Nat) : Option Context := s.ctxs.find? (·.queue = id)

/-! Registers (R350). -/

/-- A register of a queue without behaviour of its own: where its state allows the write, its new contents. (log 44, DEDUCED)
A base loses the bits below its alignment (log 59, DESIGN CHOICE). -/
def Queue.setReg (q : Queue) (off : Nat) (v : Word) : Queue :=
  let idle := q.st = .disabled
  match off with
  | 0x00 => if idle then { q with rbase := keepBits v 63 12 } else q
  | 0x08 => if idle then { q with rsize := keepBits v 4 0 } else q
  | 0x20 => if idle then { q with ebase := keepBits v 63 12 } else q
  | 0x28 => if idle then { q with esize := keepBits v 4 0 } else q
  | 0x58 => if idle then { q with cinit := v } else q
  | 0x60 => { q with krep := v }
  | 0x68 => { q with krepsz := v }
  | _ => q

/-- The checkpoint registers of the physical function, but CKCMD (R364). A base or a size loses the bits below its alignment (log 59,
DESIGN CHOICE). -/
def CkRegs.setReg (c : CkRegs) (off : Nat) (v : Word) : CkRegs :=
  if c.stat.toNat % 8 = 1 then c else
    match off with
    | 0x08 => { c with part := keepBits v 15 0 }
    | 0x10 => { c with base := keepBits v 63 30 }
    | 0x18 => { c with size := keepBits v 63 30 }
    | 0x20 => { c with num := v }
    | _ => c

def State.hold (s : State) (vf : Nat) : Hold := (s.holds.find? (·.vf = vf)).getD { vf := vf }
def State.putHold (s : State) (h : Hold) : State := { s with holds := h :: s.holds.filter (·.vf ≠ h.vf) }

def State.ckStat (s : State) (code reason : Nat) : State := { s with ck := { s.ck with stat := BitVec.ofNat 64 (code + 256 * reason) } }

/-- A command that comes while another runs is refused with reason 1; the one that runs goes on, and CKSTAT shows both (R362, R364). (log
42, DEDUCED) (log 42, DEDUCED) -/
def State.ckBusy (s : State) : State := s.ckStat 1 1

/-- REGISTER_WRITE (R350, R364, R371): function 16 is the physical function. A command written to CKCMD acts by its own event; while
another runs it is refused (R362). (log 42, DEDUCED) -/
def execRegisterWrite (vf off : Nat) (v : Word) (s : State) : Out :=
  if vf = 16 then
    .next (if off < 0x2000 || s.boot ≠ .running then s
      else if off = 0x2000 && s.ck.stat.toNat % 8 = 1 && v.toNat % 8 ≠ 0 then s.ckBusy
      else { s with ck := s.ck.setReg (off - 0x2000) v })
  else if !s.hasQueue vf 0 then .next s
  else if off = 0x0F00 then .next (s.putHold { s.hold vf with addr := v })
  else if off = 0x0F10 then .next (s.putHold { s.hold vf with queue := v })
  else if 0x1000 ≤ off && off < 0x2000 then .next (s.putQueue ((s.queue (qid vf ((off - 0x1000) / 0x100))).setReg (off % 0x100) v))
  else .next s

/-- ENABLE (R351, R349): the queue starts empty, with a new context. `ctxno` is the device's choice of its number. -/
def execEnable (vf q ctxno : Nat) (s : State) : Out :=
  let k := s.queue (qid vf q)
  let ok (n : Word) : Bool := decide (4 ≤ n.toNat) && decide (n.toNat ≤ 16)
  if !s.hasQueue vf q || !(k.st = .disabled || k.st = .stopped) || !ok k.rsize || !ok k.esize || decide (255 < ctxno) ||
      s.ctxs.any (fun c => c.part = vf && c.number = ctxno) then .next s
  else
    let word (i : Nat) : Word := s.word (hostBase + k.cinit.toNat + 8 * i)
    let cx := (List.range 7).foldl (fun (c : Context) i => c.setReg (i + 1) (word i)) { id := s.uid, part := vf, number := ctxno, queue := k.id }
    .next ({ s with uid := s.uid + 1, ctxs := s.ctxs ++ [cx] }.putQueue
      { k with st := .running, back := .running, ridx := 0, widx := 0, ewidx := 0, eridx := 0, ovidx := 0, elost := 0, held := [], posted := 0,
               stops := [], late := false })

/-- DOORBELL (R352, R363): in states 5 to 7 the index is recorded, and an overrun shows its state once the queue runs again (log 13, DEDUCED). -/
def execDoorbell (vf q : Nat) (w : Word) (s : State) : Out :=
  let k := s.queue (qid vf q)
  let past := decide (2 ^ k.rsize.toNat < (w - k.ridx).toNat)
  let note (t : State) : State := t.postEvent k.id 4 (w.toNat + 2 ^ 64 * k.ridx.toNat) none
  .next (if !s.hasQueue vf q then s else match k.st with
    | .running => if past then note (s.putQueue { k with st := .overrun, ovidx := w }) else s.putQueue { k with widx := w }
    | .saving | .saved | .resuming => if past then note (s.putQueue { k with ovidx := w, late := true }) else s.putQueue { k with widx := w }
    | _ => s)

/-- RECORD_CONSUME (R352, R354, R385): a record is read from the ring in host memory, and its launch is queued for admission. An invalid
record is no launch for an armed hold (R371; log 46, DEDUCED). What the host has released by then happens before its spans (R155). -/
def execRecordConsume (vf q : Nat) (s : State) : Out :=
  let k := s.queue (qid vf q)
  match s.queueCtx k.id with
  | none => .next s
  | some cx =>
    if k.st ≠ .running || k.ridx = k.widx || cx.status ≠ .running || s.ckStops cx.part then .next s else
      let at_ := hostBase + k.rbase.toNat + 256 * (k.ridx.toNat % 2 ^ k.rsize.toNat)
      let eaten (t : State) : State := t.putQueue { t.queue k.id with ridx := k.ridx + 1 }
      match s.admitRecord none cx (some k.ridx.toNat) false (s.bytes at_ 256) with
      | (t, .park w pages) => .next (t.notify cx.id w (.launch 0) pages)
      | (t, .bad r) => .next (eaten (t.postEvent k.id 3 r (some k.ridx.toNat)))
      | (t, .ok l) =>
        let t1 := eaten (t.submit { l with view := t.host })
        .next { t1 with holds := t1.holds.map fun h =>
          { h with armed := h.armed.map fun a => if a.queue = q && h.vf = vf && a.launch.isNone then { a with launch := some l.id } else a } }

/-- ERIDX_WRITE (R355, R333). -/
def execEridxWrite (vf q : Nat) (v : Word) (s : State) : Out :=
  let k := s.queue (qid vf q)
  .next (if !s.hasQueue vf q then s else
    (s.putQueue { k with eridx := v, stops := k.stops.filter fun e => decide (v.toNat ≤ e.1) }).postHeld k.id 64)

/-- RESET (R353). -/
def execReset (vf q : Nat) (s : State) : Out :=
  let k := s.queue (qid vf q)
  .next (if k.st ≠ .overrun then s else
    (s.putQueue { k with st := .running, widx := k.ridx, ovidx := 0 }).postEvent k.id 5 k.ridx.toNat none)

/-- CLRLOST (R355). -/
def execClrlost (vf q : Nat) (s : State) : Out :=
  .next (if s.hasQueue vf q then s.putQueue { s.queue (qid vf q) with elost := 0 } else s)

/-- SAVE (R363): of a context that is saved, or being saved or resumed, for a slice or a checkpoint too. (log 41, DEDUCED) -/
def execSave (vf q : Nat) (s : State) : Out :=
  let k := s.queue (qid vf q)
  match s.queueCtx k.id with
  | none => .next s
  | some cx =>
    if !(k.st = .running || k.st = .overrun) then .next s
    else
      let s1 := s.putQueue { k with st := .saving, back := k.st }
      match cx.status with
      | .running => .next (s1.startSave cx.id false false)
      | .saving => .next (s1.onCtx cx.id fun c => { c with quiet := false, ckpt := false })
      | .resuming | .killing => .next s1
      | .saved => .next ((s1.onCtx cx.id fun c => { c with quiet := false, ckpt := false }).putQueue { k with st := .saved, back := k.st } |>.postEvent k.id 11
          (2 ^ 32 * cx.regions.length) none)

/-- RESUME (R363). -/
def execResume (vf q : Nat) (s : State) : Out :=
  let k := s.queue (qid vf q)
  match s.queueCtx k.id with
  | none => .next s
  | some cx =>
    .next (if k.st ≠ .saved then s else
      let s1 := (s.putQueue { k with st := .resuming }).onCtx cx.id fun c => { c with status := .resuming }
      (s1.resumeDone { cx with status := .resuming }).trySaves)

/-- TIME_SLICE_EXPIRY (R363): where the partition's table enables it, the running context is saved and the other, saved so before,
is resumed, without events. (log 45, DEDUCED) (log 48, DESIGN CHOICE) -/
def execTimeSliceExpiry (part old new : Nat) (s : State) : Out :=
  match s.parts[part]? with
  | none => .next s
  | some p =>
    if p.row.slice.isNone then .next s else
      let s1 := match s.ctx? old with
        | some cx => if cx.part = part && cx.status = CtxStatus.running then s.startSave old true false else s
        | none => s
      match s1.ctx? new with
      | some cx =>
        .next (if cx.part = part && cx.status = CtxStatus.saved && cx.quiet then
          (s1.onCtx new fun c => { c with status := .resuming }).resumeDone { cx with status := .resuming } else s1)
      | none => .next s1

/-! Killing a queue (R356 to R359). -/

/-- KILL (R356, R357, R359). The device chooses whether a completion that is due comes first, and whether a save in progress, unless it is a
checkpoint's, is completed first: both are free values; a resumption in progress is abandoned. A write whose page must be brought in first
keeps the queue in state 3. (log 44, DEDUCED) (log 3, DESIGN CHOICE) -/
def execKill (vf q : Nat) (s : State) : Out :=
  let k := s.queue (qid vf q)
  match s.queueCtx k.id with
  | none => .next s
  | some cx =>
    match k.st with
    | .disabled | .killing | .stopped => .next s
    | _ =>
      let s0 := if Config.killWord s.steps then (s.launches.filter (·.ctx = cx.id)).foldl State.complete s else s
      let s1 := s0.putQueue { s0.queue k.id with st := .killing }
      match s1.ctx? cx.id with
      | none => .next s1
      | some cy => .next (if cy.status = .saving && !cy.ckpt && Config.killSave s.steps then s1 else s1.killNow cy)

/-! The line-hold facility (R109, R371). -/

/-- LINE_HOLD_ARM: a write to 0x0F08. (log 44, DEDUCED) -/
def execLineHoldArm (vf n : Nat) (s : State) : Out :=
  let h := s.hold vf
  if !s.hasQueue vf 0 || n = 0 || 1000000 < n then .next s
  else
    let q := h.queue.toNat
    let ok := decide (q < 16) && (s.queue (qid vf q)).st = .running
    .next (s.putHold { h with armed := if ok then some ⟨h.addr, q, n, none⟩ else none })

/-- The line that an armed hold takes: mapped in its queue's context, in a frame of the partition. One of the capacity tier, which no shore
slice has, is held all the same (R139; log 58, DESIGN CHOICE). It is translated when the hold starts, and a page that is away disarms the
facility too (log 46, DEDUCED). -/
def State.holdLine (s : State) (vf : Nat) (a : Armed) : Option Nat :=
  match s.queueCtx (qid vf a.queue) with
  | some cx => (s.leafOf cx a.addr.toNat).bind fun lf =>
      match s.leafOut cx.part a.addr.toNat lf {} with
      | .pass key _ => some (lineOf key)
      | _ => none
  | none => none

/-- A held line is released: its entries are woken (R116), and what else waited for it goes on. (log 46, DEDUCED) -/
def State.holdOver (s : State) (line : Nat) : State :=
  let s1 := (s.lineRelease line).settleAll
  let wake (t : State) (sp : Span) : State := if sp.resident then sp.ferry.foldl (fun (u : State) o => u.ferryRetry sp.id o) t else t
  let s2 := s1.spans.foldl wake s1
  let s3 := { s2 with parts := s2.parts.map fun (p : Partition) => { p with net := p.net.map fun (t : Tree) => { t with closing := false } } }
  let s4 := (List.range s3.parts.length).foldl State.trySnap s3
  (s4.ctxs.foldl (fun (t : State) cx => t.killGo cx.id) s4).trySaves

/-- LINE_HOLD_START: at the first issue of the launch, which waits for it; the hold lasts n pier cycles of 3.6 GHz. A hold of the function
that is in force ends. (log 46, DEDUCED) -/
def execLineHoldStart (vf : Nat) (s : State) : Out :=
  let h := s.hold vf
  match h.armed with
  | none => .next s
  | some a => match a.launch with
    | none => .next s
    | some l =>
      if !s.spans.any (fun sp => sp.launch = l && sp.resident && (s.wordHold sp).isNone) then .next s else
        match s.holdLine vf a, h.on with
        | some line, old =>
          let s1 := s.putHold { h with armed := none, on := some (line, (s.time 0).toNat + (5 * a.count + 17) / 18) }
          .next (match old with | some (n, _) => s1.holdOver n | none => s1)
        | none, _ => .next (s.putHold { h with armed := none })

/-- LINE_HOLD_EXPIRY: the earliest hold whose cycles have passed ends; its line is released (R116). (log 46, DEDUCED) -/
def execLineHoldExpiry (s : State) : Out :=
  match s.holds.find? fun h => match h.on with | some (_, t) => decide (t ≤ (s.time 0).toNat) | none => false with
  | some h => match h.on with
    | some (line, _) => .next ((s.putHold { h with on := none }).holdOver line)
    | none => .next s
  | none => .next s

end Sys2Proof.Machine
end

