-- ==== Sys2Proof/Machine/Package.lean ====
section
/-! DEFINITION. The package: fenced dies (R360), checkpoints (R361 to R365), the partition table (R347 to R349), reset and boot (R345,
R367), attestation (R368), the host's accesses (R150), the mailboxes (R366), the links (R346). -/

namespace Sys2Proof.Machine

/-! Fenced dies (R360). -/

/-- The barriers of a launch that span blocks are broken (R201). -/
def State.breakWide (s : State) (launch : Nat) : State :=
  let keys := (([none, some 0, some 1, some 2, some 3] : List (Option Nat)).map fun d => (List.range 16).map fun n => (⟨launch, none, d, n⟩ : BarKey)).flatten
  keys.foldl (fun (t : State) k => (t.putBar { t.bar k with broken := true }).wakeBar k none true []) s

/-- DIE_FENCE (R360): reason 1 SRAM, 2 HBM, 3 viaduct link, 4 thermal. A launch has blocks on the die when its range gives it some, or a berth
span of it stands there (R306). (log 44, DEDUCED) -/
def execDieFence (die reason : Nat) (s : State) : Out :=
  if s.fenced.contains die || 4 ≤ die then .next s else
    let ls := s.launches.filter fun l => decide (0 < (l.range.getD die (0, 0)).2) ||
      s.blocks.any fun k => k.launch = l.id && k.pier / Config.piersPerDie = die
    let hit (sp : Span) : Bool := sp.die ≠ die && ls.any (·.id = sp.launch)
    let stop (sp : Span) : Span :=
      if sp.die = die && sp.status ≠ .stopped then { sp with status := .dead }
      else if hit sp then sp.record .diefail else sp
    let late (sp : Span) : Span := if hit sp then sp.recordLate .diefail else sp
    let s1 := { s with fenced := s.fenced ++ [die], spans := s.spans.map stop, saved := s.saved.map late
                       picked := match s.picked with | some p => if p / 64 / Config.piersPerDie = die then none else some p | none => none }
    let s2 := ls.foldl (fun (t : State) l => t.breakWide l.id) s1
    let qs := ((ls.filterMap fun l => s.ctx? l.ctx).map (·.queue)).eraseDups
    let s3 := qs.foldl (fun (t : State) q => t.postEvent q 8 (die + 2 ^ 8 * reason) none) s2
    let s4 := if s3.ck.stat.toNat % 8 = 1 then s3.abandonCk 6 else s3
    .next ((s4.spans.filter hit).foldl (fun (t : State) sp => t.settle sp.id) s4)

/-! Checkpoints (R361 to R365). -/

/-- The set that CKPART names. -/
def State.ckSet (s : State) : List Nat := (List.range 16).filter fun p => s.ck.part.getLsbD p

/-- A partition with resources. -/
def State.hasResources (s : State) (p : Nat) : Bool :=
  match s.parts[p]? with
  | some q => !q.row.piers.isEmpty || !q.row.channels.isEmpty
  | none => false

/-- The place of an HBM key in its pseudo-channel, and the key of a place (R344): frames in ascending address. -/
def inChannel (key : Nat) : Nat := key / 2 ^ 23 % 2 ^ 14 * 65536 + key % 65536
def channelKey (c off : Nat) : Nat := c / 128 * 2 ^ 37 + off / 65536 * 2 ^ 23 + c % 64 * 2 ^ 17 + c / 64 % 2 * 65536 + off % 65536

/-- A segment of the region: its kind, partition and index, its length, its listed bytes. -/
structure Segment where
  kind  : Nat
  part  : Nat
  index : Nat
  len   : Nat
  bytes : List (Nat × Byte)

def listBytes (bs : List Byte) : List (Nat × Byte) := imap (fun i b => (i, b)) 0 bs

def Segment.ofBytes (kind part index : Nat) (bs : List Byte) : Segment := ⟨kind, part, index, bs.length, listBytes bs⟩

def FutState.code : FutState → Nat
  | .free => 0 | .queued => 1 | .running => 2 | .done => 3 | .doomed => 4 | .failed => 5

/-- A future entry of 32 bytes (R292). -/
def Future.bytes (f : Future) : List Byte :=
  toBytes 8 f.handle.toNat ++ toBytes 4 f.count ++ toBytes 2 f.wait ++ toBytes 1 f.st.code ++ toBytes 1 0 ++ toBytes 16 f.result.toNat

def QState.code : QState → Nat
  | .disabled => 0 | .running => 1 | .overrun => 2 | .killing => 3 | .stopped => 4 | .saving => 5 | .saved => 6 | .resuming => 7

/-- A queue register block of 256 bytes (R350). -/
def Queue.bytes (q : Queue) : List Byte :=
  [q.rbase, q.rsize, q.widx, q.ridx, q.ebase, q.esize, q.ewidx, q.eridx, 0].foldl (fun bs (w : Word) => bs ++ toBytes 8 w.toNat) [] ++
    toBytes 4 q.st.code ++ toBytes 4 q.elost.toNat ++
    [q.ovidx, q.cinit, q.krep, q.krepsz].foldl (fun bs (w : Word) => bs ++ toBytes 8 w.toNat) [] ++ toBytes 144 0

/-- The capacity pages of a partition that a checkpoint holds, frame and size (R362). -/
def State.guardOf (s : State) (part : Nat) : List (Nat × Nat) :=
  ((s.ctxs.filter (·.part = part)).map fun cx =>
    ((s.leaves cx).filter fun l => l.2.loc = 2 && decide (peerOf l.2.frame = 0)).map fun l => (l.2.frame, 2 ^ l.2.log)).flatten.eraseDups

/-- The segments of one partition. Those of KIND 2 and 6 hold free bytes (log 3, DESIGN CHOICE), no more than the largest zone (R140) and
64 KiB. (log 42, DEDUCED) Those of KIND 3 and 4 hold the entries that are not free, and the records from the head (log 59, DESIGN CHOICE). -/
def State.segments (s : State) (part : Nat) : List Segment :=
  match s.parts[part]? with
  | none => []
  | some p =>
    let channel (c : Nat) : Segment :=
      ⟨1, part, c, 2 ^ 30, (s.mem.filter fun x => decide (x.1 < Config.hbmBytes) && channelOf x.1 = c).map fun x => (inChannel x.1, x.2)⟩
    let ring (i : Nat) : Segment := Segment.ofBytes 4 part i (((s.queued i part true).map fun q => q.body.bytes).flatten)
    p.row.channels.map channel ++ [Segment.ofBytes 2 part 0 (if p.row.zoneSlots.isEmpty then [] else (Config.segmentBytes 2 part s.steps).take (2 ^ 37)),
      Segment.ofBytes 3 part 0 ((((s.futs.filter fun f => f.part = part && f.st ≠ .free)).map Future.bytes).flatten)] ++ p.row.piers.map ring ++
      ((s.queues.filter fun q => q.id / 16 = part).map fun q => Segment.ofBytes 5 part (q.id % 16) q.bytes) ++
      [Segment.ofBytes 6 part 0 ((Config.segmentBytes 6 part s.steps).take 65536),
       Segment.ofBytes 7 part 0 (((s.guardOf part).map fun f => toBytes 8 f.1 ++ toBytes 8 f.1).flatten)]

/-- Where each segment stands, and the bytes of the region in use. -/
def placed (gs : List Segment) : List (Segment × Nat) × Nat :=
  gs.foldl (fun (acc : List (Segment × Nat) × Nat) g => (acc.1 ++ [(g, acc.2)], up 65536 (acc.2 + g.len))) ([], 65536)

def magic : List Byte := [0x50, 0x48, 0x58, 0x43, 0x48, 0x4B, 0x30, 0x31]

/-- The region header (R365). -/
def State.ckHeader (s : State) (gs : List (Segment × Nat)) : List Byte :=
  magic ++ toBytes 8 s.ck.num.toNat ++ toBytes 8 s.ck.part.toNat ++ (s.tsc.map fun t => toBytes 8 t.toNat).flatten ++ toBytes 8 gs.length ++
    padTo 64 ((Config.tableDigest (s.parts.map (·.row))).take 64) ++ toBytes 128 0 ++
    (gs.map fun g => toBytes 8 g.2 ++ toBytes 8 g.1.len ++ toBytes 1 g.1.kind ++ toBytes 1 g.1.part ++ toBytes 2 g.1.index ++ toBytes 12 0).flatten

/-- What the device keeps beside the region. -/
def State.ckImage (s : State) (set : List Nat) (guard : List (Nat × Nat)) : CkImage :=
  let ctxs := s.ctxs.filter fun c => set.contains c.part
  let ls := s.launches.filter fun l => set.contains l.part
  let ids := ls.map (·.id)
  let sps := s.saved.filter fun sp => set.contains sp.part
  let zone := ((List.range s.parts.length).filter set.contains).map fun p => match s.parts[p]? with | some q => q.row.zoneSlots | none => []
  { base := s.ck.base.toNat, num := s.ck.num, set := set, table := s.parts.map (·.row), tsc := s.tsc
    parts := set.filterMap fun p => (s.parts[p]?).map fun q => (p, q)
    ctxs := ctxs, queues := s.queues.filter fun q => set.contains (q.id / 16), launches := ls
    blocks := s.blocks.filter fun k => ids.contains k.launch, saved := sps, bars := s.bars.filter fun b => ids.contains b.key.launch
    planeq := s.planeq.filter fun o => sps.any (·.uid = o.uid), futs := s.futs.filter fun f => set.contains f.part
    refs := s.refs.filter fun r => set.contains (handlePart r.handle), fmsgs := s.fmsgs.filter fun m => sps.any (·.uid = m.uid)
    taskq := s.taskq.filter fun q => set.contains q.part, berths := s.berths.filter fun b => set.contains b.part
    rings := s.rings.filter fun r => set.any fun p => (s.parts[p]?).any (·.row.piers.contains r.1)
    zone := s.mem.filter fun x => decide (zoneBase ≤ x.1) && decide (x.1 < hostBase) && zone.flatten.contains ((x.1 - zoneBase) / zoneStep)
    guard := guard }

/-- The region is large enough, and lies in the capacity tier: else reason 2 (R364; log 59, DESIGN CHOICE). -/
def State.ckFits (s : State) (used : Nat) : Bool := decide (used ≤ s.ck.size.toNat) && decide (s.ck.base.toNat + s.ck.size.toNat ≤ s.tierSize)

/-- The copy (steps 3 to 5): the contexts of the partitions resume with it. Frames kept for an earlier checkpoint stay until RELEASE. The
header comes last, a release at system scope (R365), by no span, with the counter of die 0; no copy of what the region held before is
left. (log 42, DEDUCED) -/
def State.takeCopy (s0 : State) (set : List Nat) : State :=
  let s := s0.mergeAll fun h => set.contains h.part
  let (gs, used) := placed (set.map s.segments).flatten
  if !s.ckFits used || 2040 < gs.length then s.abandonCk 2 else
    let guard := (set.map s.guardOf).flatten.eraseDups
    let base := capBase + s.ck.base.toNat
    let s1 := gs.foldl (fun (t : State) g => t.fillRange (base + g.2) (up 65536 g.1.len) g.1.bytes) (s.freshRange base used)
    let s2 := s1.poke base (padTo 65536 (s.ckHeader gs))
    let s3 := { s2.announce none base 65536 [(.sys, [])] (dieParty 0) with
      ckpts := s.ckImage set guard :: s2.ckpts.filter (·.base ≠ s.ck.base.toNat)
      ckGuard := (s2.ckGuard ++ guard).eraseDups, tlb := s2.tlb.filter fun t => !(set.contains t.part && decide (capBase ≤ t.frame))
      ck := { s2.ck with stat := 2, used := BitVec.ofNat 64 used }
      ctxs := s2.ctxs.map fun (c : Context) => if c.ckpt then { c with status := .resuming } else c }
    (s3.ctxs.filter (·.ckpt)).foldl State.resumeDone (s3.postCk set 0)

/-- The state of the contexts of a checkpoint: those that run are saved, and the copy follows when all are. (log 42, DEDUCED) -/
def State.takeGo (s : State) (set : List Nat) : State :=
  let s1 := (s.ctxs.filter fun c => set.contains c.part && c.status = .running).foldl (fun (t : State) c => t.startSave c.id true true) s
  if s1.ck.stat.toNat % 8 = 1 && (s1.ctxs.filter fun c => set.contains c.part).all (·.status = .saved) &&
      !s1.shadows.any (fun h => set.contains h.part && s1.lineHeld h.line) &&
      !s1.moves.any (fun m => match s1.ctx? m.ctx with | some c => set.contains c.part | none => false) then s1.takeCopy set
  else s1

/-- TAKE (R361, R364): the command, or the next stage of the one that runs. (log 42, DEDUCED) -/
def execTake (s : State) : Out :=
  let set := s.ckSet
  if s.ck.stat.toNat % 8 = 1 then .next (if s.ck.restores.isEmpty then s.takeGo set else s.ckBusy)
  else if s.boot ≠ .running then .next s
  else if set.isEmpty || !set.all s.hasResources then .next (s.ckStat 3 3)
  else if !s.ckFits (placed (set.map s.segments).flatten).2 then .next (s.ckStat 3 2)
  else .next ((s.ckStat 1 0).takeGo set)

/-- A partition's frames and compressed pages as the checkpoint has them. -/
def State.restoreFrames (s : State) (img : CkImage) : State :=
  let base := capBase + img.base
  let rows := img.parts.map (·.2.row)
  let chans := (rows.map (·.channels)).flatten
  let slots := (rows.map (·.zoneSlots)).flatten
  let n := s.nat (base + 0x38) 8
  let segs := (List.range (min n 2040)).filterMap fun i =>
    let at_ := base + 0x100 + 32 * i
    if s.nat (at_ + 16) 1 = 1 then some (s.nat (at_ + 18) 2, s.nat at_ 8) else none
  let cells := (segs.map fun g => (s.listed (base + g.2) (2 ^ 30)).map fun x => (channelKey g.1 x.1, x.2)).flatten
  let bare := s.mem.filter fun x => !(decide (x.1 < Config.hbmBytes) && chans.contains (channelOf x.1)) &&
    !(decide (zoneBase ≤ x.1) && decide (x.1 < hostBase) && slots.contains ((x.1 - zoneBase) / zoneStep))
  { s with mem := (cells ++ img.zone).foldl (fun m x => sput 0 m x.1 x.2) bare }

/-- The objects of the partitions as the checkpoint has them; its contexts resume (R45, R362). A write of a tree's root that waited is tried
again (R342). Frames kept for a checkpoint that the tables name again are guarded; the others stay kept until RELEASE. (log 42, DEDUCED) -/
def State.restoreObjects (s : State) (img : CkImage) : State :=
  let inSet (p : Nat) : Bool := img.set.contains p
  let old := (s.ctxs.filter fun c => inSet c.part).map (·.id)
  let oldL := (s.launches.filter fun l => inSet l.part).map (·.id)
  let oldU := ((s.spans ++ s.saved).filter fun sp => inSet sp.part).map (·.uid)
  let piers := (img.parts.map fun p => p.2.row.piers).flatten
  let chans := (img.parts.map fun p => p.2.row.channels).flatten
  let wake (c : Context) : Context := if c.ckpt then { c with status := .resuming } else c
  { s with
    tsc := List.zipWith (fun (a b : Word) => if a.toNat < b.toNat + 1 then b + 1 else a) s.tsc img.tsc
    parts := imap (fun i (p : Partition) => match img.parts.find? (·.1 = i) with
      | some q => { q.2 with net := q.2.net.map fun (t : Tree) => { t with closing := false } }
      | none => p) 0 s.parts
    ctxs := s.ctxs.filter (fun c => !inSet c.part) ++ img.ctxs.map wake
    queues := s.queues.filter (fun q => !inSet (q.id / 16)) ++ img.queues
    launches := s.launches.filter (fun l => !inSet l.part) ++ img.launches
    blocks := s.blocks.filter (fun k => !oldL.contains k.launch) ++ img.blocks
    spans := s.spans.filter fun sp => !inSet sp.part
    saved := s.saved.filter (fun sp => !inSet sp.part) ++ img.saved
    bars := s.bars.filter (fun b => !oldL.contains b.key.launch) ++ img.bars
    planeq := s.planeq.filter (fun o => !oldU.contains o.uid) ++ img.planeq
    deckq := s.deckq.filter fun r => !oldU.contains r.uid
    futs := s.futs.filter (fun f => !inSet f.part) ++ img.futs
    refs := s.refs.filter (fun r => !inSet (handlePart r.handle)) ++ img.refs
    fmsgs := s.fmsgs.filter (fun m => !oldU.contains m.uid) ++ img.fmsgs
    taskq := s.taskq.filter (fun q => !inSet q.part) ++ img.taskq
    berths := s.berths.filter (fun b => !inSet b.part) ++ img.berths
    notices := s.notices.filter fun n => !old.contains n.ctx
    moves := s.moves.filter fun m => !old.contains m.ctx
    locked := s.locked.filter fun r => !s.moves.any fun m => old.contains m.ctx && placeKey m.oldLoc m.old = r.1
    shoots := s.shoots.filter fun d => !inSet d.part
    shadows := s.shadows.filter fun h => !inSet h.part
    streams := s.streams.filter fun x => !old.contains x.ctx
    tlb := s.tlb.filter fun t => !inSet t.part
    l1 := s.l1.filter fun c => !piers.contains c.pier
    picked := match s.picked with | some p => if piers.contains (p / 64) then none else some p | none => none
    msgs := s.msgs.filter fun m => !(m.deck.isNone && decide (m.at_ < Config.hbmBytes) && chans.contains (channelOf m.at_))
    engineAt := s.engineAt.filter fun e => !piers.contains e.1
    rings := s.rings.filter (fun r => !piers.contains r.1) ++ img.rings
    kept := s.kept.filter fun k => !overlapsAny k.1 65536 img.guard
    ckGuard := (s.ckGuard ++ img.guard).eraseDups }

/-- RESTORE (R362, R364, R365): it runs until each context has resumed. (log 42, DEDUCED) -/
def execRestore (s : State) : Out :=
  let base := capBase + s.ck.base.toNat
  let rows := s.parts.map (·.row)
  let set := s.ckSet
  if s.boot ≠ .running then .next s
  else if s.ck.stat.toNat % 8 = 1 then .next s.ckBusy
  else if set.isEmpty || !set.all s.hasResources then .next (s.ckStat 3 3)
  else if s.bytes base 8 ≠ magic || 2040 < s.nat (base + 0x38) 8 then .next (s.ckStat 3 5)
  else if s.bytes (base + 0x40) 64 ≠ padTo 64 ((Config.tableDigest rows).take 64) then .next (s.ckStat 3 4)
  else match s.ckpts.find? fun i => i.base = s.ck.base.toNat && i.num.toNat = s.nat (base + 8) 8 with
    | none => .next (s.ckStat 3 5)
    | some img =>
      if img.table ≠ rows then .next (s.ckStat 3 4) else
        let s0 := ((s.restoreFrames img).restoreObjects img).ckStat 1 0
        let s1 := { s0 with ck := { s0.ck with restores := img.set } }
        .next ((s1.ctxs.filter fun c => c.ckpt && c.status = .resuming).foldl State.resumeDone s1).restoreDone

/-- RELEASE (R362, R364): of every checkpoint (log 59, DESIGN CHOICE). -/
def execRelease (s : State) : Out :=
  .next (if s.boot ≠ .running then s else if s.ck.stat.toNat % 8 = 1 then s.ckBusy else ({ s with kept := [], ckGuard := [] }).ckStat 2 0)

/-! The partition table (R347 to R349). -/

/-- Does no unit stand in two rows? -/
def oneOwner {α : Type} [DecidableEq α] (xs : List (List α)) : Bool := decide (xs.flatten.eraseDups.length = xs.flatten.length)

/-- A row without resources. -/
def rowBare (r : PartRow) : Bool := r.piers.isEmpty && r.channels.isEmpty

/-- The fixed shares of a row: of a capacity port's requests, a Sheund port's chunks, the migration engine and the fault service, at least
16 each, out of what there is; and of the entries and the chain marks of each of the eight kinds of shared queues (R129), whose sizes the
manual does not give. -/
def sharesOk (t : List PartRow) : Bool :=
  let used := t.filter (!rowBare ·)
  used.all (fun r => decide (r.shares.length = 4) && r.shares.all (decide <| 16 ≤ ·) && decide (r.queues.length = 8)) &&
    (imap (fun i (n : Nat) => decide ((used.map fun r => r.shares.getD i 0).sum ≤ n)) 0 [1024, 256, 1024, 1024]).all id

/-- The time slots of a row: of the router ports of the viaduct and of the links of the 12 capacity and the 12 Sheund ports, each in frames of
64 cycles; its ways of the slices and its sets of the last-level TLB of each die. -/
def unitsOk (r : PartRow) : Bool :=
  r.viaSlots.all (fun x => decide (x.2 < 64)) && r.linkSlots.all (fun x => decide (x.1 < 24) && decide (x.2 < 64)) &&
    r.ways.all (fun x => decide (x.1 < Config.dies) && decide (x.2 < 24)) && r.tlbSets.all (fun x => decide (x.1 < Config.dies) && decide (x.2 < 16))

/-- The zone's slots go with the pseudo-channels (R140). -/
def slotsOk (s : State) (t : List PartRow) : Bool :=
  t.all fun r => r.zoneSlots.all (decide <| · < s.zoneSlots) && decide (r.zoneSlots.length = r.channels.length * s.zoneSlots / 512)

/-- The future-table SRAM of a die and the table in HBM (R291). -/
def entriesOk (t : List PartRow) : Bool :=
  decide ((t.map (·.entrySram)).sum ≤ 262144) && t.all fun r => decide (r.entryCap ≤ 16777216)

/-- A table that the device takes (R347): each unit has one owner at most. Of a range of capacity frames, those of excluded ports are not
given (R345). -/
def tableOk (s : State) (t : List PartRow) : Bool :=
  let ranges := (t.map (·.capFrames)).flatten
  decide (t.length ≤ 16) && sharesOk t && slotsOk s t && entriesOk t && oneOwner (t.map (·.ways)) && oneOwner (t.map (·.tlbSets)) &&
    oneOwner (t.map (·.viaSlots)) && oneOwner (t.map (·.linkSlots)) && t.all unitsOk && oneOwner (t.map (·.piers)) && oneOwner (t.map (·.channels)) && oneOwner (t.map (·.zoneSlots)) &&
    t.all (fun r => r.piers.all (decide <| · < Config.piers) && r.channels.all (decide <| · < 512)) &&
    ranges.all (fun r => decide (r.1 % 65536 = 0) && decide (r.2 % 65536 = 0) && decide (r.1 + r.2 ≤ s.tierSize)) &&
    (imap (fun i (a : Nat × Nat) => (imap (fun j (b : Nat × Nat) => decide (j ≤ i) || decide (a.1 + a.2 ≤ b.1) || decide (b.1 + b.2 ≤ a.1)) 0 ranges).all id) 0 ranges).all id

/-- The owner of a unit in a table. -/
def ownerIn (t : List PartRow) (f : PartRow → Bool) : Option Nat := (List.range t.length).find? fun i => (t[i]?).any f

/-- The zone slot of a key: that of its 64 KiB of its page (R140). -/
def slotOf (key : Nat) : Nat := (slotsOf ((key - zoneBase) / zoneStep) zoneStep).getD ((key - zoneBase) % zoneStep / 65536) 0

/-- Does a memory byte pass to another owner? -/
def passes (old new : List PartRow) (key : Nat) : Bool :=
  let moved (f : PartRow → Bool) : Bool := ownerIn old f ≠ ownerIn new f
  if key < Config.hbmBytes then moved fun r => r.channels.contains (channelOf key)
  else if capBase ≤ key && key < zoneBase then moved fun r => r.capFrames.any fun x => decide (x.1 ≤ key - capBase) && decide (key - capBase < x.1 + x.2)
  else if zoneBase ≤ key && key < hostBase then moved fun r => r.zoneSlots.contains (slotOf key)
  else false

/-- Does a move that is under way read or write a frame, or the leaf, of a partition that loses it? The table waits for it. (log 45, DEDUCED) -/
def Move.passes (old new : List PartRow) (m : Move) : Bool :=
  let part (loc place : Nat) : Bool := (List.range (2 ^ m.size / 65536)).any fun i => Sys2Proof.Machine.passes old new (placeKey loc place + 65536 * i)
  part m.oldLoc m.old || part m.newLoc m.new || Sys2Proof.Machine.passes old new m.leaf

/-- Does future space of a partition pass to another: of the SRAM of a die, or of HBM, where its table stands (R291, R349)? (log 45, DEDUCED) -/
def spacePasses (old new : List PartRow) (p : Nat) : Bool :=
  match old[p]?, new[p]? with
  | some a, some b =>
    let gains := (List.range new.length).any fun q => decide (q ≠ p) && decide (((old[q]?).map PartRow.entrySram).getD 0 < ((new[q]?).map PartRow.entrySram).getD 0)
    (decide (b.entrySram < a.entrySram) && gains) || a.channels.any fun c => (ownerIn new fun r => r.channels.contains c).any (· ≠ p)
  | _, _ => false

/-- A partition that starts takes the registers of its firmware table (R351); another keeps its own. (log 6, DESIGN CHOICE) -/
def startPart (old : Option Partition) (r : PartRow) : Partition :=
  let fresh := r.regs.foldl (fun (q : Partition) e => if e.1 = 0x09 then { q with trees := e.2 } else q.setReg e.1 e.2) { row := r }
  match old with
  | some p => if rowBare p.row then fresh else { p with row := r }
  | none => fresh

/-- The pier of a counter's key. -/
def ctrPier (key : Nat) : Nat :=
  let place := key / 64 % 2 ^ 16
  match key / 64 / 2 ^ 16 with
  | 0 => place / 4
  | 3 => place / 64
  | _ => place

/-- PARTITION_TABLE_WRITE (R347 to R349): only while every context of the partitions that change is saved by SAVE, checkpointed or killed.
What passes to another partition is zeroed, its shadow lines merged before it; of the free entries of a partition whose future space
passes to another, those that stood there have SERIAL 1 again (R290), which is the device's choice (log 3, DESIGN CHOICE); the counters of
a pier begin again (R339). (log 6, DESIGN CHOICE) (log 45, DEDUCED) (log 48, DESIGN CHOICE) -/
def execPartitionTableWrite (table : List PartRow) (s : State) : Out :=
  let old := s.parts.map (·.row)
  let changed (p : Nat) : Bool := old[p]? ≠ table[p]?
  let busy := s.ctxs.any fun c => changed c.part && !(c.status = .saved && (!c.quiet || c.ckpt))
  if s.boot ≠ .running || !tableOk s table || busy || s.shadows.any (fun h => passes old table (64 * h.line) && s.lineHeld h.line) ||
      s.moves.any (·.passes old table) then .next s else
    let pierMoved (i : Nat) : Bool := ownerIn old (fun r => r.piers.contains i) ≠ ownerIn table (fun r => r.piers.contains i)
    let lost := (s.taskq.filter fun q => pierMoved q.pier).map (·.body) ++ ((s.berths.filter fun b => pierMoved b.pier).map (·.recs)).flatten
    let s1 := lost.foldl (fun (t : State) r => t.discard r true) (s.mergeAll fun h => passes old table (64 * h.line))
    .next { s1 with
      parts := imap (fun i r => startPart s.parts[i]? r) 0 table
      mem := s1.mem.filter fun x => !passes old table x.1
      tlb := s1.tlb.filter fun t => !changed t.part
      l1 := s1.l1.filter fun c => !pierMoved c.pier
      icache := s1.icache.filter fun c => !pierMoved c.1
      streams := s1.streams.filter fun (n : Stream) => !pierMoved n.pier
      ctrs := s1.ctrs.filter fun c => !pierMoved (ctrPier c.1)
      msgs := s1.msgs.filter fun m => !(m.deck.isNone && passes old table m.at_)
      taskq := s1.taskq.filter fun q => !pierMoved q.pier
      berths := s1.berths.filter fun b => !pierMoved b.pier
      futs := s1.futs.filter fun (f : Future) => decide (f.part < table.length) &&
        !(f.st = .free && spacePasses old table f.part && Config.slotPasses s.steps f.die f.slot) }

/-! Reset and boot (R345, R367). -/

/-- An image that may be loaded. -/
def goodImage (rollback : Nat) (i : Image) : Bool := i.signed && i.keyHash && decide (rollback ≤ i.version)

/-- The size of the capacity tier: 12 times the smallest expander, a multiple of 768 KiB, at most 16 TiB. -/
def tierOf (ports : List (Option Nat)) : Nat :=
  match ports.filterMap id with
  | [] => 0
  | a :: r => min (2 ^ 44) (12 * r.foldl min a) / 786432 * 786432

def zoneOf (gib : Nat) : Nat := min 128 (gib / 8 * 8)

/-- DEVICE_RESET (R345, R367): the images are checked, the ports trained; what memory holds stays, and so does what a checkpoint region says
(log 14, DEDUCED). (log 6, DESIGN CHOICE) -/
def execDeviceReset (boot : Boot) (s : State) : Out :=
  let ok := [boot.hypervisor, boot.baseDie, boot.tables].all (goodImage boot.rollback)
  let t : State := { State.reset with agenda := s.agenda, steps := s.steps, uid := s.uid, mem := s.mem, ckpts := s.ckpts, rollback := boot.rollback }
  .next (if ok then
    { t with
      boot := .running
      measures := [(1, boot.rom), (2, boot.hypervisor.digest), (3, boot.baseDie.digest), (4, boot.tables.digest)]
      zoneGiB := zoneOf boot.zoneGiB
      dead := (List.range 12).filter fun i => (boot.ports.getD i none).isNone
      tierSize := tierOf (boot.ports.take 12)
      peers := boot.peers }
  else { t with boot := .recovery })

/-! Attestation (R368). Function 16 is the physical function. -/

/-- (log 45, DEDUCED) -/
def State.hasFunction (s : State) (fn : Nat) : Bool := s.boot = .running && (fn = 16 || (s.parts[fn]?).isSome)

/-- An answer in the mailbox. -/
def State.answerWith (s : State) (fn : Nat) (kind : String) (bytes : List Byte) : Out :=
  .next (if s.hasFunction fn then { s with out := s.out ++ [.spdm fn kind bytes] } else s)

/-- An answer whose bytes are free. -/
def State.answer (s : State) (fn : Nat) (kind : String) : Out := s.answerWith fn kind (Config.spdmBytes s.steps)

/-- GET_VERSION: one entry, SPDM 1.2, in the layout of DMTF's VERSION (log 15, PRESUMED). -/
def execGetVersion (fn : Nat) (s : State) : Out := s.answerWith fn "VERSION" [0x10, 0x04, 0, 0, 0, 1, 0x00, 0x12]

/-- GET_CAPABILITIES: certificates, challenges and signed measurements, no key exchange, no encryption, no sessions, in the layout of DMTF's
CAPABILITIES (log 15, PRESUMED); the timeout exponent and the two message sizes are free. -/
def execGetCapabilities (fn : Nat) (s : State) : Out :=
  let free := padTo 9 ((Config.spdmBytes s.steps).take 9)
  s.answerWith fn "CAPABILITIES" ([0x12, 0x61, 0, 0, 0] ++ free.take 1 ++ [0, 0, 0x16, 0, 0, 0] ++ free.drop 1)

/-- ALGORITHMS in DMTF's layout (log 15, PRESUMED): measurements with SHA-512, ECDSA on P-521, SHA-512. -/
def algorithms : List Byte :=
  [0x12, 0x63, 0, 0, 36, 0, 1, 0] ++ toBytes 4 8 ++ toBytes 4 0x100 ++ toBytes 4 4 ++ toBytes 12 0 ++ [0, 0, 0, 0]

/-- NEGOTIATE_ALGORITHMS: the requester must offer ECDSA on P-521 (bit 8) and SHA-512 (bit 2); the bits are DMTF's (log 15, PRESUMED). -/
def execNegotiateAlgorithms (fn sign hash : Nat) (s : State) : Out :=
  if sign / 2 ^ 8 % 2 = 1 && hash / 2 ^ 2 % 2 = 1 then s.answerWith fn "ALGORITHMS" algorithms else s.answer fn "ERROR"

/-- GET_DIGESTS. -/
def execGetDigests (fn : Nat) (s : State) : Out := s.answer fn "DIGESTS"

/-- GET_CERTIFICATE: a portion of the chain. -/
def execGetCertificate (fn _off _len : Nat) (s : State) : Out := s.answer fn "CERTIFICATE"

/-- CHALLENGE: signed with the device identity key, which no one sees. -/
def execChallenge (fn : Nat) (_nonce : List Byte) (s : State) : Out := s.answer fn "CHALLENGE_AUTH"

/-- A measurement by its index. -/
def State.measure (s : State) (fn idx : Nat) : Option (List Byte) :=
  if idx = 5 then (s.parts[fn]?).map fun p => Config.tableDigest [p.row]
  else (s.measures.find? (·.1 = idx)).map (·.2)

/-- GET_MEASUREMENTS. -/
def execGetMeasurements (fn idx : Nat) (s : State) : Out :=
  match s.measure fn idx with
  | some d => .next (if s.hasFunction fn then { s with out := s.out ++ [.spdm fn "MEASUREMENTS" d] } else s)
  | none => s.answer fn "ERROR"

/-! The host and the links. -/

/-- Does some memory of the device or of the host have these bytes? -/
def State.hasBytes (s : State) (a n : Nat) : Bool :=
  decide (a + n ≤ Config.hbmBytes) || (decide (capBase ≤ a) && decide (a + n ≤ capBase + s.tierSize)) ||
    (decide (hostBase ≤ a) && decide (a + n ≤ hostBase + 2 ^ 64))

/-- A line of the range that a move or a hold keeps from being reached. -/
def State.rangeBusy (s : State) (a n : Nat) : Bool :=
  s.locked.any (fun r => decide (r.1 < a + n) && decide (a < r.1 + r.2)) ||
    s.holds.any fun h => match h.on with | some (l, _) => decide (64 * l < a + n) && decide (a < 64 * l + 64) | none => false

/-- HOST_ACCESS (R150, R155, R344, R360, R367): performed whole, a write as a release at system scope, a read as an
acquire of it; on a fenced die a write has no effect and
a read finds 0; where an image was refused the device's memory is out of reach. (log 44, DEDUCED) -/
def execHostAccess (acc : HostAcc) (s : State) : Out :=
  let (a, n) := match acc with | .read a n => (a, n) | .write a bs => (a, bs.length)
  let fenced := (homeDie a).any s.fenced.contains
  if !s.hasBytes a n then .fault (.noSuchAddress a)
  else if s.rangeBusy a n || (s.boot = .recovery && decide (a < hostBase)) then .next s
  else match acc with
    | .read a n =>
      let met := (s.standing none a n).filter fun m => joins m.scope m.from_ {}
      let s1 := if fenced then s else met.foldl (fun (t : State) m => t.tellHost m.view m.tsc) (s.tellHost (s.known a n s.steps) 0)
      .next { s1 with out := s.out ++ [.memory (if fenced then List.replicate n 0 else s.bytes a n)] }
    | .write a bs =>
      let s1 := s.poke a bs
      let s2 := s1.tellHost (s1.known a bs.length s1.steps) 0
      .next (if fenced then s else s2.announce none a bs.length [(.sys, s2.host)] {})

/-- SHEUND_LINK_DOWN (R346). -/
def execSheundLinkDown (port : Nat) (s : State) : Out := .next (if s.down.contains port then s else { s with down := s.down ++ [port] })

/-- MAILBOX_REQUEST (R366, R367): the hypervisor core answers, or, where an image was refused, the recovery mailbox. (log 48, DESIGN CHOICE) -/
def execMailboxRequest (fn : Nat) (_msg : List Byte) (s : State) : Out :=
  .next (if fn ≠ 16 then s else match s.boot with
    | .reset => s
    | .recovery => { s with out := s.out ++ [.mailbox fn true (Config.mailboxBytes s.steps)] }
    | .running => { s with out := s.out ++ [.mailbox fn false (Config.mailboxBytes s.steps)] })

end Sys2Proof.Machine
end

