-- ==== Sys2Proof/Machine/Paired.lean ====
section
/-! DEFINITION. Paired words (R68 to R72): two halves over one issuing set, all operands read before either half writes. -/

namespace Sys2Proof.Machine

/-- Operand B of a half at width `w` (R68, R69). -/
def HalfF.opB (sp : Span) (f : HalfF) (w l : Nat) : BitVec w :=
  match f.k.toNat with
  | 0 => sp.src w false f.b l
  | 1 => sp.src w true f.b l
  | 2 => f.b.setWidth w
  | _ => f.b.signExtend w

/-- The function of a 32-bit compact opcode on D and B (R72), rounding RNE (R69). -/
def cop32 (c : Cop) (d b : BitVec 32) : BitVec 32 :=
  let s32 (f : Fn2) := f 32 true d b
  let n32 (f : Fn2) := f 32 false d b
  let flt (ty : Ty) (f : Fmt → Nat → Nat → Nat) := eachElem ty (fun x y _ => f (fmtOf ty) x y) d b 0
  match c with
  | .addS32 => s32 fAdd | .subS32 => s32 fSub | .addsS32 => s32 fAdds | .subsS32 => s32 fSubs | .mulS32 => s32 fMul
  | .minS32 => s32 fMin | .maxS32 => s32 fMax | .minN32 => n32 fMin | .maxN32 => n32 fMax
  | .andB32 => n32 fAnd | .orB32 => n32 fOr | .xorB32 => n32 fXor | .andnB32 => n32 fAndn
  | .shlB32 => n32 fShl | .shrB32 => n32 fShr | .shaB32 => n32 fSha | .rotB32 => n32 fRot | .movB32 => b
  | .faddF32 => flt .f32 (fadd · 0) | .fmulF32 => flt .f32 (fmul · 0)
  | .fminF32 => flt .f32 (fminmax · false true) | .fmaxF32 => flt .f32 (fminmax · true true)
  | .faddBf16x2 => flt .bf16x2 (fadd · 0) | .fmulBf16x2 => flt .bf16x2 (fmul · 0)
  | .fminBf16x2 => flt .bf16x2 (fminmax · false true) | .fmaxBf16x2 => flt .bf16x2 (fminmax · true true)
  | .faddF16x2 => flt .f16x2 (fadd · 0) | .fmulF16x2 => flt .f16x2 (fmul · 0)
  | .fminF16x2 => flt .f16x2 (fminmax · false true) | .fmaxF16x2 => flt .f16x2 (fminmax · true true)
  | .addS64 | .subS64 | .andB64 | .orB64 | .xorB64 | .shlB64 | .shrB64 | .shaB64 | .movB64 | .nop => d

/-- The function of a 64-bit compact opcode (R72). -/
def cop64 (c : Cop) (d b : BitVec 64) : BitVec 64 :=
  match c with
  | .addS64 => fAdd 64 true d b | .subS64 => fSub 64 true d b | .andB64 => fAnd 64 false d b | .orB64 => fOr 64 false d b
  | .xorB64 => fXor 64 false d b | .shlB64 => fShl 64 false d b | .shrB64 => fShr 64 false d b | .shaB64 => fSha 64 false d b
  | .movB64 => b
  | _ => d

/-- One half in one lane: operands from `src`, the result into `sp`. -/
def Half.inLane (src : Span) (h : Half) (l : Nat) (sp : Span) : Span :=
  if h.cop = .nop || !src.guard { guard := h.f.guard } l then sp
  else if h.cop.wide then sp.setV64 h.f.d.toNat l (cop64 h.cop (src.v64 h.f.d.toNat l) (HalfF.opB src h.f 64 l))
  else sp.setV h.f.d.toNat l (cop32 h.cop (src.v h.f.d.toNat l) (HalfF.opB src h.f 32 l))

/-- A paired word whose first half has the compact opcode `c` (R69). -/
def pairOp (i : Instr) (c : Cop) (x : Pair) (s : State) : Out :=
  regOp i {} (fun i sp => i.I.foldl (fun t l => Half.inLane i.sp x.h1 l (Half.inLane i.sp ⟨c, x.h0⟩ l t)) sp) s

/-- A paired word, first half addS32 (R72). -/
def execHalfAddS32 (x : Pair) (s : State) : Out := pairOp (.halfAddS32 x) .addS32 x s
/-- A paired word, first half subS32 (R72). -/
def execHalfSubS32 (x : Pair) (s : State) : Out := pairOp (.halfSubS32 x) .subS32 x s
/-- A paired word, first half addsS32 (R72). -/
def execHalfAddsS32 (x : Pair) (s : State) : Out := pairOp (.halfAddsS32 x) .addsS32 x s
/-- A paired word, first half subsS32 (R72). -/
def execHalfSubsS32 (x : Pair) (s : State) : Out := pairOp (.halfSubsS32 x) .subsS32 x s
/-- A paired word, first half mulS32 (R72). -/
def execHalfMulS32 (x : Pair) (s : State) : Out := pairOp (.halfMulS32 x) .mulS32 x s
/-- A paired word, first half minS32 (R72). -/
def execHalfMinS32 (x : Pair) (s : State) : Out := pairOp (.halfMinS32 x) .minS32 x s
/-- A paired word, first half maxS32 (R72). -/
def execHalfMaxS32 (x : Pair) (s : State) : Out := pairOp (.halfMaxS32 x) .maxS32 x s
/-- A paired word, first half minN32 (R72). -/
def execHalfMinN32 (x : Pair) (s : State) : Out := pairOp (.halfMinN32 x) .minN32 x s
/-- A paired word, first half maxN32 (R72). -/
def execHalfMaxN32 (x : Pair) (s : State) : Out := pairOp (.halfMaxN32 x) .maxN32 x s
/-- A paired word, first half andB32 (R72). -/
def execHalfAndB32 (x : Pair) (s : State) : Out := pairOp (.halfAndB32 x) .andB32 x s
/-- A paired word, first half orB32 (R72). -/
def execHalfOrB32 (x : Pair) (s : State) : Out := pairOp (.halfOrB32 x) .orB32 x s
/-- A paired word, first half xorB32 (R72). -/
def execHalfXorB32 (x : Pair) (s : State) : Out := pairOp (.halfXorB32 x) .xorB32 x s
/-- A paired word, first half andnB32 (R72). -/
def execHalfAndnB32 (x : Pair) (s : State) : Out := pairOp (.halfAndnB32 x) .andnB32 x s
/-- A paired word, first half shlB32 (R72). -/
def execHalfShlB32 (x : Pair) (s : State) : Out := pairOp (.halfShlB32 x) .shlB32 x s
/-- A paired word, first half shrB32 (R72). -/
def execHalfShrB32 (x : Pair) (s : State) : Out := pairOp (.halfShrB32 x) .shrB32 x s
/-- A paired word, first half shaB32 (R72). -/
def execHalfShaB32 (x : Pair) (s : State) : Out := pairOp (.halfShaB32 x) .shaB32 x s
/-- A paired word, first half rotB32 (R72). -/
def execHalfRotB32 (x : Pair) (s : State) : Out := pairOp (.halfRotB32 x) .rotB32 x s
/-- A paired word, first half movB32 (R72). -/
def execHalfMovB32 (x : Pair) (s : State) : Out := pairOp (.halfMovB32 x) .movB32 x s
/-- A paired word, first half addS64 (R72). -/
def execHalfAddS64 (x : Pair) (s : State) : Out := pairOp (.halfAddS64 x) .addS64 x s
/-- A paired word, first half subS64 (R72). -/
def execHalfSubS64 (x : Pair) (s : State) : Out := pairOp (.halfSubS64 x) .subS64 x s
/-- A paired word, first half andB64 (R72). -/
def execHalfAndB64 (x : Pair) (s : State) : Out := pairOp (.halfAndB64 x) .andB64 x s
/-- A paired word, first half orB64 (R72). -/
def execHalfOrB64 (x : Pair) (s : State) : Out := pairOp (.halfOrB64 x) .orB64 x s
/-- A paired word, first half xorB64 (R72). -/
def execHalfXorB64 (x : Pair) (s : State) : Out := pairOp (.halfXorB64 x) .xorB64 x s
/-- A paired word, first half shlB64 (R72). -/
def execHalfShlB64 (x : Pair) (s : State) : Out := pairOp (.halfShlB64 x) .shlB64 x s
/-- A paired word, first half shrB64 (R72). -/
def execHalfShrB64 (x : Pair) (s : State) : Out := pairOp (.halfShrB64 x) .shrB64 x s
/-- A paired word, first half shaB64 (R72). -/
def execHalfShaB64 (x : Pair) (s : State) : Out := pairOp (.halfShaB64 x) .shaB64 x s
/-- A paired word, first half movB64 (R72). -/
def execHalfMovB64 (x : Pair) (s : State) : Out := pairOp (.halfMovB64 x) .movB64 x s
/-- A paired word, first half faddF32 (R72). -/
def execHalfFaddF32 (x : Pair) (s : State) : Out := pairOp (.halfFaddF32 x) .faddF32 x s
/-- A paired word, first half fmulF32 (R72). -/
def execHalfFmulF32 (x : Pair) (s : State) : Out := pairOp (.halfFmulF32 x) .fmulF32 x s
/-- A paired word, first half fminF32 (R72). -/
def execHalfFminF32 (x : Pair) (s : State) : Out := pairOp (.halfFminF32 x) .fminF32 x s
/-- A paired word, first half fmaxF32 (R72). -/
def execHalfFmaxF32 (x : Pair) (s : State) : Out := pairOp (.halfFmaxF32 x) .fmaxF32 x s
/-- A paired word, first half faddBf16x2 (R72). -/
def execHalfFaddBf16x2 (x : Pair) (s : State) : Out := pairOp (.halfFaddBf16x2 x) .faddBf16x2 x s
/-- A paired word, first half fmulBf16x2 (R72). -/
def execHalfFmulBf16x2 (x : Pair) (s : State) : Out := pairOp (.halfFmulBf16x2 x) .fmulBf16x2 x s
/-- A paired word, first half fminBf16x2 (R72). -/
def execHalfFminBf16x2 (x : Pair) (s : State) : Out := pairOp (.halfFminBf16x2 x) .fminBf16x2 x s
/-- A paired word, first half fmaxBf16x2 (R72). -/
def execHalfFmaxBf16x2 (x : Pair) (s : State) : Out := pairOp (.halfFmaxBf16x2 x) .fmaxBf16x2 x s
/-- A paired word, first half faddF16x2 (R72). -/
def execHalfFaddF16x2 (x : Pair) (s : State) : Out := pairOp (.halfFaddF16x2 x) .faddF16x2 x s
/-- A paired word, first half fmulF16x2 (R72). -/
def execHalfFmulF16x2 (x : Pair) (s : State) : Out := pairOp (.halfFmulF16x2 x) .fmulF16x2 x s
/-- A paired word, first half fminF16x2 (R72). -/
def execHalfFminF16x2 (x : Pair) (s : State) : Out := pairOp (.halfFminF16x2 x) .fminF16x2 x s
/-- A paired word, first half fmaxF16x2 (R72). -/
def execHalfFmaxF16x2 (x : Pair) (s : State) : Out := pairOp (.halfFmaxF16x2 x) .fmaxF16x2 x s
/-- A paired word, first half nop (R72). -/
def execHalfNop (x : Pair) (s : State) : Out := pairOp (.halfNop x) .nop x s

end Sys2Proof.Machine
end

