-- ==== Sys2Proof/Machine/Plane.lean ====
section
/-! DEFINITION. Class 0x9: plane instructions (R217, R218, R276 to R285). -/

namespace Sys2Proof.Machine

/-- A format word that the instruction accepts (R216, R277). -/
def fmtAccepts (k : PlaneKind) (f : VWord) : Bool :=
  let base := f.extractLsb' 29 3 = 0 && f.extractLsb' 13 3 = 0 && fmtSP f ≠ 3 && decide (fmtDF f ≤ 3)
  base && (match k with
    | .pmma | .pmmabp => !fmtAK f && fmtSP f = 0
    | .pmms => !fmtAK f && fmtSP f ≠ 0
    | .plma => fmtAK f && fmtSP f = 0 && fmtPA f = 6 && fmtPB f = 6 && !fmtSA f && !fmtSB f
    | _ => true)

/-- Deck ranges of R279: start and length. -/
def planeRanges (k : PlaneKind) (f : VWord) (ctl opa opb : Word) : List (Nat × Nat) :=
  let n := 64 * ctlCount ctl
  match k with
  | .pmma | .pmms | .plma => if ctlCount ctl = 0 then [] else [(opa.toNat, n * sizeA k f), (opb.toNat, n * sizeB k f)]
  | .pmmabp => [(opb.toNat, n * sizeB k f)]
  | .pdrn => [(opb.toNat, drainSize f)]
  | .pacs | .pacl => [(opb.toNat, imageSize)]
  | .pacz | .pdrb => []

/-- The instruction's own causes, in order (R217, R278). -/
def planeCause (k : PlaneKind) (x : RRR) (ops : Span → Word × Word) (s : State) (i : Iss) : Option Cause :=
  let words := i.I.map fun l => i.sp.v x.d.toNat l
  let f := words.headD 0
  let ctl := i.sp.s x.a.toNat
  let (bytes, tiles) := match s.block? i.sp.block with | some b => (b.bytes, b.tiles.length) | none => (0, 0)
  if words.any (· ≠ f) || !fmtAccepts k f then some .fmtdiv
  else if decide (tiles ≤ ctlTile ctl) || (k = .pdrb && ctlSeg ctl = 3) || (k = .pmmabp && ctlCount ctl ≠ 1) then some .accrange
  else if (planeRanges k f ctl (ops i.sp).1 (ops i.sp).2).any (fun r => r.1 % 8 ≠ 0 || decide (bytes < r.1 + r.2)) then some .deckrange
  else none

/-- A plane instruction: it issues with a free plane slot, and its operation waits for the fork drain (R134, R252, R285).
PMMS and PACL hold the span until their check has passed. -/
def planeIssue (i : Instr) (k : PlaneKind) (x : RRR) (ops : Span → Word × Word) (s : State) : Out :=
  issue i
    { whole := true, own := planeCause k x ops
      ready := fun t j => !j.sp.acqHeld && decide ((t.planeq.filter (·.uid = j.sp.uid)).length < Config.spanSlots) }
    (fun t j =>
      let sp := j.moved
      let o : PlaneOp := { id := sp.seq, pier := sp.pier, span := sp.id, uid := sp.uid, blk := sp.block, kind := k, st := .drain, seq := sp.seq,
                           fmt := j.sp.v x.d.toNat (j.I.headD 0), ctl := j.sp.s x.a.toNat, opa := (ops j.sp).1, opb := (ops j.sp).2, idx := sp.idx }
      let hold := k = .pmms || k = .pacl
      let t1 := t.putSpan { sp with seq := sp.seq + 1, planesAt := sp.planesAt ++ [sp.seq], checkOp := if hold then some o.id else sp.checkOp }
      { t1 with planeq := t1.planeq ++ [o] }) s

/-- PMMA, and with `.bp` from the bypass (R276, R280). An operation without an A operand keeps 0 in its place. (log 52, DESIGN CHOICE) -/
def execPmma (x : RRR) (s : State) : Out :=
  if x.bit 0 then planeIssue (.pmma x) .pmmabp x (fun sp => (0, sp.s x.b.toNat)) s
  else planeIssue (.pmma x) .pmma x (fun sp => (sp.s x.b.toNat, sp.s x.c.toNat)) s

/-- PMMS (R249, R250, R280). -/
def execPmms (x : RRR) (s : State) : Out := planeIssue (.pmms x) .pmms x (fun sp => (sp.s x.b.toNat, sp.s x.c.toNat)) s

/-- PLMA (R236, R248, R280). -/
def execPlma (x : RRR) (s : State) : Out := planeIssue (.plma x) .plma x (fun sp => (sp.s x.b.toNat, sp.s x.c.toNat)) s

/-- PACZ (R220, R281). -/
def execPacz (x : RRR) (s : State) : Out := planeIssue (.pacz x) .pacz x (fun _ => (0, 0)) s

/-- PDRN (R222, R259, R281). -/
def execPdrn (x : RRR) (s : State) : Out := planeIssue (.pdrn x) .pdrn x (fun sp => (0, sp.s x.b.toNat)) s

/-- PDRB (R221, R281). -/
def execPdrb (x : RRR) (s : State) : Out := planeIssue (.pdrb x) .pdrb x (fun _ => (0, 0)) s

/-- PACS (R257, R282). -/
def execPacs (x : RRR) (s : State) : Out := planeIssue (.pacs x) .pacs x (fun sp => (0, sp.s x.b.toNat)) s

/-- PACL (R257, R283). Its source offset stands where a B operand would (log 52, DESIGN CHOICE). -/
def execPacl (x : RRR) (s : State) : Out := planeIssue (.pacl x) .pacl x (fun sp => (0, sp.s x.b.toNat)) s

/-- PSYNC (R219, R284): the span is held until its plane operations have ended, and joins them. -/
def execPsync (x : RRR) (s : State) : Out :=
  issue (.psync x) { whole := true }
    (fun t i =>
      let busy := t.planeq.any (·.uid = i.sp.uid)
      t.putSpan { (if busy then i.moved else t.joinPlanes i.moved) with pHold := busy }) s

end Sys2Proof.Machine
end

