-- ==== Sys2Proof/Machine/Predicate.lean ====
section
/-! DEFINITION. Class 0x1: compares and predicate instructions (R61, R89 to R94). -/

namespace Sys2Proof.Machine

/-- The lanes that a compare looks at: every lane of I, because type 001 writes lanes whose guard is false (R61). -/
def compareLanes (u : Bool) (i : Iss) : List Nat := if u then [0] else i.I

/-- A compare at width `w` (R89). -/
def cmpAt (w : Nat) (ctl : Ctl) (ty : Ty) (c : Cond) (t : Combine) (d : BitVec 8) (a b : Span → Nat → BitVec w) (i : Iss) (sp : Span) :
    Span :=
  (compareLanes ctl.u i).foldl (fun u l => u.compare i.sp ctl t d l (intCond c (tySigned ty) (a i.sp l) (b i.sp l))) sp

/-- CMP, register form (R89). -/
def execCmp (x : RRR) (s : State) : Out :=
  let w := tyWidth x.ty
  regOp (.cmp x) {} (cmpAt w x.ctl x.ty (condOfNat x.hi3) (combineOfNat x.lo3) x.d
    (fun sp l => sp.src w (x.ctl.u || x.ka) x.a l) (fun sp l => sp.src w (x.ctl.u || x.kb) x.b l)) s

/-- CMP, immediate form (R58, R89). -/
def execCmpImm (x : RIC) (s : State) : Out :=
  let w := tyWidth x.ty
  regOp (.cmpImm x) {} (cmpAt w x.ctl x.ty x.cond x.ct x.d
    (fun sp l => sp.src w x.ctl.u x.a l) (fun _ _ => immAt w (tySigned x.ty) x.imm)) s

/-- FCMP (R90). -/
def execFcmp (x : RRR) (s : State) : Out :=
  regOp (.fcmp x) {} (fun i sp =>
    i.I.foldl (fun u l =>
      u.compare i.sp x.ctl (combineOfNat x.lo3) x.d l
        (floatCond (condOfNat x.hi3) (fmtOf x.ty) (i.sp.src 32 false x.a l) (i.sp.src 32 x.kb x.b l))) sp) s

/-- PLOP (R91). -/
def execPlop (x : RRR) (s : State) : Out :=
  regOp (.plop x) {} (fun i sp =>
    if x.ctl.u then
      if i.G.isEmpty then sp else sp.setQ x.d.toNat (plopTable x.f6 (i.sp.q x.a.toNat) (i.sp.q x.b.toNat))
    else i.G.foldl (fun u l => u.setP x.d.toNat l (plopTable x.f6 (i.sp.p x.a.toNat l) (i.sp.p x.b.toNat l))) sp) s

/-- PMOV (R92): a whole predicate set, in the four directions of F6[1:0]. -/
def execPmov (x : RRR) (s : State) : Out :=
  regOp (.pmov x) {} (fun i sp =>
    match x.lo2 with
    | 0 => i.G.foldl (fun u l => u.setV x.d.toNat l ((i.sp.lane l).preds.setWidth 32)) sp
    | 1 => i.G.foldl (fun u l => u.onLane l fun ln => { ln with preds := (i.sp.v x.a.toNat l).setWidth 16 }) sp
    | 2 => if i.G.isEmpty then sp else sp.setS x.d.toNat (i.sp.qs.setWidth 64)
    | _ => if i.G.isEmpty then sp else { sp with qs := (i.sp.s x.a.toNat).setWidth 8 }) s

/-- VOTE (R93): over the guarded lanes of I. -/
def execVote (x : RRR) (s : State) : Out :=
  regOp (.vote x) {} (fun i sp =>
    let value := fun l => i.sp.p x.a.toNat l != x.bit 2
    match x.lo2 with
    | 0 => sp.setQ x.d.toNat (i.G.all value)
    | 1 => sp.setQ x.d.toNat (i.G.any value)
    | _ => sp.setS x.d.toNat (BitVec.ofNat 64 ((i.G.filter value).map (2 ^ ·)).sum)) s

/-- PSET (R94). -/
def execPset (x : RRR) (s : State) : Out :=
  regOp (.pset x) {} (fun i sp =>
    let value := fun l => match x.lo2 with
      | 0 => false
      | 1 => true
      | _ => i.sp.src (tyWidth x.ty) (x.ctl.u || x.ka) x.a l != 0
    if x.ctl.u then (if i.G.isEmpty then sp else sp.setQ x.d.toNat (value 0))
    else i.G.foldl (fun u l => u.setP x.d.toNat l (value l)) sp) s

end Sys2Proof.Machine
end

