-- ==== Sys2Proof/Machine/Dispatch.lean ====
section
/-! DEFINITION. The meaning of every instruction and of every step of the device, one arm for each constructor. -/

namespace Sys2Proof.Machine

def exec (i : Instr) (s : State) : Host.Outcome State Fault Refusal :=
  match i with
  | .nop x => Sys2Proof.Machine.execNop x s
  | .bra x => Sys2Proof.Machine.execBra x s
  | .brx x => Sys2Proof.Machine.execBrx x s
  | .brq x => Sys2Proof.Machine.execBrq x s
  | .call x => Sys2Proof.Machine.execCall x s
  | .callx x => Sys2Proof.Machine.execCallx x s
  | .ret x => Sys2Proof.Machine.execRet x s
  | .yield x => Sys2Proof.Machine.execYield x s
  | .cvg x => Sys2Proof.Machine.execCvg x s
  | .exit x => Sys2Proof.Machine.execExit x s
  | .trap x => Sys2Proof.Machine.execTrap x s
  | .bkpt x => Sys2Proof.Machine.execBkpt x s
  | .cmp x => Sys2Proof.Machine.execCmp x s
  | .cmpImm x => Sys2Proof.Machine.execCmpImm x s
  | .fcmp x => Sys2Proof.Machine.execFcmp x s
  | .plop x => Sys2Proof.Machine.execPlop x s
  | .pmov x => Sys2Proof.Machine.execPmov x s
  | .vote x => Sys2Proof.Machine.execVote x s
  | .pset x => Sys2Proof.Machine.execPset x s
  | .add x => Sys2Proof.Machine.execAdd x s
  | .addImm x => Sys2Proof.Machine.execAddImm x s
  | .sub x => Sys2Proof.Machine.execSub x s
  | .subImm x => Sys2Proof.Machine.execSubImm x s
  | .adds x => Sys2Proof.Machine.execAdds x s
  | .addsImm x => Sys2Proof.Machine.execAddsImm x s
  | .subs x => Sys2Proof.Machine.execSubs x s
  | .subsImm x => Sys2Proof.Machine.execSubsImm x s
  | .mul x => Sys2Proof.Machine.execMul x s
  | .mulImm x => Sys2Proof.Machine.execMulImm x s
  | .mulh x => Sys2Proof.Machine.execMulh x s
  | .mulhImm x => Sys2Proof.Machine.execMulhImm x s
  | .div x => Sys2Proof.Machine.execDiv x s
  | .divImm x => Sys2Proof.Machine.execDivImm x s
  | .rem x => Sys2Proof.Machine.execRem x s
  | .remImm x => Sys2Proof.Machine.execRemImm x s
  | .min x => Sys2Proof.Machine.execMin x s
  | .minImm x => Sys2Proof.Machine.execMinImm x s
  | .max x => Sys2Proof.Machine.execMax x s
  | .maxImm x => Sys2Proof.Machine.execMaxImm x s
  | .and x => Sys2Proof.Machine.execAnd x s
  | .andImm x => Sys2Proof.Machine.execAndImm x s
  | .or x => Sys2Proof.Machine.execOr x s
  | .orImm x => Sys2Proof.Machine.execOrImm x s
  | .xor x => Sys2Proof.Machine.execXor x s
  | .xorImm x => Sys2Proof.Machine.execXorImm x s
  | .andn x => Sys2Proof.Machine.execAndn x s
  | .andnImm x => Sys2Proof.Machine.execAndnImm x s
  | .shl x => Sys2Proof.Machine.execShl x s
  | .shlImm x => Sys2Proof.Machine.execShlImm x s
  | .shr x => Sys2Proof.Machine.execShr x s
  | .shrImm x => Sys2Proof.Machine.execShrImm x s
  | .sha x => Sys2Proof.Machine.execSha x s
  | .shaImm x => Sys2Proof.Machine.execShaImm x s
  | .rot x => Sys2Proof.Machine.execRot x s
  | .rotImm x => Sys2Proof.Machine.execRotImm x s
  | .mad x => Sys2Proof.Machine.execMad x s
  | .neg x => Sys2Proof.Machine.execNeg x s
  | .abs x => Sys2Proof.Machine.execAbs x s
  | .sel x => Sys2Proof.Machine.execSel x s
  | .mov x => Sys2Proof.Machine.execMov x s
  | .xtn x => Sys2Proof.Machine.execXtn x s
  | .movi x => Sys2Proof.Machine.execMovi x s
  | .movh x => Sys2Proof.Machine.execMovh x s
  | .lea x => Sys2Proof.Machine.execLea x s
  | .bfx x => Sys2Proof.Machine.execBfx x s
  | .bfi x => Sys2Proof.Machine.execBfi x s
  | .popc x => Sys2Proof.Machine.execPopc x s
  | .clz x => Sys2Proof.Machine.execClz x s
  | .brev x => Sys2Proof.Machine.execBrev x s
  | .shfl x => Sys2Proof.Machine.execShfl x s
  | .reds x => Sys2Proof.Machine.execReds x s
  | .rdln x => Sys2Proof.Machine.execRdln x s
  | .wrln x => Sys2Proof.Machine.execWrln x s
  | .mfs x => Sys2Proof.Machine.execMfs x s
  | .mts x => Sys2Proof.Machine.execMts x s
  | .rdix x => Sys2Proof.Machine.execRdix x s
  | .wrix x => Sys2Proof.Machine.execWrix x s
  | .ld x => Sys2Proof.Machine.execLd x s
  | .st x => Sys2Proof.Machine.execSt x s
  | .ldd x => Sys2Proof.Machine.execLdd x s
  | .std x => Sys2Proof.Machine.execStd x s
  | .lda x => Sys2Proof.Machine.execLda x s
  | .stl x => Sys2Proof.Machine.execStl x s
  | .pfs x => Sys2Proof.Machine.execPfs x s
  | .cctl x => Sys2Proof.Machine.execCctl x s
  | .lth x => Sys2Proof.Machine.execLth x s
  | .atom x => Sys2Proof.Machine.execAtom x s
  | .red x => Sys2Proof.Machine.execRed x s
  | .cas x => Sys2Proof.Machine.execCas x s
  | .atomd x => Sys2Proof.Machine.execAtomd x s
  | .fence x => Sys2Proof.Machine.execFence x s
  | .waita x => Sys2Proof.Machine.execWaita x s
  | .bara x => Sys2Proof.Machine.execBara x s
  | .barw x => Sys2Proof.Machine.execBarw x s
  | .mbinit x => Sys2Proof.Machine.execMbinit x s
  | .mbarv x => Sys2Proof.Machine.execMbarv x s
  | .mbexp x => Sys2Proof.Machine.execMbexp x s
  | .mbwait x => Sys2Proof.Machine.execMbwait x s
  | .sred x => Sys2Proof.Machine.execSred x s
  | .fcpy x => Sys2Proof.Machine.execFcpy x s
  | .fcpyt x => Sys2Proof.Machine.execFcpyt x s
  | .fpln x => Sys2Proof.Machine.execFpln x s
  | .fcan x => Sys2Proof.Machine.execFcan x s
  | .nsend x => Sys2Proof.Machine.execNsend x s
  | .fstat x => Sys2Proof.Machine.execFstat x s
  | .fadd x => Sys2Proof.Machine.execFadd x s
  | .fsub x => Sys2Proof.Machine.execFsub x s
  | .fmul x => Sys2Proof.Machine.execFmul x s
  | .ffma x => Sys2Proof.Machine.execFfma x s
  | .fmin x => Sys2Proof.Machine.execFmin x s
  | .fmax x => Sys2Proof.Machine.execFmax x s
  | .fdiv x => Sys2Proof.Machine.execFdiv x s
  | .fsqrt x => Sys2Proof.Machine.execFsqrt x s
  | .frcp x => Sys2Proof.Machine.execFrcp x s
  | .frsq x => Sys2Proof.Machine.execFrsq x s
  | .fex2 x => Sys2Proof.Machine.execFex2 x s
  | .flg2 x => Sys2Proof.Machine.execFlg2 x s
  | .fcls x => Sys2Proof.Machine.execFcls x s
  | .frnd x => Sys2Proof.Machine.execFrnd x s
  | .fdot2 x => Sys2Proof.Machine.execFdot2 x s
  | .cvt x => Sys2Proof.Machine.execCvt x s
  | .rng x => Sys2Proof.Machine.execRng x s
  | .pack x => Sys2Proof.Machine.execPack x s
  | .unpk x => Sys2Proof.Machine.execUnpk x s
  | .pmma x => Sys2Proof.Machine.execPmma x s
  | .pmms x => Sys2Proof.Machine.execPmms x s
  | .plma x => Sys2Proof.Machine.execPlma x s
  | .pacz x => Sys2Proof.Machine.execPacz x s
  | .pdrn x => Sys2Proof.Machine.execPdrn x s
  | .pdrb x => Sys2Proof.Machine.execPdrb x s
  | .pacs x => Sys2Proof.Machine.execPacs x s
  | .pacl x => Sys2Proof.Machine.execPacl x s
  | .psync x => Sys2Proof.Machine.execPsync x s
  | .spawn x => Sys2Proof.Machine.execSpawn x s
  | .fref x => Sys2Proof.Machine.execFref x s
  | .fdrop x => Sys2Proof.Machine.execFdrop x s
  | .fjoin x => Sys2Proof.Machine.execFjoin x s
  | .fpoll x => Sys2Proof.Machine.execFpoll x s
  | .fret x => Sys2Proof.Machine.execFret x s
  | .rpt x => Sys2Proof.Machine.execRpt x s
  | .post x => Sys2Proof.Machine.execPost x s
  | .lnch x => Sys2Proof.Machine.execLnch x s
  | .rft x => Sys2Proof.Machine.execRft x s
  | .mfc x => Sys2Proof.Machine.execMfc x s
  | .mtc x => Sys2Proof.Machine.execMtc x s
  | .tlbi x => Sys2Proof.Machine.execTlbi x s
  | .snap x => Sys2Proof.Machine.execSnap x s
  | .time x => Sys2Proof.Machine.execTime x s
  | .ctr x => Sys2Proof.Machine.execCtr x s
  | .sleep x => Sys2Proof.Machine.execSleep x s
  | .halfAddS32 x => Sys2Proof.Machine.execHalfAddS32 x s
  | .halfSubS32 x => Sys2Proof.Machine.execHalfSubS32 x s
  | .halfAddsS32 x => Sys2Proof.Machine.execHalfAddsS32 x s
  | .halfSubsS32 x => Sys2Proof.Machine.execHalfSubsS32 x s
  | .halfMulS32 x => Sys2Proof.Machine.execHalfMulS32 x s
  | .halfMinS32 x => Sys2Proof.Machine.execHalfMinS32 x s
  | .halfMaxS32 x => Sys2Proof.Machine.execHalfMaxS32 x s
  | .halfMinN32 x => Sys2Proof.Machine.execHalfMinN32 x s
  | .halfMaxN32 x => Sys2Proof.Machine.execHalfMaxN32 x s
  | .halfAndB32 x => Sys2Proof.Machine.execHalfAndB32 x s
  | .halfOrB32 x => Sys2Proof.Machine.execHalfOrB32 x s
  | .halfXorB32 x => Sys2Proof.Machine.execHalfXorB32 x s
  | .halfAndnB32 x => Sys2Proof.Machine.execHalfAndnB32 x s
  | .halfShlB32 x => Sys2Proof.Machine.execHalfShlB32 x s
  | .halfShrB32 x => Sys2Proof.Machine.execHalfShrB32 x s
  | .halfShaB32 x => Sys2Proof.Machine.execHalfShaB32 x s
  | .halfRotB32 x => Sys2Proof.Machine.execHalfRotB32 x s
  | .halfMovB32 x => Sys2Proof.Machine.execHalfMovB32 x s
  | .halfAddS64 x => Sys2Proof.Machine.execHalfAddS64 x s
  | .halfSubS64 x => Sys2Proof.Machine.execHalfSubS64 x s
  | .halfAndB64 x => Sys2Proof.Machine.execHalfAndB64 x s
  | .halfOrB64 x => Sys2Proof.Machine.execHalfOrB64 x s
  | .halfXorB64 x => Sys2Proof.Machine.execHalfXorB64 x s
  | .halfShlB64 x => Sys2Proof.Machine.execHalfShlB64 x s
  | .halfShrB64 x => Sys2Proof.Machine.execHalfShrB64 x s
  | .halfShaB64 x => Sys2Proof.Machine.execHalfShaB64 x s
  | .halfMovB64 x => Sys2Proof.Machine.execHalfMovB64 x s
  | .halfFaddF32 x => Sys2Proof.Machine.execHalfFaddF32 x s
  | .halfFmulF32 x => Sys2Proof.Machine.execHalfFmulF32 x s
  | .halfFminF32 x => Sys2Proof.Machine.execHalfFminF32 x s
  | .halfFmaxF32 x => Sys2Proof.Machine.execHalfFmaxF32 x s
  | .halfFaddBf16x2 x => Sys2Proof.Machine.execHalfFaddBf16x2 x s
  | .halfFmulBf16x2 x => Sys2Proof.Machine.execHalfFmulBf16x2 x s
  | .halfFminBf16x2 x => Sys2Proof.Machine.execHalfFminBf16x2 x s
  | .halfFmaxBf16x2 x => Sys2Proof.Machine.execHalfFmaxBf16x2 x s
  | .halfFaddF16x2 x => Sys2Proof.Machine.execHalfFaddF16x2 x s
  | .halfFmulF16x2 x => Sys2Proof.Machine.execHalfFmulF16x2 x s
  | .halfFminF16x2 x => Sys2Proof.Machine.execHalfFminF16x2 x s
  | .halfFmaxF16x2 x => Sys2Proof.Machine.execHalfFmaxF16x2 x s
  | .halfNop x => Sys2Proof.Machine.execHalfNop x s
  | .instructionFetch => Sys2Proof.Machine.execInstructionFetch s
  | .walkComplete span chk => Sys2Proof.Machine.execWalkComplete span chk s
  | .trapEntry span => Sys2Proof.Machine.execTrapEntry span s
  | .spanRetire span => Sys2Proof.Machine.execSpanRetire span s
  | .blockRetire launch blk => Sys2Proof.Machine.execBlockRetire launch blk s
  | .preemptionRequest span => Sys2Proof.Machine.execPreemptionRequest span s
  | .preemptionSave span => Sys2Proof.Machine.execPreemptionSave span s
  | .preemptionTimeout span => Sys2Proof.Machine.execPreemptionTimeout span s
  | .resumption ctx region => Sys2Proof.Machine.execResumption ctx region s
  | .resultArrival span res => Sys2Proof.Machine.execResultArrival span res s
  | .deckBankAccess pier bank => Sys2Proof.Machine.execDeckBankAccess pier bank s
  | .requestPerformed span slot fromL1 lanes => Sys2Proof.Machine.execRequestPerformed span slot fromL1 lanes s
  | .bounce span slot reason => Sys2Proof.Machine.execBounce span slot reason s
  | .backoffExpiry span slot => Sys2Proof.Machine.execBackoffExpiry span slot s
  | .wakeEvent span slot => Sys2Proof.Machine.execWakeEvent span slot s
  | .engineFork span what => Sys2Proof.Machine.execEngineFork span what s
  | .faultNotice n => Sys2Proof.Machine.execFaultNotice n s
  | .faultServiceComplete ctx page how => Sys2Proof.Machine.execFaultServiceComplete ctx page how s
  | .evictionStart part dest => Sys2Proof.Machine.execEvictionStart part dest s
  | .expansion ctx page frame => Sys2Proof.Machine.execExpansion ctx page frame s
  | .pageMove move promote => Sys2Proof.Machine.execPageMove move promote s
  | .shootDownAck sd recv => Sys2Proof.Machine.execShootDownAck sd recv s
  | .retireNotice sd pier => Sys2Proof.Machine.execRetireNotice sd pier s
  | .watchWake span lane => Sys2Proof.Machine.execWatchWake span lane s
  | .waitaTimeout span lane => Sys2Proof.Machine.execWaitaTimeout span lane s
  | .watchPoll span lane => Sys2Proof.Machine.execWatchPoll span lane s
  | .sleepExpiry span lane => Sys2Proof.Machine.execSleepExpiry span lane s
  | .ferryChunk span op chunk => Sys2Proof.Machine.execFerryChunk span op chunk s
  | .planeOpStart pier steps => Sys2Proof.Machine.execPlaneOpStart pier steps s
  | .planeOpEnd pier => Sys2Proof.Machine.execPlaneOpEnd pier s
  | .shadowMerge n => Sys2Proof.Machine.execShadowMerge n s
  | .routerAccept span op => Sys2Proof.Machine.execRouterAccept span op s
  | .roundResult part tree => Sys2Proof.Machine.execRoundResult part tree s
  | .roundTimeout part tree => Sys2Proof.Machine.execRoundTimeout part tree s
  | .recordArrival span slot => Sys2Proof.Machine.execRecordArrival span slot s
  | .spillMove pier part => Sys2Proof.Machine.execSpillMove pier part s
  | .berthStep pier => Sys2Proof.Machine.execBerthStep pier s
  | .berthTimerExpiry pier berth => Sys2Proof.Machine.execBerthTimerExpiry pier berth s
  | .berthSpanStart pier berth => Sys2Proof.Machine.execBerthSpanStart pier berth s
  | .futureMessage n => Sys2Proof.Machine.execFutureMessage n s
  | .doomArrival span lane => Sys2Proof.Machine.execDoomArrival span lane s
  | .fjoinDelivery span lane => Sys2Proof.Machine.execFjoinDelivery span lane s
  | .fjoinPoll span lane => Sys2Proof.Machine.execFjoinPoll span lane s
  | .quadrantPick quad => Sys2Proof.Machine.execQuadrantPick quad s
  | .blockPlacement launch => Sys2Proof.Machine.execBlockPlacement launch s
  | .launchComplete launch => Sys2Proof.Machine.execLaunchComplete launch s
  | .doorbell vf q w => Sys2Proof.Machine.execDoorbell vf q w s
  | .recordConsume vf q => Sys2Proof.Machine.execRecordConsume vf q s
  | .eridxWrite vf q v => Sys2Proof.Machine.execEridxWrite vf q v s
  | .enable vf q ctxno => Sys2Proof.Machine.execEnable vf q ctxno s
  | .reset vf q => Sys2Proof.Machine.execReset vf q s
  | .kill vf q => Sys2Proof.Machine.execKill vf q s
  | .clrlost vf q => Sys2Proof.Machine.execClrlost vf q s
  | .save vf q => Sys2Proof.Machine.execSave vf q s
  | .resume vf q => Sys2Proof.Machine.execResume vf q s
  | .registerWrite vf off v => Sys2Proof.Machine.execRegisterWrite vf off v s
  | .dieFence die reason => Sys2Proof.Machine.execDieFence die reason s
  | .take => Sys2Proof.Machine.execTake s
  | .restore => Sys2Proof.Machine.execRestore s
  | .release => Sys2Proof.Machine.execRelease s
  | .timeSliceExpiry part old new => Sys2Proof.Machine.execTimeSliceExpiry part old new s
  | .partitionTableWrite table => Sys2Proof.Machine.execPartitionTableWrite table s
  | .snapshotTrigger part source => Sys2Proof.Machine.execSnapshotTrigger part source s
  | .lineHoldArm vf n => Sys2Proof.Machine.execLineHoldArm vf n s
  | .lineHoldStart vf => Sys2Proof.Machine.execLineHoldStart vf s
  | .lineHoldExpiry => Sys2Proof.Machine.execLineHoldExpiry s
  | .deviceReset boot => Sys2Proof.Machine.execDeviceReset boot s
  | .getVersion fn => Sys2Proof.Machine.execGetVersion fn s
  | .getCapabilities fn => Sys2Proof.Machine.execGetCapabilities fn s
  | .negotiateAlgorithms fn sign hash => Sys2Proof.Machine.execNegotiateAlgorithms fn sign hash s
  | .getDigests fn => Sys2Proof.Machine.execGetDigests fn s
  | .getCertificate fn off len => Sys2Proof.Machine.execGetCertificate fn off len s
  | .challenge fn nonce => Sys2Proof.Machine.execChallenge fn nonce s
  | .getMeasurements fn idx => Sys2Proof.Machine.execGetMeasurements fn idx s
  | .sheundLinkDown port => Sys2Proof.Machine.execSheundLinkDown port s
  | .hostAccess acc => Sys2Proof.Machine.execHostAccess acc s
  | .mailboxRequest fn msg => Sys2Proof.Machine.execMailboxRequest fn msg s

end Sys2Proof.Machine
end

