-- ==== Sys2Proof/Machine/Program.lean ====
section
/-! DEFINITION. The placing of one word where the next step fetches: into the picked span's code, or into a span of its own
that stands for a launch as the host and the scheduler would have brought it about (log 2, DESIGN CHOICE). -/

namespace Sys2Proof.Machine

/-- The address of the code, and the HBM frames of its page tables and its page. -/
def codeVa : Nat := 0x10000
def codeKey : Nat := 0x50000

/-- A table entry and a leaf (R120): a C page, readable, writable and executable, accessed and dirty. -/
def tableWord (at_ : Nat) : Word := BitVec.ofNat 64 (at_ + 1)
def codeLeaf : Word := BitVec.ofNat 64 (2 ^ 62 + 2 ^ 59 + codeKey + 0x61F)

def State.putWord (s : State) (k : Nat) (w : Word) : State := s.write k (toBytes 8 w.toNat)

/-- `n` units of each die. -/
def everyDie (n : Nat) : List (Nat × Nat) := ((List.range Config.dies).map fun d => (List.range n).map fun k => (d, k)).flatten

/-- A partition that owns every pier and channel. -/
def wholePart : Partition :=
  { row := { piers := List.range Config.piers, channels := List.range 512, ways := everyDie 24, tlbSets := everyDie 16, viaSlots := (List.range 64).map fun n => (0, n),
             queues := List.replicate 8 (64, 64), zoneSlots := [], capFrames := [], shares := [1024, 256, 1024, 1024], linkSlots := [], regs := [], entryCap := 16777216, entrySram := 262144, launchCap := 256, slice := none, input := false } }

/-- The five tables that lead to the code page. -/
def State.codeTables (s : State) : State :=
  ((((s.putWord 0x10000 (tableWord 0x20000)).putWord 0x20000 (tableWord 0x40000)).putWord 0x40000 (tableWord 0x40100)).putWord 0x40100
    (tableWord 0x40200)).putWord 0x40208 codeLeaf

/-- A launch of one block with one span on pier 0, and its span picked. -/
def State.codeSpan (s : State) : State :=
  let n := s.uid
  let cx : Context := { id := n, part := 0, number := 1, queue := 0, ptroot := 0x10000 }
  let role : Role := ⟨BitVec.ofNat 64 codeVa, 256, 1⟩
  let l : Launch := { id := n + 1, ctx := n, part := 0, prio := 0, gang := false, note := false, args := 0, nblk := 1, deck := Config.deckBytes,
                      tiles := 8, range := [(0, 1), (0, 0), (0, 0), (0, 0)], roles := [role], nodes := [], donea := 0, donev := 0, trees := 0,
                      lidx := none, byLnch := false, started := true, next := [1, 0, 0, 0] }
  let s1 := { s with uid := n + 2, parts := if s.parts.isEmpty then [wholePart] else s.parts, ctxs := s.ctxs ++ [cx], launches := s.launches ++ [l] }
  let sp := s1.newSpan l 0 0 0 0 256 (BitVec.ofNat 64 codeVa)
  let k : Block := { launch := l.id, idx := 0, pier := 0, bytes := Config.deckBytes, tiles := List.replicate 8 {}, live := [sp.uid] }
  { s1 with uid := s1.uid + 1, blocks := s1.blocks ++ [k], spans := s1.spans.filter (·.id ≠ 0) ++ [sp], picked := some 0 }

/-- Where the picked span's next fetch finds its word. -/
def State.fetchKey (s : State) : Option Nat :=
  match s.picked.bind s.span? with
  | none => none
  | some sp =>
    if sp.held then none else
    match sp.select, s.ctx? sp.ctx with
    | some (_, _, a), some cx =>
      (match s.tlbLook sp.pier cx a.toNat { ex := true } with
        | some (.pass key _) => some key
        | some _ => none
        | none => match s.leafOf cx a.toNat with
          | some lf => (match s.leafOut cx.part a.toNat lf { ex := true } with | .pass key _ => some key | _ => none)
          | none => none)
    | _, _ => none

/-- The word stands where the next step fetches. (log 2, DESIGN CHOICE) -/
def State.placeWord (s : State) (w : Word) : State :=
  let t := { s with agenda := [], ir := none }
  match t.fetchKey with
  | some k => t.putWord k w
  | none => (t.codeTables.codeSpan).putWord codeKey w

end Sys2Proof.Machine
end

