-- ==== Sys2Proof/Machine/Step.lean ====
section
/-! DEFINITION. One step of the device: time passes, and then the next event of the agenda happens; with an empty agenda a
quadrant picks a span, or the picked span fetches, decodes and issues its next word (log 1, DESIGN CHOICE). -/

namespace Sys2Proof.Machine

/-- The picked span's word, decoded and executed. (log 1, DESIGN CHOICE) -/
def State.issueNext (s : State) : Host.Outcome State Fault Refusal :=
  let s1 := s.fetch
  match s1.ir with
  | none => .next s1
  | some w =>
    match decode w with
    | .ok i => exec i { s1 with ir := none }
    | .error _ => .next (illTrap { s1 with ir := none })

/-- The machine's step. An instruction word on the agenda is no event, and is passed over. (log 1, DESIGN CHOICE) (log 19, DESIGN CHOICE)
(log 20, DESIGN CHOICE) -/
def step (s : State) : Host.Outcome State Fault Refusal :=
  let s1 := s.tick
  match s1.agenda with
  | e :: rest => if (encode e).isSome then .next { s1 with agenda := rest } else exec e { s1 with agenda := rest }
  | [] =>
    match s1.picked with
    | none => exec (.quadrantPick s1.turn) { s1 with turn := (s1.turn + 1) % 640 }
    | some _ => s1.issueNext

/-- The state in which the next step fetches and runs the instruction whose bits are `w` (log 2, DESIGN CHOICE). -/
def State.withFetchWord (s : State) (nbits w : Nat) : State := s.placeWord (BitVec.ofNat 64 (w % 2 ^ min nbits 64))

end Sys2Proof.Machine
end

