-- ==== Sys2Proof/Safety.lean ====
section
/-! DEFINITION. What the claims mean by a word that issues with its effect, by what such a word leaves unchanged, and by a safe
run; and the tables of the manual in the form in which the claims compare the machine with them. -/

namespace Sys2Proof

open Machine

/-! The issue of a word. -/

/-- The picked span is ready to issue: the span as it stands (`sp0`), as selection leaves it (`sp`), the issuing set and its
address (R30, R312). -/
structure Issuing (s : State) (sp0 sp : Span) (I : List Nat) (a : Word) : Prop where
  picked : s.picked = some sp0.id
  there  : s.span? sp0.id = some sp0
  free   : sp0.held = false
  select : sp0.select = some (sp, I, a)

/-- Nothing keeps the word `i` from its effect in this issue: no interlocked result is touched (R63), every register is within
the budget (R48), no pending result is touched (R65), and no lane of the issue runs a doomed task (R296). -/
structure Clear (i : Instr) (s : State) (sp0 sp : Span) (I : List Nat) (a : Word) : Prop extends Issuing s sp0 sp I a where
  unlocked : sp.interlocked (shape i).uses I = false
  budget   : ∀ k ∈ (shape i).uses.v, k < sp.budget
  answered : ∀ r ∈ sp.results, r.hits (shape i).uses I = false
  alive    : ∀ l ∈ I, sp.doomedAt l = false

/-- The lanes of the issue in which the word has its effect: those whose guard is true (R15, R52). -/
def acting (i : Instr) (sp : Span) (I : List Nat) : List Nat := guardLanes sp (shape i).ctl I

/-- The issue itself. -/
abbrev At (i : Instr) (sp : Span) (I : List Nat) (a : Word) : Iss := ⟨sp, I, acting i sp I, a⟩

/-- Nothing but the spans, the choice of the next one and the record of what is computed from what differs, and of the spans none but `id`. -/
structure Machine.State.OnlySpan (s t : State) (id : Nat) : Prop where
  rest   : { t with spans := s.spans, picked := s.picked, flows := s.flows } = s
  others : ∀ j, j ≠ id → t.span? j = s.span? j

/-- From `s` the word `i` answers a next state in which its span, `sp` at its issue, has become `sp'`. Nothing but the span's
registers, predicates, lanes and wait marker has changed in the whole machine; W holds the span when a result is out (R64). -/
structure Became (i : Instr) (s t : State) (sp sp' : Span) : Prop where
  only : s.OnlySpan t sp.id
  next : t.picked = none
  now  : t.span? sp.id = some sp'
  same : { sp' with vregs := sp.vregs, sregs := sp.sregs, qs := sp.qs, lanes := sp.lanes, wHold := sp.wHold } = sp
  hold : sp'.wHold = s.waitsAt i sp

/-- A word that touches its span alone, and leaves it as `P` says. -/
def Becomes (i : Instr) (s : State) (sp : Span) (P : Span → Prop) : Prop :=
  ∃ t sp', exec i s = .next t ∧ Became i s t sp sp' ∧ P sp'

/-- A word after which its span is `sp'`, nothing else having changed in the whole machine but the choice of the next span. -/
def Leaves (i : Instr) (s : State) (sp sp' : Span) : Prop :=
  ∃ t, exec i s = .next t ∧ s.OnlySpan t sp.id ∧ t.picked = none ∧ t.span? sp.id = some sp'

/-- A word that changes its span alone, as `P` says, and then what follows at once from such a change (`settle`): a word after
which the span may have a CVG to complete, a trap to take or an end to report. -/
def Settles (i : Instr) (s : State) (sp : Span) (I : List Nat) (a : Word) (P : Span → Prop) : Prop :=
  ∃ sp', exec i s = .next (((s.putSpan sp').settle sp.id).issued i (At i sp I a)) ∧
    { sp' with vregs := sp.vregs, sregs := sp.sregs, qs := sp.qs, lanes := sp.lanes } = sp ∧ P sp'

/-- The lanes after it, one by one. -/
structure Lanes (sp sp' : Span) (f : Nat → Lane → Lane) : Prop where
  count : sp'.lanes.length = sp.lanes.length
  lane  : ∀ l, sp'.lane l = f l (sp.lane l)

/-- The lanes of the issue stand at the next word, and nothing else of any lane has changed. -/
abbrev Goes (sp sp' : Span) (I : List Nat) (a : Word) : Prop :=
  Lanes sp sp' fun l ln => if l ∈ I then { ln with pc := a + 8 } else ln

/-- The same, the lanes' predicates apart. -/
structure GoesOn (sp sp' : Span) (I : List Nat) (a : Word) : Prop where
  count : sp'.lanes.length = sp.lanes.length
  lane  : ∀ l, { sp'.lane l with preds := (sp.lane l).preds } = if l ∈ I then { sp.lane l with pc := a + 8 } else sp.lane l

/-- A result of `n` registers written in the lanes of `G` from register `d` on, and nothing else (R6, R54). -/
structure WritesV {w : Nat} (n d : Nat) (G : List Nat) (F : Nat → BitVec w) (sp sp' : Span) : Prop where
  scalars : sp'.sregs = sp.sregs
  flags   : sp'.qs = sp.qs
  regs    : ∀ r l, l < 32 → sp'.v r l = if l ∈ G ∧ d ≤ r ∧ r < d + n then (F l).extractLsb' (32 * (r - d)) 32 else sp.v r l

/-- A scalar register written when the guard of the issue is true, and nothing else. -/
structure WritesS (d : Nat) (go : Prop) [Decidable go] (x : Word) (sp sp' : Span) : Prop where
  vectors : sp'.vregs = sp.vregs
  flags   : sp'.qs = sp.qs
  regs    : ∀ k, sp'.s k = if go ∧ k = d then x else sp.s k

/-- The registers are as they were. -/
structure KeepsRegs (sp sp' : Span) : Prop where
  vectors : sp'.vregs = sp.vregs
  scalars : sp'.sregs = sp.sregs

/-- How a result of width `w` lies in a scalar register (R76). -/
def filled (w : Nat) (sgn : Bool) (x : BitVec w) : Word := if sgn then x.signExtend 64 else x.setWidth 64

/-- D at width `w` (R53, R54, R76): the scalar once when the guard is true, or the register or pair of every acting lane. -/
def WritesD (w : Nat) (u sgn : Bool) (d : BitVec 8) (G : List Nat) (F : Nat → BitVec w) (sp sp' : Span) : Prop :=
  if u then WritesS d.toNat (G ≠ []) (filled w sgn (F 0)) sp sp'
  else WritesV (if w = 64 then 2 else 1) d.toNat G F sp sp'

/-- A word whose one effect is D, and after which its lanes stand at the next word. -/
def Puts (i : Instr) (s : State) (sp : Span) (I : List Nat) (a : Word) (w : Nat) (u sgn : Bool) (d : BitVec 8) (F : Nat → BitVec w) : Prop :=
  Becomes i s sp fun sp' => Goes sp sp' I a ∧ WritesD w u sgn d (acting i sp I) F sp sp'

/-- The same for `n` registers from `d` on in every acting lane. -/
def PutsV (i : Instr) (s : State) (sp : Span) (I : List Nat) (a : Word) {w : Nat} (n d : Nat) (F : Nat → BitVec w) : Prop :=
  Becomes i s sp fun sp' => Goes sp sp' I a ∧ WritesV n d (acting i sp I) F sp sp'

/-- The same for a scalar register, when `go`. -/
def PutsS (i : Instr) (s : State) (sp : Span) (I : List Nat) (a : Word) (d : Nat) (go : Prop) [Decidable go] (x : Word) : Prop :=
  Becomes i s sp fun sp' => Goes sp sp' I a ∧ WritesS d go x sp sp'

/-! Integer instructions (R95 to R97): the exact function of each mnemonic. -/

inductive IntOp where
  | add | sub | adds | subs | mul | mulh | div | rem | lesser | greater | and | or | xor | andn | shl | shr | sha | rot
  deriving DecidableEq, Repr

/-- The range of an integer type. -/
def lowest (w : Nat) (sgn : Bool) : Int := if sgn then -2 ^ (w - 1) else 0
def highest (w : Nat) (sgn : Bool) : Int := if sgn then 2 ^ (w - 1) - 1 else 2 ^ w - 1

/-- The exact value before the slice, from the exact values `a` and `b` of the operands, for the arithmetic functions. -/
def IntOp.exactly (w : Nat) (sgn : Bool) (a b : Int) : IntOp → Option Int
  | .add => some (a + b)
  | .sub => some (a - b)
  | .adds => some (max (lowest w sgn) (min (highest w sgn) (a + b)))
  | .subs => some (max (lowest w sgn) (min (highest w sgn) (a - b)))
  | .mul => some (a * b)
  | .mulh => some (a * b / 2 ^ w)
  | .div => some (if b = 0 then (if 0 ≤ a then -1 else 1) else a.tdiv b)
  | .rem => some (if b = 0 then a else a - b * a.tdiv b)
  | .lesser => some (min a b)
  | .greater => some (max a b)
  | _ => none

/-- Bit `k` of the result, for the logic and shift functions; `b` is the amount as a natural number. -/
def IntOp.bitOf {w : Nat} (x y : BitVec w) (k : Nat) : IntOp → Option Bool
  | .and => some (x.getLsbD k && y.getLsbD k)
  | .or => some (x.getLsbD k || y.getLsbD k)
  | .xor => some (x.getLsbD k != y.getLsbD k)
  | .andn => some (x.getLsbD k && !y.getLsbD k)
  | .shl => some (decide (y.toNat ≤ k) && x.getLsbD (k - y.toNat))
  | .shr => some (x.getLsbD (k + y.toNat))
  | .sha => some (if k + y.toNat < w then x.getLsbD (k + y.toNat) else x.msb)
  | .rot => some (x.getLsbD ((k + w - y.toNat % w) % w))
  | _ => none

/-- `r` is the result of R95 to R97 on `x` and `y`. -/
def IntOp.Result (op : IntOp) {w : Nat} (sgn : Bool) (x y r : BitVec w) : Prop :=
  (∀ z, op.exactly w sgn (exact sgn x) (exact sgn y) = some z → r = BitVec.ofInt w z) ∧
    ∀ k, k < w → ∀ b, op.bitOf x y k = some b → r.getLsbD k = b

/-- The integer instructions of two operands, register form. -/
def regForm : Instr → Option (IntOp × RRR)
  | .add x => some (.add, x) | .sub x => some (.sub, x) | .adds x => some (.adds, x) | .subs x => some (.subs, x)
  | .mul x => some (.mul, x) | .mulh x => some (.mulh, x) | .div x => some (.div, x) | .rem x => some (.rem, x)
  | .min x => some (.lesser, x) | .max x => some (.greater, x) | .and x => some (.and, x) | .or x => some (.or, x)
  | .xor x => some (.xor, x) | .andn x => some (.andn, x) | .shl x => some (.shl, x) | .shr x => some (.shr, x)
  | .sha x => some (.sha, x) | .rot x => some (.rot, x)
  | _ => none

/-- The same, immediate form (R58). -/
def immForm : Instr → Option (IntOp × RIT)
  | .addImm x => some (.add, x) | .subImm x => some (.sub, x) | .addsImm x => some (.adds, x) | .subsImm x => some (.subs, x)
  | .mulImm x => some (.mul, x) | .mulhImm x => some (.mulh, x) | .divImm x => some (.div, x) | .remImm x => some (.rem, x)
  | .minImm x => some (.lesser, x) | .maxImm x => some (.greater, x) | .andImm x => some (.and, x) | .orImm x => some (.or, x)
  | .xorImm x => some (.xor, x) | .andnImm x => some (.andn, x) | .shlImm x => some (.shl, x) | .shrImm x => some (.shr, x)
  | .shaImm x => some (.sha, x) | .rotImm x => some (.rot, x)
  | _ => none

/-! Bit fields, lanes, special registers (R101 to R107). -/

/-- pos and len' of a bit field (R101), from the control value. -/
def fieldPos (b : Nat) : Nat := b % 256
def fieldLen (w b : Nat) : Nat := if w ≤ fieldPos b then 0 else min (b / 256 % 256) (w - fieldPos b)

/-- The source lane of SHFL (R103). -/
def shuffleFrom (mode N l k : Nat) : Nat :=
  let base := N * (l / N)
  if mode = 0 then base + k % N
  else if mode = 1 then (if k + base ≤ l then l - k else l)
  else if mode = 2 then (if l + k < base + N then l + k else l)
  else base + (l % N ^^^ k % N)

/-- A number with bit `l` set for each lane of a list (R107). -/
def laneMask (L : List Nat) : Nat := (L.map (2 ^ ·)).sum

/-- The special registers (R107): index, and value in lane `l` of issue set `I` at `a`. -/
def specials (s : State) (sp : Span) (I : List Nat) (a : Word) (l : Nat) : List (Nat × Nat) :=
  [(0x00, l), (0x01, (sp.lane l).depth), (0x02, a.toNat), (0x03, laneMask I),
   (0x04, laneMask (laneNums.filter fun k => (sp.lane k).st = .exited || (sp.lane k).st = .reclaimed)),
   (0x05, ((List.range 16).map fun k => (sp.lane k).st.code * 16 ^ k).sum),
   (0x06, ((List.range 16).map fun k => (sp.lane (16 + k)).st.code * 16 ^ k).sum),
   (0x07, sp.budget), (0x08, sp.slot + 256 * (sp.pier % 40) + 65536 * sp.die + 16777216 * sp.part), (0x09, sp.bidx), (0x0A, sp.idx),
   (0x0B, sp.role), (0x0C, if sp.hmode then 1 else 0), (0x0D, sp.fseq), (0x0E, sp.landFree), (0x0F, 4 - sp.ferry.length),
   (0x10, s.deckBytes sp), (0x11, (sp.cause.map (·.code)).getD 0), (0x19, sp.spantag.toNat)]

/-! Predicates (R61, R89). -/

/-- An integer condition on exact values. -/
def condHolds (c : Cond) (a b : Int) : Bool :=
  match c with
  | .eq => decide (a = b)
  | .ne => decide (a ≠ b)
  | .lt => decide (a < b)
  | .le => decide (a ≤ b)
  | .gt => decide (b < a)
  | .ge => decide (b ≤ a)
  | .num | .nan => false

/-- The new value of pa by combining type (R61), from guard, condition and old value; none where the lane is not written. -/
def newPa (ct : Combine) (g c a : Bool) : Option Bool :=
  match ct with
  | .full => some (g && c)
  | .set => if g then some c else none
  | .and => if g then some (a && c) else none
  | .or => if g then some (a || c) else none
  | .andn => if g then some (a && !c) else none
  | .xor => if g then some (a != c) else none

/-- The two predicate numbers of a compare. -/
def paOf (d : BitVec 8) : Nat := d.toNat / 16
def pbOf (d : BitVec 8) : Nat := d.toNat % 16

/-- After a compare (R61): `c` is the condition in each lane, or with U the one condition of the issue. -/
def Compares (i : Instr) (s : State) (sp : Span) (I : List Nat) (a : Word) (ctl : Ctl) (ct : Combine) (d : BitVec 8) (c : Nat → Bool) : Prop :=
  Becomes i s sp fun sp' => KeepsRegs sp sp' ∧
    if ctl.u then
      Goes sp sp' I a ∧ ∀ r, r < 8 → sp'.q r =
        match newPa ct (sp.guard ctl 0) (c 0) (sp.q (paOf d)) with
        | some n => if r = pbOf d then !n else if r = paOf d then n else sp.q r
        | none => sp.q r
    else
      GoesOn sp sp' I a ∧ sp'.qs = sp.qs ∧ ∀ l r, r < 16 → sp'.p r l =
        if l ∈ I then
          match newPa ct (sp.guard ctl l) (c l) (sp.p (paOf d) l) with
          | some n => if r = pbOf d then !n else if r = paOf d then n else sp.p r l
          | none => sp.p r l
        else sp.p r l

/-! Float words (R264, R265). -/

/-- The float words with an interlocked result: fields and function on bit patterns of one element. -/
def floatForm : Instr → Option (RRR × (Nat → Nat → Nat → Nat))
  | .fadd x => some (x, fun a b _ => fadd (fmtOf x.ty) x.hi3 a b)
  | .fsub x => some (x, fun a b _ => fsub (fmtOf x.ty) x.hi3 a b)
  | .fmul x => some (x, fun a b _ => fmul (fmtOf x.ty) x.hi3 a b)
  | .ffma x => some (x, fun a b c => ffma (fmtOf x.ty) x.hi3 (x.bit 0) (x.bit 1) a b c)
  | .fmin x => some (x, fun a b _ => fminmax (fmtOf x.ty) false (!x.bit 0) a b)
  | .fmax x => some (x, fun a b _ => fminmax (fmtOf x.ty) true (!x.bit 0) a b)
  | .fcls x => some (x, fun a _ _ => fcls (fmtOf x.ty) a)
  | .frnd x => some (x, fun a _ _ => frnd (fmtOf x.ty) x.hi3 a)
  | _ => none

/-- The float words with a pending result. -/
def slowFloat : Instr → Option (RRR × (Nat → Nat → Nat))
  | .fdiv x => some (x, fdiv (fmtOf x.ty) x.hi3)
  | .fsqrt x => some (x, fun a _ => fsqrt (fmtOf x.ty) x.hi3 a)
  | .frcp x => some (x, fun a _ => frcp (fmtOf x.ty) x.hi3 a)
  | .frsq x => some (x, fun a _ => frsq (fmtOf x.ty) x.hi3 a)
  | .fex2 x => some (x, fun a _ => fex2 (fmtOf x.ty) x.hi3 a)
  | .flg2 x => some (x, fun a _ => flg2 (fmtOf x.ty) x.hi3 a)
  | _ => none

/-! Rounding (R223, R226), on integers alone: a finite number is a count of units, the smallest subnormal being 1. -/

def negOf (f : Fmt) (x : Nat) : Bool := x / 2 ^ (f.ew + f.fw) % 2 = 1
def expOf (f : Fmt) (x : Nat) : Nat := x / 2 ^ f.fw % 2 ^ f.ew
def fracOf (f : Fmt) (x : Nat) : Nat := x % 2 ^ f.fw
def isFinite (f : Fmt) (x : Nat) : Prop := expOf f x < 2 ^ f.ew - 1
def isInfinite (f : Fmt) (x : Nat) : Prop := expOf f x = 2 ^ f.ew - 1 ∧ fracOf f x = 0
def isNaN (f : Fmt) (x : Nat) : Prop := expOf f x = 2 ^ f.ew - 1 ∧ fracOf f x ≠ 0

/-- The units in the magnitude of a finite number, and in the number. -/
def magnitude (f : Fmt) (x : Nat) : Nat := if expOf f x = 0 then fracOf f x else (2 ^ f.fw + fracOf f x) * 2 ^ (expOf f x - 1)
def units (f : Fmt) (x : Nat) : Int := if negOf f x then -magnitude f x else magnitude f x

/-- Units in 1, and in the largest finite number. -/
def unitsOfOne (f : Fmt) : Nat := 2 ^ (2 ^ (f.ew - 1) - 2 + f.fw)
def largest (f : Fmt) : Nat := (2 ^ (f.fw + 1) - 1) * 2 ^ (2 ^ f.ew - 3)

def signed0 (f : Fmt) (neg : Bool) : Nat := if neg then 2 ^ (f.ew + f.fw) else 0
def infinity (f : Fmt) (neg : Bool) : Nat := signed0 f neg + (2 ^ f.ew - 1) * 2 ^ f.fw

/-- `r` is the number of sign `neg` and magnitude N/D units, rounded in `mode` (0 RNE, 1 RTZ, 2 RUP, 3 RDN, 4 RNA), of what the rule
gives: the nearest, the one of smaller or the one of larger magnitude; and its infinity or largest number beyond the range. -/
def RoundsTo (f : Fmt) (mode : Nat) (neg : Bool) (N D r : Nat) : Prop :=
  let nearest := mode = 0 ∨ mode = 4
  let outward := mode = 2 ∧ neg = false ∨ mode = 3 ∧ neg = true
  let beyond := nearest ∧ (2 * largest f + 2 ^ (2 ^ f.ew - 3)) * D ≤ 2 * N ∨ outward ∧ largest f * D < N
  let far := fun y => (Int.ofNat (magnitude f y * D) - Int.ofNat N).natAbs
  r < 2 ^ (1 + f.ew + f.fw) ∧ (beyond → r = infinity f neg) ∧
    (¬ beyond → isFinite f r ∧ negOf f r = neg ∧ ∀ y, isFinite f y →
      (nearest → far r ≤ far y ∧ (far y = far r → magnitude f y ≠ magnitude f r →
        if mode = 0 then fracOf f r % 2 = 0 else magnitude f y < magnitude f r)) ∧
      (outward → N ≤ magnitude f r * D ∧ (N ≤ magnitude f y * D → magnitude f r ≤ magnitude f y)) ∧
      (¬ nearest → ¬ outward → magnitude f r * D ≤ N ∧ (magnitude f y * D ≤ N → magnitude f y ≤ magnitude f r)))

/-- `r` is a sum of U/D units in a mode: rounded, or the zero of R226, `zero` being the sign that both terms have when both are zeros. -/
def SumsTo (f : Fmt) (mode : Nat) (zero : Option Bool) (U : Int) (D r : Nat) : Prop :=
  if U = 0 then r = signed0 f (zero.getD (decide (mode = 3))) else RoundsTo f mode (decide (U < 0)) U.natAbs D r

/-- Element `e` of a register in a type (R225). -/
def element (ty : Ty) (e : Nat) (x : BitVec 32) : Nat := if ty = .f32 then x.toNat else x.toNat / 65536 ^ e % 65536

/-- A register whose elements are `f 0` and, in a packed type, `f 1`. -/
def fromElements (ty : Ty) (f : Nat → Nat) : BitVec 32 := BitVec.ofNat 32 (if packed ty then f 0 + 65536 * f 1 else f 0)

/-- A condition of R90 on two float numbers: exact, an infinity counting as more units than any number has. -/
def FloatHolds (c : Cond) (f : Fmt) (a b : Nat) : Prop :=
  let numbers := ¬ isNaN f a ∧ ¬ isNaN f b
  match c with
  | .eq => numbers ∧ units f a = units f b
  | .ne => ¬ (numbers ∧ units f a = units f b)
  | .lt => numbers ∧ units f a < units f b
  | .le => numbers ∧ units f a ≤ units f b
  | .gt => numbers ∧ units f b < units f a
  | .ge => numbers ∧ units f b ≤ units f a
  | .num => numbers
  | .nan => ¬ numbers

/-! Paired words (R68 to R72). -/

/-- The integer function of a compact opcode, and whether its type is signed (R72). -/
def halfInt : Cop → Option (IntOp × Bool)
  | .addS32 | .addS64 => some (.add, true) | .subS32 | .subS64 => some (.sub, true)
  | .addsS32 => some (.adds, true) | .subsS32 => some (.subs, true) | .mulS32 => some (.mul, true)
  | .minS32 => some (.lesser, true) | .maxS32 => some (.greater, true) | .minN32 => some (.lesser, false) | .maxN32 => some (.greater, false)
  | .andB32 | .andB64 => some (.and, false) | .orB32 | .orB64 => some (.or, false) | .xorB32 | .xorB64 => some (.xor, false)
  | .andnB32 => some (.andn, false) | .shlB32 | .shlB64 => some (.shl, false) | .shrB32 | .shrB64 => some (.shr, false)
  | .shaB32 | .shaB64 => some (.sha, false) | .rotB32 => some (.rot, false)
  | _ => none

/-- The type and the function of a float compact opcode (R72), rounding RNE (R69); minimumNumber and maximumNumber. -/
def halfFloat : Cop → Option (Ty × (Nat → Nat → Nat))
  | .faddF32 => some (.f32, fadd fp32 0) | .fmulF32 => some (.f32, fmul fp32 0)
  | .fminF32 => some (.f32, fminmax fp32 false true) | .fmaxF32 => some (.f32, fminmax fp32 true true)
  | .faddBf16x2 => some (.bf16x2, fadd bf16 0) | .fmulBf16x2 => some (.bf16x2, fmul bf16 0)
  | .fminBf16x2 => some (.bf16x2, fminmax bf16 false true) | .fmaxBf16x2 => some (.bf16x2, fminmax bf16 true true)
  | .faddF16x2 => some (.f16x2, fadd fp16 0) | .fmulF16x2 => some (.f16x2, fmul fp16 0)
  | .fminF16x2 => some (.f16x2, fminmax fp16 false true) | .fmaxF16x2 => some (.f16x2, fminmax fp16 true true)
  | _ => none

/-- `R` is the result of a half in lane `l`, from the operands D and B that `sp` holds; a 32-bit one lies in the low bits. -/
structure HalfResult (sp : Span) (c : Cop) (f : HalfF) (l : Nat) (R : Word) : Prop where
  int64   : ∀ op sgn, halfInt c = some (op, sgn) → c.wide = true → op.Result sgn (sp.v64 f.d.toNat l) (HalfF.opB sp f 64 l) R
  int32   : ∀ op sgn, halfInt c = some (op, sgn) → c.wide = false →
    op.Result sgn (sp.v f.d.toNat l) (HalfF.opB sp f 32 l) (R.setWidth 32)
  move64  : c = .movB64 → R = HalfF.opB sp f 64 l
  move32  : c = .movB32 → R.setWidth 32 = HalfF.opB sp f 32 l
  float32 : ∀ ty g, halfFloat c = some (ty, g) →
    R.setWidth 32 = fromElements ty fun e => g (element ty e (sp.v f.d.toNat l)) (element ty e (HalfF.opB sp f 32 l))

/-- The registers that a half writes where its guard is true. -/
def Half.regs (h : Half) : Nat := if h.cop = .nop then 0 else if h.cop.wide then 2 else 1

/-- Does the half write register `r` of lane `l`? -/
def Half.reaches (sp : Span) (I : List Nat) (h : Half) (r l : Nat) : Prop :=
  l ∈ I ∧ sp.guard { guard := h.f.guard } l = true ∧ h.f.d.toNat ≤ r ∧ r < h.f.d.toNat + h.regs

/-! Branches and traps (R38 to R42, R80 to R87). -/

/-- A relative target (R58): a + 8 + 8 × OFF, modulo 2^64. -/
def branchTo (a : Word) (off : BitVec 28) : Word := BitVec.ofInt 64 (a.toNat + 8 + 8 * off.toInt)

/-- A lane at a branch's target, deferred with Y. -/
def jumped (t : Word) (y : Bool) (ln : Lane) : Lane := { ln with pc := t, st := if y then .deferred else .ready }

/-- The lanes of an issue in which the acting ones do `f` and the others go on. -/
def splitLanes (G I : List Nat) (a : Word) (f : Nat → Lane → Lane) (l : Nat) (ln : Lane) : Lane :=
  if l ∈ G then f l ln else if l ∈ I then { ln with pc := a + 8 } else ln

/-- A trap of span `sp` may be entered at once: no address check is open (R20), no fault record is kept back (R22), the span is not in
handler mode (R41), its context has a handler (R39), and the device's write of the frame meets no page that is away, leaving the state
`s1`. -/
structure EntryOpen (s : State) (sp : Span) (r : TrapReq) (c : Cause) (cx : Context) (s1 : State) : Prop where
  there   : s.span? sp.id = some sp
  checks  : sp.checks = []
  ready   : r.issue = false → sp.records = []
  shown   : sp.drafts = []
  user    : sp.hmode = false
  context : s.ctx? sp.ctx = some cx
  handler : cx.handler ≠ 0
  frame   : ∃ pages, s.deviceWrite (some sp.pier) cx (s.areas sp cx).1 (trapFrame sp r c) = (s1, none, pages)

/-- The span after a trap's entry (R39): all lanes ready at the handler at depth 0, predicates clear, s63 and s62 the addresses
of the frame and of the fault area, every other register as it was, handler mode on, the cause kept. -/
structure InHandler (sp sp' : Span) (handler frame faults : Word) (c : Cause) : Prop where
  count   : sp'.lanes.length = sp.lanes.length
  lane    : ∀ l, l < 32 → l < sp.lanes.length → (sp'.lane l).st = .ready ∧ (sp'.lane l).pc = handler ∧ (sp'.lane l).depth = 0 ∧
    (sp'.lane l).preds = 0 ∧ (sp'.lane l).resv = none ∧ (sp'.lane l).wait = none ∧ (sp'.lane l).kept = (sp.lane l).wait ∧
    (sp'.lane l).atTrap = some ((sp.lane l).st, (sp.lane l).pc, (sp.lane l).depth) ∧ (sp'.lane l).task = (sp.lane l).task
  vectors : sp'.vregs = sp.vregs
  scalars : ∀ k, sp'.s k = if k = 63 then frame else if k = 62 then faults else sp.s k
  flags   : sp'.qs = 0
  mode    : sp'.hmode = true
  cause   : sp'.cause = some c ∧ sp'.entered = some c
  rest    : { sp' with lanes := sp.lanes, sregs := sp.sregs, qs := sp.qs, hmode := sp.hmode, cause := sp.cause, entered := sp.entered,
                          due := sp.due, hcause := sp.hcause, trap := sp.trap, resv := sp.resv, point := sp.point } = sp

/-- What a device's own write leaves of a span: all but reservations and watches on the lines it wrote (R47, R185, R197). -/
structure Seen (sp sp' : Span) : Prop where
  count : sp'.lanes.length = sp.lanes.length
  lane  : ∀ l, { sp'.lane l with resv := (sp.lane l).resv, wait := (sp.lane l).wait, kept := (sp.lane l).kept } = sp.lane l
  rest  : { sp' with lanes := sp.lanes, landing := sp.landing, unsent := sp.unsent, joining := sp.joining, resv := sp.resv } = sp

/-- `t` is `s1` but that its span is `sp'`. -/
def Differs (s1 t : State) (id : Nat) (sp' : Span) : Prop :=
  t.span? id = some sp' ∧ { t with spans := s1.spans, picked := s1.picked } = s1 ∧ ∀ j, j ≠ id → t.span? j = s1.span? j

/-- The words for handler mode only (R74, R331, R332), and the span-collective words (R31). -/
def privileged : Instr → Bool
  | .rft _ | .mtc _ | .tlbi _ => true
  | .mfc x => [1, 2, 3, 4, 5, 6, 8, 13].contains x.f6.toNat
  | _ => false

def collective : Instr → Bool
  | .pmma _ | .pmms _ | .plma _ | .pacz _ | .pdrn _ | .pdrb _ | .pacs _ | .pacl _ | .psync _ => true
  | _ => false

/-! Accesses to memory (R60, R125, R182 to R191). -/

/-- ea of R182, modulo 2^64, from base, index and offset; an absent base or index is 0. -/
def effAddr (sp : Span) (x : MEM) (index offset : Bool) (l : Nat) : Nat :=
  let base : Nat := if x.a = 0xFF then 0 else if x.ctl.u || x.ka then (sp.s x.a.toNat).toNat
    else (sp.v x.a.toNat l).toNat + 2 ^ 32 * (sp.v (x.a.toNat + 1) l).toNat
  let ind : Nat := if !index || x.b = 0xFF then 0 else if x.ctl.u || x.kb then (sp.s x.b.toNat).toNat else (sp.v x.b.toNat l).toNat
  (BitVec.ofInt 64 (base + ind + if offset then x.off.toInt else 0)).toNat

/-- Bytes of the SIZE code (R60), and whether a loaded value is sign-extended. -/
def bytesOf (z : BitVec 3) : Nat := [1, 2, 4, 8, 16, 1, 2].getD z.toNat 16
def signed (z : BitVec 3) : Bool := z.toNat = 5 || z.toNat = 6

/-- The registers of a size: one, a pair, or a quad. -/
def wordsOf (z : BitVec 3) : Nat := if z.toNat = 4 then 4 else if z.toNat = 3 then 2 else 1

/-- The access that a memory word makes in lane `l`, or for the whole issue with U (R184 to R191): code 3 of a write is the release
that waits for U stores too (R183). The lane, the numbers and the result are apart. -/
def accessOf (sp : Span) (l : Nat) : Instr → Option Access
  | .ld x => some { op := .load, lane := none, ea := effAddr sp x true true l, size := bytesOf x.size, sgn := signed x.size,
                    order := x.order, scope := x.scope, u := x.order = .seq }
  | .lda x => some { op := .lda, lane := none, ea := effAddr sp x true true l, size := bytesOf x.size, order := x.order,
                     scope := x.scope, u := x.order = .seq }
  | .st x => some { op := .store, lane := none, ea := effAddr sp x true true l, size := bytesOf x.size,
                    order := if x.order = .ar then .rel else x.order, scope := x.scope, u := x.order = .ar || x.order = .seq,
                    data := if x.ctl.u then (sp.s x.d.toNat).setWidth 128 else sp.vn (wordsOf x.size) x.d.toNat l }
  | .atom x => some { op := .atom, lane := none, ea := effAddr sp x false false l, size := bytesOf x.size, sgn := x.ctl.u && x.aty = 1,
                      order := x.order, scope := x.scope, u := x.uw || x.order = .seq, aop := x.aop, aty := x.aty,
                      data := (sp.atomArg x 0 l).setWidth 128, data2 := sp.atomArg x 1 l }
  | .cas x => some { op := .cas, lane := none, ea := effAddr sp x false false l, size := bytesOf x.size, sgn := x.ctl.u && x.aty = 1,
                     order := x.order, scope := x.scope, u := x.uw || x.order = .seq, aop := x.aop, aty := x.aty,
                     data := (sp.atomArg x 0 l).setWidth 128, data2 := sp.atomArg x 1 l }
  | .red x => some { op := .red, lane := none, ea := effAddr sp x false false l, size := bytesOf x.size, sgn := x.ctl.u && x.aty = 1,
                     order := if x.order = .ar then .rel else x.order, scope := x.scope, u := x.order = .ar || x.order = .seq,
                     aop := x.aop, aty := x.aty, data := (sp.atomArg x 0 l).setWidth 128, data2 := sp.atomArg x 1 l }
  | .sred x => some { op := .sred, lane := none, ea := effAddr sp x false false l, size := bytesOf x.size, sgn := x.ctl.u && x.aty = 1,
                      scope := x.scope, aop := x.aop, aty := x.aty, data := (sp.atomArg x 0 l).setWidth 128, data2 := sp.atomArg x 1 l }
  | _ => none

/-- The register that receives the result, and the size, of a memory word that returns one. -/
def resultReg : Instr → Option Nat
  | .ld x | .lda x | .atom x | .cas x => some x.d.toNat
  | _ => none

/-- The accesses of an issue, in lane order: one of each acting lane, or one of the issue with U. -/
def accesses (i : Instr) (sp : Span) (I : List Nat) : List Access :=
  if (shape i).ctl.u then (if acting i sp I = [] then [] else (accessOf sp 0 i).toList)
  else (acting i sp I).filterMap fun l => (accessOf sp l i).map fun q => { q with lane := some l }

/-- Of the span nothing has changed but its results, and what a read has told it of the releases that stand on its bytes (R155). -/
def Told (sp sp' : Span) : Prop := { sp' with results := sp.results, heard := sp.heard, view := sp.view, epoch := sp.epoch } = sp

/-- No earlier access of the span waits for its walk or to be joined by another lane's (R125). -/
structure Alone (sp : Span) : Prop where
  joining : sp.joining = []
  checks  : ∀ c ∈ sp.checks, c.seq ≠ sp.seq

/-- The lanes of the issue stand at the next word; of any lane nothing else but a wait's watch slot has changed. -/
structure GoesFree (sp sp' : Span) (I : List Nat) (a : Word) : Prop where
  count : sp'.lanes.length = sp.lanes.length
  lane  : ∀ l, { sp'.lane l with wait := none } = if l ∈ I then { sp.lane l with pc := a + 8, wait := none } else { sp.lane l with wait := none }

/-- The requests of an instruction (R125): one for each line, in ascending order, each of the instruction's order, scope and place in
program order, and holding exactly the parts of its accesses that lie in its line. `passes` are the accesses with the pages that
their checks passed; `n` is the number of the instruction. -/
structure Requested (n : Nat) (passes : List (Access × List Piece)) (new : List Entry) : Prop where
  lines  : (new.map fun e => (e.vline, e.pline)).Nodup
  rising : (new.map (·.vline)).Pairwise (· ≤ ·)
  place  : ∀ e ∈ new, e.seq = n ∧ e.op = .mem ∧ e.bounces = 0
  parts  : ∀ q, (∃ e ∈ new, ∃ p ∈ e.parts, q = (e.vline, e.pline, p)) ↔
    ∃ x ∈ passes, ∃ w ∈ x.2, ∃ y ∈ lineParts x.1 w, q = (y.1, y.2.1, y.2.2.2)

/-- The lanes that take the outcome of an access's check: each acting lane its own, or with U all lanes of the issue the one (R18, R127). -/
def takers (i : Instr) (sp : Span) (I : List Nat) : List Nat :=
  if (shape i).ctl.u then (if acting i sp I = [] then [] else I) else acting i sp I

/-- What an access's check does to a lane that takes it, in the span `sp'` and the state `u` after it, at the issue of the word at `a` (R18, R19,
R121, R127, R144). -/
def LaneTakes (u : State) (sp sp' : Span) (a : Word) (l : Nat) : Verdict → Prop
  | .pass _ => (sp'.lane l).st = .ready ∧ (sp'.lane l).pc = a + 8
  | .wait => (sp'.lane l).st = .waiting ∧ (sp'.lane l).pc = a ∧ ∃ c ∈ sp'.checks, (sp'.lane l).wait = some (.check c.id) ∧ l ∈ c.lanes
  | .park w pages => (sp'.lane l).st = .parkedRec ∧ (sp'.lane l).pc = a ∧ (sp'.lane l).reason = some w ∧ (sp'.lane l).pages = pages ∧
      ∀ p ∈ pages, ∃ n ∈ u.notices, n.ctx = sp.ctx ∧ n.page = p ∧ n.who = .lane sp.uid l
  | .fatal _ _ => (sp'.lane l).st = .parkedFatal ∧ (sp'.lane l).pc = a ∧ (sp'.lane l).depth = (sp.lane l).depth

def Machine.Verdict.passes : Verdict → Bool | .pass _ => true | _ => false
def Machine.Verdict.fatal? : Verdict → Bool | .fatal _ _ => true | _ => false

/-- The issue of the word is a reclamation point for lane `l`, whose task is doomed (R83, R296). RPT has a statement of its own. -/
def ReclaimsAt (i : Instr) (sp : Span) (I : List Nat) (a : Word) (l : Nat) : Prop :=
  l ∈ I ∧ sp.doomedAt l = true ∧ match i with
  | .bra x | .brq x => l ∈ acting i sp I ∧ (branchTo a x.off).toNat ≤ a.toNat
  | .brx x => l ∈ acting i sp I ∧ (if x.ka then sp.s x.a.toNat else sp.v (x.a.toNat + 1) l ++ sp.v x.a.toNat l).toNat ≤ a.toNat
  | .call _ | .callx _ | .cvg _ | .sleep _ | .fjoin _ | .fpoll _ | .waita _ => l ∈ acting i sp I
  | .spawn _ => True
  | _ => False

/-- Where a lane stands after the issue of a word with a reclamation point that it has gone through as one of the acting lanes that remain. -/
def Stands (i : Instr) (sp : Span) (a : Word) (l : Nat) (ln : Lane) : Prop :=
  match i with
  | .bra x | .brq x => ln.pc = branchTo a x.off ∧ ln.st = if x.y then .deferred else .ready
  | .brx x => let t := if x.ka then sp.s x.a.toNat else sp.v (x.a.toNat + 1) l ++ sp.v x.a.toNat l
      t.toNat % 8 = 0 → ln.pc = t ∧ ln.st = if x.bit 0 then .deferred else .ready
  | .call x => ln.pc = branchTo a x.off ∧ ln.st = .ready ∧ ln.depth = (sp.lane l).depth + 1
  | .callx x => let t := if x.ka then sp.s x.a.toNat else sp.v (x.a.toNat + 1) l ++ sp.v x.a.toNat l
      t.toNat % 8 = 0 → ln.pc = t ∧ ln.st = .ready ∧ ln.depth = (sp.lane l).depth + 1
  | .cvg _ | .sleep _ => ln.pc = a ∧ ln.st = .waiting
  | .fjoin _ => ln.pc = a ∧ ln.st = .waiting ∨ ln.pc = a + 8 ∧ ln.st = .ready
  | .fpoll _ | .spawn _ => ln.pc = a + 8 ∧ ln.st = .ready
  | _ => True

/-! What a save writes (R44, R313 to R315). -/

/-- The byte at an offset of an area that runs of bytes are written into, and the number in `n` bytes there. -/
def runByte (rs : List (Nat × List Byte)) (k : Nat) : Option Byte := (rs.find? fun r => decide (r.1 ≤ k) && decide (k < r.1 + r.2.length)).bind fun r => r.2[k - r.1]?
def RunNat (rs : List (Nat × List Byte)) (off n v : Nat) : Prop := ∀ k, k < n → runByte rs (off + k) = some (BitVec.ofNat 8 (v / 256 ^ k))

/-- Who owns what an issue creates or drops (R286): the task of its lowest lane, or the span where that lane runs none. -/
def ownerOf (sp : Span) (I : List Nat) : Owner := (sp.lane (I.headD 0)).task.elim (.span sp.uid) fun t => .task t.uid

/-! The net tree table (R334). -/

/-- The number in `n` bytes of an entry. -/
def entryField (e : List Byte) (at_ n : Nat) : Nat := leNat ((e.drop at_).take n)

/-- The parent of a pier in an entry. -/
def parentIn (e : List Byte) (i : Nat) : Nat := entryField e (0x40 + i) 1

/-- The conditions on which an entry's tree is configured, in a partition with these piers. A scope code that is none of the three leaves
the tree unconfigured. (log 37, DEDUCED) -/
structure TreeGood (piers : List Nat) (e : List Byte) : Prop where
  scope    : entryField e 0x1A 1 = 3 ∨ entryField e 0x1A 1 = 4 ∨ entryField e 0x1A 1 = 5
  root     : entryField e 0x1B 1 < 160 ∧ ∀ i, i < 160 → (parentIn e i = 254 ↔ i = entryField e 0x1B 1)
  named    : ∀ i, i < 160 → parentIn e i ≠ 255 → parentIn e i ≠ 254 → parentIn e i < 160 ∧ parentIn e (parentIn e i) ≠ 255
  leads    : ∀ i, i < 160 → parentIn e i ≠ 255 → ∃ n, n ≤ 160 ∧ (parentIn e)^[n] i = entryField e 0x1B 1
  owned    : ∀ i, i < 160 → parentIn e i ≠ 255 → i ∈ piers
  oneDie   : entryField e 0x1A 1 = 3 → ∀ i, i < 160 → parentIn e i ≠ 255 → i / 40 = entryField e 0x1B 1 / 40
  aligned  : entryField e 0 8 % 128 = 0 ∧ entryField e 8 8 % 8 = 0 ∧ entryField e 8 8 ≠ 0
  reserved : ∀ k, 0x1C ≤ k ∧ k < 0x40 ∨ 0xE0 ≤ k ∧ k < 0x100 → e.getD k 0 = 0

/-- The tree that an entry gives, its open round 0 and nothing contributed to it. -/
structure TreeIs (num ctx : Nat) (e : List Byte) (t : Tree) : Prop where
  from_   : t.num = num ∧ t.ctx = ctx
  writes  : t.result.toNat = entryField e 0 8 ∧ t.donea.toNat = entryField e 8 8 ∧ t.donev.toNat = entryField e 16 8
  timeout : t.timeout = if entryField e 0x18 2 = 0 then 100 else entryField e 0x18 2
  scope   : entryField e 0x1A 1 = (match t.scope with | .die => 3 | .pkg => 4 | .sys => 5 | _ => 0)
  root    : t.root = entryField e 0x1B 1
  parents : ∀ i, i < 160 → t.parent.getD i 255 = parentIn e i
  fresh   : t.round = 0 ∧ t.sent = [] ∧ t.owners = [] ∧ t.due = none ∧ t.owed = none

/-! Runs. -/

/-- A run is safe for `n` steps when each of them answers a next state. -/
def safeFor (n : Nat) (s : State) : Prop := ∀ k, k ≤ n → ∃ t, core.run k s = .next t

end Sys2Proof
end

