-- ==== Sys2Proof/Certificates/Slice0/Obligations.lean ====
section
/-! DEFINITION. The statements for the provers, from the numbered rules of the manual. -/

section

open Sys2Proof Sys2Proof.Machine

/-! Integer words (R58, R95 to R108). -/

/-- R95, R96, R97: an integer word of two operands in its register form. R58, R95, R96, R97: an integer word of two operands in its
immediate form. -/
def Obligations.integer_words : Prop :=
  (∀ (i : Instr) (op : IntOp) (x : RRR), regForm i = some (op, x) →
   ∀ (s : State) (sp0 sp : Span) (I : List Nat) (a : Word), Clear i s sp0 sp I a →
     ∃ F : Nat → BitVec (tyWidth x.ty),
       (∀ l, op.Result (tySigned x.ty) (sp.opA x (tyWidth x.ty) l) (sp.opB x (tyWidth x.ty) l) (F l)) ∧
       Puts i s sp I a (tyWidth x.ty) x.ctl.u (tySigned x.ty) x.d F) ∧
  (∀ (i : Instr) (op : IntOp) (x : RIT), immForm i = some (op, x) →
   ∀ (s : State) (sp0 sp : Span) (I : List Nat) (a : Word), Clear i s sp0 sp I a →
     ∃ F : Nat → BitVec (tyWidth x.ty),
       (∀ l, op.Result (tySigned x.ty) (sp.src (tyWidth x.ty) x.ctl.u x.a l)
         (if tySigned x.ty then x.imm.signExtend (tyWidth x.ty) else x.imm.setWidth (tyWidth x.ty)) (F l)) ∧
       Puts i s sp I a (tyWidth x.ty) x.ctl.u (tySigned x.ty) x.d F)

/-- R95, R98, R99, R100: MAD, NEG, ABS, SEL, MOV, XTN, MOVI, MOVH and LEA. R101, R102: BFX, BFI, POPC, CLZ and BREV, bit by bit. -/
def Obligations.moves_and_bit_fields : Prop :=
  (∀ (s : State) (sp0 sp : Span) (I : List Nat) (a : Word),
     (∀ x : RRR, Clear (.mad x) s sp0 sp I a → Puts (.mad x) s sp I a (tyWidth x.ty) x.ctl.u (tySigned x.ty) x.d fun l =>
       BitVec.ofInt _ (exact (tySigned x.ty) (sp.opA x (tyWidth x.ty) l) * exact (tySigned x.ty) (sp.opB x (tyWidth x.ty) l) +
         exact (tySigned x.ty) (sp.opC x (tyWidth x.ty) l))) ∧
     (∀ x : RRR, Clear (.neg x) s sp0 sp I a → Puts (.neg x) s sp I a (tyWidth x.ty) x.ctl.u true x.d fun l =>
       BitVec.ofInt _ (-(sp.opA x (tyWidth x.ty) l).toInt)) ∧
     (∀ x : RRR, Clear (.abs x) s sp0 sp I a → Puts (.abs x) s sp I a (tyWidth x.ty) x.ctl.u true x.d fun l =>
       BitVec.ofInt _ ((sp.opA x (tyWidth x.ty) l).toInt.natAbs)) ∧
     (∀ x : RRR, Clear (.sel x) s sp0 sp I a → Puts (.sel x) s sp I a (tyWidth x.ty) x.ctl.u false x.d fun l =>
       if (if x.ctl.u then sp.q x.c.toNat else sp.p x.c.toNat l) = !x.bit 0 then sp.opA x (tyWidth x.ty) l
       else sp.opB x (tyWidth x.ty) l) ∧
     (∀ x : RRR, x.ty ≠ .b128 → Clear (.mov x) s sp0 sp I a → Puts (.mov x) s sp I a (tyWidth x.ty) x.ctl.u false x.d fun l =>
       sp.opA x (tyWidth x.ty) l) ∧
     (∀ x : RRR, x.ty = .b128 → Clear (.mov x) s sp0 sp I a → PutsV (.mov x) s sp I a 4 x.d.toNat fun l => sp.v128 x.a.toNat l) ∧
     (∀ x : RRR, Clear (.xtn x) s sp0 sp I a →
       Puts (.xtn x) s sp I a (if x.bit 0 || x.ctl.u then 64 else 32) x.ctl.u (tySigned x.ty) x.d fun l =>
         BitVec.ofInt _ (exact (tySigned x.ty) ((sp.opA x 32 l).setWidth (tyWidth x.ty)))) ∧
     (∀ x : RIW, Clear (.movi x) s sp0 sp I a →
       Puts (.movi x) s sp I a (if x.ctl.u then 64 else 32) x.ctl.u true x.d fun _ => BitVec.ofInt _ x.imm.toInt) ∧
     (∀ x : RIW, Clear (.movh x) s sp0 sp I a → ∃ F : Nat → BitVec (if x.ctl.u then 64 else 32),
       (∀ l j, j < (if x.ctl.u then 64 else 32) → (F l).getLsbD j =
         if 16 * (x.a.toNat % 4) ≤ j ∧ j < 16 * (x.a.toNat % 4) + 16 then x.imm.getLsbD (j - 16 * (x.a.toNat % 4))
         else if x.ctl.u then (sp.s x.d.toNat).getLsbD j else (sp.v x.d.toNat l).getLsbD j) ∧
       Puts (.movh x) s sp I a (if x.ctl.u then 64 else 32) x.ctl.u false x.d F) ∧
     (∀ x : RIW, Clear (.lea x) s sp0 sp I a →
       Puts (.lea x) s sp I a 64 x.ctl.u false x.d fun _ => BitVec.ofInt 64 (a.toNat + 8 * x.imm.toInt))) ∧
  (∀ (s : State) (sp0 sp : Span) (I : List Nat) (a : Word) (x : RRR),
     (Clear (.bfx x) s sp0 sp I a → ∃ F : Nat → BitVec (tyWidth x.ty),
       (∀ l k, k < tyWidth x.ty → (F l).getLsbD k =
         let b := (sp.opB x (tyWidth x.ty) l).toNat
         let n := fieldLen (tyWidth x.ty) b
         if n = 0 then false
         else if k < n then (sp.opA x (tyWidth x.ty) l).getLsbD (fieldPos b + k)
         else tySigned x.ty && (sp.opA x (tyWidth x.ty) l).getLsbD (fieldPos b + n - 1)) ∧
       Puts (.bfx x) s sp I a (tyWidth x.ty) x.ctl.u (tySigned x.ty) x.d F) ∧
     (Clear (.bfi x) s sp0 sp I a → ∃ F : Nat → BitVec (tyWidth x.ty),
       (∀ l k, k < tyWidth x.ty → (F l).getLsbD k =
         let b := (sp.opB x (tyWidth x.ty) l).toNat
         if fieldPos b ≤ k ∧ k < fieldPos b + fieldLen (tyWidth x.ty) b then (sp.opA x (tyWidth x.ty) l).getLsbD (k - fieldPos b)
         else (sp.opC x (tyWidth x.ty) l).getLsbD k) ∧
       Puts (.bfi x) s sp I a (tyWidth x.ty) x.ctl.u false x.d F) ∧
     (Clear (.popc x) s sp0 sp I a → Puts (.popc x) s sp I a 32 x.ctl.u false x.d fun l =>
       BitVec.ofNat 32 ((List.range (tyWidth x.ty)).countP fun k => (sp.opA x (tyWidth x.ty) l).getLsbD k)) ∧
     (Clear (.clz x) s sp0 sp I a → ∃ n : Nat → Nat,
       (∀ l, n l ≤ tyWidth x.ty ∧ (∀ k, k < n l → (sp.opA x (tyWidth x.ty) l).getLsbD (tyWidth x.ty - 1 - k) = false) ∧
         (n l < tyWidth x.ty → (sp.opA x (tyWidth x.ty) l).getLsbD (tyWidth x.ty - 1 - n l) = true)) ∧
       Puts (.clz x) s sp I a 32 x.ctl.u false x.d fun l => BitVec.ofNat 32 (n l)) ∧
     (Clear (.brev x) s sp0 sp I a → ∃ F : Nat → BitVec (tyWidth x.ty),
       (∀ l k, k < tyWidth x.ty → (F l).getLsbD k = (sp.opA x (tyWidth x.ty) l).getLsbD (tyWidth x.ty - 1 - k)) ∧
       Puts (.brev x) s sp I a (tyWidth x.ty) x.ctl.u false x.d F))

/-- R103, R104, R105, R106: SHFL, REDS, RDLN and WRLN, where no register that they reach across lanes is pending or awaited. R107: MFS
gives each acting lane the value of the special register, and MTS writes spantag. R108: RDIX and WRIX, where every index is below the
budget and names no pending register; an index of an acting lane at or above the budget traps REGBUD, and after it one that names a
pending register UNSYNC. Which lanes' registers a lane exchange tests is the model's reading (log 24), and so is which landing entries
count as free (log 32). -/
def Obligations.lanes_and_special_registers : Prop :=
  (∀ (s : State) (sp0 sp : Span) (I : List Nat) (a : Word) (x : RRR),
     (let from_ := fun l => shuffleFrom x.lo2 (2 ^ (x.f6.toNat / 4 % 8)) l (sp.src 32 x.kb x.b l).toNat;
       Clear (.shfl x) s sp0 sp I a → sp.crossPending (run x.a.toNat x.ty.regs) ((acting (.shfl x) sp I).map from_) = false →
       Puts (.shfl x) s sp I a (tyWidth x.ty) false false x.d fun l => sp.src (tyWidth x.ty) false x.a (from_ l)) ∧
     (Clear (.reds x) s sp0 sp I a → ∃ V : BitVec (tyWidth x.ty),
       (let J := (acting (.reds x) sp I).map fun l => sp.src (tyWidth x.ty) false x.a l;
         (x.lo3 = 0 → V = BitVec.ofInt _ ((J.map (exact (tySigned x.ty))).sum)) ∧
         (x.lo3 = 1 → (J = [] → V = BitVec.ofInt _ (highest (tyWidth x.ty) (tySigned x.ty))) ∧
           (J ≠ [] → V ∈ J ∧ ∀ y ∈ J, exact (tySigned x.ty) V ≤ exact (tySigned x.ty) y)) ∧
         (x.lo3 = 2 → (J = [] → V = BitVec.ofInt _ (lowest (tyWidth x.ty) (tySigned x.ty))) ∧
           (J ≠ [] → V ∈ J ∧ ∀ y ∈ J, exact (tySigned x.ty) y ≤ exact (tySigned x.ty) V)) ∧
         (x.lo3 = 3 → ∀ k, k < tyWidth x.ty → V.getLsbD k = J.all (·.getLsbD k)) ∧
         (x.lo3 = 4 → ∀ k, k < tyWidth x.ty → V.getLsbD k = J.any (·.getLsbD k)) ∧
         (x.lo3 = 5 → ∀ k, k < tyWidth x.ty → V.getLsbD k = decide (J.countP (·.getLsbD k) % 2 = 1))) ∧
       PutsS (.reds x) s sp I a x.d.toNat True (filled (tyWidth x.ty) (tySigned x.ty) V)) ∧
     (let L := if x.bit 5 then x.f6.toNat % 32 else (sp.s x.b.toNat).toNat % 32;
       (Clear (.rdln x) s sp0 sp I a → sp.crossPending (run x.a.toNat x.ty.regs) [L] = false →
         PutsS (.rdln x) s sp I a x.d.toNat True ((sp.src (tyWidth x.ty) false x.a L).setWidth 64)) ∧
       (Clear (.wrln x) s sp0 sp I a → sp.crossPending (run x.d.toNat x.ty.regs) [L] = false →
         Becomes (.wrln x) s sp fun sp' => Goes sp sp' I a ∧
           WritesV (if tyWidth x.ty = 64 then 2 else 1) x.d.toNat [L] (fun _ => (sp.s x.a.toNat).setWidth (tyWidth x.ty)) sp sp'))) ∧
  (∀ (s : State) (sp0 sp : Span) (I : List Nat) (a : Word) (x : RRR),
     (Clear (.mfs x) s sp0 sp I a → ∀ value : Nat → Nat, (∀ l, (x.a.toNat, value l) ∈ specials s sp I a l) →
       PutsV (.mfs x) s sp I a (if x.a.toNat = 2 ∨ x.a.toNat = 5 ∨ x.a.toNat = 6 then 2 else 1) x.d.toNat fun l =>
         BitVec.ofNat 64 (value l)) ∧
     (Clear (.mts x) s sp0 sp I a → ∃ sp', Goes sp sp' I a ∧
       { sp' with lanes := sp.lanes, spantag := sp.spantag, wHold := sp.wHold } = sp ∧ sp'.spantag = (sp.s x.a.toNat).setWidth 32 ∧
       sp'.wHold = s.waitsAt (.mts x) sp ∧ Leaves (.mts x) s sp sp')) ∧
  (∀ (s : State) (sp0 sp : Span) (I : List Nat) (a : Word) (x : RRR),
     (Clear (.rdix x) s sp0 sp I a →
       (∀ l ∈ acting (.rdix x) sp I, (sp.v x.a.toNat l).toNat < sp.budget) →
       (∀ l ∈ I, ∀ r ∈ sp.results, r.hits { v := [(sp.v x.a.toNat l).toNat] } [l] = false) →
       PutsV (.rdix x) s sp I a 1 x.d.toNat fun l => sp.v (sp.v x.a.toNat l).toNat l) ∧
     (Clear (.wrix x) s sp0 sp I a →
       (∀ l ∈ acting (.wrix x) sp I, (sp.v x.d.toNat l).toNat < sp.budget) →
       (∀ l ∈ I, ∀ r ∈ sp.results, r.hits { v := [(sp.v x.d.toNat l).toNat] } [l] = false) →
       Becomes (.wrix x) s sp fun sp' => Goes sp sp' I a ∧ sp'.sregs = sp.sregs ∧ sp'.qs = sp.qs ∧
         ∀ r l, l < 32 → sp'.v r l =
           if l ∈ acting (.wrix x) sp I ∧ r = (sp.v x.d.toNat l).toNat then sp.src 32 x.ka x.a l else sp.v r l) ∧
     ∀ (i : Instr) (f : BitVec 8), (i = .rdix x ∧ f = x.a) ∨ (i = .wrix x ∧ f = x.d) → Clear i s sp0 sp I a →
       let traps := fun c => exec i s = .next { ((s.putSpan sp).takeTrap sp.id ⟨c, true, a, I⟩) with picked := none }
       let past := ∃ l ∈ acting i sp I, sp.budget ≤ (sp.v f.toNat l).toNat
       (past → traps .regbud) ∧
       (¬ past → (∃ l ∈ I, ∃ r ∈ sp.results, r.hits { v := [(sp.v f.toNat l).toNat] } [l] = true) → traps .unsync))

/-! Predicates (R61, R89 to R94). -/

/-- R61, R89: CMP in both forms. R61, R90: FCMP. R91, R92, R93, R94: PLOP, PMOV, VOTE and PSET. -/
def Obligations.compares_and_predicates : Prop :=
  (∀ (s : State) (sp0 sp : Span) (I : List Nat) (a : Word),
     (∀ x : RRR, Clear (.cmp x) s sp0 sp I a →
       Compares (.cmp x) s sp I a x.ctl (combineOfNat x.lo3) x.d fun l => condHolds (condOfNat x.hi3)
         (exact (tySigned x.ty) (sp.opA x (tyWidth x.ty) l)) (exact (tySigned x.ty) (sp.opB x (tyWidth x.ty) l))) ∧
     (∀ x : RIC, Clear (.cmpImm x) s sp0 sp I a →
       Compares (.cmpImm x) s sp I a x.ctl x.ct x.d fun l => condHolds x.cond
         (exact (tySigned x.ty) (sp.src (tyWidth x.ty) x.ctl.u x.a l))
         (if tySigned x.ty then (x.imm.signExtend (tyWidth x.ty)).toInt else (x.imm.setWidth (tyWidth x.ty)).toNat))) ∧
  (∀ (s : State) (sp0 sp : Span) (I : List Nat) (a : Word) (x : RRR), x.ctl.u = false → Clear (.fcmp x) s sp0 sp I a →
     ∃ c : Nat → Bool, Compares (.fcmp x) s sp I a x.ctl (combineOfNat x.lo3) x.d c ∧
       ∀ l, c l = true ↔ FloatHolds (condOfNat x.hi3) (fmtOf x.ty) (sp.v x.a.toNat l).toNat (sp.src 32 x.kb x.b l).toNat) ∧
  (∀ (s : State) (sp0 sp : Span) (I : List Nat) (a : Word) (x : RRR),
     (Clear (.plop x) s sp0 sp I a → Becomes (.plop x) s sp fun sp' => KeepsRegs sp sp' ∧ GoesOn sp sp' I a ∧
       (∀ r, r < 8 → sp'.q r = if x.ctl.u = true ∧ acting (.plop x) sp I ≠ [] ∧ r = x.d.toNat then
         x.f6.getLsbD ((if sp.q x.a.toNat then 2 else 0) + (if sp.q x.b.toNat then 1 else 0)) else sp.q r) ∧
       (∀ r l, r < 16 → sp'.p r l = if x.ctl.u = false ∧ l ∈ acting (.plop x) sp I ∧ r = x.d.toNat then
         x.f6.getLsbD ((if sp.p x.a.toNat l then 2 else 0) + (if sp.p x.b.toNat l then 1 else 0)) else sp.p r l)) ∧
     (Clear (.pmov x) s sp0 sp I a →
       (x.lo2 = 0 → PutsV (.pmov x) s sp I a 1 x.d.toNat fun l => (sp.lane l).preds.setWidth 32) ∧
       (x.lo2 = 1 → Becomes (.pmov x) s sp fun sp' => KeepsRegs sp sp' ∧ sp'.qs = sp.qs ∧ GoesOn sp sp' I a ∧
         ∀ l, (sp'.lane l).preds = if l ∈ acting (.pmov x) sp I then (sp.v x.a.toNat l).setWidth 16 else (sp.lane l).preds) ∧
       (x.lo2 = 2 → PutsS (.pmov x) s sp I a x.d.toNat (acting (.pmov x) sp I ≠ []) (sp.qs.setWidth 64)) ∧
       (x.lo2 = 3 → Becomes (.pmov x) s sp fun sp' => KeepsRegs sp sp' ∧ Goes sp sp' I a ∧
         sp'.qs = if acting (.pmov x) sp I = [] then sp.qs else (sp.s x.a.toNat).setWidth 8)) ∧
     (Clear (.vote x) s sp0 sp I a →
       let J := (acting (.vote x) sp I).filter fun l => sp.p x.a.toNat l != x.bit 2
       (x.lo2 < 2 → Becomes (.vote x) s sp fun sp' => KeepsRegs sp sp' ∧ Goes sp sp' I a ∧ ∀ r, r < 8 → sp'.q r =
         if r = x.d.toNat then (if x.lo2 = 0 then decide (J = acting (.vote x) sp I) else decide (J ≠ [])) else sp.q r) ∧
       (x.lo2 = 2 → PutsS (.vote x) s sp I a x.d.toNat True (BitVec.ofNat 64 (laneMask J)))) ∧
     (Clear (.pset x) s sp0 sp I a →
       let value := fun l => if x.lo2 = 0 then false else if x.lo2 = 1 then true else decide (sp.opA x (tyWidth x.ty) l ≠ 0)
       Becomes (.pset x) s sp fun sp' => KeepsRegs sp sp' ∧ GoesOn sp sp' I a ∧
         (∀ r, r < 8 → sp'.q r = if x.ctl.u = true ∧ acting (.pset x) sp I ≠ [] ∧ r = x.d.toNat then value 0 else sp.q r) ∧
         (∀ r l, r < 16 → sp'.p r l = if x.ctl.u = false ∧ l ∈ acting (.pset x) sp I ∧ r = x.d.toNat then value l else sp.p r l)))

/-! Float, conversion and random words (R243, R263 to R275). -/

/-- R225, R264, R265, R266, R268, R269: each element of the result is the function of that element of the operands. R63, R264, R265: FDIV,
FSQRT, FRCP, FRSQ, FEX2 and FLG2 leave each acting lane's result pending in D, with its value. R267: FDOT2. R227, R265: the special cases
of sums, products and quotients: with a NaN the one canonical NaN, the infinities, and what has no value. -/
def Obligations.float_words : Prop :=
  (∀ (i : Instr) (x : RRR) (f : Nat → Nat → Nat → Nat), floatForm i = some (x, f) →
   ∀ (s : State) (sp0 sp : Span) (I : List Nat) (a : Word), Clear i s sp0 sp I a →
     PutsV i s sp I a 1 x.d.toNat fun l => fromElements x.ty fun e =>
       f (element x.ty e (sp.src 32 x.ka x.a l)) (element x.ty e (sp.src 32 x.kb x.b l)) (element x.ty e (sp.v x.c.toNat l))) ∧
  (∀ (i : Instr) (x : RRR) (f : Nat → Nat → Nat), slowFloat i = some (x, f) → packed x.ty = false →
   ∀ (s : State) (sp0 sp : Span) (I : List Nat) (a : Word), Clear i s sp0 sp I a → ∃ sp', Leaves i s sp sp' ∧ Goes sp sp' I a ∧
     { sp' with lanes := sp.lanes, results := sp.results, seq := sp.seq, wHold := sp.wHold } = sp ∧
     sp'.seq = sp.seq + (acting i sp I).length ∧
     ∃ new : List Result, sp'.results = sp.results ++ new ∧
       (∀ r ∈ new, r.vreg = some (x.d.toNat, 1) ∧ r.sreg = none ∧ r.pred = none ∧ r.need = 0 ∧ sp.seq ≤ r.id ∧ r.id < sp'.seq) ∧
       new.map (·.lane) = (acting i sp I).map some ∧
       new.map (·.val) = (acting i sp I).map (fun l => BitVec.ofNat 128
         ((BitVec.ofNat 32 (f (element x.ty 0 (sp.src 32 x.ka x.a l)) (element x.ty 0 (sp.src 32 x.kb x.b l)))).toNat))) ∧
  (∀ (s : State) (sp0 sp : Span) (I : List Nat) (a : Word) (x : RRR), Clear (.fdot2 x) s sp0 sp I a →
     PutsV (.fdot2 x) s sp I a 1 x.d.toNat fun l =>
       BitVec.ofNat 32 (fdot2 (fmtOf x.ty) x.hi3 (sp.src 32 x.ka x.a l).toNat (sp.src 32 x.kb x.b l).toNat (sp.v x.c.toNat l).toNat)) ∧
  ∀ f : Fmt, f ∈ [fp32, fp16, bf16] → ∀ (mode a b c : Nat) (nc np : Bool),
    let nan := infinity f false + 2 ^ (f.fw - 1)
    let zero := fun y => isFinite f y ∧ magnitude f y = 0
    let s := negOf f a != negOf f b
    (isNaN f a ∨ isNaN f b → fadd f mode a b = nan ∧ fsub f mode a b = nan ∧ fmul f mode a b = nan ∧ fdiv f mode a b = nan) ∧
    (isNaN f a ∨ isNaN f b ∨ isNaN f c → ffma f mode nc np a b c = nan) ∧
    (isInfinite f a → isInfinite f b → fadd f mode a b = (if s then nan else infinity f (negOf f a)) ∧
      fsub f mode a b = (if s then infinity f (negOf f a) else nan) ∧ fmul f mode a b = infinity f s ∧ fdiv f mode a b = nan) ∧
    (isInfinite f a → isFinite f b → fadd f mode a b = infinity f (negOf f a) ∧ fsub f mode a b = infinity f (negOf f a) ∧
      (zero b → fmul f mode a b = nan ∧ fmul f mode b a = nan) ∧ (¬ zero b → fmul f mode a b = infinity f s ∧ fmul f mode b a = infinity f s) ∧
      fadd f mode b a = infinity f (negOf f a) ∧ fsub f mode b a = infinity f !negOf f a ∧ fdiv f mode a b = infinity f s ∧ fdiv f mode b a = signed0 f s) ∧
    (zero b → (zero a → fdiv f mode a b = nan) ∧ (isFinite f a → ¬ zero a → fdiv f mode a b = infinity f s)) ∧
    (isInfinite f a → zero b ∨ isInfinite f c ∧ ((s != np) != (negOf f c != nc)) = true → ffma f mode nc np a b c = nan)

/-- R223, R226, R264: sums, products, quotients, reciprocals, fused products and conversions of finite numbers are their exact values
rounded once, subnormal numbers taking part and being results like others, and ties and overflow as the mode says. -/
def Obligations.rounding : Prop :=
  ∀ f : Fmt, f ∈ [fp32, fp16, bf16] → ∀ mode : Nat, mode < 5 →
    (∀ a b, isFinite f a → isFinite f b →
      let both := fun (p q : Bool) => if magnitude f a = 0 ∧ magnitude f b = 0 ∧ p = q then some p else none
      SumsTo f mode (both (negOf f a) (negOf f b)) (units f a + units f b) 1 (fadd f mode a b) ∧
      SumsTo f mode (both (negOf f a) !negOf f b) (units f a - units f b) 1 (fsub f mode a b) ∧
      RoundsTo f mode (negOf f a != negOf f b) (magnitude f a * magnitude f b) (unitsOfOne f) (fmul f mode a b) ∧
      (magnitude f b ≠ 0 → RoundsTo f mode (negOf f a != negOf f b) (magnitude f a * unitsOfOne f) (magnitude f b) (fdiv f mode a b) ∧
        RoundsTo f mode (negOf f b) (unitsOfOne f * unitsOfOne f) (magnitude f b) (frcp f mode b))) ∧
    (∀ a b c nc np, isFinite f a → isFinite f b → isFinite f c →
      let p : Int := units f a * units f b
      let q : Int := units f c * unitsOfOne f
      let sp := (negOf f a != negOf f b) != np
      let sc := negOf f c != nc
      SumsTo f mode (if p = 0 ∧ q = 0 ∧ sp = sc then some sp else none) ((if np then -p else p) + if nc then -q else q) (unitsOfOne f)
        (ffma f mode nc np a b c)) ∧
    ∀ g : Fmt, g ∈ [fp32, fp16, bf16] → ∀ x, isFinite g x →
      RoundsTo f mode (negOf g x) (magnitude g x * unitsOfOne f) (unitsOfOne g) (convert g f mode x)

/-- R243, R271, R272, R273, R274, R275: CVT, RNG, PACK and UNPK. -/
def Obligations.conversions : Prop :=
  ∀ (s : State) (sp0 sp : Span) (I : List Nat) (a : Word) (x : RRR),
    (∀ st, x.lo3 = 0 → cvtSrc x = some st → isFloatTy st = true → isFloatTy x.ty = true → Clear (.cvt x) s sp0 sp I a →
      PutsV (.cvt x) s sp I a 1 x.d.toNat fun l => BitVec.ofNat 32 (convert (fmtOf st) (fmtOf x.ty) x.hi3 (sp.src 32 x.ka x.a l).toNat)) ∧
    (∀ st, x.lo3 = 0 → cvtSrc x = some st → isFloatTy st = true → isFloatTy x.ty = false → Clear (.cvt x) s sp0 sp I a →
      PutsV (.cvt x) s sp I a (if tyWidth x.ty = 64 then 2 else 1) x.d.toNat fun l =>
        BitVec.ofInt (tyWidth x.ty) (toInteger (fmtOf st) x.hi3 (tyWidth x.ty) (tySigned x.ty) (sp.src 32 x.ka x.a l).toNat)) ∧
    (∀ st, x.lo3 = 0 → cvtSrc x = some st → isFloatTy st = false → isFloatTy x.ty = true → Clear (.cvt x) s sp0 sp I a →
      PutsV (.cvt x) s sp I a 1 x.d.toNat fun l =>
        BitVec.ofNat 32 (ofInteger (fmtOf x.ty) x.hi3 (exact (tySigned st) (sp.src (tyWidth st) x.ka x.a l)))) ∧
    (0 < x.lo3 → Clear (.cvt x) s sp0 sp I a → PutsV (.cvt x) s sp I a 1 x.d.toNat fun l =>
      let q := sp.src 32 x.ka x.a l
      let e := (sp.src 32 x.kb x.b l).toNat % 256
      BitVec.ofNat 32 (
        if x.lo3 = 1 then fp32.round 0 false (q.toNat / 256) (-24)
        else if x.lo3 = 2 then fp32.round 0 false (2 * (q.toNat / 512) + 1) (-24)
        else if e = 255 then fp32.nan
        else if x.lo3 = 3 then fp32.put 0 (bqValue (x.c.toNat % 16 + 1) (x.c.getLsbD 4) q.toNat e)
        else fp32.put 0 (l6Value (q.toNat % 64) e))) ∧
    (Clear (.rng x) s sp0 sp I a → PutsV (.rng x) s sp I a 4 x.d.toNat fun l =>
      let k := sp.src 64 x.kb x.b l
      philox (if x.bit 0 then 7 else 10) (sp.v x.a.toNat l) (sp.v (x.a.toNat + 1) l) (sp.v (x.a.toNat + 2) l) (sp.v (x.a.toNat + 3) l)
        (k.extractLsb' 0 32) (k.extractLsb' 32 32)) ∧
    (Clear (.pack x) s sp0 sp I a → PutsV (.pack x) s sp I a 1 x.d.toNat fun l =>
      let p := sp.src 32 x.ka x.a l
      let q := sp.src 32 x.kb x.b l
      let sat := fun (w : Nat) (v : BitVec 32) => BitVec.ofInt w (max (lowest w (tySigned x.ty)) (min (highest w (tySigned x.ty)) v.toInt))
      if packed x.ty then fromElements x.ty fun e => convert fp32 (fmtOf x.ty) x.hi3 (if e = 0 then p else q).toNat
      else if x.ty = .s16 ∨ x.ty = .n16 then sat 16 q ++ sat 16 p
      else if x.ty = .s8 ∨ x.ty = .n8 then
        (if x.bit 0 then sat 8 q ++ sat 8 p ++ (sp.v x.d.toNat l).extractLsb' 0 16
         else (sp.v x.d.toNat l).extractLsb' 16 16 ++ (sat 8 q ++ sat 8 p))
      else q.extractLsb' 0 16 ++ p.extractLsb' 0 16) ∧
    (Clear (.unpk x) s sp0 sp I a → PutsV (.unpk x) s sp I a 1 x.d.toNat fun l =>
      let q := sp.src 32 x.ka x.a l
      let k := x.f6.toNat % 4
      if packed x.ty then BitVec.ofNat 32 (convert (fmtOf x.ty) fp32 0 (q.extractLsb' (16 * k) 16).toNat)
      else if x.ty = .s8 then (q.extractLsb' (8 * k) 8).signExtend 32
      else if x.ty = .n8 then (q.extractLsb' (8 * k) 8).setWidth 32
      else if x.ty = .s16 then (q.extractLsb' (16 * k) 16).signExtend 32
      else (q.extractLsb' (16 * k) 16).setWidth 32)

/-! Paired words (R68 to R72). -/

/-- R69, R72: a paired word, whatever its two compact opcodes: both halves read before either writes. -/
def Obligations.paired_words : Prop :=
  ∀ (c : Cop) (x : Pair) (s : State) (sp0 sp : Span) (I : List Nat) (a : Word), Clear (pairInstr x c) s sp0 sp I a →
    ∃ R0 R1 : Nat → Word, (∀ l, HalfResult sp c x.h0 l (R0 l)) ∧ (∀ l, HalfResult sp x.h1.cop x.h1.f l (R1 l)) ∧
      Becomes (pairInstr x c) s sp fun sp' => Goes sp sp' I a ∧ sp'.sregs = sp.sregs ∧ sp'.qs = sp.qs ∧ ∀ r l, l < 32 →
        (Half.reaches sp I x.h1 r l → sp'.v r l = (R1 l).extractLsb' (32 * (r - x.h1.f.d.toNat)) 32) ∧
        (¬ Half.reaches sp I x.h1 r l → Half.reaches sp I ⟨c, x.h0⟩ r l →
          sp'.v r l = (R0 l).extractLsb' (32 * (r - x.h0.d.toNat)) 32) ∧
        (¬ Half.reaches sp I x.h1 r l → ¬ Half.reaches sp I ⟨c, x.h0⟩ r l → sp'.v r l = sp.v r l)

/-! Control words (R35 to R37, R79 to R88). -/

/-- R80, R82, R84, R88: NOP, BRA, BRQ, YIELD, and CALL where no acting lane stands at depth 255. R80, R82: BRX, CALLX and RET where every
acting lane's target is a multiple of 8, and no depth leaves its range. R81: the lanes whose BRX, CALLX or RET target is not a multiple of
8 fault on the word, in ascending order, with no effect in them, and the other lanes of the issue proceed. R35, R82: CALL and CALLX with
an acting lane at depth 255, and RET with one at depth 0, trap DEPTH at issue, with no effect in any lane and every lane of the issue on
the word. -/
def Obligations.branches : Prop :=
  (∀ (s : State) (sp0 sp : Span) (I : List Nat) (a : Word),
     (∀ x : RRR, Clear (.nop x) s sp0 sp I a → Becomes (.nop x) s sp fun sp' => Goes sp sp' I a ∧ KeepsRegs sp sp' ∧ sp'.qs = sp.qs) ∧
     (∀ x : RIB, Clear (.bra x) s sp0 sp I a → Becomes (.bra x) s sp fun sp' => KeepsRegs sp sp' ∧ sp'.qs = sp.qs ∧
       Lanes sp sp' (splitLanes (acting (.bra x) sp I) I a fun _ => jumped (branchTo a x.off) x.y)) ∧
     (∀ x : RIB, Clear (.brq x) s sp0 sp I a → Becomes (.brq x) s sp fun sp' => KeepsRegs sp sp' ∧ sp'.qs = sp.qs ∧
       Lanes sp sp' (splitLanes (acting (.brq x) sp I) I a fun _ => jumped (branchTo a x.off) x.y)) ∧
     (∀ x : RRR, Clear (.yield x) s sp0 sp I a → Becomes (.yield x) s sp fun sp' => KeepsRegs sp sp' ∧ sp'.qs = sp.qs ∧
       Lanes sp sp' (splitLanes (acting (.yield x) sp I) I a fun _ => jumped (a + 8) true)) ∧
     (∀ x : RIB, Clear (.call x) s sp0 sp I a → (∀ l ∈ acting (.call x) sp I, (sp.lane l).depth ≠ 255) →
       Becomes (.call x) s sp fun sp' => WritesV 2 x.d.toNat (acting (.call x) sp I) (fun _ => a + 8) sp sp' ∧
         Lanes sp sp' (splitLanes (acting (.call x) sp I) I a fun _ ln => { ln with pc := branchTo a x.off, depth := ln.depth + 1 }))) ∧
  (∀ (s : State) (sp0 sp : Span) (I : List Nat) (a : Word) (x : RRR),
     let target := fun l => if x.ka then sp.s x.a.toNat else sp.v (x.a.toNat + 1) l ++ sp.v x.a.toNat l
     (Clear (.brx x) s sp0 sp I a → (∀ l ∈ acting (.brx x) sp I, (target l).toNat % 8 = 0) →
       Settles (.brx x) s sp I a fun sp' => KeepsRegs sp sp' ∧ sp'.qs = sp.qs ∧
         Lanes sp sp' (splitLanes (acting (.brx x) sp I) I a fun l => jumped (target l) (x.bit 0))) ∧
     (Clear (.callx x) s sp0 sp I a → (∀ l ∈ acting (.callx x) sp I, (target l).toNat % 8 = 0 ∧ (sp.lane l).depth ≠ 255) →
       Settles (.callx x) s sp I a fun sp' => WritesV 2 x.d.toNat (acting (.callx x) sp I) (fun _ => a + 8) sp sp' ∧
         Lanes sp sp' (splitLanes (acting (.callx x) sp I) I a fun l ln => { ln with pc := target l, depth := ln.depth + 1 })) ∧
     (Clear (.ret x) s sp0 sp I a → (∀ l ∈ acting (.ret x) sp I, (target l).toNat % 8 = 0 ∧ (sp.lane l).depth ≠ 0) →
       Settles (.ret x) s sp I a fun sp' => KeepsRegs sp sp' ∧ sp'.qs = sp.qs ∧
         Lanes sp sp' (splitLanes (acting (.ret x) sp I) I a fun l ln => { ln with pc := target l, depth := ln.depth - 1 }))) ∧
  (∀ (s : State) (sp0 sp : Span) (I : List Nat) (a : Word) (x : RRR),
     let target := fun l => if x.ka then sp.s x.a.toNat else sp.v (x.a.toNat + 1) l ++ sp.v x.a.toNat l
     let bad := fun i => (acting i sp I).filter fun l => decide ((target l).toNat % 8 ≠ 0)
     let good := fun i => (acting i sp I).filter fun l => decide ((target l).toNat % 8 = 0)
     let faults := fun i (u : State) =>
       (((bad i).foldl (fun t l => t.faultLane sp.id l .misalign 3 3 0 (target l) a) u).settle sp.id).issued i (At i sp I a)
     let rest := fun i => I.filter fun l => decide (l ∉ bad i)
     (Clear (.brx x) s sp0 sp I a → ∃ sp', exec (.brx x) s = .next (faults (.brx x) (s.putSpan sp')) ∧ KeepsRegs sp sp' ∧
       Lanes sp sp' (splitLanes (good (.brx x)) (rest (.brx x)) a fun l => jumped (target l) (x.bit 0))) ∧
     (Clear (.callx x) s sp0 sp I a → (∀ l ∈ acting (.callx x) sp I, (sp.lane l).depth ≠ 255) →
       ∃ sp', exec (.callx x) s = .next (faults (.callx x) (s.putSpan sp')) ∧
         WritesV 2 x.d.toNat (good (.callx x)) (fun _ => a + 8) sp sp' ∧
         Lanes sp sp' (splitLanes (good (.callx x)) (rest (.callx x)) a fun l ln => { ln with pc := target l, depth := ln.depth + 1 })) ∧
     (Clear (.ret x) s sp0 sp I a → (∀ l ∈ acting (.ret x) sp I, (sp.lane l).depth ≠ 0) →
       ∃ sp', exec (.ret x) s = .next (faults (.ret x) (s.putSpan sp')) ∧ KeepsRegs sp sp' ∧
         Lanes sp sp' (splitLanes (good (.ret x)) (rest (.ret x)) a fun l ln => { ln with pc := target l, depth := ln.depth - 1 }))) ∧
  (∀ (i : Instr) (n : Nat) (s : State) (sp0 sp : Span) (I : List Nat) (a : Word),
     (∃ x, i = .call x ∧ n = 255) ∨ (∃ x, i = .callx x ∧ n = 255) ∨ (∃ x, i = .ret x ∧ n = 0) → Clear i s sp0 sp I a →
     (∃ l ∈ acting i sp I, (sp.lane l).depth = n) →
     exec i s = .next { ((s.putSpan sp).takeTrap sp.id ⟨.depth, true, a, I⟩) with picked := none })

/-- R19, R21: a fatal fault parks its lane on its address with its depth, takes the next number of the span, and writes the record
at slot l of the fault area, when that page passes, the context has a handler and the span is not in handler mode. -/
def Obligations.fault_record : Prop :=
  ∀ (s s1 : State) (sp : Span) (cx : Context) (l : Nat) (c : Cause) (kind log2 part : Nat) (vaddr iaddr : Word) (pages : List Nat),
    s.span? sp.id = some sp → sp.status = .running → l < sp.lanes.length → s.ctx? sp.ctx = some cx → sp.hmode = false → cx.handler ≠ 0 →
    (∀ t : State, t = s.onSpan sp.id (fun t => { t.onLane l (fun ln => { ln with st := .parkedFatal, wait := none }) with
        fseq := (t.fseq + 1) % 256 }) →
      t.deviceWrite (some sp.pier) cx ((s.areas sp cx).2 + BitVec.ofNat 64 (32 * l))
        (toBytes 8 vaddr.toNat ++ toBytes 8 iaddr.toNat ++ toBytes 4 sp.bidx ++ toBytes 2 sp.idx ++ toBytes 1 sp.role ++ toBytes 1 0 ++
          toBytes 8 (c.code + 2 ^ 8 * l + 2 ^ 13 * log2 + 2 ^ 16 * kind + 2 ^ 18 * (sp.lane l).depth + 2 ^ 26 * part +
            2 ^ 32 * (sp.pier % 40) + 2 ^ 38 * sp.die + 2 ^ 40 * sp.slot + 2 ^ 48 * (sp.fseq % 256))) = (s1, none, pages)) →
    ∃ sp', Differs s1 (s.faultLane sp.id l c kind log2 part vaddr iaddr) sp.id sp' ∧
      (sp'.lane l).st = .parkedFatal ∧ (sp'.lane l).pc = (sp.lane l).pc ∧ (sp'.lane l).depth = (sp.lane l).depth ∧
      sp'.fseq = (sp.fseq + 1) % 256 ∧ sp'.cause = some (sp.cause.getD c) ∧ sp'.due = true ∧ sp'.vregs = sp.vregs ∧ sp'.sregs = sp.sregs

/-- R20, R36, R85, R86: CVG places its acting lanes in the waiting state, and is the point where a due trap is taken; EXIT ends its acting
lanes with their address unchanged. R86, R286, R293: the task of a lane that exits ends without a result: a future that runs has failed,
and is freed if nothing reaches it, a doomed one is freed, and the task's launch counts a record less. R36, R37: the lanes that wait at
CVG and stand at the greatest depth and there at the lowest address go on, when every lane not ended waits at a CVG; at one place that is
every lane. Otherwise nothing changes. -/
def Obligations.convergence : Prop :=
  (∀ (s : State) (sp0 sp : Span) (I : List Nat) (a : Word) (x : RRR),
     let waits := fun _ (ln : Lane) => { ln with st := .waiting, wait := some .cvg }
     (Clear (.cvg x) s sp0 sp I a → sp.due = false → Settles (.cvg x) s sp I a fun sp' => KeepsRegs sp sp' ∧ sp'.qs = sp.qs ∧
       Lanes sp sp' (splitLanes (acting (.cvg x) sp I) I a waits)) ∧
     (Clear (.cvg x) s sp0 sp I a → sp.due = true → sp.hmode = false → ∃ sp' c,
       exec (.cvg x) s = .next (((s.putSpan sp').takeTrap sp.id ⟨c, false, a, []⟩).issued (.cvg x) (At (.cvg x) sp I a)) ∧
       (∀ k, sp.cause = some k → c = k) ∧ KeepsRegs sp sp' ∧ sp'.qs = sp.qs ∧
       Lanes sp sp' (splitLanes (acting (.cvg x) sp I) I a waits)) ∧
     (Clear (.exit x) s sp0 sp I a → (∀ l ∈ acting (.exit x) sp I, (sp.lane l).task = none) →
       Settles (.exit x) s sp I a fun sp' => KeepsRegs sp sp' ∧ sp'.qs = sp.qs ∧
         Lanes sp sp' (splitLanes (acting (.exit x) sp I) I a fun _ ln => { ln with st := .exited })) ∧
     (∀ l t, Clear (.exit x) s sp0 sp I a → acting (.exit x) sp I = [l] → (sp.lane l).task = some t → (∀ r ∈ s.refs, r.owner ≠ .task t.uid) →
       ∃ sp', Lanes sp sp' (splitLanes [l] I a fun _ ln => { ln with st := .exited, task := none }) ∧ { sp' with lanes := sp.lanes } = sp ∧
         let f := s.future t.fut
         let goes := fun (u : State) => exec (.exit x) s = .next ((((u.onLaunch sp.launch fun k => { k with records := k.records - 1 }).putSpan
           sp').settle sp.id).issued (.exit x) (At (.exit x) sp I a))
         (t.fut = 0 → goes s) ∧ (t.fut ≠ 0 → f.serial = handleSerial t.fut →
           (f.st = .running → (f.count ≠ 0 ∨ f.wait ≠ 0 → goes (s.putFuture { f with st := .failed })) ∧
             (f.count = 0 → f.wait = 0 → goes (s.putFuture ({ f with st := .failed } : Future).freed))) ∧
           (f.st = .doomed → goes (s.putFuture f.freed))))) ∧
  (∀ sp : Span, sp.trap = none →
     let all := ∀ l, l < 32 → (sp.lane l).st.ended = false → (sp.lane l).st = .waiting ∧ (sp.lane l).wait = some .cvg
     let first := fun l => ∀ k, k < 32 → (sp.lane k).st.ended = false →
       (sp.lane k).depth < (sp.lane l).depth ∨ ((sp.lane k).depth = (sp.lane l).depth ∧ (sp.lane l).pc.toNat ≤ (sp.lane k).pc.toNat)
     let one := fun l => l < 32 ∧ (sp.lane l).st.ended = false ∧ first l
     (all → (∃ l, l < 32 ∧ (sp.lane l).st.ended = false) → ∀ l,
       (one l → sp.settleCvg.lane l = { sp.lane l with st := .ready, pc := (sp.lane l).pc + 8, wait := none }) ∧
       (¬ one l → sp.settleCvg.lane l = sp.lane l)) ∧
     { sp.settleCvg with lanes := sp.lanes } = sp ∧
     (¬ all → sp.settleCvg = sp))

/-- R38, R39, R87: TRAP and BKPT raise their cause at issue when the guard is true in some lane, and enter the handler with IADDR the
word; when it is true in none, the lanes go on. R38, R66: the causes taken at issue before an instruction's own, in their order PRIV,
REGBUD, SUBSET, UNSYNC, each before any effect: the trap is taken with every lane of the issue on the word. The order of the causes that
meet in one word, or in the halves of a paired one, is the model's (log 16). -/
def Obligations.issue_causes : Prop :=
  (∀ (s s1 : State) (sp0 sp : Span) (I : List Nat) (a : Word) (x : RIW) (cx : Context) (c : Cause) (i : Instr),
     (i = .trap x ∧ c = .swtrap) ∨ (i = .bkpt x ∧ c = .bkpt) → Clear i s sp0 sp I a →
     (acting i sp I = [] → Becomes i s sp fun sp' => Goes sp sp' I a ∧ KeepsRegs sp sp' ∧ sp'.qs = sp.qs) ∧
     (acting i sp I ≠ [] → EntryOpen (s.putSpan sp) sp ⟨c, true, a, I⟩ c cx s1 →
       ∃ t sp1 sp', exec i s = .next t ∧ t.picked = none ∧ s1.span? sp.id = some sp1 ∧ Seen sp sp1 ∧ Differs s1 t sp.id sp' ∧
         InHandler sp1 sp' cx.handler (s.areas sp cx).1 (s.areas sp cx).2 c)) ∧
  (∀ (i : Instr) (s : State) (sp0 sp : Span) (I : List Nat) (a : Word), (encode i).isSome = true → Issuing s sp0 sp I a →
     sp.interlocked (shape i).uses I = false →
     let taken := fun c => exec i s = .next { ((s.putSpan sp).takeTrap sp.id ⟨c, true, a, I⟩) with picked := none }
     let priv := privileged i = true ∧ sp.hmode = false
     let budget := ∃ k ∈ (shape i).uses.v, sp.budget ≤ k
     let subset := collective i = true ∧ I ≠ (List.range 32).filter fun l => !(sp.lane l).st.ended
     let unsync := ∃ r ∈ sp.results, r.hits (shape i).uses I = true
     (priv → taken .priv) ∧ (¬ priv → budget → taken .regbud) ∧ (¬ priv → ¬ budget → subset → taken .subset) ∧
       (¬ priv → ¬ budget → ¬ subset → unsync → taken .unsync))

/-- R39, R41: taking a trap: into the handler where there is one, and stopping the span where there is none or in handler mode. R40, R42:
the execution-state block that a trap writes reads back as what the span held: states, program counters, depths, predicates of the lanes,
span predicates, and s56 to s63. R20, R32, R39: a trap that is due, or waits for its entry, is taken as soon as no lane of its span is
eligible. -/
def Obligations.trap_entry : Prop :=
  (∀ (s : State) (sp : Span) (r : TrapReq) (cx : Context), s.span? sp.id = some sp →
     (∀ s1, EntryOpen s sp r (sp.trapCause r) cx s1 → ∃ sp1 sp', s1.span? sp.id = some sp1 ∧ Seen sp sp1 ∧
       Differs s1 (s.takeTrap sp.id r) sp.id sp' ∧ InHandler sp1 sp' cx.handler (s.areas sp cx).1 (s.areas sp cx).2 (sp.trapCause r)) ∧
     (sp.checks = [] → (r.issue = true ∨ sp.records = []) → s.ctx? sp.ctx = some cx → (sp.hmode = true ∨ cx.handler = 0) →
       s.takeTrap sp.id r = s.stopSpan sp.id (sp.trapCause r))) ∧
  (∀ (sp : Span) (r : TrapReq) (c : Cause), sp.lanes.length = 32 → (∀ l, l < 32 → (sp.lane l).depth < 256) →
     let b := readBlock (trapFrame sp r c)
     (trapFrame sp r c).length = 512 ∧
     b.state = (List.range 32).map (fun l => (sp.lane l).st.code) ∧
     b.depth = (List.range 32).map (fun l => (sp.lane l).depth) ∧
     b.preds = (List.range 32).map (fun l => (sp.lane l).preds.toNat) ∧
     b.pc = (List.range 32).map (fun l => (sp.lane l).pc) ∧
     b.shi = (List.range 8).map (fun k => (sp.s (56 + k)).toNat) ∧
     b.dq = 256 * sp.qs.toNat ∧ b.iaddr = r.iaddr ∧ b.head % 256 = c.code) ∧
  ((∀ (id : Nat) (s : State), exec (.trapEntry id) s = .next (s.settle id)) ∧
   ∀ (s : State) (sp : Span), s.span? sp.id = some sp → sp.status = .running →
     (∀ r, sp.trap = some r → s.settleTrap sp.id = s.takeTrap sp.id r) ∧
     (sp.trap = none → sp.due = true → sp.hmode = false → (∀ l, l < 32 → (sp.lane l).st ≠ .ready ∧ (sp.lane l).st ≠ .deferred) →
       ∀ c, sp.cause = some c → s.settleTrap sp.id = s.takeTrap sp.id ⟨c, false, 0, []⟩) ∧
     (sp.trap = none → (sp.due = false ∨ ∃ l, l < 32 ∧ (sp.lane l).st = .ready) → s.settleTrap sp.id = s))

/-- R40, R330: RFT in handler mode, its frame readable and valid and naming no lane parked fatal: the span leaves handler mode with q0 to
q7 and s56 to s63 from the frame, its pending cause and its fault sequence count reset. R40, R41: what the restored frame gives a span in
handler mode: an invalid frame stops it; else each lane that held no wait and no task at the trap, and was not reclaimed then, takes
state, program counter, depth and predicates from the frame. -/
def Obligations.trap_return : Prop :=
  (∀ (s s1 : State) (sp0 sp : Span) (I : List Nat) (a : Word) (x : RRR) (cx : Context) (bs : List Byte),
     Clear (.rft x) s sp0 sp I a → sp.hmode = true → s.drained sp sp.seq = true → s.ctx? sp.ctx = some cx →
     s.deviceRead (some sp.pier) cx (s.areas sp cx).1 512 = (s1, .ok bs) →
     exec (.rft x) s = .next (((s1.putSpan (sp.onLanes I fun ln => { ln with pc := a + 8 })).returnFromTrap sp.id (readBlock bs)).issued (.rft x) (At (.rft x) sp I a))) ∧
  (∀ (s : State) (sp : Span) (b : ExecBlock), s.span? sp.id = some sp →
     ((∃ c ∈ b.state, 6 < c) ∨ (∃ p ∈ b.pc, p.toNat % 8 ≠ 0) → s.returnFromTrap sp.id b = s.stopSpan sp.id .ill) ∧
     ((∀ c ∈ b.state, c ≤ 6) → (∀ p ∈ b.pc, p.toNat % 8 = 0) → (∀ c ∈ b.state, c ≠ 4) → b.state.length = 32 → sp.lanes.length = 32 →
       (∀ l, l < 32 → (sp.lane l).kept = none ∧ (sp.lane l).held = none ∧ (sp.lane l).wait = none ∧ (sp.lane l).task = none ∧
         (sp.lane l).st ≠ .reclaimed ∧ ∀ st p d, (sp.lane l).atTrap = some (st, p, d) → st ≠ .reclaimed) →
       ∃ u sp', s.returnFromTrap sp.id b = u.settle sp.id ∧ Differs s u sp.id sp' ∧
         (∀ l, l < 32 → sp'.lane l = { sp.lane l with
           st := if b.state.getD l 0 = 1 then .deferred else if b.state.getD l 0 = 5 ∨ b.state.getD l 0 = 6 then .exited else .ready
           pc := b.pc.getD l 0, depth := b.depth.getD l 0, preds := BitVec.ofNat 16 (b.preds.getD l 0)
           atTrap := none, reason := none, pages := [], resv := none }) ∧
         sp'.vregs = sp.vregs ∧ (∀ k, sp'.s k = if 56 ≤ k ∧ k < 64 then BitVec.ofNat 64 (b.shi.getD (k - 56) 0) else sp.s k) ∧
         sp'.qs = BitVec.ofNat 8 (b.dq / 256) ∧ sp'.hmode = false ∧ sp'.cause = none ∧ sp'.fseq = 0 ∧ sp'.due = false))

/-! Memory words (R18, R125, R128, R182 to R198). -/

/-- R18, R63, R125, R128, R182, R184, R185, R188, R189, R191: LD, ST, LDA, ATOM, RED, CAS and SRED, when room is there and every check
hits the TLBs and passes: the lanes go on, the requests are made, and what they return is pending. R18: when every check of such a word
misses the TLBs, its lanes wait for the walks on the word, and it makes no request yet. R18, R19, R28, R121, R127, R144: whatever the checks
of a word give, lane by lane: lanes whose access passes go on, those that miss wait, those in pages that are away are parked with the reason
and a notice for each such page, those with a fatal outcome are parked fatal on the word, each with the next number of the span, and requests
are made for the accesses that have passed alone. R60, R125, R127: the line parts of an access's
page parts lie in their lines, and hold every byte of it once, the byte k of the access at the address k bytes above the first. -/
def Obligations.memory_words : Prop :=
  (∀ (i : Instr) (s : State) (sp0 sp : Span) (I : List Nat) (a : Word) (cx : Context), (accessOf sp 0 i).isSome = true →
     Clear i s sp0 sp I a → sp.memReady (entriesFor (accesses i sp I)) = true → Alone sp → s.ctx? sp.ctx = some cx →
     (∀ q ∈ accesses i sp I, ∃ ps, s.checkNow sp.pier cx q = .pass ps) →
     ∃ sp' passes new, exec i s = .next (((s.putSpan sp').settle sp.id).issued i (At i sp I a)) ∧
       GoesFree sp sp' I a ∧ KeepsRegs sp sp' ∧ sp'.qs = sp.qs ∧ sp'.checks = sp.checks ∧ sp'.ilock = sp.ilock ∧
       passes.map (fun x => { x.1 with seq := 0, res := none, fences := [] }) = accesses i sp I ∧
       (∀ x ∈ passes, s.checkNow sp.pier cx x.1 = .pass x.2) ∧ sp'.landing = sp.landing ∧ sp'.unsent = sp.unsent ++ new ∧
       Requested sp.seq passes new ∧
       (∀ e ∈ new, ∀ x ∈ passes, e.order = x.1.order ∧ e.scope = x.1.scope ∧ e.u = x.1.u ∧ e.write = x.1.op.writes) ∧
       (resultReg i = none → sp'.results = sp.results) ∧
       (∀ d, resultReg i = some d → ∀ x ∈ passes, ∃ r ∈ sp'.results, x.1.res = some r.id ∧ r.lane = x.1.lane ∧ r.pred = none ∧
         r.vreg = (x.1.lane.map fun _ => (d, if x.1.size = 16 then 4 else if x.1.size = 8 then 2 else 1)) ∧
         r.sreg = (if x.1.lane = none then some d else none) ∧ r.need = ((x.2.map (lineParts x.1)).flatten).length)) ∧
  (∀ (i : Instr) (s : State) (sp0 sp : Span) (I : List Nat) (a : Word) (cx : Context), (accessOf sp 0 i).isSome = true →
     Clear i s sp0 sp I a → sp.memReady (entriesFor (accesses i sp I)) = true → Alone sp → s.ctx? sp.ctx = some cx →
     (∀ q ∈ accesses i sp I, s.checkNow sp.pier cx q = .wait) → (shape i).ctl.u = false →
     ∃ sp', exec i s = .next (((s.putSpan sp').settle sp.id).issued i (At i sp I a)) ∧ KeepsRegs sp sp' ∧ sp'.qs = sp.qs ∧
       sp'.unsent = sp.unsent ∧ sp'.landing = sp.landing ∧
       ∀ l, (l ∈ acting i sp I → (sp'.lane l).st = .waiting ∧ (sp'.lane l).pc = a ∧ ∃ c ∈ sp'.checks,
         (sp'.lane l).wait = some (.check c.id) ∧ l ∈ c.lanes ∧
         ∃ q ∈ c.accs, some { q with seq := 0, res := none, fences := [] } = (accessOf sp l i).map fun w => { w with lane := some l }) ∧
         (l ∈ I → l ∉ acting i sp I → (sp'.lane l).st = .ready ∧ (sp'.lane l).pc = a + 8)) ∧
  (∀ (i : Instr) (s : State) (sp0 sp : Span) (I : List Nat) (a : Word) (cx : Context), (accessOf sp 0 i).isSome = true →
     Clear i s sp0 sp I a → sp.memReady (entriesFor (accesses i sp I)) = true → Alone sp → s.ctx? sp.ctx = some cx →
     let verdictOf := fun l => (accessOf sp (if (shape i).ctl.u then 0 else l) i).map fun q => s.checkNow sp.pier cx q
     ∃ (u : State) (sp' : Span) (passes : List (Access × List Piece)) (new : List Entry),
       exec i s = .next ((u.settle sp.id).issued i (At i sp I a)) ∧ u.span? sp.id = some sp' ∧ KeepsRegs sp sp' ∧ sp'.qs = sp.qs ∧
       (∀ l, l ∈ I → l ∉ takers i sp I → (sp'.lane l).st = .ready ∧ (sp'.lane l).pc = a + 8) ∧
       (∀ l v, l ∈ takers i sp I → verdictOf l = some v → LaneTakes u sp sp' a l v) ∧
       sp'.fseq % 256 = (sp.fseq + (takers i sp I).countP fun l => (verdictOf l).any Verdict.fatal?) % 256 ∧
       passes.map (fun x => { x.1 with seq := 0, res := none, fences := [] }) =
         (accesses i sp I).filter (fun q => (s.checkNow sp.pier cx q).passes) ∧
       (∀ x ∈ passes, s.checkNow sp.pier cx x.1 = .pass x.2) ∧ Requested sp.seq passes new ∧
       (∀ e ∈ new, e ∈ sp'.unsent ∨ e ∈ sp'.joining) ∧
       (∀ e ∈ sp'.unsent ++ sp'.joining, e ∈ new ∨ ∃ f ∈ sp.unsent, f.slot = e.slot ∧ f.seq = e.seq ∧ f.vline = e.vline ∧ f.pline = e.pline) ∧
       ∀ r ∈ sp'.results, r ∈ sp.results ∨ ((r.lane = none ∨ ∃ l ∈ takers i sp I, r.lane = some l) ∧
         ∀ l v, l ∈ takers i sp I → r.lane = some l ∨ r.lane = none → verdictOf l = some v → v = .wait ∨ v.passes = true)) ∧
  (∀ q : Access, q.size ≤ 16 → q.ea < 2 ^ 64 →
     let ps := (pagePieces q.ea q.size).map fun w => (⟨w.1, w.2, w.1, .c⟩ : Piece)
     let parts := (ps.map (lineParts q)).flatten
     (∀ y ∈ parts, y.2.2.2.off + y.2.2.2.len ≤ 64 ∧ y.1 = y.2.1) ∧
     ∀ k, k < q.size → ∃! y, y ∈ parts ∧ y.2.2.2.skip ≤ k ∧ k < y.2.2.2.skip + y.2.2.2.len ∧
       64 * y.1 + y.2.2.2.off + (k - y.2.2.2.skip) = (q.ea + k) % 2 ^ 64)

/-- R185: STL: each acting lane, or with U the span, is sent with its reservation on the line, and else its predicate is 0 and it sends
nothing; the reservation is spent. -/
def Obligations.store_if_reserved : Prop :=
  ∀ (s : State) (sp0 sp : Span) (I : List Nat) (a : Word) (cx : Context) (x : MEM),
    let mk := fun l lane => ({ op := .stl, lane := lane, ea := effAddr sp x false true l, size := bytesOf x.size,
                               order := if x.order = .ar then .rel else x.order, scope := x.scope, u := x.order = .ar || x.order = .seq,
                               data := if x.ctl.u then (sp.s x.d.toNat).setWidth 128 else sp.vn (wordsOf x.size) x.d.toNat l,
                               pd := some x.b.toNat } : Access)
    let G := acting (.stl x) sp I
    let qs := if x.ctl.u then (if G = [] then [] else [mk 0 none]) else G.map fun l => mk l (some l)
    let holds := fun (q : Access) (w : Piece) => match q.lane with
      | some l => decide ((sp.lane l).resv = some (w.key / 64))
      | none => decide (sp.resv = some (w.key / 64))
    Clear (.stl x) s sp0 sp I a → sp.memReady (entriesFor qs) = true → Alone sp → s.ctx? sp.ctx = some cx →
    (∀ q ∈ qs, ∃ w, s.checkNow sp.pier cx q = .pass [w]) →
    ∃ sp' passes new, exec (.stl x) s = .next (((s.putSpan sp').settle sp.id).issued (.stl x) (At (.stl x) sp I a)) ∧ KeepsRegs sp sp' ∧
      sp'.landing = sp.landing ∧ sp'.unsent = sp.unsent ++ new ∧ Requested sp.seq passes new ∧
      (∀ y ∈ passes, y.1.armed = true ∧ ∃ q ∈ qs, { y.1 with seq := 0, res := none, armed := false, fences := [] } = q ∧
        ∃ w, y.2 = [w] ∧ holds q w = true) ∧
      (∀ q ∈ qs, ∀ w, s.checkNow sp.pier cx q = .pass [w] → holds q w = true → ∃ y ∈ passes, { y.1 with seq := 0, res := none, armed := false, fences := [] } = q) ∧
      (∀ q ∈ qs, ∀ w, s.checkNow sp.pier cx q = .pass [w] → holds q w = false → match q.lane with
        | some l => x.b.toNat < 16 → sp'.p x.b.toNat l = false
        | none => x.b.toNat < 8 → sp'.q x.b.toNat = false) ∧
      (∀ l ∈ I, (sp'.lane l).pc = a + 8 ∧ (sp'.lane l).st = .ready) ∧
      (x.ctl.u = false → ∀ l ∈ G, (sp'.lane l).resv = none) ∧ (x.ctl.u = true → G ≠ [] → sp'.resv = none)

/-- R196, R197, R198: WAITA: its acting lanes wait with the condition, the comparison value and the deadline of the word, and their reads
are requested; the other lanes go on. R197, R198, R337: a sleep whose time has come and a WAITA whose deadline has come end, the WAITA
with 0 in its predicate; a watch that is woken, or whose next poll is due, reads its word again. That the lanes that watch one line share
a wake, and which of a word and a deadline comes first, is the model's reading (log 25). -/
def Obligations.waits : Prop :=
  (∀ (s : State) (sp0 sp : Span) (I : List Nat) (a : Word) (cx : Context) (x : MEM),
     let G := acting (.waita x) sp I
     let qs := G.map fun l => ({ op := .waita, lane := some l, ea := effAddr sp x false false l, size := bytesOf x.size, order := x.order,
                                 scope := x.scope, data2 := sp.atomArg x 0 l } : Access)
     let exp := x.off.toNat % 64
     Clear (.waita x) s sp0 sp I a → sp.memReady (entriesFor qs) = true → Alone sp → s.ctx? sp.ctx = some cx →
     (∀ q ∈ qs, ∃ ps, s.checkNow sp.pier cx q = .pass ps) →
     ∃ sp' passes new, exec (.waita x) s = .next (((s.putSpan sp').settle sp.id).issued (.waita x) (At (.waita x) sp I a)) ∧ KeepsRegs sp sp' ∧
       sp'.qs = sp.qs ∧ sp'.unsent = sp.unsent ++ new ∧ Requested sp.seq passes new ∧
       passes.map (fun y => { y.1 with seq := 0, res := none }) = qs ∧
       (∀ l ∈ I, l ∉ G → (sp'.lane l).pc = a + 8 ∧ (sp'.lane l).st = .ready) ∧
       ∀ l ∈ G, (sp'.lane l).pc = a ∧ (sp'.lane l).st = .waiting ∧ ∃ w, (sp'.lane l).wait = some (.watch w) ∧
         w.cond = condOfNat (x.off.toNat / 128 % 8) ∧ w.sgn = x.off.getLsbD 6 ∧ w.cmp = sp.atomArg x 0 l ∧ w.pd = x.d.toNat ∧
         w.due = (if exp = 0 then none else some ((s.time sp.die).toNat + 2 ^ exp)) ∧ w.reading = true ∧
         w.acc.ea = effAddr sp x false false l) ∧
  (∀ (s : State) (sp : Span) (l : Nat), s.span? sp.id = some sp → sp.status = .running → l < 32 → l < sp.lanes.length →
     let now := (s.time sp.die).toNat
     let goes := fun (i : Instr) (pd : Option Nat) => ∃ (u : State) (sp' : Span), exec i s = .next (u.settle sp.id) ∧ u.span? sp.id = some sp' ∧
       { u with spans := s.spans } = s ∧ KeepsRegs sp sp' ∧ (sp'.lane l).st = .ready ∧ (sp'.lane l).pc = (sp.lane l).pc + 8 ∧ (sp'.lane l).wait = none ∧
       ∀ r, r < 16 → sp'.p r l = if pd = some r then false else sp.p r l
     (∀ d, (sp.lane l).wait = some (.sleep d) → d ≤ now → goes (.sleepExpiry sp.id l) none) ∧
     (∀ w d, (sp.lane l).wait = some (.watch w) → w.due = some d → w.must = false → d ≤ now → goes (.waitaTimeout sp.id l) (some w.pd)) ∧
     (∀ (i : Instr) (w : Watch) (cx : Context) (t : State) (ps : List Piece), (sp.lane l).wait = some (.watch w) →
       (i = .watchWake sp.id l ∧ w.slot = true ∧ w.wake = true) ∨ (i = .watchPoll sp.id l ∧ w.slot = false ∧ w.poll ≤ now ∧
         ∀ d, w.due = some d → w.must = false → now ≤ d) → Alone sp →
       (∀ k, k ≠ l → ∀ v, (sp.lane k).wait ≠ some (.watch v)) → w.reading = false → w.acc.op = .waita → s.ctx? sp.ctx = some cx →
       0 < sp.landFree → sp.unsent = [] → s.checkHeld sp.pier cx w.acc = false →
       let a : Access := { w.acc with seq := sp.seq, lane := some l }
       (s.onSpan sp.id fun u => { u with seq := u.seq + 1 }).checkWalk sp.pier cx a = (t, .pass ps) →
       ∃ (u : State) (sp' : Span), exec i s = .next (u.settle sp.id) ∧ u.span? sp.id = some sp' ∧ Requested sp.seq [(a, ps)] sp'.unsent ∧
         (sp'.lane l).st = (sp.lane l).st ∧ (sp'.lane l).pc = (sp.lane l).pc ∧ ∃ v, (sp'.lane l).wait = some (.watch v) ∧
         { v with acc := w.acc, reading := w.reading, wake := w.wake, line := w.line } = w ∧ v.acc = a ∧ v.reading = true ∧ v.wake = false ∧ v.line = none))

/-! The deck (R186, R187, R190, R203 to R205, R246). -/

/-- R63, R186, R187, R190, R246: LDD, STD and ATOMD, when every acting lane's address is good: the lanes go on, each lane's bytes join the
queue of their bank row, and a loaded or old value is pending. R187, R190, R246: a bank serves the earliest access of its queue: a store
writes its bytes, a load answers with its own, an atomic does both. R111: an ATOMD holds a landing entry for each line of the deck that it
names. R155, R192: a store or an atomic waits at its bank for the release fences before it. -/
def Obligations.deck_words : Prop :=
  (∀ (s : State) (sp0 sp : Span) (I : List Nat) (a : Word) (i : Instr) (x : MEM) (size : Nat) (sgn : Bool) (res : Bool)
     (addr : Nat → Int) (op : Nat → DeckOp) (data : Nat → BitVec 128),
     (i = .ldd x ∧ size = bytesOf x.size ∧ sgn = signed x.size ∧ res = true ∧ addr = (fun l => sp.deckAddr x true true l) ∧
         op = DeckOp.load ∧ data = fun _ => 0) ∨
       (i = .std x ∧ size = bytesOf x.size ∧ sgn = false ∧ res = false ∧ addr = (fun l => sp.deckAddr x true true l) ∧
         op = (fun _ => .store) ∧ data = fun l => sp.vn (wordsOf x.size) x.d.toNat l) ∨
       (i = .atomd x ∧ size = bytesOf x.size ∧ sgn = false ∧ res = true ∧ addr = (fun l => sp.deckAddr x false false l) ∧
         op = DeckOp.atomic x.aop x.aty ∧ (data = fun l => (sp.atomArg x 0 l).setWidth 128) ∧
         sp.deckReady (min 32 ((acting i sp I).map fun l => (addr l).toNat / 64).eraseDups.length) = true) →
     Clear i s sp0 sp I a → sp.deckReady 0 = true → sp.arrivesAt ((acting i sp I).map addr) = false →
     let good := ∀ l ∈ acting i sp I, 0 ≤ addr l ∧ addr l + size ≤ s.deckBytes sp ∧ addr l % size = 0
     (good → ∃ t sp', exec i s = .next t ∧ t.span? sp.id = some sp' ∧ Goes sp sp' I a ∧ KeepsRegs sp sp' ∧
       { t with spans := s.spans, picked := s.picked, deckq := s.deckq, flows := s.flows } = s ∧
       (∃ new, t.deckq = s.deckq ++ new ∧
         (∀ r ∈ new, r.pier = sp.pier ∧ r.uid = sp.uid ∧ r.blk = sp.block ∧ r.seq = sp.seq ∧ r.bank = r.row % 48 ∧
           ∀ p ∈ r.parts, p.addr / 64 = r.row) ∧ (new.map (·.row)).Pairwise (· < ·) ∧
         (∀ p, (∃ r ∈ new, p ∈ r.parts) ↔ ∃ l ∈ acting i sp I, ∃ k, (acting i sp I)[k]? = some l ∧
           p = ⟨l, (addr l).toNat, size, sgn, data l, op (sp.seq + 1 + k)⟩) ∧
         ∃ es, sp'.landing = sp.landing ++ es ∧ (i ≠ .atomd x → es = []) ∧ (i = .atomd x → es.map (·.vline) = new.map (·.row))) ∧
       (res = false → sp'.results = sp.results) ∧
       (res = true → ∀ k l, (acting i sp I)[k]? = some l → ∃ r ∈ sp'.results, r.id = sp.seq + 1 + k ∧ r.lane = some l ∧
         r.vreg = some (x.d.toNat, if size = 16 then 4 else if size = 8 then 2 else 1) ∧ r.need = 1)) ∧
     (¬ good → exec i s = .next { ((s.putSpan sp).takeTrap sp.id ⟨.deckrange, true, a, I⟩) with picked := none })) ∧
  (∀ (s : State) (r : DeckReq), (s.deckq.filter fun q => decide (q.pier = r.pier) && decide (q.bank = r.bank)) = [r] → (∃ p ∈ r.parts, ∀ id, p.op ≠ .load id) →
     ∀ sp, s.spanOf? r.uid = some sp → (∃ e ∈ sp.landing, e.op = .fence ∧ e.seq < r.seq) → exec (.deckBankAccess r.pier r.bank) s = .next s) ∧
  (∀ (s : State) (r : DeckReq) (p : DeckPart) (k : Block) (sp : Span),
     s.deckq.find? (fun q => decide (q.pier = r.pier) && decide (q.bank = r.bank)) = some r → (∀ b ∈ s.deckq, b.uid = r.uid → s.deckHeld b = false) →
     s.fenced.contains (r.pier / 40) = false → r.parts = [p] → s.block? r.blk = some k → p.len ∈ [1, 2, 4, 8, 16] →
     s.spanOf? r.uid = some sp → s.span? sp.id = some sp →
     let plain : BitVec 128 := BitVec.ofNat 128 (k.deckNat p.addr p.len)
     let read : BitVec 128 := if p.sgn = true ∧ p.len ≤ 4 then (BitVec.ofNat (8 * p.len) (k.deckNat p.addr p.len)).signExtend 128 else plain
     ∃ (u : State) (k' : Block) (sp' : Span), exec (.deckBankAccess r.pier r.bank) s = .next (u.settle r.span) ∧ u.block? r.blk = some k' ∧
       u.deckq = s.deckq.erase r ∧ u.mem = s.mem ∧ { k' with deck := k.deck } = k ∧ u.span? sp.id = some sp' ∧ Told sp sp' ∧
       (∀ b, ¬ (p.addr ≤ b ∧ b < p.addr + p.len) → sget 0 k'.deck b = sget 0 k.deck b) ∧
       (p.op = .store → (∀ b, b < p.len → sget 0 k'.deck (p.addr + b) = p.data.extractLsb' (8 * b) 8) ∧
         sp'.results = sp.results ∧ ∀ j, j ≠ sp.id → u.span? j = s.span? j) ∧
       (∀ id, p.op = .load id → k'.deck = k.deck ∧ sp'.results = sp.results.map fun q => if q.id = id then { q with need := 0, val := read } else q) ∧
       (∀ aop aty id, p.op = .atomic aop aty id → p.len = 4 ∨ p.len = 8 →
         k'.deckNat p.addr p.len = ((rmw p.len aop aty (BitVec.ofNat 64 (k.deckNat p.addr p.len)) (p.data.setWidth 64)).setWidth (8 * p.len)).toNat ∧
         sp'.results = sp.results.map fun q => if q.id = id then { q with need := 0, val := plain } else q))

/-- R202, R203, R204, R205: MBINIT, MBEXP, MBARV and MBWAIT on an object inside the deck, when the span's own accesses and arrivals there
are done, with their guard true; what MBINIT and MBEXP write makes the release fences before it releases (R155; the form of the record is
log 50), and they wait for a fence that has not retired (R192). R202, R203, R204: MBINIT leaves the count in TARGET and REMAIN and 0 in
every other byte of the object, and an arrival takes one from REMAIN. R203, R204: a change of a deck barrier tests it: with nothing
remaining and nothing pending the phase completes, the completed count goes up by one and the remaining count is the target again. -/
def Obligations.deck_barriers : Prop :=
  (∀ (s : State) (sp0 sp : Span) (I : List Nat) (a : Word) (x : MEM) (k : Block), s.block? sp.block = some k →
     let moved := sp.onLanes I fun ln => { ln with pc := a + 8 }
     let quiet := sp.acqHeld = false ∧ (s.deckq.any fun r => decide (r.uid = sp.uid)) = false
     let unfenced := ∀ e ∈ sp.landing, e.op ≠ .fence
     let inside := fun da : Int => 0 ≤ da ∧ da + 16 ≤ k.bytes ∧ da % 16 = 0
     let da := sp.deckAddr x true true 0
     let db := sp.deckAddr x false true 0
     let writes := fun (i : Instr) (u : State) => exec i s = .next ((((u.announce (some sp.block) da.toNat 16
       (sp.relFence.map fun f => (f.scope, u.handing sp f.seq f.u f.scope.all)) sp.party).onSpan sp.id fun t =>
         { t with relFence := [] }).settle sp.id).issued i (At i sp I a))
     (Clear (.mbinit x) s sp0 sp I a → quiet → unfenced → inside da → acting (.mbinit x) sp I ≠ [] → sp.arrivesAt [da] = false →
       writes (.mbinit x) ((s.putSpan moved).mbInit sp.block da.toNat (sp.s x.d.toNat).toNat)) ∧
     (Clear (.mbexp x) s sp0 sp I a → quiet → unfenced → inside da → acting (.mbexp x) sp I ≠ [] → sp.arrivesAt [da] = false →
       writes (.mbexp x) ((s.putSpan moved).mbChange sp.block da.toNat fun m =>
         { m with pending := (m.pending + (sp.s x.d.toNat).toNat % 2 ^ 40) % 2 ^ 40 })) ∧
     (∀ i, i = .mbinit x ∨ i = .mbexp x → Clear i s sp0 sp I a → inside da → ¬ unfenced → exec i s = .next { s with picked := none }) ∧
     (Clear (.mbarv x) s sp0 sp I a → quiet → inside da → acting (.mbarv x) sp I ≠ [] →
       exec (.mbarv x) s = .next (((s.putSpan { moved with seq := sp.seq + 1, arrivals := sp.arrivals ++ [.deck da.toNat sp.seq] }).settle
         sp.id).issued (.mbarv x) (At (.mbarv x) sp I a))) ∧
     (Clear (.mbwait x) s sp0 sp I a → quiet → inside db → sp.arrivesAt [db] = false → ∃ sp',
       exec (.mbwait x) s = .next (((s.putSpan sp').settle sp.id).issued (.mbwait x) (At (.mbwait x) sp I a)) ∧ KeepsRegs sp sp' ∧
       ∀ l, (l ∈ I → l ∉ acting (.mbwait x) sp I → sp'.lane l = { sp.lane l with pc := a + 8 }) ∧ (l ∉ I → sp'.lane l = sp.lane l) ∧
         (l ∈ acting (.mbwait x) sp I →
           let n := (sp.s x.b.toNat).toNat % 2 ^ 24
           let ahead := ((k.mbar db.toNat).compl + 2 ^ 24 - n) % 2 ^ 24
           (ahead < 2 ^ 23 → (sp'.lane l).st = .ready ∧ (sp'.lane l).pc = a + 8 ∧ (x.d.toNat < 16 → sp'.p x.d.toNat l = false)) ∧
           (2 ^ 23 ≤ ahead → sp'.lane l = { sp.lane l with st := .waiting, wait := some (.mb db.toNat n x.d.toNat) })))) ∧
  (∀ (m : MBar),
     (m.remain = 0 → m.pending = 0 → m.test = (⟨m.target, m.target, 0, (m.compl + 1) % 2 ^ 24⟩, true)) ∧
     ((m.remain ≠ 0 ∨ m.pending ≠ 0) → m.test = (m, false)) ∧
     ∀ (k : Block) (obj : Nat), m.target < 2 ^ 16 → m.remain < 2 ^ 16 → m.pending < 2 ^ 40 → m.compl < 2 ^ 24 →
       (k.putMbar obj m).mbar obj = m ∧
       ∀ b, (b < obj ∨ obj + 16 ≤ b) → sget 0 (k.putMbar obj m).deck b = sget 0 k.deck b) ∧
  ∀ (s : State) (b : Nat × Nat) (k : Block) (obj : Nat), s.block? b = some k →
    (∀ t n, n = (if t % 65536 = 0 then 1 else t % 65536) → ∃ k', (s.mbInit b obj t).block? b = some k' ∧
      k'.deckNat obj 16 = n + 2 ^ 16 * n ∧ ∀ j, (j < obj ∨ obj + 16 ≤ j) → sget 0 k'.deck j = sget 0 k.deck j) ∧
    ∀ (sp : Span) (seq : Nat) (rest : List Arrival), s.span? sp.id = some sp → sp.block = b → sp.arrivals = .deck obj seq :: rest →
      s.drained sp seq = true → 1 < (k.mbar obj).remain → ∃ k', (s.settleArrivals sp.id 1).block? b = some k' ∧
        k'.mbar obj = { k.mbar obj with remain := (k.mbar obj).remain - 1 }

/-! Prefetch, cache control and hints; fences and named barriers (R141, R192 to R195, R199 to R202). -/

/-- R193, R194: PFS and CCTL, with their guard true and no acquire or request of the span holding them. R141, R195: LTH cuts the hints of
its pages out of the table, and unless it clears puts one hint in their place; of a full table the weakest hint gives way. Among hints of
one priority the step is compared as the 32-bit number that it is: the model's choice (log 49). That CCTL's check asks for no permission is
log 58. -/
def Obligations.cache_and_hints : Prop :=
  (∀ (s : State) (sp0 sp : Span) (I : List Nat) (a : Word),
     let moved := sp.onLanes I fun ln => { ln with pc := a + 8 }
     (∀ x : RRR, Clear (.pfs x) s sp0 sp I a → sp.memHeld = false → acting (.pfs x) sp I ≠ [] →
       let n : Stream := { pier := sp.pier, ctx := sp.ctx, start := sp.s x.d.toNat, count := (sp.s x.a.toNat).toNat % 2 ^ 32,
                           stride := sp.s x.b.toNat, shore := x.bit 0 }
       let mine := s.streams.filter (·.pier = sp.pier)
       let after := fun st => exec (.pfs x) s = .next (({ s with streams := st }.putSpan moved).issued (.pfs x) (At (.pfs x) sp I a))
       (n.count = 0 → after s.streams) ∧ (n.count ≠ 0 → mine.length < 16 → after (s.streams ++ [n])) ∧
       (n.count ≠ 0 → ∀ o rest, mine = o :: rest → 16 ≤ mine.length → after (s.streams.erase o ++ [n]))) ∧
     (∀ (x : MEM) (cx : Context), Clear (.cctl x) s sp0 sp I a → sp.memHeld = false → acting (.cctl x) sp I ≠ [] → s.ctx? sp.ctx = some cx →
       let line := s.lineAt cx (effAddr sp x true true 0)
       let after := fun (u : State) sp' => exec (.cctl x) s = .next ((u.putSpan sp').issued (.cctl x) (At (.cctl x) sp I a))
       (x.d = 0 → ∀ n, line = some n → after { s with l1 := s.l1.filter fun c => !(decide (c.pier = sp.pier) && decide (c.line = n)) } moved) ∧
       (x.d = 1 → after { s with l1 := s.l1.filter fun c => decide (c.pier ≠ sp.pier) } moved) ∧
       (x.d = 2 → ∀ n, line = some n → ∃ ls, after { s with demoted := ls } moved ∧ ∀ m, m ∈ ls ↔ m ∈ s.demoted ∨ m = n) ∧
       (x.d = 3 → after s { moved with epoch := s.steps }) ∧ (x.d = 0 ∨ x.d = 2 → line = none → after s moved))) ∧
  ((∀ (s : State) (sp0 sp : Span) (I : List Nat) (a : Word) (x : RRR), Clear (.lth x) s sp0 sp I a → sp.memHeld = false →
     acting (.lth x) sp I ≠ [] →
     let start := (sp.s x.d.toNat).toNat
     let len := (sp.s x.a.toNat).toNat
     let lo := start / 65536 * 65536
     let hi := (start + len - 1) / 65536 * 65536 + 65536
     let h := sp.s x.b.toNat
     let cut := fun (p : Partition) => (p.hints.map fun g => g.outside sp.ctx lo hi).flatten
     let after := fun f => exec (.lth x) s = .next (({ s with parts := s.parts.modify sp.part f }.putSpan
       (sp.onLanes I fun ln => { ln with pc := a + 8 })).issued (.lth x) (At (.lth x) sp I a))
     (len = 0 → after id) ∧ (len ≠ 0 → x.bit 0 = true → after fun p => { p with hints := makeRoom 0 (cut p) }) ∧
     (len ≠ 0 → x.bit 0 = false → after fun p => { p with hints := makeRoom 1 (cut p) ++
       [{ ctx := sp.ctx, start := lo, stop := hi, prio := (h.extractLsb' 32 3).toNat, step := h.setWidth 32 }] })) ∧
   (∀ (h : Hint) (ctx lo hi c v : Nat), (∃ g ∈ h.outside ctx lo hi, g.ctx = c ∧ g.start ≤ v ∧ v < g.stop) ↔
     (h.ctx = c ∧ h.start ≤ v ∧ v < h.stop ∧ ¬ (c = ctx ∧ lo ≤ v ∧ v < hi))) ∧
   ∀ (n : Nat) (hs : List Hint), n ≤ 4096 → (hs.length + n ≤ 4096 → makeRoom n hs = hs) ∧ (makeRoom n hs).length = min hs.length (4096 - n) ∧
     (hs.length + n = 4097 → ∃ h ∈ hs, makeRoom n hs = hs.erase h ∧
       ∀ g ∈ hs, h.prio < g.prio ∨ (h.prio = g.prio ∧ h.step.toNat ≤ g.step.toNat)))

/-- R111, R192: FENCE with its guard true: its release part takes an entry that waits, its acquire part holds what follows until the
reads before it have returned, meets the releases that the span's reads have met, and at die scope or wider turns old L1 copies away from
now on. R157, R158: no load is served from a copy that has missed a write of its bytes which happens before it. R156: an acquire that
meets a release has no effect unless each party lies in the other's scope instance; with both, what happens before the release happens
before the events from `since` on, and the counter of another die is passed (R180). That writes are known by the bytes that copies have
missed and by the step of the write is the model's device (log 50, DEDUCED), that the counter is raised at the meeting its reading (log 27). -/
def Obligations.fence_word : Prop :=
  (∀ (s : State) (sp0 sp : Span) (I : List Nat) (a : Word) (x : MEM), Clear (.fence x) s sp0 sp I a →
    sp.memReady (if x.order.releases then 1 else 0) = true → acting (.fence x) sp I ≠ [] →
    ∃ e t, (x.order.releases = true → e.slot < 32 ∧ ∀ f ∈ sp.landing, f.slot ≠ e.slot) ∧
      { e with slot := 0 } = { slot := 0, seq := sp.seq, st := .ordered, op := .fence, order := x.order, scope := x.scope,
                               u := decide (x.d = 1) || decide (x.order = .seq) } ∧
      t = s.putSpan { sp.onLanes I (fun ln => { ln with pc := a + 8 }) with
        seq := sp.seq + 1, landing := if x.order.releases then sp.landing ++ [e] else sp.landing
        relFence := if x.order.releases then sp.relFence ++ [⟨sp.seq, x.scope, e.u⟩] else sp.relFence
        acqSeq := if x.order.acquires then sp.seq else sp.acqSeq, acqScope := if x.order.acquires then x.scope else sp.acqScope } ∧
      (x.order.acquires = false → exec (.fence x) s = .next ((t.settle sp.id).issued (.fence x) (At (.fence x) sp I a))) ∧
      (x.order.acquires = true → exec (.fence x) s = .next ((((t.meet sp.id x.scope (sp.seq + 1) sp.heard).advance sp.id x.scope).settle sp.id).issued (.fence x) (At (.fence x) sp I a)))) ∧
  (∀ (t : State) (sp : Span) (e : Entry) (c : L1Line), t.l1Copy sp e = some c → c.pier = sp.pier ∧ c.line = e.pline ∧
    ∀ p ∈ e.parts, ∀ w ∈ c.missed, 64 * e.pline + p.off ≤ w.1 → w.1 < 64 * e.pline + p.off + p.len →
      ∀ x ∈ sp.view, x.key = w.1 → x.step = w.2 → e.seq < x.since) ∧
  ∀ (t : State) (sp : Span) (sc : Scope) (since : Nat) (m : Msg), t.span? sp.id = some sp →
    let both := joins sc sp.party m.from_ = true ∧ joins m.scope m.from_ sp.party = true
    (¬ both → t.meet sp.id sc since [m] = t) ∧
    (both → ∃ sp', (t.meet sp.id sc since [m]).span? sp.id = some sp' ∧ { sp' with view := sp.view } = sp ∧
      (∀ x, x ∈ sp'.view ↔ x ∈ sp.view ∨ ∃ w ∈ m.view, x = { key := w.1, step := w.2, since := since, reach := .all }) ∧
      (m.from_.die ≠ some sp.die → sp.die < t.tsc.length → m.tsc.toNat + 1 < 2 ^ 64 → m.tsc.toNat < ((t.meet sp.id sc since [m]).time sp.die).toNat)) ∧
    (sc.wide = true → ∃ sp', (t.advance sp.id sc).span? sp.id = some sp' ∧ sp' = { sp with epoch := t.steps }) ∧
    (sc.wide = false → t.advance sp.id sc = t)

/-- R199, R200, R202: BARA and BARW with their guard true: the arrival follows the span's earlier requests, and BARW's lanes wait. R200:
an arrival at an instance that is not broken: the first of a phase sets its count, and the one that makes the arrivals reach the count
completes the phase, with the arrivals and the count of the next one at nothing. -/
def Obligations.named_barriers : Prop :=
  (∀ (s : State) (sp0 sp : Span) (I : List Nat) (a : Word) (x : MEM),
     let moved := sp.onLanes I fun ln => { ln with pc := a + 8 }
     let key : BarKey := { launch := sp.launch, blk := if x.scope = .block then some sp.blk else none,
                           die := if x.scope = .die then some sp.die else none, n := x.d.toNat }
     let c := (sp.s x.b.toNat).toNat % 2 ^ 32
     let count := if x.kb = true ∧ c ≠ 0 then some c else none
     (Clear (.bara x) s sp0 sp I a → acting (.bara x) sp I ≠ [] →
       exec (.bara x) s = .next (((s.putSpan { moved with
         seq := sp.seq + 1, arrivals := sp.arrivals ++ [.named key count sp.seq []] }).settle sp.id).issued (.bara x) (At (.bara x) sp I a))) ∧
     (Clear (.barw x) s sp0 sp I a → acting (.barw x) sp I ≠ [] → ∃ sp',
       exec (.barw x) s = .next (((s.putSpan sp').settle sp.id).issued (.barw x) (At (.barw x) sp I a)) ∧ KeepsRegs sp sp' ∧ sp'.qs = sp.qs ∧
       sp'.arrivals = sp.arrivals ++ [.named key count sp.seq (acting (.barw x) sp I)] ∧ sp'.seq = sp.seq + 1 ∧
       Lanes sp sp' (splitLanes (acting (.barw x) sp I) I a fun _ ln =>
         { ln with st := .waiting, wait := some (.bar key 0 (if x.off.getLsbD 4 then some (x.off.toNat % 16) else none)) })) ∧
     (Clear (.bara x) s sp0 sp I a → acting (.bara x) sp I = [] → exec (.bara x) s = .next ((s.putSpan moved).issued (.bara x) (At (.bara x) sp I a))) ∧
     (Clear (.barw x) s sp0 sp I a → acting (.barw x) sp I = [] → exec (.barw x) s = .next ((s.putSpan moved).issued (.barw x) (At (.barw x) sp I a)))) ∧
  (∀ (s : State) (id : Nat) (key : BarKey) (count : Option Nat) (lanes : List Nat) (seq : Nat), s.barBroken key = false →
     let b := s.bar key
     let n := match b.count, count with
       | some c, _ => c
       | none, some c => c
       | none, none => s.barDefault key
     let t := s.arrive id key count lanes seq
     (b.arrivals + 1 < n → (t.bar key).arrivals = b.arrivals + 1 ∧ (t.bar key).phase = b.phase ∧ (t.bar key).count = some n) ∧
     (n ≤ b.arrivals + 1 → (t.bar key).arrivals = 0 ∧ (t.bar key).phase = b.phase + 1 ∧ (t.bar key).count = none ∧
       ∀ sp ∈ t.spans, ∀ ln ∈ sp.lanes, ∀ pf, ln.wait = some (.bar key b.phase pf) → b.phase = 0) ∧
     ∀ k, k ≠ key → t.bar k = s.bar k)

/-! The ferry, the net, the plane (R206 to R212, R217, R218, R252, R276 to R285). -/

/-- R206 to R209, R212: FCPY, FCPYT, FPLN and NSEND with their guard true, a ferry slot free, and no acquire of the span open: the
operation takes a slot with the operands read at issue, and waits for its fork. R210, R211: FCAN cancels the operations that its operand
names, and FSTAT's result is pending with the operation's state, the address of the span's latest failure, or its cause. Which operations
FCAN and FSTAT look at is the model's reading (log 30); that the launch's completion follows what an operation did is log 50. The second
stride word of an FPLN with B = 63, which no register holds, is the free value of log 3. -/
def Obligations.ferry_words : Prop :=
  (∀ (i : Instr) (s : State) (sp0 sp : Span) (I : List Nat) (a : Word) (x : MEM) (o : FerryOp),
     let d := x.d.toNat
     let copy : FerryOp := { id := sp.seq, kind := .fcpy, st := .drain, seq := sp.seq, scope := x.scope, dst := sp.s d, src := sp.s (d + 1),
                             shape := sp.s (d + 2), comp := sp.s (d + 3), value := sp.s x.a.toNat,
                             link := if x.off.getLsbD 9 then some (16 * (x.off.toNat % 512)) else none }
     (i = .fcpy x ∧ o = copy) ∨
       (i = .fcpyt x ∧ o = { copy with kind := .fcpyt, strA := sp.s x.b.toNat, strB := sp.s (x.b.toNat + 1) }) ∨
       (i = .fpln x ∧ x.b.toNat < 63 ∧ o = { copy with kind := .fpln, strA := sp.s x.b.toNat, strB := sp.s (x.b.toNat + 1) }) ∨
       (i = .fpln x ∧ x.b.toNat = 63 ∧ o.strB = Config.pastRegister sp.seq ∧ { o with strB := 0 } = { copy with kind := .fpln, strA := sp.s 63 }) ∨
       (i = .nsend x ∧ sp.crossPending [x.a.toNat] laneNums = false ∧
         o = { id := sp.seq, kind := .nsend, st := .drain, seq := sp.seq, scope := x.scope, tree := (sp.s d).toNat % 256,
               round := (sp.s d).toNat / 2 ^ 32, vec := (List.range 32).map fun l => sp.v x.a.toNat l }) →
     Clear i s sp0 sp I a → sp.acqHeld = false → sp.ferry.length < 4 →
     let moved := sp.onLanes I fun ln => { ln with pc := a + 8 }
     (acting i sp I ≠ [] → exec i s = .next ((s.putSpan { moved with seq := sp.seq + 1, ferry := sp.ferry ++ [o] }).issued i (At i sp I a))) ∧
     (acting i sp I = [] → exec i s = .next ((s.putSpan moved).issued i (At i sp I a)))) ∧
  (∀ (s : State) (sp0 sp : Span) (I : List Nat) (a : Word) (x : RRR),
     let moved := sp.onLanes I fun ln => { ln with pc := a + 8 }
     let named := sp.ferry.filter fun o => decide (o.kind ≠ .nsend) && (x.bit 0 || decide (o.comp = sp.s x.a.toNat))
     (Clear (.fcan x) s sp0 sp I a → acting (.fcan x) sp I ≠ [] →
       (named = [] → exec (.fcan x) s = .next ((s.putSpan moved).issued (.fcan x) (At (.fcan x) sp I a))) ∧
       ∀ o, named = [o] → exec (.fcan x) s = .next (((s.putSpan moved).ferryCancel moved o).issued (.fcan x) (At (.fcan x) sp I a))) ∧
     (∀ (o : FerryOp), s.span? sp.id = some sp → o ∈ sp.ferry → o.fail = none → o.cancel = false →
       (o.st = .drain → o.link = none → s.ferryCancel sp o = s.onSpan sp.id (·.putFerry { o with cancel := true, pages := [] })) ∧
       (o.st ≠ .drain → o.total ≤ o.bytes → s.ferryCancel sp o = s) ∧
       (o.st ≠ .drain → o.bytes < o.total → o.link = none → o.comp = 0 → o.stripes = [] → s.ferryCancel sp o =
         (((s.onSpan sp.id (·.putFerry { o with cancel := true, pages := [] })).opEnded sp o).onSpan sp.id (·.freeFerry o.id)).settle sp.id)) ∧
     (Clear (.fstat x) s sp0 sp I a → acting (.fstat x) sp I ≠ [] → ∀ v : Nat,
       (x.lo2 = 0 → match sp.ferry.find? (fun o => decide (o.kind ≠ .nsend) && decide (o.comp = sp.s x.a.toNat)) with
         | none => v = 0
         | some o => v = 256 * (o.bytes % 2 ^ 40) + (match o.st with
           | .drain => 1 | .running => 2 | .parked .page => 19 | .parked .expand => 35 | .parked .migrate => 51)) →
       (x.lo2 = 1 → v = match sp.lastFail with | some f => f.1.toNat | none => 0) →
       (1 < x.lo2 → v = match sp.lastFail with | some f => f.2.code | none => 0) →
       exec (.fstat x) s = .next ((s.putSpan { moved with
         seq := sp.seq + 1
         results := sp.results ++ [{ id := sp.seq, lane := none, sreg := some x.d.toNat, val := BitVec.ofNat 128 v }] }).issued (.fstat x) (At (.fstat x) sp I a))))

/-- R31, R134, R217, R252, R278, R279, R285: a plane word issued by all lanes of the span, with a plane slot free and its operands
accepted, puts its operation behind the fork; PMMS and PACL hold the span until their check has passed. R31, R284: PSYNC, issued by all
lanes of the span, holds it while an operation of it is on the plane; from then on it knows of the writes that the forks of its operations
handed on (R155; the form of that record is log 50). That the record of a form without an A operand has 0 in OPA, and
that of PACL its source offset in OPB, is the model's choice (log 52). -/
def Obligations.plane_words : Prop :=
  (∀ (i : Instr) (s : State) (sp0 sp : Span) (I : List Nat) (a : Word) (x : RRR) (k : PlaneKind) (opa opb : Word),
     (i = .pmma x ∧ x.bit 0 = false ∧ k = .pmma ∧ opa = sp.s x.b.toNat ∧ opb = sp.s x.c.toNat) ∨
       (i = .pmma x ∧ x.bit 0 = true ∧ k = .pmmabp ∧ opa = 0 ∧ opb = sp.s x.b.toNat) ∨
       (i = .pmms x ∧ k = .pmms ∧ opa = sp.s x.b.toNat ∧ opb = sp.s x.c.toNat) ∨
       (i = .plma x ∧ k = .plma ∧ opa = sp.s x.b.toNat ∧ opb = sp.s x.c.toNat) ∨
       (i = .pacz x ∧ k = .pacz ∧ opa = 0 ∧ opb = 0) ∨ (i = .pdrn x ∧ k = .pdrn ∧ opa = 0 ∧ opb = sp.s x.b.toNat) ∨
       (i = .pdrb x ∧ k = .pdrb ∧ opa = 0 ∧ opb = 0) ∨ (i = .pacs x ∧ k = .pacs ∧ opa = 0 ∧ opb = sp.s x.b.toNat) ∨
       (i = .pacl x ∧ k = .pacl ∧ opa = 0 ∧ opb = sp.s x.b.toNat) →
     Clear i s sp0 sp I a → I = (List.range 32).filter (fun l => !(sp.lane l).st.ended) →
     let fmt := sp.v x.d.toNat (I.headD 0)
     let ctl := sp.s x.a.toNat
     let same := ∀ l ∈ I, sp.v x.d.toNat l = fmt
     let tileOk := fun (b : Block) => ctlTile ctl < b.tiles.length ∧ ¬ (k = .pdrb ∧ ctlSeg ctl = 3) ∧ ¬ (k = .pmmabp ∧ ctlCount ctl ≠ 1)
     let inDeck := fun (b : Block) => ∀ r ∈ planeRanges k fmt ctl opa opb, r.1 % 8 = 0 ∧ r.1 + r.2 ≤ b.bytes
     let traps := fun c => exec i s = .next { ((s.putSpan sp).takeTrap sp.id ⟨c, true, a, I⟩) with picked := none }
     ∀ b, s.block? sp.block = some b →
     (same → fmtAccepts k fmt = true → tileOk b → inDeck b → sp.acqHeld = false → (s.planeq.filter (·.uid = sp.uid)).length < 4 →
       let o : PlaneOp := { id := sp.seq, pier := sp.pier, span := sp.id, uid := sp.uid, blk := sp.block, kind := k, st := .drain, seq := sp.seq,
                            fmt := fmt, ctl := ctl, opa := opa, opb := opb, idx := sp.idx }
       exec i s = .next (({ s with planeq := s.planeq ++ [o] }.putSpan { sp.onLanes I (fun ln => { ln with pc := a + 8 }) with
         seq := sp.seq + 1, planesAt := sp.planesAt ++ [sp.seq]
         checkOp := if k = PlaneKind.pmms ∨ k = PlaneKind.pacl then some sp.seq else sp.checkOp }).issued i (At i sp I a))) ∧
     (¬ (same ∧ fmtAccepts k fmt = true) → traps .fmtdiv) ∧
     (same → fmtAccepts k fmt = true → ¬ tileOk b → traps .accrange) ∧
     (same → fmtAccepts k fmt = true → tileOk b → ¬ inDeck b → traps .deckrange)) ∧
  (∀ (s : State) (sp0 sp : Span) (I : List Nat) (a : Word) (x : RRR), Clear (.psync x) s sp0 sp I a →
     I = (List.range 32).filter (fun l => !(sp.lane l).st.ended) →
     let moved := sp.onLanes I fun ln => { ln with pc := a + 8 }
     let busy := s.planeq.any fun o => decide (o.uid = sp.uid)
     let joined := { moved.learn sp.seq .all (sp.planesAt.foldl (fun v n => joinViews v (s.forking sp n)) []) with planesAt := [] }
     exec (.psync x) s = .next ((s.putSpan { (if busy then moved else joined) with pHold := busy }).issued (.psync x) (At (.psync x) sp I a)) ∧
     ∀ (t : State) (u : Span), t.span? u.id = some u → u.pHold = true → ((t.settleHolds u.id).span? u.id).map (·.pHold) =
       some (t.planeq.any fun o => decide (o.uid = u.uid)))

/-! Futures, tasks, launches (R286 to R295, R298, R303, R319 to R329). -/

/-- R291, R295, R298, R303, R320, R328: SPAWN takes a free entry of its die, makes its future queued with one reference, and puts the
record behind the fork; with no entry free it writes 0. POST puts its words behind the fork, without a future. R303, R329: LNCH puts the
address of its launch record behind the fork, and its answer is interlocked. -/
def Obligations.task_records : Prop :=
  ∀ (s : State) (sp0 sp : Span) (I : List Nat) (a : Word) (x : RRR),
    let moved := sp.onLanes I fun ln => { ln with pc := a + 8 }
    let more := fun (k : Launch) => { k with records := k.records + 1 }
    let boards := fun (sp' : Span) (r : TaskRec) => ∃ k, k < 32 ∧ (∀ e ∈ sp.landing, e.slot ≠ k) ∧
      sp' = { moved with seq := sp.seq + 1, landing := sp.landing ++ [{ slot := k, seq := sp.seq, st := .ordered, op := .record r }] }
    (Clear (.spawn x) s sp0 sp I a → sp.acqHeld = false → 0 < sp.landFree → acting (.spawn x) sp I ≠ [] →
      (s.freeSlot sp.part sp.die = none → exec (.spawn x) s = .next ((s.putSpan (moved.setS x.d.toNat 0)).issued (.spawn x) (At (.spawn x) sp I a))) ∧
      ∀ f, s.freeSlot sp.part sp.die = some f → f.st = .free ∧ f.part = sp.part ∧ f.die = sp.die ∧
        let h := f.handle
        let words := [0, 1, 2, 3, 4].map (fun k => sp.s (x.a.toNat + k)) ++
          [h, BitVec.ofNat 64 (sp.slot + 256 * (sp.pier % 40) + 65536 * sp.die + 16777216 * sp.part), 0]
        ∃ sp', boards sp' { words := words, fut := h, launch := sp.launch, uid := s.uid } ∧
          let t1 : State := { s with uid := s.uid + 1, refs := s.refs ++ [(⟨ownerOf sp I, h⟩ : Ref)] }
          let t2 := (t1.putFuture { f with ctx := sp.ctx, st := .queued, count := 1, wait := 0, result := 0 }).onLaunch sp.launch more
          exec (.spawn x) s = .next ((t2.putSpan (sp'.setS x.d.toNat h)).issued (.spawn x) (At (.spawn x) sp I a))) ∧
    (Clear (.post x) s sp0 sp I a → sp.acqHeld = false → 0 < sp.landFree → acting (.post x) sp I ≠ [] →
      ∃ sp', boards sp' { words := (List.range (x.lo3 + 1)).map fun k => sp.s (x.d.toNat + k), fut := 0,
                          launch := sp.launch, uid := s.uid } ∧
        exec (.post x) s = .next (((({ s with uid := s.uid + 1 }.onLaunch sp.launch more).putSpan sp')).issued (.post x) (At (.post x) sp I a))) ∧
    (Clear (.lnch x) s sp0 sp I a → sp.acqHeld = false → 0 < sp.landFree → acting (.lnch x) sp I ≠ [] →
      ∃ k, k < 32 ∧ (∀ e ∈ sp.landing, e.slot ≠ k) ∧ exec (.lnch x) s = .next ((s.putSpan { moved with
        seq := sp.seq + 1, ilock := sp.ilock ++ [(sp.seq, RegRef.q x.d.toNat)]
        landing := sp.landing ++ [{ slot := k, seq := sp.seq, st := .ordered, op := .launch x.d.toNat (sp.s x.a.toNat).toNat }] }).issued (.lnch x) (At (.lnch x) sp I a)))

/-- R293, R294, R321, R322, R324: FREF, FDROP and FPOLL send their messages to the entry; FREF's predicate is interlocked and FPOLL's
register and predicate are pending until the answer; a reference that its owner owns leaves it with FDROP. R288, R290, R323: FJOIN: a
stale handle lets its lanes pass and records FUTURE; else they wait for the future, and the entry is told. -/
def Obligations.future_words : Prop :=
  (∀ (s : State) (sp0 sp : Span) (I : List Nat) (a : Word) (x : RRR),
     let moved := sp.onLanes I fun ln => { ln with pc := a + 8 }
     let owner := ownerOf sp I
     let message := fun h k => ({ span := sp.id, uid := sp.uid, owner := owner, handle := h, kind := k } : FMsg)
     (Clear (.fref x) s sp0 sp I a → acting (.fref x) sp I ≠ [] →
       exec (.fref x) s = .next (({ s with fmsgs := s.fmsgs ++ [message (sp.s x.a.toNat) (.fref x.d.toNat)] }.putSpan
         { moved with seq := sp.seq + 1, ilock := sp.ilock ++ [(sp.seq, RegRef.q x.d.toNat)] }).issued (.fref x) (At (.fref x) sp I a))) ∧
     (let h := sp.s x.d.toNat;
       Clear (.fdrop x) s sp0 sp I a → acting (.fdrop x) sp I ≠ [] → (∀ m ∈ s.fmsgs, ∀ d, m.owner = owner → m.handle = h → m.kind ≠ .fref d) →
       let ref : Ref := ⟨owner, h⟩
       (ref ∈ s.refs → exec (.fdrop x) s = .next (({ s with refs := s.refs.erase ref, fmsgs := s.fmsgs ++ [message h (.drop true)] }.putSpan
         moved).issued (.fdrop x) (At (.fdrop x) sp I a))) ∧
       (ref ∉ s.refs → exec (.fdrop x) s =
         .next (({ s with fmsgs := s.fmsgs ++ [message h (.drop false)] }.putSpan moved).issued (.fdrop x) (At (.fdrop x) sp I a)))) ∧
     (let G := acting (.fpoll x) sp I;
       Clear (.fpoll x) s sp0 sp I a → ∃ new : List Result, new.map (·.lane) = G.map some ∧ new.map (·.id) = List.range' sp.seq G.length ∧
       (∀ r ∈ new, r.vreg = some (x.d.toNat, x.ty.regs) ∧ r.pred = some x.b.toNat ∧ r.sreg = none ∧ 0 < r.need) ∧
       let asked := new.map fun (r : Result) => message (sp.s x.a.toNat) (.poll (r.lane.getD 0) r.id)
       exec (.fpoll x) s = .next (({ s with fmsgs := s.fmsgs ++ asked }.putSpan
         { moved with seq := sp.seq + G.length, results := sp.results ++ new }).issued (.fpoll x) (At (.fpoll x) sp I a)))) ∧
  (∀ (s : State) (sp0 sp : Span) (I : List Nat) (a : Word) (x : RRR), Clear (.fjoin x) s sp0 sp I a →
     let moved := sp.onLanes I fun ln => { ln with pc := a + 8 }
     let G := acting (.fjoin x) sp I
     let h := sp.s x.a.toNat
     (G = [] → exec (.fjoin x) s = .next ((s.putSpan moved).issued (.fjoin x) (At (.fjoin x) sp I a))) ∧
     (G ≠ [] → s.stale sp.part h = true → exec (.fjoin x) s = .next ((s.putSpan { moved with
       cause := some (sp.cause.getD .future), first := some (sp.first.getD .future), due := true
       hcause := if sp.hmode then some (sp.hcause.getD .future) else sp.hcause }).issued (.fjoin x) (At (.fjoin x) sp I a))) ∧
     (G ≠ [] → s.stale sp.part h = false → ∃ sp',
       let m : FMsg := { span := sp.id, uid := sp.uid, owner := ownerOf sp I, handle := h, kind := .join G }
       exec (.fjoin x) s = .next ((({ s with fmsgs := s.fmsgs ++ [m] }.putSpan sp').settle sp.id).issued (.fjoin x) (At (.fjoin x) sp I a)) ∧
       KeepsRegs sp sp' ∧ sp'.qs = sp.qs ∧
       ∀ l, (l ∈ I → l ∉ G → (sp'.lane l).st = .ready ∧ (sp'.lane l).pc = a + 8) ∧
         (l ∈ G → (sp'.lane l).st = .waiting ∧ (sp'.lane l).pc = a ∧
         ∃ j, (sp'.lane l).wait = some (.join j) ∧ j.handle = h ∧ j.reg = x.d.toNat ∧ j.n = x.ty.regs ∧ j.drop = x.bit 0 ∧ j.asked = false ∧
           j.poll = (s.time sp.die).toNat + 1000)))

/-- R286, R296, R325, R327: FRET ends its lane, and the task's result travels to its entry, the task's other references being dropped; a
lane without a future only ends. RPT tells whether a lane of the issue remains.
When the lane of an FRET has ended, and when its task's own reference goes, is the model's reading (log 34). -/
def Obligations.task_ends : Prop :=
  ∀ (s : State) (sp0 sp : Span) (I : List Nat) (a : Word) (x : RRR),
    (∀ l t, Clear (.fret x) s sp0 sp I a → acting (.fret x) sp I = [l] → (sp.lane l).task = some t → t.fut ≠ 0 →
      (∀ r ∈ s.refs, r.owner = .task t.uid → r.handle = t.fut) → ∃ sp',
      Lanes sp sp' (splitLanes [l] I a fun _ ln => { ln with st := .exited, task := none }) ∧
      { sp' with lanes := sp.lanes } = { sp with seq := sp.seq + 1 } ∧
      let m : FMsg := { span := sp.id, uid := sp.uid, owner := .task t.uid, handle := t.fut,
                        kind := .fret (sp.vn x.ty.regs x.d.toNat l) sp.seq l sp.launch }
      exec (.fret x) s = .next ((({ s with fmsgs := s.fmsgs ++ [m] }.putSpan sp').settle sp.id).issued (.fret x) (At (.fret x) sp I a))) ∧
    (Clear (.fret x) s sp0 sp I a → (∀ l ∈ acting (.fret x) sp I, (sp.lane l).task = none) → ∃ sp',
      Lanes sp sp' (splitLanes (acting (.fret x) sp I) I a fun _ ln => { ln with st := .exited }) ∧
      { sp' with lanes := sp.lanes } = { sp with seq := sp.seq + 1 } ∧
      exec (.fret x) s = .next (((s.putSpan sp').settle sp.id).issued (.fret x) (At (.fret x) sp I a))) ∧
    (Clear (.rpt x) s sp0 sp I a → ∃ sp', exec (.rpt x) s = .next (((s.putSpan sp').settle sp.id).issued (.rpt x) (At (.rpt x) sp I a)) ∧ Goes sp sp' I a ∧
      KeepsRegs sp sp' ∧ ∀ r, r < 8 → sp'.q r = if x.bit 0 = true ∧ sp.guard x.ctl 0 = true ∧ r = x.d.toNat then true else sp.q r) ∧
    (∀ l, Issuing s sp0 sp I a → I = [l] → sp.interlocked (shape (.rpt x)).uses I = false → (∀ k ∈ (shape (.rpt x)).uses.v, k < sp.budget) →
      (∀ r ∈ sp.results, r.hits (shape (.rpt x)).uses I = false) → sp.doomedAt l = true → x.bit 0 = true → sp.guard x.ctl 0 = true →
      x.d.toNat < 8 → ∃ (u : State) (sp' : Span) (y : Iss), y.sp.id = sp.id ∧
        exec (.rpt x) s = .next ((u.settle sp.id).issued (.rpt x) y) ∧ u.span? sp.id = some sp' ∧
        (sp'.lane l).st = .reclaimed ∧ (sp'.lane l).task = none ∧ (sp'.lane l).pc = (sp.lane l).pc ∧ sp'.q x.d.toNat = false)

/-! Control registers and system words (R107, R330 to R339). -/

/-- The control registers of R332 by their numbers, in a context and its partition. R334: MTC to `trees`, when the span's earlier writes are
performed: a round that is open, contributed to or not, is closed first as R214 gives, its inverted completion value written; then 0
leaves the partition without trees, a table that cannot be read or whose header is wrong too, a page that is away keeps the lanes on the
word, and a table that is read configures the trees that meet the conditions, each with round 0 open. How ringk and tresv clamp, what a
scope code outside the three does, and that a span closes the rounds once, however often it must try to load, is the model's reading
(log 37). -/
def Obligations.control_registers : Prop :=
  (∀ (s : State) (sp0 sp : Span) (I : List Nat) (a : Word) (x : RRR) (cx : Context) (p : Partition),
     s.ctx? sp.ctx = some cx → s.parts[sp.part]? = some p →
     let moved := sp.onLanes I fun ln => { ln with pc := a + 8 }
     let n := x.f6.toNat
     let regs := [(0, BitVec.ofNat 64 (cx.part + 256 * cx.number)), (1, cx.ptroot), (2, cx.handler), (3, cx.tfbase), (4, cx.fabase),
       (5, cx.savebase), (6, cx.savesize), (7, cx.preto), (8, p.taskbase), (9, p.trees), (10, p.step), (11, p.ringk), (12, p.tresv),
       (13, p.snapbase)] ++ (List.range 8).map fun k => (16 + k, p.bounds.getD k 0)
     (∀ v, Clear (.mfc x) s sp0 sp I a → (privileged (.mfc x) = true → sp.hmode = true) → (n, v) ∈ regs → n < 8 →
       Puts (.mfc x) s sp I a 64 x.ctl.u false x.d fun _ => v) ∧
     (∀ v, Clear (.mfc x) s sp0 sp I a → (privileged (.mfc x) = true → sp.hmode = true) → (n, v) ∈ regs → 8 ≤ n → ∃ new : List Result,
       (x.ctl.u = true → new.map (fun r => (r.lane, r.sreg, r.vreg)) = if acting (.mfc x) sp I = [] then [] else [(none, some x.d.toNat, none)]) ∧
       (x.ctl.u = false → new.map (fun r => (r.lane, r.sreg, r.vreg)) =
         (acting (.mfc x) sp I).map fun l => (some l, none, some (x.d.toNat, 2))) ∧
       (∀ r ∈ new, r.val = v.setWidth 128 ∧ r.need = 0 ∧ r.pred = none) ∧ new.map (·.id) = List.range' sp.seq new.length ∧
       exec (.mfc x) s = .next ((s.putSpan { moved with seq := sp.seq + new.length, results := sp.results ++ new }).issued (.mfc x) (At (.mfc x) sp I a))) ∧
     (Clear (.mtc x) s sp0 sp I a → sp.hmode = true → acting (.mtc x) sp I ≠ [] →
       let w := sp.s x.d.toNat
       let from_ := fun lo => w.toNat / 2 ^ lo * 2 ^ lo
       let context := fun (f : Context → Context) => exec (.mtc x) s = .next (({ s with ctxs := s.ctxs.map fun (c : Context) => if c.id = sp.ctx then f c else c }.putSpan
         moved).issued (.mtc x) (At (.mtc x) sp I a))
       let partition := fun f => exec (.mtc x) s = .next (({ s with parts := s.parts.modify sp.part f }.putSpan moved).issued (.mtc x) (At (.mtc x) sp I a))
       (n = 1 → context fun c => { c with ptroot := BitVec.ofNat 64 (from_ 16 % 2 ^ 52) }) ∧
       (n = 2 → context fun c => { c with handler := BitVec.ofNat 64 (from_ 3) }) ∧
       (n = 3 → context fun c => { c with tfbase := BitVec.ofNat 64 (from_ 9) }) ∧
       (n = 4 → context fun c => { c with fabase := BitVec.ofNat 64 (from_ 10) }) ∧
       (n = 5 → context fun c => { c with savebase := BitVec.ofNat 64 (from_ 12) }) ∧
       (n = 6 → context fun c => { c with savesize := BitVec.ofNat 64 (from_ 12) }) ∧
       (n = 7 → context fun c => { c with preto := BitVec.ofNat 64 (w.toNat % 1024) }) ∧
       (n = 8 → partition fun q => { q with taskbase := BitVec.ofNat 64 (from_ 16) }) ∧
       (n = 10 → partition fun q => { q with step := BitVec.ofNat 64 (w.toNat % 2 ^ 32) }) ∧
       (n = 11 → partition fun q => { q with ringk := BitVec.ofNat 64 (max 10 (min 20 (w.toNat % 32))) }) ∧
       (n = 12 → partition fun q => { q with tresv := BitVec.ofNat 64 (min 64 (w.toNat % 128)) }) ∧
       (n = 13 → partition fun q => { q with snapbase := BitVec.ofNat 64 (from_ 12) }) ∧
       (∀ k, k < 8 → n = 16 + k → partition fun q =>
         { q with bounds := q.bounds.set k (BitVec.ofNat 64 (max 256 (min 65536 (w.toNat % 131072)))) }))) ∧
  (∀ (s : State) (sp0 sp : Span) (I : List Nat) (a : Word) (x : RRR) (cx : Context) (p : Partition),
     s.ctx? sp.ctx = some cx → s.parts[sp.part]? = some p → Clear (.mtc x) s sp0 sp I a → sp.hmode = true → acting (.mtc x) sp I ≠ [] →
     x.f6 = 9 → s.forkDrained sp sp.seq = true → (∀ t ∈ p.net, t.shut = some sp.uid ∧ t.owners = [] ∧ t.owed = none) →
     let w := sp.s x.d.toNat
     let moved := sp.onLanes I fun ln => { ln with pc := a + 8 }
     let loads := fun (u : State) (ts : List Tree) => exec (.mtc x) s =
       .next (((u.onPart sp.part fun q => { q with net := ts, trees := w }).onSpan sp.id fun t =>
         t.onLanes I fun ln => { ln with pc := a + 8 }).issued (.mtc x) (At (.mtc x) sp I a))
     (w = 0 → exec (.mtc x) s = .next (({ s with parts := s.parts.modify sp.part fun q => { q with net := [], trees := 0 } }.putSpan
       moved).issued (.mtc x) (At (.mtc x) sp I a))) ∧
     (w ≠ 0 → ∀ s1 c pages, (s.putSpan sp).deviceRead (some sp.pier) cx w 64 = (s1, .error (.fatal c, pages)) → loads s1 []) ∧
     (w ≠ 0 → ∀ s1 why pages, (s.putSpan sp).deviceRead (some sp.pier) cx w 64 = (s1, .error (.park why, pages)) → exec (.mtc x) s =
       .next ((s1.notify sp.ctx why (.span sp.uid) pages).issued (.mtc x) (At (.mtc x) sp I a))) ∧
     (w ≠ 0 → ∀ s1 head, (s.putSpan sp).deviceRead (some sp.pier) cx w 64 = (s1, .ok head) →
       let n := (head.getD 0 0).toNat
       let good := n ≤ 16 ∧ ∀ k, 1 ≤ k → k < 64 → head.getD k 0 = 0
       (¬ good → loads s1 []) ∧
       (good → ∀ s2 bs, s1.deviceRead (some sp.pier) cx (w + 64) (256 * n) = (s2, .ok bs) → ∃ ts, loads s2 ts ∧
         (ts.map (·.num)).Nodup ∧ (∀ t ∈ ts, t.num < n) ∧ ∀ k, k < n →
           let e := (bs.drop (256 * k)).take 256
           (TreeGood p.row.piers e → ∃ t ∈ ts, TreeIs k cx.id e t) ∧ (¬ TreeGood p.row.piers e → ∀ t ∈ ts, t.num ≠ k)))) ∧
  (∀ (s : State) (sp0 sp : Span) (I : List Nat) (a : Word) (x : RRR) (cx cy : Context) (p : Partition) (t : Tree),
     s.ctx? sp.ctx = some cx → s.parts[sp.part]? = some p → Clear (.mtc x) s sp0 sp I a → sp.hmode = true → acting (.mtc x) sp I ≠ [] →
     x.f6 = 9 → s.forkDrained sp sp.seq = true → p.net = [t] → t.owners = [] → t.owed = none → t.shut ≠ some sp.uid →
     s.ctx? t.ctx = some cy → sp.s x.d.toNat = 0 →
     let v := t.donev ^^^ 0x8000000000000000
     ∀ s1, ((s.putSpan sp).putTree sp.part { t with shut := some sp.uid, closing := false, owed := some v }).deviceWrite none cy t.donea
       (toBytes 8 v.toNat) = (s1, none, []) →
     ∃ u q, exec (.mtc x) s = .next u ∧ u.mem = s1.mem ∧ u.parts[sp.part]? = some q ∧ q.net = [] ∧ q.trees = 0)

/-- R180, R336, R337, R339: TIME, CTR and SLEEP. The port's idle counter grows, by an amount that is free, when it is read: the model's
choice (logs 47 and 3). -/
def Obligations.time_and_counters : Prop :=
  ∀ (s : State) (sp0 sp : Span) (I : List Nat) (a : Word) (x : RRR),
    (Clear (.time x) s sp0 sp I a → sp.acqHeld = false →
      Puts (.time x) s sp I a 64 x.ctl.u false x.d fun _ => s.tsc.getD sp.die 0) ∧
    (let n := x.f6.toNat;
      let place := if x.c = 0 then sp.id / 16 else if x.c = 3 then sp.id else sp.pier
      let key := (x.c.toNat * 65536 + place) * 64 + n
      let listed := (x.c = 0 ∨ x.c = 4) ∧ n ≤ 7 ∨ (x.c = 1 ∨ x.c = 2) ∧ n ≤ 4 ∨ x.c = 3 ∧ n ≤ 10 ∧ n ≠ 1
      let idle := x.c = 1 ∧ n = 4
      let goes := fun (u : State) v => ∃ sp', Goes sp sp' I a ∧ WritesD 64 x.ctl.u false x.d (acting (.ctr x) sp I) (fun _ => v) sp sp' ∧
        { sp' with lanes := sp.lanes, vregs := sp.vregs, sregs := sp.sregs } = sp ∧
        exec (.ctr x) s = .next ((u.putSpan sp').issued (.ctr x) (At (.ctr x) sp I a))
      Clear (.ctr x) s sp0 sp I a → x.c.toNat < 5 →
        (listed → ¬ idle → goes s (sget 0 s.ctrs key)) ∧ (¬ listed → goes s 0) ∧
        (idle → ∃ more : Word, goes { s with ctrs := sput 0 s.ctrs key (sget 0 s.ctrs key + more) } (sget 0 s.ctrs key + more))) ∧
    (Clear (.sleep x) s sp0 sp I a → ∃ sp', exec (.sleep x) s = .next (((s.putSpan sp').settle sp.id).issued (.sleep x) (At (.sleep x) sp I a)) ∧
      { sp' with lanes := sp.lanes } = sp ∧ Lanes sp sp' (splitLanes (acting (.sleep x) sp I) I a fun l ln =>
        { ln with st := .waiting, wait := some (.sleep ((s.time sp.die).toNat + (sp.src 32 x.ka x.a l).toNat)) }))

/-- R145, R335, R338: TLBI sends a shoot-down of its pages to every pier of the partition and to the last-level TLBs of its dies, and
holds its span until it is complete; SNAP latches the partition's registers, and tells whether it did.
In which context a snapshot's area is translated (log 38), and that its time is die 0's counter (log 9), is the model's reading. -/
def Obligations.shoot_downs_and_snapshots : Prop :=
  ∀ (s : State) (sp0 sp : Span) (I : List Nat) (a : Word) (x : RRR) (p : Partition), s.parts[sp.part]? = some p →
    let moved := sp.onLanes I fun ln => { ln with pc := a + 8 }
    (Clear (.tlbi x) s sp0 sp I a → sp.hmode = true → acting (.tlbi x) sp I ≠ [] →
      let start := (sp.s x.d.toNat).toNat
      let len := (sp.s x.a.toNat).toNat
      (x.bit 0 = false → len = 0 → exec (.tlbi x) s = .next ((s.putSpan moved).issued (.tlbi x) (At (.tlbi x) sp I a))) ∧
      (x.bit 0 = true ∨ len ≠ 0 → ∃ d, exec (.tlbi x) s = .next (({ s with uid := s.uid + 1, shoots := s.shoots ++ [d] }.putSpan
          { moved with tlbi := some s.uid }).issued (.tlbi x) (At (.tlbi x) sp I a)) ∧
        d.id = s.uid ∧ d.part = sp.part ∧ d.ctx = sp.ctx ∧ d.issuer = some sp.uid ∧ d.holders = [] ∧
        (x.bit 0 = true → d.start = 0 ∧ d.stop = 2 ^ 64) ∧
        (x.bit 0 = false → d.start = start / 65536 * 65536 ∧ d.stop = (start + len - 1) / 65536 * 65536 + 65536) ∧
        ∀ k, k ∈ d.waiting ↔ (k < 160 ∧ k ∈ p.row.piers) ∨ ∃ die, die < 4 ∧ k = 160 + die ∧
          ((∃ i ∈ p.row.piers, i / 40 = die) ∨ ∃ c ∈ p.row.channels, c / 128 = die))) ∧
    (Clear (.snap x) s sp0 sp I a → acting (.snap x) sp I ≠ [] →
      exec (.snap x) s = .next (((((s.putSpan moved).snapshot sp.part sp.ctx 0 (sp.s x.a.toNat)).1).onSpan sp.id
        (·.setQ x.d.toNat p.snap.isNone)).issued (.snap x) (At (.snap x) sp I a))) ∧
    (∀ ctx source tag, p.snap.isSome = true → s.snapshot sp.part ctx source tag = (s, false)) ∧
    ∀ ctx source tag, p.snap = none → ∃ j, s.snapshot sp.part ctx source tag =
      ((s.onPart sp.part fun q => { q with snap := some j }).trySnap sp.part, true) ∧ j.ctx = ctx ∧ j.at_ = p.snapbase ∧ j.head.length = 64 ∧
      j.head.take 16 = toBytes 8 tag.toNat ++ toBytes 8 (s.time 0).toNat ∧
      j.recs.length = 64 * (s.spans.filter fun t => decide (t.part = sp.part) && t.resident).length

/-! The steps of the memory system (R18, R63, R112 to R132, R187 to R191, R197, R246). -/

/-- R189: the operations on a word of 4 or 8 bytes, whose types are natural 0, signed 1, bits 2, FP32 3. R112, R184, R185, R189, R191,
R197: what a request with one lane's part does where it is performed, before what follows at once. R360: a request to a fenced die has no
effect but its end: memory stays, its result is 0, and DIEFAIL is recorded; that what an atomic or a CAS returns there is 0, as a load's
destination is, is the model's reading (log 44). -/
def Obligations.requests_performed : Prop :=
  (∀ (size aop aty : Nat) (x y : Word), size = 4 ∨ size = 8 →
     let a := x.setWidth (8 * size)
     let b := y.setWidth (8 * size)
     let r := (rmw size aop aty x y).setWidth (8 * size)
     (aop = 0 → r.toNat = (a.toNat + b.toNat) % 2 ^ (8 * size)) ∧
     (aop = 1 → aty = 0 → r.toNat = min a.toNat b.toNat) ∧ (aop = 1 → aty = 1 → r.toInt = min a.toInt b.toInt) ∧
     (aop = 2 → aty = 0 → r.toNat = max a.toNat b.toNat) ∧ (aop = 2 → aty = 1 → r.toInt = max a.toInt b.toInt) ∧
     (aop = 1 → aty = 3 → size = 4 → r.toNat = fminmax fp32 false true a.toNat b.toNat % 2 ^ 32) ∧
     (aop = 2 → aty = 3 → size = 4 → r.toNat = fminmax fp32 true true a.toNat b.toNat % 2 ^ 32) ∧
     (∀ k, k < 8 * size → (aop = 3 → r.getLsbD k = (a.getLsbD k && b.getLsbD k)) ∧ (aop = 4 → r.getLsbD k = (a.getLsbD k || b.getLsbD k)) ∧
       (aop = 5 → r.getLsbD k = (a.getLsbD k != b.getLsbD k))) ∧
     (aop = 6 → r = b)) ∧
  (∀ (s : State) (sp : Span) (e : Entry) (p : Part) (fromL1 : Bool) (lanes : List Nat), s.span? sp.id = some sp → sp.resident = true →
     sp.landing.find? (fun f => decide (f.slot = e.slot)) = some e → s.canPerform sp e = true →
     (homeDie (64 * e.pline)).any s.fenced.contains = false → e.parts = [p] → p.skip = 0 → p.len = p.acc.size →
     p.acc.size ∈ [1, 2, 4, 8, 16] → p.off + p.len ≤ 64 → (e.write && e.order.releases && e.scope.all) = false →
     let n := p.acc.size
     let key := 64 * e.pline + p.off
     let old := s.nat key n
     let loaded : BitVec 128 := if p.acc.sgn = true ∧ n ≤ 4 then (BitVec.ofNat (8 * n) old).signExtend 128 else BitVec.ofNat 128 old
     let returns := fun (sp' : Span) => ∀ r, p.acc.res = some r → (∀ q ∈ sp.results, q.id = r → q.need = 1 ∧ q.val = 0) →
       sp'.results = sp.results.map fun q => if q.id = r then { q with need := 0, val := loaded } else q
     let other := fun (u : State) => ∀ k, ¬ (key ≤ k ∧ k < key + n) → u.byte k = s.byte k
     ∃ (u : State) (sp' : Span), exec (.requestPerformed sp.id e.slot fromL1 lanes) s = .next (u.settle sp.id) ∧ u.span? sp.id = some sp' ∧
       (∀ f ∈ sp'.landing, f.slot = e.slot → f.st = .done) ∧
       (p.acc.op = .load → (fromL1 = false ∨ s.l1Copy sp e = none) → u.mem = s.mem ∧ returns sp' ∧
         (e.order.acquires = true → e.scope.wide = true → sp'.epoch = s.steps)) ∧
       (p.acc.op = .lda → u.mem = s.mem ∧ returns sp' ∧ (∀ l, p.acc.lane = some l → l < sp.lanes.length → (sp'.lane l).resv = some e.pline) ∧
         (p.acc.lane = none → sp'.resv = some e.pline)) ∧
       (p.acc.op = .store → other u ∧ (∀ k, k < n → u.byte (key + k) = p.acc.data.extractLsb' (8 * k) 8) ∧
         ∀ t ∈ u.spans, t.resv ≠ some e.pline ∧ ∀ ln ∈ t.lanes, ln.resv ≠ some e.pline) ∧
       (p.acc.op = .stl → (∀ f ∈ sp.landing, f.slot = e.slot → f = e) →
         (p.acc.armed = true → other u ∧ ∀ k, k < n → u.byte (key + k) = p.acc.data.extractLsb' (8 * k) 8) ∧
         (p.acc.armed = false → u.mem = s.mem) ∧
         ∀ r l, p.acc.pd = some r → p.acc.lane = some l → r < 16 → l < sp.lanes.length → sp'.p r l = p.acc.armed) ∧
       (n = 4 ∨ n = 8 → p.acc.op = .red ∨ p.acc.op = .atom → other u ∧
         u.nat key n = ((rmw n p.acc.aop p.acc.aty (BitVec.ofNat 64 old) (p.acc.data.setWidth 64)).setWidth (8 * n)).toNat ∧
         (p.acc.op = .atom → returns sp')) ∧
       (n = 4 ∨ n = 8 → p.acc.op = .cas → other u ∧ returns sp' ∧
         u.nat key n = if old = p.acc.data.toNat % 2 ^ (8 * n) then p.acc.data2.toNat % 2 ^ (8 * n) else old) ∧
       (p.acc.op = .sred → u.mem = s.mem ∧ ((∀ h ∈ s.shadows, h.isFor sp.die sp.part e.pline p.acc.aop p.acc.aty n = false) →
         u.shadows = s.shadows ++ [⟨sp.die, sp.part, e.pline, p.acc.aop, p.acc.aty, n,
           [(p.off, rmw n p.acc.aop p.acc.aty (rmwUnit n p.acc.aop p.acc.aty) (p.acc.data.setWidth 64))], [sp.block]⟩])) ∧
       (n = 4 ∨ n = 8 → p.acc.op = .waita → ∀ l w, p.acc.lane = some l → l < sp.lanes.length → (sp.lane l).wait = some (.watch w) →
         w.acc.seq = p.acc.seq → u.mem = s.mem ∧
         let holds := condHolds w.cond (exact w.sgn (BitVec.ofNat (8 * n) old)) (exact w.sgn (w.cmp.setWidth (8 * n)))
         (holds = true → (sp'.lane l).st = .ready ∧ (sp'.lane l).pc = (sp.lane l).pc + 8 ∧ (sp'.lane l).wait = none ∧
           (w.pd < 16 → sp'.p w.pd l = true)) ∧
         (holds = false → (sp'.lane l).st = (sp.lane l).st ∧ (sp'.lane l).pc = (sp.lane l).pc ∧ ∃ v, (sp'.lane l).wait = some (.watch v) ∧
           v.reading = false ∧ v.line = some e.pline ∧ v.cond = w.cond ∧ v.cmp = w.cmp ∧ v.due = w.due))) ∧
  (∀ (s : State) (sp : Span) (e : Entry) (p : Part) (fromL1 : Bool) (lanes : List Nat), s.span? sp.id = some sp → sp.resident = true →
     sp.landing.find? (fun f => decide (f.slot = e.slot)) = some e → s.canPerform sp e = true →
     (homeDie (64 * e.pline)).any s.fenced.contains = true → e.parts = [p] → p.acc.op ≠ .stl →
     ∃ (u : State) (sp' : Span), exec (.requestPerformed sp.id e.slot fromL1 lanes) s = .next (u.settle sp.id) ∧ u.span? sp.id = some sp' ∧
       u.mem = s.mem ∧ u.shadows = s.shadows ∧ (∀ f ∈ sp'.landing, f.slot = e.slot → f.st = .done) ∧ sp'.due = true ∧
       sp'.cause = some (sp.cause.getD .diefail) ∧
       ∀ r, p.acc.res = some r → sp'.results = sp.results.map fun q => if q.id = r then { q with need := 0, val := 0 } else q)

/-- R63: a result whose parts have all come is written where it goes, and is pending no more. -/
def Obligations.results_arrive : Prop :=
  ∀ (s : State) (sp : Span) (r : Result), s.span? sp.id = some sp → sp.results.find? (fun q => decide (q.id = r.id)) = some r →
    r.need = 0 → r.skip = false → ∃ (u : State) (sp' : Span),
    exec (.resultArrival sp.id r.id) s = .next (u.settle sp.id) ∧ u.span? sp.id = some sp' ∧ { u with spans := s.spans } = s ∧
      (∀ j, j ≠ sp.id → u.span? j = s.span? j) ∧ (∀ q, q ∈ sp'.results ↔ q ∈ sp.results ∧ q.id ≠ r.id) ∧
      (∀ l d n, r.lane = some l → l < 32 → r.vreg = some (d, n) → n = 1 ∨ n = 2 ∨ n = 4 → r.sreg = none →
        WritesV n d [l] (fun _ => r.val) sp sp') ∧
      (∀ d, r.lane = none → r.sreg = some d → r.pred = none → WritesS d True (r.val.setWidth 64) sp sp') ∧
      (∀ l k, r.lane = some l → l < sp.lanes.length → r.pred = some k → k < 16 → sp'.p k l = r.pval) ∧
      (∀ k, r.lane = none → r.pred = some k → k < 8 → sp'.q k = r.pval)

/-- R129 to R132: a bounce puts a request ashore with its reason and its backoff, chained behind the request whose mark bounced it; a wake
or the end of the backoff lets it board again, behind what it must stay behind; after a move it is checked again, at its new place. A
bounce for a mark's reason, and the frame of a request whose check does not pass after its wake, are the model's choice (log 43); that a
write which waited for its order leaves its pier's L1 when it is sent is log 26. -/
def Obligations.bounces : Prop :=
  ∀ (s : State) (sp : Span) (e : Entry), s.span? sp.id = some sp → sp.resident = true →
    sp.landing.find? (fun f => decide (f.slot = e.slot)) = some e →
    let now := (s.time sp.die).toNat
    let onEntry := fun (u : State) (f : Entry → Entry) => u.onSpan sp.id fun t =>
      { t with landing := t.landing.map fun g => if g.slot = e.slot then f g else g }
    let others := sp.landing.filter fun f => decide (f.slot ≠ e.slot)
    let boards := fun (i : Instr) (u : State) (line : Nat) (kind : PKind) =>
      let x := { e with pline := line, pkind := kind, woken := false }
      exec i s = .next ((onEntry u fun _ => { x with st := boardState others x }).settle sp.id)
    let moving := fun m : Move => placeKey m.oldLoc m.old ≤ 64 * e.pline ∧ 64 * e.pline < placeKey m.oldLoc m.old + 2 ^ m.size
    let marks := sp.landing.filter fun f => decide (f.op = .mem) && decide (e.op = .mem) && decide (f.seq < e.seq) &&
      (decide (f.pline = e.pline) || decide (f.vline = e.vline)) && (match f.st with | .ashore | .chained _ => true | _ => false)
    (∀ reason : BitVec 4, (if e.op = .mem then s.maySend sp e = true else e.st = .inflight) →
      (∃ b ∈ marks, b.reason = reason.toNat ∧ reason ≠ 0 ∧ reason ≠ 2) ∨ reason = 1 ∨ reason = 7 ∨ reason = 8 ∨
        (reason = 3 ∧ e.op = .mem ∧ s.lineMoved e.pline = true) ∨
        (reason = 4 ∧ e.op = .mem ∧ s.lineMoved e.pline = true ∧ ∃ m ∈ s.moves, (m.newLoc = 3 ∨ m.oldLoc = 3) ∧ moving m) ∨
        (reason = 5 ∧ e.op = .mem ∧ s.lineHeld e.pline = true) ∨ (reason = 6 ∧ e.op = .mem ∧ 2 ^ 52 ≤ 64 * e.pline) →
      exec (.bounce sp.id e.slot reason) s = .next (onEntry (if decide (e.st = .ordered) && e.stores then s.writeSent sp.pier e else s) fun f => { f with
        st := (match marks.getLast? with | some b => .chained b.slot | none => .ashore), reason := reason.toNat, since := s.steps
        bounces := min 255 (f.bounces + 1), due := now + 64 * 2 ^ min f.bounces 7
        woken := (decide (reason = 3) || decide (reason = 4)) && (s.forwarded f.pline).isSome })) ∧
    (e.st = .ashore → e.op = .mem → e.reason ≠ 2 → e.woken = false ∨ (e.reason ≠ 3 ∧ e.reason ≠ 4) → e.due ≤ now →
      boards (.backoffExpiry sp.id e.slot) s e.pline e.pkind) ∧
    (e.st = .ashore → e.due ≤ now → (∃ r, e.op = .record r) → e.reason ≠ 2 →
      exec (.backoffExpiry sp.id e.slot) s = .next (onEntry s fun f => { f with st := .inflight, woken := false })) ∧
    (e.st = .ashore → e.op = .mem → e.reason = 7 ∨ e.reason = 8 ∨ (e.woken = true ∧ e.reason ≠ 2 ∧ e.reason ≠ 3 ∧ e.reason ≠ 4) →
      boards (.wakeEvent sp.id e.slot) s e.pline e.pkind) ∧
    (∀ cx s1 o line, e.st = .ashore → e.op = .mem → e.woken = true → e.reason = 3 ∨ e.reason = 4 → s.forwarded e.pline = some line →
      s.ctx? sp.ctx = some cx →
      let need : Need := { rd := e.parts.any fun p => decide (p.acc.op ≠ .store) && decide (p.acc.op ≠ .stl), wr := e.write }
      (s.tlbLook sp.pier cx (64 * e.vline) need = some o ∧ s1 = s) ∨
        (s.tlbLook sp.pier cx (64 * e.vline) need = none ∧ s.walkHeld cx (64 * e.vline) = false ∧
          s.walk (some sp.pier) cx (64 * e.vline) need = (s1, o)) →
      (∀ key kind, o = .pass key kind → boards (.wakeEvent sp.id e.slot) s1 (key / 64) kind) ∧
      ((∀ key kind, o ≠ .pass key kind) → boards (.wakeEvent sp.id e.slot) s1 line e.pkind)) ∧
    let before := fun (ls : List Entry) f => f ∈ ls ∧ f.op = .mem ∧ f.seq < e.seq ∧ (f.pline = e.pline ∨ f.vline = e.vline) ∧
      (f.st = .ashore ∨ ∃ k, f.st = .chained k)
    (∀ ls f, before ls f → ∃ g, before ls g ∧ boardState ls e = .chained g.slot) ∧
    (∀ ls, (∀ f, ¬ before ls f) → (∀ f ∈ ls, f.op = .fence → e.seq ≤ f.seq) → e.order = .plain → boardState ls e = .inflight)

/-! Walks, waits and engines (R18, R19, R28, R134, R149, R178, R197, R198, R206, R212 to R214, R239, R250, R252, R337, R342). -/

/-- R18, R19, R28, R121, R144: a walk returns. The lane whose access passes goes on, and its requests wait to board; the lane of one
that finds a page away is parked with the reason, each page told to the fault service; the lane of one that faults is parked fatal at
its instruction, and the fault is counted. A write that passes so is the first after the release fences before it, and later ones are not
(log 50). -/
def Obligations.walks_return : Prop :=
  ∀ (s : State) (sp : Span) (cx : Context) (c : Check) (a : Access) (l : Nat) (t : State) (v : Verdict),
    s.span? sp.id = some sp → sp.resident = true → sp.joining = [] → (∀ k ∈ sp.checks, k.id ≠ c.id → k.seq ≠ a.seq) → sp.checks.find? (fun k => decide (k.id = c.id)) = some c → s.ctx? sp.ctx = some cx → c.accs = [a] →
    a.lane = some l → l < sp.lanes.length → l < 32 → (sp.lane l).wait = some (.check c.id) → a.op ≠ .stl → c.watch = none →
    s.checkHeld sp.pier cx a = false →
    (s.onSpan sp.id fun u => { u with checks := u.checks.filter fun k => decide (k.id ≠ c.id) }).checkWalk sp.pier cx a = (t, v) →
    let bare := fun (e : Entry) => ({ e with parts := e.parts.map fun p => { p with acc := { p.acc with fences := [] } } } : Entry)
    v ≠ .wait ∧ ∃ (u : State) (sp' : Span), exec (.walkComplete sp.id c.id) s = .next (u.settle sp.id) ∧ u.span? sp.id = some sp' ∧
      (∀ k ∈ sp'.checks, k.id ≠ c.id) ∧
      (∀ ps, v = .pass ps → (sp'.lane l).st = .ready ∧ (sp'.lane l).pc = (sp.lane l).pc + 8 ∧ (sp'.lane l).wait = none ∧
        ∃ old earlier new, t.span? sp.id = some old ∧ sp'.unsent = earlier ++ new ∧ earlier.map bare = old.unsent.map bare ∧
          Requested a.seq [(a, ps)] new) ∧
      (∀ why pages, v = .park why pages → (sp'.lane l).st = .parkedRec ∧ (sp'.lane l).pc = (sp.lane l).pc ∧
        (sp'.lane l).reason = some why ∧ (sp'.lane l).pages = pages ∧
        ∀ p ∈ pages, ∃ n ∈ u.notices, n.ctx = sp.ctx ∧ n.page = p ∧ n.who = .lane sp.uid l) ∧
      (∀ cause part, v = .fatal cause part → (sp'.lane l).st = .parkedFatal ∧ (sp'.lane l).pc = (sp.lane l).pc ∧
        (sp'.lane l).wait = none ∧ sp'.fseq = (sp.fseq + 1) % 256)

/-- R134, R206, R212, R250, R252, R298, R326: what waits for the span's earlier requests goes once they are performed: a ferry
operation runs or fails, a reduction is sent or finds no tree, a plane operation joins its engine's queue or traps, a task record is
sent. In which order the ranges of an operation are checked at its fork, and what FSTAT then reports, is the model's reading (logs 30, 55);
which mask words a check has read before is free (log 28), and what a fork hands on is kept as in log 50. -/
def Obligations.engine_forks : Prop :=
  ∀ (s : State) (sp : Span), s.span? sp.id = some sp → sp.resident = true →
    (∀ (o : FerryOp) (cx : Context), sp.ferry? o.id = some o → o.st = .drain → s.forkDrained sp o.seq = true → s.ctx? sp.ctx = some cx →
      o.cancel = false → o.fail = none → o.kind ≠ .nsend →
      let o1 : FerryOp := { o with view := s.forking sp o.seq }
      let ran := s.onSpan sp.id (·.putFerry { o1 with st := .running })
      let fails := fun (va : Word) (c : Cause) => exec (.engineFork sp.id (.ferry o.id)) s = .next (((s.opEnded sp o1).onSpan sp.id fun t =>
        ({ t.freeFerry o.id with lastFail := some (va, c) } : Span).record .ferryfail).settle sp.id)
      (o.comp.toNat % 8 ≠ 0 → fails o.comp .misalign) ∧ (o.comp.toNat % 8 = 0 → o.comp.getLsbD 63 = true → fails o.comp .unmapped) ∧
      (s.ferryRefused cx sp o = none → o.total ≠ 0 → exec (.engineFork sp.id (.ferry o.id)) s = .next ran) ∧
      (s.ferryRefused cx sp o = none → o.total = 0 → o.comp = 0 → exec (.engineFork sp.id (.ferry o.id)) s =
        .next (((ran.opEnded sp o1).onSpan sp.id (·.freeFerry o.id)).settle sp.id))) ∧
    (∀ (o : FerryOp), sp.ferry? o.id = some o → o.st = .drain → s.forkDrained sp o.seq = true → o.kind = .nsend →
      (s.tree? sp.part o.tree ≠ none → exec (.engineFork sp.id (.ferry o.id)) s = .next (s.onSpan sp.id
        (·.putFerry { o with st := .running, view := s.forking sp o.seq }))) ∧
      (s.tree? sp.part o.tree = none → exec (.engineFork sp.id (.ferry o.id)) s = .next (((s.onSpan sp.id (·.freeFerry o.id)).onSpan sp.id
        (·.record .nettimeout)).settle sp.id))) ∧
    (∀ (o : PlaneOp) (k : Block), s.planeq.find? (fun q => decide (q.uid = sp.uid) && decide (q.st = PState.drain)) = some o →
      s.forkDrained sp o.seq = true → s.block? o.blk = some k →
      let rest := s.planeq.filter fun q => !(decide (q.uid = o.uid) && decide (q.id = o.id))
      let queues := fun (n : PlaneOp) => ∃ (u : State) (sp' : Span), exec (.engineFork sp.id (.plane o.id)) s = .next (u.settle sp.id) ∧
        u.planeq = rest ++ [n] ∧ { u with planeq := s.planeq, spans := s.spans } = s ∧ u.span? sp.id = some sp' ∧
        sp' = { sp with checkOp := if sp.checkOp = some o.id then none else sp.checkOp }
      let traps := fun (c : Cause) => exec (.engineFork sp.id (.plane o.id)) s = .next (s.planeTrap sp o c)
      (o.kind ≠ .pmms → o.kind ≠ .pacl → queues { o with st := .queued }) ∧
      (o.kind = .pmms → if (∃ i, i < 64 * ctlCount o.ctl ∧ sparseBad (sparseN o.fmt)
          (sgets 0 (o.seen k).deck (o.opa.toNat + i * (32 + 2 * sparseN o.fmt * fmtPA o.fmt)) (32 + 2 * sparseN o.fmt * fmtPA o.fmt)) = true)
        then traps .sparsemeta else queues { o with st := .queued, words := [] }) ∧
      (o.kind = .pacl → ∀ g, g = (BitVec.ofNat 64 (leNat (sgets 0 k.deck (o.opb.toNat + 49664) 8))).toInt →
        if -512 ≤ g ∧ g ≤ 511 then queues { o with st := .queued, anchor := g } else traps .accrange)) ∧
    (∀ (e : Entry) (r : TaskRec), sp.landing.find? (fun f => decide (f.slot = e.slot)) = some e → e.st = .ordered → e.op = .record r →
      s.drained sp e.seq = true → exec (.engineFork sp.id (.entry e.slot)) s = .next (s.onSpan sp.id fun t =>
        { t with landing := t.landing.map fun f => if f.slot = e.slot then { f with st := .inflight, op := .record { r with view := s.forking sp e.seq } }
                                                   else f }))

/-- R149, R207: a chunk of a copy within the deck copies its bytes, and counts them; the last one ends the operation. R178, R191, R239,
R252: the engine's first queued operation runs by stripe steps and ends when they are done; a stripe step of a product adds to each
element its eight block products on the grid of the anchor; a shadow line is merged element by element. When the engine reads which word
of a stripe step (log 28), the scale 255 in a product (log 29) and which chunk parks or fails (log 30) are the model's choices; so is that
a shadow line of a fenced die, or whose home is one, is merged without effect (log 44). -/
def Obligations.engines_run : Prop :=
  (∀ (s : State) (sp : Span) (o : FerryOp) (cx : Context) (k : Block) (c n src dst : Nat),
     s.span? sp.id = some sp → sp.resident = true → sp.status = .running → sp.ferry? o.id = some o → o.st = .running → o.kind = .fcpy → o.fail = none →
     o.cancel = false → o.done.contains c = false → o.order c ≤ o.nextChunk + 64 → s.ctx? sp.ctx = some cx → s.block? sp.block = some k →
     o.link = none → o.comp = 0 → o.stripes = [] → c < 2 ^ 80 → (∀ w ∈ o.words, w.1 ≠ c) → o.chunk? c = some ⟨[(.deck src, n)], .deck dst, n⟩ →
     ∃ (u : State) (k' : Block) (sp' : Span), u.block? sp.block = some k' ∧ { k' with deck := k.deck } = k ∧ u.span? sp.id = some sp' ∧
       { sp' with ferry := sp.ferry } = sp ∧
       (∀ b, sget 0 k'.deck b = if dst ≤ b ∧ b < dst + n then sget 0 k.deck (src + (b - dst)) else sget 0 k.deck b) ∧
       (o.bytes + n < o.total → exec (.ferryChunk sp.id o.id c) s = .next u ∧
         sp'.ferry? o.id = some { o with done := o.done ++ [c], bytes := o.bytes + n }) ∧
       (o.total ≤ o.bytes + n → exec (.ferryChunk sp.id o.id c) s = .next (u.settle sp.id) ∧ sp'.ferry? o.id = none)) ∧
  (∀ (s : State),
     (∀ (o : PlaneOp) (pier : Nat), s.planeq.find? (fun q => decide (q.pier = pier) && decide (q.st = PState.running)) = none →
       s.planeq.find? (fun q => decide (q.pier = pier) && decide (q.st = PState.queued) && s.planeRuns q) = some o → o.done < o.steps →
       ∃ ms, exec (.planeOpStart pier 1) s = .next ({ s.onBlock o.blk { o with st := .running }.step with msgs := ms }.putPlane
         { o with st := .running, done := o.done + 1, words := [] }) ∧ (o.kind ≠ .pdrn → o.kind ≠ .pacs → ms = s.msgs)) ∧
     (∀ (o : PlaneOp) (pier : Nat), s.planeq.find? (fun q => decide (q.pier = pier) && decide (q.st = PState.running)) = some o →
       (o.steps ≤ o.done → exec (.planeOpEnd pier) s = .next ({ s with
         planeq := s.planeq.filter fun q => !(decide (q.uid = o.uid) && decide (q.id = o.id))
         engineAt := (if s.blockSaving o.blk then [(pier, o.blk)] else []) ++ s.engineAt.filter fun (e : Nat × Nat × Nat) => decide (e.1 ≠ pier) }.settle o.span)) ∧
       (o.done < o.steps → exec (.planeOpEnd pier) s = .next s)) ∧
     (∀ (o : PlaneOp) (k : Block) (m n : Nat), o.kind = .pmma ∨ o.kind = .pmms → o.words = [] → ctlTile o.ctl < k.tiles.length → m < 64 → n < 64 →
       let t := k.tiles.getD (ctlTile o.ctl) {}
       let t' := (o.step k).tiles.getD (ctlTile o.ctl) {}
       let A := (o.rowStripes k o.done).getD m ([], [])
       let B := (o.colStripes k o.done).getD n ([], [])
       let block := fun b => onGrid ((List.range 24).map fun i => A.2.getD (24 * b + i) 0 * B.2.getD (24 * b + i) 0).sum
         ((A.1.getD b 0 : Int) + B.1.getD b 0 - 254) t.anchor
       t'.elems.getD (64 * m + n) 0 = t.elems.getD (64 * m + n) 0 + BitVec.ofInt 96 ((List.range 8).map block).sum ∧
       t'.nans.getD (64 * m + n) false = (t.nans.getD (64 * m + n) false ||
         (List.range 8).any fun b => decide (A.1.getD b 0 = 255) || decide (B.1.getD b 0 = 255)) ∧
       t'.anchor = t.anchor ∧ (o.step k).deck = k.deck ∧ (o.step k).bypass = k.bypass) ∧
     (∀ (h : Shadow) (n off : Nat) (v : BitVec 64), s.shadows[n]? = some h → s.lineHeld h.line = false → h.elems = [(off, v)] → h.size = 4 ∨ h.size = 8 →
       let key := 64 * h.line + off
       let lost := s.fenced.contains h.die || (homeDie (64 * h.line)).any s.fenced.contains
       (lost = true → exec (.shadowMerge n) s = .next { s with shadows := s.shadows.erase h }) ∧
       (lost = false → ∃ u : State, exec (.shadowMerge n) s = .next u ∧ u.shadows = s.shadows.erase h ∧
         u.nat key h.size = ((rmw h.size h.aop h.aty (BitVec.ofNat 64 (s.nat key h.size)) v).setWidth (8 * h.size)).toNat ∧
         ∀ b, ¬ (key ≤ b ∧ b < key + h.size) → u.byte b = s.byte b)))

/-- R212 to R214, R342, R343: a vector reaches its router: with no tree, no place in it, or an earlier round it is discarded with
NETTIMEOUT, in a later round it waits, and in the open round it is accepted; a complete round writes the sum and the completion value
and the next one opens; a round whose time is over fails. What contributions hand on is kept with the tree (log 50). -/
def Obligations.net_rounds : Prop :=
  (∀ (s : State) (sp : Span) (o : FerryOp), s.span? sp.id = some sp → sp.ferry.find? (fun f => decide (f.id = o.id)) = some o → o.kind = .nsend →
    o.st = .running →
    let refused := exec (.routerAccept sp.id o.id) s = .next (((s.onSpan sp.id (·.freeFerry o.id)).onSpan sp.id (·.record .nettimeout)).settle sp.id)
    (s.tree? sp.part o.tree = none → refused) ∧
    ∀ t, s.tree? sp.part o.tree = some t → (t.parent.getD sp.pier 255 = 255 → refused) ∧ (t.parent.getD sp.pier 255 ≠ 255 →
      let now := (s.time t.rootDie).toNat
      (t.round < o.round → exec (.routerAccept sp.id o.id) s = .next s) ∧
      (o.round < t.round → refused) ∧ (o.round = t.round → (t.sent.any fun c => decide (c.1 = sp.pier)) = true → refused) ∧
      (o.round = t.round → (t.sent.any fun c => decide (c.1 = sp.pier)) = false → t.owed = none → (∀ d, t.due = some d → now ≤ d) →
        ∃ (u : State) (sp' : Span), exec (.routerAccept sp.id o.id) s = .next (u.settle sp.id) ∧ u.span? sp.id = some sp' ∧
          sp' = { sp.freeFerry o.id with rounds := sp.rounds ++ [(sp.part, t.num, t.round)] } ∧
          u.tree? sp.part o.tree = some { t with
            sent := t.sent ++ [(sp.pier, o.vec)], owners := if t.owners.contains sp.uid then t.owners else t.owners ++ [sp.uid]
            due := some (t.due.getD (now + 1000 * t.timeout)), shut := none, view := joinViews t.view o.view }))) ∧
  ∀ (s : State) (part n : Nat) (t : Tree), s.tree? part n = some t → t.closing = false →
    (∀ (s1 s2 : State) (t0 t2 : Tree), t.owed = none → (∀ i, i < 160 → t.parent.getD i 255 ≠ 255 → ∃ x, (i, x) ∈ t.sent) →
      s.rootWrite part t t.result (((t.partialSum 160 t.root).map fun x => toBytes 4 x.toNat).flatten) = (s1, some (some t0)) →
      let t1 := { t0 with owed := some t.donev }
      (s1.putTree part t1).rootWrite part t1 t0.donea (toBytes 8 t.donev.toNat) = (s2, some (some t2)) →
      exec (.roundResult part n) s = .next (s2.closeRound part t2)) ∧
    (∀ (d i : Nat) (s1 : State) (t2 : Tree), t.owed = none → t.due = some d → d ≤ (s.time t.rootDie).toNat → i < 160 → t.parent.getD i 255 ≠ 255 →
      (∀ x, (i, x) ∉ t.sent) →
      let t1 := { t with owed := some (t.donev ^^^ (1 <<< 63)) }
      ((s.putTree part t1).netFail t).rootWrite part t1 t.donea (toBytes 8 (t.donev ^^^ (1 <<< 63)).toNat) = (s1, some (some t2)) →
      exec (.roundTimeout part n) s = .next (s1.closeRound part t2)) ∧
    ∀ u : State, u.tree? part n = some t → (u.closeRound part t).tree? part n = some { t with
      round := (t.round + 1) % 2 ^ 32, sent := [], owners := [], due := none, owed := none, closing := false, view := [] }

/-! Records, berths, messages and deliveries (R286, R287, R293 to R296, R300 to R306, R321 to R325). -/

/-- R300 to R305, R332, R360: a record that arrives joins its pier's queue, with the residence bound that holds then, behind a ring that
is not empty the ring, and with neither free it stays; one without a node fails its future and records FUTURE, one for a fenced die
records DIEFAIL. The ring's head goes to the queue, but for records of a context that is saved or not yet resumed, which stay where they
stand (R318, R363) while others pass them (log 58); the queue's head goes to an open berth of its node, or opens one, which asks for a
span when it is full or its time is over. R306, R318: the span of a berth that asks, with a slot free on its pier: lane k runs its record
k from the node's entry, with the record's future in v2 and v3 and the record's place in the window in v4 and v5; the other lanes have
exited, and the rest of the window of 2 KiB is zero (R349). That a record for a fenced die is lost (log 44), that one without a node is
discarded whatever room there is (log 59), that an event whose turn it
is not changes nothing (log 19) and that a timer's end is an event of its own (log 20) are the model's choices. -/
def Obligations.records_and_berths : Prop :=
  (∀ (s : State),
     let bound := fun part => (s.parts[part]?).elim 0 fun p => (p.bounds.getD 7 0).toNat
     (∀ (sp : Span) (e : Entry) (r : TaskRec) (pier : Nat), s.span? sp.id = some sp → sp.landing.find? (fun f => decide (f.slot = e.slot)) = some e →
       e.st = .inflight → e.op = .record r → s.route sp (r.words.getD 1 0) = some pier →
       let leaves := fun (u : State) => u.onSpan sp.id fun t => { t with landing := t.landing.filter fun f => decide (f.slot ≠ e.slot) }
       let queue := s.taskq.filter fun q => decide (q.pier = pier) && decide (q.part = sp.part) && decide (q.spill = false)
       let ring := s.taskq.filter fun q => decide (q.pier = pier) && decide (q.part = sp.part) && decide (q.spill = true)
       (s.fenced.contains (pier / 40) = true → exec (.recordArrival sp.id e.slot) s = .next (((leaves s).onSpan sp.id (·.record .diefail)).settle sp.id)) ∧
       (s.fenced.contains (pier / 40) = false →
         (s.nodeOf r = none → exec (.recordArrival sp.id e.slot) s = .next (((leaves (s.discard r true)).onSpan sp.id (·.record .future)).settle sp.id)) ∧
         (s.nodeOf r ≠ none →
           (ring = [] → queue.length < 32 → exec (.recordArrival sp.id e.slot) s =
             .next ((leaves { s with taskq := s.taskq ++ [⟨pier, sp.part, false, r, bound sp.part⟩] }).settle sp.id)) ∧
           (ring ≠ [] ∨ 32 ≤ queue.length → ring.length < s.ringCap pier sp.part → ∃ u : State, exec (.recordArrival sp.id e.slot) s =
             .next ((leaves u).settle sp.id) ∧ u.taskq = s.taskq ++ [⟨pier, sp.part, true, r, 0⟩] ∧
             { u with taskq := s.taskq, rings := s.rings } = s) ∧
           (ring ≠ [] ∨ 32 ≤ queue.length → s.ringCap pier sp.part ≤ ring.length → exec (.recordArrival sp.id e.slot) s = .next s)))) ∧
     (∀ (sp : Span) (home : Word) (pier : Nat) (p : Partition), s.parts[sp.part]? = some p → s.route sp home = some pier → pier < 160 ∧ pier ∈ p.row.piers) ∧
     let rests := fun (r : TaskRec) => ((s.launch? r.launch).bind fun l => s.ctx? l.ctx).any fun cx => decide (cx.status = .saved) || decide (cx.status = .resuming)
     (∀ (q : QRec) (pier part : Nat), q ∈ s.taskq → rests q.body = true →
       (∃ u : State, exec (.spillMove pier part) s = .next u ∧ q ∈ u.taskq) ∧ ∃ u : State, exec (.berthStep pier) s = .next u ∧ q ∈ u.taskq) ∧
     (∀ (q : QRec) (rest : List QRec),
       (s.taskq.filter fun k => decide (k.pier = q.pier) && decide (k.part = q.part) && decide (k.spill = true) && !rests k.body) = q :: rest →
       s.isDoomed q.body = false → (s.taskq.filter fun k => decide (k.pier = q.pier) && decide (k.part = q.part) && decide (k.spill = false)).length < 32 →
       exec (.spillMove q.pier q.part) s = .next { s with taskq := s.taskq.erase q ++ [{ q with spill := false, bound := bound q.part }] }) ∧
     (∀ (q : QRec) (n : Node), s.fenced.contains (q.pier / 40) = false → s.taskq.find? (fun k => decide (k.pier = q.pier) && !k.spill && !rests k.body) = some q →
       s.isDoomed q.body = false → s.nodeOf q.body = some n →
       let opens := fun (b : Berth) => b.pier = q.pier ∧ b.launch = q.body.launch ∧ b.node.entry = n.entry ∧ b.asking = none ∧ b.recs.length < b.node.count
       ∃ u : State, exec (.berthStep q.pier) s = .next u ∧ { u with taskq := s.taskq, berths := s.berths } = s ∧
         (∀ b, opens b → (∀ c ∈ s.berths, opens c ∨ (c.pier = b.pier ∧ c.num = b.num) → c = b) → b ∈ s.berths → u.taskq = s.taskq.erase q ∧
           ∃ c ∈ u.berths, c.pier = b.pier ∧ c.num = b.num ∧ c.recs = b.recs ++ [q.body] ∧ (c.asking ≠ none ↔ b.node.count ≤ b.recs.length + 1)) ∧
         (∀ k, (∀ c ∈ s.berths, ¬ opens c) → k < 16 → (∀ c ∈ s.berths, c.pier = q.pier → c.num ≠ k) →
           (∀ j, j < k → ∃ c ∈ s.berths, c.pier = q.pier ∧ c.num = j) → u.taskq = s.taskq.erase q ∧
           ∃ c ∈ u.berths, c.pier = q.pier ∧ c.num = k ∧ c.recs = [q.body] ∧ c.node = n ∧ c.due = (s.time (q.pier / 40)).toNat + 250 * n.timer)) ∧
     (∀ (b : Berth), s.berths.find? (fun c => decide (c.pier = b.pier) && decide (c.num = b.num)) = some b → b.asking = none →
       (b.due ≤ (s.time (b.pier / 40)).toNat → exec (.berthTimerExpiry b.pier b.num) s = .next { s with
         berths := s.berths.map fun c => if c.pier = b.pier ∧ c.num = b.num then { b with asking := some s.steps } else c }) ∧
       ((s.time (b.pier / 40)).toNat < b.due → exec (.berthTimerExpiry b.pier b.num) s = .next s))) ∧
  (∀ (s s1 : State) (b : Berth) (l : Launch) (p : Partition) (cx : Context) (n slot : Nat) (pages : List Nat),
     s.berths.find? (fun c => decide (c.pier = b.pier) && decide (c.num = b.num)) = some b → b.asking = some n → s.launch? b.launch = some l →
     s.parts[b.part]? = some p → s.ctx? l.ctx = some cx → cx.status = .running → s.ckStops b.part = false → s.openTo b.pier = true →
     s.fenced.contains (b.pier / 40) = false →
     (∀ c ∈ s.berths, c.pier = b.pier → c.num ≠ b.num → c.asking = none) → b.recs.length ≤ 32 →
     nextSlot (s.room b.pier).used (s.closedOn b.pier) b.node.budget = some slot →
     let window := p.taskbase + BitVec.ofNat 64 (131072 * b.pier + 2048 * slot)
     let recs := (b.recs.map TaskRec.bytes).flatten
     s.deviceWrite (some b.pier) cx window (recs ++ List.replicate (2048 - recs.length) 0) = (s1, none, pages) →
     ∃ (u : State) (sp : Span), exec (.berthSpanStart b.pier b.num) s = .next u ∧ u.span? (64 * b.pier + slot) = some sp ∧ u.berths = s1.berths.erase b ∧
       u.mem = s1.mem ∧ sp.berth = true ∧ sp.ctx = l.ctx ∧ sp.launch = l.id ∧ sp.budget = b.node.budget ∧ sp.status = .running ∧
       ∀ k, k < 32 → (sp.lane k).pc = b.node.entry ∧ (b.recs[k]? = none → (sp.lane k).st = .exited ∧ (sp.lane k).task = none) ∧
         ∀ r, b.recs[k]? = some r → (sp.lane k).st = .ready ∧ (sp.lane k).task = some ⟨r.uid, r.fut, false⟩ ∧
           (sp.v 2 k).toNat + 2 ^ 32 * (sp.v 3 k).toNat = r.fut.toNat ∧
           (sp.v 4 k).toNat + 2 ^ 32 * (sp.v 5 k).toNat = (window + BitVec.ofNat 64 (64 * k)).toNat)

/-- R293, R294, R321, R324, R325: what a message does at its future's entry. The last reference of a future that runs dooms it, that of
one that is done or failed frees it, with the next serial number. That an FPOLL which gets a result has passed the counters of the other
dies (log 27), knows what the task handed on and looks at no older copy (log 50), and when messages are applied (log 34), is the model's
reading. -/
def Obligations.messages_applied : Prop :=
  (∀ (s : State) (m : FMsg) (n : Nat) (sp : Span), s.fmsgs[n]? = some m → (∀ k ∈ s.fmsgs.take n, k.uid = m.uid → k.handle ≠ m.handle) →
    s.spanOf? m.uid = some sp → s.span? sp.id = some sp →
    let s0 := { s with fmsgs := s.fmsgs.erase m }
    let f := s.future m.handle
    let answers := fun (qd : Nat) (b : Bool) (u : State) => exec (.futureMessage n) s = .next (((u.onSpan sp.id fun t =>
      { t.setQ qd b with ilock := t.ilock.filter fun e => decide (e.1 ≠ ((sp.ilock.find? fun e => decide (e.2 = .q qd)).map (·.1)).getD 0) }).settle sp.id))
    (∀ qd, m.kind = .fref qd →
      (s.stale sp.part m.handle = true ∨ f.count = 0 ∨ s.futureRoom sp.part none = false → answers qd false s0) ∧
      (s.stale sp.part m.handle = false → f.count ≠ 0 → s.futureRoom sp.part none = true → m.owner.alive sp = true →
        answers qd true { s0.putFuture { f with count := f.count + 1 } with refs := s.refs ++ [⟨m.owner, m.handle⟩] })) ∧
    (m.kind = .drop true → s.stale sp.part m.handle = false → exec (.futureMessage n) s = .next (s0.dropAt m.handle).settleAll) ∧
    (m.kind = .drop false → exec (.futureMessage n) s = .next ((s0.onSpan sp.id (·.record .future)).settle sp.id)) ∧
    (∀ l res, m.kind = .poll l res →
      let gets := fun (u : State) (g : Result → Result) => u.onSpan sp.id fun t => { t with
        results := t.results.map fun r => if r.id = res then { g r with need := 0 } else r }
      (s.stale sp.part m.handle = true → exec (.futureMessage n) s =
        .next (((gets s0 fun r => { r with skip := true }).onSpan sp.id (·.record .future)).settle sp.id)) ∧
      (s.stale sp.part m.handle = false →
        (f.st = .done → exec (.futureMessage n) s = .next ((gets (s0.crossed sp.die) fun r => { r with val := f.result, pval := true }).onSpan sp.id
          fun t => { t.learn t.seq .all f.view with epoch := s.steps })) ∧
        (f.st = .failed ∨ f.st = .doomed → exec (.futureMessage n) s =
          .next (((gets s0 fun r => { r with val := 0, pval := true }).onSpan sp.id (·.record .future)).settle sp.id)) ∧
        (f.st = .queued ∨ f.st = .running → ∃ own : Result → BitVec 128, (∀ r d k, r.vreg = some (d, k) → own r = sp.vn k d l) ∧
          exec (.futureMessage n) s = .next (gets s0 fun r => { r with val := own r, pval := false })))) ∧
    (∀ val seq lane launch, m.kind = .fret val seq lane launch → s.drained sp seq = true →
      f.serial = handleSerial m.handle →
      (f.st = .running → exec (.futureMessage n) s = .next (((s0.putFuture { f with st := .done, result := val, view := s.forking sp seq (some lane) }).dropAll m.owner).recordGone launch)) ∧
      (f.st = .doomed → exec (.futureMessage n) s = .next (((s0.putFuture f.freed).dropAll m.owner).recordGone launch)))) ∧
  ∀ (s : State) (h : Word), (s.future h).st ≠ .free → (s.future h).serial = handleSerial h → (∀ b ∈ s.berths, ∀ r ∈ b.recs, r.fut ≠ h) →
    let f := s.future h
    let g := (s.dropAt h).future h
    (1 < f.count ∨ f.wait ≠ 0 → g = { f with count := f.count - 1 }) ∧
    (f.count = 1 → f.wait = 0 → f.st = .queued ∨ f.st = .running → g = { f with count := 0, st := .doomed }) ∧
    (f.count = 1 → f.wait = 0 → f.st = .done ∨ f.st = .failed → g.st = .free ∧ g.count = 0 ∧
      (f.serial + 1 < 2 ^ 36 → g.serial = f.serial + 1) ∧ (f.serial + 1 = 2 ^ 36 → g.serial = 1))

/-- R287, R293, R296, R323: doom that reaches a lane reclaims it where it waits or is parked, and else marks its task; a future that is
settled gives its result, 0 where it has failed or is doomed, to a lane that joins it, by its watch slot or at its next poll, and WAIT
falls; with .drop the owner's reference goes too. A failure, and a drop of a reference that the owner has not, record FUTURE on the span.
R83, R296: at a reclamation point that raises no cause, the doomed lanes that reach it are reclaimed in place of the word, their address
and depth unchanged, and the word executes for the lanes that remain, or not at all when none do; what SPAWN creates is owned by the
lowest lane that remains. That a lane which begins to wait after its doom has come is reclaimed by a further event is the model's choice
(log 59). -/
def Obligations.dooms_and_joins : Prop :=
  (∀ (i : Instr) (s : State) (sp0 sp : Span) (I : List Nat) (a : Word), Issuing s sp0 sp I a → (∃ l, ReclaimsAt i sp I a l) →
    sp.interlocked (shape i).uses I = false → (∀ k ∈ (shape i).uses.v, k < sp.budget) → (∀ r ∈ sp.results, r.hits (shape i).uses I = false) →
    (∀ x, i = .call x → ∀ l ∈ acting i sp I, (sp.lane l).depth ≠ 255) → (∀ x, i = .callx x → ∀ l ∈ acting i sp I, (sp.lane l).depth ≠ 255) →
    (∀ x, i = .spawn x → sp.acqHeld = false ∧ 0 < sp.landFree) → (∀ x, i = .cvg x → sp.due = false) →
    (∀ x, i = .waita x → sp.memReady (entriesFor ((acting i sp I).map fun l => ({ op := .waita, lane := some l, ea := effAddr sp x false false l, size := bytesOf x.size, order := x.order, scope := x.scope, data2 := sp.atomArg x 0 l } : Access))) = true) →
    ∃ (u : State) (sp' : Span), u.span? sp.id = some sp' ∧
      (∀ l, ReclaimsAt i sp I a l → (sp'.lane l).st = .reclaimed ∧ (sp'.lane l).pc = (sp.lane l).pc ∧ (sp'.lane l).depth = (sp.lane l).depth ∧
        (sp'.lane l).task = none ∧ (sp'.lane l).wait = none) ∧
      ((∀ l ∈ I, ReclaimsAt i sp I a l) → exec i s = .next (u.settle sp.id) ∧ u.picked = none ∧ { sp' with lanes := sp.lanes } = sp ∧ u.mem = s.mem) ∧
      ((∃ l ∈ I, ¬ ReclaimsAt i sp I a l) → ∃ (v : State) (y : Iss), (v = u ∨ v = u.settle sp.id) ∧ exec i s = .next (v.issued i y) ∧ y.sp.id = sp.id ∧
        (∀ l, l ∈ y.I ↔ l ∈ I ∧ ¬ ReclaimsAt i sp I a l) ∧
        (∀ l ∈ I, ¬ ReclaimsAt i sp I a l → (l ∉ acting i sp I → (sp'.lane l).st = .ready ∧ (sp'.lane l).pc = a + 8) ∧
          (l ∈ acting i sp I → Stands i sp a l (sp'.lane l))) ∧
        ∀ x, i = .spawn x → acting i sp I ≠ [] → ∃ h : Word, sp'.sregs = (sp.setS x.d.toNat h).sregs ∧
          (h ≠ 0 → ∀ o, o = ownerOf sp y.I → (⟨o, h⟩ : Ref) ∈ u.refs))) ∧
  ∀ (s : State) (sp : Span) (l : Nat), s.span? sp.id = some sp → sp.resident = true → l < 32 → l < sp.lanes.length →
    (∀ t, (sp.lane l).task = some t → t.fut ≠ 0 → (s.future t.fut).serial = handleSerial t.fut → (s.future t.fut).st = .doomed →
      ∃ (u : State) (sp' : Span), exec (.doomArrival sp.id l) s = .next (u.settle sp.id) ∧ u.span? sp.id = some sp' ∧
        ((sp.lane l).st = .waiting ∨ (sp.lane l).st = .parkedRec → (sp'.lane l).st = .reclaimed ∧ (sp'.lane l).pc = (sp.lane l).pc ∧
          (sp'.lane l).task = none ∧ (sp'.lane l).wait = none) ∧
        ((sp.lane l).st = .ready ∨ (sp.lane l).st = .deferred → { u with spans := s.spans } = s ∧
          sp'.lane l = { sp.lane l with task := some { t with doomed := true } })) ∧
    (∀ (i : Instr) (j : Join), (sp.lane l).wait = some (.join j) → j.asked = true →
      (i = .fjoinDelivery sp.id l ∧ j.slot = true) ∨ (i = .fjoinPoll sp.id l ∧ j.slot = false ∧ j.poll ≤ (s.time sp.die).toNat) →
      s.stale sp.part j.handle = false →
      (∀ k, k < 32 → ∀ q : Join, (k ≠ l → (sp.lane k).wait ≠ some (Wait.join q)) ∧ (sp.lane k).kept ≠ some (Wait.join q)) → j.n ≤ 4 →
      let f := s.future j.handle
      let ref : Ref := ⟨(sp.lane l).task.elim (.span sp.uid) fun t => .task t.uid, j.handle⟩
      (f.st = .done ∨ f.st = .failed ∨ f.st = .doomed → ∃ (u : State) (sp' : Span), exec i s = .next (u.settle sp.id) ∧ u.span? sp.id = some sp' ∧
        (sp'.lane l).st = .ready ∧ (sp'.lane l).pc = (sp.lane l).pc + 8 ∧ (sp'.lane l).wait = none ∧
        WritesV j.n j.reg [l] (fun _ => if f.st = .done then f.result else 0) sp sp' ∧ u.mem = s.mem ∧
        (f.st ≠ .done → sp'.due = true ∧ sp'.cause = some (sp.cause.getD .future)) ∧
        (j.drop = false → 1 < f.wait ∨ f.count ≠ 0 → u.future j.handle = { f with wait := f.wait - 1 } ∧ u.refs = s.refs) ∧
        (j.drop = true → ref ∈ s.refs → 1 < f.wait ∨ 1 < f.count →
          u.future j.handle = { f with wait := f.wait - 1, count := f.count - 1 } ∧ u.refs = s.refs.erase ref) ∧
        (j.drop = true → ref ∉ s.refs → 1 < f.wait ∨ f.count ≠ 0 → u.future j.handle = { f with wait := f.wait - 1 } ∧ u.refs = s.refs ∧
          sp'.due = true ∧ sp'.cause = some (sp.cause.getD .future))) ∧
      (f.st = .queued ∨ f.st = .running → j.slot = true → exec i s = .next s) ∧
      (f.st = .queued ∨ f.st = .running → j.slot = false → ∃ (u : State) (sp' : Span), exec i s = .next u ∧
        u.span? sp.id = some sp' ∧ { u with spans := s.spans } = s ∧ { sp' with lanes := sp.lanes } = sp ∧ sp'.lane l = { sp.lane l with wait := some (.join { j with poll := (s.time sp.die).toNat + 1000 }) } ∧
        ∀ k, k ≠ l → sp'.lane k = sp.lane k))

/-! Pages (R120, R140, R142 to R146). -/

/-- R144: a fault notice reaches the service; a page that the service supplies stands at its frame with the bytes given, its leaf says so,
and a lane parked in it goes on once no other page holds it (R127); a page that it cannot supply loses V. -/
def Obligations.fault_service : Prop :=
  (∀ (n : Nat) (s : State), exec (.faultNotice n) s = .next { s with notices := s.notices.modify n fun m => { m with got := true } }) ∧
  ∀ (s : State) (cx : Context) (page q uid l : Nat) (why : Park) (sp : Span) (lf : Leaf) (how : Supply), s.ctx? cx.id = some cx →
    s.leafOf cx page = some lf →
    (s.notices.filter fun n => decide (n.ctx = cx.id) && decide (n.page / 2 ^ lf.log = page / 2 ^ lf.log)) = [⟨cx.id, q, why, .lane uid l, true⟩] →
    s.spanOf? uid = some sp → s.span? sp.id = some sp → (sp.lane l).st = .parkedRec → s.walkHeld cx page = false →
    let size := 2 ^ lf.log
    let rest := (sp.lane l).pages.filter fun p => decide (p / size ≠ page / size)
    let done := fun (u : State) => exec (.faultServiceComplete cx.id page how) s = .next (u.settle sp.id) ∧ (∃ sp', u.span? sp.id = some sp' ∧
      (sp'.lane l).pc = (sp.lane l).pc ∧ (rest = [] → (sp'.lane l).st = .ready ∧ (sp'.lane l).reason = none ∧ (sp'.lane l).pages = []) ∧
      (rest ≠ [] → (sp'.lane l).st = .parkedRec ∧ (sp'.lane l).pages = rest)) ∧
      u.notices = s.notices.filter (fun n => !(decide (n.ctx = cx.id) && decide (n.page / size = page / size)))
    let apart := fun b => ¬ (lf.at_ ≤ b ∧ b < lf.at_ + 8)
    (∀ frame, how = .zeros frame → lf.loc = 0 → s.frameFree cx.part frame size = true → ∃ u, done u ∧
      u.word lf.at_ = leafWord lf.word 1 frame false ∧
      ∀ b, apart b → u.byte b = if frame ≤ b ∧ b < frame + size then 0 else s.byte b) ∧
    (∀ frame o v, how = .data frame [(o, v)] → o < size → lf.loc = 0 → s.frameFree cx.part frame size = true → ∃ u, done u ∧
      u.word lf.at_ = leafWord lf.word 1 frame false ∧
      ∀ b, apart b → u.byte b = if b = frame + o then v else if frame ≤ b ∧ b < frame + size then 0 else s.byte b) ∧
    (how = .present → lf.word.getLsbD 61 = false → lf.loc = 1 ∨ lf.loc = 2 ∨ why = .migrate → ∃ u, done u ∧ u.mem = s.mem) ∧
    (how = .cannot → ∃ u, done u ∧ u.word lf.at_ = lf.word &&& ~~~1 ∧ ∀ b, apart b → u.byte b = s.byte b)

/-- R120: the leaf of a page that has moved names its new place: LOC and FRAME change, MIG is 0, and the other fields stay. R140, R142,
R143: the start of an eviction, of an expansion and of a promotion marks the page's leaf MIG and opens its move, when the leaf is not in a
move, the page is the partition's, its new place is free and its engine has an entry of the partition's share. What is evicted is the
first-ranked page in HBM, to the zone where it compresses, to the capacity tier where it does not; with the share of the zone full, the
zone's first-ranked page goes to the tier. When an eviction is wanted and which slots are in a page's stack is the model's choice (log
43). -/
def Obligations.moves_start : Prop :=
  (∀ (w : Word) (loc frame : Nat), loc < 3 → frame % 65536 = 0 → frame < 2 ^ 52 →
     let v := leafWord w loc frame false
     (v.extractLsb' 62 2).toNat = loc ∧ (v.extractLsb' 16 36).toNat * 65536 = frame ∧ v.getLsbD 61 = false ∧
       v.extractLsb' 52 9 = w.extractLsb' 52 9 ∧ v.extractLsb' 0 16 = w.extractLsb' 0 16) ∧
  (∀ (s : State) (cx : Context) (page : Nat) (lf : Leaf) (i : Instr) (loc new : Nat), s.ctx? cx.id = some cx → lf.word.getLsbD 61 = false →
     (∀ m ∈ s.moves, m.leaf = lf.at_ → 5 ≤ m.step) → s.movesOf cx.part (quayOf lf.loc lf.place loc new) < s.moveShare cx.part →
     s.lineHeld (lineOf lf.at_) = false → s.ownsPlace cx.part lf.loc lf.place (2 ^ lf.log) = true →
     (i = .evictionStart cx.part new ∧ s.evictWanted cx.part = true ∧ s.firstRanked cx.part 1 = some (cx, page, lf) ∧ s.compressible lf = false ∧
         loc = 2 ∧ s.capOk cx.part new (2 ^ lf.log) = true) ∨
       (∃ slot, i = .evictionStart cx.part slot ∧ s.evictWanted cx.part = true ∧ s.firstRanked cx.part 1 = some (cx, page, lf) ∧
         s.compressible lf = true ∧ loc = 3 ∧ new = zoneStep * slot ∧ 16 ≤ lf.log ∧ s.zoneOk cx.part lf.frame (2 ^ lf.log) slot = true) ∨
       (i = .evictionStart cx.part new ∧ s.evictWanted cx.part = true ∧ loc = 2 ∧ s.capOk cx.part new (2 ^ lf.log) = true ∧
         ∃ x, s.firstRanked cx.part 1 = some x ∧ s.compressible x.2.2 = true ∧ (∀ slot, s.zoneOk cx.part x.2.2.frame (2 ^ x.2.2.log) slot = false) ∧
           (s.firstRanked cx.part 3 = some (cx, page, lf) ∨ s.firstRanked cx.part 3 = none ∧ x = (cx, page, lf))) ∨
       (i = .expansion cx.id page new ∧ s.leafOf cx page = some lf ∧ lf.loc = 3 ∧ loc = 1 ∧
         s.frameFree cx.part new (2 ^ lf.log) = true) ∨
       ((∃ n, i = .pageMove n (some (cx.id, page, new))) ∧ s.leafOf cx page = some lf ∧ lf.loc = 2 ∧ peerOf lf.frame = 0 ∧ loc = 1 ∧
         s.frameFree cx.part new (2 ^ lf.log) = true) →
     ∃ u : State, exec i s = .next u ∧ u.word lf.at_ = lf.word ||| (1 <<< 61) ∧ (∀ b, ¬ (lf.at_ ≤ b ∧ b < lf.at_ + 8) → u.byte b = s.byte b) ∧
       u.moves = s.moves ++ [⟨cx.id, page / 2 ^ lf.log * 2 ^ lf.log, lf.log, lf.at_, lf.loc, lf.place, loc, new, 1, none⟩] ∧
       { u with mem := s.mem, moves := s.moves, spans := s.spans, msgs := s.msgs, l1 := s.l1 } = s)

/-- R131, R143, R180: the steps of a move: the shoot-down of the page; when every receiver has acknowledged it, the lock of the old frame; the
copy; the leaf; the wake of the requests bounced from the old frame, now forwarded to the new one; and the release of the old frame once
no pier holds it. -/
def Obligations.page_moves : Prop :=
  ∀ (s : State) (m : Move) (n : Nat) (cx : Context), s.moves[n]? = some m → s.ctx? m.ctx = some cx →
    (∀ k ∈ s.moves, k.leaf = m.leaf → k.oldLoc = m.oldLoc → k.old = m.old → k = m) →
    let size := 2 ^ m.size
    let old := placeKey m.oldLoc m.old
    let new := placeKey m.newLoc m.new
    let at_ := fun (u : State) (k : Nat) => { m with step := k } ∈ u.moves
    ∃ u : State, exec (.pageMove n none) s = .next u ∧
      (m.step = 0 ∨ m.step = 1 → u.mem = s.mem ∧ ∃ d ∈ u.shoots, d.id = s.uid ∧ d.part = cx.part ∧ d.ctx = m.ctx ∧ d.start = m.page ∧
        d.stop = m.page + size ∧ { m with step := 2, sd := some d.id } ∈ u.moves) ∧
      (∀ sd, m.step = 2 → m.sd = some sd →
        ((∀ d ∈ s.shoots, d.id = sd → d.waiting = []) → at_ u 3 ∧ u.mem = s.mem ∧ u.locked = s.locked ++ [(old, size)]) ∧
        ((∃ d ∈ s.shoots, d.id = sd ∧ d.waiting ≠ []) → u = s)) ∧
      (m.step = 3 → s.shadows = [] → (∀ h ∈ s.holds, h.on = none) → Memory.wf s.mem = true → at_ u 4 ∧ (∀ b, b < size → u.byte (new + b) = s.byte (old + b)) ∧
        ∀ b, ¬ (new ≤ b ∧ b < new + size) → u.byte b = s.byte b) ∧
      (m.step = 4 → s.lineHeld (m.leaf / 64) = false → at_ u 5 ∧ u.word m.leaf = leafWord (s.word m.leaf) m.newLoc m.new false ∧
        ∀ b, ¬ (m.leaf ≤ b ∧ b < m.leaf + 8) → u.byte b = s.byte b) ∧
      (m.step = 5 → at_ u 6 ∧ u.mem = s.mem ∧ u.spans = (s.spans.map fun sp => { sp with landing := sp.landing.map fun e =>
        if e.st = .ashore ∧ (e.reason = 3 ∨ e.reason = 4) ∧ (u.forwarded e.pline).isSome = true then { e with woken := true } else e }) ∧
        ∀ line, old ≤ 64 * line → 64 * line < old + size → new + size ≤ zoneBase →
          (∀ k ∈ s.moves, k ≠ m → ¬ (placeKey k.oldLoc k.old ≤ 64 * line ∧ 64 * line < placeKey k.oldLoc k.old + 2 ^ k.size)) →
          u.forwarded line = some ((new + (64 * line - old)) / 64)) ∧
      (∀ sd, m.step = 6 → m.sd = some sd →
        ((∀ d ∈ s.shoots, d.id ≠ sd) → u = { s with moves := s.moves.filter (fun k => decide (k ≠ m)), locked := s.locked.erase (old, size) }) ∧
        ((∃ d ∈ s.shoots, d.id = sd) → u = s))

/-- R145, R146, R335: a receiver drops its entries of the range and acknowledges; the requests that hold an old translation are counted, with
those that its pier makes by its die's entry until the die has acknowledged too; a pier whose requests still hold an old translation
gives its notice when the last of them has ended; a shoot-down with nothing outstanding is forgotten, and its issuer goes on. -/
def Obligations.shoot_down_steps : Prop :=
  ∀ (s : State) (d : ShootDown), s.shoots.find? (fun e => decide (e.id = d.id)) = some d →
    (∀ recv, recv ∈ d.waiting →
      let counted := fun p : Nat => if recv < 160 then p = recv else p < 160 ∧ p / 40 + 160 = recv ∧ p ∉ d.waiting
      ∃ hs : List (Nat × List (Nat × Nat)),
      (∀ p x, (∃ h ∈ hs, h.1 = p ∧ x ∈ h.2) ↔ (∃ h ∈ d.holders, h.1 = p ∧ x ∈ h.2) ∨ (counted p ∧ x ∈ s.holders d p)) ∧
      (∀ h ∈ hs, h ∈ d.holders ∨ (counted h.1 ∧ h.2 ≠ [])) ∧
      let d' := { d with waiting := d.waiting.filter (fun k => decide (k ≠ recv)), holders := hs }
      ∃ u : State, (d'.waiting ≠ [] ∨ d.issuer = none → exec (.shootDownAck d.id recv) s = .next u) ∧
        (∀ uid sp, d'.waiting = [] → d.issuer = some uid → u.spanOf? uid = some sp → exec (.shootDownAck d.id recv) s =
          .next ((u.onSpan sp.id fun t => if t.tlbi = some d.id then { t with tlbi := none } else t).settle sp.id)) ∧
        u.mem = s.mem ∧ (∀ t, t ∈ u.tlb ↔ t ∈ s.tlb ∧ ¬ (d.covers t = true ∧ (if recv < 160 then t.pier = some recv else t.pier = none ∧ t.die + 160 = recv))) ∧
        (d'.waiting = [] ∧ d'.holders = [] → ∀ e ∈ u.shoots, e.id ≠ d.id) ∧
        (d'.waiting ≠ [] ∨ d'.holders ≠ [] → u.shoots.find? (fun e => decide (e.id = d.id)) = some d')) ∧
    (∀ pier h, d.holders.find? (fun e => decide (e.1 = pier)) = some h →
      (∀ x ∈ h.2, ∀ sp, s.spanOf? x.1 = some sp → (∀ e ∈ sp.landing ++ sp.unsent ++ sp.joining, e.seq = x.2 → e.st = .done) ∧
        ∀ o ∈ sp.ferry, o.id = x.2 → o.stripes = []) →
      let d' := { d with holders := d.holders.filter (fun k => decide (k.1 ≠ pier)) }
      let s1 := { s with shoots := if d'.waiting = [] ∧ d'.holders = [] then s.shoots.filter (fun e => decide (e.id ≠ d.id))
        else s.shoots.map fun e => if e.id = d.id then d' else e }
      (d.waiting ≠ [] ∨ d.issuer = none → exec (.retireNotice d.id pier) s = .next s1) ∧
      ∀ uid sp, d.waiting = [] → d.issuer = some uid → s.spanOf? uid = some sp → exec (.retireNotice d.id pier) s =
        .next ((s1.onSpan sp.id fun t => if t.tlbi = some d.id then { t with tlbi := none } else t).settle sp.id)) ∧
    (∀ pier h x sp e, d.holders.find? (fun e => decide (e.1 = pier)) = some h → x ∈ h.2 → s.spanOf? x.1 = some sp → sp.status = .running →
      e ∈ sp.landing ++ sp.unsent ++ sp.joining → e.seq = x.2 → e.st ≠ .done → exec (.retireNotice d.id pier) s = .next s)

/-! The schedulers (R32, R50, R67, R121, R289, R305, R309 to R312). -/

/-- R312: with no span picked, a quadrant picks among its ready spans the one that has waited longest, if one has waited 48 cycles, and
else the oldest; the others that are ready have waited one cycle more. That of two of one age the lower number goes first is the model's
choice (log 57), and so is which TLB entry the device gives up in the cycle, by a free value, and when (logs 3, 49). R67, R121: a fetch
reads the word at the issuing set's address where it passes; where it does not, every lane of the set parks with the reason, or is parked
fatal at its instruction. That the word is what memory holds now, whatever the instruction cache holds (log 56), that a fetch parks with
MIGRATE or EXPAND (log 40) and that one whose leaf stands in a held line waits (log 46) are the model's choices. -/
def Obligations.picks_and_fetches : Prop :=
  (∀ (s : State) (quad : Nat),
     (s.picked ≠ none → exec (.quadrantPick quad) s = .next s.forget) ∧
     { s.forget with tlb := s.tlb } = s ∧ (∀ t ∈ s.forget.tlb, t ∈ s.tlb) ∧
     (s.picked = none →
       let ready := s.spans.filter fun sp => decide (sp.id / 16 = quad) && sp.resident && (s.holdOf sp).isNone
       ∃ u : State, exec (.quadrantPick quad) s = .next (u.prefetch (quad / 4)).forget ∧ (s.streams = [] → u.prefetch (quad / 4) = u) ∧
         { u with picked := s.picked, spans := s.spans, ctrs := s.ctrs } = s ∧
         u.spans.map (fun t => { t with waited := 0, want := 0 }) = s.spans.map (fun t => { t with waited := 0, want := 0 }) ∧ (ready = [] → u.picked = none) ∧
         (ready ≠ [] → ∃ sp ∈ ready, u.picked = some sp.id ∧
           ((∀ t ∈ ready, t.waited < 48) → ∀ t ∈ ready, sp.age < t.age ∨ (sp.age = t.age ∧ sp.uid ≤ t.uid)) ∧
           ((∃ t ∈ ready, 48 ≤ t.waited) → 48 ≤ sp.waited ∧ ∀ t ∈ ready, t.waited ≤ sp.waited) ∧
           ∀ t ∈ ready, t.uid ≠ sp.uid → ∃ w, { t with waited := t.waited + 1, want := w } ∈ u.spans))) ∧
  (∀ (s : State) (sp0 sp : Span) (I : List Nat) (a : Word) (cx : Context), Issuing s sp0 sp I a → s.ctx? sp0.ctx = some cx →
     let look := fun (s1 : State) (o : XOut) => s.tlbLook sp.pier cx a.toNat { ex := true } = some o ∧ s1 = s ∨
       s.tlbLook sp.pier cx a.toNat { ex := true } = none ∧ s.walkHeld cx a.toNat = false ∧ s.walk (some sp.pier) cx a.toNat { ex := true } = (s1, o)
     (s.tlbLook sp.pier cx a.toNat { ex := true } = none → s.walkHeld cx a.toNat = true →
       exec .instructionFetch s = .next { s with picked := none, ir := none }) ∧
     (∀ s1 key kind, look s1 (.pass key kind) →
       (s1.lineHeld (key / 64) = false → ∃ u : State, exec .instructionFetch s = .next u ∧ u.ir = some (s1.word key) ∧
         { u with ir := s1.ir, icache := s1.icache, lru := s1.lru } = s1) ∧
       (s1.lineHeld (key / 64) = true → exec .instructionFetch s = .next { s1 with picked := none, ir := none })) ∧
     (let fails := fun (P : Lane → Prop) => ∃ (u : State) (sp' : Span), exec .instructionFetch s = .next (u.settle sp.id) ∧ u.picked = none ∧
         u.ir = none ∧ u.span? sp.id = some sp' ∧ ∀ l ∈ I, l < sp.lanes.length → (sp'.lane l).pc = (sp.lane l).pc ∧ P (sp'.lane l)
       ∀ s1 o, look s1 o →
         (∀ c, o = .fatal c → fails fun ln => ln.st = .parkedFatal) ∧
         (∀ w, o = .park w → fails fun ln => ln.st = .parkedRec ∧ ln.reason = some w ∧ ln.pages = [a.toNat / 65536 * 65536])))

/-- R50, R309: the next block of a launch whose turn it is, on a pier that has room for it: the block is placed whole, and its spans
start there: all lanes ready at the role's entry at depth 0, lane numbers in v0, arguments, block, span and role in s0 to s3. -/
def Obligations.blocks_placed : Prop :=
  ∀ (s : State) (l : Launch) (p : Partition) (cx : Context) (d i : Nat) (ks : List Nat), s.launch? l.id = some l → s.parts[l.part]? = some p →
    s.ctx? l.ctx = some cx → cx.status = .running → s.ckStops l.part = false → s.admitted l = true → l.gang = false → l.started = true ∨ l.trees = 0 →
    s.nextBlock p l (s.inTurn p l) = some (d, i, ks) →
    let b := (l.range.getD d (0, 0)).1 + l.next.getD d 0
    ∃ u : State, exec (.blockPlacement l.id) s = .next u ∧ u.mem = s.mem ∧ ks.length = l.budgets.length ∧ i ∈ p.row.piers ∧ i / 40 = d ∧
      (∃ k ∈ u.blocks, k.launch = l.id ∧ k.idx = b ∧ k.pier = i ∧ k.bytes = l.deck ∧ k.deck = [] ∧ k.tiles = List.replicate l.tiles {} ∧ k.bypass = [] ∧
        k.nspans = ks.length) ∧
      (∃ m ∈ u.launches, m = { l with started := true, next := l.next.set d (l.next.getD d 0 + 1) }) ∧
      ∀ n slot x, ks[n]? = some slot → l.budgets[n]? = some x → ∃ sp ∈ u.spans, sp.id = 64 * i + slot ∧ slot < 64 ∧ (∀ t ∈ s.spans, t.id ≠ sp.id) ∧
        sp.launch = l.id ∧ sp.ctx = l.ctx ∧ sp.part = l.part ∧ sp.blk = b ∧ sp.idx = n ∧ sp.role = x.1 ∧ sp.budget = x.2.budget ∧ sp.hmode = false ∧
        sp.qs = 0 ∧ sp.lanes = List.replicate 32 { st := .ready, pc := x.2.entry } ∧
        (∀ r k, k < 32 → sp.v r k = if r = 0 then BitVec.ofNat 32 k else 0) ∧
        ∀ r, sp.s r = if r = 0 then l.args else if r = 1 then BitVec.ofNat 64 b else if r = 2 then BitVec.ofNat 64 n
          else if r = 3 then BitVec.ofNat 64 x.1 else 0

/-- R32, R289, R310: a span whose lanes have all ended, with nothing in flight, retires; a block with nothing left goes with its barriers;
a launch whose blocks and records are done merges the shadow lines that remain (R178), writes its completion word, with bit 63 inverted
if a span has stopped, and goes; a word that cannot be written is reported by event 10. What the spans and the blocks hand on with the
word, and to the host, is kept as in log 50. -/
def Obligations.ends : Prop :=
  ∀ (s : State),
    (∀ (sp : Span), s.span? sp.id = some sp → sp.status = .running →
      (sp.allEnded = true → s.quiet sp = true → sp.due = false → sp.trap = none → sp.preempt = none → (∀ r ∈ s.refs, r.owner ≠ .span sp.uid) →
        ∃ u : State, exec (.spanRetire sp.id) s = .next u ∧ (∀ t ∈ u.spans, t.uid ≠ sp.uid) ∧ u.mem = s.mem ∧
          (∀ k ∈ u.blocks, (k.launch, k.idx) = sp.block → sp.uid ∉ k.live) ∧
          u.launches = s.launches.map fun l => if l.id = sp.launch then { l with retired := l.retired + 1, ended := joinViews l.ended (s.handing sp sp.seq true true) } else l) ∧
      (sp.allEnded = false ∨ s.quiet sp = false ∨ sp.due = true → exec (.spanRetire sp.id) s = .next s)) ∧
    (∀ (launch blk : Nat), s.shadows = [] →
      let busy := (∃ t ∈ s.spans ++ s.saved, t.block = (launch, blk)) ∨ (∃ o ∈ s.planeq, o.blk = (launch, blk)) ∨ ∃ r ∈ s.deckq, r.blk = (launch, blk)
      (busy → exec (.blockRetire launch blk) s = .next s) ∧
      (¬ busy → ∃ u : State, exec (.blockRetire launch blk) s = .next u ∧ { u with blocks := s.blocks, bars := s.bars, launches := s.launches } = s ∧
        (∀ k, k ∈ u.blocks ↔ k ∈ s.blocks ∧ (k.launch, k.idx) ≠ (launch, blk)) ∧
        ∀ n, n ∈ u.bars ↔ n ∈ s.bars ∧ ¬ (n.key.launch = launch ∧ n.key.blk = some blk))) ∧
    ∀ (l : Launch) (cx : Context), s.launch? l.id = some l → s.ctx? l.ctx = some cx → cx.status = .running →
      let v := if l.stopped = 0 then l.donev else l.donev ^^^ (1 <<< 63)
      let m := (s.mergeAll fun h => decide (h.part = l.part)).tellDone l (s.shadows.filter fun h => decide (h.part = l.part))
      (l.done s = true → (∀ h ∈ s.shadows, h.part = l.part → s.lineHeld h.line = false) →
        (l.donea = 0 → exec (.launchComplete l.id) s = .next (m.noteDone l cx)) ∧
        (∀ s1 pages, l.donea ≠ 0 → m.deviceWrite none cx l.donea (toBytes 8 v.toNat) = (s1, none, pages) →
          exec (.launchComplete l.id) s = .next ((s1.doneWord l cx).noteDone l cx)) ∧
        ∀ s1 c pages, l.donea ≠ 0 → m.deviceWrite none cx l.donea (toBytes 8 v.toNat) = (s1, some (.fatal c), pages) →
          exec (.launchComplete l.id) s = .next ((s1.postEvent cx.queue 10 (l.donea.toNat + 2 ^ 64 * c.code) l.lidx).noteDone l cx)) ∧
      (l.note = false → s.noteDone l cx = { s with launches := s.launches.filter fun k => decide (k.id ≠ l.id)
                                                   bars := s.bars.filter fun n => decide (n.key.launch ≠ l.id) }) ∧
      (l.unplaced = true ∨ l.records ≠ 0 ∨ (∃ t ∈ s.spans, t.launch = l.id) ∨ (∃ k ∈ s.blocks, k.launch = l.id) →
        exec (.launchComplete l.id) s = .next s)

/-! Pre-emption and resumption (R43 to R46, R262, R313, R317, R363). -/

/-- R43, R44, R313: a pre-emption request gives a span its deadline; the deadline forces it; a span at its point issues no more and is
saved once nothing of it is in flight: full when forced, else short when fully reconverged, else full with no eligible lane. That a point
once found stands, that a due trap with no eligible lane comes first, and what the short save of a span holds whose lanes have all ended,
is the model's reading (logs 41, 58). R42, R44, R137, R313 to R316: the bytes that a save writes: those of a span's record, field by
field, of its landing entries the address and the data of a store alone; of a block's region; and of the directory, whose SLOTB is the
lowest slot of the block's saved spans (log 59). R45, R262, R317: a region of a resuming context, read when its die is not fenced and its
pier has room: the span of a block without tiles that was saved full, with no wait, task or ferry operation, takes registers, predicates,
mode, cause, states, program counters and depths from its record; a code of a state that no save writes is read as ready (log 54). -/
def Obligations.saves_and_resumptions : Prop :=
  (∀ (s : State) (sp : Span) (cx : Context), s.span? sp.id = some sp → sp.status = .running → s.ctx? sp.ctx = some cx →
     let now := (s.time sp.die).toNat
     (sp.uid ∈ cx.pending → exec (.preemptionRequest sp.id) s = .next ((s.onCtx sp.ctx fun c => { c with
       pending := c.pending.filter fun k => decide (k ≠ sp.uid) }).onSpan sp.id fun t =>
         ({ t with preempt := some (now + 1000 * cx.preto.toNat, decide (cx.preto = 0)) } : Span).keepPoint)) ∧
     (∀ d, sp.preempt = some (d, false) →
       (d ≤ now → exec (.preemptionTimeout sp.id) s = .next (s.onSpan sp.id fun t => ({ t.keepPoint with preempt := some (d, true) } : Span).keepPoint)) ∧
       (now < d → exec (.preemptionTimeout sp.id) s = .next s)) ∧
     (sp.savePoint = none → exec (.preemptionSave sp.id) s = .next s.trySaves) ∧
     (∀ full, sp.savePoint = some full →
       (s.saveReady sp = true → exec (.preemptionSave sp.id) s = .next (s.saveSpan sp full).trySaves) ∧
       (s.saveReady sp = false → exec (.preemptionSave sp.id) s = .next (s.onSpan sp.id Span.keepPoint))) ∧
     ∀ full, ∃ sp', (s.saveSpan sp full).span? sp.id = some sp' ∧ sp'.status = .saved full ∧ sp'.preempt = none ∧ sp'.point = none ∧ sp'.resv = none ∧
       (∀ l, (sp'.lane l).resv = none ∨ sp.lanes.length ≤ l) ∧ KeepsRegs sp sp' ∧ (sp.drafts = [] → (s.saveSpan sp full).mem = s.mem)) ∧
  (∀ t : Span, t.keepPoint = { t with point := t.savePoint } ∧ (t.preempt = none → t.savePoint = none) ∧ (t.savePoint ≠ none → t.held = true) ∧
     let eligible := ∃ l, l < 32 ∧ ((t.lane l).st = .ready ∨ (t.lane l).st = .deferred)
     let one := ∃ pc depth, ∀ l, l < 32 → (t.lane l).st.ended = false → (t.lane l).st = .ready ∧ (t.lane l).pc = pc ∧ (t.lane l).depth = depth
     ∀ d forced, t.preempt = some (d, forced) → t.status = .running → t.trap = none → t.due = false ∨ eligible →
       (∀ full, t.point = some full → t.savePoint = some full) ∧
       (t.point = none → (forced = true → t.savePoint = some true) ∧ (forced = false → (one → t.savePoint = some false) ∧
         (¬ one → ¬ eligible → t.savePoint = some true) ∧ (¬ one → eligible → t.savePoint = none)))) ∧
  (∀ (s s1 : State) (cx : Context) (k : Block) (sp : Span) (n off : Nat) (bs : List Byte), s.ctx? cx.id = some cx → cx.status = .resuming →
     cx.regions[n]? = some ((k.launch, k.idx), off) → s.block? (k.launch, k.idx) = some k → k.tiles = [] →
     blockSpans (s.saved.filter fun t => decide (t.ctx = cx.id)) k = [sp] → sp.pier = k.pier → s.fenced.contains (k.pier / 40) = false → s.roomFor k [sp] = true → sp.ferry = [] → sp.lanes.length = 32 →
     (∀ l, l < 32 → (sp.lane l).wait = none ∧ (sp.lane l).kept = none ∧ (sp.lane l).task = none ∧
       ∃ st a d, (sp.lane l).savedAs = some (st, a, d) ∧ st ≠ .reclaimed) →
     s.deviceRead none cx (cx.savebase + BitVec.ofNat 64 off) (regionAt k [sp] 0).size = (s1, .ok bs) →
     let rec_ := (bs.drop 256).take sp.recordSize
     let word := fun (at_ len : Nat) => leNat ((rec_.drop at_).take len)
     word 0 8 / 2 ^ 15 % 2 = 1 →
     ∃ (u : State) (sp' : Span), exec (.resumption cx.id n) s = .next (((u.settle sp.id).resumeDone cx).trySaves) ∧ u.span? sp.id = some sp' ∧
       sp'.hmode = decide (word 0 8 / 2 ^ 14 % 2 = 1) ∧ sp'.fseq = word (1024 + 128 * sp.budget + 4740) 4 % 256 ∧
       (sp'.hmode = false → sp.late = none → sp'.cause = causeOf (word (1024 + 128 * sp.budget + 4752) 1)) ∧ sp'.uid = sp.uid ∧ sp'.status = .running ∧ (∀ t ∈ u.saved, t.uid ≠ sp.uid) ∧ (∀ r, r < 64 → sp'.s r = BitVec.ofNat 64 (word (512 + 8 * r) 8)) ∧
       (∀ r l, r < sp.budget → l < 32 → sp'.v r l = BitVec.ofNat 32 (word (1024 + 4 * (32 * r + l)) 4)) ∧
       ∀ l, l < 32 → (sp'.lane l).pc = BitVec.ofNat 64 (word (256 + 8 * l) 8) ∧ (sp'.lane l).depth = word (96 + l) 1 ∧
         (sp'.lane l).preds = BitVec.ofNat 16 (word (128 + 2 * l) 2) ∧
         (sp'.lane l).st = (if word (64 + l) 1 = 1 then .deferred else if word (64 + l) 1 = 4 then .parkedFatal
           else if word (64 + l) 1 = 5 ∨ word (64 + l) 1 = 6 then .exited else .ready)) ∧
  (∀ (sp : Span) (full ckpt : Bool) (now : Nat), sp.lanes.length = 32 → sp.landing.length ≤ 32 →
     let rs := sp.saveBytes full ckpt now
     let tail := 1024 + 128 * sp.budget
     RunNat rs 0 8 (2 ^ 16 * (if ckpt then 2 else 1) + (if full then 2 ^ 15 else 0) + (if sp.hmode then 2 ^ 14 else 0)) ∧
     (full = true → RunNat rs 8 8 0 ∧ RunNat rs 24 8 (256 * sp.qs.toNat)) ∧
     (∀ l, full = false → l < 32 → (sp.lane l).st.ended = false → (∀ k, k < l → (sp.lane k).st.ended = true) →
       RunNat rs 8 8 (sp.lane l).pc.toNat ∧ RunNat rs 24 8 ((sp.lane l).depth + 256 * sp.qs.toNat)) ∧
     RunNat rs 32 8 (laneMask ((List.range 32).filter fun l => decide ((sp.lane l).st = .exited)) +
       2 ^ 32 * laneMask ((List.range 32).filter fun l => decide ((sp.lane l).st = .reclaimed))) ∧
     (∀ l, l < 32 → RunNat rs (128 + 2 * l) 2 (sp.lane l).preds.toNat ∧
       (full = true → RunNat rs (64 + l) 1 (sp.lane l).st.code ∧ RunNat rs (96 + l) 1 (sp.lane l).depth ∧ RunNat rs (256 + 8 * l) 8 (sp.lane l).pc.toNat) ∧
       (full = false → runByte rs (64 + l) = none ∧ runByte rs (96 + l) = none ∧ ∀ k, k < 8 → runByte rs (256 + 8 * l + k) = none)) ∧
     (∀ r, r < 64 → RunNat rs (512 + 8 * r) 8 (sp.s r).toNat) ∧
     (∀ r l, r < sp.budget → l < 32 → RunNat rs (1024 + 128 * r + 4 * l) 4 (sp.v r l).toNat) ∧
     (∀ n e, sp.ordered[n]? = some e → e.op = .mem → (∀ p ∈ e.parts, p.acc.op = .store ∧ p.off + p.len ≤ 64 ∧ p.skip + p.len ≤ 16) →
       RunNat rs (tail + 128 * n) 8 (64 * e.vline) ∧
       ∀ p, e.parts = [p] → ∀ k, p.off ≤ k → k < p.off + p.len →
         runByte rs (tail + 128 * n + 64 + k) = some (BitVec.ofNat 8 (p.acc.data.toNat / 256 ^ (p.skip + (k - p.off))))) ∧
     (∀ k, 128 * sp.landing.length ≤ k → k < 4096 → runByte rs (tail + k) = some 0) ∧
     ((((sp.lanes.map Lane.slotWaits).flatten.map fun w => (w.1, w.2.1)).eraseDups).length ≤ 4 →
       (sp.ferry.filter fun f => decide (f.kind ≠ .nsend)).length ≤ 4 →
      (∀ n o, (sp.ferry.filter fun f => decide (f.kind ≠ .nsend))[n]? = some o →
       let at_ := tail + 0x1080 + 128 * n
       RunNat rs at_ 8 o.dst.toNat ∧ RunNat rs (at_ + 8) 8 o.src.toNat ∧ RunNat rs (at_ + 16) 8 o.shape.toNat ∧ RunNat rs (at_ + 24) 8 o.comp.toNat ∧
         RunNat rs (at_ + 32) 8 o.value.toNat ∧ RunNat rs (at_ + 40) 8 o.strA.toNat ∧ RunNat rs (at_ + 48) 8 o.strB.toNat ∧
         RunNat rs (at_ + 80) 8 o.bytes) ∧
       (∀ l w, l < 32 → (sp.lane l).wait = some (.watch w) → w.slot = true → ∃ n, n < 4 ∧ let at_ := tail + 0x1000 + 32 * n
         RunNat rs at_ 8 (64 * (w.acc.ea / 64)) ∧ RunNat rs (at_ + 12) 1 1 ∧ ∃ m, RunNat rs (at_ + 8) 4 m ∧ m.testBit l = true) ∧
       (∀ l j, l < 32 → (sp.lane l).wait = some (.join j) → j.slot = true → ∃ n, n < 4 ∧ let at_ := tail + 0x1000 + 32 * n
         RunNat rs at_ 8 j.handle.toNat ∧ RunNat rs (at_ + 12) 1 2 ∧ ∃ m, RunNat rs (at_ + 8) 4 m ∧ m.testBit l = true) ∧
       RunNat rs (tail + 0x1280) 4 sp.spantag.toNat ∧ RunNat rs (tail + 0x1284) 4 sp.fseq ∧ RunNat rs (tail + 0x1288) 8 sp.origin.toNat ∧
         RunNat rs (tail + 0x1290) 1 ((sp.first.map Cause.code).getD 0))) ∧
  (∀ (s : State) (k : Block) (sps : List Span) (ckpt : Bool),
     let at_ := regionAt k sps (s.planeCmds (k.launch, k.idx)).length
     let rs := s.regionBytes k sps ckpt
     let bar := fun n => s.bar (blockKey (k.launch, k.idx) n)
     RunNat rs 0 4 sps.length ∧ RunNat rs 4 4 k.bytes ∧ RunNat rs 8 1 k.tiles.length ∧
     (∀ n, n < 16 → RunNat rs (128 + 8 * n) 4 (bar n).arrivals ∧ RunNat rs (132 + 8 * n) 2 ((bar n).count.getD 0) ∧ RunNat rs (134 + 8 * n) 2 k.broken.toNat) ∧
     (∀ n sp, sps[n]? = some sp → ∃ r, at_.recs[n]? = some r ∧ r = 256 + ((sps.take n).map fun t => (t.recordSize + 63) / 64 * 64).sum ∧
       ∀ full, sp.status = .saved full → ∀ y ∈ sp.saveBytes full ckpt (s.time (k.pier / 40)).toNat, (r + y.1, y.2) ∈ rs) ∧
     (k.berth = false → (at_.deck, (List.range ((k.bytes + 63) / 64 * 64)).map fun n => sget 0 k.deck n) ∈ rs)) ∧
  ∀ (s : State) (cx : Context), cx.status = .saving →
     let sps := s.spans.filter fun t => decide (t.ctx = cx.id) && (match t.status with | .saved _ => true | _ => false)
     (∀ t ∈ s.spans, t.ctx = cx.id → t.status ≠ .running) → (∀ o ∈ s.planeq, ∀ t ∈ sps, o.blk = t.block → o.stopped = true) →
     let L := s.saveLayout sps
     (cx.savesize.toNat < L.2 → s.trySave cx = s.refuseSave cx L.2 0) ∧
     (L.2 ≤ cx.savesize.toNat → ∀ (s1 : State) (pages : List Nat) (entries : List (Nat × List Byte)), entries.length = L.1.length →
       (∀ n x, L.1[n]? = some x → ∃ first, entries[n]? = some (64 + 16 * n, toBytes 8 x.2 ++ toBytes 4 (if x.1.berth then 2 ^ 32 - 1 else x.1.idx) ++
         toBytes 1 (x.1.pier / 40) ++ toBytes 1 (x.1.pier % 40) ++ toBytes 1 first ++ [0]) ∧ (∀ t ∈ blockSpans sps x.1, first ≤ t.slot) ∧ ∃ t ∈ blockSpans sps x.1, first = t.slot) →
       s.writeRuns cx cx.savebase ((0, toBytes 8 L.1.length ++ toBytes 8 L.2 ++ toBytes 48 0) ::
         (L.1.map fun x => (s.regionBytes x.1 (blockSpans sps x.1) cx.ckpt).map fun y => (x.2 + y.1, y.2)).flatten ++ entries) = (s1, none, pages) →
       s.trySave cx = s1.saveDone cx sps L.1)

/-! Queues (R333, R350 to R359, R363, R371, R385). -/

/-- R350 to R353, R355: the writes of a queue's registers and the commands of its CTL, for a queue that its function has. That a
base loses the bits below its alignment is the model's choice (log 59). -/
def Obligations.queue_commands : Prop :=
  ∀ (s : State) (vf q : Nat), s.hasQueue vf q = true →
    let k := s.queue (16 * vf + q)
    (∀ w : Word, k.st = .running →
      ((w - k.ridx).toNat ≤ 2 ^ k.rsize.toNat → exec (.doorbell vf q w) s = .next (s.putQueue { k with widx := w })) ∧
      (2 ^ k.rsize.toNat < (w - k.ridx).toNat → exec (.doorbell vf q w) s =
        .next ((s.putQueue { k with st := .overrun, ovidx := w }).postEvent k.id 4 (w.toNat + 2 ^ 64 * k.ridx.toNat) none))) ∧
    (∀ w : Word, k.st = .disabled ∨ k.st = .overrun ∨ k.st = .killing ∨ k.st = .stopped → exec (.doorbell vf q w) s = .next s) ∧
    (k.st = .overrun → exec (.reset vf q) s = .next ((s.putQueue { k with st := .running, widx := k.ridx, ovidx := 0 }).postEvent k.id 5
      k.ridx.toNat none)) ∧
    (k.st ≠ .overrun → exec (.reset vf q) s = .next s) ∧
    exec (.clrlost vf q) s = .next (s.putQueue { k with elost := 0 }) ∧
    (∀ v : Word, exec (.eridxWrite vf q v) s = .next ((s.putQueue { k with
      eridx := v, stops := k.stops.filter fun e => decide (v.toNat ≤ e.1) }).postHeld k.id 64)) ∧
    (∀ v : Word, let set := fun (off : Nat) (n : Queue) => exec (.registerWrite vf (4096 + 256 * q + off) v) s = .next (s.putQueue n)
      (k.st = .disabled → set 0x00 { k with rbase := v >>> 12 <<< 12 } ∧ set 0x08 { k with rsize := v &&& 31 } ∧
        set 0x20 { k with ebase := v >>> 12 <<< 12 } ∧ set 0x28 { k with esize := v &&& 31 } ∧ set 0x58 { k with cinit := v }) ∧
      (k.st ≠ .disabled → set 0x00 k ∧ set 0x08 k ∧ set 0x20 k ∧ set 0x28 k ∧ set 0x58 k) ∧
      set 0x60 { k with krep := v } ∧ set 0x68 { k with krepsz := v }) ∧
    (∀ n : Nat, n < 256 → k.st = .disabled ∨ k.st = .stopped → 4 ≤ k.rsize.toNat → k.rsize.toNat ≤ 16 → 4 ≤ k.esize.toNat → k.esize.toNat ≤ 16 →
      (∀ c ∈ s.ctxs, c.part = vf → c.number ≠ n) →
      let w := fun i => s.word (2 ^ 65 + k.cinit.toNat + 8 * i)
      let cx : Context := { id := s.uid, part := vf, number := n, queue := k.id, ptroot := w 0 &&& BitVec.ofNat 64 (2 ^ 52 - 2 ^ 16),
                            handler := w 1 >>> 3 <<< 3, tfbase := w 2 >>> 9 <<< 9, fabase := w 3 >>> 10 <<< 10, savebase := w 4 >>> 12 <<< 12,
                            savesize := w 5 >>> 12 <<< 12, preto := w 6 &&& 1023 }
      exec (.enable vf q n) s = .next ({ s with uid := s.uid + 1, ctxs := s.ctxs ++ [cx] }.putQueue { k with
        st := .running, back := .running, ridx := 0, widx := 0, ewidx := 0, eridx := 0, ovidx := 0, elost := 0, held := [], posted := 0, stops := []
        late := false })) ∧
    (∀ n : Nat, k.rsize.toNat < 4 ∨ 16 < k.rsize.toNat ∨ k.esize.toNat < 4 ∨ 16 < k.esize.toNat → exec (.enable vf q n) s = .next s)

/-- R354, R355: an event that finds room is written at its place in the event ring, with its sequence number, its type, its launch and the
time, and EWIDX advances; with the ring full it is held, and with 64 held it is counted as lost. R352, R385: the record at the read index
is read in host memory: a valid one waits for admission, an invalid one posts event 3 with its reason; either is consumed. That an event's
time is the counter of die 0 is the model's choice (log 9), and what the launch's spans know of the host's writes is kept as in log 50. -/
def Obligations.records_and_events : Prop :=
  (∀ (s : State) (id type body : Nat) (lidx : Option Nat), type < 2 ^ 32 → body < 2 ^ 256 → (∀ n, lidx = some n → n < 2 ^ 64) →
     let q := s.queue id
     let u := s.postEvent id type body lidx
     let at_ := 2 ^ 65 + q.ebase.toNat + 64 * (q.ewidx.toNat % 2 ^ (q.esize.toNat % 32))
     let room := (q.ewidx - q.eridx).toNat < 2 ^ (q.esize.toNat % 32)
     q.id = id ∧
       (room → q.held = [] → u.queue id = { q with ewidx := q.ewidx + 1, posted := q.posted + 1 } ∧ u.nat at_ 32 = body ∧
         u.word (at_ + 32) = q.ewidx ∧ u.nat (at_ + 40) 4 = type ∧ u.nat (at_ + 44) 4 = 0 ∧ u.word (at_ + 56) = s.time 0 ∧
         u.nat (at_ + 48) 8 = lidx.getD (2 ^ 64 - 1) ∧ ∀ b, ¬ (at_ ≤ b ∧ b < at_ + 64) → u.byte b = s.byte b) ∧
       (¬ room ∨ q.held ≠ [] → q.held.length < 64 → u.mem = s.mem ∧ ∃ ev, u.queue id = { q with held := q.held ++ [ev] }) ∧
       (64 ≤ q.held.length → u.mem = s.mem ∧ u.queue id = { q with elost := q.elost + 1 })) ∧
  (∀ (s t : State) (vf q : Nat) (cx : Context), let k := s.queue (16 * vf + q)
     s.queueCtx k.id = some cx → k.st = .running → k.ridx ≠ k.widx → cx.status = .running → s.ckStops cx.part = false →
     let bs := s.bytes (2 ^ 65 + k.rbase.toNat + 256 * (k.ridx.toNat % 2 ^ k.rsize.toNat)) 256
     (∀ l, s.admitRecord none cx (some k.ridx.toNat) false bs = (t, .ok l) → ∃ u : State, exec (.recordConsume vf q) s = .next u ∧
       u.launches = t.launches ++ [{ l with view := t.host }] ∧ (u.queue k.id).ridx = k.ridx + 1 ∧ u.mem = t.mem ∧ u.spans = t.spans) ∧
     (∀ r, s.admitRecord none cx (some k.ridx.toNat) false bs = (t, .bad r) → ∃ u : State, exec (.recordConsume vf q) s = .next u ∧
       u = ((t.postEvent k.id 3 r (some k.ridx.toNat)).putQueue { (t.postEvent k.id 3 r (some k.ridx.toNat)).queue k.id with ridx := k.ridx + 1 })) ∧
     (∀ w pages, s.admitRecord none cx (some k.ridx.toNat) false bs = (t, .park w pages) → exec (.recordConsume vf q) s =
       .next (t.notify cx.id w (.launch 0) pages)))

/-- R356, R359, R363: SAVE, RESUME, KILL and the expiry of a time slice. What SAVE does while the context is already being saved, resumed
or killed, or is saved for a checkpoint or a slice, is the model's reading (log 41), and so is that a kill is one event, but for writes
whose pages must be brought in first or whose lines are held, and for saved entries that cannot be read yet (log 44); a kill during a save
lets the save end first or abandons it (R359). R109, R116, R371: the line-hold facility: its registers arm a hold, the first issue of the
launch waits for it and starts it, and its end releases the line. That a write of 0x0F08 out of its range changes nothing is the model's
reading (log 44); when the hold starts, that its address is translated then and a page that is away disarms it, how its length is rounded,
and that a hold which still runs when a second one starts ends then, is too (log 46), and so is that a line of the capacity tier is held
too (log 58). -/
def Obligations.queue_saves_and_holds : Prop :=
  (∀ (s : State) (vf q : Nat) (cx : Context), let k := s.queue (16 * vf + q)
     s.queueCtx k.id = some cx →
     (k.st = .running ∨ k.st = .overrun →
       let s1 := s.putQueue { k with st := .saving, back := k.st }
       let told := fun (u : State) => u.onCtx cx.id fun c => { c with quiet := false, ckpt := false }
       (cx.status = .running → exec (.save vf q) s = .next (s1.startSave cx.id false false)) ∧
       (cx.status = .saving → exec (.save vf q) s = .next (told s1)) ∧
       (cx.status = .resuming ∨ cx.status = .killing → exec (.save vf q) s = .next s1) ∧
       (cx.status = .saved → exec (.save vf q) s =
         .next (((told s1).putQueue { k with st := .saved, back := k.st }).postEvent k.id 11 (2 ^ 32 * cx.regions.length) none))) ∧
     (k.st = .disabled ∨ k.st = .killing ∨ k.st = .stopped ∨ k.st = .saving ∨ k.st = .saved ∨ k.st = .resuming → exec (.save vf q) s = .next s) ∧
     (k.st = .saved → ∃ u : State, u = ((s.putQueue { k with st := .resuming }).onCtx cx.id fun c => { c with status := .resuming }) ∧
       exec (.resume vf q) s = .next (u.resumeDone { cx with status := .resuming }).trySaves ∧
       ((∃ t ∈ s.saved, t.ctx = cx.id) → exec (.resume vf q) s = .next u.trySaves)) ∧
     (k.st ≠ .saved → exec (.resume vf q) s = .next s) ∧
     (k.st = .running ∨ k.st = .overrun ∨ k.st = .saving ∨ k.st = .saved ∨ k.st = .resuming → s.ctx? cx.id = some cx →
       cx.status ≠ .saving ∨ cx.ckpt = true →
       ∃ u : State, exec (.kill vf q) s = .next u ∧
       ((u.queue k.id).st = .stopped ∧ (∀ c ∈ u.ctxs, c.id ≠ cx.id) ∨
         (u.queue k.id).st = .killing ∧ ∃ c ∈ u.ctxs, c.id = cx.id ∧ c.status = .killing ∧ (c.rest ≠ [] ∨ c.unread ≠ [])) ∧
       ((∀ t ∈ s.spans, t.ctx = cx.id → t.landing = [] ∧ t.unsent = [] ∧ t.joining = [] ∧ t.ferry = []) → (∀ t ∈ s.saved, t.ctx ≠ cx.id) →
         (u.queue k.id).st = .stopped) ∧
       (∀ t ∈ u.spans ++ u.saved, t.ctx ≠ cx.id) ∧ (∀ l ∈ u.launches, l.ctx ≠ cx.id) ∧
       ∀ l ∈ s.launches, l.ctx = cx.id → (∀ b ∈ u.blocks, b.launch ≠ l.id) ∧ (∀ r ∈ u.taskq, r.body.launch ≠ l.id) ∧
         (∀ b ∈ u.berths, b.launch ≠ l.id) ∧ ∀ n ∈ u.bars, n.key.launch ≠ l.id) ∧
     (k.st = .saving → s.ctx? cx.id = some cx → cx.status = .saving → cx.ckpt = false → ∃ u : State, exec (.kill vf q) s = .next u ∧
       ((∀ t ∈ u.spans ++ u.saved, t.ctx ≠ cx.id) ∧ (∀ l ∈ u.launches, l.ctx ≠ cx.id) ∨
         (u.queue k.id).st = .killing ∧ u.spans = s.spans ∧ u.saved = s.saved ∧ ∃ c ∈ u.ctxs, c.id = cx.id ∧ c.status = .saving)) ∧
     (k.st = .disabled ∨ k.st = .killing ∨ k.st = .stopped → exec (.kill vf q) s = .next s) ∧
     ∀ (p : Partition) (old new : Context), s.parts[vf]? = some p → s.ctx? old.id = some old → s.ctx? new.id = some new → old.part = vf → new.part = vf →
       old.id ≠ new.id → (p.row.slice = none → exec (.timeSliceExpiry vf old.id new.id) s = .next s) ∧
       (p.row.slice ≠ none → old.status = .running → (s.startSave old.id true false).ctx? new.id = some new →
         (new.status ≠ .saved → exec (.timeSliceExpiry vf old.id new.id) s = .next (s.startSave old.id true false)) ∧
         (new.status = .saved → new.quiet = true → exec (.timeSliceExpiry vf old.id new.id) s = .next
           (((s.startSave old.id true false).onCtx new.id fun c => { c with status := .resuming }).resumeDone { new with status := .resuming })))) ∧
  (∀ (s : State) (vf : Nat), s.hasQueue vf 0 = true →
     let h := s.hold vf
     (∀ n : Nat, n = 0 ∨ 1000000 < n → exec (.lineHoldArm vf n) s = .next s) ∧
     (∀ n : Nat, 0 < n → n ≤ 1000000 → exec (.lineHoldArm vf n) s = .next (s.putHold { h with
       armed := if h.queue.toNat < 16 ∧ (s.queue (16 * vf + h.queue.toNat)).st = .running then some ⟨h.addr, h.queue.toNat, n, none⟩ else none })) ∧
     (∀ v : Word, exec (.registerWrite vf 0x0F00 v) s = .next (s.putHold { h with addr := v }) ∧
       exec (.registerWrite vf 0x0F10 v) s = .next (s.putHold { h with queue := v })) ∧
     (∀ (a : Armed) (id : Nat), h.armed = some a → a.launch = some id →
       ((∀ t ∈ s.spans, t.launch = id → t.resident = true → s.wordHold t ≠ none) → exec (.lineHoldStart vf) s = .next s) ∧
       ((∃ t ∈ s.spans, t.launch = id ∧ t.resident = true ∧ s.wordHold t = none) →
         (s.holdLine vf a = none → exec (.lineHoldStart vf) s = .next (s.putHold { h with armed := none })) ∧
         ∀ line, s.holdLine vf a = some line →
           let s1 := s.putHold { h with armed := none, on := some (line, (s.time 0).toNat + (5 * a.count + 17) / 18) }
           (h.on = none → exec (.lineHoldStart vf) s = .next s1) ∧ ∀ n t, h.on = some (n, t) → exec (.lineHoldStart vf) s = .next (s1.holdOver n))) ∧
     (∀ (g : Hold) (a : Armed) (t : Span), g ∈ s.holds → g.armed = some a → a.launch = some t.launch → s.wordHold t = none → s.holdOf t = some 8) ∧
     (∀ (g : Hold) (line t : Nat), s.holds = [g] → g.on = some (line, t) →
       (t ≤ (s.time 0).toNat → exec .lineHoldExpiry s = .next ((s.putHold { g with on := none }).holdOver line)) ∧
       ((s.time 0).toNat < t → exec .lineHoldExpiry s = .next s)) ∧
     (∀ line, let v := (s.lineRelease line).settleAll
       (∀ sp ∈ v.spans, ∀ o ∈ sp.ferry, o.st ≠ .running ∨ o.kind = .nsend ∨ o.over = false) → (∀ p ∈ v.parts, p.net = [] ∧ p.snap = none) → (∀ c ∈ v.ctxs, c.status = .running) →
       s.holdOver line = v) ∧
     ∀ line, (s.lineRelease line).spans = s.spans.map fun sp => { sp with landing := sp.landing.map fun e =>
       if e.st = .ashore ∧ e.pline = line ∧ e.reason = 5 then { e with woken := true } else e })

/-! The package and the host (R150, R345 to R349, R360 to R370). -/

/-- R201, R360: a die that is fenced takes its spans with it, its launches' spans elsewhere record DIEFAIL, and each of their queues gets
an event 8. R361, R362, R364: TAKE, RESTORE and RELEASE: what they refuse, and what they do; a RESTORE ends, and event 9 is posted, once
each context that the checkpoint had saved has resumed. How a command during another shows reason 1, which objects a checkpoint keeps
beside its region and which queues get event 9 is the model's reading (log 42), and so is what stands on a fenced die (log 44); that
RELEASE is of every checkpoint, and the reason of a region outside the tier, is its choice (log 59). -/
def Obligations.fences_and_checkpoints : Prop :=
  (∀ (s : State) (die reason : Nat), (s.fenced.contains die = true ∨ 4 ≤ die → exec (.dieFence die reason) s = .next s) ∧
     (s.fenced.contains die = false → die < 4 → ∃ (u : State) (L : List Span),
       exec (.dieFence die reason) s = .next (L.foldl (fun t sp => t.settle sp.id) u) ∧ u.fenced = s.fenced ++ [die] ∧
       u.ck.stat = (if s.ck.stat.toNat % 8 = 1 then 4 + 256 * 6 else s.ck.stat) ∧ (∀ t ∈ u.spans, t.die = die → t.status = .dead ∨ t.status = .stopped) ∧
       (∀ l ∈ s.launches, (0 < (l.range.getD die (0, 0)).2 ∨ ∃ b ∈ s.blocks, b.launch = l.id ∧ b.pier / 40 = die) → (∀ t ∈ u.spans, t.launch = l.id → t.die ≠ die → t.due = true) ∧
         (∀ t ∈ u.saved, t.launch = l.id → t.die ≠ die → t.late ≠ none) ∧
         (∀ c, s.ctx? l.ctx = some c → (s.queue c.queue).posted + (s.queue c.queue).held.length + (s.queue c.queue).elost.toNat ≠
           (u.queue c.queue).posted + (u.queue c.queue).held.length + (u.queue c.queue).elost.toNat)) ∧
       (s.ck.stat.toNat % 8 ≠ 1 → (∀ l ∈ s.launches, (l.range.getD die (0, 0)).2 = 0 ∧ ∀ b ∈ s.blocks, b.launch = l.id → b.pier / 40 ≠ die) → L = [] ∧ u.saved = s.saved ∧ u.mem = s.mem ∧ ∀ t ∈ s.spans, t.die ≠ die → t ∈ u.spans))) ∧
  (∀ (s : State), s.boot = .running → s.ck.stat.toNat % 8 = 1 →
     let busy : State := { s with ck := { s.ck with stat := 1 + 256 } }
     exec .restore s = .next busy ∧ exec .release s = .next busy ∧ ∀ v : Word, v.toNat % 8 ≠ 0 → exec (.registerWrite 16 0x2000 v) s = .next busy) ∧
  (∀ (s : State), s.boot = .running → s.ck.stat.toNat % 8 ≠ 1 →
     let set := s.ckSet
     let stat := fun code reason => ({ s with ck := { s.ck with stat := BitVec.ofNat 64 (code + 256 * reason) } } : State)
     let need := (placed (set.map s.segments).flatten).2
     let good := set ≠ [] ∧ ∀ p ∈ set, s.hasResources p = true
     let fits := need ≤ s.ck.size.toNat ∧ s.ck.base.toNat + s.ck.size.toNat ≤ s.tierSize
     let base := capBase + s.ck.base.toNat
     exec .release s = .next { s with kept := [], ckGuard := [], ck := { s.ck with stat := 2 } } ∧
     (¬ good → exec .take s = .next (stat 3 3) ∧ exec .restore s = .next (stat 3 3)) ∧ (good → ¬ fits → exec .take s = .next (stat 3 2)) ∧
     (good → fits → exec .take s = .next ((stat 1 0).takeGo set)) ∧
     (good → fits → (∀ c ∈ s.ctxs, c.part ∈ set → c.status = .saved) → s.moves = [] → s.shadows = [] →
       (placed (set.map s.segments).flatten).1.length ≤ 2040 → ∃ (u : State) (L : List Context), exec .take s =
         .next (L.foldl State.resumeDone u) ∧ u.ck.stat = 2 ∧ u.bytes base 8 = [0x50, 0x48, 0x58, 0x43, 0x48, 0x4B, 0x30, 0x31] ∧ u.word (base + 8) = s.ck.num ∧
         u.word (base + 16) = s.ck.part ∧ (∀ b, b < capBase → u.byte b = s.byte b) ∧ ∃ img ∈ u.ckpts, img.base = s.ck.base.toNat ∧ img.num = s.ck.num ∧
           img.set = set ∧ img.ctxs = s.ctxs.filter fun c => set.contains c.part) ∧
     (good → s.bytes base 8 ≠ [0x50, 0x48, 0x58, 0x43, 0x48, 0x4B, 0x30, 0x31] → exec .restore s = .next (stat 3 5)) ∧
     ∀ img, good → s.bytes base 8 = [0x50, 0x48, 0x58, 0x43, 0x48, 0x4B, 0x30, 0x31] → s.nat (base + 56) 8 ≤ 2040 →
       s.bytes (base + 64) 64 = padTo 64 ((Config.tableDigest (s.parts.map (·.row))).take 64) →
       s.ckpts.find? (fun i => decide (i.base = s.ck.base.toNat) && decide (i.num.toNat = s.nat (base + 8) 8)) = some img → img.table = s.parts.map (·.row) →
       ∃ (u : State) (L : List Context), exec .restore s = .next (L.foldl State.resumeDone u).restoreDone ∧ u.ck.stat = 1 ∧ u.ck.restores = img.set ∧
         (∀ c ∈ u.ctxs, c.part ∈ img.set → c.ckpt = true → c.status = .resuming → c ∈ L) ∧
         (∀ t ∈ u.spans, t.part ∉ img.set) ∧ (∀ sp ∈ img.saved, sp ∈ u.saved) ∧ (∀ l ∈ img.launches, l ∈ u.launches) ∧ (∀ r ∈ img.rings, r ∈ u.rings) ∧
         ∀ d, d < s.tsc.length → d < img.tsc.length → (img.tsc.getD d 0).toNat + 1 < 2 ^ 64 → (img.tsc.getD d 0).toNat < (u.tsc.getD d 0).toNat ∧
           (s.tsc.getD d 0).toNat ≤ (u.tsc.getD d 0).toNat) ∧
  ∀ (s : State),
    (s.ck.restores ≠ [] → (∀ c ∈ s.ctxs, c.part ∈ s.ck.restores → c.ckpt = true → c.status ≠ .resuming) →
      s.restoreDone = ({ s with ck := { s.ck with stat := 2, restores := [] } } : State).postCk s.ck.restores 1) ∧
    ((s.ck.restores = [] ∨ ∃ c ∈ s.ctxs, c.part ∈ s.ck.restores ∧ c.ckpt = true ∧ c.status = .resuming) → s.restoreDone = s) ∧
    ∀ cx : Context, (∀ t ∈ s.saved, t.ctx ≠ cx.id) → cx.ckpt = true → (s.queue cx.queue).st ≠ .saving → s.ckStops cx.part = false →
      s.resumeDone cx = (s.onCtx cx.id fun c => { c with status := .running, quiet := false, ckpt := false, regions := [] }).restoreDone

/-- R338, R345 to R349, R367, R370: the writing of the partition table, the reset of the device, the snapshot triggers, a link that goes
down. That the task-queue records and the berths of a pier that passes to another owner are discarded, and that the table waits for a move
of what passes (log 45), what a reset keeps (log 14) and the context of a snapshot that no span asks for (log 38) are the model's choices.
-/
def Obligations.package_events : Prop :=
  (∀ (s : State) (table : List PartRow), s.boot = .running →
    let old := s.parts.map (·.row)
    let busy := ∃ c ∈ s.ctxs, old[c.part]? ≠ table[c.part]? ∧ ¬ (c.status = .saved ∧ (c.quiet = false ∨ c.ckpt = true))
    let moved := fun i => ownerIn old (fun r => r.piers.contains i) ≠ ownerIn table (fun r => r.piers.contains i)
    (busy ∨ tableOk s table = false → exec (.partitionTableWrite table) s = .next s) ∧
    (¬ busy → tableOk s table = true → (∀ h ∈ s.shadows, passes old table (64 * h.line) = false) →
      (∀ m ∈ s.moves, m.passes old table = false) → ∃ u : State, exec (.partitionTableWrite table) s = .next u ∧ u.parts.map (·.row) = table ∧
      (∀ b, u.byte b = if passes old table b then 0 else s.byte b) ∧ (∀ t ∈ u.tlb, old[t.part]? = table[t.part]?) ∧
      (∀ c ∈ u.l1, ¬ moved c.pier) ∧ (∀ c ∈ u.icache, ¬ moved c.1) ∧ (∀ q ∈ u.taskq, ¬ moved q.pier) ∧ (∀ b ∈ u.berths, ¬ moved b.pier) ∧
      u.spans = s.spans)) ∧
  (∀ (s : State) (b : Boot),
    let good := ∀ i ∈ [b.hypervisor, b.baseDie, b.tables], i.signed = true ∧ i.keyHash = true ∧ b.rollback ≤ i.version
    let blank : State := { ({ State.reset with agenda := s.agenda, steps := s.steps, uid := s.uid } : State) with
      mem := s.mem, ckpts := s.ckpts, rollback := b.rollback }
    (¬ good → exec (.deviceReset b) s = .next { blank with boot := .recovery }) ∧
    (good → ∃ u : State, exec (.deviceReset b) s = .next u ∧ u.boot = .running ∧
      { u with boot := blank.boot, measures := [], zoneGiB := blank.zoneGiB, dead := [], tierSize := 0, peers := [] } = blank ∧
      (∀ i, i ∈ u.dead ↔ i < 12 ∧ b.ports.getD i none = none) ∧ u.tierSize % 786432 = 0 ∧ u.tierSize ≤ 2 ^ 44 ∧
      (∀ i n, i < 12 → b.ports.length = 12 → b.ports.getD i none = some n → u.tierSize ≤ 12 * n) ∧
      u.measures = [(1, b.rom), (2, b.hypervisor.digest), (3, b.baseDie.digest), (4, b.tables.digest)])) ∧
  (∀ (s : State) (part source : Nat) (p : Partition) (cx : Context), s.parts[part]? = some p → s.ctxs.find? (fun c => decide (c.part = part)) = some cx →
    (source = 1 ∨ (source = 2 ∧ p.row.input = true) → exec (.snapshotTrigger part source) s = .next (s.snapshot part cx.id source 0).1) ∧
    (source = 2 → p.row.input = false → exec (.snapshotTrigger part source) s = .next s)) ∧
  ∀ (s : State) (port : Nat), ∃ u : State, exec (.sheundLinkDown port) s = .next u ∧ port ∈ u.down ∧ (∀ k ∈ s.down, k ∈ u.down) ∧ { u with down := s.down } = s

/-- R150, R344, R360, R366 to R368: what the host reads and writes in memory, and what it finds in the mailboxes. What is read of a fenced
die (log 44), the stop at an address that no memory has (log 19) and what the host then knows of the writes before (log 50), and of the
time (log 27), are the model's choices; so are the numbers of the bits, 8 of the signature mask and 2 of the hash mask, that
NEGOTIATE_ALGORITHMS tests (log 15), which R368 does not give. -/
def Obligations.host_requests : Prop :=
  (∀ (s : State) (a n : Nat), s.hasBytes a n = false → exec (.hostAccess (.read a n)) s = .fault (.noSuchAddress a) ∧
    ∀ bs : List Byte, bs.length = n → exec (.hostAccess (.write a bs)) s = .fault (.noSuchAddress a)) ∧
  (∀ (s : State) (a n : Nat), s.hasBytes a n = true → s.boot = .recovery → a < 2 ^ 65 → exec (.hostAccess (.read a n)) s = .next s ∧
    ∀ bs : List Byte, bs.length = n → exec (.hostAccess (.write a bs)) s = .next s) ∧
  (∀ (s : State) (a n : Nat), s.hasBytes a n = true → s.rangeBusy a n = false → s.boot ≠ .recovery ∨ 2 ^ 65 ≤ a →
    ((homeDie a).any s.fenced.contains = false → (∃ u : State, exec (.hostAccess (.read a n)) s = .next u ∧
        { u with host := s.host, hostTime := s.hostTime } = { s with out := s.out ++ [.memory (s.bytes a n)] }) ∧
      ∀ bs : List Byte, bs.length = n → ∃ u : State, exec (.hostAccess (.write a bs)) s = .next u ∧
        (∀ b, u.byte b = if a ≤ b ∧ b < a + n then bs.getD (b - a) 0 else s.byte b) ∧
        { u with mem := s.mem, spans := s.spans, msgs := s.msgs, l1 := s.l1, host := s.host, hostTime := s.hostTime } = s) ∧
    ((homeDie a).any s.fenced.contains = true → exec (.hostAccess (.read a n)) s = .next { s with out := s.out ++ [.memory (List.replicate n 0)] } ∧
      ∀ bs : List Byte, bs.length = n → exec (.hostAccess (.write a bs)) s = .next s)) ∧
  (∀ (s : State) (msg : List Byte), (s.boot = .reset → exec (.mailboxRequest 16 msg) s = .next s) ∧
    (s.boot = .recovery → ∃ bs, exec (.mailboxRequest 16 msg) s = .next { s with out := s.out ++ [.mailbox 16 true bs] }) ∧
    (s.boot = .running → ∃ bs, exec (.mailboxRequest 16 msg) s = .next { s with out := s.out ++ [.mailbox 16 false bs] })) ∧
  ∀ (s : State) (fn : Nat), s.hasFunction fn = true →
    let answers := fun (i : Instr) (kind : String) => ∃ bs, exec i s = .next { s with out := s.out ++ [.spdm fn kind bs] }
    answers (.getVersion fn) "VERSION" ∧ answers (.getCapabilities fn) "CAPABILITIES" ∧ answers (.getDigests fn) "DIGESTS" ∧
      (∀ off len, answers (.getCertificate fn off len) "CERTIFICATE") ∧ (∀ nonce, answers (.challenge fn nonce) "CHALLENGE_AUTH") ∧
      (∀ sign hash, answers (.negotiateAlgorithms fn sign hash) (if sign / 256 % 2 = 1 ∧ hash / 4 % 2 = 1 then "ALGORITHMS" else "ERROR")) ∧
      (∀ idx d, idx ≠ 5 → s.measures.find? (fun m => decide (m.1 = idx)) = some (idx, d) →
        exec (.getMeasurements fn idx) s = .next { s with out := s.out ++ [.spdm fn "MEASUREMENTS" d] }) ∧
      ∀ idx, idx ≠ 5 → (∀ d, (idx, d) ∉ s.measures) → answers (.getMeasurements fn idx) "ERROR"

/-! Encodings, steps, reset (R2, R51, R52, R57, R60, R67, R68, R73, R75, R312, R345). -/

/-- R51, R52, R56 to R58, R60, R73: a few words written out from the encodings decode to what they stand for, and a word of a reserved
class or function is no instruction. -/
def Obligations.decoded_words : Prop :=
  decode 0x0028002002000064 = .ok (.addImm { ctl := {}, d := 1, a := 0, ty := .s32, imm := 100 }) ∧
  decode 0x00A0230200000000 = .ok (.spawn { ctl := { u := true }, d := 24, a := 16 }) ∧
  decode 0x00B0A1000000000A = .ok (.mtc { ctl := { u := true }, d := 8, f6 := 10 }) ∧
  decode 0x005020C080A50C00 = .ok (.atom { ctl := { u := true }, d := 6, a := 4, b := 5, scope := .sys, size := 3 }) ∧
  decode 0x0051C0001FE10000 = .ok (.barw { ctl := {}, b := 255, scope := .block }) ∧
  (∃ e, decode 0x00C0000000000000 = .error e) ∧ (∃ e, decode 0x0003000000000000 = .error e)

/-- R51 to R75: the word of every well-formed instruction decodes to it, and a word that decodes is the word of what it decodes to. -/
def Obligations.words_round_trip : Prop :=
  (∀ (i : Instr) (w : Word), encode i = some w → wf i = true → decode w = .ok i) ∧
  ∀ (i : Instr) (w : Word), decode w = .ok i → encode i = some w ∧ wf i = true

/-- R2, R67, R75, R312: a step: time passes on every die alike; the next event of the agenda happens; with none, a quadrant picks a span
when none is picked (log 1), and the picked span's word is fetched, decoded and executed, or raises ILL. The agenda (log 1), the time between
steps (log 3) and that the counters of the dies advance alike (log 9) are the model's choices. -/
def Obligations.steps_run_the_word : Prop :=
  (∀ s : State, { s.tick with steps := s.steps, tsc := s.tsc, ctrs := s.ctrs } = s ∧ s.tick.steps = s.steps + 1 ∧ ∃ n : Word, s.tick.tsc = s.tsc.map (· + n)) ∧
  (∀ (s : State) (e : Instr) (rest : List Instr), s.agenda = e :: rest →
    (encode e = none → step s = exec e { s.tick with agenda := rest }) ∧ (encode e ≠ none → step s = .next { s.tick with agenda := rest })) ∧
  (∀ s : State, s.agenda = [] → s.picked = none → step s = exec (.quadrantPick s.turn) { s.tick with turn := (s.turn + 1) % 640 }) ∧
  (∀ (s : State) (w : Word), s.agenda = [] → s.picked ≠ none → s.tick.fetch.ir = some w →
    (∀ i, decode w = .ok i → step s = exec i { s.tick.fetch with ir := none }) ∧
    (∀ e, decode w = .error e → step s = .next (illTrap { s.tick.fetch with ir := none }))) ∧
  ∀ (s : State) (sp0 sp : Span) (I : List Nat) (a : Word), Issuing s sp0 sp I a →
    illTrap s = { ((s.putSpan sp).takeTrap sp.id ⟨.ill, true, a, I⟩) with picked := none }

/-- R345, R350, R367: the machine right after reset: its boot ROM has not run, no partition has resources, no queue is enabled, nothing
runs, and memory is in its canonical form. That its memory lists nothing and its counters stand at 0 is the model's choice (logs 4, 5). -/
def Obligations.reset_state : Prop :=
  let s := State.reset
  s.boot = .reset ∧ s.parts = [] ∧ s.ctxs = [] ∧ (∀ id, (s.queue id).st = .disabled ∧ (s.queue id).ewidx = 0 ∧ (s.queue id).elost = 0) ∧ s.launches = [] ∧
    s.blocks = [] ∧ s.spans = [] ∧ s.saved = [] ∧ s.fenced = [] ∧ s.futs = [] ∧ s.shadows = [] ∧ s.picked = none ∧ s.agenda = [] ∧ s.mem = [] ∧
    Memory.wf s.mem = true ∧ s.tsc = [0, 0, 0, 0]

/-- Every step keeps memory in its canonical form: its addresses rise, and no byte is listed that an unlisted address reads as. The form is
the model's own (log 5): it is how a memory of the whole address space is plain data. -/
def Obligations.memory_stays_canonical : Prop :=
  ∀ s t : State, Memory.wf s.mem = true → step s = .next t → Memory.wf t.mem = true

/-- No step refuses, and none faults but an access of the host to an address that no memory has (R344, R345): that an event whose turn it is not
passes, and that this one access stops, is the model's choice (log 19). -/
def Obligations.steps_answer : Prop :=
  ∀ s : State, (∃ t, step s = .next t) ∨ ∃ acc rest a, s.agenda = .hostAccess acc :: rest ∧ step s = .fault (.noSuchAddress a)

end
end

