-- ==== Sys2Proof/Laws/Records.lean ====
section
/-! SUPPORT. The records of the state by name: what a span is after a change of one span. -/

namespace Sys2Proof.Machine

theorem find?_map_key {α : Type} (l : List α) (key : α → Nat) (f : α → α) (hk : ∀ a, key (f a) = key a) (i : Nat) :
    (l.map f).find? (fun a => key a = i) = (l.find? fun a => key a = i).map f := by
  induction l with
  | nil => rfl
  | cons a r ih => by_cases h : key a = i <;> simp [h, hk, ih]

/-- A change of the span `id` that leaves its place: the span `j` after it. -/
theorem span?_onSpan (s : State) (id j : Nat) (f : Span → Span) (hf : ∀ t, (f t).id = t.id) :
    (s.onSpan id f).span? j = if j = id then (s.span? j).map f else s.span? j := by
  unfold State.span? State.onSpan
  rw [find?_map_key s.spans Span.id (fun t => if t.id = id then f t else t) (fun a => by split <;> simp [hf])]
  split
  · rename_i h; subst h
    cases hs : s.spans.find? (fun t => t.id = j) with
    | none => rfl
    | some t => have := List.find?_some hs; simp_all
  · rename_i h
    cases hs : s.spans.find? (fun t => t.id = j) with
    | none => rfl
    | some t => have := List.find?_some hs; simp_all

theorem span?_putSpan_self (s : State) (sp t : Span) (h : s.span? sp.id = some t) : (s.putSpan sp).span? sp.id = some sp := by
  unfold State.span? State.putSpan at *
  rw [find?_map_key s.spans Span.id (fun t => if t.id = sp.id then sp else t) (fun a => by split <;> simp_all)]
  have := List.find?_some h
  simp_all

theorem span?_putSpan_other (s : State) (sp : Span) (j : Nat) (h : j ≠ sp.id) : (s.putSpan sp).span? j = s.span? j := by
  unfold State.span? State.putSpan
  rw [find?_map_key s.spans Span.id (fun t => if t.id = sp.id then sp else t) (fun a => by split <;> simp_all)]
  cases hs : s.spans.find? (fun t => t.id = j) with
  | none => rfl
  | some t => have := List.find?_some hs; simp_all

theorem span?_id {s : State} {id : Nat} {sp : Span} (h : s.span? id = some sp) : sp.id = id := by
  have := List.find?_some h; simpa using this

theorem span?_picked (s : State) (p : Option Nat) (j : Nat) : ({ s with picked := p } : State).span? j = s.span? j := rfl

end Sys2Proof.Machine
end

