-- ==== Sys2Proof/Laws/Sparse.lean ====
section
/-! SUPPORT. The laws of the canonical maps: a read after a write, the canonical form kept, and lists mapped with an index. -/

namespace Sys2Proof.Machine

variable {α : Type} {d : α}

/-! A read after a write: the value at its key, and every other key as before. -/

theorem sget_sins (m : List (Nat × α)) (k i : Nat) (v : α) : sget d (sins m k v) i = if i = k then v else sget d m i := by
  induction m with
  | nil => by_cases h : i = k <;> simp [sins, sget, h, Ne.symm (a := i)]
  | cons x r ih =>
    obtain ⟨j, u⟩ := x
    rcases Nat.lt_trichotomy k j with hk | hk | hk
    · by_cases h : i = k <;> simp [sins, sget, hk, h, Ne.symm (a := i)]
    · subst hk
      by_cases h : i = k <;> simp [sins, sget, h, Ne.symm (a := i)]
    · have : ¬k < j := by omega
      have : k ≠ j := by omega
      by_cases hj : j = i
      · subst hj; simp [sins, sget, *, Ne.symm (a := k)]
      · simp [sins, sget, *]

theorem sget_filter_ne (m : List (Nat × α)) (k i : Nat) :
    sget d (m.filter fun e => !decide (e.1 = k)) i = if i = k then d else sget d m i := by
  induction m with
  | nil => simp [sget]
  | cons x r ih =>
    obtain ⟨j, u⟩ := x
    by_cases hk : j = k
    · by_cases hi : i = k
      · simpa [hk, hi] using ih
      · simp [sget, hk, ih, hi, Ne.symm hi]
    · by_cases hi : j = i
      · subst hi; simp [sget, hk]
      · simp [sget, hk, ih, hi]

variable [DecidableEq α]

theorem sget_sput (m : List (Nat × α)) (k i : Nat) (v : α) : sget d (sput d m k v) i = if i = k then v else sget d m i := by
  unfold sput
  split
  · rename_i h; rw [sget_filter_ne, h]
  · exact sget_sins m k i v

/-- A run of writes: its values at its keys, and every other key as before. -/
theorem sget_sputs (m : List (Nat × α)) (k i : Nat) (vs : List α) :
    sget d (sputs d m k vs) i = if k ≤ i ∧ i < k + vs.length then vs.getD (i - k) d else sget d m i := by
  induction vs generalizing m k with
  | nil => simp only [sputs, List.length_nil]; rw [if_neg (by omega)]
  | cons v r ih =>
    simp only [sputs, ih, sget_sput, List.length_cons]
    rcases Nat.lt_trichotomy i k with h | h | h
    · rw [if_neg (by omega), if_neg (by omega), if_neg (by omega)]
    · subst h; rw [if_neg (by omega), if_pos rfl, if_pos (by omega)]; simp
    · by_cases hl : i < k + 1 + r.length
      · rw [if_pos (by omega), if_pos (by omega), show i - k = (i - (k + 1)) + 1 by omega]; rfl
      · rw [if_neg (by omega), if_neg (by omega), if_neg (by omega)]

/-! The canonical form is kept by every write and every removal. -/

theorem swf_cons (j : Nat) (v : α) (r : List (Nat × α)) :
    swf d ((j, v) :: r) = true ↔ v ≠ d ∧ (∀ e ∈ r, j < e.1) ∧ swf d r = true := by
  simp [swf, List.all_eq_true, and_assoc]

omit [DecidableEq α] in
theorem sins_above (m : List (Nat × α)) (k j : Nat) (v : α) (hj : j < k) (h : ∀ e ∈ m, j < e.1) : ∀ e ∈ sins m k v, j < e.1 := by
  induction m with
  | nil => simp [sins, hj]
  | cons x r ih =>
    have hr : ∀ e ∈ r, j < e.1 := fun e he => h e (by simp [he])
    have hx : j < x.1 := h x (by simp)
    intro e he
    unfold sins at he
    split at he
    · rcases List.mem_cons.1 he with rfl | he
      exacts [hj, h e he]
    · split at he <;> rcases List.mem_cons.1 he with rfl | he
      exacts [hj, hr e he, hx, ih hr e he]

theorem swf_sins (m : List (Nat × α)) (k : Nat) (v : α) (hv : v ≠ d) (h : swf d m = true) : swf d (sins m k v) = true := by
  induction m with
  | nil => simp [sins, swf, hv]
  | cons x r ih =>
    obtain ⟨j, u⟩ := x
    have ⟨hu, hr, hw⟩ := (swf_cons j u r).1 h
    unfold sins
    split
    · rename_i hk
      refine (swf_cons k v _).2 ⟨hv, fun e he => ?_, h⟩
      rcases List.mem_cons.1 he with rfl | he
      exacts [hk, Nat.lt_trans hk (hr e he)]
    · split
      · rename_i hk
        exact (swf_cons k v _).2 ⟨hv, fun e he => hk ▸ hr e he, hw⟩
      · exact (swf_cons j u _).2 ⟨hu, sins_above r k j v (by omega) hr, ih hw⟩

theorem swf_filter (m : List (Nat × α)) (f : Nat × α → Bool) (h : swf d m = true) : swf d (m.filter f) = true := by
  induction m with
  | nil => rfl
  | cons x r ih =>
    obtain ⟨j, u⟩ := x
    have ⟨hu, hr, hw⟩ := (swf_cons j u r).1 h
    rw [List.filter_cons]
    split
    · exact (swf_cons j u _).2 ⟨hu, fun e he => hr e (List.mem_of_mem_filter he), ih hw⟩
    · exact ih hw

theorem swf_sput (m : List (Nat × α)) (k : Nat) (v : α) (h : swf d m = true) : swf d (sput d m k v) = true := by
  unfold sput
  split
  · exact swf_filter m _ h
  · rename_i hv; exact swf_sins m k v hv h

theorem swf_sputs (m : List (Nat × α)) (k : Nat) (vs : List α) (h : swf d m = true) : swf d (sputs d m k vs) = true := by
  induction vs generalizing m k with
  | nil => exact h
  | cons v r ih => exact ih _ _ (swf_sput m k v h)

/-! Lists mapped with an index. -/

theorem imap_length {α β : Type} (f : Nat → α → β) (i : Nat) (l : List α) : (imap f i l).length = l.length := by
  induction l generalizing i with
  | nil => rfl
  | cons a r ih => simp [imap, ih]

theorem imap_getD {α β : Type} (f : Nat → α → β) (i n : Nat) (l : List α) (a : α) (b : β) (h : n < l.length) :
    (imap f i l).getD n b = f (i + n) (l.getD n a) := by
  induction l generalizing i n with
  | nil => simp at h
  | cons x r ih =>
    cases n with
    | zero => rfl
    | succ n =>
      have := ih (i + 1) n (by simpa using h)
      simpa [imap, Nat.add_assoc, Nat.add_comm 1 n] using this

end Sys2Proof.Machine
end

