-- ==== Sys2Proof/Laws/Issue.lean ====
section
/-! SUPPORT. Selection and the issue of a word: what a selected span is, what an issue answers, and what it leaves alone. -/

namespace Sys2Proof.Machine

/-! Lanes. -/

theorem lane_onLanes (sp : Span) (ls : List Nat) (f : Lane → Lane) (l : Nat) :
    (sp.onLanes ls f).lane l = if l ∈ ls ∧ l < sp.lanes.length then f (sp.lane l) else sp.lane l := by
  by_cases h : l < sp.lanes.length
  · unfold Span.lane Span.onLanes
    rw [imap_getD (fun l ln => if ls.contains l then f ln else ln) 0 l sp.lanes noLane noLane h]
    simp [h]
  · simp only [h, and_false, if_false]
    unfold Span.lane Span.onLanes
    rw [List.getD_eq_default _ _ (by rw [imap_length]; omega), List.getD_eq_default _ _ (by omega)]

theorem lane_onLane (sp : Span) (k : Nat) (f : Lane → Lane) (l : Nat) :
    (sp.onLane k f).lane l = if l = k ∧ l < sp.lanes.length then f (sp.lane l) else sp.lane l := by
  unfold Span.lane Span.onLane
  by_cases h : l < sp.lanes.length
  · by_cases hk : k = l
    · subst hk; simp [List.getD_eq_getElem?_getD, h]
    · simp [List.getD_eq_getElem?_getD, hk, Ne.symm (a := k) hk]
  · simp [List.getD_eq_getElem?_getD, h]

theorem onLanes_lanes_length (sp : Span) (ls : List Nat) (f : Lane → Lane) : (sp.onLanes ls f).lanes.length = sp.lanes.length := by
  simp [Span.onLanes, imap_length]

/-! Selection (R30). -/

/-- Selection changes no more of a span than its lanes' deferral. -/
theorem select_span {sp0 sp : Span} {I : List Nat} {a : Word} (h : sp0.select = some (sp, I, a)) :
    sp = sp0 ∨ sp = sp0.onLanes (sp0.lanesIn fun st => st = .ready || st = .deferred) fun ln => { ln with st := .ready } := by
  simp only [Span.select] at h
  split at h
  · cases h
  · simp only [Option.some.injEq, Prod.mk.injEq] at h
    rw [← h.1]; split
    · exact .inr rfl
    · exact .inl rfl

theorem select_id {sp0 sp : Span} {I : List Nat} {a : Word} (h : sp0.select = some (sp, I, a)) : sp.id = sp0.id := by
  rcases select_span h with rfl | rfl <;> rfl

/-- What selection leaves as it was: everything but the lanes. -/
theorem select_rest {sp0 sp : Span} {I : List Nat} {a : Word} (h : sp0.select = some (sp, I, a)) : { sp with lanes := sp0.lanes } = sp0 := by
  rcases select_span h with rfl | rfl <;> rfl

theorem mem_laneNums {l : Nat} : l ∈ laneNums ↔ l < 32 := by simp [laneNums, Config.lanes]

theorem mem_lanesIn {sp : Span} {f : LaneState → Bool} {l : Nat} : l ∈ sp.lanesIn f ↔ l < 32 ∧ f (sp.lane l).st = true := by
  simp [Span.lanesIn, mem_laneNums]

/-- The lanes of an issue are ready lanes of the span, at the address of the issue. -/
theorem select_mem {sp0 sp : Span} {I : List Nat} {a : Word} (h : sp0.select = some (sp, I, a)) {l : Nat} (hl : l ∈ I) :
    l < 32 ∧ (sp.lane l).pc = a := by
  simp only [Span.select] at h
  split at h
  · cases h
  · simp only [Option.some.injEq, Prod.mk.injEq] at h
    obtain ⟨rfl, rfl, rfl⟩ := h
    simp only [List.mem_filter, decide_eq_true_eq] at hl
    refine ⟨?_, by rw [← hl.2]; simp⟩
    have hm := hl.1.1
    split at hm <;> exact (mem_lanesIn.1 hm).1

/-- The lanes of an issue are ready: selection has made them so. -/
theorem select_ready {sp0 sp : Span} {I : List Nat} {a : Word} (h : sp0.select = some (sp, I, a)) {l : Nat} (hl : l ∈ I) :
    (sp.lane l).st = .ready := by
  simp only [Span.select] at h
  split at h
  · cases h
  · rename_i hE
    simp only [Option.some.injEq, Prod.mk.injEq] at h
    obtain ⟨rfl, rfl, rfl⟩ := h
    simp only [List.mem_filter, decide_eq_true_eq] at hl
    have hm := hl.1.1
    split at hm
    · rename_i hN
      rw [if_pos hN, lane_onLanes]
      have h2 := mem_lanesIn.1 hm
      have hlen : l < sp0.lanes.length := by
        by_contra hc
        have h3 := h2.2
        rw [Span.lane, List.getD_eq_default _ _ (by omega)] at h3
        exact absurd h3 (by decide)
      rw [if_pos ⟨hm, hlen⟩]
    · rename_i hN
      rw [if_neg hN]
      simpa using (mem_lanesIn.1 hm).2

theorem issuing_span? {s : State} {sp0 sp : Span} {I : List Nat} {a : Word} (h : Issuing s sp0 sp I a) : s.span? sp.id = some sp0 := by
  rw [select_id h.select]; exact h.there

/-! The issue. -/

/-- A word that nothing keeps from its effect has it. -/
theorem issue_clear {i : Instr} {r : Rules} {body : State → Iss → State} {s : State} {sp0 sp : Span} {I : List Nat} {a : Word}
    (h : Clear i s sp0 sp I a)
    (hp : r.priv s ⟨sp, I, guardLanes sp (shape i).ctl I, a⟩ = true → sp.hmode = true)
    (hw : r.whole = true → I = sp.lanesIn (!·.ended))
    (hu : r.unsync s ⟨sp, I, guardLanes sp (shape i).ctl I, a⟩ = false)
    (ho : r.own s ⟨sp, I, guardLanes sp (shape i).ctl I, a⟩ = none)
    (hr : r.ready s ⟨sp, I, guardLanes sp (shape i).ctl I, a⟩ = true) :
    issue i r body s = .next ((body s ⟨sp, I, guardLanes sp (shape i).ctl I, a⟩).issued i ⟨sp, I, guardLanes sp (shape i).ctl I, a⟩) := by
  have hid := select_id h.select
  have hcause : issueCause i r s ⟨sp, I, guardLanes sp (shape i).ctl I, a⟩ = none := by
    unfold issueCause
    have h1 : (r.priv s ⟨sp, I, guardLanes sp (shape i).ctl I, a⟩ && !sp.hmode) = false := by
      cases hh : r.priv s ⟨sp, I, guardLanes sp (shape i).ctl I, a⟩ with
      | false => rfl
      | true => simp [hp hh]
    have h2 : ((shape i).uses.v.any fun k => decide (sp.budget ≤ k)) = false := by
      rw [List.any_eq_false]; intro k hk; have := h.budget k hk; simp; omega
    have h3 : (r.whole && decide (I ≠ sp.lanesIn (!·.ended))) = false := by
      cases hh : r.whole with
      | false => rfl
      | true => simp [← hw hh]
    have h4 : (sp.results.any fun q => q.hits (shape i).uses I) = false := by
      rw [List.any_eq_false]; intro q hq; simp [h.answered q hq]
    simp only [h1, h2, h3, h4, hu, ho, Bool.or_false, if_false, Bool.false_eq_true]
  have hgone : (I.filter fun l => sp.doomedAt l && r.recl ⟨sp, I, guardLanes sp (shape i).ctl I, a⟩ l) = [] := by
    rw [List.filter_eq_nil_iff]
    intro l hl; simp [h.alive l hl]
  unfold issue
  simp only [h.picked, h.there, h.free, h.select, h.unlocked, hcause, hr, hgone, Bool.false_eq_true, if_false, Bool.not_true,
    List.isEmpty_nil, if_true]

/-- The issue of a word, after its effect, changes no more than the span's wait marker, the pick and what is known of computed values. -/
theorem issued_rest (s : State) (i : Instr) (x : Iss) : { s.issued i x with spans := s.spans, picked := s.picked, flows := s.flows } = s := by
  unfold State.issued; split <;> rfl

theorem issued_picked (s : State) (i : Instr) (x : Iss) : (s.issued i x).picked = none := by
  unfold State.issued; split <;> rfl

theorem span?_flows (s : State) (p : Option Nat) (fs : List Flow) (id : Nat) : ({ s with picked := p, flows := fs } : State).span? id = s.span? id := rfl

theorem issued_span?_self (s : State) (i : Instr) (x : Iss) (sp : Span) (h : s.span? x.sp.id = some sp) :
    (s.issued i x).span? x.sp.id = some (sp.hold (s.waitsAt i sp)) := by
  unfold State.issued
  simp only [h]
  rw [span?_onSpan _ _ _ _ (by intro; rfl)]; simp [span?_flows, h]

theorem issued_span?_other (s : State) (i : Instr) (x : Iss) (j : Nat) (h : j ≠ x.sp.id) : (s.issued i x).span? j = s.span? j := by
  unfold State.issued
  cases s.span? x.sp.id with
  | none => rfl
  | some sp => simp only []; rw [span?_onSpan _ _ _ _ (by intro; rfl)]; simp [span?_flows, h]

/-- A word that changes its span alone: the span after it is what `f` gives, its wait marker apart, and nothing else changes. -/
theorem regOp_clear {i : Instr} {r : Rules} {f : Iss → Span → Span} {s : State} {sp0 sp : Span} {I : List Nat} {a : Word}
    (h : Clear i s sp0 sp I a) (hf : ∀ x t, (f x t).id = t.id)
    (hp : r.priv s ⟨sp, I, guardLanes sp (shape i).ctl I, a⟩ = true → sp.hmode = true)
    (hw : r.whole = true → I = sp.lanesIn (!·.ended))
    (hu : r.unsync s ⟨sp, I, guardLanes sp (shape i).ctl I, a⟩ = false)
    (ho : r.own s ⟨sp, I, guardLanes sp (shape i).ctl I, a⟩ = none)
    (hr : r.ready s ⟨sp, I, guardLanes sp (shape i).ctl I, a⟩ = true) :
    ∃ t b, regOp i r f s = .next t ∧ s.OnlySpan t sp.id ∧ (b = true → (shape i).ctl.w = true) ∧
      t.span? sp.id = some ((f ⟨sp, I, guardLanes sp (shape i).ctl I, a⟩ (Iss.moved ⟨sp, I, guardLanes sp (shape i).ctl I, a⟩)).hold b) := by
  have hid : (f ⟨sp, I, guardLanes sp (shape i).ctl I, a⟩ (Iss.moved ⟨sp, I, guardLanes sp (shape i).ctl I, a⟩)).id = sp.id := by
    rw [hf]; rfl
  generalize hq : f ⟨sp, I, guardLanes sp (shape i).ctl I, a⟩ (Iss.moved ⟨sp, I, guardLanes sp (shape i).ctl I, a⟩) = q at hid ⊢
  have hput : (s.putSpan q).span? sp.id = some q := by
    rw [← hid]; exact span?_putSpan_self s q sp0 (by rw [hid]; exact issuing_span? h.toIssuing)
  let x : Iss := ⟨sp, I, guardLanes sp (shape i).ctl I, a⟩
  refine ⟨(s.putSpan q).issued i x, (s.putSpan q).waitsAt i q, ?_, ⟨?_, ?_⟩, ?_, ?_⟩
  · rw [← hq]; exact issue_clear h hp hw hu ho hr
  · have := issued_rest (s.putSpan q) i x
    calc { (s.putSpan q).issued i x with spans := s.spans, picked := s.picked, flows := s.flows }
        = { ({ (s.putSpan q).issued i x with spans := (s.putSpan q).spans, picked := (s.putSpan q).picked, flows := (s.putSpan q).flows } :
            State) with spans := s.spans, picked := s.picked, flows := s.flows } := rfl
      _ = s := by rw [this]; rfl
  · intro j hj
    rw [issued_span?_other _ _ x _ hj]; exact span?_putSpan_other s q j (by rw [hid]; exact hj)
  · intro hb; simp only [State.waitsAt, Bool.and_eq_true] at hb; exact hb.1
  · exact issued_span?_self _ _ x _ hput

end Sys2Proof.Machine
end

