-- ==== Sys2Proof/Laws/Memory.lean ====
section
/-! SUPPORT. The laws of memory: what a byte reads after each operation that writes memory, and that each keeps the canonical form. -/

namespace Sys2Proof.Machine

/-! Runs of bytes. -/

theorem sgets_length {α : Type} (d : α) (m : List (Nat × α)) (k n : Nat) : (sgets d m k n).length = n := by
  induction n generalizing k with
  | zero => rfl
  | succ n ih => simp [sgets, ih]

theorem sgets_getD {α : Type} (d : α) (m : List (Nat × α)) (k n i : Nat) (h : i < n) : (sgets d m k n).getD i d = sget d m (k + i) := by
  induction n generalizing k i with
  | zero => omega
  | succ n ih =>
    cases i with
    | zero => rfl
    | succ i => simpa [sgets, show k + 1 + i = k + (i + 1) by omega] using ih (k + 1) i (by omega)

/-- Two runs whose bytes agree are the same run. -/
theorem sgets_congr {α : Type} (d : α) (m m' : List (Nat × α)) (k n : Nat) (h : ∀ i, k ≤ i → i < k + n → sget d m i = sget d m' i) :
    sgets d m k n = sgets d m' k n := by
  induction n generalizing k with
  | zero => rfl
  | succ n ih => simp only [sgets]; rw [h k (by omega) (by omega), ih (k + 1) fun i h1 h2 => h i (by omega) (by omega)]

/-- What has been written is read. -/
theorem sgets_sputs {α : Type} [DecidableEq α] (d : α) (m : List (Nat × α)) (k : Nat) (vs : List α) : sgets d (sputs d m k vs) k vs.length = vs := by
  refine List.ext_getElem (sgets_length ..) fun i h1 h2 => ?_
  have hd := sgets_getD d (sputs d m k vs) k vs.length i h2
  rw [List.getD_eq_getElem _ _ h1] at hd
  rw [hd, sget_sputs, if_pos (by omega)]
  simp [List.getElem?_eq_getElem h2]

/-! Bytes after a write. -/

theorem byte_write (s : State) (k i : Nat) (bs : List Byte) :
    (s.write k bs).byte i = if k ≤ i ∧ i < k + bs.length then bs.getD (i - k) 0 else s.byte i := sget_sputs s.mem k i bs

theorem poke_mem (s : State) (k : Nat) (bs : List Byte) : (s.poke k bs).mem = sputs 0 s.mem k bs := by
  unfold State.poke
  split
  · rename_i h
    rw [List.isEmpty_iff.1 h]; rfl
  · rfl

theorem byte_poke (s : State) (k i : Nat) (bs : List Byte) :
    (s.poke k bs).byte i = if k ≤ i ∧ i < k + bs.length then bs.getD (i - k) 0 else s.byte i := by
  simp only [State.byte, poke_mem]
  exact sget_sputs s.mem k i bs

/-- A write reads back. -/
theorem bytes_poke (s : State) (k : Nat) (bs : List Byte) : (s.poke k bs).bytes k bs.length = bs := by
  simp only [State.bytes, poke_mem, sgets_sputs]

/-- A write changes no byte outside it. -/
theorem bytes_poke_apart (s : State) (k j n : Nat) (bs : List Byte) (h : j + n ≤ k ∨ k + bs.length ≤ j) : (s.poke k bs).bytes j n = s.bytes j n := by
  simp only [State.bytes, poke_mem]
  exact sgets_congr _ _ _ _ _ fun i h1 h2 => by rw [sget_sputs, if_neg (by omega)]

/-- A write of memory changes of the machine nothing but memory, what the spans see of it, the releases that stand on its bytes, and
what the copies of its lines have missed. -/
theorem poke_rest (s : State) (k : Nat) (bs : List Byte) : { s.poke k bs with mem := s.mem, spans := s.spans, msgs := s.msgs, l1 := s.l1 } = s := by
  unfold State.poke
  split <;> rfl

/-- A map without the keys that `f` names. -/
theorem sget_filter (m : List (Nat × Byte)) (f : Nat → Bool) (i : Nat) :
    sget 0 (m.filter fun c => !f c.1) i = if f i then 0 else sget 0 m i := by
  induction m with
  | nil => simp [sget]
  | cons x r ih =>
    obtain ⟨j, v⟩ := x
    by_cases h : j = i
    · subst h
      cases hf : f j
      · simp [sget, hf]
      · rw [List.filter_cons, if_neg (by simp [hf]), ih]; simp [hf]
    · cases hf : f j
      · rw [List.filter_cons, if_pos (by simp [hf])]; simp only [sget, if_neg h, ih]
      · rw [List.filter_cons, if_neg (by simp [hf]), ih]; simp only [sget, if_neg h]

theorem byte_clearRange (s : State) (lo n i : Nat) : (s.clearRange lo n).byte i = if lo ≤ i ∧ i < lo + n then 0 else s.byte i := by
  have h := sget_filter s.mem (fun k => decide (lo ≤ k) && decide (k < lo + n)) i
  simpa [State.byte, State.clearRange] using h

/-! The canonical form. -/

theorem wf_write (s : State) (k : Nat) (bs : List Byte) (h : Memory.wf s.mem = true) : Memory.wf (s.write k bs).mem = true :=
  swf_sputs s.mem k bs h

theorem wf_poke (s : State) (k : Nat) (bs : List Byte) (h : Memory.wf s.mem = true) : Memory.wf (s.poke k bs).mem = true := by
  rw [poke_mem]; exact swf_sputs s.mem k bs h

theorem wf_putWord (s : State) (k : Nat) (w : Word) (h : Memory.wf s.mem = true) : Memory.wf (s.putWord k w).mem = true := wf_write s k _ h

theorem wf_clearRange (s : State) (lo n : Nat) (h : Memory.wf s.mem = true) : Memory.wf (s.clearRange lo n).mem = true :=
  swf_filter s.mem _ h

theorem wf_fillRange (s : State) (lo n : Nat) (bs : List (Nat × Byte)) (h : Memory.wf s.mem = true) : Memory.wf (s.fillRange lo n bs).mem = true := by
  have go : ∀ (bs : List (Nat × Byte)) (t : State), Memory.wf t.mem = true →
      Memory.wf (bs.foldl (fun t c => if c.1 < n then { t with mem := sput 0 t.mem (lo + c.1) c.2 } else t) t).mem = true := by
    intro bs
    induction bs with
    | nil => exact fun t h => h
    | cons b r ih =>
      intro t ht
      refine ih _ ?_
      simp only
      split
      · exact swf_sput t.mem _ _ ht
      · exact ht
  exact go bs _ (wf_clearRange s lo n h)

/-- The machine right after reset has its memory in the canonical form. -/
theorem wf_reset : Memory.wf State.reset.mem = true := rfl

end Sys2Proof.Machine
end

