-- ==== Sys2Proof/Laws/Order.lean ====
section
/-! SUPPORT. What the operations of the order of events can do: each lemma says once all that its operation changes. -/

namespace Sys2Proof.Machine

theorem onSpan_rest (s : State) (id : Nat) (f : Span → Span) : { s.onSpan id f with spans := s.spans } = s := rfl

theorem learn_rest (sp : Span) (since : Nat) (r : Reach) (v : View) (lane : Option Nat) (mine : Bool) :
    { sp.learn since r v lane mine with view := sp.view } = sp := rfl

/-- What a span knew it still knows. -/
theorem learn_view (sp : Span) (since : Nat) (r : Reach) (v : View) (lane : Option Nat) (mine : Bool) {x : Seen} (h : x ∈ sp.view) :
    x ∈ (sp.learn since r v lane mine).view := List.mem_append_left _ h

theorem follows_rest (s : State) (id seq : Nat) (lane : Option Nat) (since : Nat) (r : Reach) :
    { s.follows id seq lane since r with spans := s.spans } = s := by
  unfold State.follows; split <;> rfl

theorem seed_rest (s : State) (uid : Nat) (r : ReadId) (ps : List Spot) : { s.seed uid r ps with flows := s.flows } = s := by
  unfold State.seed; split
  · rfl
  · split <;> rfl

theorem looked_rest (s : State) (sp : Span) (seq : Nat) (d : Option (Nat × Nat)) (k n : Nat) (v : View) :
    { s.looked sp seq d k n v with looks := s.looks } = s := by
  unfold State.looked; split <;> rfl

theorem overtake_rest (s : State) (sp : Span) (seq : Nat) (d : Option (Nat × Nat)) (k n : Nat) :
    { s.overtake sp seq d k n with overtakes := s.overtakes } = s := rfl

/-- An event takes a place in the order, and moves no other. -/
theorem seqPut_perm (x : SeqEvent) (may must : SeqEvent → Bool) (n : Nat) (l : List SeqEvent) :
    (seqPut x may must n l).Perm (x :: l) := by
  induction l generalizing n with
  | nil => exact .refl _
  | cons y r ih =>
    have deeper (m : Nat) : (y :: seqPut x may must m r).Perm (x :: y :: r) := ((ih m).cons y).trans (.swap x y r)
    unfold seqPut; split
    · exact deeper _
    · split
      · exact deeper _
      · split
        · exact .refl _
        · exact deeper _

theorem seqPut_sublist (x : SeqEvent) (may must : SeqEvent → Bool) (n : Nat) (l : List SeqEvent) : l.Sublist (seqPut x may must n l) := by
  induction l generalizing n with
  | nil => exact List.nil_sublist _
  | cons y r ih =>
    unfold seqPut; split
    · exact (ih _).cons_cons y
    · split
      · exact (ih _).cons_cons y
      · split
        · exact .cons x (.refl _)
        · exact (ih _).cons_cons y

theorem seqEvent_rest (s : State) (id : Nat) (x : SeqEvent) (v : View) :
    { s.seqEvent id x v with spans := s.spans, seqs := s.seqs } = s := by
  unfold State.seqEvent; split <;> rfl

/-- The order of the events that have their place stays. -/
theorem seqEvent_seqs (s : State) (id : Nat) (x : SeqEvent) (v : View) :
    s.seqs.Sublist (s.seqEvent id x v).seqs ∧ ∀ y ∈ (s.seqEvent id x v).seqs, y = x ∨ y ∈ s.seqs := by
  unfold State.seqEvent; split
  · exact ⟨.refl _, fun y h => .inr h⟩
  · exact ⟨seqPut_sublist .., fun y h => by simpa using (seqPut_perm ..).mem_iff.1 h⟩

end Sys2Proof.Machine
end

