-- ==== Sys2Proof/Laws/Register.lean ====
section
/-! SUPPORT. Registers after a write, and what a word that touches its span alone answers. -/

namespace Sys2Proof.Machine

/-! One register. -/

theorem key_inj {r r' l l' : Nat} (h : l < 32) (h' : l' < 32) : 32 * r' + l' = 32 * r + l ↔ r' = r ∧ l' = l := by omega

theorem v_setV (sp : Span) (r r' l l' : Nat) (x : VWord) (h : l < 32) (h' : l' < 32) :
    (sp.setV r l x).v r' l' = if r' = r ∧ l' = l then x else sp.v r' l' := by
  simp only [Span.v, Span.setV, sget_sput, key_inj h h']

theorem s_setS (sp : Span) (r r' : Nat) (x : Word) : (sp.setS r x).s r' = if r' = r then x else sp.s r' := by
  simp only [Span.s, Span.setS, sget_sput]

@[simp] theorem setV_sregs (sp : Span) (r l : Nat) (x : VWord) : (sp.setV r l x).sregs = sp.sregs := rfl
@[simp] theorem setV_qs (sp : Span) (r l : Nat) (x : VWord) : (sp.setV r l x).qs = sp.qs := rfl
@[simp] theorem setV_lanes (sp : Span) (r l : Nat) (x : VWord) : (sp.setV r l x).lanes = sp.lanes := rfl
@[simp] theorem setS_vregs (sp : Span) (r : Nat) (x : Word) : (sp.setS r x).vregs = sp.vregs := rfl
@[simp] theorem setS_qs (sp : Span) (r : Nat) (x : Word) : (sp.setS r x).qs = sp.qs := rfl
@[simp] theorem setS_lanes (sp : Span) (r : Nat) (x : Word) : (sp.setS r x).lanes = sp.lanes := rfl

/-- Everything of a span but its registers. -/
def Span.body (sp : Span) : Span := { sp with vregs := [], sregs := [] }

@[simp] theorem setV_body (sp : Span) (r l : Nat) (x : VWord) : (sp.setV r l x).body = sp.body := rfl
@[simp] theorem setS_body (sp : Span) (r : Nat) (x : Word) : (sp.setS r x).body = sp.body := rfl
@[simp] theorem setV64_body (sp : Span) (r l : Nat) (x : Word) : (sp.setV64 r l x).body = sp.body := by simp only [Span.setV64, setV_body]
@[simp] theorem setV128_body (sp : Span) (r l : Nat) (x : BitVec 128) : (sp.setV128 r l x).body = sp.body := by simp only [Span.setV128, setV64_body]
@[simp] theorem setV64_sregs (sp : Span) (r l : Nat) (x : Word) : (sp.setV64 r l x).sregs = sp.sregs := by simp only [Span.setV64, setV_sregs]
@[simp] theorem setV128_sregs (sp : Span) (r l : Nat) (x : BitVec 128) : (sp.setV128 r l x).sregs = sp.sregs := by simp only [Span.setV128, setV64_sregs]

theorem slice_slice {w n : Nat} (x : BitVec w) (i j : Nat) (h : j + 32 ≤ n) :
    (x.extractLsb' i n).extractLsb' j 32 = x.extractLsb' (i + j) 32 := by
  apply BitVec.eq_of_getLsbD_eq
  intro k hk
  simp only [BitVec.getLsbD_extractLsb']
  simp [show j + k < n by omega, show i + (j + k) = i + j + k by omega]

theorem v_setV64 (sp : Span) (r r' l l' : Nat) (x : Word) (h : l < 32) (h' : l' < 32) :
    (sp.setV64 r l x).v r' l' = if l' = l ∧ r ≤ r' ∧ r' < r + 2 then x.extractLsb' (32 * (r' - r)) 32 else sp.v r' l' := by
  unfold Span.setV64
  rw [v_setV _ _ _ _ _ _ h h', v_setV _ _ _ _ _ _ h h']
  by_cases h1 : l' = l
  · subst h1
    by_cases h2 : r' = r + 1
    · subst h2; simp
    · by_cases h3 : r' = r
      · subst h3; simp
      · simp [h2, h3]; omega
  · simp [h1]

theorem v_setV128 (sp : Span) (r r' l l' : Nat) (x : BitVec 128) (h : l < 32) (h' : l' < 32) :
    (sp.setV128 r l x).v r' l' = if l' = l ∧ r ≤ r' ∧ r' < r + 4 then x.extractLsb' (32 * (r' - r)) 32 else sp.v r' l' := by
  unfold Span.setV128
  rw [v_setV64 _ _ _ _ _ _ h h', v_setV64 _ _ _ _ _ _ h h']
  by_cases h1 : l' = l
  · subst h1
    by_cases h2 : r + 2 ≤ r' ∧ r' < r + 4
    · have h4 : r ≤ r' ∧ r' < r + 4 := by omega
      have h5 : r + 2 ≤ r' ∧ r' < r + 2 + 2 := by omega
      simp only [true_and, h4, h5, and_self, if_true]
      rw [slice_slice _ _ _ (by omega)]
      congr 1; omega
    · have h5 : ¬ (r + 2 ≤ r' ∧ r' < r + 2 + 2) := by omega
      simp only [true_and, h5, if_false]
      by_cases h3 : r ≤ r' ∧ r' < r + 2
      · have h4 : r ≤ r' ∧ r' < r + 4 := by omega
        simp only [h3, h4, and_self, if_true]
        rw [slice_slice _ _ _ (by omega)]
        congr 1; omega
      · have h4 : ¬ (r ≤ r' ∧ r' < r + 4) := by omega
        simp only [h3, h4, if_false]
  · simp [h1]

/-- Everything of a span but what a register word may change. -/
def Span.frame (sp : Span) : Span := { sp with vregs := [], sregs := [], qs := 0, lanes := [] }

theorem frame_of_body {t u : Span} (h : u.body = t.body) : u.frame = t.frame := by
  have h1 : ∀ v : Span, v.frame = { v.body with qs := 0, lanes := [] } := fun _ => rfl
  rw [h1, h1, h]

/-- A span whose frame is that of another differs from it in registers, predicates and lanes only. -/
theorem of_frame {q t : Span} (h : q.frame = t.frame) : { q with vregs := t.vregs, sregs := t.sregs, qs := t.qs, lanes := t.lanes } = t := by
  calc { q with vregs := t.vregs, sregs := t.sregs, qs := t.qs, lanes := t.lanes }
      = { q.frame with vregs := t.vregs, sregs := t.sregs, qs := t.qs, lanes := t.lanes } := rfl
    _ = t := by rw [h]; rfl

@[simp] theorem setV_frame (sp : Span) (r l : Nat) (x : VWord) : (sp.setV r l x).frame = sp.frame := rfl
@[simp] theorem setS_frame (sp : Span) (r : Nat) (x : Word) : (sp.setS r x).frame = sp.frame := rfl
@[simp] theorem setV64_frame (sp : Span) (r l : Nat) (x : Word) : (sp.setV64 r l x).frame = sp.frame := by simp only [Span.setV64, setV_frame]
@[simp] theorem setV128_frame (sp : Span) (r l : Nat) (x : BitVec 128) : (sp.setV128 r l x).frame = sp.frame := by simp only [Span.setV128, setV64_frame]
@[simp] theorem setQ_frame (sp : Span) (r : Nat) (b : Bool) : (sp.setQ r b).frame = sp.frame := rfl
@[simp] theorem onLane_frame (sp : Span) (l : Nat) (f : Lane → Lane) : (sp.onLane l f).frame = sp.frame := rfl
@[simp] theorem onLanes_frame (sp : Span) (ls : List Nat) (f : Lane → Lane) : (sp.onLanes ls f).frame = sp.frame := rfl
@[simp] theorem setP_frame (sp : Span) (r l : Nat) (b : Bool) : (sp.setP r l b).frame = sp.frame := rfl

theorem foldl_frame {α : Type} (put : Span → α → Span) (h : ∀ t a, (put t a).frame = t.frame) (ls : List α) (t : Span) :
    (ls.foldl put t).frame = t.frame := by
  induction ls generalizing t with
  | nil => rfl
  | cons a r ih => rw [List.foldl_cons, ih, h]

/-! Many lanes at once. -/

/-- What a write of one lane does, said once for all the lanes that act. -/
theorem foldl_writesV {w : Nat} (put : Span → Nat → Span) (n d : Nat) (F : Nat → BitVec w)
    (hv : ∀ sp l r l', l < 32 → l' < 32 →
      (put sp l).v r l' = if l' = l ∧ d ≤ r ∧ r < d + n then (F l).extractLsb' (32 * (r - d)) 32 else sp.v r l')
    (hs : ∀ sp l, (put sp l).sregs = sp.sregs) (hb : ∀ sp l, (put sp l).body = sp.body) (G : List Nat) (hG : ∀ l ∈ G, l < 32) (sp : Span) :
    WritesV n d G F sp (G.foldl put sp) ∧ (G.foldl put sp).body = sp.body := by
  induction G generalizing sp with
  | nil => exact ⟨⟨rfl, rfl, by simp⟩, rfl⟩
  | cons k G ih =>
    obtain ⟨h, b⟩ := ih (fun l hl => hG l (.tail _ hl)) (put sp k)
    refine ⟨⟨?_, ?_, ?_⟩, ?_⟩
    · rw [List.foldl_cons, h.scalars, hs]
    · have h1 := congrArg Span.qs b; have h2 := congrArg Span.qs (hb sp k); rw [List.foldl_cons]; exact h1.trans h2
    · intro r l hl
      rw [List.foldl_cons, h.regs r l hl, hv _ _ _ _ (hG k (.head _)) hl]
      by_cases h1 : l = k
      · subst h1; by_cases h2 : d ≤ r ∧ r < d + n <;> simp [h2]
      · simp [h1]
    · rw [List.foldl_cons, b, hb]

theorem extract_all32 (x : BitVec 32) : x.extractLsb' 0 32 = x := by
  apply BitVec.eq_of_getLsbD_eq; intro k hk; simp [hk]

/-- A write of `w` bits to one lane. -/
theorem v_dst {w : Nat} (sp : Span) (sgn : Bool) (f : BitVec 8) (r l l' : Nat) (x : BitVec w) (h : l < 32) (h' : l' < 32) :
    (sp.dst w false sgn f l x).v r l' =
      if l' = l ∧ f.toNat ≤ r ∧ r < f.toNat + (if w = 64 then 2 else 1) then x.extractLsb' (32 * (r - f.toNat)) 32 else sp.v r l' := by
  unfold Span.dst
  by_cases hw : w = 64
  · subst hw
    simp only [Bool.false_eq_true, if_false, if_true]
    rw [v_setV64 _ _ _ _ _ _ h h', BitVec.setWidth_eq]
  · simp only [Bool.false_eq_true, if_false, hw]
    rw [v_setV _ _ _ _ _ _ h h']
    by_cases hr : r = f.toNat
    · subst hr
      by_cases hl : l' = l
      · simp only [hl, and_self, if_true, le_refl, Nat.lt_add_one]
        apply BitVec.eq_of_getLsbD_eq; intro k hk; simp [hk]
      · simp [hl]
    · simp only [hr, false_and, if_false]; rw [if_neg (by omega)]

theorem dst_sregs {w : Nat} (sp : Span) (sgn : Bool) (f : BitVec 8) (l : Nat) (x : BitVec w) :
    (sp.dst w false sgn f l x).sregs = sp.sregs := by
  unfold Span.dst; simp only [Bool.false_eq_true, if_false]; split <;> simp

theorem dst_frame {w : Nat} (sp : Span) (u sgn : Bool) (f : BitVec 8) (l : Nat) (x : BitVec w) : (sp.dst w u sgn f l x).frame = sp.frame := by
  unfold Span.dst; split
  · simp
  · split <;> simp

theorem dst_body {w : Nat} (sp : Span) (u sgn : Bool) (f : BitVec 8) (l : Nat) (x : BitVec w) : (sp.dst w u sgn f l x).body = sp.body := by
  unfold Span.dst; split
  · simp
  · split <;> simp

/-- What `writeD` does, once for every instruction that ends in it. -/
theorem writeD_spec (w : Nat) (u sgn : Bool) (d : BitVec 8) (f : Span → Nat → BitVec w) (i : Iss) (sp : Span) (hG : ∀ l ∈ i.G, l < 32) :
    WritesD w u sgn d i.G (fun l => f i.sp l) sp (writeD w u sgn d f i sp) ∧ (writeD w u sgn d f i sp).body = sp.body := by
  cases u with
  | false =>
    simp only [WritesD, Bool.false_eq_true, if_false, writeD, actOn]
    exact foldl_writesV _ _ _ _ (fun sp l r l' h h' => v_dst sp sgn d r l l' _ h h') (fun sp l => dst_sregs sp sgn d l _)
      (fun sp l => dst_body sp false sgn d l _) i.G hG sp
  | true =>
    simp only [WritesD, if_true, writeD, actOn]
    cases hg : i.G with
    | nil => exact ⟨⟨rfl, rfl, by simp⟩, rfl⟩
    | cons k r =>
      refine ⟨⟨?_, ?_, ?_⟩, ?_⟩
      · simp [Span.dst]
      · simp [Span.dst]
      · intro j; simp [Span.dst, s_setS, filled]
      · simp [Span.dst]

/-! Predicates. -/

theorem getLsbD_setBit {n : Nat} (x : BitVec n) (i j : Nat) (b : Bool) :
    (setBit x i b).getLsbD j = if j = i ∧ i < n then b else x.getLsbD j := by
  by_cases hj : j < n
  · have one : ∀ k, (1#n).getLsbD k = decide (k = 0) := by
      intro k; rw [BitVec.getLsbD_one]; simp [show 0 < n by omega]
    unfold setBit
    cases b
    · simp only [Bool.false_eq_true, if_false, BitVec.getLsbD_and, BitVec.getLsbD_not, BitVec.getLsbD_shiftLeft, one, hj, decide_true,
        Bool.true_and]
      by_cases h : j = i
      · subst h; simp [hj]
      · rcases (show j < i ∨ j - i ≠ 0 by omega) with h3 | h3 <;> simp [h, h3]
    · simp only [if_true, BitVec.getLsbD_or, BitVec.getLsbD_shiftLeft, one, hj, decide_true, Bool.true_and]
      by_cases h : j = i
      · subst h; simp [hj]
      · rcases (show j < i ∨ j - i ≠ 0 by omega) with h3 | h3 <;> simp [h, h3]
  · rw [if_neg (by omega), BitVec.getLsbD_of_ge _ _ (by omega), BitVec.getLsbD_of_ge _ _ (by omega)]

theorem q_setQ (sp : Span) (r k : Nat) (b : Bool) : (sp.setQ r b).q k = if k = r ∧ r < 8 then b else sp.q k := by
  simp only [Span.q, Span.setQ, getLsbD_setBit]

theorem p_setP (sp : Span) (r k l j : Nat) (b : Bool) :
    (sp.setP r l b).p k j = if k = r ∧ r < 16 ∧ j = l ∧ l < sp.lanes.length then b else sp.p k j := by
  simp only [Span.p, Span.setP, lane_onLane]
  by_cases h : j = l ∧ j < sp.lanes.length
  · obtain ⟨rfl, h⟩ := h; simp only [h, and_self, if_true, getLsbD_setBit]; simp
  · rw [if_neg h, if_neg (by rintro ⟨_, _, rfl, h2⟩; exact h ⟨rfl, h2⟩)]

theorem lanes_length_setP (sp : Span) (r l : Nat) (b : Bool) : (sp.setP r l b).lanes.length = sp.lanes.length := by
  simp [Span.setP, Span.onLane]

/-- A lane after a write of one of its predicates, its predicates apart. -/
theorem lane_setP (sp : Span) (r l j : Nat) (b : Bool) (p : BitVec 16) :
    { (sp.setP r l b).lane j with preds := p } = { sp.lane j with preds := p } := by
  simp only [Span.setP, lane_onLane]; split <;> rfl

/-! The issue. -/

theorem acting_lt {i : Instr} {sp0 sp : Span} {I : List Nat} {a : Word} (h : sp0.select = some (sp, I, a)) :
    ∀ l ∈ acting i sp I, l < 32 := by
  intro l hl; exact (select_mem h (List.mem_filter.1 hl).1).1

/-- The selected span with its lanes moved on. -/
theorem moved_goes {s : State} {sp0 sp : Span} {I : List Nat} {a : Word} (h : Issuing s sp0 sp I a) (G : List Nat) :
    Goes sp (Iss.moved ⟨sp, I, G, a⟩) I a := by
  refine ⟨onLanes_lanes_length _ _ _, fun l => ?_⟩
  unfold Iss.moved; rw [lane_onLanes]
  by_cases hl : l ∈ I
  · have : l < sp.lanes.length := by
      by_contra hc
      have h1 := (select_ready h.select hl)
      rw [Span.lane, List.getD_eq_default _ _ (by omega)] at h1
      exact absurd h1 (by decide)
    simp [hl, this]
  · simp [hl]

/-- A span that differs from the moved one in its registers only has the moved one's lanes. -/
theorem goes_of_body {sp t u : Span} {I : List Nat} {a : Word} (h : Goes sp t I a) (hb : u.body = t.body) : Goes sp u I a := by
  have hl : u.lanes = t.lanes := by have h := congrArg Span.lanes hb; exact h
  refine ⟨by rw [hl]; exact h.count, fun l => ?_⟩
  rw [Span.lane, hl]; exact h.lane l

/-- A word that changes its span alone becomes what its function gives, when nothing keeps it from its effect. -/
theorem becomes_regOp {i : Instr} {r : Rules} {f : Iss → Span → Span} {s : State} {sp0 sp : Span} {I : List Nat} {a : Word} {P : Span → Prop}
    (he : exec i s = regOp i r f s) (h : Clear i s sp0 sp I a)
    (hf : ∀ t : Span, (f ⟨sp, I, acting i sp I, a⟩ t).frame = t.frame)
    (hp : r.priv s ⟨sp, I, acting i sp I, a⟩ = true → sp.hmode = true)
    (hw : r.whole = true → I = sp.lanesIn (!·.ended))
    (hu : r.unsync s ⟨sp, I, acting i sp I, a⟩ = false)
    (ho : r.own s ⟨sp, I, acting i sp I, a⟩ = none)
    (hr : r.ready s ⟨sp, I, acting i sp I, a⟩ = true)
    (hP : P ((f ⟨sp, I, acting i sp I, a⟩ (Iss.moved ⟨sp, I, acting i sp I, a⟩)).hold (s.waitsAt i sp))) :
    Becomes i s sp P := by
  have hsame := of_frame (hf (Iss.moved ⟨sp, I, acting i sp I, a⟩))
  generalize hq : f ⟨sp, I, acting i sp I, a⟩ (Iss.moved ⟨sp, I, acting i sp I, a⟩) = q at hsame hP
  have hid : q.id = sp.id := by have h := congrArg Span.id hsame; exact h
  have huid : q.uid = sp.uid := by have h := congrArg Span.uid hsame; exact h
  have hseq : q.seq = sp.seq := by have h := congrArg Span.seq hsame; exact h
  have hres : q.results = sp.results := by have h := congrArg Span.results hsame; exact h
  have hh : q.wHold = sp.wHold := by have h := congrArg Span.wHold hsame; exact h
  have hw0 : sp.wHold = false := by
    have h1 := h.free
    have h2 := congrArg Span.wHold (select_rest h.select)
    simp only at h2
    simp only [Span.held, Bool.or_eq_false_iff] at h1
    rw [h2]; exact h1.1.1.1.1.2
  have hput : (s.putSpan q).span? sp.id = some q := by
    rw [← hid]; exact span?_putSpan_self s q sp0 (by rw [hid]; exact issuing_span? h.toIssuing)
  have hwait : (s.putSpan q).waitsAt i q = s.waitsAt i sp := by
    unfold State.waitsAt; rw [hres, huid, hseq]; rfl
  have hself := issued_span?_self (s.putSpan q) i (At i sp I a) q hput
  rw [hwait] at hself
  refine ⟨(s.putSpan q).issued i (At i sp I a), q.hold (s.waitsAt i sp), ?_, ⟨⟨?_, ?_⟩, ?_, hself, ?_, ?_⟩, hP⟩
  · rw [he, ← hq]; exact issue_clear h hp hw hu ho hr
  · have := issued_rest (s.putSpan q) i (At i sp I a)
    calc { (s.putSpan q).issued i (At i sp I a) with spans := s.spans, picked := s.picked, flows := s.flows }
        = { ({ (s.putSpan q).issued i (At i sp I a) with spans := (s.putSpan q).spans, picked := (s.putSpan q).picked, flows := (s.putSpan q).flows } : State) with spans := s.spans, picked := s.picked, flows := s.flows } := rfl
      _ = s := by rw [this]; rfl
  · intro j hj
    rw [issued_span?_other _ _ (At i sp I a) _ hj]; exact span?_putSpan_other s q j (by rw [hid]; exact hj)
  · exact issued_picked _ _ _
  · have h3 : { q with vregs := sp.vregs, sregs := sp.sregs, qs := sp.qs, lanes := sp.lanes, wHold := sp.wHold } =
        { ({ q with vregs := sp.vregs, sregs := sp.sregs, qs := sp.qs, lanes := sp.lanes } : Span) with wHold := sp.wHold } := rfl
    calc { q.hold (s.waitsAt i sp) with vregs := sp.vregs, sregs := sp.sregs, qs := sp.qs, lanes := sp.lanes, wHold := sp.wHold }
        = { ({ q with vregs := (Iss.moved ⟨sp, I, acting i sp I, a⟩).vregs, sregs := (Iss.moved ⟨sp, I, acting i sp I, a⟩).sregs,
                      qs := (Iss.moved ⟨sp, I, acting i sp I, a⟩).qs, lanes := (Iss.moved ⟨sp, I, acting i sp I, a⟩).lanes } : Span) with
              lanes := sp.lanes, wHold := sp.wHold } := rfl
      _ = { Iss.moved ⟨sp, I, acting i sp I, a⟩ with lanes := sp.lanes, wHold := sp.wHold } := by rw [hsame]
      _ = sp := rfl
  · show (q.wHold || s.waitsAt i sp) = s.waitsAt i sp
    rw [hh, hw0, Bool.false_or]

/-- A word that ends in `writeD`. -/
theorem becomes_writeD {i : Instr} {r : Rules} {w : Nat} {u sgn : Bool} {d : BitVec 8} {f : Span → Nat → BitVec w} {s : State}
    {sp0 sp : Span} {I : List Nat} {a : Word} (he : exec i s = regOp i r (writeD w u sgn d f) s) (h : Clear i s sp0 sp I a)
    (hp : r.priv s ⟨sp, I, acting i sp I, a⟩ = true → sp.hmode = true)
    (hw : r.whole = true → I = sp.lanesIn (!·.ended))
    (hu : r.unsync s ⟨sp, I, acting i sp I, a⟩ = false)
    (ho : r.own s ⟨sp, I, acting i sp I, a⟩ = none)
    (hr : r.ready s ⟨sp, I, acting i sp I, a⟩ = true) :
    Becomes i s sp fun sp' => Goes sp sp' I a ∧ WritesD w u sgn d (acting i sp I) (fun l => f sp l) sp sp' := by
  have hG := acting_lt (i := i) h.select
  have key := writeD_spec w u sgn d f ⟨sp, I, acting i sp I, a⟩ (Iss.moved ⟨sp, I, acting i sp I, a⟩) hG
  refine becomes_regOp he h ?_ hp hw hu ho hr ⟨?_, ?_⟩
  · intro t; exact frame_of_body (writeD_spec w u sgn d f ⟨sp, I, acting i sp I, a⟩ t hG).2
  · have h1 := goes_of_body (moved_goes h.toIssuing (acting i sp I)) key.2
    exact ⟨h1.count, h1.lane⟩
  · have k1 := key.1
    cases u with
    | true =>
      simp only [WritesD, if_true] at k1 ⊢
      exact ⟨k1.vectors, k1.flags, k1.regs⟩
    | false =>
      simp only [WritesD, Bool.false_eq_true, if_false] at k1 ⊢
      exact ⟨k1.scalars, k1.flags, k1.regs⟩

/-- A word that ends in `writeD`, whose value a claim writes as `F`. -/
theorem puts_of {i : Instr} {w u sgn d} {f : Span → Nat → BitVec w} {s : State} {sp0 sp : Span} {I a} (he : exec i s = regOp i {} (writeD w u sgn d f) s)
   (h : Clear i s sp0 sp I a) (F : Nat → BitVec w) (hF : ∀ l, f sp l = F l) : Puts i s sp I a w u sgn d F := by
  have := becomes_writeD he h (by intro h; cases h) (by intro h; cases h) rfl rfl rfl
  have e : F = fun l => f sp l := funext fun l => (hF l).symm
  rw [e]; exact this

/-- A word that writes one lane after the other, as `put` does. -/
theorem putsV_of {i : Instr} {r : Rules} {w n d} {put : Span → Span → Nat → Span} {F : Nat → BitVec w} {s : State} {sp0 sp : Span} {I a} 
   (he : exec i s = regOp i r (fun j t => j.G.foldl (put j.sp) t) s)
   (h : Clear i s sp0 sp I a)
   (hv : ∀ t l r l', l < 32 → l' < 32 → (put sp t l).v r l' = if l' = l ∧ d ≤ r ∧ r < d + n then (F l).extractLsb' (32 * (r - d)) 32 else t.v r l')
    (hs : ∀ t l, (put sp t l).sregs = t.sregs) (hb : ∀ t l, (put sp t l).body = t.body) 
    (hp : r.priv s ⟨sp, I, acting i sp I, a⟩ = true → sp.hmode = true)
    (hw : r.whole = true → I = sp.lanesIn (!·.ended))
    (hu : r.unsync s ⟨sp, I, acting i sp I, a⟩ = false)
    (ho : r.own s ⟨sp, I, acting i sp I, a⟩ = none)
    (hr : r.ready s ⟨sp, I, acting i sp I, a⟩ = true) : PutsV i s sp I a n d F := by
  have hG := acting_lt (i := i) h.select
  have key := foldl_writesV (put sp) n d F hv hs hb (acting i sp I) hG 
  refine becomes_regOp he h ?_ hp hw hu ho hr ⟨?_, ?_⟩
  · intro t; exact frame_of_body (key t).2
  · have h1 := goes_of_body (moved_goes h.toIssuing (acting i sp I)) (key _).2
    exact ⟨h1.count, h1.lane⟩
  · have k1 := (key (Iss.moved ⟨sp, I, acting i sp I, a⟩)).1
    exact ⟨k1.scalars, k1.flags, k1.regs⟩

/-- A word that changes its lanes or its flags only, beside the move of its lanes: the claim is on the span that `f` gives. -/
theorem becomes_of {i : Instr} {f : Iss → Span → Span} {s : State} {sp0 sp : Span} {I : List Nat} {a : Word} {P : Span → Prop}
    (he : exec i s = regOp i {} f s) (h : Clear i s sp0 sp I a)
    (hf : ∀ t : Span, (f ⟨sp, I, acting i sp I, a⟩ t).frame = t.frame)
    (hP : P ((f ⟨sp, I, acting i sp I, a⟩ (Iss.moved ⟨sp, I, acting i sp I, a⟩)).hold (s.waitsAt i sp))) : Becomes i s sp P :=
  becomes_regOp he h hf (by intro h; cases h) (by intro h; cases h) rfl rfl rfl hP

end Sys2Proof.Machine
end

