-- ==== Sys2Proof/Laws/State.lean ====
section
/-! SUPPORT. What each small update of the state leaves: one lemma for each update and field. -/

namespace Sys2Proof.Machine

/-! putSpan: one span is replaced, and nothing else. -/

@[simp] theorem State.putSpan_agenda (s : State) (sp : Span) : (s.putSpan sp).agenda = s.agenda := rfl
@[simp] theorem State.putSpan_picked (s : State) (sp : Span) : (s.putSpan sp).picked = s.picked := rfl
@[simp] theorem State.putSpan_ir (s : State) (sp : Span) : (s.putSpan sp).ir = s.ir := rfl
@[simp] theorem State.putSpan_turn (s : State) (sp : Span) : (s.putSpan sp).turn = s.turn := rfl
@[simp] theorem State.putSpan_steps (s : State) (sp : Span) : (s.putSpan sp).steps = s.steps := rfl
@[simp] theorem State.putSpan_uid (s : State) (sp : Span) : (s.putSpan sp).uid = s.uid := rfl
@[simp] theorem State.putSpan_boot (s : State) (sp : Span) : (s.putSpan sp).boot = s.boot := rfl
@[simp] theorem State.putSpan_measures (s : State) (sp : Span) : (s.putSpan sp).measures = s.measures := rfl
@[simp] theorem State.putSpan_zoneGiB (s : State) (sp : Span) : (s.putSpan sp).zoneGiB = s.zoneGiB := rfl
@[simp] theorem State.putSpan_dead (s : State) (sp : Span) : (s.putSpan sp).dead = s.dead := rfl
@[simp] theorem State.putSpan_down (s : State) (sp : Span) : (s.putSpan sp).down = s.down := rfl
@[simp] theorem State.putSpan_tierSize (s : State) (sp : Span) : (s.putSpan sp).tierSize = s.tierSize := rfl
@[simp] theorem State.putSpan_peers (s : State) (sp : Span) : (s.putSpan sp).peers = s.peers := rfl
@[simp] theorem State.putSpan_rollback (s : State) (sp : Span) : (s.putSpan sp).rollback = s.rollback := rfl
@[simp] theorem State.putSpan_tsc (s : State) (sp : Span) : (s.putSpan sp).tsc = s.tsc := rfl
@[simp] theorem State.putSpan_fenced (s : State) (sp : Span) : (s.putSpan sp).fenced = s.fenced := rfl
@[simp] theorem State.putSpan_msgs (s : State) (sp : Span) : (s.putSpan sp).msgs = s.msgs := rfl
@[simp] theorem State.putSpan_seqs (s : State) (sp : Span) : (s.putSpan sp).seqs = s.seqs := rfl
@[simp] theorem State.putSpan_looks (s : State) (sp : Span) : (s.putSpan sp).looks = s.looks := rfl
@[simp] theorem State.putSpan_overtakes (s : State) (sp : Span) : (s.putSpan sp).overtakes = s.overtakes := rfl
@[simp] theorem State.putSpan_flows (s : State) (sp : Span) : (s.putSpan sp).flows = s.flows := rfl
@[simp] theorem State.putSpan_host (s : State) (sp : Span) : (s.putSpan sp).host = s.host := rfl
@[simp] theorem State.putSpan_hostTime (s : State) (sp : Span) : (s.putSpan sp).hostTime = s.hostTime := rfl
@[simp] theorem State.putSpan_parts (s : State) (sp : Span) : (s.putSpan sp).parts = s.parts := rfl
@[simp] theorem State.putSpan_ctxs (s : State) (sp : Span) : (s.putSpan sp).ctxs = s.ctxs := rfl
@[simp] theorem State.putSpan_queues (s : State) (sp : Span) : (s.putSpan sp).queues = s.queues := rfl
@[simp] theorem State.putSpan_launches (s : State) (sp : Span) : (s.putSpan sp).launches = s.launches := rfl
@[simp] theorem State.putSpan_blocks (s : State) (sp : Span) : (s.putSpan sp).blocks = s.blocks := rfl
@[simp] theorem State.putSpan_saved (s : State) (sp : Span) : (s.putSpan sp).saved = s.saved := rfl
@[simp] theorem State.putSpan_bars (s : State) (sp : Span) : (s.putSpan sp).bars = s.bars := rfl
@[simp] theorem State.putSpan_mem (s : State) (sp : Span) : (s.putSpan sp).mem = s.mem := rfl
@[simp] theorem State.putSpan_tlb (s : State) (sp : Span) : (s.putSpan sp).tlb = s.tlb := rfl
@[simp] theorem State.putSpan_l1 (s : State) (sp : Span) : (s.putSpan sp).l1 = s.l1 := rfl
@[simp] theorem State.putSpan_icache (s : State) (sp : Span) : (s.putSpan sp).icache = s.icache := rfl
@[simp] theorem State.putSpan_streams (s : State) (sp : Span) : (s.putSpan sp).streams = s.streams := rfl
@[simp] theorem State.putSpan_demoted (s : State) (sp : Span) : (s.putSpan sp).demoted = s.demoted := rfl
@[simp] theorem State.putSpan_lru (s : State) (sp : Span) : (s.putSpan sp).lru = s.lru := rfl
@[simp] theorem State.putSpan_notices (s : State) (sp : Span) : (s.putSpan sp).notices = s.notices := rfl
@[simp] theorem State.putSpan_moves (s : State) (sp : Span) : (s.putSpan sp).moves = s.moves := rfl
@[simp] theorem State.putSpan_locked (s : State) (sp : Span) : (s.putSpan sp).locked = s.locked := rfl
@[simp] theorem State.putSpan_shoots (s : State) (sp : Span) : (s.putSpan sp).shoots = s.shoots := rfl
@[simp] theorem State.putSpan_shadows (s : State) (sp : Span) : (s.putSpan sp).shadows = s.shadows := rfl
@[simp] theorem State.putSpan_deckq (s : State) (sp : Span) : (s.putSpan sp).deckq = s.deckq := rfl
@[simp] theorem State.putSpan_planeq (s : State) (sp : Span) : (s.putSpan sp).planeq = s.planeq := rfl
@[simp] theorem State.putSpan_engineAt (s : State) (sp : Span) : (s.putSpan sp).engineAt = s.engineAt := rfl
@[simp] theorem State.putSpan_futs (s : State) (sp : Span) : (s.putSpan sp).futs = s.futs := rfl
@[simp] theorem State.putSpan_refs (s : State) (sp : Span) : (s.putSpan sp).refs = s.refs := rfl
@[simp] theorem State.putSpan_fmsgs (s : State) (sp : Span) : (s.putSpan sp).fmsgs = s.fmsgs := rfl
@[simp] theorem State.putSpan_taskq (s : State) (sp : Span) : (s.putSpan sp).taskq = s.taskq := rfl
@[simp] theorem State.putSpan_rings (s : State) (sp : Span) : (s.putSpan sp).rings = s.rings := rfl
@[simp] theorem State.putSpan_berths (s : State) (sp : Span) : (s.putSpan sp).berths = s.berths := rfl
@[simp] theorem State.putSpan_ctrs (s : State) (sp : Span) : (s.putSpan sp).ctrs = s.ctrs := rfl
@[simp] theorem State.putSpan_holds (s : State) (sp : Span) : (s.putSpan sp).holds = s.holds := rfl
@[simp] theorem State.putSpan_ck (s : State) (sp : Span) : (s.putSpan sp).ck = s.ck := rfl
@[simp] theorem State.putSpan_ckpts (s : State) (sp : Span) : (s.putSpan sp).ckpts = s.ckpts := rfl
@[simp] theorem State.putSpan_kept (s : State) (sp : Span) : (s.putSpan sp).kept = s.kept := rfl
@[simp] theorem State.putSpan_ckGuard (s : State) (sp : Span) : (s.putSpan sp).ckGuard = s.ckGuard := rfl
@[simp] theorem State.putSpan_out (s : State) (sp : Span) : (s.putSpan sp).out = s.out := rfl

/-! onSpan: one span changes, and nothing else. -/

@[simp] theorem State.onSpan_agenda (s : State) (id : Nat) (f : Span → Span) : (s.onSpan id f).agenda = s.agenda := rfl
@[simp] theorem State.onSpan_picked (s : State) (id : Nat) (f : Span → Span) : (s.onSpan id f).picked = s.picked := rfl
@[simp] theorem State.onSpan_ir (s : State) (id : Nat) (f : Span → Span) : (s.onSpan id f).ir = s.ir := rfl
@[simp] theorem State.onSpan_turn (s : State) (id : Nat) (f : Span → Span) : (s.onSpan id f).turn = s.turn := rfl
@[simp] theorem State.onSpan_steps (s : State) (id : Nat) (f : Span → Span) : (s.onSpan id f).steps = s.steps := rfl
@[simp] theorem State.onSpan_uid (s : State) (id : Nat) (f : Span → Span) : (s.onSpan id f).uid = s.uid := rfl
@[simp] theorem State.onSpan_boot (s : State) (id : Nat) (f : Span → Span) : (s.onSpan id f).boot = s.boot := rfl
@[simp] theorem State.onSpan_measures (s : State) (id : Nat) (f : Span → Span) : (s.onSpan id f).measures = s.measures := rfl
@[simp] theorem State.onSpan_zoneGiB (s : State) (id : Nat) (f : Span → Span) : (s.onSpan id f).zoneGiB = s.zoneGiB := rfl
@[simp] theorem State.onSpan_dead (s : State) (id : Nat) (f : Span → Span) : (s.onSpan id f).dead = s.dead := rfl
@[simp] theorem State.onSpan_down (s : State) (id : Nat) (f : Span → Span) : (s.onSpan id f).down = s.down := rfl
@[simp] theorem State.onSpan_tierSize (s : State) (id : Nat) (f : Span → Span) : (s.onSpan id f).tierSize = s.tierSize := rfl
@[simp] theorem State.onSpan_peers (s : State) (id : Nat) (f : Span → Span) : (s.onSpan id f).peers = s.peers := rfl
@[simp] theorem State.onSpan_rollback (s : State) (id : Nat) (f : Span → Span) : (s.onSpan id f).rollback = s.rollback := rfl
@[simp] theorem State.onSpan_tsc (s : State) (id : Nat) (f : Span → Span) : (s.onSpan id f).tsc = s.tsc := rfl
@[simp] theorem State.onSpan_fenced (s : State) (id : Nat) (f : Span → Span) : (s.onSpan id f).fenced = s.fenced := rfl
@[simp] theorem State.onSpan_msgs (s : State) (id : Nat) (f : Span → Span) : (s.onSpan id f).msgs = s.msgs := rfl
@[simp] theorem State.onSpan_seqs (s : State) (id : Nat) (f : Span → Span) : (s.onSpan id f).seqs = s.seqs := rfl
@[simp] theorem State.onSpan_looks (s : State) (id : Nat) (f : Span → Span) : (s.onSpan id f).looks = s.looks := rfl
@[simp] theorem State.onSpan_overtakes (s : State) (id : Nat) (f : Span → Span) : (s.onSpan id f).overtakes = s.overtakes := rfl
@[simp] theorem State.onSpan_flows (s : State) (id : Nat) (f : Span → Span) : (s.onSpan id f).flows = s.flows := rfl
@[simp] theorem State.onSpan_host (s : State) (id : Nat) (f : Span → Span) : (s.onSpan id f).host = s.host := rfl
@[simp] theorem State.onSpan_hostTime (s : State) (id : Nat) (f : Span → Span) : (s.onSpan id f).hostTime = s.hostTime := rfl
@[simp] theorem State.onSpan_parts (s : State) (id : Nat) (f : Span → Span) : (s.onSpan id f).parts = s.parts := rfl
@[simp] theorem State.onSpan_ctxs (s : State) (id : Nat) (f : Span → Span) : (s.onSpan id f).ctxs = s.ctxs := rfl
@[simp] theorem State.onSpan_queues (s : State) (id : Nat) (f : Span → Span) : (s.onSpan id f).queues = s.queues := rfl
@[simp] theorem State.onSpan_launches (s : State) (id : Nat) (f : Span → Span) : (s.onSpan id f).launches = s.launches := rfl
@[simp] theorem State.onSpan_blocks (s : State) (id : Nat) (f : Span → Span) : (s.onSpan id f).blocks = s.blocks := rfl
@[simp] theorem State.onSpan_saved (s : State) (id : Nat) (f : Span → Span) : (s.onSpan id f).saved = s.saved := rfl
@[simp] theorem State.onSpan_bars (s : State) (id : Nat) (f : Span → Span) : (s.onSpan id f).bars = s.bars := rfl
@[simp] theorem State.onSpan_mem (s : State) (id : Nat) (f : Span → Span) : (s.onSpan id f).mem = s.mem := rfl
@[simp] theorem State.onSpan_tlb (s : State) (id : Nat) (f : Span → Span) : (s.onSpan id f).tlb = s.tlb := rfl
@[simp] theorem State.onSpan_l1 (s : State) (id : Nat) (f : Span → Span) : (s.onSpan id f).l1 = s.l1 := rfl
@[simp] theorem State.onSpan_icache (s : State) (id : Nat) (f : Span → Span) : (s.onSpan id f).icache = s.icache := rfl
@[simp] theorem State.onSpan_streams (s : State) (id : Nat) (f : Span → Span) : (s.onSpan id f).streams = s.streams := rfl
@[simp] theorem State.onSpan_demoted (s : State) (id : Nat) (f : Span → Span) : (s.onSpan id f).demoted = s.demoted := rfl
@[simp] theorem State.onSpan_lru (s : State) (id : Nat) (f : Span → Span) : (s.onSpan id f).lru = s.lru := rfl
@[simp] theorem State.onSpan_notices (s : State) (id : Nat) (f : Span → Span) : (s.onSpan id f).notices = s.notices := rfl
@[simp] theorem State.onSpan_moves (s : State) (id : Nat) (f : Span → Span) : (s.onSpan id f).moves = s.moves := rfl
@[simp] theorem State.onSpan_locked (s : State) (id : Nat) (f : Span → Span) : (s.onSpan id f).locked = s.locked := rfl
@[simp] theorem State.onSpan_shoots (s : State) (id : Nat) (f : Span → Span) : (s.onSpan id f).shoots = s.shoots := rfl
@[simp] theorem State.onSpan_shadows (s : State) (id : Nat) (f : Span → Span) : (s.onSpan id f).shadows = s.shadows := rfl
@[simp] theorem State.onSpan_deckq (s : State) (id : Nat) (f : Span → Span) : (s.onSpan id f).deckq = s.deckq := rfl
@[simp] theorem State.onSpan_planeq (s : State) (id : Nat) (f : Span → Span) : (s.onSpan id f).planeq = s.planeq := rfl
@[simp] theorem State.onSpan_engineAt (s : State) (id : Nat) (f : Span → Span) : (s.onSpan id f).engineAt = s.engineAt := rfl
@[simp] theorem State.onSpan_futs (s : State) (id : Nat) (f : Span → Span) : (s.onSpan id f).futs = s.futs := rfl
@[simp] theorem State.onSpan_refs (s : State) (id : Nat) (f : Span → Span) : (s.onSpan id f).refs = s.refs := rfl
@[simp] theorem State.onSpan_fmsgs (s : State) (id : Nat) (f : Span → Span) : (s.onSpan id f).fmsgs = s.fmsgs := rfl
@[simp] theorem State.onSpan_taskq (s : State) (id : Nat) (f : Span → Span) : (s.onSpan id f).taskq = s.taskq := rfl
@[simp] theorem State.onSpan_rings (s : State) (id : Nat) (f : Span → Span) : (s.onSpan id f).rings = s.rings := rfl
@[simp] theorem State.onSpan_berths (s : State) (id : Nat) (f : Span → Span) : (s.onSpan id f).berths = s.berths := rfl
@[simp] theorem State.onSpan_ctrs (s : State) (id : Nat) (f : Span → Span) : (s.onSpan id f).ctrs = s.ctrs := rfl
@[simp] theorem State.onSpan_holds (s : State) (id : Nat) (f : Span → Span) : (s.onSpan id f).holds = s.holds := rfl
@[simp] theorem State.onSpan_ck (s : State) (id : Nat) (f : Span → Span) : (s.onSpan id f).ck = s.ck := rfl
@[simp] theorem State.onSpan_ckpts (s : State) (id : Nat) (f : Span → Span) : (s.onSpan id f).ckpts = s.ckpts := rfl
@[simp] theorem State.onSpan_kept (s : State) (id : Nat) (f : Span → Span) : (s.onSpan id f).kept = s.kept := rfl
@[simp] theorem State.onSpan_ckGuard (s : State) (id : Nat) (f : Span → Span) : (s.onSpan id f).ckGuard = s.ckGuard := rfl
@[simp] theorem State.onSpan_out (s : State) (id : Nat) (f : Span → Span) : (s.onSpan id f).out = s.out := rfl

/-! onBlock: one block changes, and nothing else. -/

@[simp] theorem State.onBlock_agenda (s : State) (b : Nat × Nat) (f : Block → Block) : (s.onBlock b f).agenda = s.agenda := rfl
@[simp] theorem State.onBlock_picked (s : State) (b : Nat × Nat) (f : Block → Block) : (s.onBlock b f).picked = s.picked := rfl
@[simp] theorem State.onBlock_ir (s : State) (b : Nat × Nat) (f : Block → Block) : (s.onBlock b f).ir = s.ir := rfl
@[simp] theorem State.onBlock_turn (s : State) (b : Nat × Nat) (f : Block → Block) : (s.onBlock b f).turn = s.turn := rfl
@[simp] theorem State.onBlock_steps (s : State) (b : Nat × Nat) (f : Block → Block) : (s.onBlock b f).steps = s.steps := rfl
@[simp] theorem State.onBlock_uid (s : State) (b : Nat × Nat) (f : Block → Block) : (s.onBlock b f).uid = s.uid := rfl
@[simp] theorem State.onBlock_boot (s : State) (b : Nat × Nat) (f : Block → Block) : (s.onBlock b f).boot = s.boot := rfl
@[simp] theorem State.onBlock_measures (s : State) (b : Nat × Nat) (f : Block → Block) : (s.onBlock b f).measures = s.measures := rfl
@[simp] theorem State.onBlock_zoneGiB (s : State) (b : Nat × Nat) (f : Block → Block) : (s.onBlock b f).zoneGiB = s.zoneGiB := rfl
@[simp] theorem State.onBlock_dead (s : State) (b : Nat × Nat) (f : Block → Block) : (s.onBlock b f).dead = s.dead := rfl
@[simp] theorem State.onBlock_down (s : State) (b : Nat × Nat) (f : Block → Block) : (s.onBlock b f).down = s.down := rfl
@[simp] theorem State.onBlock_tierSize (s : State) (b : Nat × Nat) (f : Block → Block) : (s.onBlock b f).tierSize = s.tierSize := rfl
@[simp] theorem State.onBlock_peers (s : State) (b : Nat × Nat) (f : Block → Block) : (s.onBlock b f).peers = s.peers := rfl
@[simp] theorem State.onBlock_rollback (s : State) (b : Nat × Nat) (f : Block → Block) : (s.onBlock b f).rollback = s.rollback := rfl
@[simp] theorem State.onBlock_tsc (s : State) (b : Nat × Nat) (f : Block → Block) : (s.onBlock b f).tsc = s.tsc := rfl
@[simp] theorem State.onBlock_fenced (s : State) (b : Nat × Nat) (f : Block → Block) : (s.onBlock b f).fenced = s.fenced := rfl
@[simp] theorem State.onBlock_msgs (s : State) (b : Nat × Nat) (f : Block → Block) : (s.onBlock b f).msgs = s.msgs := rfl
@[simp] theorem State.onBlock_seqs (s : State) (b : Nat × Nat) (f : Block → Block) : (s.onBlock b f).seqs = s.seqs := rfl
@[simp] theorem State.onBlock_looks (s : State) (b : Nat × Nat) (f : Block → Block) : (s.onBlock b f).looks = s.looks := rfl
@[simp] theorem State.onBlock_overtakes (s : State) (b : Nat × Nat) (f : Block → Block) : (s.onBlock b f).overtakes = s.overtakes := rfl
@[simp] theorem State.onBlock_flows (s : State) (b : Nat × Nat) (f : Block → Block) : (s.onBlock b f).flows = s.flows := rfl
@[simp] theorem State.onBlock_host (s : State) (b : Nat × Nat) (f : Block → Block) : (s.onBlock b f).host = s.host := rfl
@[simp] theorem State.onBlock_hostTime (s : State) (b : Nat × Nat) (f : Block → Block) : (s.onBlock b f).hostTime = s.hostTime := rfl
@[simp] theorem State.onBlock_parts (s : State) (b : Nat × Nat) (f : Block → Block) : (s.onBlock b f).parts = s.parts := rfl
@[simp] theorem State.onBlock_ctxs (s : State) (b : Nat × Nat) (f : Block → Block) : (s.onBlock b f).ctxs = s.ctxs := rfl
@[simp] theorem State.onBlock_queues (s : State) (b : Nat × Nat) (f : Block → Block) : (s.onBlock b f).queues = s.queues := rfl
@[simp] theorem State.onBlock_launches (s : State) (b : Nat × Nat) (f : Block → Block) : (s.onBlock b f).launches = s.launches := rfl
@[simp] theorem State.onBlock_spans (s : State) (b : Nat × Nat) (f : Block → Block) : (s.onBlock b f).spans = s.spans := rfl
@[simp] theorem State.onBlock_saved (s : State) (b : Nat × Nat) (f : Block → Block) : (s.onBlock b f).saved = s.saved := rfl
@[simp] theorem State.onBlock_bars (s : State) (b : Nat × Nat) (f : Block → Block) : (s.onBlock b f).bars = s.bars := rfl
@[simp] theorem State.onBlock_mem (s : State) (b : Nat × Nat) (f : Block → Block) : (s.onBlock b f).mem = s.mem := rfl
@[simp] theorem State.onBlock_tlb (s : State) (b : Nat × Nat) (f : Block → Block) : (s.onBlock b f).tlb = s.tlb := rfl
@[simp] theorem State.onBlock_l1 (s : State) (b : Nat × Nat) (f : Block → Block) : (s.onBlock b f).l1 = s.l1 := rfl
@[simp] theorem State.onBlock_icache (s : State) (b : Nat × Nat) (f : Block → Block) : (s.onBlock b f).icache = s.icache := rfl
@[simp] theorem State.onBlock_streams (s : State) (b : Nat × Nat) (f : Block → Block) : (s.onBlock b f).streams = s.streams := rfl
@[simp] theorem State.onBlock_demoted (s : State) (b : Nat × Nat) (f : Block → Block) : (s.onBlock b f).demoted = s.demoted := rfl
@[simp] theorem State.onBlock_lru (s : State) (b : Nat × Nat) (f : Block → Block) : (s.onBlock b f).lru = s.lru := rfl
@[simp] theorem State.onBlock_notices (s : State) (b : Nat × Nat) (f : Block → Block) : (s.onBlock b f).notices = s.notices := rfl
@[simp] theorem State.onBlock_moves (s : State) (b : Nat × Nat) (f : Block → Block) : (s.onBlock b f).moves = s.moves := rfl
@[simp] theorem State.onBlock_locked (s : State) (b : Nat × Nat) (f : Block → Block) : (s.onBlock b f).locked = s.locked := rfl
@[simp] theorem State.onBlock_shoots (s : State) (b : Nat × Nat) (f : Block → Block) : (s.onBlock b f).shoots = s.shoots := rfl
@[simp] theorem State.onBlock_shadows (s : State) (b : Nat × Nat) (f : Block → Block) : (s.onBlock b f).shadows = s.shadows := rfl
@[simp] theorem State.onBlock_deckq (s : State) (b : Nat × Nat) (f : Block → Block) : (s.onBlock b f).deckq = s.deckq := rfl
@[simp] theorem State.onBlock_planeq (s : State) (b : Nat × Nat) (f : Block → Block) : (s.onBlock b f).planeq = s.planeq := rfl
@[simp] theorem State.onBlock_engineAt (s : State) (b : Nat × Nat) (f : Block → Block) : (s.onBlock b f).engineAt = s.engineAt := rfl
@[simp] theorem State.onBlock_futs (s : State) (b : Nat × Nat) (f : Block → Block) : (s.onBlock b f).futs = s.futs := rfl
@[simp] theorem State.onBlock_refs (s : State) (b : Nat × Nat) (f : Block → Block) : (s.onBlock b f).refs = s.refs := rfl
@[simp] theorem State.onBlock_fmsgs (s : State) (b : Nat × Nat) (f : Block → Block) : (s.onBlock b f).fmsgs = s.fmsgs := rfl
@[simp] theorem State.onBlock_taskq (s : State) (b : Nat × Nat) (f : Block → Block) : (s.onBlock b f).taskq = s.taskq := rfl
@[simp] theorem State.onBlock_rings (s : State) (b : Nat × Nat) (f : Block → Block) : (s.onBlock b f).rings = s.rings := rfl
@[simp] theorem State.onBlock_berths (s : State) (b : Nat × Nat) (f : Block → Block) : (s.onBlock b f).berths = s.berths := rfl
@[simp] theorem State.onBlock_ctrs (s : State) (b : Nat × Nat) (f : Block → Block) : (s.onBlock b f).ctrs = s.ctrs := rfl
@[simp] theorem State.onBlock_holds (s : State) (b : Nat × Nat) (f : Block → Block) : (s.onBlock b f).holds = s.holds := rfl
@[simp] theorem State.onBlock_ck (s : State) (b : Nat × Nat) (f : Block → Block) : (s.onBlock b f).ck = s.ck := rfl
@[simp] theorem State.onBlock_ckpts (s : State) (b : Nat × Nat) (f : Block → Block) : (s.onBlock b f).ckpts = s.ckpts := rfl
@[simp] theorem State.onBlock_kept (s : State) (b : Nat × Nat) (f : Block → Block) : (s.onBlock b f).kept = s.kept := rfl
@[simp] theorem State.onBlock_ckGuard (s : State) (b : Nat × Nat) (f : Block → Block) : (s.onBlock b f).ckGuard = s.ckGuard := rfl
@[simp] theorem State.onBlock_out (s : State) (b : Nat × Nat) (f : Block → Block) : (s.onBlock b f).out = s.out := rfl

/-! onCtx: one context changes, and nothing else. -/

@[simp] theorem State.onCtx_agenda (s : State) (id : Nat) (f : Context → Context) : (s.onCtx id f).agenda = s.agenda := rfl
@[simp] theorem State.onCtx_picked (s : State) (id : Nat) (f : Context → Context) : (s.onCtx id f).picked = s.picked := rfl
@[simp] theorem State.onCtx_ir (s : State) (id : Nat) (f : Context → Context) : (s.onCtx id f).ir = s.ir := rfl
@[simp] theorem State.onCtx_turn (s : State) (id : Nat) (f : Context → Context) : (s.onCtx id f).turn = s.turn := rfl
@[simp] theorem State.onCtx_steps (s : State) (id : Nat) (f : Context → Context) : (s.onCtx id f).steps = s.steps := rfl
@[simp] theorem State.onCtx_uid (s : State) (id : Nat) (f : Context → Context) : (s.onCtx id f).uid = s.uid := rfl
@[simp] theorem State.onCtx_boot (s : State) (id : Nat) (f : Context → Context) : (s.onCtx id f).boot = s.boot := rfl
@[simp] theorem State.onCtx_measures (s : State) (id : Nat) (f : Context → Context) : (s.onCtx id f).measures = s.measures := rfl
@[simp] theorem State.onCtx_zoneGiB (s : State) (id : Nat) (f : Context → Context) : (s.onCtx id f).zoneGiB = s.zoneGiB := rfl
@[simp] theorem State.onCtx_dead (s : State) (id : Nat) (f : Context → Context) : (s.onCtx id f).dead = s.dead := rfl
@[simp] theorem State.onCtx_down (s : State) (id : Nat) (f : Context → Context) : (s.onCtx id f).down = s.down := rfl
@[simp] theorem State.onCtx_tierSize (s : State) (id : Nat) (f : Context → Context) : (s.onCtx id f).tierSize = s.tierSize := rfl
@[simp] theorem State.onCtx_peers (s : State) (id : Nat) (f : Context → Context) : (s.onCtx id f).peers = s.peers := rfl
@[simp] theorem State.onCtx_rollback (s : State) (id : Nat) (f : Context → Context) : (s.onCtx id f).rollback = s.rollback := rfl
@[simp] theorem State.onCtx_tsc (s : State) (id : Nat) (f : Context → Context) : (s.onCtx id f).tsc = s.tsc := rfl
@[simp] theorem State.onCtx_fenced (s : State) (id : Nat) (f : Context → Context) : (s.onCtx id f).fenced = s.fenced := rfl
@[simp] theorem State.onCtx_msgs (s : State) (id : Nat) (f : Context → Context) : (s.onCtx id f).msgs = s.msgs := rfl
@[simp] theorem State.onCtx_seqs (s : State) (id : Nat) (f : Context → Context) : (s.onCtx id f).seqs = s.seqs := rfl
@[simp] theorem State.onCtx_looks (s : State) (id : Nat) (f : Context → Context) : (s.onCtx id f).looks = s.looks := rfl
@[simp] theorem State.onCtx_overtakes (s : State) (id : Nat) (f : Context → Context) : (s.onCtx id f).overtakes = s.overtakes := rfl
@[simp] theorem State.onCtx_flows (s : State) (id : Nat) (f : Context → Context) : (s.onCtx id f).flows = s.flows := rfl
@[simp] theorem State.onCtx_host (s : State) (id : Nat) (f : Context → Context) : (s.onCtx id f).host = s.host := rfl
@[simp] theorem State.onCtx_hostTime (s : State) (id : Nat) (f : Context → Context) : (s.onCtx id f).hostTime = s.hostTime := rfl
@[simp] theorem State.onCtx_parts (s : State) (id : Nat) (f : Context → Context) : (s.onCtx id f).parts = s.parts := rfl
@[simp] theorem State.onCtx_queues (s : State) (id : Nat) (f : Context → Context) : (s.onCtx id f).queues = s.queues := rfl
@[simp] theorem State.onCtx_launches (s : State) (id : Nat) (f : Context → Context) : (s.onCtx id f).launches = s.launches := rfl
@[simp] theorem State.onCtx_blocks (s : State) (id : Nat) (f : Context → Context) : (s.onCtx id f).blocks = s.blocks := rfl
@[simp] theorem State.onCtx_spans (s : State) (id : Nat) (f : Context → Context) : (s.onCtx id f).spans = s.spans := rfl
@[simp] theorem State.onCtx_saved (s : State) (id : Nat) (f : Context → Context) : (s.onCtx id f).saved = s.saved := rfl
@[simp] theorem State.onCtx_bars (s : State) (id : Nat) (f : Context → Context) : (s.onCtx id f).bars = s.bars := rfl
@[simp] theorem State.onCtx_mem (s : State) (id : Nat) (f : Context → Context) : (s.onCtx id f).mem = s.mem := rfl
@[simp] theorem State.onCtx_tlb (s : State) (id : Nat) (f : Context → Context) : (s.onCtx id f).tlb = s.tlb := rfl
@[simp] theorem State.onCtx_l1 (s : State) (id : Nat) (f : Context → Context) : (s.onCtx id f).l1 = s.l1 := rfl
@[simp] theorem State.onCtx_icache (s : State) (id : Nat) (f : Context → Context) : (s.onCtx id f).icache = s.icache := rfl
@[simp] theorem State.onCtx_streams (s : State) (id : Nat) (f : Context → Context) : (s.onCtx id f).streams = s.streams := rfl
@[simp] theorem State.onCtx_demoted (s : State) (id : Nat) (f : Context → Context) : (s.onCtx id f).demoted = s.demoted := rfl
@[simp] theorem State.onCtx_lru (s : State) (id : Nat) (f : Context → Context) : (s.onCtx id f).lru = s.lru := rfl
@[simp] theorem State.onCtx_notices (s : State) (id : Nat) (f : Context → Context) : (s.onCtx id f).notices = s.notices := rfl
@[simp] theorem State.onCtx_moves (s : State) (id : Nat) (f : Context → Context) : (s.onCtx id f).moves = s.moves := rfl
@[simp] theorem State.onCtx_locked (s : State) (id : Nat) (f : Context → Context) : (s.onCtx id f).locked = s.locked := rfl
@[simp] theorem State.onCtx_shoots (s : State) (id : Nat) (f : Context → Context) : (s.onCtx id f).shoots = s.shoots := rfl
@[simp] theorem State.onCtx_shadows (s : State) (id : Nat) (f : Context → Context) : (s.onCtx id f).shadows = s.shadows := rfl
@[simp] theorem State.onCtx_deckq (s : State) (id : Nat) (f : Context → Context) : (s.onCtx id f).deckq = s.deckq := rfl
@[simp] theorem State.onCtx_planeq (s : State) (id : Nat) (f : Context → Context) : (s.onCtx id f).planeq = s.planeq := rfl
@[simp] theorem State.onCtx_engineAt (s : State) (id : Nat) (f : Context → Context) : (s.onCtx id f).engineAt = s.engineAt := rfl
@[simp] theorem State.onCtx_futs (s : State) (id : Nat) (f : Context → Context) : (s.onCtx id f).futs = s.futs := rfl
@[simp] theorem State.onCtx_refs (s : State) (id : Nat) (f : Context → Context) : (s.onCtx id f).refs = s.refs := rfl
@[simp] theorem State.onCtx_fmsgs (s : State) (id : Nat) (f : Context → Context) : (s.onCtx id f).fmsgs = s.fmsgs := rfl
@[simp] theorem State.onCtx_taskq (s : State) (id : Nat) (f : Context → Context) : (s.onCtx id f).taskq = s.taskq := rfl
@[simp] theorem State.onCtx_rings (s : State) (id : Nat) (f : Context → Context) : (s.onCtx id f).rings = s.rings := rfl
@[simp] theorem State.onCtx_berths (s : State) (id : Nat) (f : Context → Context) : (s.onCtx id f).berths = s.berths := rfl
@[simp] theorem State.onCtx_ctrs (s : State) (id : Nat) (f : Context → Context) : (s.onCtx id f).ctrs = s.ctrs := rfl
@[simp] theorem State.onCtx_holds (s : State) (id : Nat) (f : Context → Context) : (s.onCtx id f).holds = s.holds := rfl
@[simp] theorem State.onCtx_ck (s : State) (id : Nat) (f : Context → Context) : (s.onCtx id f).ck = s.ck := rfl
@[simp] theorem State.onCtx_ckpts (s : State) (id : Nat) (f : Context → Context) : (s.onCtx id f).ckpts = s.ckpts := rfl
@[simp] theorem State.onCtx_kept (s : State) (id : Nat) (f : Context → Context) : (s.onCtx id f).kept = s.kept := rfl
@[simp] theorem State.onCtx_ckGuard (s : State) (id : Nat) (f : Context → Context) : (s.onCtx id f).ckGuard = s.ckGuard := rfl
@[simp] theorem State.onCtx_out (s : State) (id : Nat) (f : Context → Context) : (s.onCtx id f).out = s.out := rfl

/-! onLaunch: one launch changes, and nothing else. -/

@[simp] theorem State.onLaunch_agenda (s : State) (id : Nat) (f : Launch → Launch) : (s.onLaunch id f).agenda = s.agenda := rfl
@[simp] theorem State.onLaunch_picked (s : State) (id : Nat) (f : Launch → Launch) : (s.onLaunch id f).picked = s.picked := rfl
@[simp] theorem State.onLaunch_ir (s : State) (id : Nat) (f : Launch → Launch) : (s.onLaunch id f).ir = s.ir := rfl
@[simp] theorem State.onLaunch_turn (s : State) (id : Nat) (f : Launch → Launch) : (s.onLaunch id f).turn = s.turn := rfl
@[simp] theorem State.onLaunch_steps (s : State) (id : Nat) (f : Launch → Launch) : (s.onLaunch id f).steps = s.steps := rfl
@[simp] theorem State.onLaunch_uid (s : State) (id : Nat) (f : Launch → Launch) : (s.onLaunch id f).uid = s.uid := rfl
@[simp] theorem State.onLaunch_boot (s : State) (id : Nat) (f : Launch → Launch) : (s.onLaunch id f).boot = s.boot := rfl
@[simp] theorem State.onLaunch_measures (s : State) (id : Nat) (f : Launch → Launch) : (s.onLaunch id f).measures = s.measures := rfl
@[simp] theorem State.onLaunch_zoneGiB (s : State) (id : Nat) (f : Launch → Launch) : (s.onLaunch id f).zoneGiB = s.zoneGiB := rfl
@[simp] theorem State.onLaunch_dead (s : State) (id : Nat) (f : Launch → Launch) : (s.onLaunch id f).dead = s.dead := rfl
@[simp] theorem State.onLaunch_down (s : State) (id : Nat) (f : Launch → Launch) : (s.onLaunch id f).down = s.down := rfl
@[simp] theorem State.onLaunch_tierSize (s : State) (id : Nat) (f : Launch → Launch) : (s.onLaunch id f).tierSize = s.tierSize := rfl
@[simp] theorem State.onLaunch_peers (s : State) (id : Nat) (f : Launch → Launch) : (s.onLaunch id f).peers = s.peers := rfl
@[simp] theorem State.onLaunch_rollback (s : State) (id : Nat) (f : Launch → Launch) : (s.onLaunch id f).rollback = s.rollback := rfl
@[simp] theorem State.onLaunch_tsc (s : State) (id : Nat) (f : Launch → Launch) : (s.onLaunch id f).tsc = s.tsc := rfl
@[simp] theorem State.onLaunch_fenced (s : State) (id : Nat) (f : Launch → Launch) : (s.onLaunch id f).fenced = s.fenced := rfl
@[simp] theorem State.onLaunch_msgs (s : State) (id : Nat) (f : Launch → Launch) : (s.onLaunch id f).msgs = s.msgs := rfl
@[simp] theorem State.onLaunch_seqs (s : State) (id : Nat) (f : Launch → Launch) : (s.onLaunch id f).seqs = s.seqs := rfl
@[simp] theorem State.onLaunch_looks (s : State) (id : Nat) (f : Launch → Launch) : (s.onLaunch id f).looks = s.looks := rfl
@[simp] theorem State.onLaunch_overtakes (s : State) (id : Nat) (f : Launch → Launch) : (s.onLaunch id f).overtakes = s.overtakes := rfl
@[simp] theorem State.onLaunch_flows (s : State) (id : Nat) (f : Launch → Launch) : (s.onLaunch id f).flows = s.flows := rfl
@[simp] theorem State.onLaunch_host (s : State) (id : Nat) (f : Launch → Launch) : (s.onLaunch id f).host = s.host := rfl
@[simp] theorem State.onLaunch_hostTime (s : State) (id : Nat) (f : Launch → Launch) : (s.onLaunch id f).hostTime = s.hostTime := rfl
@[simp] theorem State.onLaunch_parts (s : State) (id : Nat) (f : Launch → Launch) : (s.onLaunch id f).parts = s.parts := rfl
@[simp] theorem State.onLaunch_ctxs (s : State) (id : Nat) (f : Launch → Launch) : (s.onLaunch id f).ctxs = s.ctxs := rfl
@[simp] theorem State.onLaunch_queues (s : State) (id : Nat) (f : Launch → Launch) : (s.onLaunch id f).queues = s.queues := rfl
@[simp] theorem State.onLaunch_blocks (s : State) (id : Nat) (f : Launch → Launch) : (s.onLaunch id f).blocks = s.blocks := rfl
@[simp] theorem State.onLaunch_spans (s : State) (id : Nat) (f : Launch → Launch) : (s.onLaunch id f).spans = s.spans := rfl
@[simp] theorem State.onLaunch_saved (s : State) (id : Nat) (f : Launch → Launch) : (s.onLaunch id f).saved = s.saved := rfl
@[simp] theorem State.onLaunch_bars (s : State) (id : Nat) (f : Launch → Launch) : (s.onLaunch id f).bars = s.bars := rfl
@[simp] theorem State.onLaunch_mem (s : State) (id : Nat) (f : Launch → Launch) : (s.onLaunch id f).mem = s.mem := rfl
@[simp] theorem State.onLaunch_tlb (s : State) (id : Nat) (f : Launch → Launch) : (s.onLaunch id f).tlb = s.tlb := rfl
@[simp] theorem State.onLaunch_l1 (s : State) (id : Nat) (f : Launch → Launch) : (s.onLaunch id f).l1 = s.l1 := rfl
@[simp] theorem State.onLaunch_icache (s : State) (id : Nat) (f : Launch → Launch) : (s.onLaunch id f).icache = s.icache := rfl
@[simp] theorem State.onLaunch_streams (s : State) (id : Nat) (f : Launch → Launch) : (s.onLaunch id f).streams = s.streams := rfl
@[simp] theorem State.onLaunch_demoted (s : State) (id : Nat) (f : Launch → Launch) : (s.onLaunch id f).demoted = s.demoted := rfl
@[simp] theorem State.onLaunch_lru (s : State) (id : Nat) (f : Launch → Launch) : (s.onLaunch id f).lru = s.lru := rfl
@[simp] theorem State.onLaunch_notices (s : State) (id : Nat) (f : Launch → Launch) : (s.onLaunch id f).notices = s.notices := rfl
@[simp] theorem State.onLaunch_moves (s : State) (id : Nat) (f : Launch → Launch) : (s.onLaunch id f).moves = s.moves := rfl
@[simp] theorem State.onLaunch_locked (s : State) (id : Nat) (f : Launch → Launch) : (s.onLaunch id f).locked = s.locked := rfl
@[simp] theorem State.onLaunch_shoots (s : State) (id : Nat) (f : Launch → Launch) : (s.onLaunch id f).shoots = s.shoots := rfl
@[simp] theorem State.onLaunch_shadows (s : State) (id : Nat) (f : Launch → Launch) : (s.onLaunch id f).shadows = s.shadows := rfl
@[simp] theorem State.onLaunch_deckq (s : State) (id : Nat) (f : Launch → Launch) : (s.onLaunch id f).deckq = s.deckq := rfl
@[simp] theorem State.onLaunch_planeq (s : State) (id : Nat) (f : Launch → Launch) : (s.onLaunch id f).planeq = s.planeq := rfl
@[simp] theorem State.onLaunch_engineAt (s : State) (id : Nat) (f : Launch → Launch) : (s.onLaunch id f).engineAt = s.engineAt := rfl
@[simp] theorem State.onLaunch_futs (s : State) (id : Nat) (f : Launch → Launch) : (s.onLaunch id f).futs = s.futs := rfl
@[simp] theorem State.onLaunch_refs (s : State) (id : Nat) (f : Launch → Launch) : (s.onLaunch id f).refs = s.refs := rfl
@[simp] theorem State.onLaunch_fmsgs (s : State) (id : Nat) (f : Launch → Launch) : (s.onLaunch id f).fmsgs = s.fmsgs := rfl
@[simp] theorem State.onLaunch_taskq (s : State) (id : Nat) (f : Launch → Launch) : (s.onLaunch id f).taskq = s.taskq := rfl
@[simp] theorem State.onLaunch_rings (s : State) (id : Nat) (f : Launch → Launch) : (s.onLaunch id f).rings = s.rings := rfl
@[simp] theorem State.onLaunch_berths (s : State) (id : Nat) (f : Launch → Launch) : (s.onLaunch id f).berths = s.berths := rfl
@[simp] theorem State.onLaunch_ctrs (s : State) (id : Nat) (f : Launch → Launch) : (s.onLaunch id f).ctrs = s.ctrs := rfl
@[simp] theorem State.onLaunch_holds (s : State) (id : Nat) (f : Launch → Launch) : (s.onLaunch id f).holds = s.holds := rfl
@[simp] theorem State.onLaunch_ck (s : State) (id : Nat) (f : Launch → Launch) : (s.onLaunch id f).ck = s.ck := rfl
@[simp] theorem State.onLaunch_ckpts (s : State) (id : Nat) (f : Launch → Launch) : (s.onLaunch id f).ckpts = s.ckpts := rfl
@[simp] theorem State.onLaunch_kept (s : State) (id : Nat) (f : Launch → Launch) : (s.onLaunch id f).kept = s.kept := rfl
@[simp] theorem State.onLaunch_ckGuard (s : State) (id : Nat) (f : Launch → Launch) : (s.onLaunch id f).ckGuard = s.ckGuard := rfl
@[simp] theorem State.onLaunch_out (s : State) (id : Nat) (f : Launch → Launch) : (s.onLaunch id f).out = s.out := rfl

/-! onPart: one partition changes, and nothing else. -/

@[simp] theorem State.onPart_agenda (s : State) (n : Nat) (f : Partition → Partition) : (s.onPart n f).agenda = s.agenda := rfl
@[simp] theorem State.onPart_picked (s : State) (n : Nat) (f : Partition → Partition) : (s.onPart n f).picked = s.picked := rfl
@[simp] theorem State.onPart_ir (s : State) (n : Nat) (f : Partition → Partition) : (s.onPart n f).ir = s.ir := rfl
@[simp] theorem State.onPart_turn (s : State) (n : Nat) (f : Partition → Partition) : (s.onPart n f).turn = s.turn := rfl
@[simp] theorem State.onPart_steps (s : State) (n : Nat) (f : Partition → Partition) : (s.onPart n f).steps = s.steps := rfl
@[simp] theorem State.onPart_uid (s : State) (n : Nat) (f : Partition → Partition) : (s.onPart n f).uid = s.uid := rfl
@[simp] theorem State.onPart_boot (s : State) (n : Nat) (f : Partition → Partition) : (s.onPart n f).boot = s.boot := rfl
@[simp] theorem State.onPart_measures (s : State) (n : Nat) (f : Partition → Partition) : (s.onPart n f).measures = s.measures := rfl
@[simp] theorem State.onPart_zoneGiB (s : State) (n : Nat) (f : Partition → Partition) : (s.onPart n f).zoneGiB = s.zoneGiB := rfl
@[simp] theorem State.onPart_dead (s : State) (n : Nat) (f : Partition → Partition) : (s.onPart n f).dead = s.dead := rfl
@[simp] theorem State.onPart_down (s : State) (n : Nat) (f : Partition → Partition) : (s.onPart n f).down = s.down := rfl
@[simp] theorem State.onPart_tierSize (s : State) (n : Nat) (f : Partition → Partition) : (s.onPart n f).tierSize = s.tierSize := rfl
@[simp] theorem State.onPart_peers (s : State) (n : Nat) (f : Partition → Partition) : (s.onPart n f).peers = s.peers := rfl
@[simp] theorem State.onPart_rollback (s : State) (n : Nat) (f : Partition → Partition) : (s.onPart n f).rollback = s.rollback := rfl
@[simp] theorem State.onPart_tsc (s : State) (n : Nat) (f : Partition → Partition) : (s.onPart n f).tsc = s.tsc := rfl
@[simp] theorem State.onPart_fenced (s : State) (n : Nat) (f : Partition → Partition) : (s.onPart n f).fenced = s.fenced := rfl
@[simp] theorem State.onPart_msgs (s : State) (n : Nat) (f : Partition → Partition) : (s.onPart n f).msgs = s.msgs := rfl
@[simp] theorem State.onPart_seqs (s : State) (n : Nat) (f : Partition → Partition) : (s.onPart n f).seqs = s.seqs := rfl
@[simp] theorem State.onPart_looks (s : State) (n : Nat) (f : Partition → Partition) : (s.onPart n f).looks = s.looks := rfl
@[simp] theorem State.onPart_overtakes (s : State) (n : Nat) (f : Partition → Partition) : (s.onPart n f).overtakes = s.overtakes := rfl
@[simp] theorem State.onPart_flows (s : State) (n : Nat) (f : Partition → Partition) : (s.onPart n f).flows = s.flows := rfl
@[simp] theorem State.onPart_host (s : State) (n : Nat) (f : Partition → Partition) : (s.onPart n f).host = s.host := rfl
@[simp] theorem State.onPart_hostTime (s : State) (n : Nat) (f : Partition → Partition) : (s.onPart n f).hostTime = s.hostTime := rfl
@[simp] theorem State.onPart_ctxs (s : State) (n : Nat) (f : Partition → Partition) : (s.onPart n f).ctxs = s.ctxs := rfl
@[simp] theorem State.onPart_queues (s : State) (n : Nat) (f : Partition → Partition) : (s.onPart n f).queues = s.queues := rfl
@[simp] theorem State.onPart_launches (s : State) (n : Nat) (f : Partition → Partition) : (s.onPart n f).launches = s.launches := rfl
@[simp] theorem State.onPart_blocks (s : State) (n : Nat) (f : Partition → Partition) : (s.onPart n f).blocks = s.blocks := rfl
@[simp] theorem State.onPart_spans (s : State) (n : Nat) (f : Partition → Partition) : (s.onPart n f).spans = s.spans := rfl
@[simp] theorem State.onPart_saved (s : State) (n : Nat) (f : Partition → Partition) : (s.onPart n f).saved = s.saved := rfl
@[simp] theorem State.onPart_bars (s : State) (n : Nat) (f : Partition → Partition) : (s.onPart n f).bars = s.bars := rfl
@[simp] theorem State.onPart_mem (s : State) (n : Nat) (f : Partition → Partition) : (s.onPart n f).mem = s.mem := rfl
@[simp] theorem State.onPart_tlb (s : State) (n : Nat) (f : Partition → Partition) : (s.onPart n f).tlb = s.tlb := rfl
@[simp] theorem State.onPart_l1 (s : State) (n : Nat) (f : Partition → Partition) : (s.onPart n f).l1 = s.l1 := rfl
@[simp] theorem State.onPart_icache (s : State) (n : Nat) (f : Partition → Partition) : (s.onPart n f).icache = s.icache := rfl
@[simp] theorem State.onPart_streams (s : State) (n : Nat) (f : Partition → Partition) : (s.onPart n f).streams = s.streams := rfl
@[simp] theorem State.onPart_demoted (s : State) (n : Nat) (f : Partition → Partition) : (s.onPart n f).demoted = s.demoted := rfl
@[simp] theorem State.onPart_lru (s : State) (n : Nat) (f : Partition → Partition) : (s.onPart n f).lru = s.lru := rfl
@[simp] theorem State.onPart_notices (s : State) (n : Nat) (f : Partition → Partition) : (s.onPart n f).notices = s.notices := rfl
@[simp] theorem State.onPart_moves (s : State) (n : Nat) (f : Partition → Partition) : (s.onPart n f).moves = s.moves := rfl
@[simp] theorem State.onPart_locked (s : State) (n : Nat) (f : Partition → Partition) : (s.onPart n f).locked = s.locked := rfl
@[simp] theorem State.onPart_shoots (s : State) (n : Nat) (f : Partition → Partition) : (s.onPart n f).shoots = s.shoots := rfl
@[simp] theorem State.onPart_shadows (s : State) (n : Nat) (f : Partition → Partition) : (s.onPart n f).shadows = s.shadows := rfl
@[simp] theorem State.onPart_deckq (s : State) (n : Nat) (f : Partition → Partition) : (s.onPart n f).deckq = s.deckq := rfl
@[simp] theorem State.onPart_planeq (s : State) (n : Nat) (f : Partition → Partition) : (s.onPart n f).planeq = s.planeq := rfl
@[simp] theorem State.onPart_engineAt (s : State) (n : Nat) (f : Partition → Partition) : (s.onPart n f).engineAt = s.engineAt := rfl
@[simp] theorem State.onPart_futs (s : State) (n : Nat) (f : Partition → Partition) : (s.onPart n f).futs = s.futs := rfl
@[simp] theorem State.onPart_refs (s : State) (n : Nat) (f : Partition → Partition) : (s.onPart n f).refs = s.refs := rfl
@[simp] theorem State.onPart_fmsgs (s : State) (n : Nat) (f : Partition → Partition) : (s.onPart n f).fmsgs = s.fmsgs := rfl
@[simp] theorem State.onPart_taskq (s : State) (n : Nat) (f : Partition → Partition) : (s.onPart n f).taskq = s.taskq := rfl
@[simp] theorem State.onPart_rings (s : State) (n : Nat) (f : Partition → Partition) : (s.onPart n f).rings = s.rings := rfl
@[simp] theorem State.onPart_berths (s : State) (n : Nat) (f : Partition → Partition) : (s.onPart n f).berths = s.berths := rfl
@[simp] theorem State.onPart_ctrs (s : State) (n : Nat) (f : Partition → Partition) : (s.onPart n f).ctrs = s.ctrs := rfl
@[simp] theorem State.onPart_holds (s : State) (n : Nat) (f : Partition → Partition) : (s.onPart n f).holds = s.holds := rfl
@[simp] theorem State.onPart_ck (s : State) (n : Nat) (f : Partition → Partition) : (s.onPart n f).ck = s.ck := rfl
@[simp] theorem State.onPart_ckpts (s : State) (n : Nat) (f : Partition → Partition) : (s.onPart n f).ckpts = s.ckpts := rfl
@[simp] theorem State.onPart_kept (s : State) (n : Nat) (f : Partition → Partition) : (s.onPart n f).kept = s.kept := rfl
@[simp] theorem State.onPart_ckGuard (s : State) (n : Nat) (f : Partition → Partition) : (s.onPart n f).ckGuard = s.ckGuard := rfl
@[simp] theorem State.onPart_out (s : State) (n : Nat) (f : Partition → Partition) : (s.onPart n f).out = s.out := rfl

/-! write: bytes of memory are written, and nothing else. -/

@[simp] theorem State.write_agenda (s : State) (k : Nat) (bs : List Byte) : (s.write k bs).agenda = s.agenda := rfl
@[simp] theorem State.write_picked (s : State) (k : Nat) (bs : List Byte) : (s.write k bs).picked = s.picked := rfl
@[simp] theorem State.write_ir (s : State) (k : Nat) (bs : List Byte) : (s.write k bs).ir = s.ir := rfl
@[simp] theorem State.write_turn (s : State) (k : Nat) (bs : List Byte) : (s.write k bs).turn = s.turn := rfl
@[simp] theorem State.write_steps (s : State) (k : Nat) (bs : List Byte) : (s.write k bs).steps = s.steps := rfl
@[simp] theorem State.write_uid (s : State) (k : Nat) (bs : List Byte) : (s.write k bs).uid = s.uid := rfl
@[simp] theorem State.write_boot (s : State) (k : Nat) (bs : List Byte) : (s.write k bs).boot = s.boot := rfl
@[simp] theorem State.write_measures (s : State) (k : Nat) (bs : List Byte) : (s.write k bs).measures = s.measures := rfl
@[simp] theorem State.write_zoneGiB (s : State) (k : Nat) (bs : List Byte) : (s.write k bs).zoneGiB = s.zoneGiB := rfl
@[simp] theorem State.write_dead (s : State) (k : Nat) (bs : List Byte) : (s.write k bs).dead = s.dead := rfl
@[simp] theorem State.write_down (s : State) (k : Nat) (bs : List Byte) : (s.write k bs).down = s.down := rfl
@[simp] theorem State.write_tierSize (s : State) (k : Nat) (bs : List Byte) : (s.write k bs).tierSize = s.tierSize := rfl
@[simp] theorem State.write_peers (s : State) (k : Nat) (bs : List Byte) : (s.write k bs).peers = s.peers := rfl
@[simp] theorem State.write_rollback (s : State) (k : Nat) (bs : List Byte) : (s.write k bs).rollback = s.rollback := rfl
@[simp] theorem State.write_tsc (s : State) (k : Nat) (bs : List Byte) : (s.write k bs).tsc = s.tsc := rfl
@[simp] theorem State.write_fenced (s : State) (k : Nat) (bs : List Byte) : (s.write k bs).fenced = s.fenced := rfl
@[simp] theorem State.write_msgs (s : State) (k : Nat) (bs : List Byte) : (s.write k bs).msgs = s.msgs := rfl
@[simp] theorem State.write_seqs (s : State) (k : Nat) (bs : List Byte) : (s.write k bs).seqs = s.seqs := rfl
@[simp] theorem State.write_looks (s : State) (k : Nat) (bs : List Byte) : (s.write k bs).looks = s.looks := rfl
@[simp] theorem State.write_overtakes (s : State) (k : Nat) (bs : List Byte) : (s.write k bs).overtakes = s.overtakes := rfl
@[simp] theorem State.write_flows (s : State) (k : Nat) (bs : List Byte) : (s.write k bs).flows = s.flows := rfl
@[simp] theorem State.write_host (s : State) (k : Nat) (bs : List Byte) : (s.write k bs).host = s.host := rfl
@[simp] theorem State.write_hostTime (s : State) (k : Nat) (bs : List Byte) : (s.write k bs).hostTime = s.hostTime := rfl
@[simp] theorem State.write_parts (s : State) (k : Nat) (bs : List Byte) : (s.write k bs).parts = s.parts := rfl
@[simp] theorem State.write_ctxs (s : State) (k : Nat) (bs : List Byte) : (s.write k bs).ctxs = s.ctxs := rfl
@[simp] theorem State.write_queues (s : State) (k : Nat) (bs : List Byte) : (s.write k bs).queues = s.queues := rfl
@[simp] theorem State.write_launches (s : State) (k : Nat) (bs : List Byte) : (s.write k bs).launches = s.launches := rfl
@[simp] theorem State.write_blocks (s : State) (k : Nat) (bs : List Byte) : (s.write k bs).blocks = s.blocks := rfl
@[simp] theorem State.write_spans (s : State) (k : Nat) (bs : List Byte) : (s.write k bs).spans = s.spans := rfl
@[simp] theorem State.write_saved (s : State) (k : Nat) (bs : List Byte) : (s.write k bs).saved = s.saved := rfl
@[simp] theorem State.write_bars (s : State) (k : Nat) (bs : List Byte) : (s.write k bs).bars = s.bars := rfl
@[simp] theorem State.write_tlb (s : State) (k : Nat) (bs : List Byte) : (s.write k bs).tlb = s.tlb := rfl
@[simp] theorem State.write_l1 (s : State) (k : Nat) (bs : List Byte) : (s.write k bs).l1 = s.l1 := rfl
@[simp] theorem State.write_icache (s : State) (k : Nat) (bs : List Byte) : (s.write k bs).icache = s.icache := rfl
@[simp] theorem State.write_streams (s : State) (k : Nat) (bs : List Byte) : (s.write k bs).streams = s.streams := rfl
@[simp] theorem State.write_demoted (s : State) (k : Nat) (bs : List Byte) : (s.write k bs).demoted = s.demoted := rfl
@[simp] theorem State.write_lru (s : State) (k : Nat) (bs : List Byte) : (s.write k bs).lru = s.lru := rfl
@[simp] theorem State.write_notices (s : State) (k : Nat) (bs : List Byte) : (s.write k bs).notices = s.notices := rfl
@[simp] theorem State.write_moves (s : State) (k : Nat) (bs : List Byte) : (s.write k bs).moves = s.moves := rfl
@[simp] theorem State.write_locked (s : State) (k : Nat) (bs : List Byte) : (s.write k bs).locked = s.locked := rfl
@[simp] theorem State.write_shoots (s : State) (k : Nat) (bs : List Byte) : (s.write k bs).shoots = s.shoots := rfl
@[simp] theorem State.write_shadows (s : State) (k : Nat) (bs : List Byte) : (s.write k bs).shadows = s.shadows := rfl
@[simp] theorem State.write_deckq (s : State) (k : Nat) (bs : List Byte) : (s.write k bs).deckq = s.deckq := rfl
@[simp] theorem State.write_planeq (s : State) (k : Nat) (bs : List Byte) : (s.write k bs).planeq = s.planeq := rfl
@[simp] theorem State.write_engineAt (s : State) (k : Nat) (bs : List Byte) : (s.write k bs).engineAt = s.engineAt := rfl
@[simp] theorem State.write_futs (s : State) (k : Nat) (bs : List Byte) : (s.write k bs).futs = s.futs := rfl
@[simp] theorem State.write_refs (s : State) (k : Nat) (bs : List Byte) : (s.write k bs).refs = s.refs := rfl
@[simp] theorem State.write_fmsgs (s : State) (k : Nat) (bs : List Byte) : (s.write k bs).fmsgs = s.fmsgs := rfl
@[simp] theorem State.write_taskq (s : State) (k : Nat) (bs : List Byte) : (s.write k bs).taskq = s.taskq := rfl
@[simp] theorem State.write_rings (s : State) (k : Nat) (bs : List Byte) : (s.write k bs).rings = s.rings := rfl
@[simp] theorem State.write_berths (s : State) (k : Nat) (bs : List Byte) : (s.write k bs).berths = s.berths := rfl
@[simp] theorem State.write_ctrs (s : State) (k : Nat) (bs : List Byte) : (s.write k bs).ctrs = s.ctrs := rfl
@[simp] theorem State.write_holds (s : State) (k : Nat) (bs : List Byte) : (s.write k bs).holds = s.holds := rfl
@[simp] theorem State.write_ck (s : State) (k : Nat) (bs : List Byte) : (s.write k bs).ck = s.ck := rfl
@[simp] theorem State.write_ckpts (s : State) (k : Nat) (bs : List Byte) : (s.write k bs).ckpts = s.ckpts := rfl
@[simp] theorem State.write_kept (s : State) (k : Nat) (bs : List Byte) : (s.write k bs).kept = s.kept := rfl
@[simp] theorem State.write_ckGuard (s : State) (k : Nat) (bs : List Byte) : (s.write k bs).ckGuard = s.ckGuard := rfl
@[simp] theorem State.write_out (s : State) (k : Nat) (bs : List Byte) : (s.write k bs).out = s.out := rfl

/-! addCtr: a stall counter grows, and nothing else. -/

@[simp] theorem State.addCtr_agenda (s : State) (key : Nat) (x : Word) : (s.addCtr key x).agenda = s.agenda := rfl
@[simp] theorem State.addCtr_picked (s : State) (key : Nat) (x : Word) : (s.addCtr key x).picked = s.picked := rfl
@[simp] theorem State.addCtr_ir (s : State) (key : Nat) (x : Word) : (s.addCtr key x).ir = s.ir := rfl
@[simp] theorem State.addCtr_turn (s : State) (key : Nat) (x : Word) : (s.addCtr key x).turn = s.turn := rfl
@[simp] theorem State.addCtr_steps (s : State) (key : Nat) (x : Word) : (s.addCtr key x).steps = s.steps := rfl
@[simp] theorem State.addCtr_uid (s : State) (key : Nat) (x : Word) : (s.addCtr key x).uid = s.uid := rfl
@[simp] theorem State.addCtr_boot (s : State) (key : Nat) (x : Word) : (s.addCtr key x).boot = s.boot := rfl
@[simp] theorem State.addCtr_measures (s : State) (key : Nat) (x : Word) : (s.addCtr key x).measures = s.measures := rfl
@[simp] theorem State.addCtr_zoneGiB (s : State) (key : Nat) (x : Word) : (s.addCtr key x).zoneGiB = s.zoneGiB := rfl
@[simp] theorem State.addCtr_dead (s : State) (key : Nat) (x : Word) : (s.addCtr key x).dead = s.dead := rfl
@[simp] theorem State.addCtr_down (s : State) (key : Nat) (x : Word) : (s.addCtr key x).down = s.down := rfl
@[simp] theorem State.addCtr_tierSize (s : State) (key : Nat) (x : Word) : (s.addCtr key x).tierSize = s.tierSize := rfl
@[simp] theorem State.addCtr_peers (s : State) (key : Nat) (x : Word) : (s.addCtr key x).peers = s.peers := rfl
@[simp] theorem State.addCtr_rollback (s : State) (key : Nat) (x : Word) : (s.addCtr key x).rollback = s.rollback := rfl
@[simp] theorem State.addCtr_tsc (s : State) (key : Nat) (x : Word) : (s.addCtr key x).tsc = s.tsc := rfl
@[simp] theorem State.addCtr_fenced (s : State) (key : Nat) (x : Word) : (s.addCtr key x).fenced = s.fenced := rfl
@[simp] theorem State.addCtr_msgs (s : State) (key : Nat) (x : Word) : (s.addCtr key x).msgs = s.msgs := rfl
@[simp] theorem State.addCtr_seqs (s : State) (key : Nat) (x : Word) : (s.addCtr key x).seqs = s.seqs := rfl
@[simp] theorem State.addCtr_looks (s : State) (key : Nat) (x : Word) : (s.addCtr key x).looks = s.looks := rfl
@[simp] theorem State.addCtr_overtakes (s : State) (key : Nat) (x : Word) : (s.addCtr key x).overtakes = s.overtakes := rfl
@[simp] theorem State.addCtr_flows (s : State) (key : Nat) (x : Word) : (s.addCtr key x).flows = s.flows := rfl
@[simp] theorem State.addCtr_host (s : State) (key : Nat) (x : Word) : (s.addCtr key x).host = s.host := rfl
@[simp] theorem State.addCtr_hostTime (s : State) (key : Nat) (x : Word) : (s.addCtr key x).hostTime = s.hostTime := rfl
@[simp] theorem State.addCtr_parts (s : State) (key : Nat) (x : Word) : (s.addCtr key x).parts = s.parts := rfl
@[simp] theorem State.addCtr_ctxs (s : State) (key : Nat) (x : Word) : (s.addCtr key x).ctxs = s.ctxs := rfl
@[simp] theorem State.addCtr_queues (s : State) (key : Nat) (x : Word) : (s.addCtr key x).queues = s.queues := rfl
@[simp] theorem State.addCtr_launches (s : State) (key : Nat) (x : Word) : (s.addCtr key x).launches = s.launches := rfl
@[simp] theorem State.addCtr_blocks (s : State) (key : Nat) (x : Word) : (s.addCtr key x).blocks = s.blocks := rfl
@[simp] theorem State.addCtr_spans (s : State) (key : Nat) (x : Word) : (s.addCtr key x).spans = s.spans := rfl
@[simp] theorem State.addCtr_saved (s : State) (key : Nat) (x : Word) : (s.addCtr key x).saved = s.saved := rfl
@[simp] theorem State.addCtr_bars (s : State) (key : Nat) (x : Word) : (s.addCtr key x).bars = s.bars := rfl
@[simp] theorem State.addCtr_mem (s : State) (key : Nat) (x : Word) : (s.addCtr key x).mem = s.mem := rfl
@[simp] theorem State.addCtr_tlb (s : State) (key : Nat) (x : Word) : (s.addCtr key x).tlb = s.tlb := rfl
@[simp] theorem State.addCtr_l1 (s : State) (key : Nat) (x : Word) : (s.addCtr key x).l1 = s.l1 := rfl
@[simp] theorem State.addCtr_icache (s : State) (key : Nat) (x : Word) : (s.addCtr key x).icache = s.icache := rfl
@[simp] theorem State.addCtr_streams (s : State) (key : Nat) (x : Word) : (s.addCtr key x).streams = s.streams := rfl
@[simp] theorem State.addCtr_demoted (s : State) (key : Nat) (x : Word) : (s.addCtr key x).demoted = s.demoted := rfl
@[simp] theorem State.addCtr_lru (s : State) (key : Nat) (x : Word) : (s.addCtr key x).lru = s.lru := rfl
@[simp] theorem State.addCtr_notices (s : State) (key : Nat) (x : Word) : (s.addCtr key x).notices = s.notices := rfl
@[simp] theorem State.addCtr_moves (s : State) (key : Nat) (x : Word) : (s.addCtr key x).moves = s.moves := rfl
@[simp] theorem State.addCtr_locked (s : State) (key : Nat) (x : Word) : (s.addCtr key x).locked = s.locked := rfl
@[simp] theorem State.addCtr_shoots (s : State) (key : Nat) (x : Word) : (s.addCtr key x).shoots = s.shoots := rfl
@[simp] theorem State.addCtr_shadows (s : State) (key : Nat) (x : Word) : (s.addCtr key x).shadows = s.shadows := rfl
@[simp] theorem State.addCtr_deckq (s : State) (key : Nat) (x : Word) : (s.addCtr key x).deckq = s.deckq := rfl
@[simp] theorem State.addCtr_planeq (s : State) (key : Nat) (x : Word) : (s.addCtr key x).planeq = s.planeq := rfl
@[simp] theorem State.addCtr_engineAt (s : State) (key : Nat) (x : Word) : (s.addCtr key x).engineAt = s.engineAt := rfl
@[simp] theorem State.addCtr_futs (s : State) (key : Nat) (x : Word) : (s.addCtr key x).futs = s.futs := rfl
@[simp] theorem State.addCtr_refs (s : State) (key : Nat) (x : Word) : (s.addCtr key x).refs = s.refs := rfl
@[simp] theorem State.addCtr_fmsgs (s : State) (key : Nat) (x : Word) : (s.addCtr key x).fmsgs = s.fmsgs := rfl
@[simp] theorem State.addCtr_taskq (s : State) (key : Nat) (x : Word) : (s.addCtr key x).taskq = s.taskq := rfl
@[simp] theorem State.addCtr_rings (s : State) (key : Nat) (x : Word) : (s.addCtr key x).rings = s.rings := rfl
@[simp] theorem State.addCtr_berths (s : State) (key : Nat) (x : Word) : (s.addCtr key x).berths = s.berths := rfl
@[simp] theorem State.addCtr_holds (s : State) (key : Nat) (x : Word) : (s.addCtr key x).holds = s.holds := rfl
@[simp] theorem State.addCtr_ck (s : State) (key : Nat) (x : Word) : (s.addCtr key x).ck = s.ck := rfl
@[simp] theorem State.addCtr_ckpts (s : State) (key : Nat) (x : Word) : (s.addCtr key x).ckpts = s.ckpts := rfl
@[simp] theorem State.addCtr_kept (s : State) (key : Nat) (x : Word) : (s.addCtr key x).kept = s.kept := rfl
@[simp] theorem State.addCtr_ckGuard (s : State) (key : Nat) (x : Word) : (s.addCtr key x).ckGuard = s.ckGuard := rfl
@[simp] theorem State.addCtr_out (s : State) (key : Nat) (x : Word) : (s.addCtr key x).out = s.out := rfl

/-! countStalls and tick: stall counters grow, time passes; nothing else. -/

theorem State.countStalls_eq (s : State) : ∃ c, s.countStalls = { s with ctrs := c } := by
  unfold State.countStalls
  generalize s.stallCauses = cs
  suffices h : ∀ t : State, (∃ c, t = { s with ctrs := c }) →
      ∃ c, cs.foldl (fun t c => t.addCtr (ctrKey c.1 c.2.1 c.2.2) (Config.stallCycles c.1 c.2.2 s.steps)) t = { s with ctrs := c } from h s ⟨_, rfl⟩
  induction cs with
  | nil => exact fun t h => h
  | cons a r ih => rintro _ ⟨c, rfl⟩; exact ih _ ⟨_, rfl⟩

@[simp] theorem State.tick_agenda (s : State) : s.tick.agenda = s.agenda := by obtain ⟨c, h⟩ := s.countStalls_eq; simp [State.tick, h]
@[simp] theorem State.tick_picked (s : State) : s.tick.picked = s.picked := by obtain ⟨c, h⟩ := s.countStalls_eq; simp [State.tick, h]
@[simp] theorem State.tick_ir (s : State) : s.tick.ir = s.ir := by obtain ⟨c, h⟩ := s.countStalls_eq; simp [State.tick, h]
@[simp] theorem State.tick_turn (s : State) : s.tick.turn = s.turn := by obtain ⟨c, h⟩ := s.countStalls_eq; simp [State.tick, h]
@[simp] theorem State.tick_uid (s : State) : s.tick.uid = s.uid := by obtain ⟨c, h⟩ := s.countStalls_eq; simp [State.tick, h]
@[simp] theorem State.tick_boot (s : State) : s.tick.boot = s.boot := by obtain ⟨c, h⟩ := s.countStalls_eq; simp [State.tick, h]
@[simp] theorem State.tick_measures (s : State) : s.tick.measures = s.measures := by obtain ⟨c, h⟩ := s.countStalls_eq; simp [State.tick, h]
@[simp] theorem State.tick_zoneGiB (s : State) : s.tick.zoneGiB = s.zoneGiB := by obtain ⟨c, h⟩ := s.countStalls_eq; simp [State.tick, h]
@[simp] theorem State.tick_dead (s : State) : s.tick.dead = s.dead := by obtain ⟨c, h⟩ := s.countStalls_eq; simp [State.tick, h]
@[simp] theorem State.tick_down (s : State) : s.tick.down = s.down := by obtain ⟨c, h⟩ := s.countStalls_eq; simp [State.tick, h]
@[simp] theorem State.tick_tierSize (s : State) : s.tick.tierSize = s.tierSize := by obtain ⟨c, h⟩ := s.countStalls_eq; simp [State.tick, h]
@[simp] theorem State.tick_peers (s : State) : s.tick.peers = s.peers := by obtain ⟨c, h⟩ := s.countStalls_eq; simp [State.tick, h]
@[simp] theorem State.tick_rollback (s : State) : s.tick.rollback = s.rollback := by obtain ⟨c, h⟩ := s.countStalls_eq; simp [State.tick, h]
@[simp] theorem State.tick_fenced (s : State) : s.tick.fenced = s.fenced := by obtain ⟨c, h⟩ := s.countStalls_eq; simp [State.tick, h]
@[simp] theorem State.tick_msgs (s : State) : s.tick.msgs = s.msgs := by obtain ⟨c, h⟩ := s.countStalls_eq; simp [State.tick, h]
@[simp] theorem State.tick_seqs (s : State) : s.tick.seqs = s.seqs := by obtain ⟨c, h⟩ := s.countStalls_eq; simp [State.tick, h]
@[simp] theorem State.tick_looks (s : State) : s.tick.looks = s.looks := by obtain ⟨c, h⟩ := s.countStalls_eq; simp [State.tick, h]
@[simp] theorem State.tick_overtakes (s : State) : s.tick.overtakes = s.overtakes := by obtain ⟨c, h⟩ := s.countStalls_eq; simp [State.tick, h]
@[simp] theorem State.tick_flows (s : State) : s.tick.flows = s.flows := by obtain ⟨c, h⟩ := s.countStalls_eq; simp [State.tick, h]
@[simp] theorem State.tick_host (s : State) : s.tick.host = s.host := by obtain ⟨c, h⟩ := s.countStalls_eq; simp [State.tick, h]
@[simp] theorem State.tick_hostTime (s : State) : s.tick.hostTime = s.hostTime := by obtain ⟨c, h⟩ := s.countStalls_eq; simp [State.tick, h]
@[simp] theorem State.tick_parts (s : State) : s.tick.parts = s.parts := by obtain ⟨c, h⟩ := s.countStalls_eq; simp [State.tick, h]
@[simp] theorem State.tick_ctxs (s : State) : s.tick.ctxs = s.ctxs := by obtain ⟨c, h⟩ := s.countStalls_eq; simp [State.tick, h]
@[simp] theorem State.tick_queues (s : State) : s.tick.queues = s.queues := by obtain ⟨c, h⟩ := s.countStalls_eq; simp [State.tick, h]
@[simp] theorem State.tick_launches (s : State) : s.tick.launches = s.launches := by obtain ⟨c, h⟩ := s.countStalls_eq; simp [State.tick, h]
@[simp] theorem State.tick_blocks (s : State) : s.tick.blocks = s.blocks := by obtain ⟨c, h⟩ := s.countStalls_eq; simp [State.tick, h]
@[simp] theorem State.tick_spans (s : State) : s.tick.spans = s.spans := by obtain ⟨c, h⟩ := s.countStalls_eq; simp [State.tick, h]
@[simp] theorem State.tick_saved (s : State) : s.tick.saved = s.saved := by obtain ⟨c, h⟩ := s.countStalls_eq; simp [State.tick, h]
@[simp] theorem State.tick_bars (s : State) : s.tick.bars = s.bars := by obtain ⟨c, h⟩ := s.countStalls_eq; simp [State.tick, h]
@[simp] theorem State.tick_mem (s : State) : s.tick.mem = s.mem := by obtain ⟨c, h⟩ := s.countStalls_eq; simp [State.tick, h]
@[simp] theorem State.tick_tlb (s : State) : s.tick.tlb = s.tlb := by obtain ⟨c, h⟩ := s.countStalls_eq; simp [State.tick, h]
@[simp] theorem State.tick_l1 (s : State) : s.tick.l1 = s.l1 := by obtain ⟨c, h⟩ := s.countStalls_eq; simp [State.tick, h]
@[simp] theorem State.tick_icache (s : State) : s.tick.icache = s.icache := by obtain ⟨c, h⟩ := s.countStalls_eq; simp [State.tick, h]
@[simp] theorem State.tick_streams (s : State) : s.tick.streams = s.streams := by obtain ⟨c, h⟩ := s.countStalls_eq; simp [State.tick, h]
@[simp] theorem State.tick_demoted (s : State) : s.tick.demoted = s.demoted := by obtain ⟨c, h⟩ := s.countStalls_eq; simp [State.tick, h]
@[simp] theorem State.tick_lru (s : State) : s.tick.lru = s.lru := by obtain ⟨c, h⟩ := s.countStalls_eq; simp [State.tick, h]
@[simp] theorem State.tick_notices (s : State) : s.tick.notices = s.notices := by obtain ⟨c, h⟩ := s.countStalls_eq; simp [State.tick, h]
@[simp] theorem State.tick_moves (s : State) : s.tick.moves = s.moves := by obtain ⟨c, h⟩ := s.countStalls_eq; simp [State.tick, h]
@[simp] theorem State.tick_locked (s : State) : s.tick.locked = s.locked := by obtain ⟨c, h⟩ := s.countStalls_eq; simp [State.tick, h]
@[simp] theorem State.tick_shoots (s : State) : s.tick.shoots = s.shoots := by obtain ⟨c, h⟩ := s.countStalls_eq; simp [State.tick, h]
@[simp] theorem State.tick_shadows (s : State) : s.tick.shadows = s.shadows := by obtain ⟨c, h⟩ := s.countStalls_eq; simp [State.tick, h]
@[simp] theorem State.tick_deckq (s : State) : s.tick.deckq = s.deckq := by obtain ⟨c, h⟩ := s.countStalls_eq; simp [State.tick, h]
@[simp] theorem State.tick_planeq (s : State) : s.tick.planeq = s.planeq := by obtain ⟨c, h⟩ := s.countStalls_eq; simp [State.tick, h]
@[simp] theorem State.tick_engineAt (s : State) : s.tick.engineAt = s.engineAt := by obtain ⟨c, h⟩ := s.countStalls_eq; simp [State.tick, h]
@[simp] theorem State.tick_futs (s : State) : s.tick.futs = s.futs := by obtain ⟨c, h⟩ := s.countStalls_eq; simp [State.tick, h]
@[simp] theorem State.tick_refs (s : State) : s.tick.refs = s.refs := by obtain ⟨c, h⟩ := s.countStalls_eq; simp [State.tick, h]
@[simp] theorem State.tick_fmsgs (s : State) : s.tick.fmsgs = s.fmsgs := by obtain ⟨c, h⟩ := s.countStalls_eq; simp [State.tick, h]
@[simp] theorem State.tick_taskq (s : State) : s.tick.taskq = s.taskq := by obtain ⟨c, h⟩ := s.countStalls_eq; simp [State.tick, h]
@[simp] theorem State.tick_rings (s : State) : s.tick.rings = s.rings := by obtain ⟨c, h⟩ := s.countStalls_eq; simp [State.tick, h]
@[simp] theorem State.tick_berths (s : State) : s.tick.berths = s.berths := by obtain ⟨c, h⟩ := s.countStalls_eq; simp [State.tick, h]
@[simp] theorem State.tick_holds (s : State) : s.tick.holds = s.holds := by obtain ⟨c, h⟩ := s.countStalls_eq; simp [State.tick, h]
@[simp] theorem State.tick_ck (s : State) : s.tick.ck = s.ck := by obtain ⟨c, h⟩ := s.countStalls_eq; simp [State.tick, h]
@[simp] theorem State.tick_ckpts (s : State) : s.tick.ckpts = s.ckpts := by obtain ⟨c, h⟩ := s.countStalls_eq; simp [State.tick, h]
@[simp] theorem State.tick_kept (s : State) : s.tick.kept = s.kept := by obtain ⟨c, h⟩ := s.countStalls_eq; simp [State.tick, h]
@[simp] theorem State.tick_ckGuard (s : State) : s.tick.ckGuard = s.ckGuard := by obtain ⟨c, h⟩ := s.countStalls_eq; simp [State.tick, h]
@[simp] theorem State.tick_out (s : State) : s.tick.out = s.out := by obtain ⟨c, h⟩ := s.countStalls_eq; simp [State.tick, h]

/-! poke: bytes of memory are written, the spans that watch their lines see it, the releases on them are hidden, the copies of their lines miss it; nothing else. -/

@[simp] theorem State.poke_agenda (s : State) (k : Nat) (bs : List Byte) : (s.poke k bs).agenda = s.agenda := by unfold State.poke; split <;> rfl
@[simp] theorem State.poke_picked (s : State) (k : Nat) (bs : List Byte) : (s.poke k bs).picked = s.picked := by unfold State.poke; split <;> rfl
@[simp] theorem State.poke_ir (s : State) (k : Nat) (bs : List Byte) : (s.poke k bs).ir = s.ir := by unfold State.poke; split <;> rfl
@[simp] theorem State.poke_turn (s : State) (k : Nat) (bs : List Byte) : (s.poke k bs).turn = s.turn := by unfold State.poke; split <;> rfl
@[simp] theorem State.poke_steps (s : State) (k : Nat) (bs : List Byte) : (s.poke k bs).steps = s.steps := by unfold State.poke; split <;> rfl
@[simp] theorem State.poke_uid (s : State) (k : Nat) (bs : List Byte) : (s.poke k bs).uid = s.uid := by unfold State.poke; split <;> rfl
@[simp] theorem State.poke_boot (s : State) (k : Nat) (bs : List Byte) : (s.poke k bs).boot = s.boot := by unfold State.poke; split <;> rfl
@[simp] theorem State.poke_measures (s : State) (k : Nat) (bs : List Byte) : (s.poke k bs).measures = s.measures := by unfold State.poke; split <;> rfl
@[simp] theorem State.poke_zoneGiB (s : State) (k : Nat) (bs : List Byte) : (s.poke k bs).zoneGiB = s.zoneGiB := by unfold State.poke; split <;> rfl
@[simp] theorem State.poke_dead (s : State) (k : Nat) (bs : List Byte) : (s.poke k bs).dead = s.dead := by unfold State.poke; split <;> rfl
@[simp] theorem State.poke_down (s : State) (k : Nat) (bs : List Byte) : (s.poke k bs).down = s.down := by unfold State.poke; split <;> rfl
@[simp] theorem State.poke_tierSize (s : State) (k : Nat) (bs : List Byte) : (s.poke k bs).tierSize = s.tierSize := by unfold State.poke; split <;> rfl
@[simp] theorem State.poke_peers (s : State) (k : Nat) (bs : List Byte) : (s.poke k bs).peers = s.peers := by unfold State.poke; split <;> rfl
@[simp] theorem State.poke_rollback (s : State) (k : Nat) (bs : List Byte) : (s.poke k bs).rollback = s.rollback := by unfold State.poke; split <;> rfl
@[simp] theorem State.poke_tsc (s : State) (k : Nat) (bs : List Byte) : (s.poke k bs).tsc = s.tsc := by unfold State.poke; split <;> rfl
@[simp] theorem State.poke_fenced (s : State) (k : Nat) (bs : List Byte) : (s.poke k bs).fenced = s.fenced := by unfold State.poke; split <;> rfl
@[simp] theorem State.poke_seqs (s : State) (k : Nat) (bs : List Byte) : (s.poke k bs).seqs = s.seqs := by unfold State.poke; split <;> rfl
@[simp] theorem State.poke_looks (s : State) (k : Nat) (bs : List Byte) : (s.poke k bs).looks = s.looks := by unfold State.poke; split <;> rfl
@[simp] theorem State.poke_overtakes (s : State) (k : Nat) (bs : List Byte) : (s.poke k bs).overtakes = s.overtakes := by unfold State.poke; split <;> rfl
@[simp] theorem State.poke_flows (s : State) (k : Nat) (bs : List Byte) : (s.poke k bs).flows = s.flows := by unfold State.poke; split <;> rfl
@[simp] theorem State.poke_host (s : State) (k : Nat) (bs : List Byte) : (s.poke k bs).host = s.host := by unfold State.poke; split <;> rfl
@[simp] theorem State.poke_hostTime (s : State) (k : Nat) (bs : List Byte) : (s.poke k bs).hostTime = s.hostTime := by unfold State.poke; split <;> rfl
@[simp] theorem State.poke_parts (s : State) (k : Nat) (bs : List Byte) : (s.poke k bs).parts = s.parts := by unfold State.poke; split <;> rfl
@[simp] theorem State.poke_ctxs (s : State) (k : Nat) (bs : List Byte) : (s.poke k bs).ctxs = s.ctxs := by unfold State.poke; split <;> rfl
@[simp] theorem State.poke_queues (s : State) (k : Nat) (bs : List Byte) : (s.poke k bs).queues = s.queues := by unfold State.poke; split <;> rfl
@[simp] theorem State.poke_launches (s : State) (k : Nat) (bs : List Byte) : (s.poke k bs).launches = s.launches := by unfold State.poke; split <;> rfl
@[simp] theorem State.poke_blocks (s : State) (k : Nat) (bs : List Byte) : (s.poke k bs).blocks = s.blocks := by unfold State.poke; split <;> rfl
@[simp] theorem State.poke_saved (s : State) (k : Nat) (bs : List Byte) : (s.poke k bs).saved = s.saved := by unfold State.poke; split <;> rfl
@[simp] theorem State.poke_bars (s : State) (k : Nat) (bs : List Byte) : (s.poke k bs).bars = s.bars := by unfold State.poke; split <;> rfl
@[simp] theorem State.poke_tlb (s : State) (k : Nat) (bs : List Byte) : (s.poke k bs).tlb = s.tlb := by unfold State.poke; split <;> rfl
@[simp] theorem State.poke_icache (s : State) (k : Nat) (bs : List Byte) : (s.poke k bs).icache = s.icache := by unfold State.poke; split <;> rfl
@[simp] theorem State.poke_streams (s : State) (k : Nat) (bs : List Byte) : (s.poke k bs).streams = s.streams := by unfold State.poke; split <;> rfl
@[simp] theorem State.poke_demoted (s : State) (k : Nat) (bs : List Byte) : (s.poke k bs).demoted = s.demoted := by unfold State.poke; split <;> rfl
@[simp] theorem State.poke_lru (s : State) (k : Nat) (bs : List Byte) : (s.poke k bs).lru = s.lru := by unfold State.poke; split <;> rfl
@[simp] theorem State.poke_notices (s : State) (k : Nat) (bs : List Byte) : (s.poke k bs).notices = s.notices := by unfold State.poke; split <;> rfl
@[simp] theorem State.poke_moves (s : State) (k : Nat) (bs : List Byte) : (s.poke k bs).moves = s.moves := by unfold State.poke; split <;> rfl
@[simp] theorem State.poke_locked (s : State) (k : Nat) (bs : List Byte) : (s.poke k bs).locked = s.locked := by unfold State.poke; split <;> rfl
@[simp] theorem State.poke_shoots (s : State) (k : Nat) (bs : List Byte) : (s.poke k bs).shoots = s.shoots := by unfold State.poke; split <;> rfl
@[simp] theorem State.poke_shadows (s : State) (k : Nat) (bs : List Byte) : (s.poke k bs).shadows = s.shadows := by unfold State.poke; split <;> rfl
@[simp] theorem State.poke_deckq (s : State) (k : Nat) (bs : List Byte) : (s.poke k bs).deckq = s.deckq := by unfold State.poke; split <;> rfl
@[simp] theorem State.poke_planeq (s : State) (k : Nat) (bs : List Byte) : (s.poke k bs).planeq = s.planeq := by unfold State.poke; split <;> rfl
@[simp] theorem State.poke_engineAt (s : State) (k : Nat) (bs : List Byte) : (s.poke k bs).engineAt = s.engineAt := by unfold State.poke; split <;> rfl
@[simp] theorem State.poke_futs (s : State) (k : Nat) (bs : List Byte) : (s.poke k bs).futs = s.futs := by unfold State.poke; split <;> rfl
@[simp] theorem State.poke_refs (s : State) (k : Nat) (bs : List Byte) : (s.poke k bs).refs = s.refs := by unfold State.poke; split <;> rfl
@[simp] theorem State.poke_fmsgs (s : State) (k : Nat) (bs : List Byte) : (s.poke k bs).fmsgs = s.fmsgs := by unfold State.poke; split <;> rfl
@[simp] theorem State.poke_taskq (s : State) (k : Nat) (bs : List Byte) : (s.poke k bs).taskq = s.taskq := by unfold State.poke; split <;> rfl
@[simp] theorem State.poke_rings (s : State) (k : Nat) (bs : List Byte) : (s.poke k bs).rings = s.rings := by unfold State.poke; split <;> rfl
@[simp] theorem State.poke_berths (s : State) (k : Nat) (bs : List Byte) : (s.poke k bs).berths = s.berths := by unfold State.poke; split <;> rfl
@[simp] theorem State.poke_ctrs (s : State) (k : Nat) (bs : List Byte) : (s.poke k bs).ctrs = s.ctrs := by unfold State.poke; split <;> rfl
@[simp] theorem State.poke_holds (s : State) (k : Nat) (bs : List Byte) : (s.poke k bs).holds = s.holds := by unfold State.poke; split <;> rfl
@[simp] theorem State.poke_ck (s : State) (k : Nat) (bs : List Byte) : (s.poke k bs).ck = s.ck := by unfold State.poke; split <;> rfl
@[simp] theorem State.poke_ckpts (s : State) (k : Nat) (bs : List Byte) : (s.poke k bs).ckpts = s.ckpts := by unfold State.poke; split <;> rfl
@[simp] theorem State.poke_kept (s : State) (k : Nat) (bs : List Byte) : (s.poke k bs).kept = s.kept := by unfold State.poke; split <;> rfl
@[simp] theorem State.poke_ckGuard (s : State) (k : Nat) (bs : List Byte) : (s.poke k bs).ckGuard = s.ckGuard := by unfold State.poke; split <;> rfl
@[simp] theorem State.poke_out (s : State) (k : Nat) (bs : List Byte) : (s.poke k bs).out = s.out := by unfold State.poke; split <;> rfl

/-! A lane of a span. -/

@[simp] theorem Span.onLane_id (sp : Span) (l : Nat) (f : Lane → Lane) : (sp.onLane l f).id = sp.id := rfl
@[simp] theorem Span.onLane_uid (sp : Span) (l : Nat) (f : Lane → Lane) : (sp.onLane l f).uid = sp.uid := rfl
@[simp] theorem Span.onLane_sregs (sp : Span) (l : Nat) (f : Lane → Lane) : (sp.onLane l f).sregs = sp.sregs := rfl
@[simp] theorem Span.onLane_vregs (sp : Span) (l : Nat) (f : Lane → Lane) : (sp.onLane l f).vregs = sp.vregs := rfl
@[simp] theorem Span.onLane_qs (sp : Span) (l : Nat) (f : Lane → Lane) : (sp.onLane l f).qs = sp.qs := rfl
@[simp] theorem Span.onLane_landing (sp : Span) (l : Nat) (f : Lane → Lane) : (sp.onLane l f).landing = sp.landing := rfl
@[simp] theorem Span.onLane_cause (sp : Span) (l : Nat) (f : Lane → Lane) : (sp.onLane l f).cause = sp.cause := rfl
@[simp] theorem Span.onLane_hmode (sp : Span) (l : Nat) (f : Lane → Lane) : (sp.onLane l f).hmode = sp.hmode := rfl

end Sys2Proof.Machine
end

