-- ==== Sys2Proof/Tests/Slice0.lean ====
section
/-! SUPPORT. The tests of the model, and for every statement with hypotheses a state and operands that meet them. The expected
values are the manual's own (its worked examples and tables) or are calculated by hand from its rules. -/

namespace Sys2Proof.Tests

open Machine

/-! The theorems here are checked one after another: each is a long evaluation, and they would otherwise all be under way at once. -/
set_option Elab.async false

/-! A small device: one partition that owns every pier, one context with a handler, one launch of one block with one span on pier 0.
Its page table maps the code at 0x10000, data at 0x20000 (in the TLBs) and 0x60000 (not there), a page that is away at 0x30000, and
nothing at 0x40000. -/

def leafAt (loc frame : Nat) : Word := BitVec.ofNat 64 (2 ^ 62 * loc + 2 ^ 59 + frame + 0x61F)

def tables : List Host.Cell :=
  ((((((State.reset.codeTables.putWord 0x40210 (leafAt 1 0x60000)).putWord 0x40218 (leafAt 0 0)).putWord 0x40230 (leafAt 1 0x70000)).putWord
    0x40228 (leafAt 2 0x80000)).putWord 0x40238 (leafAt 1 0x90000)).putWord 0x40240 (leafAt 1 0xA0000)).mem

def context : Context := { id := 1, part := 0, number := 3, queue := 0, ptroot := 0x10000, handler := 0x18000, tfbase := 0x70000, fabase := 0x80000,
                           savebase := 0x20000, savesize := 0x10000 }

def theLaunch : Launch :=
  { id := 2, ctx := 1, part := 0, prio := 0, gang := false, note := false, args := 0, nblk := 1, deck := 65536, tiles := 1,
    range := [(0, 1), (0, 0), (0, 0), (0, 0)], roles := [⟨0x10000, 64, 1⟩], nodes := [⟨0x10100, 64, 4, 2⟩], donea := 0, donev := 7, trees := 0,
    lidx := some 0, byLnch := false, started := true, next := [1, 0, 0, 0], records := 1 }

def theBlock : Block := { launch := 2, idx := 0, pier := 0, bytes := 65536, tiles := [{}], live := [5] }

/-- The span: lane l holds l in v0 and 8 l in v2; s4 and s5 hold 0x20000 and 0x30000. -/
def theSpan : Span :=
  { id := 0, uid := 5, ctx := 1, part := 0, launch := 2, blk := 0, idx := 0, role := 0, budget := 64, seq := 10,
    lanes := List.replicate 32 { st := .ready, pc := 0x10000 }
    vregs := (List.range 32).map (fun l => (l, BitVec.ofNat 32 l)) ++ (List.range 32).map (fun l => (64 + l, BitVec.ofNat 32 (8 * l)))
    sregs := [(4, 0x20000), (5, 0x30000), (6, 100)] }

def dataTlb (pier : Option Nat) (page frame : Nat) : TlbEntry :=
  { pier := pier, die := 0, part := 0, ctx := 1, page := page, size := 16, frame := frame, pkind := .c, rd := true, wr := true, ex := true, dirty := true }

def demo : State :=
  { boot := .running, uid := 50, picked := some 0, parts := [wholePart], ctxs := [context], launches := [theLaunch], blocks := [theBlock],
    spans := [theSpan], mem := tables, tlb := [dataTlb (some 0) 1 0x50000, dataTlb (some 0) 2 0x60000],
    queues := [{ id := 0, rbase := 0x1000, rsize := 4, ebase := 0x8000, esize := 4, st := .running }], tierSize := 786432 }

/-- The same with the span changed. -/
def with_ (f : Span → Span) : State := { demo with spans := [f theSpan] }

/-! Conditions that can be evaluated. -/

/-- Is the word free to issue at `s`, whatever doom its lanes have, with what else is asked of the issue? -/
def issues (i : Instr) (s : State) (also : Span → List Nat → Word → Bool) : Bool :=
  match s.picked with
  | none => false
  | some id => match s.span? id with
    | none => false
    | some sp0 => decide (sp0.id = id) && !sp0.held && match sp0.select with
      | none => false
      | some (sp, I, a) => !sp.interlocked (shape i).uses I && (shape i).uses.v.all (fun k => decide (k < sp.budget)) &&
          sp.results.all (fun r => !r.hits (shape i).uses I) && also sp I a

/-- Does the word issue with its effect? -/
def meets (i : Instr) (s : State) (also : Span → List Nat → Word → Bool := fun _ _ _ => true) : Bool :=
  issues i s fun sp I a => I.all (fun l => !sp.doomedAt l) && also sp I a

theorem issues_issuing {i : Instr} {s : State} {also : Span → List Nat → Word → Bool} (h : issues i s also = true) :
    ∃ sp0 sp I a, Issuing s sp0 sp I a ∧ sp.interlocked (shape i).uses I = false ∧ (∀ k ∈ (shape i).uses.v, k < sp.budget) ∧
      (∀ r ∈ sp.results, r.hits (shape i).uses I = false) ∧ also sp I a = true := by
  unfold issues at h
  split at h
  · cases h
  · rename_i id hp
    split at h
    · cases h
    · rename_i sp0 hs
      simp only [Bool.and_eq_true, decide_eq_true_eq, Bool.not_eq_true'] at h
      obtain ⟨⟨rfl, hf⟩, h⟩ := h
      split at h
      · cases h
      · rename_i sp I a hsel
        simp only [Bool.and_eq_true, List.all_eq_true, decide_eq_true_eq, Bool.not_eq_true'] at h
        obtain ⟨⟨⟨h1, h2⟩, h3⟩, h4⟩ := h
        exact ⟨sp0, sp, I, a, { picked := hp, there := hs, free := hf, select := hsel }, h1, h2, h3, h4⟩

theorem meets_clear {i : Instr} {s : State} {also : Span → List Nat → Word → Bool} (h : meets i s also = true) :
    ∃ sp0 sp I a, Clear i s sp0 sp I a ∧ also sp I a = true := by
  obtain ⟨sp0, sp, I, a, hi, h1, h2, h3, h4⟩ := issues_issuing h
  simp only [Bool.and_eq_true, List.all_eq_true, Bool.not_eq_true'] at h4
  exact ⟨sp0, sp, I, a, { hi with unlocked := h1, budget := h2, answered := h3, alive := h4.1 }, h4.2⟩

/-- The state after an outcome, where there is one. -/
def after (o : Host.Outcome State Fault Refusal) : State := match o with | .next t => t | _ => {}

/-- The span after it, and whether the outcome is a next state. -/
def spanAfter (o : Host.Outcome State Fault Refusal) : Span := ((after o).span? 0).getD theSpan

/-! Words worked out in the manual, one or more for each family (chapters 4, 5, 6, 9, 13, 16, 17). -/

theorem test_decode_control : decode 0x220040001FFFFFFD = .ok (.bra { ctl := { guard := .pred 1 false }, d := 0, a := 0, y := true, off := -3 }) ∧
    decode 0x000100C00000005F = .ok (.call { ctl := {}, d := 6, a := 0, y := false, off := 0x5F }) := by decide +kernel

theorem test_decode_predicate :
    decode 0x001802400240000A = .ok (.cmpImm { ctl := {}, d := 0x12, a := 0, ty := .s32, cond := .lt, ct := .set, imm := 10 }) := by decide +kernel

theorem test_decode_integer : decode 0x2620002000C80080 = .ok (.add { ctl := { guard := .pred 3 false }, d := 1, a := 0, b := 6, kb := true, ty := .s32 }) ∧
    decode 0x0028002002000064 = .ok (.addImm { ctl := {}, d := 1, a := 0, ty := .s32, imm := 100 }) := by decide +kernel

theorem test_decode_lane : decode 0x0031810080000080 = .ok (.reds { ctl := {}, d := 8, a := 4, ty := .s32 }) := by decide +kernel

theorem test_decode_memory : decode 0x0040402000550800 = .ok (.st { ctl := {}, d := 1, a := 0, ka := true, b := 2, scope := .sys, size := 2 }) ∧
    decode 0x404060E01FE548C0 =
      .ok (.st { ctl := { w := true, u := true }, d := 7, a := 0, b := 0xFF, scope := .sys, order := .rel, size := 2, off := 192 }) := by decide +kernel

theorem test_decode_sync : decode 0x005020C080A50C00 = .ok (.atom { ctl := { u := true }, d := 6, a := 4, b := 5, scope := .sys, size := 3 }) ∧
    decode 0x0050802000552820 =
      .ok (.cas { ctl := {}, d := 1, a := 0, ka := true, b := 2, scope := .sys, order := .acq, size := 2, off := 0x20 }) ∧
    decode 0x0051C0001FE10000 = .ok (.barw { ctl := {}, b := 0xFF, scope := .block }) := by decide +kernel

theorem test_decode_ferry : decode 0x0060210180030000 = .ok (.fcpy { ctl := { u := true }, d := 8, a := 12, scope := .die }) ∧
    decode 0x0061208040030800 = .ok (.nsend { ctl := { u := true }, d := 4, a := 2, scope := .die, size := 2 }) := by decide +kernel

theorem test_decode_float : decode 0x0070C02040602410 = .ok (.ffma { ctl := {}, d := 1, a := 2, b := 3, c := 4, ty := .f32, f6 := 16 }) := by decide +kernel

theorem test_decode_conversion : decode 0x008000A0C0008088 = .ok (.cvt { ctl := {}, d := 5, a := 6, c := 0x10, ty := .s32, f6 := 8 }) ∧
    decode 0x0080418101480300 = .ok (.rng { ctl := {}, d := 12, a := 8, b := 10, kb := true, ty := .b128 }) := by decide +kernel

theorem test_decode_plane : decode 0x0090010141806800 = .ok (.pmma { ctl := {}, d := 8, a := 10, b := 12, c := 13 }) := by decide +kernel

theorem test_decode_task : decode 0x00A0230200000000 = .ok (.spawn { ctl := { u := true }, d := 24, a := 16 }) ∧
    decode 0x40A0C143000002C0 = .ok (.fjoin { ctl := { w := true }, d := 10, a := 24, ty := .b64 }) ∧
    decode 0x00A14100000002C0 = .ok (.fret { ctl := {}, d := 8, ty := .b64 }) := by decide +kernel

theorem test_decode_system : decode 0x00B0A1000000000A = .ok (.mtc { ctl := { u := true }, d := 8, f6 := 0x0A }) ∧
    decode 0x00B1612000000000 = .ok (.time { ctl := { u := true }, d := 9 }) := by decide +kernel

theorem test_decode_pair : decode 0x800012030084282C =
    .ok (.halfAddS32 { w := false, h0 := { d := 9, b := 1, k := 2 }, h1 := ⟨.fmulF32, { d := 10, b := 11, k := 0 }⟩ }) := by decide +kernel

/-- The manual's own example of a pair with three reads of one bank, and of the legal one beside it; a register that one half reads twice counts
once (R70). -/
theorem test_pair_banks :
    wf (.halfAddS32 { w := false, h0 := { d := 8, b := 12 }, h1 := ⟨.addS32, { d := 9, b := 16 }⟩ }) = false ∧
    wf (.halfAddS32 { w := false, h0 := { d := 8, b := 13 }, h1 := ⟨.addS32, { d := 12, b := 9 }⟩ }) = true ∧
    wf (.halfAddS32 { w := false, h0 := { d := 8, b := 8 }, h1 := ⟨.addS32, { d := 9, b := 12 }⟩ }) = true := by decide +kernel

/-! Ill-formed terms, one for each check of R75's forms: none of them is an instruction. -/

def ills (l : List (Instr × Ill)) : Bool := l.all fun p => decide (illegal p.1 = some p.2) && !wf p.1

def ALU : RRR := { ctl := {}, d := 1, a := 2, b := 3, ty := .s32 }

theorem test_wf_rrr : wf (.add ALU) = true ∧ ills [
    (.shfl { ALU with ctl := { u := true }, ty := .b32 }, .uniformMark), (.add { ALU with ctl := { u := true, guard := .pred 8 false } }, .guardField),
    (.add { ALU with ctl := { u := true }, ka := true }, .unusedField), (.fcmp { ALU with d := 0x12, ty := .f32, ka := true }, .unusedField),
    (.popc { ALU with b := 0, kb := true, ty := .b32 }, .unusedField), (.add { ALU with ctl := { u := true }, d := 64 }, .registerField),
    (.add { ALU with ty := .s64, d := 2, a := 3, b := 4 }, .registerField), (.add { ALU with b := 64, kb := true }, .registerField),
    (.add { ALU with c := 1 }, .registerField), (.add { ALU with ty := .f32 }, .reservedCode), (.add { ALU with f6 := 1 }, .unusedField)] = true := by
  decide +kernel

theorem test_wf_immediate : ills [
    (.addImm { ctl := { u := true, guard := .pred 9 true }, d := 0, a := 0, ty := .s32, imm := 0 }, .guardField),
    (.addImm { ctl := {}, d := 1, a := 0, ty := .s64, imm := 0 }, .registerField), (.addImm { ctl := {}, d := 2, a := 1, ty := .s64, imm := 0 }, .registerField),
    (.addsImm { ctl := {}, d := 1, a := 0, ty := .b32, imm := 0 }, .reservedCode), (.movi { ctl := {}, d := 1, a := 1, imm := 0 }, .unusedField),
    (.movh { ctl := {}, d := 1, a := 2, imm := 0 }, .forbidden), (.movh { ctl := {}, d := 1, a := 1, imm := 65536 }, .unusedField),
    (.lea { ctl := {}, d := 1, a := 0, imm := 0 }, .registerField)] = true := by decide +kernel

theorem test_wf_control : ills [
    (.bra { ctl := { u := true }, d := 0, a := 0, y := false, off := 0 }, .uniformMark), (.bra { ctl := {}, d := 1, a := 0, y := false, off := 0 }, .registerField),
    (.bra { ctl := {}, d := 0, a := 1, y := false, off := 0 }, .unusedField), (.call { ctl := {}, d := 6, a := 0, y := true, off := 0 }, .deferBit),
    (.brq { ctl := { u := true, guard := .pred 8 false }, d := 0, a := 0, y := false, off := 0 }, .guardField),
    (.cmp { ALU with d := 0x11 }, .predicateField), (.cmp { ALU with d := 0x12, f6 := 6 }, .reservedCode), (.cmp { ALU with d := 0x12, ty := .b32, f6 := 16 }, .reservedCode),
    (.cmpImm { ctl := { u := true }, d := 0x80, a := 0, ty := .s32, cond := .eq, ct := .set, imm := 0 }, .predicateField),
    (.vote { ctl := {}, f6 := 3 }, .reservedCode), (.pset { ctl := {}, f6 := 3 }, .reservedCode)] = true := by decide +kernel

theorem test_wf_lane : ills [
    (.mov { ALU with b := 0, d := 0, a := 4, ty := .b128, ka := true }, .forbidden), (.reds { ctl := {}, a := 1, ty := .s32, f6 := 3 }, .reservedCode),
    (.shfl { ALU with ty := .b32, f6 := 24 }, .reservedCode), (.rdln { ctl := { guard := .pred 1 false }, a := 1, ty := .b32 }, .guardField),
    (.mfs { ctl := {}, a := 0x12 }, .forbidden), (.mts { ctl := {}, d := 0x10 }, .forbidden)] = true := by decide +kernel

theorem test_wf_memory : ills [
    (.ld { ctl := { u := true }, a := 2, b := 0xFF, size := 4 }, .memoryCode), (.ld { ctl := {}, a := 1, b := 0xFF }, .registerField),
    (.ld { ctl := { u := true }, a := 2, ka := true, b := 0xFF }, .unusedField), (.ld { ctl := {}, d := 1, a := 2, b := 0xFF, size := 3 }, .registerField),
    (.ld { ctl := {}, a := 2, b := 64, kb := true }, .registerField), (.ld { ctl := {}, a := 2, b := 0xFF, order := .rel }, .memoryCode),
    (.ld { ctl := {}, a := 2, b := 0xFF, size := 7 }, .memoryCode), (.ldd { ctl := {}, a := 1, b := 0xFF, scope := .pier }, .memoryCode),
    (.atom { ctl := {}, a := 2, b := 3, size := 2, off := 0x1C0 }, .forbidden), (.red { ctl := {}, a := 2, b := 3, size := 2, off := 0x190 }, .forbidden),
    (.cas { ctl := { u := true }, a := 2, b := 63, size := 2, off := 0x20 }, .registerField), (.fence { ctl := {}, d := 1, order := .acq }, .forbidden),
    (.waita { ctl := {}, a := 2, b := 3, size := 2, off := 0x300 }, .reservedCode), (.waita { ctl := {}, a := 2, b := 3, size := 2, off := 41 }, .reservedCode),
    (.cctl { ctl := { u := true }, d := 1, a := 0, b := 0xFF }, .forbidden), (.bara { ctl := {}, b := 0, scope := .block }, .registerField),
    (.bara { ctl := {}, b := 0xFF, scope := .sys }, .memoryCode), (.mbwait { ctl := {}, a := 0, b := 0, ka := true }, .forbidden),
    (.fcpy { ctl := { u := true }, d := 61 }, .registerField), (.fcpy { ctl := { u := true }, d := 8, a := 12, off := 1 }, .unusedField)] = true := by
  decide +kernel

theorem test_wf_other : ills [
    (.fadd { ALU with ty := .f32, f6 := 40 }, .reservedCode), (.fadd { ALU with ty := .s32 }, .reservedCode), (.fsqrt { ALU with ty := .f32 }, .registerField),
    (.cvt { ctl := {}, c := 0x10, ty := .f32 }, .forbidden), (.cvt { ctl := {}, c := 0x16, ty := .f32 }, .reservedCode), (.cvt { ctl := {}, f6 := 5, ty := .f32 }, .reservedCode),
    (.pack { ctl := {}, ty := .b16, f6 := 1 }, .unusedField), (.pmma { ctl := { guard := .pred 1 false } }, .guardField), (.psync { ctl := {}, d := 1 }, .registerField),
    (.spawn { ctl := { u := true }, a := 60 }, .registerField), (.post { ctl := { u := true }, d := 0, f6 := 0 }, .forbidden),
    (.post { ctl := { u := true }, d := 60, f6 := 7 }, .registerField), (.mfc { ctl := {}, f6 := 0x0E }, .forbidden), (.mtc { ctl := { u := true }, f6 := 0 }, .forbidden),
    (.ctr { ctl := {}, c := 5 }, .forbidden), (.rft { ctl := { u := true, guard := .pred 0 false } }, .guardField),
    (.halfNop { w := false, h0 := { d := 1 }, h1 := ⟨.nop, {}⟩ }, .pairedForm),
    (.halfAddS32 { w := false, h0 := { d := 1, b := 2 }, h1 := ⟨.addS32, { d := 1, b := 3 }⟩ }, .pairedForm)] = true := by decide +kernel

/-- A reserved class and a function that no instruction has (R73). -/
theorem test_no_instruction : decode 0x00C0000000000000 = .error .reservedClass ∧ decode 0x0003000000000000 = .error .badFunction := by decide +kernel

/-! The word statements: for each, words of each of its clauses that issue with their effect. In handler mode for the privileged ones. -/

def B32 : RRR := { ctl := {}, d := 1, a := 0, b := 2, ty := .b32 }
def F32 : RRR := { ctl := {}, d := 1, a := 0, b := 2, ty := .f32 }
def UNI : RRR := { ctl := { u := true }, d := 8, a := 4, b := 5 }
def IMM : RIT := { ctl := {}, d := 1, a := 0, ty := .s32, imm := 5 }
def PAIR : Pair := { w := false, h0 := { d := 8, b := 2, k := 2 }, h1 := ⟨.addS32, { d := 11, b := 1, k := 2 }⟩ }
/-- `[s4 + v2]`, the data of v0 or into v1. -/
def ADR : MEM := { ctl := {}, d := 1, a := 4, ka := true, b := 2, scope := .sys, size := 2 }

theorem witness_integer_words : ([Instr.add ALU, .sub ALU, .adds ALU, .subs ALU, .mul ALU, .mulh ALU, .div ALU, .rem ALU, .min ALU, .max ALU, .and B32, .or B32,
    .xor B32, .andn B32, .shl B32, .shr B32, .sha B32, .rot B32, .add { ALU with ctl := { u := true }, d := 8, a := 4, b := 5, ty := .s64 }, .addImm IMM, .subImm IMM,
    .addsImm IMM, .subsImm IMM, .mulImm IMM, .mulhImm IMM, .divImm IMM, .remImm IMM, .minImm IMM, .maxImm IMM, .andImm { IMM with ty := .b32 },
    .orImm { IMM with ty := .b32 }, .xorImm { IMM with ty := .b32 }, .andnImm { IMM with ty := .b32 }, .shlImm { IMM with ty := .b32 },
    .shrImm { IMM with ty := .b32 }, .shaImm { IMM with ty := .b32 }, .rotImm { IMM with ty := .b32 }].all fun i => wf i && meets i demo) = true := by decide +kernel

theorem witness_moves_and_bit_fields : ([Instr.mad ALU, .neg { ALU with b := 0 }, .abs { ALU with b := 0 }, .sel B32, .mov { B32 with b := 0 },
    .mov { B32 with d := 4, b := 0, ty := .b128 }, .xtn { ALU with b := 0, ty := .s8 }, .movi ⟨{}, 1, 0, 7⟩, .movh ⟨{}, 1, 1, 7⟩, .lea ⟨{}, 2, 0, 7⟩, .bfx ALU, .bfi B32,
    .popc { B32 with b := 0 }, .clz { B32 with b := 0 }, .brev { B32 with b := 0 }].all fun i => wf i && meets i demo) = true := by decide +kernel

theorem witness_lanes_and_special_registers :
    (meets (.shfl B32) demo fun sp I _ => let from_ := fun l => shuffleFrom B32.lo2 (2 ^ (B32.f6.toNat / 4 % 8)) l (sp.src 32 B32.kb B32.b l).toNat
      !sp.crossPending (run B32.a.toNat B32.ty.regs) ((acting (.shfl B32) sp I).map from_)) = true ∧
    ((List.range 6).all fun k => meets (.reds { ctl := {}, d := 8, a := 0, ty := if k < 3 then .s32 else .b32, f6 := BitVec.ofNat 6 k }) demo) = true ∧
    (meets (.rdln { B32 with d := 8, b := 5 }) demo fun sp _ _ => !sp.crossPending (run 0 1) [(sp.s 5).toNat % 32]) = true ∧
    (meets (.wrln { B32 with a := 5, b := 0, f6 := 63 }) demo fun sp _ _ => !sp.crossPending (run 1 1) [31]) = true ∧
    ([0x00, 0x02, 0x11, 0x19].all fun k => meets (.mfs { ctl := {}, d := 2, a := k }) demo) = true ∧ meets (.mts { ctl := {}, d := 0x19, a := 4 }) demo = true ∧
    (meets (.rdix { B32 with b := 0 }) demo fun sp I _ => (acting (.rdix { B32 with b := 0 }) sp I).all fun l => decide ((sp.v 0 l).toNat < sp.budget) && sp.results.isEmpty) = true ∧
    (meets (.wrix { B32 with d := 0, a := 2, b := 0 }) demo fun sp I _ => I.all fun l => decide ((sp.v 0 l).toNat < sp.budget) && sp.results.isEmpty) = true := by
  decide +kernel

/-- RDIX and WRIX with lane 3's index at the budget, and with it at a register that is pending there. -/
theorem witness_bad_index : ([Instr.rdix { B32 with b := 0 }, .wrix { B32 with d := 0, a := 2, b := 0 }].all fun i =>
    (meets i (with_ fun sp => { sp with vregs := [(3, 64)] }) fun sp I _ => (acting i sp I).any fun l => decide (sp.budget ≤ (sp.v 0 l).toNat)) &&
    meets i (with_ fun sp => { sp with results := [{ id := 9, lane := some 3, vreg := some (3, 1), need := 1 }] }) fun sp I _ =>
      ((acting i sp I).all fun l => decide ((sp.v 0 l).toNat < sp.budget)) && I.any fun l => sp.results.any fun r => r.hits { v := [(sp.v 0 l).toNat] } [l]) = true := by
  decide +kernel

theorem witness_compares_and_predicates : ([Instr.cmp { ALU with d := 0x12 }, .cmpImm ⟨{}, 0x12, 0, .s32, .lt, .set, 5⟩, .fcmp { F32 with d := 0x12 },
    .cmp { UNI with d := 0x12, ty := .s64, f6 := 9 }, .plop { ctl := {}, d := 1, a := 2, b := 3, f6 := 8 }, .plop { ctl := { u := true }, d := 1, a := 2, b := 3, f6 := 8 },
    .pmov { ctl := {}, d := 1 }, .pmov { ctl := {}, a := 1, f6 := 1 }, .pmov { ctl := { u := true }, d := 1, f6 := 2 }, .pmov { ctl := { u := true }, a := 1, f6 := 3 },
    .vote { ctl := {}, d := 1, a := 2 }, .vote { ctl := {}, d := 8, a := 2, f6 := 2 }, .pset { ctl := {}, d := 1 }, .pset { ctl := { u := true }, d := 1, f6 := 1 },
    .pset { ctl := {}, d := 1, a := 2, ty := .b32, f6 := 2 }].all fun i => wf i && meets i demo) = true := by decide +kernel

theorem witness_float_words : ([Instr.fadd F32, .fsub F32, .fmul F32, .ffma { F32 with c := 3 }, .fmin F32, .fmax F32, .fcls { F32 with b := 0 }, .frnd { F32 with b := 0 },
    .fdiv F32, .fsqrt { F32 with b := 0 }, .frcp { F32 with b := 0 }, .frsq { F32 with b := 0 }, .fex2 { F32 with b := 0 }, .flg2 { F32 with b := 0 },
    .fadd { F32 with ty := .bf16x2 }, .fdot2 { F32 with c := 3, ty := .bf16x2 }].all fun i => wf i && meets i demo) = true := by decide +kernel

/-- The smallest subnormal and 0 are finite; infinities and NaNs. -/
theorem witness_rounding : ∀ f ∈ [fp32, fp16, bf16], isFinite f 1 ∧ isFinite f (2 ^ (f.ew + f.fw)) ∧ magnitude f 1 = 1 ∧ magnitude f 0 = 0 ∧ isInfinite f (infinity f true) ∧
    isNaN f (infinity f false + 1) := by
  simp only [isFinite, isInfinite, isNaN]; decide +kernel

/-- The first three are CVT from float to float, from float to integer, and from integer to float. -/
theorem witness_conversions : ([Instr.cvt { F32 with b := 0, c := 0x11 }, .cvt { F32 with b := 0, c := 0x10, ty := .s32 }, .cvt { F32 with b := 0, c := 2 },
    .cvt { F32 with b := 0, f6 := 1 }, .cvt { F32 with b := 0, f6 := 2 }, .cvt { F32 with c := 7, f6 := 3 }, .cvt { F32 with f6 := 4 },
    .rng { ctl := {}, d := 4, a := 8, b := 2, ty := .b128 }, .pack { F32 with ty := .bf16x2 }, .pack { F32 with ty := .n16 }, .pack { F32 with ty := .s8, f6 := 1 },
    .pack { F32 with ty := .b16 }, .unpk { F32 with b := 0, ty := .f16x2 }, .unpk { F32 with b := 0, ty := .s8, f6 := 3 }, .unpk { F32 with b := 0, ty := .n8 },
    .unpk { F32 with b := 0, ty := .s16 }, .unpk { F32 with b := 0, ty := .b16, f6 := 1 }].all fun i => wf i && meets i demo) = true ∧
    (cvtSrc { F32 with c := 0x11 }).map isFloatTy = some true ∧ (cvtSrc { F32 with c := 2 }).map isFloatTy = some false := by decide +kernel

theorem witness_paired_words : ([Cop.addS32, .subS32, .addsS32, .subsS32, .mulS32, .minS32, .maxS32, .minN32, .maxN32, .andB32, .orB32, .xorB32, .andnB32, .shlB32, .shrB32,
    .shaB32, .rotB32, .movB32, .addS64, .subS64, .andB64, .orB64, .xorB64, .shlB64, .shrB64, .shaB64, .movB64].all fun c =>
      wf (pairInstr PAIR c) && meets (pairInstr PAIR c) demo) = true ∧
    ([Cop.faddF32, .fmulF32, .fminF32, .fmaxF32, .faddBf16x2, .fmulBf16x2, .fminBf16x2, .fmaxBf16x2, .faddF16x2, .fmulF16x2, .fminF16x2, .fmaxF16x2].all fun c =>
      wf (pairInstr { PAIR with h0 := { d := 8, b := 2 } } c) && meets (pairInstr { PAIR with h0 := { d := 8, b := 2 } } c) demo) = true ∧
    wf (pairInstr { PAIR with h0 := {} } .nop) = true ∧ meets (pairInstr { PAIR with h0 := {} } .nop) demo = true := by decide +kernel

/-- s4 is a target of BRX, CALLX and RET; s6, which is 100, is none; CALL's lanes are not at depth 255, and RET's are not at depth 0. -/
theorem witness_branches : ([Instr.nop { ctl := {} }, .bra ⟨{}, 0, 0, true, -3⟩, .brq ⟨{ u := true }, 0, 0, false, 5⟩, .yield { ctl := {} }, .call ⟨{}, 6, 0, false, 9⟩].all fun i =>
      wf i && meets i demo fun sp _ _ => laneNums.all fun l => decide ((sp.lane l).depth ≠ 255)) = true ∧
    ([(4 : BitVec 8), 6].all fun k => [Instr.brx { ctl := {}, a := k, ka := true }, .callx { ctl := {}, d := 6, a := k, ka := true }, .ret { ctl := {}, a := k, ka := true }].all fun i =>
      wf i && meets i (with_ fun sp => sp.onLanes laneNums fun ln => { ln with depth := 1 }) fun sp _ _ => (sp.s k.toNat).toNat % 8 == if k = 4 then 0 else 4) = true := by decide +kernel

/-- CALL and CALLX with lanes at depth 255, and RET with lanes at depth 0. -/
theorem witness_depth : ([(Instr.call ⟨{}, 6, 0, false, 9⟩, 255), (.callx { ctl := {}, d := 6, a := 4, ka := true }, 255), (.ret { ctl := {}, a := 4, ka := true }, 0)].all fun x =>
      wf x.1 && meets x.1 (with_ fun sp => sp.onLanes laneNums fun ln => { ln with depth := x.2 }) fun sp I _ =>
        (acting x.1 sp I).any fun l => decide ((sp.lane l).depth = x.2)) = true := by decide +kernel

/-- May the trap be entered at once? -/
def entryOpen (s : State) (sp : Span) (r : TrapReq) (c : Cause) : Bool :=
  decide (s.span? sp.id = some sp) && sp.checks.isEmpty && (r.issue || sp.records.isEmpty) && sp.drafts.isEmpty && !sp.hmode && match s.ctx? sp.ctx with
    | some cx => decide (cx.handler ≠ 0) && (s.deviceWrite (some sp.pier) cx (s.areas sp cx).1 (trapFrame sp r c)).2.1.isNone
    | none => false

theorem witness_fault_record : ([0, 31].all fun l =>
    let t := with_ fun sp => { (sp.onLane l fun ln => { ln with st := .parkedFatal, wait := none }) with fseq := 1 }
    decide (l < theSpan.lanes.length) && !theSpan.hmode &&
      (t.deviceWrite (some 0) context ((demo.areas theSpan context).2 + BitVec.ofNat 64 (32 * l)) (List.replicate 32 1)).2.1.isNone) = true := by decide +kernel

theorem witness_convergence : ([Instr.cvg { ctl := {} }, .exit { ctl := {} }].all fun i => meets i demo fun sp _ _ => !sp.due && laneNums.all fun l => (sp.lane l).task.isNone) = true ∧
    (meets (.cvg { ctl := {} }) (with_ fun sp => { sp with due := true, cause := some .future }) fun sp _ _ => sp.due && !sp.hmode) = true := by decide +kernel

/-- Every lane waits at a CVG, lanes 0 and 1 at the greatest depth, lane 1 there at a lower address: it goes on, and no other; and at one
place, where all do. -/
def converging (one : Bool) : Span := { theSpan with lanes := theSpan.lanes.mapIdx fun l ln =>
  { ln with st := .waiting, wait := some .cvg, depth := if one || l < 2 then 1 else 0, pc := if one || l ≠ 0 then 0x10000 else 0x10008 } }

theorem test_cvg_first : ([true, false].all fun one => (converging one).trap.isNone && laneNums.all fun l =>
      decide (((converging one).settleCvg.lane l).st = if one ∨ l = 1 then .ready else .waiting)) = true ∧
    theSpan.trap = none ∧ theSpan.settleCvg = theSpan := by decide +kernel

theorem witness_issue_causes : ([Instr.trap ⟨{}, 0, 0, 5⟩, .bkpt ⟨{}, 0, 0, 0⟩].all fun i => meets i demo fun sp I a => entryOpen (demo.putSpan sp) sp ⟨.swtrap, true, a, I⟩ .swtrap) = true ∧
    (meets (.trap ⟨{ guard := .pred 1 false }, 0, 0, 5⟩) demo fun sp I _ => (acting (.trap ⟨{ guard := .pred 1 false }, 0, 0, 5⟩) sp I).isEmpty) = true ∧
    (privileged (.rft { ctl := { u := true } }) && !theSpan.hmode) = true ∧ (run 100 2).all (theSpan.budget ≤ ·) = true ∧
    (collective (.pacz { ctl := {} }) && ((with_ fun sp => sp.onLane 3 fun ln => { ln with st := .waiting }).span? 0).any fun sp => (sp.select).any fun x =>
      decide (x.2.1 ≠ (List.range 32).filter fun l => !(sp.lane l).st.ended)) = true ∧
    (({ id := 1, lane := some 3, vreg := some (0, 1), need := 1 } : Result).hits (shape (.add ALU)).uses laneNums ||
      ({ id := 1, lane := some 3, vreg := some (2, 1), need := 1 } : Result).hits (shape (.add ALU)).uses laneNums) = true := by decide +kernel

theorem witness_trap_entry : entryOpen demo theSpan ⟨.future, false, 0, []⟩ .future = true ∧ theSpan.lanes.length = 32 ∧
    (laneNums.all fun l => decide ((theSpan.lane l).depth < 256)) = true ∧
    (let sp : Span := { theSpan.onLanes laneNums (fun ln => { ln with st := .waiting }) with due := true, cause := some .future };
      sp.trap.isNone && sp.due && !sp.hmode && decide (sp.status = .running) && laneNums.all fun l => decide ((sp.lane l).st ≠ .ready) && decide ((sp.lane l).st ≠ .deferred)) = true := by
  decide +kernel

/-- The handler's span, whose frame (all zero in memory, every lane ready at address 0) may be read. -/
theorem witness_trap_return : (meets (.rft { ctl := { u := true } }) (with_ fun sp => { sp with hmode := true }) fun sp _ _ => sp.hmode && demo.drained sp sp.seq) = true ∧
    (match demo.ctx? 1 with
      | some cx => match (demo.deviceRead (some 0) cx (demo.areas theSpan cx).1 512).2 with | .ok bs => (readBlock bs).state.all (· < 4) && (readBlock bs).pc.all (fun p => p.toNat % 8 == 0) | _ => false
      | none => false) = true ∧ (theSpan.lanes.all fun ln => ln.kept.isNone && ln.wait.isNone && ln.task.isNone && ln.atTrap.isNone) = true := by decide +kernel

/-! The statements about memory, decks, barriers and the ferry. -/

/-- Has the span room for `n` requests, and no access of it that waits? -/
def readyAlone (sp : Span) (n : Nat) : Bool := sp.memReady n && sp.joining.isEmpty && sp.checks.all fun c => decide (c.seq ≠ sp.seq)

def ATOM_ : MEM := { ADR with b := 0, off := 0 }
/-- The data of the span's accesses: s4 is in the TLB of pier 0, s7 is mapped and not there. -/
def memDemo : State := with_ fun sp => { sp with sregs := [(4, 0x20000), (5, 0x30000), (6, 100), (7, 0x60000)], resv := some (0x60000 / 64),
                                                   lanes := sp.lanes.modify 1 fun ln => { ln with resv := some (0x60000 / 64) } }
def memWords (a : BitVec 8) (x : MEM := ADR) (y : MEM := ATOM_) : List Instr :=
  [.ld { x with a := a }, .st { x with a := a, d := 0, order := .rel }, .lda { x with a := a }, .atom { y with a := a }, .red { y with a := a, d := 0 },
   .cas { y with a := a, off := 0x20 }, .sred { y with a := a, d := 0, scope := .span }]

theorem witness_memory_words : ((memWords 4).all fun i => wf i && (accessOf theSpan 0 i).isSome && meets i memDemo fun sp I _ => readyAlone sp (entriesFor (accesses i sp I)) &&
      (accesses i sp I).all fun q => match memDemo.checkNow sp.pier context q with | .pass _ => true | _ => false) = true ∧
    ((memWords 7).all fun i => !(shape i).ctl.u && meets i memDemo fun sp I _ => readyAlone sp (entriesFor (accesses i sp I)) &&
      (accesses i sp I).all fun q => decide (memDemo.checkNow sp.pier context q = .wait)) = true := by decide +kernel

/-- Lane 0 addresses a page in the TLBs, lane 1 one that is not there, lane 2 an address above the space, the others the first page. -/
def mixed : State := with_ fun sp => { sp with vregs := laneNums.map (fun l => (256 + l, BitVec.ofNat 32 (if l = 1 then 0x60000 else 0x20000 + 64 * l))) ++ [(32 * 9 + 2, 0x4000000)] }

/-- R18, R19, R121: a word whose accesses pass, wait and are fatal, lane by lane; after it lane 0 is at the next word, lane 1 waits, lane 2 is
parked fatal, both on the word. -/
theorem witness_mixed_lanes : ((memWords 8 { ADR with ka := false, b := 0xFF } { ATOM_ with ka := false }).all fun i => meets i mixed fun sp I _ => readyAlone sp (entriesFor (accesses i sp I)) && [0, 1, 2].all fun l =>
      l ∈ takers i sp I && match (accessOf sp l i).map fun q => mixed.checkNow sp.pier context q with
        | some (.pass _) => decide (l = 0) | some .wait => decide (l = 1) | some (.fatal _ _) => decide (l = 2) | _ => false) = true ∧
    (let sp := spanAfter (exec (.ld { ADR with ka := false, b := 0xFF, a := 8 }) mixed)
     [0, 1, 2].map (fun l => ((sp.lane l).st, (sp.lane l).pc)) = [(.ready, 0x10008), (.waiting, 0x10000), (.parkedFatal, 0x10000)] ∧ sp.fseq = 1) := by decide +kernel

theorem witness_store_if_reserved : ([false, true].all fun u =>
    let x : MEM := { ADR with ctl := { u := u }, ka := !u, d := if u then 6 else 0, b := 2 }
    let mk := fun l (lane : Option Nat) => ({ op := .stl, lane := lane, ea := effAddr theSpan x false true l, size := 4, pd := some 2 } : Access)
    wf (.stl x) && meets (.stl x) memDemo fun sp I _ =>
      let qs := if u then [mk 0 none] else I.map fun l => { mk l (some l) with ea := effAddr sp x false true l }
      readyAlone sp (entriesFor qs) && qs.all fun q => match memDemo.checkNow sp.pier context q with | .pass [w] => decide (w.key = 0x60000) | _ => false) = true := by
  decide +kernel

def watch_ : Watch := { acc := { op := .waita, lane := some 0, ea := 0x20000, size := 4 }, cond := .eq, sgn := false, cmp := 1, pd := 1, due := some 0, reading := false,
                        wake := true, slot := true, poll := 0 }
def watching (w : Wait) : State := with_ fun sp => { sp with lanes := sp.lanes.modify 0 fun ln => { ln with st := .waiting, wait := some w } }

theorem witness_waits : (let x : MEM := { ATOM_ with d := 1, off := 5 }; wf (.waita x) && meets (.waita x) memDemo fun sp I _ =>
      readyAlone sp (entriesFor (I.map fun l => { op := .waita, lane := some l, ea := 0x20000, size := 4 })) &&
        match memDemo.checkNow sp.pier context { op := .waita, lane := some 0, ea := 0x20000, size := 4 } with | .pass _ => true | _ => false) = true ∧
    ([watching (.sleep 0), watching (.watch watch_), watching (.watch { watch_ with slot := false, wake := false })].all fun s => (s.span? 0).any fun sp =>
      decide (sp.status = .running) && readyAlone sp 1 && sp.unsent.isEmpty && decide (0 < sp.landFree) && !watch_.must && !s.checkHeld sp.pier context watch_.acc && decide ((s.time sp.die).toNat = 0) &&
        ((List.range 32).all fun k => decide (k = 0) || (sp.lane k).wait.isNone) &&
        match ((s.onSpan sp.id fun u => { u with seq := u.seq + 1 }).checkWalk sp.pier context { watch_.acc with seq := sp.seq, lane := some 0 }).2 with | .pass _ => true | _ => false) = true := by decide +kernel

def DECK : MEM := { ctl := {}, d := 1, a := 2, b := 0xFF, size := 2 }

/-- An access of lane 3 to 4 bytes of row 1. -/
def deckReq (op : DeckOp) : DeckReq := ⟨0, 1, 1, 0, 5, (2, 0), 9, [⟨3, 64, 4, false, 7, op⟩], []⟩

theorem witness_deck_words : ([Instr.ldd DECK, .std { DECK with d := 0 }, .atomd { DECK with b := 0 }].all fun i => wf i && meets i demo fun sp I _ => sp.deckReady 0 && sp.deckReady 32 &&
      (I.all fun l => let da := sp.deckAddr DECK true true l; decide (0 ≤ da) && decide (da + 4 ≤ demo.deckBytes sp) && decide (da % 4 = 0)) && !sp.arrivesAt []) = true ∧
    (meets (.ldd { DECK with off := 2 }) demo fun sp _ _ => decide (sp.deckAddr { DECK with off := 2 } true true 0 % 4 ≠ 0)) = true ∧
    ([DeckOp.load 3, .store, .atomic 0 0 3].all fun op =>
      let s : State := { demo with deckq := [deckReq op] }
      decide (s.deckq.find? (fun q => decide (q.pier = 0) && decide (q.bank = 1)) = some (deckReq op)) && (s.deckq.all fun b => !s.deckHeld b) &&
        !s.fenced.contains 0 && (s.block? (2, 0)).isSome && (s.spanOf? 5).any fun sp => decide (s.span? sp.id = some sp)) = true ∧
    (let s : State := { with_ (fun sp => { sp with landing := [{ slot := 0, seq := 8, st := .ordered, op := .fence }] }) with deckq := [deckReq .store] }
     decide ((s.deckq.filter fun q => decide (q.pier = 0) && decide (q.bank = 1)) = [deckReq .store]) &&
       (s.spanOf? 5).any fun sp => sp.landing.any fun e => decide (e.op = .fence ∧ e.seq < (deckReq .store).seq)) = true := by decide +kernel

def BARS : MEM := { ctl := { u := true }, d := 6, a := 0xFF, b := 0xFF, off := 16 }

theorem witness_deck_barriers : ([Instr.mbinit BARS, .mbexp BARS, .mbarv { BARS with ctl := {}, ka := true, d := 0 }, .mbwait { BARS with ctl := {}, ka := true, kb := true, b := 6, d := 1 }].all fun i =>
      wf i && meets i demo fun sp I _ => !sp.acqHeld && demo.deckq.isEmpty && sp.landing.isEmpty && !(acting i sp I).isEmpty && !sp.arrivesAt [16]) = true ∧
    theSpan.deckAddr BARS true true 0 = 16 ∧ theSpan.deckAddr { BARS with ctl := {}, ka := true, kb := true, b := 6, d := 1 } false true 0 = 16 ∧ theBlock.bytes = 65536 := by decide +kernel

/-- With a release fence that has not retired, MBINIT and MBEXP wait; an arrival that may come to an object with two left. -/
theorem witness_fenced_barriers : ([Instr.mbinit BARS, .mbexp BARS].all fun i =>
      meets i (with_ fun sp => { sp with landing := [{ slot := 0, seq := 8, st := .ordered, op := .fence }] }) fun sp _ _ => sp.landing.any fun e => decide (e.op = .fence)) = true ∧
    (65536 % 65536 = 0 ∧ 70000 % 65536 ≠ 0) ∧
    (let s : State := { with_ (fun sp => { sp with arrivals := [.deck 16 8] }) with blocks := [{ theBlock with deck := [(16, 2), (18, 2)] }] }
     (s.span? 0).any fun sp => decide (sp.block = (2, 0)) && decide (sp.arrivals = [.deck 16 8]) && s.drained sp 8 &&
       (s.block? (2, 0)).any fun k => decide (1 < (k.mbar 16).remain)) = true := by decide +kernel

/-- R203, R205: MBINIT writes its count, 8 from s6's 100 being 100, and 0 elsewhere. -/
theorem test_mbinit : (match exec (.mbinit BARS) demo with
    | .next t => (t.block? (2, 0)).any fun k => decide (k.deckNat 16 16 = 100 + 2 ^ 16 * 100)
    | _ => false) = true := by decide +kernel

theorem witness_cache_and_hints : ([Instr.pfs UNI, .pfs { UNI with d := 8, a := 9, b := 9 }, .cctl { ctl := { u := true }, a := 4, b := 0xFF }, .cctl { ctl := { u := true }, d := 1, a := 0xFF, b := 0xFF },
      .cctl { ctl := { u := true }, d := 2, a := 4, b := 0xFF }, .cctl { ctl := { u := true }, d := 3, a := 0xFF, b := 0xFF }, .lth { UNI with a := 6 }, .lth { UNI with a := 6, b := 0, f6 := 1 },
      .lth { UNI with a := 9 }].all fun i => wf i && meets i demo fun sp I _ => !sp.memHeld && !(acting i sp I).isEmpty) = true ∧
    demo.lineAt context 0x20000 = some (0x60000 / 64) ∧ demo.lineAt context 0x40000 = none ∧ (theSpan.s 6).toNat = 100 ∧ theSpan.s 9 = 0 := by decide +kernel

/-- What a span of pier 1 released at a scope. -/
def released (sc : Scope) : Msg := { deck := none, at_ := 0x60000, len := 4, scope := sc, from_ := { span := some 6, blk := some (2, 1), pier := some 1, die := some 0 },
                                     time := 0, view := [], tsc := 0 }

theorem witness_fence_word : ([Order.acq, .rel, .ar, .seq].all fun o => let x : MEM := { ctl := {}, order := o, scope := .die }
    wf (.fence x) && meets (.fence x) demo fun sp I _ => sp.memReady 1 && !(acting (.fence x) sp I).isEmpty) = true ∧
    ([(released .pkg, true), (released .pier, false)].all fun x => (joins .pkg theSpan.party x.1.from_ && joins x.1.scope x.1.from_ theSpan.party) == x.2) = true ∧
    (theSpan.die < demo.tsc.length ∧ joins .pkg theSpan.party (dieParty 1) = true ∧ joins .sys (dieParty 1) theSpan.party = true) ∧
    (Scope.die.wide = true ∧ Scope.pier.wide = false) := by decide +kernel

/-- A copy of the line of a load, filled at step 0, that has missed a write of its first byte at step 1. -/
def copied (vs : List Machine.Seen) : State :=
  { with_ (fun sp => { sp with view := vs }) with l1 := [{ pier := 0, line := 0x1800, bytes := List.replicate 64 0, fill := 0, missed := [(0x60000, 1)] }] }
def loadAt (seq : Nat) : Entry := { slot := 1, seq := seq, st := .inflight, op := .mem, vline := 0x800, pline := 0x1800, pkind := .c,
                                    parts := [⟨{ op := .load, lane := some 3, ea := 0x20000, size := 4 }, 0, 0, 4⟩] }

def missedWrite : List Machine.Seen := [{ key := 0x60000, step := 1, since := 3 }]
/-- R157, R158: the span that knows of the write is not served by the copy from then on. -/
theorem test_old_copy : ((copied missedWrite).span? 0).any (fun sp => ((copied missedWrite).l1Copy sp (loadAt 3)).isNone &&
    sp.outdated (loadAt 3) { pier := 0, line := 0x1800, bytes := [], fill := 0, missed := [(0x60000, 1)] } &&
    !sp.outdated (loadAt 2) { pier := 0, line := 0x1800, bytes := [], fill := 0, missed := [(0x60000, 1)] }) = true := by decide +kernel

theorem witness_named_barriers : ([Scope.block, .die, .pkg].all fun c => [true, false].all fun g => [true, false].all fun w =>
      let x : MEM := { ctl := { guard := if g then .always else .pred 1 false }, d := 2, b := 6, kb := true, scope := c, off := if w then 17 else 0 }
      let i := if w then Instr.barw x else .bara x
      wf i && meets i demo fun sp I _ => (acting i sp I).isEmpty == !g) = true ∧
    demo.barBroken ⟨2, some 0, none, 2⟩ = false ∧ demo.barDefault ⟨2, some 0, none, 2⟩ = 1 := by decide +kernel

def COPY : MEM := { ctl := { u := true }, d := 8, a := 12, scope := .die }

theorem witness_ferry_words : ([Instr.fcpy COPY, .fcpyt { COPY with b := 20 }, .fpln { COPY with b := 20 }, .nsend { ctl := { u := true }, d := 4, a := 2, scope := .die, size := 2 }].all fun i =>
      wf i && meets i demo fun sp I _ => !sp.acqHeld && decide (sp.ferry.length < 4) && !(acting i sp I).isEmpty && !sp.crossPending [2] laneNums) = true ∧
    meets (.fpln { COPY with b := 63 }) demo = true ∧
    ([Instr.fcan { ctl := { u := true }, a := 4 }, .fcan { ctl := { u := true }, f6 := 1 }, .fstat { ctl := { u := true }, d := 8, a := 4 }, .fstat { ctl := { u := true }, d := 8, f6 := 1 },
      .fstat { ctl := { u := true }, d := 8, f6 := 2 }].all fun i => wf i && meets i demo fun sp I _ => !(acting i sp I).isEmpty) = true ∧
    (let o : FerryOp := { id := 3, kind := .fcpy, st := .drain, seq := 3, scope := .die, comp := 0x20000 };
      ({ theSpan with ferry := [o] } : Span).ferry.filter (fun o => decide (o.kind ≠ .nsend) && (false || decide (o.comp = theSpan.s 4))) = [o] ∧ o.fail = none ∧ o.cancel = false ∧
        o.link = none) := by decide +kernel

/-- The span with a format word in v1 of every lane; s10 is a control word of tile 0 and COUNT 1. -/
def fmtDemo (f : VWord) : State := with_ fun sp => { sp with vregs := laneNums.map fun l => (32 + l, f), sregs := [(10, 0x10000)] }

/-- Plane words of each kind whose operands are accepted; a format, a tile, a segment, a count and a range that are not. -/
theorem witness_plane_words : (([(.pmma { ctl := {}, d := 1, a := 10, b := 9, c := 9 }, .pmma, 0), (.pmma { ctl := {}, d := 1, a := 10, b := 9, f6 := 1 }, .pmmabp, 0),
      (.pmms { ctl := {}, d := 1, a := 10, b := 9, c := 9 }, .pmms, 0x800), (.plma { ctl := {}, d := 1, a := 10, b := 9, c := 9 }, .plma, 0x455), (.pacz { ctl := {}, d := 1, a := 10 }, .pacz, 0),
      (.pdrn { ctl := {}, d := 1, a := 10, b := 9 }, .pdrn, 0), (.pdrb { ctl := {}, d := 1, a := 10 }, .pdrb, 0), (.pacs { ctl := {}, d := 1, a := 10, b := 9 }, .pacs, 0),
      (.pacl { ctl := {}, d := 1, a := 10, b := 9 }, .pacl, 0)] : List (Instr × PlaneKind × VWord)).all fun (i, k, f) => wf i && fmtAccepts k f &&
    (planeRanges k f 0x10000 0 0).all (fun r => decide (r.1 % 8 = 0) && decide (r.1 + r.2 ≤ theBlock.bytes)) && meets i (fmtDemo f) fun sp I _ =>
      decide (I = (List.range 32).filter fun l => !(sp.lane l).st.ended) && (I.all fun l => decide (sp.v 1 l = f)) && !sp.acqHeld &&
        decide (ctlTile (sp.s 10) < theBlock.tiles.length) && decide (ctlCount (sp.s 10) = 1)) = true ∧
    fmtAccepts .pmma 0x400 = false ∧ theBlock.tiles.length ≤ ctlTile 1 ∧ ctlSeg 0x300 = 3 ∧ ctlCount 0 ≠ 1 ∧
    (planeRanges .pdrn 0 0 0 4).all (fun r => decide (r.1 % 8 = 0)) = false ∧
    (meets (.psync { ctl := {} }) demo fun sp I _ => decide (I = (List.range 32).filter fun l => !(sp.lane l).st.ended)) = true := by decide +kernel

/-! The statements about futures, tasks, control registers and the system words. -/

def TASK : RRR := { ctl := { u := true }, d := 8, a := 4 }
/-- Slot 9 of partition 0 on die 0, serial 3: a future that runs. -/
def fut9 : Future := { part := 0, ctx := 1, die := 0, slot := 9, serial := 3, count := 1, st := .running }
/-- The span with the handle of `fut9` in s20; lane 2 runs its task. -/
def futDemo (f : Future) : State :=
  { (with_ fun sp => { sp with sregs := sp.sregs ++ [(20, fut9.handle)], lanes := sp.lanes.modify 2 fun ln => { ln with task := some ⟨41, fut9.handle, false⟩ } }) with futs := [f] }

theorem witness_task_records : ([Instr.spawn TASK, .post { TASK with a := 0, f6 := 3 }, .lnch { TASK with d := 1 }].all fun i => wf i && meets i demo fun sp I _ =>
      !sp.acqHeld && decide (0 < sp.landFree) && !(acting i sp I).isEmpty) = true ∧ demo.futureRoom 0 (some 0) = true := by decide +kernel

/-- With its cap reached, a partition has no free entry. -/
theorem witness_no_entry : ({ demo with parts := [{ wholePart with row := { wholePart.row with entryCap := 0, entrySram := 0 } }] } : State).freeSlot 0 0 = none := by
  unfold State.freeSlot; exact if_pos (by decide +kernel)

theorem witness_future_words : ([Instr.fref { TASK with d := 1, a := 20 }, .fdrop { TASK with d := 20, a := 0 }, .fpoll { ctl := {}, d := 8, a := 20, b := 1, ty := .b64 },
      .fjoin { ctl := {}, d := 8, a := 20, ty := .b64 }].all fun i => wf i && meets i (futDemo fut9) fun sp I _ => !(acting i sp I).isEmpty && (futDemo fut9).fmsgs.isEmpty) = true ∧
    (futDemo fut9).stale 0 fut9.handle = false ∧ (futDemo { fut9 with serial := 4 }).stale 0 fut9.handle = true ∧
    (meets (.fjoin { ctl := { guard := .pred 1 false }, d := 8, a := 20, ty := .b64 }) (futDemo fut9) fun sp I _ =>
      (acting (.fjoin { ctl := { guard := .pred 1 false }, d := 8, a := 20, ty := .b64 }) sp I).isEmpty) = true := by decide +kernel

/-- Lane 2 alone has true p1. -/
def endDemo : State := { futDemo fut9 with spans := (futDemo fut9).spans.map fun sp => { sp with lanes := sp.lanes.modify 2 fun ln => { ln with preds := 2 } } }

theorem witness_task_ends : (let i := Instr.fret { ctl := { guard := .pred 1 false }, d := 8, ty := .b64 }; wf i && meets i endDemo fun sp I _ => decide (acting i sp I = [2]) &&
      ((sp.lane 2).task.any fun t => decide (t.fut ≠ 0)) && endDemo.refs.isEmpty) = true ∧
    (let i := Instr.fret { ctl := { guard := .pred 1 true }, d := 8, ty := .b64 }; meets i endDemo fun sp I _ => (acting i sp I).all fun l => (sp.lane l).task.isNone) = true ∧
    (let i := Instr.exit { ctl := { guard := .pred 1 false } }; wf i && meets i endDemo fun sp I _ => decide (acting i sp I = [2]) && (sp.lane 2).task.isSome && endDemo.refs.isEmpty) = true ∧
    meets (.rpt { ctl := { u := true }, d := 1, f6 := 1 }) demo = true ∧
    (({ theSpan with lanes := theSpan.lanes.mapIdx fun l ln => if l = 2 then { ln with task := some ⟨41, 7, true⟩ } else { ln with st := .exited } } : Span).select.any fun x =>
      decide (x.2.1 = [2]) && x.1.doomedAt 2) = true := by decide +kernel

theorem witness_control_registers : ([(0 : BitVec 6), 1, 2, 3, 4, 5, 6, 7, 8, 9, 10, 11, 12, 13, 16, 23].all fun n =>
      [Instr.mfc { ctl := {}, d := 2, f6 := n }, .mfc { ctl := { u := true }, d := 2, f6 := n }, .mtc { ctl := { u := true }, d := 4, f6 := n }].all fun i =>
        meets i (with_ fun sp => { sp with hmode := true }) fun sp I _ => sp.hmode && !(acting i sp I).isEmpty && demo.forkDrained sp sp.seq) = true ∧
    (demo.parts.head?.map (·.net)) = some [] ∧ theSpan.s 9 = 0 ∧
    ([(0x40000, true), (0x30000, false)].all fun e => match (demo.deviceRead (some 0) context e.1 64).2 with
      | .error (.fatal _, _) => e.2 | .error (.park _, _) => !e.2 | _ => false) = true := by decide +kernel

/-- A table of one tree, rooted at pier 0, with pier 1 below it, for the page at 0x20000. -/
def treeEntry : List Byte := toBytes 8 0x20000 ++ toBytes 8 0x20100 ++ toBytes 8 5 ++ [0, 0, 3, 0] ++ toBytes 36 0 ++ [254, 0] ++ List.replicate 158 255 ++ List.replicate 32 0
def tabled : State := (with_ fun sp => { sp with hmode := true }).poke 0x60000 (1 :: List.replicate 63 0 ++ treeEntry)

theorem witness_tree_table : (meets (.mtc { TASK with d := 4, a := 0, f6 := 9 }) tabled fun sp I _ => sp.hmode && !(acting (.mtc { TASK with d := 4, a := 0, f6 := 9 }) sp I).isEmpty &&
      tabled.forkDrained sp sp.seq && decide (sp.s 4 = 0x20000) && match (tabled.putSpan sp).deviceRead (some 0) context 0x20000 64 with
        | (s1, .ok head) => decide (head = 1 :: List.replicate 63 0) && match (s1.deviceRead (some 0) context 0x20040 256).2 with | .ok bs => decide (bs = treeEntry) | _ => false
        | _ => false) = true ∧
    TreeGood wholePart.row.piers treeEntry ∧ ¬ TreeGood wholePart.row.piers (List.replicate 256 0) := by
  have below : ∀ i, i < 160 → parentIn treeEntry i ≠ 255 → parentIn treeEntry i = 254 ∧ i = 0 ∨ parentIn treeEntry i = 0 ∧ i = 1 := by decide +kernel
  refine ⟨by decide +kernel, ⟨by decide +kernel, by decide +kernel, ?_, ?_, by decide +kernel, by decide +kernel, by decide +kernel, ?_⟩, fun h => ?_⟩
  · intro i hi h h'
    rcases below i hi h with ⟨h1, -⟩ | ⟨h1, -⟩
    · exact absurd h1 h'
    · rw [h1]; decide +kernel
  · intro i hi h
    rcases below i hi h with ⟨-, rfl⟩ | ⟨h1, rfl⟩
    · exact ⟨0, by decide, rfl⟩
    · exact ⟨1, by decide, h1⟩
  · have : ∀ k, k < 256 → 0x1C ≤ k ∧ k < 0x40 ∨ 0xE0 ≤ k ∧ k < 0x100 → treeEntry.getD k 0 = 0 := by decide +kernel
    exact fun k hk => this k (by omega) hk
  · exact absurd h.scope (by decide +kernel)

/-- A tree of the partition whose open round MTC of TREES closes: what it owes can be written. -/
theorem witness_rounds_closed : (let t : Tree := { num := 1, ctx := 1, result := 0x20000, donea := 0x20100, donev := 5, timeout := 100, scope := .die, root := 0, parent := [254, 0] ++ List.replicate 158 255 }
    let s := { (with_ fun sp => { sp with hmode := true }) with parts := [{ wholePart with net := [t] }] }
    meets (.mtc { TASK with d := 9, a := 0, f6 := 9 }) s fun sp _ _ => sp.hmode && s.forkDrained sp sp.seq && decide (t.owners = [] ∧ t.owed = none ∧ t.shut ≠ some sp.uid ∧ sp.s 9 = 0) &&
      (((s.putSpan sp).putTree sp.part { t with shut := some sp.uid, closing := false, owed := some (t.donev ^^^ 0x8000000000000000) }).deviceWrite none context t.donea (toBytes 8 (t.donev ^^^ 0x8000000000000000).toNat)).2 = (none, [])) = true := by
  decide +kernel

theorem witness_time_and_counters : ([Instr.time { ctl := {}, d := 2 }, .ctr { ctl := {}, d := 2, f6 := 7 }, .ctr { ctl := {}, d := 2, c := 4, f6 := 8 }, .ctr { ctl := {}, d := 2, c := 3, f6 := 1 }, .ctr { ctl := {}, d := 2, c := 3, f6 := 10 },
      .ctr { ctl := { u := true }, d := 2, c := 1, f6 := 4 },
      .sleep { ctl := {}, a := 6, ka := true }].all fun i => wf i && meets i demo fun sp _ _ => !sp.acqHeld) = true := by decide +kernel

theorem witness_shoot_downs_and_snapshots : ([Instr.tlbi { TASK with d := 4, a := 6 }, .tlbi { TASK with d := 4, a := 9 }, .tlbi { ctl := { u := true }, f6 := 1 }, .snap { TASK with d := 1 }].all fun i =>
      wf i && meets i (with_ fun sp => { sp with hmode := true }) fun sp I _ => sp.hmode && !(acting i sp I).isEmpty) = true ∧ (theSpan.s 6).toNat = 100 ∧ theSpan.s 9 = 0 ∧
    (demo.parts.head?.map (·.snap)) = some none := by decide +kernel

/-! The statements about the memory system's steps. -/

/-- A request with one part at the start of line 0x60000, in slot 1, its result in v1 of lane 3. -/
def request (op : AccOp) (f : Access → Access := id) : State := with_ fun sp => { sp with
  landing := [{ slot := 1, seq := 3, st := .inflight, op := .mem, vline := 0x800, pline := 0x1800, write := op.writes
                parts := [⟨f { op := op, lane := some 3, ea := 0x20000, size := 4, data := 7, res := some 9, seq := 3 }, 0, 0, 4⟩] }]
  results := [{ id := 9, lane := some 3, vreg := some (1, 1), need := 1 }] }

/-- Has the state such a request that may be performed? -/
def performs (s : State) : Bool := (s.span? 0).any fun sp => sp.resident && (sp.landing.find? fun f => decide (f.slot = 1)).any fun e =>
  s.canPerform sp e && !(e.write && e.order.releases && e.scope.all) && e.parts.all fun p => decide (p.skip = 0 ∧ p.len = p.acc.size ∧ p.off + p.len ≤ 64)

/-- Lane 3 waits for the read of its watch. -/
def watchRequest : State := let s := request .waita
  { s with spans := s.spans.map fun sp => { sp with lanes := sp.lanes.modify 3 fun ln => { ln with st := .waiting, wait := some (.watch { watch_ with
    acc := { watch_.acc with lane := some 3, seq := 3 }, reading := true }) } } }

theorem witness_requests_performed : (([.load, .lda, .store, .red, .atom, .cas, .sred].map fun op => request op) ++ [request .stl fun a => { a with armed := true, pd := some 2 },
      request .stl fun a => { a with pd := some 2 }, watchRequest]).all performs = true ∧ ((homeDie (64 * 0x1800)).any [0].contains) = true ∧
    performs { request .load with fenced := [0] } = true := by decide +kernel

def resulting (rs : List Result) : State := with_ fun sp => { sp with results := rs }

theorem witness_results_arrive : ([{ id := 9, lane := some 31, vreg := some (1, 1), val := 5 }, { id := 9, lane := some 0, vreg := some (4, 2) },
      { id := 9, lane := some 3, vreg := some (8, 4) }, { id := 9, lane := none, sreg := some 8 }, { id := 9, lane := some 3, pred := some 15, pval := true },
      { id := 9, lane := none, pred := some 7, pval := true }].all fun (r : Result) => ((resulting [r]).span? 0).any fun sp => decide (sp.results.find? (fun q => decide (q.id = r.id)) = some r) &&
        decide (r.need = 0) && !r.skip) = true := by decide +kernel

/-- The entry of `request .load`, and the state with it as `f` leaves it. -/
def loadEntry : Entry := { slot := 1, seq := 3, st := .ashore, op := .mem, vline := 0x800, pline := 0x1800, parts := [] }
def lands (e : Entry) : State := with_ fun sp => { sp with landing := [e] }
def aRecord : TaskRec := { words := [0, 0, 0, 0, 0, 0, 0, 0], fut := 0, launch := 2, uid := 44 }
/-- A record of node 0 in slot 1 that waits for its span's earlier requests, or that is on its way. -/
def recordEntry (st : EState) (r : TaskRec := aRecord) : Entry := { slot := 1, seq := 3, st := st, op := .record r }
/-- The frame of line 0x1800 has moved to 0xB0000: the move is at its last step. -/
def movedTo : Move := { ctx := 1, page := 0x20000, size := 16, leaf := 0x40210, oldLoc := 1, old := 0x60000, newLoc := 1, new := 0xB0000, step := 6, sd := some 77 }

/-- The request in slot 1 has `e` before it, and the device is as `f` leaves it. -/
def landing2 (e : Entry) (f : State → State := id) : State := f (with_ fun sp => { sp with landing := [e, { loadEntry with st := .inflight }] })
/-- The memory requests that hold `loadEntry` back. -/
def marked (s : State) : List Entry := match s.span? 0 with
  | some sp => sp.landing.filter fun f => decide (f.op = .mem) && decide (f.seq < 3) && (decide (f.pline = 0x1800) || decide (f.vline = 0x800)) &&
      match f.st with | .ashore | .chained _ => true | _ => false
  | none => []

/-- A request that may be bounced: by the mark of an earlier one, by a moved frame, by a hold, beyond the tier; and a record on its way. -/
theorem witness_bounces_start : ([landing2 { loadEntry with slot := 4, seq := 2, reason := 3 }, landing2 { loadEntry with slot := 4, seq := 2, st := .done }].all fun s =>
      (s.span? 0).any fun sp => sp.resident && ((sp.landing.find? fun f => decide (f.slot = 1)).any fun e => s.maySend sp e)) = true ∧
    marked (landing2 { loadEntry with slot := 4, seq := 2, reason := 3 }) = [{ loadEntry with slot := 4, seq := 2, reason := 3 }] ∧ marked (landing2 { loadEntry with slot := 4, seq := 2, st := .done }) = [] ∧
    ({ demo with locked := [(0x60000, 65536)] } : State).lineMoved 0x1800 = true ∧
    (let m := { movedTo with newLoc := 3, new := 49152, step := 3 }; m.newLoc = 3 ∧ placeKey m.oldLoc m.old ≤ 64 * 0x1800 ∧ 64 * 0x1800 < placeKey m.oldLoc m.old + 2 ^ m.size) ∧
    ({ demo with holds := [{ vf := 0, on := some (0x1800, 99) }] } : State).lineHeld 0x1800 = true ∧
    ((lands { loadEntry with st := .inflight, pline := 2 ^ 46 }).span? 0).any (fun sp => sp.landing.all fun e => (lands { loadEntry with st := .inflight, pline := 2 ^ 46 }).maySend sp e && decide (2 ^ 52 ≤ 64 * e.pline)) = true ∧
    (recordEntry .inflight).st = .inflight := by decide +kernel

/-- A request that boards again: its backoff over, woken where it was, and checked again after a move of its page, by the TLB or a walk. -/
theorem witness_bounces_end : (((lands loadEntry).span? 0).any fun sp => sp.resident && decide (loadEntry.due ≤ ((lands loadEntry).time sp.die).toNat)) = true ∧
    ({ loadEntry with woken := true, reason := 5 } : Entry).reason ≠ 2 ∧ (recordEntry .ashore).reason ≠ 2 ∧
    ({ demo with locked := [(0x60000, 65536)], moves := [movedTo] } : State).forwarded 0x1800 = some (0xB0000 / 64) ∧
    ([demo, { demo with tlb := [] }].map fun s => s.tlbLook 0 context (64 * 0x800) {}) = [some (.pass 0x60000 .c), none] ∧
    ([{}, { rd := true }, { ex := true, wr := true }].all fun (n : Need) => match (({ demo with tlb := [] } : State).walk (some 0) context (64 * 0x800) n).2 with | .pass k _ => decide (k = 0x60000) | _ => false) = true ∧
    (match (({ demo with tlb := [] } : State).walk (some 0) context (64 * 0xC00) {}).2 with | .pass _ _ => false | _ => true) = true := by decide +kernel

/-- Lane 0 waits for the walk of an access at `va`. -/
def walking (va : Nat) (op : AccOp := .store) : State := with_ fun sp => { sp with
  checks := [⟨9, 3, [0], [{ op := op, lane := some 0, ea := va, size := 4, seq := 3 }], none⟩]
  lanes := sp.lanes.modify 0 fun ln => { ln with st := .waiting, wait := some (.check 9) } }

theorem witness_walks_return : ([(0x60000, 0), (0x30000, 1), (0x40000, 2)].all fun x => ((walking x.1).span? 0).any fun sp => (sp.checks.find? fun k => decide (k.id = 9)).any fun c =>
      sp.joining.isEmpty && (sp.checks.all fun k => decide (k.id = 9)) && c.watch.isNone && c.accs.all fun a => decide ((sp.lane 0).wait = some (.check 9)) && !(walking x.1).checkHeld sp.pier context a &&
        match (((walking x.1).onSpan 0 fun u => { u with checks := u.checks.filter fun k => decide (k.id ≠ 9) }).checkWalk sp.pier context a).2 with
        | .pass _ => decide (x.2 = 0) | .park _ _ => decide (x.2 = 1) | .fatal _ _ => decide (x.2 = 2) | .wait => false) = true := by decide +kernel

/-- A copy of 128 bytes within the deck that waits for its drain; one of nothing. -/
def copy_ : FerryOp := { id := 3, kind := .fcpy, st := .drain, seq := 3, scope := .die, dst := 0x8000000000000100, src := 0x8000000000000000, shape := 128 }
def ferries (o : FerryOp) : State := with_ fun sp => { sp with ferry := [o] }
/-- The partition with a tree 1 rooted at pier 0, whose contributors are piers 0 and 1. -/
def tree1 : Tree := { num := 1, ctx := 1, result := 0x20000, donea := 0x20100, donev := 5, timeout := 100, scope := .die, root := 0,
                      parent := [254, 0] ++ List.replicate 158 255 }
def onTree (t : Tree) (s : State) : State := { s with parts := [{ wholePart with net := [t] }] }
def plane_ (k : PlaneKind) : PlaneOp := { id := 3, pier := 0, span := 0, uid := 5, blk := (2, 0), kind := k, st := .drain, seq := 3, fmt := 0, ctl := 0x10000, opa := 0, opb := 0 }
def planes (o : PlaneOp) : State := { demo with planeq := [o] }
/-- The deck with an anchor of 1000 in the state that PACL at 0 loads. -/
def badAnchor : State := { planes (plane_ .pacl) with blocks := [{ theBlock with deck := [(49664, 0xE8), (49665, 3)] }] }
/-- The deck with a full first mask in the A operand of PMMS at 0. -/
def badSparse : State := { planes { plane_ .pmms with fmt := 0x800 } with blocks := [{ theBlock with deck := [(8, 255), (9, 255)] }] }

theorem witness_engine_forks : ([({ copy_ with comp := 4 } : FerryOp), { copy_ with comp := 0x8000000000000000 }, copy_, { copy_ with shape := 0 }].all fun o =>
      ((ferries o).span? 0).any fun sp => sp.resident && (sp.ferry? 3).isSome && (ferries o).forkDrained sp 3 && !o.cancel && o.fail.isNone &&
        decide (o.comp ≠ 0 ∨ ((ferries o).ferryRefused context sp o = none ∧ o.total = o.shape.toNat))) = true ∧
    ([onTree tree1, id].all fun f => ((f (ferries { copy_ with kind := .nsend, tree := 1 })).span? 0).any fun sp => (f (ferries copy_)).forkDrained sp 3) = true ∧
    (onTree tree1 demo).tree? 0 1 = some tree1 ∧ demo.tree? 0 1 = none ∧
    ([planes (plane_ .pmma), planes { plane_ .pmms with fmt := 0x800 }, badSparse, planes (plane_ .pacl), badAnchor].all fun s => (s.span? 0).any fun sp => sp.resident &&
      s.forkDrained sp 3 && (s.block? (2, 0)).isSome && s.planeq.any fun o => decide (o.uid = sp.uid) && decide (o.st = .drain)) = true ∧
    sparseBad 8 (sgets 0 [] 0 64) = false ∧ sparseBad 8 (sgets 0 [(8, 255), (9, 255)] 0 64) = true ∧
    (BitVec.ofNat 64 (leNat (sgets 0 [(49664, 0xE8), (49665, 3)] 49664 8))).toInt = 1000 ∧
    (((lands (recordEntry .ordered)).span? 0).any fun sp => (lands (recordEntry .ordered)).drained sp 3) = true := by decide +kernel

/-! The statements about engines, the net, records and futures. -/

/-- The copy of 128 bytes while it runs; its first and last chunk. -/
def running_ : FerryOp := { copy_ with st := .running }

theorem witness_engines_run : ((ferries running_).span? 0).any (fun sp => sp.resident && decide (sp.status = .running) && decide (sp.ferry? 3 = some running_)) = true ∧
    ((ferries running_).block? (2, 0)).isSome = true ∧ running_.chunk? 0 = some ⟨[(.deck 0, 64)], .deck 256, 64⟩ ∧ running_.total = 128 ∧ running_.order 0 ≤ running_.nextChunk + 64 ∧
    ({ running_ with done := [0], bytes := 64 } : FerryOp).chunk? 1 = some ⟨[(.deck 64, 64)], .deck 320, 64⟩ ∧
    (let s := planes { plane_ .pmma with st := .queued }; s.planeq.all fun o => s.planeRuns o && decide (0 < o.steps) && decide (o.words = []) &&
      (s.planeq.find? fun q => decide (q.pier = 0) && decide (q.st = .running)).isNone) = true ∧
    (running_.link = none ∧ running_.comp = 0 ∧ running_.stripes = [] ∧ running_.words = [] ∧ 1 < 2 ^ 80) ∧
    (let s : State := { demo with shadows := [⟨0, 0, 0x1800, 0, 0, 4, [(8, 5)], []⟩] }; s.shadows.all fun h => !s.lineHeld h.line && decide (h.elems = [(8, 5)] ∧ h.size = 4) && !(s.fenced.contains h.die || (homeDie (64 * h.line)).any s.fenced.contains) && ({ s with fenced := [0] } : State).fenced.contains h.die) = true ∧
    ({ plane_ .pmma with st := .running, done := 1 } : PlaneOp).steps = 1 ∧ ctlTile (plane_ .pmma).ctl < theBlock.tiles.length := by decide +kernel

def sends (tree round : Nat) : State := onTree tree1 (ferries { copy_ with kind := .nsend, st := .running, tree := tree, round := round, vec := List.replicate 32 1 })
/-- Tree 1 with the contributions of pier 0 and of the other; a round whose time is over. -/
def twoSent : Tree := { tree1 with sent := [(0, List.replicate 32 0x3F800000), (1, List.replicate 32 0x40000000)], owners := [5], due := some 9 }
def oneSent : Tree := { tree1 with sent := [(0, List.replicate 32 0x3F800000)], owners := [5], due := some 0 }

theorem witness_net_rounds : (sends 1 0).tree? 0 1 = some tree1 ∧ (sends 9 0).tree? 0 9 = none ∧ tree1.parent.getD 0 255 = 254 ∧ tree1.parent.getD 159 255 = 255 ∧ tree1.round < 1 ∧
    (onTree { tree1 with round := 2 } (sends 1 0)).tree? 0 1 = some { tree1 with round := 2 } ∧ (twoSent.sent.any fun c => decide (c.1 = 0)) = true ∧
    (((List.range 160).all fun i => decide (tree1.parent.getD i 255 = 255) || (twoSent.sent.any fun c => decide (c.1 = i))) = true) ∧ (oneSent.sent.any fun c => decide (c.1 = 1)) = false ∧
    (let s := onTree twoSent demo
     let r := s.rootWrite 0 twoSent twoSent.result (((twoSent.partialSum 160 0).map fun x => toBytes 4 x.toNat).flatten)
     let t1 := { twoSent with owed := some twoSent.donev }
     decide (r.2 = some (some twoSent)) && decide (((r.1.putTree 0 t1).rootWrite 0 t1 t1.donea (toBytes 8 5)).2 = some (some t1))) = true ∧
    (let t1 := { oneSent with owed := some (oneSent.donev ^^^ (1 <<< 63)) }
     decide (((((onTree oneSent demo).putTree 0 t1).netFail oneSent).rootWrite 0 t1 t1.donea (toBytes 8 5)).2 = some (some t1))) = true := by decide +kernel

/-- A record of the launch's node, its future queued. -/
def nodeRecord : TaskRec := { words := [0x10100, 0, 0, 0, 0, 0, 0, 0], fut := fut9.handle, launch := 2, uid := 44 }
def sent_ (r : TaskRec) : State := { (lands (recordEntry .inflight r)) with futs := [{ fut9 with st := .queued }] }
def atPier (sent : Bool) (r : TaskRec := nodeRecord) : QRec := ⟨0, 0, sent, r, 0⟩
def openBerth : Berth := { pier := 0, num := 0, part := 0, launch := 2, node := ⟨0x10100, 64, 4, 2⟩, recs := [nodeRecord], due := 0 }

theorem witness_records_and_berths : ([nodeRecord, aRecord].all fun r => ((sent_ r).span? 0).any fun sp => (sp.landing.any fun e => decide (e.st = .inflight)) && decide ((sent_ r).route sp 0 = some 0)) = true ∧
    (sent_ nodeRecord).nodeOf nodeRecord ≠ none ∧ (sent_ aRecord).nodeOf aRecord = none ∧ (sent_ nodeRecord).taskq = [] ∧ 32 ≤ (List.replicate 32 (atPier false)).length ∧
    ([atPier true].length < ({ sent_ nodeRecord with taskq := [atPier true] } : State).ringCap 0 0) ∧
    ({ sent_ nodeRecord with taskq := [atPier true], rings := [(0, 0)] } : State).ringCap 0 0 ≤ 1 ∧
    demo.isDoomed nodeRecord = false ∧ demo.fenced.contains 0 = false ∧ (demo.nodeOf nodeRecord).isSome = true ∧
    (let s : State := { demo with taskq := [atPier true], ctxs := [{ context with status := .saved }] }
     s.taskq.all fun q => ((s.launch? q.body.launch).bind fun l => s.ctx? l.ctx).any fun cx => decide (cx.status = .saved)) = true ∧
    ({ demo with taskq := [atPier false] } : State).taskq.find? (fun k => decide (k.pier = 0) && !k.spill) = some (atPier false) ∧
    (let s : State := { demo with berths := [{ openBerth with asking := some 4 }], parts := [{ wholePart with taskbase := 0x60000 }] }
     let recs := (openBerth.recs.map TaskRec.bytes).flatten
     s.openTo 0 && !s.ckStops 0 && decide (nextSlot (s.room 0).used (s.closedOn 0) 64 = some 16) &&
       decide ((s.deviceWrite (some 0) context (BitVec.ofNat 64 (0x60000 + 2048 * 16)) (recs ++ List.replicate (2048 - recs.length) 0)).2.1 = none)) = true := by
  decide +kernel

def messages (k : MsgKind) (o : Owner := .span 5) (f : Future := fut9) : State := { futDemo f with fmsgs := [⟨0, 5, o, fut9.handle, k⟩] }

theorem witness_messages_applied : ([MsgKind.fref 1, .drop true, .drop false, .poll 3 9, .fret 6 4 0 2].all fun k => ((messages k).spanOf? 5).any fun sp => decide ((messages k).span? sp.id = some sp) &&
      !(messages k).stale sp.part fut9.handle && (messages k).drained sp 4 && Owner.alive (.span 5) sp) = true ∧
    (messages (.fref 1)).futureRoom 0 none = true ∧ ({ messages (.fref 1) with parts := [{ wholePart with row := { wholePart.row with entryCap := 0, entrySram := 0 } }] } : State).futureRoom 0 none = false ∧
    (messages (.fref 1)).saved = [] ∧
    (messages (.fref 1) (f := { fut9 with count := 0 })).future fut9.handle = { fut9 with count := 0 } ∧
    (messages (.poll 3 9) (f := { fut9 with serial := 4 })).stale 0 fut9.handle = true ∧
    ([FutState.done, .failed, .doomed, .queued].all fun st => decide (((messages (.poll 3 9) (f := { fut9 with st := st })).future fut9.handle).st = st)) = true ∧
    fut9.serial = handleSerial fut9.handle ∧ 3 + 1 < 2 ^ 36 ∧ ({ fut9 with serial := 2 ^ 36 - 1 } : Future).serial + 1 = 2 ^ 36 := by decide +kernel

/-- Lane 2, whose task's future is doomed, ready or asleep. -/
def dooming (st : LaneState) (w : Option Wait) : State := let s := futDemo { fut9 with st := .doomed }
  { s with spans := s.spans.map fun sp => { sp with lanes := sp.lanes.modify 2 fun ln => { ln with st := st, wait := w } } }
def joining (slot : Bool) (st : FutState) (drop : Bool := false) (refs : List Ref := []) : State := let s : State := { futDemo { fut9 with st := st, wait := 1, count := 2 } with refs := refs }
  { s with spans := s.spans.map fun sp => { sp with lanes := sp.lanes.modify 0 fun ln => { ln with st := .waiting, wait := some (.join
    { handle := fut9.handle, reg := 8, n := 2, drop := drop, slot := slot, poll := 0, asked := true }) } } }

theorem witness_dooms_and_joins : ([dooming .waiting (some (.sleep 9)), dooming .ready none].all fun s => (s.span? 0).any fun sp => sp.resident && (sp.lane 2).task.any fun t =>
      decide (t.fut ≠ 0 ∧ (s.future t.fut).serial = handleSerial t.fut ∧ (s.future t.fut).st = .doomed)) = true ∧
    ([joining true .done, joining false .done, joining true .failed, joining false .doomed, joining true .queued, joining false .running,
      joining true .done true, joining true .failed true [⟨.span 5, fut9.handle⟩]].all fun s => (s.span? 0).any fun sp => sp.resident && !s.stale sp.part fut9.handle &&
      decide ((s.time sp.die).toNat = 0) && (List.range 32).all fun k => decide (k = 0) || decide ((sp.lane k).wait = none ∧ (sp.lane k).kept = none)) = true := by decide +kernel

/-- Words whose issue is a reclamation point; the branches lead to their own addresses, or to the one in s11. -/
def points : List Instr :=
  [.bra ⟨{}, 0, 0, false, -1⟩, .brq ⟨{ u := true }, 0, 0, true, -1⟩, .brx { ctl := {}, a := 11, ka := true }, .call ⟨{}, 6, 0, false, 9⟩, .callx { ctl := {}, d := 6, a := 11, ka := true },
   .cvg { ctl := {} }, .sleep { ctl := {}, a := 6, ka := true }, .fjoin { ctl := {}, d := 8, a := 20, ty := .b64 }, .fpoll { ctl := {}, d := 8, a := 20, b := 1, ty := .b64 },
   .waita { ATOM_ with d := 1, off := 5 }, .spawn TASK]
/-- The lanes in `ls` run tasks that they know to be doomed. -/
def doomed (ls : List Nat) : State := with_ fun sp => { sp.onLanes ls (fun ln => { ln with task := some ⟨41, fut9.handle, true⟩ }) with
  sregs := [(4, 0x20000), (6, 100), (11, 0x10000), (20, fut9.handle)] }

theorem witness_reclamation_points : (points.all fun i => wf i && [[2], laneNums].all fun ls => issues i (doomed ls) fun sp I a => decide (a = 0x10000) && sp.doomedAt 2 && !sp.due &&
      !sp.acqHeld && decide (0 < sp.landFree) && ls.all (fun l => l ∈ acting i sp I && (sp.lane l).depth ≠ 255) &&
      sp.memReady (entriesFor ((acting i sp I).map fun l => { op := .waita, lane := some l, ea := 0x20000, size := 4 }))) = true ∧
    (points.all fun i => ((spanAfter (exec i (doomed [2]))).lane 2).st = .reclaimed ∧ ((spanAfter (exec i (doomed [2]))).lane 3).st ≠ .reclaimed) = true := by decide +kernel

/-! The statements about pages and the schedulers. -/

/-- The compressed page at 0x90000, which a notice may wait for with the reason MIGRATE. -/
def moveDemo_ : State := { demo with mem := (demo.putWord 0x40248 (leafAt 3 0x10000)).mem }

/-- Lane 0 is parked on a page, and may be on others, and the service has its notice. -/
def parkedOn (page : Nat) (more : List Nat := []) : State := let s := with_ fun sp => { sp with lanes := sp.lanes.modify 0 fun ln =>
    { ln with st := .parkedRec, reason := some .page, pages := page :: more } }
  { s with notices := [⟨1, page, .page, .lane 5 0, true⟩] }

theorem witness_fault_service : ([0x30000, 0x20000, 0x50000].all fun page => ((parkedOn page).leafOf context page).any fun lf => !(parkedOn page).walkHeld context page && decide (lf.loc = if page = 0x30000 then 0 else if page = 0x20000 then 1 else 2) &&
      !lf.word.getLsbD 61 && (page != 0x30000 || (parkedOn page).frameFree 0 0xC0000 (2 ^ lf.log)) && ([[], [0x40000]].all fun more =>
        let s := parkedOn page more
        ((s.notices.filter fun n => decide (n.ctx = 1) && decide (n.page / 2 ^ lf.log = page / 2 ^ lf.log)).length == 1) && (s.span? 0).any fun sp =>
          decide ((sp.lane 0).st = .parkedRec ∧ (sp.lane 0).pages.filter (fun p => decide (p / 2 ^ lf.log ≠ page / 2 ^ lf.log)) = more))) = true ∧ (0 < 2 ^ 16 ∧ 2 ^ 16 - 1 < 2 ^ 16) ∧
    (({ moveDemo_ with notices := [⟨1, 0x90000, .migrate, .lane 5 0, true⟩] } : State).leafOf context 0x90000).any (fun lf => decide (lf.loc = 3) && !lf.word.getLsbD 61) = true := by
  decide +kernel

/-- A partition with some zone slots and a capacity range; a compressed page at 0x90000 in slot 1; a page waits for a frame. -/
def moveDemo (slots : List Nat) : State := { demo with parts := [{ wholePart with row := { wholePart.row with zoneSlots := slots, capFrames := [(0, 2 ^ 24)] } }]
                                                       mem := moveDemo_.mem, notices := [⟨1, 0x30000, .page, .lane 5 0, true⟩] }

/-- With its one slot in use, the zone has none for a page of 64 KiB. -/
theorem no_zone (frame slot : Nat) : (moveDemo [1]).zoneOk 0 frame 65536 slot = false := by
  have used : 1 ∈ (moveDemo [1]).slotsUsed 0 := by decide +kernel
  unfold State.zoneOk
  by_cases h : slot = 1
  · subst h; simp [slotsOf, used]
  · have : (moveDemo [1]).ownsPlace 0 3 (zoneStep * slot) 65536 = false := by
      have : zoneStep * slot / zoneStep = slot := Nat.mul_div_cancel_left _ (by decide)
      simp [State.ownsPlace, slotsOf, moveDemo, this, h]
    simp [this]

/-- Whether the page that ranks first compresses or not, the eviction of it may start: to slot 9, to frame 0, or with no slot left in its
stack, of the zone's page. -/
theorem witness_moves_start : (let s := moveDemo [1, 9]
      (s.leafOf context 0x90000).any (fun lf => decide (lf.loc = 3) && !lf.word.getLsbD 61 && s.ownsPlace 0 lf.loc lf.place (2 ^ lf.log) && s.frameFree 0 0xC0000 (2 ^ lf.log)) &&
      (s.leafOf context 0x50000).any (fun lf => decide (lf.loc = 2 ∧ peerOf lf.frame = 0) && s.ownsPlace 0 lf.loc lf.place (2 ^ lf.log) && s.frameFree 0 0xC0000 (2 ^ lf.log)) && s.moves.isEmpty && !s.lineHeld (0x40248 / 64) &&
      decide (s.movesOf 0 (quayOf 1 0 3 0) < s.moveShare 0) && s.evictWanted 0 &&
      (s.firstRanked 0 1).any fun x => decide (x.2.1 = 0x10000) && !x.2.2.word.getLsbD 61 && decide (16 ≤ x.2.2.log) && s.ownsPlace 0 x.2.2.loc x.2.2.place (2 ^ x.2.2.log) && s.capOk 0 0 (2 ^ x.2.2.log) && s.zoneOk 0 x.2.2.frame (2 ^ x.2.2.log) 9) = true ∧
    (let s := moveDemo [1]; s.evictWanted 0 && (s.firstRanked 0 1).any (fun x => decide (x.2.2.log = 16))  && (s.firstRanked 0 3).any fun x => decide (x.2.1 = 0x90000) && s.capOk 0 0 (2 ^ x.2.2.log)) = true ∧
    (0x10000 % 65536 = 0 ∧ 2 ^ 52 - 65536 < 2 ^ 52) := by decide +kernel

/-- A move of the page at 0x20000 at a step, and its shoot-down. -/
def moving (k : Nat) (ds : List ShootDown := []) : State := { demo with moves := [{ movedTo with step := k, sd := if k = 1 then none else some 77 }], shoots := ds,
                                                                                  locked := if k < 3 then [] else [(0x60000, 65536)] }
def theShoot : ShootDown := { id := 77, part := 0, ctx := 1, start := 0x20000, stop := 0x30000, waiting := [0, 160] }

theorem witness_page_moves : ([moving 0, moving 1, moving 2, moving 2 [theShoot], moving 3, moving 4, moving 5, moving 6, moving 6 [{ theShoot with waiting := [], holders := [(0, [(5, 3)])] }]].all fun s =>
      (s.moves.all fun m => decide (m.leaf = movedTo.leaf)) && decide (s.moves.length = 1) && decide (s.shadows = []) && s.holds.isEmpty && Memory.wf s.mem && (s.ctx? 1).isSome) = true := by decide +kernel

/-- A pier whose request in slot 1 holds the old translation, and one whose request has ended. -/
def holding (st : EState) : State := { lands { loadEntry with st := st } with shoots := [{ theShoot with holders := [(0, [(5, 3)])], waiting := [160] }] }

theorem witness_shoot_down_steps : ([moving 2 [theShoot], moving 2 [{ theShoot with waiting := [160], issuer := some 5 }], moving 2 [{ theShoot with waiting := [0] }]].all fun s =>
      (s.shoots.find? fun e => decide (e.id = 77)).isSome && (s.spanOf? 5).isSome) = true ∧
    ([EState.inflight, .done].all fun st => ((holding st).spanOf? 5).any fun sp => decide (sp.status = .running) && sp.landing.any fun e => decide (e.seq = 3 ∧ e.st = st)) = true ∧
    (({ holding .done with shoots := [{ theShoot with holders := [(0, [(5, 3)])], waiting := [], issuer := some 5 }] } : State).shoots.any fun d =>
      decide (d.waiting = [] ∧ d.issuer = some 5)) = true := by decide +kernel

/-- Spans in slots 0 and 1 of quadrant 0; the second has waited `n` cycles. -/
def twoSpans (n : Nat) : State := { demo with picked := none, spans := ([theSpan, { theSpan with id := 1, uid := 6, age := 3, waited := n }] : List Span) }
def at_ (a : Word) (s : State := demo) : State := { s with spans := s.spans.map fun sp => { sp with lanes := sp.lanes.map fun ln => { ln with pc := a } } }

theorem witness_picks_and_fetches : ([twoSpans 0, twoSpans 47, twoSpans 48].all fun s => decide (s.picked = none) && decide ((s.spans.filter fun sp =>
      decide (sp.id / 16 = 0) && sp.resident && (s.holdOf sp).isNone).length = 2)) = true ∧
    ([demo, { demo with tlb := [] }, at_ 0x30000, at_ 0x40000].all fun s => (s.span? 0).any fun sp => !sp.held && (sp.select).any fun x => decide (x.2.2.toNat = if s = at_ 0x30000 then 0x30000
      else if s = at_ 0x40000 then 0x40000 else 0x10000)) = true ∧
    (demo.tlbLook 0 context 0x10000 { ex := true }).any (fun o => match o with | .pass k _ => decide (k = 0x50000) | _ => false) = true ∧ demo.lineHeld (0x50000 / 64) = false ∧
    ([demo, { demo with tlb := [] }].map fun s => s.walkHeld context 0x10000) = [false, false] ∧
    ({ demo with tlb := [], holds := [{ vf := 0, on := some (0x40208 / 64, 99) }] } : State).walkHeld context 0x10000 = true ∧
    ({ demo with holds := [{ vf := 0, on := some (0x50000 / 64, 99) }] } : State).lineHeld (0x50000 / 64) = true ∧ demo.streams = [] ∧
    ([0x10000, 0x30000, 0x40000].map fun a => match (({ demo with tlb := [] } : State).walk (some 0) context a { ex := true }).2 with | .pass _ _ => 0 | .park _ => 1 | .fatal _ => 2) = [0, 1, 2] := by
  decide +kernel

/-- A launch of two blocks of three spans, none placed, in an empty partition. -/
def placing : State := { demo with spans := [], blocks := [], picked := none, launches := [{ theLaunch with
  nblk := 2, range := [(0, 2), (0, 0), (0, 0), (0, 0)], next := [0, 0, 0, 0], started := false, roles := [⟨0x10000, 64, 2⟩, ⟨0x10100, 128, 1⟩], records := 0 }] }

theorem witness_blocks_placed : (placing.launch? 2).any (fun l => decide (l.trees = 0) && !l.gang && placing.admitted l && (placing.parts[0]?).any fun p =>
      decide (placing.nextBlock p l (placing.inTurn p l) = some (0, 0, [0, 16, 32])) && !placing.ckStops 0) = true := by decide +kernel

def ended (f : Span → Span := id) : State := let s := with_ fun sp => f { sp with lanes := sp.lanes.map fun ln => { ln with st := .exited } }
  { s with picked := none, launches := [{ theLaunch with records := 0 }] }
/-- The launch with nothing left of it. -/
def spent (donea : Word) : State := { ended with spans := [], blocks := [], launches := [{ theLaunch with records := 0, donea := donea }] }

theorem witness_ends : (ended.span? 0).any (fun sp => sp.allEnded && ended.quiet sp && decide (sp.due = false ∧ sp.trap = none ∧ sp.preempt = none ∧ sp.status = .running)) = true ∧
    (demo.span? 0).any (fun sp => !sp.allEnded) = true ∧ ((ended fun sp => { sp with due := true }).span? 0).any (·.due) = true ∧
    ({ ended with spans := [] } : State).blocks ≠ [] ∧ (demo.spans.any fun t => decide (t.block = (2, 0))) = true ∧
    ([spent 0, spent 0x20000].all fun s => (s.launch? 2).any fun l => l.done s && decide (l.note = false)) = true ∧
    (((spent 0x20000).deviceWrite none context 0x20000 (toBytes 8 7)).2.1 = none) ∧ (demo.launch? 2).any (fun l => decide (l.records ≠ 0)) = true ∧ ended.shadows = [] ∧ ended.refs = [] ∧
    (match ((spent 0x40000).deviceWrite none context 0x40000 (toBytes 8 7)).2.1 with | some (.fatal _) => true | _ => false) = true ∧
    ({ spent 0 with shadows := [⟨0, 0, 0x1800, 0, 0, 4, [(8, 5)], []⟩] } : State).lineHeld 0x1800 = false := by decide +kernel

/-! The statements about pre-emption. -/

def saving (p : Option (Nat × Bool)) (pend : List Nat) (f : Span → Span := id) : State := let s := with_ fun sp => f { sp with preempt := p }
  { s with ctxs := [{ context with status := .saving, pending := pend }] }
/-- Lane 1 stands at another address, so that the span has not reconverged. -/
def apart (sp : Span) : Span := { sp with lanes := sp.lanes.modify 1 fun ln => { ln with pc := 0x10008 } }
def parkedAll (sp : Span) : Span := { sp with lanes := sp.lanes.mapIdx fun l ln => { ln with st := .parkedRec, pc := BitVec.ofNat 64 (0x10000 + 8 * l), pages := [0x30000], reason := some .page } }

/-- A span saved full in the region at 4096 of the save area, whose record says so. -/
def resuming : State :=
  let sp : Span := { theSpan with status := .saved true, lanes := theSpan.lanes.map fun ln => { ln with savedAs := some (.ready, 0x10000, 0) } }
  { demo with spans := [], saved := [sp], picked := none, blocks := [{ theBlock with bytes := 0, tiles := [] }], mem := tables ++ [(0x61101, 0x80)]
              ctxs := [{ context with status := .resuming, regions := [((2, 0), 4096)] }] }

theorem witness_saves_and_resumptions : ((saving none [5]).span? 0).any (fun sp => decide (sp.status = .running)) = true ∧
    ([saving (some (0, false)) [], saving (some (9, false)) []].all fun s => (s.span? 0).any fun sp => decide ((s.time sp.die).toNat = 0) && s.saveReady sp && decide (sp.trap = none ∧ sp.due = false)) = true ∧
    (((saving (some (0, false)) [] fun sp => { sp with results := [{ id := 9, lane := none, sreg := some 8, need := 1 }] }).span? 0).any fun sp => !(saving (some (0, false)) []).saveReady sp) = true ∧
    ([saving (some (0, true)) [] apart, saving (some (0, false)) [] parkedAll].all fun s => (s.span? 0).any fun sp => s.saveReady sp && decide ((sp.lane 1).pc = 0x10008)) = true ∧
    ((saving (some (0, false)) [] parkedAll).span? 0).any (fun sp => (List.range 32).all fun l => decide ((sp.lane l).st = .parkedRec)) = true ∧
    (([(apart, false, none), (id, false, some false), (apart, true, some true), (parkedAll, false, some true), (fun sp => { apart sp with point := some false }, true, some false)] :
      List ((Span → Span) × Bool × Option Bool)).all fun x => decide ((x.1 { theSpan with preempt := some (9, x.2.1) }).savePoint = x.2.2)) = true := by decide +kernel

/-- A span with what a record holds: a store that is ordered, a watch of lane 5, a ferry operation. -/
def keeping : Span := { theSpan with
  budget := 8
  lanes := theSpan.lanes.mapIdx fun l ln => if l = 0 then { ln with st := .exited } else if l = 5 then { ln with st := .waiting, wait := some (.watch watch_) } else ln
  landing := [{ slot := 3, seq := 9, st := .inflight, op := .mem, vline := 0x804, pline := 0x1804, write := true, parts := [⟨{ op := .store, lane := some 3, ea := 0x20104, size := 4, data := 0xA1B2C3D4 }, 4, 0, 4⟩] }]
  ferry := [copy_] }
/-- A context whose one span is saved, its save area of `size` bytes. -/
def storing (size : Nat) : State := { demo with
  ctxs := [{ context with status := .saving, savesize := BitVec.ofNat 64 size }], blocks := [{ theBlock with bytes := 0, tiles := [] }], picked := none
  spans := [{ theSpan with budget := 16, status := .saved false, lanes := theSpan.lanes.map fun ln => { ln with st := .exited } }] }

/-- A record's fields, of a save of each kind; and save areas of too few bytes and of enough (with no block
in it: of a block's, each of the thousands of bytes would be a step of the proof). -/
theorem witness_save_bytes : ([true, false].all fun full => let rs := keeping.saveBytes full false 0
      decide (keeping.lanes.length = 32 ∧ keeping.landing.length ≤ 32 ∧ (keeping.ordered.map (·.seq)) = [9] ∧ (((keeping.lanes.map Lane.slotWaits).flatten.map fun w => (w.1, w.2.1)).eraseDups).length ≤ 4) &&
        (keeping.ordered.all fun e => decide (e.op = .mem) && e.parts.all fun p => decide (p.acc.op = .store ∧ p.off + p.len ≤ 64 ∧ p.skip + p.len ≤ 16)) &&
        ([0xD4, 0xC3, 0xB2, 0xA1] : List Byte).zipIdx.all (fun x => runByte rs (1024 + 128 * 8 + 68 + x.2) = some x.1) && decide (runByte rs 64 = if full then some 5 else none)) = true ∧
    (let s := storing 4096; s.ctxs.all fun cx => decide (cx.savesize.toNat < (s.saveLayout s.spans).2)) = true ∧
    (let s : State := { storing 0x10000 with spans := [] }
     let L := s.saveLayout s.spans
     s.ctxs.all fun cx => decide (cx.status = .saving ∧ L.2 ≤ cx.savesize.toNat ∧ s.planeq = [] ∧ L.1 = []) &&
       (s.writeRuns cx cx.savebase [(0, toBytes 8 L.1.length ++ toBytes 8 L.2 ++ toBytes 48 0)]).2 = (none, [])) = true := by decide +kernel

theorem witness_resumptions : (resuming.block? (2, 0)).any (fun k => decide (k.tiles = []) && match blockSpans (resuming.saved.filter fun t => decide (t.ctx = 1)) k with
      | [sp] => decide (sp.pier = k.pier) && !resuming.fenced.contains 0 && resuming.roomFor k [sp] && decide (sp.ferry = [] ∧ sp.lanes.length = 32) && sp.lanes.all (fun ln => ln.wait.isNone && ln.kept.isNone && ln.task.isNone &&
          ln.savedAs.isSome) && (match (resuming.deviceRead none { context with status := .resuming } (context.savebase + 4096) (regionAt k [sp] 0).size).2 with
            | .ok bs => decide (leNat (((bs.drop 256).take sp.recordSize).take 8) / 2 ^ 15 % 2 = 1)
            | .error _ => false)
      | _ => false) = true := by decide +kernel

/-! The statements about queues and the package. -/

def theQueue : Queue := { id := 0, rbase := 0x1000, rsize := 4, ebase := 0x8000, esize := 4, st := .running }
def queueDemo (q : Queue) : State := { demo with queues := [q] }
/-- The function's queue 1, disabled, with its sizes set. -/
def idleQueue : Queue := { theQueue with id := 1, st := .disabled, cinit := 0x100 }

theorem witness_queue_commands : demo.hasQueue 0 0 = true ∧ demo.hasQueue 0 15 = true ∧
    ([QState.disabled, .running, .overrun, .killing, .stopped].all fun st => decide (((queueDemo { theQueue with st := st }).queue 0).st = st)) = true ∧
    (16 - (theQueue.ridx : Word)).toNat ≤ 2 ^ theQueue.rsize.toNat ∧ 2 ^ theQueue.rsize.toNat < (17 - (theQueue.ridx : Word)).toNat ∧
    4 ≤ idleQueue.rsize.toNat ∧ idleQueue.esize.toNat ≤ 16 ∧ (demo.ctxs.all fun c => decide (c.part ≠ 0 ∨ c.number ≠ 255)) = true ∧
    (({ theQueue with rsize := 3 } : Queue).rsize.toNat < 4) ∧ 16 < ({ theQueue with esize := 17 } : Queue).esize.toNat := by decide +kernel

/-- The first record of the ring, by its 8-byte words at their offsets, and a doorbell for it. -/
def consuming (ws : List (Nat × Word)) : State :=
  { queueDemo { theQueue with widx := 1 } with mem := (ws.foldl (fun (t : State) x => t.putWord (2 ^ 65 + 0x1000 + x.1) x.2) demo).mem }
/-- One block of one span with 64 registers on die 0. -/
def goodRecord : List (Nat × Word) := [(0x10, 1), (0x20, 0x100000000), (0x40, 0x10000), (0x48, 0x10040)]

theorem witness_records_and_events : (([(goodRecord, 0), ([], 1), (goodRecord ++ [(0x80, 0x30000), (0x88, 1)], 2)] : List (List (Nat × Word) × Nat)).all fun x =>
      let s := consuming x.1
      decide (s.queueCtx 0 = some context) && decide ((s.queue 0).st = .running ∧ (s.queue 0).ridx ≠ (s.queue 0).widx) &&
        match (s.admitRecord none context (some 0) false (s.bytes (2 ^ 65 + 0x1000) 256)).2 with
        | .ok _ => decide (x.2 = 0) | .bad r => decide (x.2 = 1 ∧ r = 1) | .park _ _ => decide (x.2 = 2)) = true ∧
    ((theQueue.ewidx - theQueue.eridx).toNat < 2 ^ (theQueue.esize.toNat % 32) ∧ theQueue.held = []) ∧
    ¬ (({ theQueue with ewidx := 16 } : Queue).ewidx - theQueue.eridx).toNat < 2 ^ (theQueue.esize.toNat % 32) ∧ 64 ≤ (List.replicate 64 ([] : List Byte)).length ∧
    (2 < 2 ^ 32 ∧ 2 ^ 256 - 1 < 2 ^ 256 ∧ 2 ^ 64 - 1 < 2 ^ 64) := by decide +kernel

def queueAt (st : QState) (c : CtxStatus) (f : State → State := id) : State := f { queueDemo { theQueue with st := st } with ctxs := [{ context with status := c }] }
/-- Two contexts that share the partition by slices: one runs, the other was saved for its slice. -/
def slicing (slice : Option Nat) : State := { demo with
  parts := [{ wholePart with row := { wholePart.row with slice := slice } }], ctxs := [context, { context with id := 9, number := 4, queue := 1, status := .saved, quiet := true }] }
/-- Function 0 holds its line 0x20000 for its queue 0: registers, armed, in force. -/
def holdDemo (h : Hold) : State := { demo with holds := [h] }

theorem witness_queue_saves_and_holds : ([(QState.running, CtxStatus.running), (.overrun, .running), (.disabled, .running), (.saved, .saved), (.resuming, .resuming), (.saving, .saving), (.running, .saving), (.running, .resuming),
      (.overrun, .killing), (.overrun, .saved)].all fun x =>
      let s := queueAt x.1 x.2; (s.queueCtx 0).any fun c => decide (c.status = x.2 ∧ (s.queue 0).st = x.1)) = true ∧
    (({ queueAt .saved .saved with saved := [theSpan] } : State).saved.any fun t => decide (t.ctx = 1)) = true ∧
    ([some 5, none].all fun sl => ((slicing sl).parts.head?.map (·.row.slice)) == some sl && ((slicing sl).ctx? 1).any (fun c => decide (c.status = .running)) &&
      ((slicing sl).ctx? 9).any fun c => decide (c.status = .saved) && c.quiet) = true ∧
    ((slicing (some 5)).startSave 1 true false).ctx? 9 = some { context with id := 9, number := 4, queue := 1, status := .saved, quiet := true } ∧
    ((queueAt .running .running).ctx? 1 = some context ∧ theSpan.landing = [] ∧ theSpan.unsent = [] ∧ theSpan.joining = [] ∧ theSpan.ferry = []) ∧
    ([(0x20000, some (0x60000 / 64), none), (0x40000, none, none), (0x20000, some (0x60000 / 64), some (0x1000, 9))].all fun x =>
      let a : Armed := ⟨x.1, 0, 1000000, some 2⟩
      let s := holdDemo { vf := 0, armed := some a, on := x.2.2 }
      decide (s.hold 0 = { vf := 0, armed := some a, on := x.2.2 }) && decide (s.holdLine 0 a = x.2.1) && s.startsHold 2 && s.spans.all fun t => decide (s.wordHold t = none) && t.resident) = true ∧
    ((with_ fun sp => { sp with wHold := true }).spans.all fun t => decide ((with_ fun sp => { sp with wHold := true }).wordHold t ≠ none)) = true ∧
    ((holdDemo { vf := 0, on := some (0x1800, 0) }).time 0).toNat = 0 ∧
    (let v := (demo.lineRelease 0x1800).settleAll
     (v.spans.all fun sp => sp.ferry.isEmpty) && (v.parts.all fun p => p.net.isEmpty && p.snap.isNone) && v.ctxs.all fun c => decide (c.status = .running)) = true := by decide +kernel

/-! Checkpoints: a partition with one pseudo-channel, and a region of 2 GiB at the start of the tier. The bytes of two segments and the
table's digest are free values, so that the room they take is bounded by a proof, and the digest is read back by one. -/

def ckDemo (part : Nat) (size : Nat) : State := { boot := .running, tierSize := 2 ^ 31
                                                  parts := [{ wholePart with row := { wholePart.row with piers := [], channels := [0] } }], ck := { part := BitVec.ofNat 64 part, size := BitVec.ofNat 64 size, num := 7 } }

/-- Segments begin at multiples of 64 KiB: they take their bytes, and less than 64 KiB more each. -/
theorem placed_end (gs : List Segment) : 65536 + (gs.map (·.len)).sum ≤ (placed gs).2 ∧ (placed gs).2 ≤ 65536 + (gs.map (·.len)).sum + 65535 * gs.length := by
  have u : ∀ x, x ≤ up 65536 x ∧ up 65536 x ≤ x + 65535 := fun x => by unfold up; omega
  have go : ∀ (gs : List Segment) (acc : List (Segment × Nat) × Nat),
      let e := (gs.foldl (fun (acc : List (Segment × Nat) × Nat) g => (acc.1 ++ [(g, acc.2)], up 65536 (acc.2 + g.len))) acc).2
      acc.2 + (gs.map (·.len)).sum ≤ e ∧ e ≤ acc.2 + (gs.map (·.len)).sum + 65535 * gs.length := by
    intro gs
    induction gs with
    | nil => intro acc; simp
    | cons g r ih =>
      intro acc
      have h1 := ih (acc.1 ++ [(g, acc.2)], up 65536 (acc.2 + g.len))
      have h2 := u (acc.2 + g.len)
      simp only [List.foldl_cons, List.map_cons, List.sum_cons, List.length_cons] at h1 ⊢
      omega
  exact go gs ([], 65536)

theorem placed_count (gs : List Segment) : (placed gs).1.length = gs.length := by
  have go : ∀ (gs : List Segment) (acc : List (Segment × Nat) × Nat),
      (gs.foldl (fun (acc : List (Segment × Nat) × Nat) g => (acc.1 ++ [(g, acc.2)], up 65536 (acc.2 + g.len))) acc).1.length = acc.1.length + gs.length := by
    intro gs
    induction gs with
    | nil => intro acc; rfl
    | cons g r ih => intro acc; rw [List.foldl_cons, ih]; simp; omega
  simpa [placed] using go gs ([], 65536)

theorem ck_lengths (size : Nat) : ∃ n, n ≤ 65536 ∧ ((ckDemo 1 size).segments 0).map (·.len) = [1073741824, 0, 0, n, 0] := by
  refine ⟨_, List.length_take_le 65536 (Config.segmentBytes 6 0 0), ?_⟩
  simp [State.segments, ckDemo, wholePart, Segment.ofBytes, State.queued, State.guardOf]

/-- The room that the set of partition 0 needs: its channel, and at most 64 KiB of registers. -/
theorem ck_need (size : Nat) : 65536 < (placed ((ckDemo 1 size).segments 0)).2 ∧ (placed ((ckDemo 1 size).segments 0)).2 ≤ 2147483648 := by
  obtain ⟨n, hn, h⟩ := ck_lengths size
  have hp := placed_end ((ckDemo 1 size).segments 0)
  have hl : ((ckDemo 1 size).segments 0).length = 5 := by rw [← List.length_map (f := (·.len)), h]; rfl
  rw [h, hl] at hp
  generalize (placed ((ckDemo 1 size).segments 0)).2 = e at hp ⊢
  simp only [List.sum_cons, List.sum_nil] at hp
  omega

theorem witness_fences_and_checkpoints : (demo.fenced.contains 0 = false ∧ demo.ck.stat.toNat % 8 ≠ 1 ∧ ({ demo with fenced := [1] } : State).fenced.contains 1 = true ∧
      (demo.launches.any fun l => decide (0 < (l.range.getD 0 (0, 0)).2)) = true ∧ (demo.launches.all fun l => decide ((l.range.getD 3 (0, 0)).2 = 0)) = true) ∧
    (let s : State := { demo with blocks := demo.blocks ++ [{ theBlock with idx := 9, pier := 45, berth := true }] }
     s.launches.all fun l => decide ((l.range.getD 1 (0, 0)).2 = 0) && s.blocks.any fun b => decide (b.launch = l.id ∧ b.pier / 40 = 1)) = true ∧
    (let s : State := { demo with ck := { restores := [0] } }
     let t : State := { s with ctxs := [{ context with ckpt := true, status := .resuming }] }
     decide (s.ck.restores ≠ []) && (s.ctxs.all fun c => !c.ckpt) && (t.ctxs.all fun c => t.ck.restores.contains c.part && c.ckpt && decide (c.status = .resuming)) &&
       t.ctxs.all fun c => decide (t.saved = [] ∧ (t.queue c.queue).st ≠ .saving) && !t.ckStops c.part) = true ∧
    (let s : State := { demo with ck := { stat := 1 }, saved := [{ theSpan with id := 2560, uid := 6 }] }
     decide (s.boot = .running ∧ s.ck.stat.toNat % 8 = 1 ∧ (1 : Word).toNat % 8 ≠ 0) && s.saved.all fun t => decide (t.launch = 2 ∧ t.die = 1)) = true ∧
    (ckDemo 0 0).ckSet = [] ∧ (ckDemo 1 0).ckSet = [0] ∧ (ckDemo 1 0).hasResources 0 = true ∧ (ckDemo 3 0).hasResources 1 = false ∧
    ¬ (placed ((ckDemo 1 0).segments 0)).2 ≤ (ckDemo 1 0).ck.size.toNat ∧
    ((placed ((ckDemo 1 (2 ^ 31)).segments 0)).2 ≤ (ckDemo 1 (2 ^ 31)).ck.size.toNat ∧ (ckDemo 1 (2 ^ 31)).ck.base.toNat + (ckDemo 1 (2 ^ 31)).ck.size.toNat ≤ (ckDemo 1 (2 ^ 31)).tierSize) ∧
    (ckDemo 1 (2 ^ 31)).ctxs = [] ∧ (ckDemo 1 (2 ^ 31)).moves = [] ∧ (ckDemo 1 (2 ^ 31)).shadows = [] ∧ (placed ((ckDemo 1 (2 ^ 31)).segments 0)).1.length ≤ 2040 ∧
    (ckDemo 1 0).bytes capBase 8 ≠ [0x50, 0x48, 0x58, 0x43, 0x48, 0x4B, 0x30, 0x31] := by
  refine ⟨by decide +kernel, by decide +kernel, by decide +kernel, by decide +kernel, by decide +kernel, by decide +kernel, by decide +kernel, by decide +kernel, ?_, ⟨(ck_need _).2, by decide +kernel⟩, rfl, rfl, rfl, ?_, by decide +kernel⟩
  · have := (ck_need 0).1
    rw [show (ckDemo 1 0).ck.size.toNat = 0 from rfl]
    omega
  · obtain ⟨n, -, h⟩ := ck_lengths (2 ^ 31)
    rw [placed_count, ← List.length_map (f := (·.len)), h]
    exact Nat.le_of_ble_eq_true rfl

/-- A checkpoint of partition 0 in the region, with the digest of the table in force. -/
def theImage : CkImage :=
  { base := 0, num := 0, set := [0], table := (ckDemo 1 0).parts.map (·.row), tsc := [5, 0, 0, 2 ^ 64 - 2], parts := [], ctxs := [], queues := [],
    launches := [], blocks := [], saved := [], bars := [], planeq := [], futs := [], refs := [], fmsgs := [], taskq := [], berths := [], zone := [], guard := [], rings := [] }
def digest : List Byte := padTo 64 ((Config.tableDigest ((ckDemo 1 0).parts.map (·.row))).take 64)
def restoring : State := ({ ckDemo 1 0 with ckpts := [theImage] }.poke capBase [0x50, 0x48, 0x58, 0x43, 0x48, 0x4B, 0x30, 0x31]).poke (capBase + 64) digest

theorem digest_length : digest.length = 64 := by
  simp only [digest, padTo, List.length_append, List.length_replicate]
  have := List.length_take_le 64 (Config.tableDigest ((ckDemo 1 0).parts.map (·.row)))
  omega

theorem witness_restore : restoring.bytes capBase 8 = [0x50, 0x48, 0x58, 0x43, 0x48, 0x4B, 0x30, 0x31] ∧ restoring.nat (capBase + 56) 8 ≤ 2040 ∧ restoring.bytes (capBase + 64) 64 = digest ∧
    restoring.ckpts.find? (fun i => decide (i.base = restoring.ck.base.toNat) && decide (i.num.toNat = restoring.nat (capBase + 8) 8)) = some theImage ∧
    theImage.table = restoring.parts.map (·.row) := by
  have h0 : restoring.bytes capBase 8 = _ := bytes_poke_apart _ (capBase + 64) capBase 8 digest (by omega)
  have h8 : restoring.bytes (capBase + 8) 8 = _ := bytes_poke_apart _ (capBase + 64) (capBase + 8) 8 digest (by omega)
  have h56 : restoring.bytes (capBase + 56) 8 = _ := bytes_poke_apart _ (capBase + 64) (capBase + 56) 8 digest (by omega)
  have h64 : restoring.bytes (capBase + 64) 64 = digest := by
    have := bytes_poke ({ ckDemo 1 0 with ckpts := [theImage] }.poke capBase [0x50, 0x48, 0x58, 0x43, 0x48, 0x4B, 0x30, 0x31]) (capBase + 64) digest
    rwa [digest_length] at this
  have hk : restoring.ckpts = [theImage] := by simp [restoring, State.poke]; split <;> rfl
  have hc : restoring.ck = (ckDemo 1 0).ck := by simp [restoring, State.poke]; split <;> rfl
  have hp : restoring.parts = (ckDemo 1 0).parts := by simp [restoring, State.poke]; split <;> rfl
  refine ⟨h0.trans (by decide +kernel), ?_, h64, ?_, by rw [hp]; rfl⟩
  · rw [State.nat, h56]; decide +kernel
  · rw [hk, hc, State.nat, h8]; decide +kernel

def goodImages (ok : Bool) : Boot := { rom := [1], hypervisor := ⟨ok, true, 3, [2]⟩, baseDie := ⟨true, true, 3, [3]⟩, tables := ⟨true, true, 4, [4]⟩, rollback := 3, zoneGiB := 64,
                                       ports := List.replicate 11 (some 131072) ++ [none], peers := [] }

theorem witness_package_events : (demo.boot = .running ∧ demo.ck.stat.toNat % 8 ≠ 1) ∧
    (demo.ctxs.any fun c => decide ((demo.parts.map (·.row))[c.part]? ≠ ([] : List PartRow)[c.part]?) && !(decide (c.status = .saved) && (!c.quiet || c.ckpt))) = true ∧
    tableOk demo [wholePart.row, wholePart.row] = false ∧ demo.shadows = [] ∧ demo.moves = [] ∧ (let row := { wholePart.row with piers := [0], channels := [5], capFrames := [(0, 65536)] }
      tableOk { demo with zoneGiB := 0 } [row] && [{ context with status := .saved }, { context with status := .saved, quiet := true, ckpt := true }].all fun c =>
        decide (c.status = .saved ∧ (c.quiet = false ∨ c.ckpt = true))) = true ∧
    ((goodImages true).hypervisor.version ≥ 3 ∧ (goodImages false).hypervisor.signed = false) ∧
    (demo.parts.head?.map (·.row.input)) = some false ∧ (demo.ctxs.find? fun c => decide (c.part = 0)) = some context := by decide +kernel

theorem witness_host_requests : demo.hasBytes (2 ^ 50) 1 = false ∧ demo.hasBytes (Config.hbmBytes - 1) 1 = true ∧ demo.hasBytes Config.hbmBytes 1 = false ∧ demo.hasBytes (capBase + 786431) 1 = true ∧
    demo.hasBytes (2 ^ 65 + 2 ^ 64 - 8) 8 = true ∧ demo.rangeBusy 0x60000 8 = false ∧ (homeDie 0x60000).any demo.fenced.contains = false ∧
    (homeDie 0x60000).any ({ demo with fenced := [0] } : State).fenced.contains = true ∧ State.reset.boot = .reset ∧ ({ State.reset with boot := .recovery } : State).boot = .recovery ∧
    ({ demo with boot := .recovery } : State).hasBytes 0x60000 8 = true ∧ ({ demo with boot := .recovery } : State).hasBytes (2 ^ 65) 8 = true ∧ demo.hasFunction 16 = true ∧ demo.hasFunction 0 = true ∧
    ({ demo with measures := [(1, [7])] } : State).measures.find? (fun m => decide (m.1 = 1)) = some (1, [7]) ∧ demo.measures = [] := by decide +kernel

/-! The statements about encodings, steps and memory. -/

/-- The longest literals and the boundary registers of a few formats; `test_` theorems above write out words of the others. -/
theorem witness_words_round_trip : ([Instr.movi ⟨{}, 255, 0, 0xFFFFFFFF⟩, .add { ALU with d := 255, a := 255, b := 255 }, .addImm { IMM with imm := 0x80000000 }, .ld { ADR with off := 0xFFF },
      .bra { ctl := {}, d := 0, a := 0, y := true, off := 0x8000000 }].all fun i => wf i && (encode i).any fun w => decide (decode w = .ok i)) = true := by decide +kernel

theorem witness_steps_run_the_word : demo.agenda = [] ∧ demo.picked ≠ none ∧ demo.tick.fetch.ir = some 0 ∧
    ((({ demo with mem := (demo.putWord 0x50000 0x0028002002000064).mem } : State).tick.fetch.ir).any fun w => decide (decode w = .ok (.addImm { ctl := {}, d := 1, a := 0, ty := .s32, imm := 100 }))) = true ∧
    ((({ demo with mem := (demo.putWord 0x50000 0x00C0000000000000).mem } : State).tick.fetch.ir).any fun w => match decode w with | .error _ => true | .ok _ => false) = true ∧
    (encode .lineHoldExpiry = none ∧ (encode (.addImm IMM)).isSome = true) ∧ State.reset.agenda = [] ∧ State.reset.picked = none := by decide +kernel

/-- A step that writes memory from a state whose memory has its form. -/
theorem witness_memory_stays_canonical : Memory.wf demo.mem = true ∧
    (match step { demo with agenda := [.hostAccess (.write 0x60000 [1, 0, 2])] } with | .next t => decide (t.mem.length = demo.mem.length + 2) | _ => false) = true := by decide +kernel

/-! Results calculated by hand from the rules. -/

/-- R95: lane 3 holds 3 in v0; 3 + 100, and in lane 0, 0 − 5 modulo 2^32. -/
theorem test_add : (spanAfter (exec (.addImm { IMM with imm := 100 }) demo)).v 1 3 = 103 := by decide +kernel
theorem test_sub_wraps : (spanAfter (exec (.subImm { IMM with imm := 5 }) demo)).v 1 0 = 0xFFFFFFFB := by decide +kernel

/-- R95, R96: −7 / 2 = −3 and −7 / 0 = 1; 0x7FFF_FFFF + 1 saturates. -/
theorem test_div : (spanAfter (exec (.div ALU) (with_ fun sp => { sp with vregs := [(64, 0xFFFFFFF9), (96, 2)] }))).v 1 0 = 0xFFFFFFFD := by decide +kernel
theorem test_div_by_zero : (spanAfter (exec (.div ALU) (with_ fun sp => { sp with vregs := [(64, 0xFFFFFFF9)] }))).v 1 0 = 1 := by decide +kernel
theorem test_adds : (spanAfter (exec (.adds ALU) (with_ fun sp => { sp with vregs := [(64, 0x7FFFFFFF), (96, 1)] }))).v 1 0 = 0x7FFFFFFF := by decide +kernel

/-- R264: 1.5 + 2.25 = 3.75 in FP32. -/
theorem test_fadd : (spanAfter (exec (.fadd F32) (with_ fun sp => { sp with vregs := [(7, 0x3FC00000), (71, 0x40100000)] }))).v 1 7 = 0x40700000 := by decide +kernel

/-- R80: OFF = −2 at 0x10000 leads to 0x10000 + 8 − 16. -/
theorem test_branch_back : ((spanAfter (exec (.bra { ctl := {}, d := 0, a := 0, y := false, off := 0xFFFFFFE }) demo)).lane 9).pc = 0xFFF8 := by decide +kernel

/-- R39: TRAP enters the context's handler in handler mode, with the frame's address in s63 (pier 0, slot 0: the frame area's start). -/
theorem test_trap : (let sp := spanAfter (exec (.trap { ctl := {}, d := 0, a := 0, imm := 5 }) { demo with ctxs := [{ context with tfbase := 0x20000, fabase := 0x60000 }] })
    decide ((sp.lane 31).pc = 0x18000) && sp.hmode && decide (sp.s 63 = 0x20000) && decide (sp.cause = some .swtrap)) = true := by decide +kernel

end Sys2Proof.Tests
end

section
/-! SUPPORT. What a step does, case by case, and the obligation that says so. -/

namespace Sys2Proof.Machine

/-! The time before a step (R2): steps and timestamps advance, stall counters grow. -/

@[simp] theorem State.tick_steps (s : State) : s.tick.steps = s.steps + 1 := rfl

@[simp] theorem State.tick_tsc (s : State) :
    s.tick.tsc = s.tsc.map (· + BitVec.ofNat 64 (Config.elapsed s.steps)) := rfl

/-- Time changes no more than the step count, the timestamps and the counters. -/
theorem State.tick_rest (s : State) : { s.tick with steps := s.steps, tsc := s.tsc, ctrs := s.ctrs } = s := by
  obtain ⟨c, h⟩ := s.countStalls_eq
  simp [State.tick, h]

/-! The step, by what the agenda and the pick hold. -/

theorem step_event {s : State} {e : Instr} {rest : List Instr} (ha : s.agenda = e :: rest) (he : encode e = none) :
    step s = exec e { s.tick with agenda := rest } := by
  simp [step, ha, he]

/-- An instruction word on the agenda is passed over (log 19). -/
theorem step_wordOnAgenda {s : State} {e : Instr} {rest : List Instr} (ha : s.agenda = e :: rest) (he : encode e ≠ none) :
    step s = .next { s.tick with agenda := rest } := by
  have hword : (encode e).isSome = true := Option.isSome_iff_ne_none.mpr he
  simp [step, ha, hword]

theorem step_unpicked {s : State} (ha : s.agenda = []) (hp : s.picked = none) :
    step s = exec (.quadrantPick s.turn) { s.tick with turn := (s.turn + 1) % 640 } := by
  simp [step, ha, hp]

theorem step_picked {s : State} (ha : s.agenda = []) (hp : s.picked ≠ none) : step s = s.tick.issueNext := by
  obtain ⟨id, hid⟩ := Option.ne_none_iff_exists'.mp hp
  simp [step, ha, hid]

/-! The issue of the fetched word (R67, R75). -/

theorem State.issueNext_decoded {s : State} {w : Word} {i : Instr} (hw : s.fetch.ir = some w) (hi : decode w = .ok i) :
    s.issueNext = exec i { s.fetch with ir := none } := by
  simp [State.issueNext, hw, hi]

theorem State.issueNext_illegal {s : State} {w : Word} {e : Ill} (hw : s.fetch.ir = some w) (he : decode w = .error e) :
    s.issueNext = .next (illTrap { s.fetch with ir := none }) := by
  simp [State.issueNext, hw, he]

/-- R75: the span that is ready to issue takes a trap with cause ILL in its issuing set, and is picked no more. -/
theorem illTrap_issuing {s : State} {sp0 sp : Span} {I : List Nat} {a : Word} (h : Issuing s sp0 sp I a) :
    illTrap s = { ((s.putSpan sp).takeTrap sp.id ⟨.ill, true, a, I⟩) with picked := none } := by
  obtain ⟨hpicked, hthere, hfree, hselect⟩ := h
  simp [illTrap, hpicked, hthere, hfree, hselect, select_id hselect]

/-- Settles O57: each clause is one case of the step. -/
theorem stepsRunTheWord : Obligations.steps_run_the_word := by
  refine ⟨fun s => ⟨s.tick_rest, s.tick_steps, _, s.tick_tsc⟩, ?event, fun _ => step_unpicked, ?word, fun _ _ _ _ _ => illTrap_issuing⟩
  case event => exact fun s e rest ha => ⟨step_event ha, step_wordOnAgenda ha⟩
  case word =>
    intro s w ha hp hw
    rw [step_picked ha hp]
    exact ⟨fun i hi => State.issueNext_decoded hw hi, fun e he => State.issueNext_illegal hw he⟩

end Sys2Proof.Machine
end

section
/-! SUPPORT. What an operation of the state leaves of each span, and what a write of memory by the device leaves of them. -/

namespace Sys2Proof.Machine

/-! Every span of a state, and what has become of it. -/

/-- Every span of `s` stands in `t` under its number, as `R` says. -/
def State.Each (R : Span → Span → Prop) (s t : State) : Prop := ∀ id sp, s.span? id = some sp → ∃ sp', t.span? id = some sp' ∧ R sp sp'

namespace State.Each

variable {R : Span → Span → Prop} {s t u : State}

theorem refl (hR : ∀ sp, R sp sp) (s : State) : State.Each R s s := fun _ sp h => ⟨sp, h, hR sp⟩

theorem trans (hR : ∀ {a b c}, R a b → R b c → R a c) (h : State.Each R s t) (g : State.Each R t u) : State.Each R s u := by
  intro id sp hs
  obtain ⟨sp1, h1, r1⟩ := h id sp hs
  obtain ⟨sp2, h2, r2⟩ := g id sp1 h1
  exact ⟨sp2, h2, hR r1 r2⟩

/-- The spans are the same. -/
theorem of_spans (hR : ∀ sp, R sp sp) (h : t.spans = s.spans) : State.Each R s t := by
  intro id sp hs
  exact ⟨sp, by unfold State.span? at *; rw [h, hs], hR sp⟩

/-- Every span changes by one rule. -/
theorem of_map {g : Span → Span} (hid : ∀ sp, (g sp).id = sp.id) (hg : ∀ sp, R sp (g sp)) (h : t.spans = s.spans.map g) : State.Each R s t := by
  intro id sp hs
  refine ⟨g sp, ?_, hg sp⟩
  unfold State.span? at *
  rw [h, find?_map_key s.spans Span.id g hid id, hs]; rfl

/-- One span changes by a rule. -/
theorem onSpan (hR : ∀ sp, R sp sp) {id : Nat} {f : Span → Span} (hid : ∀ sp, (f sp).id = sp.id) (hf : ∀ sp, R sp (f sp)) :
    State.Each R s (s.onSpan id f) := by
  refine of_map (g := fun sp => if sp.id = id then f sp else sp) (fun sp => ?_) (fun sp => ?_) rfl
  · split
    exacts [hid sp, rfl]
  · split
    exacts [hf sp, hR sp]

/-- One span is replaced. -/
theorem putSpan (hR : ∀ sp, R sp sp) {sp sp' : Span} (hs : s.span? sp'.id = some sp) (h : R sp sp') : State.Each R s (s.putSpan sp') := by
  intro id w hw
  by_cases hid : id = sp'.id
  · subst hid
    obtain rfl : sp = w := Option.some.inj (hs.symm.trans hw)
    exact ⟨sp', span?_putSpan_self s sp' sp hs, h⟩
  · exact ⟨w, by rw [span?_putSpan_other s sp' id hid, hw], hR w⟩

/-- Operations one after another. -/
theorem foldl (hr : ∀ sp, R sp sp) (ht : ∀ {a b c}, R a b → R b c → R a c) {α : Type} {f : State → α → State} (hf : ∀ t a, State.Each R t (f t a))
    (l : List α) (s : State) : State.Each R s (l.foldl f s) := by
  induction l generalizing s with
  | nil => exact refl hr s
  | cons a r ih => exact (hf s a).trans ht (ih _)

/-- The same where the state is folded with a value beside it. -/
theorem foldl_fst (hr : ∀ sp, R sp sp) (ht : ∀ {a b c}, R a b → R b c → R a c) {α β : Type} {f : State × β → α → State × β}
    (hf : ∀ p a, State.Each R p.1 (f p a).1) (l : List α) (p : State × β) : State.Each R p.1 (l.foldl f p).1 := by
  induction l generalizing p with
  | nil => exact refl hr p.1
  | cons a r ih => exact (hf p a).trans ht (ih _)

end State.Each

/-! A write of memory by the device. -/

/-- What a write of memory by the device leaves of a span: what `Seen` says; and no lane begins to wait, and as many requests wait to be
joined as before. -/
structure Span.Spares (sp sp' : Span) : Prop extends Sys2Proof.Seen sp sp' where
  joining : sp'.joining.length = sp.joining.length
  idle    : ∀ l, (sp.lane l).wait = none → (sp'.lane l).wait = none
  checks  : ∀ l id, (sp.lane l).wait = some (.check id) → (sp'.lane l).wait = some (.check id)

namespace Span.Spares

theorem refl (sp : Span) : sp.Spares sp := ⟨⟨rfl, fun _ => rfl, rfl⟩, rfl, fun _ h => h, fun _ _ h => h⟩

theorem trans {a b c : Span} (h : a.Spares b) (g : b.Spares c) : a.Spares c where
  count := g.count.trans h.count
  lane l := by
    calc { c.lane l with resv := (a.lane l).resv, wait := (a.lane l).wait, kept := (a.lane l).kept }
        = { ({ c.lane l with resv := (b.lane l).resv, wait := (b.lane l).wait, kept := (b.lane l).kept } : Lane) with
            resv := (a.lane l).resv, wait := (a.lane l).wait, kept := (a.lane l).kept } := rfl
      _ = a.lane l := by rw [g.lane l]; exact h.lane l
  rest := by
    calc { c with lanes := a.lanes, landing := a.landing, unsent := a.unsent, joining := a.joining, resv := a.resv }
        = { ({ c with lanes := b.lanes, landing := b.landing, unsent := b.unsent, joining := b.joining, resv := b.resv } : Span) with
            lanes := a.lanes, landing := a.landing, unsent := a.unsent, joining := a.joining, resv := a.resv } := rfl
      _ = a := by rw [g.rest]; exact h.rest
  joining := g.joining.trans h.joining
  idle l hl := g.idle l (h.idle l hl)
  checks l id hl := g.checks l id (h.checks l id hl)

/-- Only what the landing holds has changed. -/
theorem of_landing (sp : Span) (es : List Entry) : sp.Spares { sp with landing := es } := ⟨⟨rfl, fun _ => rfl, rfl⟩, rfl, fun _ h => h, fun _ _ h => h⟩

end Span.Spares

/-- A lane of a span whose lanes have all changed by one rule. -/
theorem lane_map (ls : List Lane) (f : Lane → Lane) (hf : f noLane = noLane) (l : Nat) : (ls.map f).getD l noLane = f (ls.getD l noLane) := by
  conv_lhs => rw [← hf]
  exact List.getD_map ls noLane f

theorem seesWrite_spares (sp : Span) (lo hi now : Nat) : sp.Spares (sp.seesWrite lo hi now) := by
  refine ⟨⟨by simp [Span.seesWrite], fun l => ?_, rfl⟩, by simp [Span.seesWrite], fun l h => ?_, fun l id h => ?_⟩ <;>
    simp only [Span.seesWrite, Span.lane] at *
  · rw [lane_map _ _ rfl]
  · rw [lane_map _ _ rfl, h]
  · rw [lane_map _ _ rfl, h]

/-- Every span is spared. -/
abbrev State.Spares : State → State → Prop := State.Each Span.Spares

namespace State.Spares

theorem refl (s : State) : s.Spares s := Each.refl Span.Spares.refl s
theorem trans {s t u : State} (h : s.Spares t) (g : t.Spares u) : s.Spares u := Each.trans Span.Spares.trans h g
theorem of_spans {s t : State} (h : t.spans = s.spans) : s.Spares t := Each.of_spans Span.Spares.refl h
theorem foldl {α : Type} {f : State → α → State} (hf : ∀ t a, State.Spares t (f t a)) (l : List α) (s : State) : s.Spares (l.foldl f s) :=
  Each.foldl Span.Spares.refl Span.Spares.trans hf l s

end State.Spares

theorem written_spares (s : State) (lo hi : Nat) : s.Spares (s.written lo hi) :=
  .of_map (g := fun sp => sp.seesWrite lo hi (s.time sp.die).toNat) (fun _ => rfl) (fun sp => seesWrite_spares sp lo hi _) rfl

theorem poke_spares (s : State) (k : Nat) (bs : List Byte) : s.Spares (s.poke k bs) := by
  unfold State.poke
  split
  · exact .refl s
  · exact (State.Spares.of_spans (s := s) (t := s.write k bs) rfl).trans ((written_spares _ _ _).trans (.of_spans rfl))

theorem portFrees_spares (s : State) (part line : Nat) : s.Spares (s.portFrees part line) := by
  unfold State.portFrees
  dsimp only
  split
  · exact .refl s
  · split
    · exact .refl s
    · refine .of_map (fun sp => ?_) (fun sp => ?_) rfl
      · split <;> rfl
      · split
        exacts [.of_landing sp _, .refl sp]

theorem portsFree_spares (s : State) (part k n : Nat) : s.Spares (s.portsFree part k n) := by
  unfold State.portsFree
  split
  · exact .refl s
  · exact .foldl (fun t i => portFrees_spares t part _) _ s

theorem unlist_spares (s : State) (pier : Option Nat) (k n : Nat) : s.Spares (s.unlist pier k n) := by
  unfold State.unlist
  split
  exacts [.of_spans rfl, .refl s]

theorem touch_spares (s : State) (line : Nat) : s.Spares (s.touch line) := .of_spans rfl

theorem walk_spares (s : State) (pier : Option Nat) (cx : Context) (va : Nat) (need : Need) : s.Spares (s.walk pier cx va need).1 := by
  unfold State.walk
  split
  · exact .refl s
  · split
    · split
      · split
        · exact (poke_spares s _ _).trans (.of_spans rfl)
        · exact .refl s
      · split
        · exact (poke_spares s _ _).trans (.of_spans rfl)
        · exact poke_spares s _ _
    · exact .refl s

theorem seek_spares (s : State) (pier : Option Nat) (cx : Context) (va : Nat) (need : Need) : s.Spares (s.seek pier cx va need).1 := by
  unfold State.seek
  split
  exacts [.refl s, walk_spares s pier cx va need]

theorem lookPages_spares (s : State) (pier : Option Nat) (cx : Context) (need : Need) (ps : List (Nat × Nat)) :
    s.Spares (s.lookPages pier cx need ps).1 := by
  induction ps generalizing s with
  | nil => exact .refl s
  | cons p r ih =>
    unfold State.lookPages
    split
    · exact .refl s
    · exact (seek_spares s pier cx p.1 need).trans (ih _)

theorem checkPages_spares (s : State) (pier : Option Nat) (cx : Context) (need : Need) (ps : List (Nat × Nat)) :
    s.Spares (s.checkPages pier cx need ps).1 := by
  have h := lookPages_spares s pier cx need ps
  unfold State.checkPages
  split <;> rename_i heq <;> rw [heq] at h <;> exact h

theorem deviceWrite_spares (s : State) (pier : Option Nat) (cx : Context) (va : Word) (bs : List Byte) :
    s.Spares (s.deviceWrite pier cx va bs).1 := by
  have h := checkPages_spares s pier cx { wr := true } (pagePieces va.toNat bs.length)
  unfold State.deviceWrite
  split <;> rename_i heq <;> rw [heq] at h
  · exact h
  · split
    · exact h
    · refine h.trans (State.Each.foldl_fst Span.Spares.refl Span.Spares.trans (fun p k => ?_) _ (_, bs))
      exact (poke_spares _ _ _).trans ((unlist_spares _ _ _ _).trans ((portsFree_spares _ _ _ _).trans (touch_spares _ _)))

end Sys2Proof.Machine
end

section
/-! SUPPORT. A fatal fault and its record, and the obligation that says where it is written (R19, R21). -/

namespace Sys2Proof.Machine

/-- A fault record that need not wait, and whose page passes, is written and recorded (R21, R38). -/
theorem writeRecord_passes {s s1 : State} {id l : Nat} {c : Cause} {bs : List Byte} {sp : Span} {cx : Context} {pages : List Nat}
    (hs : s.span? id = some sp) (hc : s.ctx? sp.ctx = some cx) (hwait : s.recordsWait sp = false)
    (hw : s.deviceWrite (some sp.pier) cx (s.recordPlace sp cx l) bs = (s1, none, pages)) :
    s.writeRecord id l c bs = s1.onSpan id (·.recordAt l c) := by
  have hkeep : (fun t : Span => { t.recordAt l c with drafts := t.drafts }) = (·.recordAt l c) := by
    funext t; unfold Span.recordAt; split <;> rfl
  simp [State.writeRecord, hs, hc, hwait, hw, hkeep]

/-- A running span outside handler mode, whose context has a handler, shows its fault records at once (R22). -/
theorem recordsWait_running {s : State} {sp : Span} {cx : Context} (hr : sp.status = .running) (hm : sp.hmode = false)
    (hc : s.ctx? sp.ctx = some cx) (hh : cx.handler ≠ 0) : s.recordsWait sp = false := by
  simpa [State.recordsWait, State.stops, hr, hm, hc] using hh

/-- The span of a fatal fault before its record: the lane parked fatal, the number taken (R19). -/
def Span.faulted (sp : Span) (l : Nat) : Span :=
  { sp.onLane l fun ln => { ln with st := .parkedFatal, wait := none } with fseq := (sp.fseq + 1) % 256 }

theorem faultLane_eq {s : State} {sp : Span} (hs : s.span? sp.id = some sp) (l : Nat) (c : Cause) (kind log2 part : Nat) (vaddr iaddr : Word) :
    s.faultLane sp.id l c kind log2 part vaddr iaddr =
      (s.onSpan sp.id (·.faulted l)).writeRecord sp.id l c (faultRecord sp l c kind log2 part vaddr iaddr) := by
  simp [State.faultLane, hs, Span.faulted]

theorem lane_faulted (sp : Span) (l k : Nat) : (sp.faulted l).lane k =
    if k = l ∧ k < sp.lanes.length then { sp.lane k with st := .parkedFatal, wait := none } else sp.lane k :=
  lane_onLane sp l _ k

theorem span?_onSpan_self {s : State} {id : Nat} {sp : Span} (f : Span → Span) (hf : ∀ t, (f t).id = t.id) (hs : s.span? id = some sp) :
    (s.onSpan id f).span? id = some (f sp) := by
  rw [span?_onSpan s id id f hf, if_pos rfl, hs]; rfl

theorem recordAt_id (sp : Span) (l : Nat) (c : Cause) : (sp.recordAt l c).id = sp.id := by
  unfold Span.recordAt; split <;> rfl

theorem record_cause (sp : Span) (c : Cause) : (sp.record c).cause = some (sp.cause.getD c) := by
  cases h : sp.cause <;> simp [Span.record, h]

/-- A change of one span differs from the state before it there alone. -/
theorem differs_onSpan {s : State} {id : Nat} {sp : Span} (f : Span → Span) (hf : ∀ t, (f t).id = t.id) (hs : s.span? id = some sp) :
    Differs s (s.onSpan id f) id (f sp) :=
  ⟨span?_onSpan_self f hf hs, rfl, fun j hj => by rw [span?_onSpan s id j f hf, if_neg hj]⟩

/-! The fields of a span that has been spared. -/

theorem Span.Spares.uid_eq {sp sp' : Span} (h : sp.Spares sp') : sp'.uid = sp.uid := by have hf := congrArg Span.uid h.rest; exact hf
theorem Span.Spares.ctx_eq {sp sp' : Span} (h : sp.Spares sp') : sp'.ctx = sp.ctx := by have hf := congrArg Span.ctx h.rest; exact hf
theorem Span.Spares.vregs_eq {sp sp' : Span} (h : sp.Spares sp') : sp'.vregs = sp.vregs := by have hf := congrArg Span.vregs h.rest; exact hf
theorem Span.Spares.sregs_eq {sp sp' : Span} (h : sp.Spares sp') : sp'.sregs = sp.sregs := by have hf := congrArg Span.sregs h.rest; exact hf
theorem Span.Spares.fseq_eq {sp sp' : Span} (h : sp.Spares sp') : sp'.fseq = sp.fseq := by have hf := congrArg Span.fseq h.rest; exact hf
theorem Span.Spares.cause_eq {sp sp' : Span} (h : sp.Spares sp') : sp'.cause = sp.cause := by have hf := congrArg Span.cause h.rest; exact hf
theorem Span.Spares.checks_eq {sp sp' : Span} (h : sp.Spares sp') : sp'.checks = sp.checks := by have hf := congrArg Span.checks h.rest; exact hf
theorem Span.Spares.lane_st {sp sp' : Span} (h : sp.Spares sp') (l : Nat) : (sp'.lane l).st = (sp.lane l).st := by
  have hf := congrArg Lane.st (h.lane l); exact hf
theorem Span.Spares.lane_pc {sp sp' : Span} (h : sp.Spares sp') (l : Nat) : (sp'.lane l).pc = (sp.lane l).pc := by
  have hf := congrArg Lane.pc (h.lane l); exact hf
theorem Span.Spares.lane_depth {sp sp' : Span} (h : sp.Spares sp') (l : Nat) : (sp'.lane l).depth = (sp.lane l).depth := by
  have hf := congrArg Lane.depth (h.lane l); exact hf

theorem recordAt_parked {sp : Span} {l : Nat} (c : Cause) (h : (sp.lane l).st = .parkedFatal) : sp.recordAt l c = sp.record c := by
  simp [Span.recordAt, h]

/-- Settles O10: the record's write spares the span, and makes its trap due. -/
theorem faultRecord_written : Obligations.fault_record := by
  intro s s1 sp cx l c kind log2 part vaddr iaddr pages hs hrun hl hctx hmode hhandler hwrite
  have hthere : (s.onSpan sp.id (·.faulted l)).span? sp.id = some (sp.faulted l) := span?_onSpan_self _ (fun _ => rfl) hs
  have hput : (s.onSpan sp.id (·.faulted l)).deviceWrite (some sp.pier) cx ((s.areas sp cx).2 + BitVec.ofNat 64 (32 * l))
      (faultRecord sp l c kind log2 part vaddr iaddr) = (s1, none, pages) := hwrite _ rfl
  have hspared := deviceWrite_spares (s.onSpan sp.id (·.faulted l)) (some sp.pier) cx ((s.areas sp cx).2 + BitVec.ofNat 64 (32 * l))
    (faultRecord sp l c kind log2 part vaddr iaddr)
  rw [hput] at hspared
  obtain ⟨w, hw, hsp⟩ := hspared sp.id _ hthere
  have hlane : (sp.faulted l).lane l = { sp.lane l with st := .parkedFatal, wait := none } := by rw [lane_faulted, if_pos ⟨rfl, hl⟩]
  have hst : (w.lane l).st = .parkedFatal := by rw [hsp.lane_st, hlane]
  refine ⟨w.recordAt l c, ?_, ?_⟩
  · rw [faultLane_eq hs, writeRecord_passes hthere hctx (recordsWait_running hrun hmode hctx hhandler) hput]
    exact differs_onSpan _ (fun t => recordAt_id t l c) hw
  · rw [recordAt_parked c hst, record_cause, hsp.cause_eq]
    refine ⟨hst, ?_, ?_, hsp.fseq_eq, rfl, rfl, hsp.vregs_eq, hsp.sregs_eq⟩
    · show (w.lane l).pc = _
      rw [hsp.lane_pc, hlane]
    · show (w.lane l).depth = _
      rw [hsp.lane_depth, hlane]

end Sys2Proof.Machine
end

section
/-! SUPPORT. Numbers as little-endian bytes, and the fields of an execution-state block (R6, R42). -/

namespace Sys2Proof.Machine

theorem toBytes_length (n x : Nat) : (toBytes n x).length = n := by
  induction n generalizing x with
  | zero => rfl
  | succ n ih => simp [toBytes, ih]

theorem leNat_toBytes (n x : Nat) : leNat (toBytes n x) = x % 256 ^ n := by
  induction n generalizing x with
  | zero => simp [toBytes, leNat, Nat.mod_one]
  | succ n ih =>
    rw [toBytes, leNat, ih, BitVec.toNat_ofNat, pow_succ' 256 n, Nat.mod_mul (a := 256)]

/-- The bytes of numbers one after another. -/
def bytesOfAll (n : Nat) (xs : List Nat) : List Byte := (xs.map (toBytes n)).flatten

theorem bytesOfAll_one (xs : List Nat) : bytesOfAll 1 xs = xs.map (BitVec.ofNat 8) := by
  induction xs with
  | nil => rfl
  | cons x r ih => rw [bytesOfAll, List.map_cons, List.flatten_cons, ← bytesOfAll, ih]; rfl

theorem bytesOfAll_length (n : Nat) (xs : List Nat) : (bytesOfAll n xs).length = n * xs.length := by
  induction xs with
  | nil => rfl
  | cons x r ih => simp [bytesOfAll, toBytes_length] at *; rw [ih]; ring

/-- What stands behind numbers. -/
theorem drop_bytesOfAll {n k : Nat} {xs : List Nat} {rest : List Byte} (h : n * xs.length ≤ k) :
    (bytesOfAll n xs ++ rest).drop k = rest.drop (k - n * xs.length) := by
  rw [List.drop_append, List.drop_eq_nil_of_le (by rw [bytesOfAll_length]; exact h), bytesOfAll_length, List.nil_append]

theorem drop_toBytes {n x k : Nat} {rest : List Byte} (h : n ≤ k) : (toBytes n x ++ rest).drop k = rest.drop (k - n) := by
  rw [List.drop_append, List.drop_eq_nil_of_le (by rw [toBytes_length]; exact h), toBytes_length, List.nil_append]

theorem take_toBytes (n x : Nat) (rest : List Byte) : (toBytes n x ++ rest).take n = toBytes n x := List.take_left' (toBytes_length n x)

/-- Numbers that fit their bytes are read back. -/
theorem chop_bytesOfAll {n m : Nat} {xs : List Nat} (rest : List Byte) (hm : xs.length = m) (hx : ∀ x ∈ xs, x < 256 ^ n) :
    chop n m (bytesOfAll n xs ++ rest) = xs := by
  subst hm
  induction xs with
  | nil => rfl
  | cons x r ih =>
    have hsplit : bytesOfAll n (x :: r) ++ rest = toBytes n x ++ (bytesOfAll n r ++ rest) := by simp [bytesOfAll]
    rw [List.length_cons, chop, hsplit, take_toBytes, List.drop_left' (toBytes_length n x), leNat_toBytes,
      Nat.mod_eq_of_lt (hx x (by simp)), ih fun y hy => hx y (by simp [hy])]

/-! The trap frame. -/

theorem cause_code_lt (c : Cause) : c.code < 256 := by cases c <;> decide
theorem laneState_code_lt (st : LaneState) : st.code < 256 ^ 1 := by cases st <;> decide

/-- The frame as numbers in their places (R42). -/
theorem trapFrame_append (sp : Span) (r : TrapReq) (c : Cause) : trapFrame sp r c =
    toBytes 8 (headWord 0 true false r.issue (if r.issue then minNat r.imask else 0) c.code) ++ (toBytes 8 r.iaddr.toNat ++
      (toBytes 8 (r.imask.map (2 ^ ·)).sum ++ (toBytes 8 (256 * sp.qs.toNat) ++
      (toBytes 8 (maskOf sp (· = .exited) + 2 ^ 32 * maskOf sp (· = .reclaimed)) ++ (toBytes 24 0 ++
      (bytesOfAll 1 ((List.range 32).map fun l => (sp.lane l).st.code) ++ (bytesOfAll 1 ((List.range 32).map fun l => (sp.lane l).depth) ++
      (bytesOfAll 2 ((List.range 32).map fun l => (sp.lane l).preds.toNat) ++ (bytesOfAll 8 ((List.range 8).map fun k => (sp.s (56 + k)).toNat) ++
      bytesOfAll 8 ((List.range 32).map fun l => (sp.lane l).pc.toNat)))))))))) := by
  simp only [bytesOfAll_one]
  simp [trapFrame, blockHead, blockStates, blockDepths, blockPreds, blockPcs, bytesOfAll, laneNums, Config.lanes, Function.comp_def]

theorem trapFrame_length (sp : Span) (r : TrapReq) (c : Cause) : (trapFrame sp r c).length = 512 := by
  simp [trapFrame_append, toBytes_length, bytesOfAll_length]

/-- A trap frame reads back as what the span held (R40, R42). -/
theorem readBlock_trapFrame (sp : Span) (r : TrapReq) (c : Cause) (hdepth : ∀ l, l < 32 → (sp.lane l).depth < 256) :
    let b := readBlock (trapFrame sp r c)
    b.state = (List.range 32).map (fun l => (sp.lane l).st.code) ∧
    b.depth = (List.range 32).map (fun l => (sp.lane l).depth) ∧
    b.preds = (List.range 32).map (fun l => (sp.lane l).preds.toNat) ∧
    b.pc = (List.range 32).map (fun l => (sp.lane l).pc) ∧
    b.shi = (List.range 8).map (fun k => (sp.s (56 + k)).toNat) ∧
    b.dq = 256 * sp.qs.toNat ∧ b.iaddr = r.iaddr ∧ b.head % 256 = c.code := by
  have hcode := cause_code_lt c
  have hqs := sp.qs.isLt
  simp (disch := simp) only [readBlock, trapFrame_append, drop_toBytes, drop_bytesOfAll, take_toBytes, leNat_toBytes, List.length_map,
    List.length_range, Nat.reduceSub, Nat.reduceMul, List.drop_zero]
  refine ⟨chop_bytesOfAll _ (by simp) ?state, chop_bytesOfAll _ (by simp) ?depth, chop_bytesOfAll _ (by simp) ?preds, ?pc,
    chop_bytesOfAll _ (by simp) ?shi, ?dq, ?iaddr, ?head⟩
  case state => simpa using fun l _ => laneState_code_lt (sp.lane l).st
  case depth => simpa using hdepth
  case preds => simpa using fun l _ => (sp.lane l).preds.isLt
  case pc =>
    rw [← List.append_nil (bytesOfAll 8 _), chop_bytesOfAll _ (by simp) (by simpa using fun l _ => (sp.lane l).pc.isLt)]
    simp [Function.comp_def]
  case shi => simpa using fun k _ => (sp.s (56 + k)).isLt
  case dq => omega
  case iaddr => simp [Nat.mod_eq_of_lt r.iaddr.isLt]
  case head => simp only [headWord]; omega

end Sys2Proof.Machine
end

section
/-! SUPPORT. Taking a trap, and the obligation that says when and how (R20, R39 to R42). -/

namespace Sys2Proof.Machine

/-- A lane that enters the handler (R39, R40, R383). -/
def Lane.entering (handler : Word) (ln : Lane) : Lane :=
  { ln with atTrap := LaneState.atTrap ln, kept := ln.wait, wait := none, held := none, st := .ready, pc := handler, depth := 0, preds := 0,
            resv := none, reason := none, pages := [] }

theorem lane_enterHandler {sp : Span} {l : Nat} (handler tf fa : Word) (c : Cause) (hl : l < 32) (hlen : l < sp.lanes.length) :
    (sp.enterHandler handler tf fa c).lane l = (sp.lane l).entering handler := by
  have h := lane_onLanes sp laneNums (Lane.entering handler) l
  rwa [if_pos ⟨mem_laneNums.2 hl, hlen⟩] at h

theorem s_enterHandler (sp : Span) (handler tf fa : Word) (c : Cause) (k : Nat) :
    (sp.enterHandler handler tf fa c).s k = if k = 63 then tf else if k = 62 then fa else sp.s k := by
  have h : (sp.enterHandler handler tf fa c).s k = ((sp.setS 63 tf).setS 62 fa).s k := rfl
  rw [h, s_setS, s_setS]
  by_cases h63 : k = 63
  · subst h63; rfl
  · rw [if_neg h63, if_neg h63]

/-- The span that enters its handler (R39). -/
theorem enterHandler_inHandler (sp : Span) (handler tf fa : Word) (c : Cause) : InHandler sp (sp.enterHandler handler tf fa c) handler tf fa c where
  count := onLanes_lanes_length sp laneNums (Lane.entering handler)
  lane l hl hlen := by rw [lane_enterHandler _ _ _ _ hl hlen]; exact ⟨rfl, rfl, rfl, rfl, rfl, rfl, rfl, rfl, rfl⟩
  vectors := rfl
  scalars := s_enterHandler sp handler tf fa c
  flags := rfl
  mode := rfl
  cause := ⟨rfl, rfl⟩
  rest := by simp only [Span.enterHandler, Span.setS, Span.onLanes]

/-- A trap that may be entered is entered, once its frame is written (R39). -/
theorem takeTrap_enters {s s1 : State} {sp : Span} {r : TrapReq} {cx : Context} (h : EntryOpen s sp r (sp.trapCause r) cx s1) :
    s.takeTrap sp.id r = s1.onSpan sp.id (·.enterHandler cx.handler (s.areas sp cx).1 (s.areas sp cx).2 (sp.trapCause r)) := by
  obtain ⟨hthere, hchecks, hready, hshown, huser, hctx, hhandler, pages, hframe⟩ := h
  have hrecords : (!r.issue && !sp.records.isEmpty) = false := by
    cases hi : r.issue with
    | true => rfl
    | false => simp [hready hi]
  have hzero : ¬ cx.handler = 0#64 := hhandler
  simp [State.takeTrap, hthere, hchecks, hrecords, hshown, hctx, huser, hzero, hframe]

/-- Without a handler, or in handler mode, a trap stops the span (R39, R41). -/
theorem takeTrap_stops {s : State} {sp : Span} {r : TrapReq} {cx : Context} (hs : s.span? sp.id = some sp) (hchecks : sp.checks = [])
    (hready : r.issue = true ∨ sp.records = []) (hctx : s.ctx? sp.ctx = some cx) (hstop : sp.hmode = true ∨ cx.handler = 0) :
    s.takeTrap sp.id r = s.stopSpan sp.id (sp.trapCause r) := by
  have hstops : s.stops sp = true := by rcases hstop with h | h <;> simp [State.stops, hctx, h]
  have hrecords : (!r.issue && !sp.records.isEmpty) = false := by rcases hready with h | h <;> simp [h]
  simp [State.takeTrap, hs, hchecks, hrecords, hstops, hctx]
  intro huser hhandler
  exact absurd hstop (by simp [huser, hhandler])

/-- A trap that waits for its entry is taken. -/
theorem settleTrap_waiting {s : State} {sp : Span} {r : TrapReq} (hs : s.span? sp.id = some sp) (hrun : sp.status = .running)
    (ht : sp.trap = some r) : s.settleTrap sp.id = s.takeTrap sp.id r := by
  simp [State.settleTrap, hs, hrun, ht]

theorem noEligible_iff (sp : Span) : sp.noEligible = true ↔ ∀ l, l < 32 → (sp.lane l).st ≠ .ready ∧ (sp.lane l).st ≠ .deferred := by
  simp [Span.noEligible, Span.lanesIn, List.filter_eq_nil_iff, mem_laneNums]

/-- Settles O13: `enterHandler` and `stopSpan` by the case of the handler, the block by reading it back part by part. -/
theorem trapEntry : Obligations.trap_entry := by
  refine ⟨fun s sp r cx hs => ⟨fun s1 h => ?enter, takeTrap_stops hs⟩, fun sp r c _ hdepth => ⟨trapFrame_length sp r c, readBlock_trapFrame sp r c hdepth⟩,
    fun _ _ => rfl, fun s sp hs hrun => ⟨fun r => settleTrap_waiting hs hrun, ?due, ?none⟩⟩
  case enter =>
    obtain ⟨pages, hframe⟩ := h.frame
    have hspared := deviceWrite_spares s (some sp.pier) cx (s.areas sp cx).1 (trapFrame sp r (sp.trapCause r))
    rw [hframe] at hspared
    obtain ⟨sp1, hsp1, hseen⟩ := hspared sp.id sp hs
    rw [takeTrap_enters h]
    exact ⟨sp1, _, hsp1, hseen.toSeen, differs_onSpan _ (fun _ => rfl) hsp1, enterHandler_inHandler sp1 _ _ _ _⟩
  case due =>
    intro ht hdue hmode hlanes c hcause
    simp [State.settleTrap, hs, hrun, ht, hdue, (noEligible_iff sp).2 hlanes, hmode, hcause]
  case none =>
    intro ht h
    have hno : (sp.due && sp.noEligible) = false := by
      rcases h with h | ⟨l, hl, hready⟩
      · rw [h, Bool.false_and]
      · rw [Bool.and_eq_false_iff, Bool.eq_false_iff (b := sp.noEligible)]
        exact .inr fun h => ((noEligible_iff sp).1 h l hl).1 hready
    simp [State.settleTrap, hs, hrun, ht, hno]

end Sys2Proof.Machine
end

section
/-! SUPPORT. The lanes that go on from CVG: those at the greatest depth, and there at the lowest address (R36, R37). -/

namespace Sys2Proof.Machine

/-! The greatest and the least of numbers. -/

/-- A fold that keeps the better of two numbers ends at the best of all. -/
theorem foldl_best {op : Nat → Nat → Nat} {R : Nat → Nat → Prop} (hrefl : ∀ a, R a a) (htrans : ∀ {a b c}, R a b → R b c → R a c)
    (hleft : ∀ a b, R a (op a b)) (hright : ∀ a b, R b (op a b)) (hchoice : ∀ a b, op a b = a ∨ op a b = b) (l : List Nat) (a : Nat) :
    (∀ x ∈ a :: l, R x (l.foldl op a)) ∧ l.foldl op a ∈ a :: l := by
  induction l generalizing a with
  | nil => simp [hrefl]
  | cons b r ih =>
    obtain ⟨hbest, hmem⟩ := ih (op a b)
    have hop := hbest (op a b) (.head _)
    rw [List.foldl_cons]
    refine ⟨fun x hx => ?_, ?_⟩
    · rcases List.mem_cons.1 hx with rfl | hx
      · exact htrans (hleft _ _) hop
      · rcases List.mem_cons.1 hx with rfl | hx
        · exact htrans (hright _ _) hop
        · exact hbest x (.tail _ hx)
    · rcases List.mem_cons.1 hmem with h | h
      · rw [h]; rcases hchoice a b with h | h <;> simp [h]
      · exact .tail _ (.tail _ h)

theorem foldl_max_spec (l : List Nat) (a : Nat) : (∀ x ∈ a :: l, x ≤ l.foldl max a) ∧ l.foldl max a ∈ a :: l :=
  foldl_best Nat.le_refl Nat.le_trans Nat.le_max_left Nat.le_max_right max_choice l a

theorem foldl_min_spec (l : List Nat) (a : Nat) : (∀ x ∈ a :: l, l.foldl min a ≤ x) ∧ l.foldl min a ∈ a :: l :=
  foldl_best (R := (· ≥ ·)) Nat.le_refl (fun h g => Nat.le_trans g h) Nat.min_le_left Nat.min_le_right min_choice l a

theorem le_maxNat {l : List Nat} {x : Nat} (h : x ∈ l) : x ≤ maxNat l := (foldl_max_spec l 0).1 x (.tail _ h)

theorem maxNat_mem {l : List Nat} (h : l ≠ []) : maxNat l ∈ l := by
  rcases List.mem_cons.1 (foldl_max_spec l 0).2 with h0 | h0
  · obtain ⟨x, r, rfl⟩ := List.exists_cons_of_ne_nil h
    have hx := le_maxNat (l := x :: r) (.head _)
    unfold maxNat at *
    rw [h0] at hx ⊢
    rw [Nat.le_zero.1 hx]; exact .head _
  · exact h0

theorem minNat_le {l : List Nat} {x : Nat} (h : x ∈ l) : minNat l ≤ x := by
  cases l with
  | nil => cases h
  | cons a r => exact (foldl_min_spec r a).1 x h

theorem minNat_mem {l : List Nat} (h : l ≠ []) : minNat l ∈ l := by
  cases l with
  | nil => exact absurd rfl h
  | cons a r => exact (foldl_min_spec r a).2

/-! Converging (R36, R37). -/

/-- The lanes of a list at the greatest depth, and there at the lowest address (R30, R37). -/
def Span.foremost (sp : Span) (L : List Nat) : List Nat :=
  let D := L.filter fun l => (sp.lane l).depth = maxNat (L.map fun l => (sp.lane l).depth)
  D.filter fun l => (sp.lane l).pc.toNat = minNat (D.map fun l => (sp.lane l).pc.toNat)

theorem mem_foremost {sp : Span} {L : List Nat} {l : Nat} : l ∈ sp.foremost L ↔ l ∈ L ∧ ∀ k ∈ L,
    (sp.lane k).depth < (sp.lane l).depth ∨ ((sp.lane k).depth = (sp.lane l).depth ∧ (sp.lane l).pc.toNat ≤ (sp.lane k).pc.toNat) := by
  simp only [Span.foremost, List.mem_filter, decide_eq_true_eq]
  generalize hD : L.filter (fun l => decide ((sp.lane l).depth = maxNat (L.map fun l => (sp.lane l).depth))) = D
  have memD : ∀ {k}, k ∈ D ↔ k ∈ L ∧ (sp.lane k).depth = maxNat (L.map fun l => (sp.lane l).depth) := by intro k; rw [← hD]; simp
  have depth_le : ∀ {k}, k ∈ L → (sp.lane k).depth ≤ maxNat (L.map fun l => (sp.lane l).depth) := fun hk => le_maxNat (List.mem_map_of_mem hk)
  have pc_le : ∀ {k}, k ∈ D → minNat (D.map fun l => (sp.lane l).pc.toNat) ≤ (sp.lane k).pc.toNat := fun hk => minNat_le (List.mem_map_of_mem hk)
  constructor
  · rintro ⟨⟨hl, hdepth⟩, hpc⟩
    refine ⟨hl, fun k hk => ?_⟩
    have hk' := depth_le hk
    by_cases hkd : (sp.lane k).depth = (sp.lane l).depth
    · exact .inr ⟨hkd, hpc ▸ pc_le (memD.2 ⟨hk, hkd.trans hdepth⟩)⟩
    · exact .inl (by omega)
  · rintro ⟨hl, hfirst⟩
    have hdepth : (sp.lane l).depth = maxNat (L.map fun l => (sp.lane l).depth) := by
      obtain ⟨k, hk, hkd⟩ := List.mem_map.1 (maxNat_mem (l := L.map fun l => (sp.lane l).depth) (by simpa using List.ne_nil_of_mem hl))
      have h1 := hfirst k hk
      have h2 := depth_le hl
      omega
    have hlD := memD.2 ⟨hl, hdepth⟩
    refine ⟨⟨hl, hdepth⟩, ?_⟩
    obtain ⟨k, hk, hkp⟩ := List.mem_map.1 (minNat_mem (l := D.map fun l => (sp.lane l).pc.toNat) (by simpa using List.ne_nil_of_mem hlD))
    obtain ⟨hkL, hkd⟩ := memD.1 hk
    have h1 := hfirst k hkL
    have h2 := pc_le hlD
    omega

/-- Do all lanes that have not ended wait at a CVG (R36)? -/
def Span.allAtCvg (sp : Span) : Prop := ∀ l, l < 32 → (sp.lane l).st.ended = false → (sp.lane l).st = .waiting ∧ (sp.lane l).wait = some .cvg

theorem settleCvg_apart {sp : Span} (h : ¬ sp.allAtCvg) : sp.settleCvg = sp := by
  have hno : (sp.lanesIn (!·.ended)).all (fun l => decide ((sp.lane l).st = .waiting) && decide ((sp.lane l).wait = some .cvg)) = false := by
    rw [Bool.eq_false_iff]
    intro hall
    refine h fun l hl hend => ?_
    simpa using List.all_eq_true.1 hall l (mem_lanesIn.2 ⟨hl, by simp [hend]⟩)
  simp [Span.settleCvg, hno]

theorem settleCvg_together {sp : Span} (ht : sp.trap = none) (h : sp.allAtCvg) (hl : ∃ l, l < 32 ∧ (sp.lane l).st.ended = false) :
    sp.settleCvg = sp.onLanes (sp.foremost (sp.lanesIn (!·.ended))) Lane.go := by
  have hall : (sp.lanesIn (!·.ended)).all (fun l => decide ((sp.lane l).st = .waiting) && decide ((sp.lane l).wait = some .cvg)) = true := by
    rw [List.all_eq_true]
    intro l hl
    obtain ⟨h32, hend⟩ := mem_lanesIn.1 hl
    simpa using h l h32 (by simpa using hend)
  have hsome : (sp.lanesIn (!·.ended)).isEmpty = false := by
    obtain ⟨l, h32, hend⟩ := hl
    exact List.isEmpty_eq_false_iff.2 (List.ne_nil_of_mem (mem_lanesIn.2 ⟨h32, by simpa using hend⟩))
  unfold Span.settleCvg
  simp only [ht, hall, hsome]
  rfl

theorem settleCvg_rest (sp : Span) : { sp.settleCvg with lanes := sp.lanes } = sp := by
  unfold Span.settleCvg
  dsimp only
  split <;> rfl

end Sys2Proof.Machine
end

section
/-! SUPPORT. The two words that let lanes wait or end, and the obligation about them and the converging of lanes (R36, R37, R85, R86). -/

namespace Sys2Proof.Machine

/-! Words that change the lanes of their span (R85, R86). -/

/-- A change of the span that has been put. -/
theorem onSpan_putSpan (s : State) (sp : Span) (f : Span → Span) (hf : (f sp).id = sp.id) :
    (s.putSpan sp).onSpan sp.id f = s.putSpan (f sp) := by
  simp only [State.putSpan, State.onSpan, List.map_map, hf]
  congr 2
  funext t
  by_cases h : t.id = sp.id <;> simp [h]

/-- A word whose only rule of its own is where doomed lanes are reclaimed. -/
theorem issue_plain {i : Instr} {recl : Iss → Nat → Bool} {body : State → Iss → State} {s : State} {sp0 sp : Span} {I : List Nat} {a : Word}
    (h : Clear i s sp0 sp I a) : issue i { recl := recl } body s = .next ((body s (At i sp I a)).issued i (At i sp I a)) :=
  issue_clear h (by intro hp; cases hp) (by intro hw; cases hw) rfl rfl rfl

theorem select_lt {sp0 sp : Span} {I : List Nat} {a : Word} (h : sp0.select = some (sp, I, a)) {l : Nat} (hl : l ∈ I) : l < sp.lanes.length := by
  by_contra hc
  have hready := select_ready h hl
  rw [Span.lane, List.getD_eq_default _ _ (by omega)] at hready
  exact absurd hready (by decide)

/-- Some lanes of an issue do `f`, and the others go on. -/
theorem moved_splitLanes {i : Instr} {s : State} {sp0 sp : Span} {I : List Nat} {a : Word} (h : Issuing s sp0 sp I a)
    {f : Lane → Lane} {g : Nat → Lane → Lane} (hfg : ∀ l ∈ acting i sp I, f { sp.lane l with pc := a + 8 } = g l (sp.lane l)) :
    Lanes sp ((At i sp I a).moved.onLanes (acting i sp I) f) (splitLanes (acting i sp I) I a g) := by
  obtain ⟨hcount, hlane⟩ := moved_goes h (acting i sp I)
  refine ⟨(onLanes_lanes_length _ _ _).trans hcount, fun l => ?_⟩
  rw [lane_onLanes, hlane, hcount]
  unfold splitLanes
  by_cases hG : l ∈ acting i sp I
  · have hI : l ∈ I := List.mem_of_mem_filter hG
    have hlen := select_lt h.select hI
    rw [if_pos ⟨hG, hlen⟩, if_pos hG, if_pos hI, hfg l hG]
  · rw [if_neg (fun h => hG h.1), if_neg hG]

/-- A lane that waits at its CVG, whose address is `a` (R85). -/
def Lane.atCvg (a : Word) (ln : Lane) : Lane := { ln with pc := a, st := .waiting, wait := some .cvg }

/-- The span of a CVG that has issued (R85). -/
def Iss.atCvg (i : Iss) : Span := i.moved.onLanes i.G (Lane.atCvg i.a)

theorem execCvg_clear {x : RRR} {s : State} {sp0 sp : Span} {I : List Nat} {a : Word} (h : Clear (.cvg x) s sp0 sp I a) :
    exec (.cvg x) s = .next ((if sp.due then (s.putSpan (At (.cvg x) sp I a).atCvg).takeTrap sp.id
        ⟨(if sp.hmode then sp.hcause else sp.cause).getD .future, false, a, []⟩
      else (s.putSpan (At (.cvg x) sp I a).atCvg).settle sp.id).issued (.cvg x) (At (.cvg x) sp I a)) := by
  have he : exec (.cvg x) s = execCvg x s := rfl
  rw [he, execCvg, issue_plain h]
  rfl

theorem atCvg_lanes {i : Instr} {s : State} {sp0 sp : Span} {I : List Nat} {a : Word} (h : Issuing s sp0 sp I a) :
    Lanes sp (At i sp I a).atCvg (splitLanes (acting i sp I) I a fun _ ln => { ln with st := .waiting, wait := some .cvg }) := by
  refine moved_splitLanes h fun l hl => ?_
  have hpc := (select_mem h.select (List.mem_of_mem_filter hl)).2
  simp [Lane.atCvg, ← hpc]

/-! The end of a lane (R86, R286). -/

def Lane.exit (ln : Lane) : Lane := { ln with st := .exited, task := none }

theorem lane_foldl_onLane (f : Lane → Lane) (hf : ∀ ln, f (f ln) = f ln) (G : List Nat) (sp : Span) (l : Nat) :
    (G.foldl (fun t k => t.onLane k f) sp).lane l = if l ∈ G ∧ l < sp.lanes.length then f (sp.lane l) else sp.lane l := by
  induction G generalizing sp with
  | nil => simp
  | cons k r ih =>
    have hlen : (sp.onLane k f).lanes.length = sp.lanes.length := by simp [Span.onLane]
    rw [List.foldl_cons, ih, lane_onLane, hlen]
    by_cases hk : l = k
    · subst hk
      by_cases h : l < sp.lanes.length <;> simp [h, hf]
    · simp [hk]

/-- The lanes of a list that exit, none of which runs a task. -/
theorem exitLanes_idle {s : State} (G : List Nat) {sp old : Span} (hs : s.span? sp.id = some old) (hG : ∀ l ∈ G, (sp.lane l).task = none) :
    G.foldl (fun t l => t.exitLane sp.id l) (s.putSpan sp) = s.putSpan (G.foldl (fun t l => t.onLane l Lane.exit) sp) := by
  induction G generalizing sp with
  | nil => rfl
  | cons l r ih =>
    have hput : (s.putSpan sp).span? sp.id = some sp := span?_putSpan_self s sp old hs
    have hend : (s.putSpan sp).endLaneTask sp l = s.putSpan sp := by simp [State.endLaneTask, hG l (.head _)]
    have hexit : (s.putSpan sp).exitLane sp.id l = s.putSpan (sp.onLane l Lane.exit) := by
      rw [State.exitLane, hput]
      show ((s.putSpan sp).endLaneTask sp l).onSpan sp.id (·.onLane l Lane.exit) = _
      rw [hend]
      exact onSpan_putSpan s sp (·.onLane l Lane.exit) rfl
    rw [List.foldl_cons, List.foldl_cons, hexit]
    refine ih (sp := sp.onLane l Lane.exit) hs fun k hk => ?_
    rw [lane_onLane]
    split
    exacts [rfl, hG k (.tail _ hk)]

/-- The span of an EXIT before its lanes end: those whose guard is true stay on the word (R86). -/
def Iss.staying (i : Iss) : Span := i.moved.onLanes i.G fun ln => { ln with pc := i.a }

theorem execExit_clear {x : RRR} {s : State} {sp0 sp : Span} {I : List Nat} {a : Word} (h : Clear (.exit x) s sp0 sp I a) :
    exec (.exit x) s = .next ((((acting (.exit x) sp I).foldl (fun t l => t.exitLane sp.id l) (s.putSpan (At (.exit x) sp I a).staying)).settle
      sp.id).issued (.exit x) (At (.exit x) sp I a)) := by
  have he : exec (.exit x) s = execExit x s := rfl
  have hr : ({} : Rules) = { recl := fun _ _ => false } := rfl
  rw [he, execExit, hr, issue_plain h]
  rfl

/-! The end of a task that owns no reference (R286, R293). -/

theorem dropAll_unowned {s : State} {o : Owner} (h : ∀ r ∈ s.refs, r.owner ≠ o) : s.dropAll o = s := by
  have hnone : s.refs.filter (fun r => decide (r.owner = o)) = [] := by simpa [List.filter_eq_nil_iff] using h
  have hall : s.refs.filter (fun r => decide (r.owner ≠ o)) = s.refs := by simpa [List.filter_eq_self] using h
  rw [State.dropAll, hnone, hall]
  rfl

theorem putFuture_refs (s : State) (f : Future) : (s.putFuture f).refs = s.refs := by
  unfold State.putFuture; split <;> rfl

theorem putFuture_putSpan (s : State) (f : Future) (sp : Span) : (s.putSpan sp).putFuture f = (s.putFuture f).putSpan sp := by
  unfold State.putFuture
  by_cases h : s.futs.any (·.isAt f.handle) = true <;> simp only [State.putSpan_futs, h] <;> rfl

section
variable {s : State} {t : Task} (launch : Nat) (hrefs : ∀ r ∈ s.refs, r.owner ≠ .task t.uid)
include hrefs

theorem endTask_post (hf : t.fut = 0) : s.endTask launch t = s.recordGone launch := by
  simp [State.endTask, hf, dropAll_unowned hrefs]

theorem endTask_running (hf : t.fut ≠ 0) (hserial : (s.future t.fut).serial = handleSerial t.fut) (hst : (s.future t.fut).st = .running) :
    s.endTask launch t = (s.putFuture ({ s.future t.fut with st := .failed } : Future).unreached).recordGone launch := by
  have h0 : ¬ t.fut = 0#64 := hf
  simp [State.endTask, h0, hserial, hst, dropAll_unowned ((putFuture_refs s _).symm ▸ hrefs)]

theorem endTask_doomed (hf : t.fut ≠ 0) (hserial : (s.future t.fut).serial = handleSerial t.fut) (hst : (s.future t.fut).st = .doomed) :
    s.endTask launch t = (s.putFuture (s.future t.fut).freed).recordGone launch := by
  have h0 : ¬ t.fut = 0#64 := hf
  simp [State.endTask, h0, hserial, hst, dropAll_unowned ((putFuture_refs s _).symm ▸ hrefs)]

end

theorem staying_lanes {i : Instr} {s : State} {sp0 sp : Span} {I : List Nat} {a : Word} (h : Issuing s sp0 sp I a) :
    Lanes sp (At i sp I a).staying (splitLanes (acting i sp I) I a fun _ ln => ln) := by
  refine moved_splitLanes h fun l hl => ?_
  rw [← (select_mem h.select (List.mem_of_mem_filter hl)).2]

/-- The acting lanes exit on the word. -/
theorem exiting_lanes {i : Instr} {s : State} {sp0 sp : Span} {I : List Nat} {a : Word} (h : Issuing s sp0 sp I a) :
    Lanes sp ((acting i sp I).foldl (fun t l => t.onLane l Lane.exit) (At i sp I a).staying)
      (splitLanes (acting i sp I) I a fun _ ln => { ln with st := .exited, task := none }) := by
  obtain ⟨hcount, hlane⟩ := staying_lanes (i := i) h
  refine ⟨?_, fun l => ?_⟩
  · rw [← hcount]
    generalize acting i sp I = G
    generalize (At i sp I a).staying = q
    induction G generalizing q with
    | nil => rfl
    | cons k r ih => rw [List.foldl_cons, ih]; simp [Span.onLane]
  · rw [lane_foldl_onLane Lane.exit (fun _ => rfl), hcount, hlane]
    unfold splitLanes
    by_cases hG : l ∈ acting i sp I
    · have hlen := select_lt h.select (List.mem_of_mem_filter hG)
      rw [if_pos ⟨hG, hlen⟩, if_pos hG, if_pos hG]; rfl
    · rw [if_neg (fun h => hG h.1), if_neg hG, if_neg hG]

theorem staying_exit_rest {i : Instr} {sp : Span} {I : List Nat} {a : Word} (G : List Nat) :
    { G.foldl (fun t l => t.onLane l Lane.exit) (At i sp I a).staying with lanes := sp.lanes } = sp := by
  have hfold : ∀ (G : List Nat) (q : Span), { G.foldl (fun t l => t.onLane l Lane.exit) q with lanes := sp.lanes } = { q with lanes := sp.lanes } := by
    intro G
    induction G with
    | nil => exact fun _ => rfl
    | cons k r ih => exact fun q => (ih _).trans rfl
  exact (hfold G _).trans rfl

/-- The one lane that exits runs a task, whose end leaves the state `v` beside its launch's count. -/
theorem execExit_task {x : RRR} {s v : State} {sp0 sp : Span} {I : List Nat} {a : Word} {l : Nat} {t : Task} (h : Clear (.exit x) s sp0 sp I a)
    (hl : acting (.exit x) sp I = [l]) (ht : (sp.lane l).task = some t)
    (hv : ∀ q : Span, (s.putSpan q).endTask sp.launch t = (v.putSpan q).recordGone sp.launch) :
    exec (.exit x) s = .next ((((v.onLaunch sp.launch fun k => { k with records := k.records - 1 }).putSpan
      ((At (.exit x) sp I a).staying.onLane l Lane.exit)).settle sp.id).issued (.exit x) (At (.exit x) sp I a)) := by
  have htask : ((At (.exit x) sp I a).staying.lane l).task = some t := by
    rw [(staying_lanes h.toIssuing).lane l]; simp [splitLanes, hl, ht]
  have hid : (At (.exit x) sp I a).staying.id = sp.id := rfl
  have hlaunch : (At (.exit x) sp I a).staying.launch = sp.launch := rfl
  rw [execExit_clear h, hl]
  generalize (At (.exit x) sp I a).staying = q at htask hid hlaunch ⊢
  have hput : (s.putSpan q).span? sp.id = some q := hid ▸ span?_putSpan_self s q sp0 (hid ▸ issuing_span? h.toIssuing)
  have hend : (s.putSpan q).endLaneTask q l = (v.putSpan q).recordGone sp.launch := by
    simp only [State.endLaneTask, htask, hlaunch, hv]
  have hexit : (s.putSpan q).exitLane sp.id l =
      (v.onLaunch sp.launch fun k => { k with records := k.records - 1 }).putSpan (q.onLane l Lane.exit) := by
    rw [State.exitLane, hput]
    show ((s.putSpan q).endLaneTask q l).onSpan sp.id (·.onLane l Lane.exit) = _
    rw [hend, ← hid]
    exact onSpan_putSpan (v.recordGone sp.launch) q (·.onLane l Lane.exit) rfl
  rw [List.foldl_cons, List.foldl_nil, hexit]

theorem putFuture_task {s : State} {t : Task} {g : Future} {launch : Nat}
    (h : ∀ q : Span, (s.putSpan q).endTask launch t = ((s.putSpan q).putFuture g).recordGone launch) (q : Span) :
    (s.putSpan q).endTask launch t = ((s.putFuture g).putSpan q).recordGone launch := by
  rw [h, putFuture_putSpan]

theorem lane_lt_of_not_ended {sp : Span} {l : Nat} (h : (sp.lane l).st.ended = false) : l < sp.lanes.length := by
  by_contra hc
  rw [Span.lane, List.getD_eq_default _ _ (by omega)] at h
  exact absurd h (by decide)

/-- A span that differs from another in its lanes alone has its registers and flags. -/
theorem keepsRegs_of_lanes {sp q : Span} (h : { q with lanes := sp.lanes } = sp) : KeepsRegs sp q ∧ q.qs = sp.qs := by
  have hv := congrArg Span.vregs h
  have hs := congrArg Span.sregs h
  have hq := congrArg Span.qs h
  exact ⟨⟨hv, hs⟩, hq⟩

/-- Settles O11: CVG and EXIT by their own equations, the converging of lanes by the two cases of `settleCvg`. -/
theorem convergence : Obligations.convergence := by
  refine ⟨fun s sp0 sp I a x => ⟨?cvg, ?due, ?exit, ?task⟩, fun sp ht => ⟨?together, settleCvg_rest sp, settleCvg_apart⟩⟩
  case cvg =>
    intro h hdue
    refine ⟨(At (.cvg x) sp I a).atCvg, ?_, rfl, ⟨rfl, rfl⟩, rfl, atCvg_lanes h.toIssuing⟩
    rw [execCvg_clear h, if_neg (by simp [hdue])]
  case due =>
    intro h hdue hmode
    refine ⟨(At (.cvg x) sp I a).atCvg, (if sp.hmode then sp.hcause else sp.cause).getD .future, ?_, ?_, ⟨rfl, rfl⟩, rfl, atCvg_lanes h.toIssuing⟩
    · rw [execCvg_clear h, if_pos hdue]
    · intro k hk
      simp [hmode, hk]
  case exit =>
    intro h hidle
    obtain ⟨hcount, hlane⟩ := exiting_lanes (i := .exit x) h.toIssuing
    have hrest := staying_exit_rest (i := .exit x) (sp := sp) (I := I) (a := a) (acting (.exit x) sp I)
    obtain ⟨hregs, hflags⟩ := keepsRegs_of_lanes hrest
    have hstay (l : Nat) (hl : l ∈ acting (.exit x) sp I) : ((At (.exit x) sp I a).staying.lane l).task = none := by
      rw [(staying_lanes h.toIssuing).lane l]; simp [splitLanes, hl, hidle l hl]
    have hexit := exitLanes_idle (sp := (At (.exit x) sp I a).staying) (acting (.exit x) sp I)
      (show s.span? sp.id = some sp0 from issuing_span? h.toIssuing) hstay
    refine ⟨(acting (.exit x) sp I).foldl (fun t l => t.onLane l Lane.exit) (At (.exit x) sp I a).staying, ?_, ?_, ?_, ?_, hcount, fun l => ?_⟩
    · rw [execExit_clear h]
      exact congrArg (fun t => Host.Outcome.next ((State.settle t sp.id).issued (.exit x) (At (.exit x) sp I a))) hexit
    · generalize (acting (.exit x) sp I).foldl (fun t l => t.onLane l Lane.exit) (At (.exit x) sp I a).staying = q at hrest
      calc { q with vregs := sp.vregs, sregs := sp.sregs, qs := sp.qs, lanes := sp.lanes }
          = { ({ q with lanes := sp.lanes } : Span) with vregs := sp.vregs, sregs := sp.sregs, qs := sp.qs } := rfl
        _ = sp := by rw [hrest]
    · exact hregs
    · exact hflags
    · rw [hlane]
      unfold splitLanes
      by_cases hl : l ∈ acting (.exit x) sp I
      · have hnone := hidle l hl
        simp only [if_pos hl]
        rw [← hnone]
      · simp only [if_neg hl]
  case task =>
    intro l t h hl ht hrefs
    have hlanes := exiting_lanes (i := .exit x) h.toIssuing
    rw [hl] at hlanes
    refine ⟨(At (.exit x) sp I a).staying.onLane l Lane.exit, hlanes, staying_exit_rest (i := .exit x) [l], fun hf => ?_, fun hf hserial => ⟨fun hst => ⟨fun hreached => ?_, fun hcount hwait => ?_⟩, fun hst => ?_⟩⟩
    · exact execExit_task h hl ht fun q => endTask_post sp.launch hrefs hf
    · have hend := fun q => endTask_running (s := s.putSpan q) sp.launch hrefs hf hserial hst
      have hun : ({ s.future t.fut with st := .failed } : Future).unreached = { s.future t.fut with st := .failed } := by
        simp only [Future.unreached]
        rw [if_pos]
        simpa using hreached
      exact execExit_task h hl ht (putFuture_task fun q => (hend q).trans (congrArg (fun g => ((s.putSpan q).putFuture g).recordGone sp.launch) hun))
    · have hend := fun q => endTask_running (s := s.putSpan q) sp.launch hrefs hf hserial hst
      have hun : ({ s.future t.fut with st := .failed } : Future).unreached = ({ s.future t.fut with st := .failed } : Future).freed := by
        simp [Future.unreached, hcount, hwait]
      exact execExit_task h hl ht (putFuture_task fun q => (hend q).trans (congrArg (fun g => ((s.putSpan q).putFuture g).recordGone sp.launch) hun))
    · exact execExit_task h hl ht (putFuture_task fun q => endTask_doomed (s := s.putSpan q) sp.launch hrefs hf hserial hst)
  case together =>
    intro hall hsome l
    rw [settleCvg_together ht hall hsome, lane_onLanes]
    have hmem : l ∈ sp.foremost (sp.lanesIn (!·.ended)) ↔ l < 32 ∧ (sp.lane l).st.ended = false ∧ ∀ k, k < 32 → (sp.lane k).st.ended = false →
        (sp.lane k).depth < (sp.lane l).depth ∨ ((sp.lane k).depth = (sp.lane l).depth ∧ (sp.lane l).pc.toNat ≤ (sp.lane k).pc.toNat) := by
      simp [mem_foremost, mem_lanesIn, and_assoc]
    refine ⟨fun hone => ?_, fun hnot => if_neg fun h => hnot (hmem.1 h.1)⟩
    exact if_pos ⟨hmem.2 hone, lane_lt_of_not_ended hone.2.1⟩

end Sys2Proof.Machine
end

section
/-! SUPPORT. The requests of an instruction: one for each line, in ascending order, with the parts of its accesses (R125). -/

namespace Sys2Proof.Machine

/-- A part in its line: virtual line, physical line, page kind, part. -/
abbrev LinePart := Nat × Nat × PKind × Part

def Entry.lineKey (e : Entry) : Nat × Nat := (e.vline, e.pline)

/-- Do some requests hold a part for a line? -/
def holdsPart (es : List Entry) (q : Nat × Nat × Part) : Prop := ∃ e ∈ es, ∃ p ∈ e.parts, q = (e.vline, e.pline, p)

theorem holdsPart_cons {e : Entry} {es : List Entry} {q : Nat × Nat × Part} :
    holdsPart (e :: es) q ↔ (∃ p ∈ e.parts, q = (e.vline, e.pline, p)) ∨ holdsPart es q := by
  simp [holdsPart]

/-- Requests in their order, one for each line, that are `n`'s and have not been sent. -/
structure Ordered (n : Nat) (es : List Entry) : Prop where
  lines  : (es.map Entry.lineKey).Nodup
  rising : (es.map (·.vline)).Pairwise (· ≤ ·)
  place  : ∀ e ∈ es, e.seq = n ∧ e.op = .mem ∧ e.bounces = 0

theorem ordered_nil (n : Nat) : Ordered n [] := ⟨.nil, .nil, by simp⟩

theorem ordered_cons {n : Nat} {e : Entry} {es : List Entry} : Ordered n (e :: es) ↔
    (e.seq = n ∧ e.op = .mem ∧ e.bounces = 0) ∧ (∀ f ∈ es, f.lineKey ≠ e.lineKey ∧ e.vline ≤ f.vline) ∧ Ordered n es := by
  constructor
  · rintro ⟨hlines, hrising, hplace⟩
    obtain ⟨hnew, hlines⟩ := List.nodup_cons.1 hlines
    obtain ⟨hle, hrising⟩ := List.pairwise_cons.1 hrising
    refine ⟨hplace e (.head _), fun f hf => ⟨fun h => hnew (h ▸ List.mem_map_of_mem hf), hle _ (List.mem_map_of_mem hf)⟩, hlines, hrising,
      fun f hf => hplace f (.tail _ hf)⟩
  · rintro ⟨he, hrest, hlines, hrising, hplace⟩
    refine ⟨List.nodup_cons.2 ⟨fun h => ?_, hlines⟩, List.pairwise_cons.2 ⟨fun v hv => ?_, hrising⟩, fun f hf => ?_⟩
    · obtain ⟨f, hf, hk⟩ := List.mem_map.1 h
      exact (hrest f hf).1 hk
    · obtain ⟨f, hf, rfl⟩ := List.mem_map.1 hv
      exact (hrest f hf).2
    · rcases List.mem_cons.1 hf with rfl | hf
      exacts [he, hplace f hf]

theorem mem_insertPart {p q : Part} {l : List Part} : q ∈ insertPart p l ↔ q = p ∨ q ∈ l := by
  induction l with
  | nil => simp [insertPart]
  | cons r l ih =>
    unfold insertPart
    split
    · simp
    · simp only [List.mem_cons, ih]; tauto

/-- A request for the line of one part. -/
def Entry.ofPart (proto : Entry) (x : LinePart) : Entry := { proto with vline := x.1, pline := x.2.1, pkind := x.2.2.1, parts := [x.2.2.2] }

/-- What `addPart` does to the first of its requests. -/
theorem addPart_cons (proto : Entry) (x : LinePart) (e : Entry) (r : List Entry) : addPart proto x (e :: r) =
    if e.lineKey = (x.1, x.2.1) then { e with parts := insertPart x.2.2.2 e.parts } :: r
    else if x.1 < e.vline then Entry.ofPart proto x :: e :: r else e :: addPart proto x r := by
  simp only [addPart, Entry.lineKey, Prod.mk.injEq]; rfl

theorem addPart_nil (proto : Entry) (x : LinePart) : addPart proto x [] = [Entry.ofPart proto x] := rfl

/-- The lines of the requests with a part more. -/
theorem lineKey_addPart {proto : Entry} {x : LinePart} {es : List Entry} {f : Entry} (h : f ∈ addPart proto x es) :
    f.lineKey = (x.1, x.2.1) ∨ ∃ e ∈ es, f.lineKey = e.lineKey := by
  induction es with
  | nil => rw [addPart_nil, List.mem_singleton] at h; exact .inl (h ▸ rfl)
  | cons e r ih =>
    rw [addPart_cons] at h
    split at h
    · rcases List.mem_cons.1 h with rfl | h
      exacts [.inr ⟨e, .head _, rfl⟩, .inr ⟨f, .tail _ h, rfl⟩]
    · split at h
      · rcases List.mem_cons.1 h with rfl | h
        exacts [.inl rfl, .inr ⟨f, h, rfl⟩]
      · rcases List.mem_cons.1 h with rfl | h
        · exact .inr ⟨f, .head _, rfl⟩
        · rcases ih h with h | ⟨e', he', hk⟩
          exacts [.inl h, .inr ⟨e', .tail _ he', hk⟩]

theorem addPart_ordered {n : Nat} {proto : Entry} (hp : proto.seq = n ∧ proto.op = .mem ∧ proto.bounces = 0) (x : LinePart) {es : List Entry}
    (h : Ordered n es) : Ordered n (addPart proto x es) := by
  induction es with
  | nil => exact ordered_cons.2 ⟨hp, by simp, ordered_nil n⟩
  | cons e r ih =>
    obtain ⟨he, hrest, hr⟩ := ordered_cons.1 h
    rw [addPart_cons]
    split
    · exact ordered_cons.2 ⟨he, hrest, hr⟩
    · rename_i hkey
      split
      · rename_i hlt
        refine ordered_cons.2 ⟨hp, fun f hf => ?_, h⟩
        have hle : e.vline ≤ f.vline := by
          rcases List.mem_cons.1 hf with rfl | hf
          exacts [Nat.le_refl _, (hrest f hf).2]
        refine ⟨fun hk => ?_, Nat.le_of_lt (Nat.lt_of_lt_of_le hlt hle)⟩
        have hv : f.vline = x.1 := congrArg Prod.fst hk
        omega
      · rename_i hge
        refine ordered_cons.2 ⟨he, fun f hf => ?_, ih hr⟩
        rcases lineKey_addPart hf with hk | ⟨g, hg, hk⟩
        · have hv : f.vline = x.1 := congrArg Prod.fst hk
          exact ⟨fun h => hkey (h.symm.trans hk), by omega⟩
        · have hv : f.vline = g.vline := congrArg Prod.fst hk
          exact ⟨fun h => (hrest g hg).1 (hk.symm.trans h), hv ▸ (hrest g hg).2⟩

theorem holdsPart_addPart {proto : Entry} {x : LinePart} {es : List Entry} {q : Nat × Nat × Part} :
    holdsPart (addPart proto x es) q ↔ q = (x.1, x.2.1, x.2.2.2) ∨ holdsPart es q := by
  induction es with
  | nil => simp [addPart_nil, holdsPart, Entry.ofPart]
  | cons e r ih =>
    rw [addPart_cons]
    split
    · rename_i hkey
      obtain ⟨hv, hpl⟩ := Prod.mk.injEq .. ▸ hkey
      simp only [holdsPart_cons, mem_insertPart, hv, hpl, or_and_right, exists_or, exists_eq_left, or_assoc]
    · split
      · simp [holdsPart_cons, Entry.ofPart]
      · rw [holdsPart_cons, ih, holdsPart_cons, or_left_comm]

/-- The requests of some parts. -/
def requestsOf (proto : Entry) (xs : List LinePart) : List Entry := xs.foldl (fun es x => addPart proto x es) []

theorem requestsOf_ordered {n : Nat} {proto : Entry} (hp : proto.seq = n ∧ proto.op = .mem ∧ proto.bounces = 0) (xs : List LinePart) :
    Ordered n (requestsOf proto xs) := by
  have go : ∀ (xs : List LinePart) (es : List Entry), Ordered n es → Ordered n (xs.foldl (fun es x => addPart proto x es) es) := by
    intro xs
    induction xs with
    | nil => exact fun _ h => h
    | cons x r ih => exact fun es h => ih _ (addPart_ordered hp x h)
  exact go xs [] (ordered_nil n)

theorem holdsPart_requestsOf {proto : Entry} {xs : List LinePart} {q : Nat × Nat × Part} :
    holdsPart (requestsOf proto xs) q ↔ ∃ x ∈ xs, q = (x.1, x.2.1, x.2.2.2) := by
  have go : ∀ (xs : List LinePart) (es : List Entry), holdsPart (xs.foldl (fun es x => addPart proto x es) es) q ↔
      (∃ x ∈ xs, q = (x.1, x.2.1, x.2.2.2)) ∨ holdsPart es q := by
    intro xs
    induction xs with
    | nil => simp
    | cons x r ih => intro es; rw [List.foldl_cons, ih, holdsPart_addPart]; simp only [List.mem_cons, exists_eq_or_imp, or_assoc, or_left_comm]
  rw [requestsOf, go]
  simp [holdsPart]

/-- The requests of an access are those of R125. -/
theorem requestsOf_requested (a : Access) (ps : List Piece) :
    Requested a.seq [(a, ps)] (requestsOf (protoEntry a) ((ps.map (lineParts a)).flatten)) := by
  obtain ⟨hlines, hrising, hplace⟩ := requestsOf_ordered (n := a.seq) (proto := protoEntry a) ⟨rfl, rfl, rfl⟩ ((ps.map (lineParts a)).flatten)
  refine ⟨hlines, hrising, hplace, fun q => ?_⟩
  have h := holdsPart_requestsOf (proto := protoEntry a) (xs := (ps.map (lineParts a)).flatten) (q := q)
  rw [holdsPart] at h
  rw [h]
  simp only [List.mem_flatten, List.mem_map, List.mem_singleton, exists_eq_left]
  constructor
  · rintro ⟨x, ⟨_, ⟨w, hw, rfl⟩, hx⟩, hq⟩
    exact ⟨w, hw, x, hx, hq⟩
  · rintro ⟨w, hw, x, hx, hq⟩
    exact ⟨x, ⟨_, ⟨w, hw, rfl⟩, hx⟩, hq⟩

end Sys2Proof.Machine
end

section
/-! SUPPORT. What a check's verdict does to its lane, and the obligation that says what a walk does that returns (R18, R19, R121, R144). -/

namespace Sys2Proof.Machine

/-! Notices (R144). -/

/-- Pages told for one waiter: the spans are as they were, and each page has its notice. -/
theorem notify_spec (s : State) (ctx : Nat) (why : Park) (who : Waiter) (pages : List Nat) :
    (s.notify ctx why who pages).spans = s.spans ∧ (∀ n ∈ s.notices, n ∈ (s.notify ctx why who pages).notices) ∧
      ∀ p ∈ pages, ∃ n ∈ (s.notify ctx why who pages).notices, n.ctx = ctx ∧ n.page = p ∧ n.who = who := by
  unfold State.notify
  induction pages generalizing s with
  | nil => simp
  | cons p r ih =>
    rw [List.foldl_cons]
    dsimp only
    split
    · rename_i hthere
      obtain ⟨hspans, hkeep, htold⟩ := ih s
      refine ⟨hspans, hkeep, fun q hq => ?_⟩
      rcases List.mem_cons.1 hq with rfl | hq
      · obtain ⟨n, hn, hfor⟩ := List.any_eq_true.1 hthere
        simp only [Bool.and_eq_true, decide_eq_true_eq, and_assoc] at hfor
        exact ⟨n, hkeep n hn, hfor⟩
      · exact htold q hq
    · obtain ⟨hspans, hkeep, htold⟩ := ih { s with notices := s.notices ++ [⟨ctx, p, s.parkReason ctx p why, who, false⟩] }
      refine ⟨hspans, fun n hn => hkeep n (List.mem_append_left _ hn), fun q hq => ?_⟩
      rcases List.mem_cons.1 hq with rfl | hq
      · exact ⟨_, hkeep _ (List.mem_append_right _ (.head _)), rfl, rfl, rfl⟩
      · exact htold q hq

theorem notify_span? (s : State) (ctx : Nat) (why : Park) (who : Waiter) (pages : List Nat) (id : Nat) :
    (s.notify ctx why who pages).span? id = s.span? id := by
  rw [State.span?, (notify_spec s ctx why who pages).1]; rfl

/-! The fault record of a lane (R21). -/

/-- What the writing of a fault record leaves of a span: what the device's write leaves, but the trap's causes and the records that wait. -/
structure Span.Logs (sp sp' : Span) : Prop where
  lane : ∀ l, { sp'.lane l with resv := (sp.lane l).resv, wait := (sp.lane l).wait, kept := (sp.lane l).kept } = sp.lane l
  idle : ∀ l, (sp.lane l).wait = none → (sp'.lane l).wait = none
  rest : { sp' with lanes := sp.lanes, landing := sp.landing, unsent := sp.unsent, joining := sp.joining, resv := sp.resv, cause := sp.cause,
                    first := sp.first, due := sp.due, hcause := sp.hcause, records := sp.records, drafts := sp.drafts } = sp

namespace Span.Logs

theorem of_spares {sp sp' : Span} (h : sp.Spares sp') : sp.Logs sp' where
  lane := h.lane
  idle := h.idle
  rest := by
    calc { sp' with lanes := sp.lanes, landing := sp.landing, unsent := sp.unsent, joining := sp.joining, resv := sp.resv, cause := sp.cause,
                    first := sp.first, due := sp.due, hcause := sp.hcause, records := sp.records, drafts := sp.drafts }
        = { ({ sp' with lanes := sp.lanes, landing := sp.landing, unsent := sp.unsent, joining := sp.joining, resv := sp.resv } : Span) with
              cause := sp.cause, first := sp.first, due := sp.due, hcause := sp.hcause, records := sp.records, drafts := sp.drafts } := rfl
      _ = sp := by rw [h.rest]

theorem refl (sp : Span) : sp.Logs sp := of_spares (.refl sp)

theorem trans {a b c : Span} (h : a.Logs b) (g : b.Logs c) : a.Logs c where
  lane l := by
    calc { c.lane l with resv := (a.lane l).resv, wait := (a.lane l).wait, kept := (a.lane l).kept }
        = { ({ c.lane l with resv := (b.lane l).resv, wait := (b.lane l).wait, kept := (b.lane l).kept } : Lane) with
            resv := (a.lane l).resv, wait := (a.lane l).wait, kept := (a.lane l).kept } := rfl
      _ = a.lane l := by rw [g.lane l]; exact h.lane l
  idle l hl := g.idle l (h.idle l hl)
  rest := by
    calc { c with lanes := a.lanes, landing := a.landing, unsent := a.unsent, joining := a.joining, resv := a.resv, cause := a.cause,
                  first := a.first, due := a.due, hcause := a.hcause, records := a.records, drafts := a.drafts }
        = { ({ c with lanes := b.lanes, landing := b.landing, unsent := b.unsent, joining := b.joining, resv := b.resv, cause := b.cause,
                      first := b.first, due := b.due, hcause := b.hcause, records := b.records, drafts := b.drafts } : Span) with
            lanes := a.lanes, landing := a.landing, unsent := a.unsent, joining := a.joining, resv := a.resv, cause := a.cause,
            first := a.first, due := a.due, hcause := a.hcause, records := a.records, drafts := a.drafts } := rfl
      _ = a := by rw [g.rest]; exact h.rest

theorem lane_st {sp sp' : Span} (h : sp.Logs sp') (l : Nat) : (sp'.lane l).st = (sp.lane l).st := by
  have hf := congrArg Lane.st (h.lane l); exact hf
theorem lane_pc {sp sp' : Span} (h : sp.Logs sp') (l : Nat) : (sp'.lane l).pc = (sp.lane l).pc := by
  have hf := congrArg Lane.pc (h.lane l); exact hf
theorem checks_eq {sp sp' : Span} (h : sp.Logs sp') : sp'.checks = sp.checks := by have hf := congrArg Span.checks h.rest; exact hf
theorem fseq_eq {sp sp' : Span} (h : sp.Logs sp') : sp'.fseq = sp.fseq := by have hf := congrArg Span.fseq h.rest; exact hf

/-- A record that is counted changes no lane. -/
theorem recordAt (sp : Span) (l : Nat) (c : Cause) : sp.Logs (sp.recordAt l c) := by
  unfold Span.recordAt
  split <;> exact ⟨fun _ => rfl, fun _ h => h, rfl⟩

end Span.Logs

theorem Span.Logs.each_of_spares {s t : State} (h : s.Spares t) : State.Each Span.Logs s t := fun id sp hs =>
  have ⟨sp', hs', hsp⟩ := h id sp hs
  ⟨sp', hs', .of_spares hsp⟩

/-- The write of a fault record, or the check of its place where it must wait (R22). -/
def State.tryRecord (s : State) (sp : Span) (cx : Context) (l : Nat) (bs : List Byte) : State × Option XOut × List Nat :=
  if s.recordsWait sp then
    let r := s.checkPages (some sp.pier) cx { wr := true } (pagePieces (s.recordPlace sp cx l).toNat bs.length)
    (r.1, r.2.1, r.2.2.1)
  else s.deviceWrite (some sp.pier) cx (s.recordPlace sp cx l) bs

theorem tryRecord_spares (s : State) (sp : Span) (cx : Context) (l : Nat) (bs : List Byte) : s.Spares (s.tryRecord sp cx l bs).1 := by
  unfold State.tryRecord
  split
  exacts [checkPages_spares _ _ _ _ _, deviceWrite_spares _ _ _ _ _]

theorem writeRecord_logs (s : State) (id l : Nat) (c : Cause) (bs : List Byte) : State.Each Span.Logs s (s.writeRecord id l c bs) := by
  unfold State.writeRecord
  split
  · exact .refl Span.Logs.refl s
  · rename_i sp _
    split
    · exact .onSpan Span.Logs.refl (fun t => recordAt_id t l c) (fun t => .recordAt t l c)
    · rename_i cx _
      have hwrite := Span.Logs.each_of_spares (tryRecord_spares s sp cx l bs)
      unfold State.tryRecord at hwrite
      dsimp only at hwrite ⊢
      split <;> rename_i heq <;> rw [heq] at hwrite <;> refine hwrite.trans Span.Logs.trans ?_
      · refine .onSpan Span.Logs.refl (fun t => ?_) (fun t => ?_)
        · exact recordAt_id t l c
        · exact (Span.Logs.recordAt t l c).trans ⟨fun _ => rfl, fun _ h => h, rfl⟩
      · exact .onSpan Span.Logs.refl (fun t => recordAt_id t l _) (fun t => .recordAt t l _)
      · refine State.Each.trans Span.Logs.trans (.onSpan Span.Logs.refl (fun _ => ?_) (fun t => ?_))
          (.of_spans Span.Logs.refl (notify_spec _ _ _ _ _).1)
        · rfl
        · exact ⟨fun _ => rfl, fun _ h => h, rfl⟩
      · exact .refl Span.Logs.refl _

/-! The verdict of a check (R18, R19, R127). -/

theorem checkWalk_spares (s : State) (pier : Nat) (cx : Context) (a : Access) : s.Spares (s.checkWalk pier cx a).1 := by
  unfold State.checkWalk
  refine State.Each.foldl_fst (R := Span.Spares) Span.Spares.refl Span.Spares.trans (fun p q => ?_) _ (s, [])
  exact seek_spares p.1 (some pier) cx q.1 a.op.need

/-- A walk that returns decides its access. -/
theorem verdict_decides (outs : List ((Nat × Nat) × XOut)) : verdict outs ≠ .wait := by
  unfold verdict
  dsimp only
  split <;> simp

theorem checkWalk_decides {s t : State} {pier : Nat} {cx : Context} {a : Access} {v : Verdict} (h : s.checkWalk pier cx a = (t, v)) : v ≠ .wait := by
  have hv : (s.checkWalk pier cx a).2 = v := by rw [h]
  rw [← hv]
  exact verdict_decides _

/-- The lane whose access parks (R28, R144). -/
theorem parkLane_parks {s : State} {id l : Nat} {sp : Span} (why : Park) (pages : List Nat) (hs : s.span? id = some sp) (hl : l < sp.lanes.length) :
    ∃ sp', (s.parkLane id l why pages).span? id = some sp' ∧ sp'.checks = sp.checks ∧
      sp'.lane l = { sp.lane l with st := .parkedRec, reason := some why, pages := pages, wait := none } ∧
      ∀ p ∈ pages, ∃ n ∈ (s.parkLane id l why pages).notices, n.ctx = sp.ctx ∧ n.page = p ∧ n.who = .lane sp.uid l := by
  simp only [State.parkLane, hs]
  refine ⟨sp.onLane l fun ln => { ln with st := .parkedRec, reason := some why, pages := pages, wait := none }, ?_, rfl, ?_,
    (notify_spec _ sp.ctx why (.lane sp.uid l) pages).2.2⟩
  · rw [notify_span?]
    exact span?_onSpan_self _ (fun _ => rfl) hs
  · rw [lane_onLane, if_pos ⟨rfl, hl⟩]

/-- The lane whose access faults (R19). -/
theorem faultLane_faults {s : State} {sp : Span} {l : Nat} (c : Cause) (kind log2 part : Nat) (vaddr iaddr : Word) (hs : s.span? sp.id = some sp)
    (hl : l < sp.lanes.length) : ∃ sp', (s.faultLane sp.id l c kind log2 part vaddr iaddr).span? sp.id = some sp' ∧ sp'.checks = sp.checks ∧
      (sp'.lane l).st = .parkedFatal ∧ (sp'.lane l).pc = (sp.lane l).pc ∧ (sp'.lane l).wait = none ∧ sp'.fseq = (sp.fseq + 1) % 256 := by
  rw [faultLane_eq hs]
  have hthere : (s.onSpan sp.id (·.faulted l)).span? sp.id = some (sp.faulted l) := span?_onSpan_self _ (fun _ => rfl) hs
  obtain ⟨sp', hs', hlog⟩ := writeRecord_logs _ sp.id l c (faultRecord sp l c kind log2 part vaddr iaddr) sp.id _ hthere
  have hlane : (sp.faulted l).lane l = { sp.lane l with st := .parkedFatal, wait := none } := by rw [lane_faulted, if_pos ⟨rfl, hl⟩]
  refine ⟨sp', hs', hlog.checks_eq, ?_, ?_, hlog.idle l ?_, hlog.fseq_eq⟩
  · rw [hlog.lane_st, hlane]
  · rw [hlog.lane_pc, hlane]
  · rw [hlane]

/-! Requests that are made (R114, R125). -/

/-- The result of an access waits for `n` parts. -/
def Span.awaits (sp : Span) (a : Access) (n : Nat) : Span := match a.res with
  | some r => sp.onResult r fun q => { q with need := n }
  | none => sp

theorem awaits_rest (sp : Span) (a : Access) (n : Nat) : { sp.awaits a n with results := sp.results } = sp := by
  unfold Span.awaits
  split <;> rfl

theorem send_one_eq {sp : Span} {a : Access} (ps : List Piece) (hstl : a.op ≠ .stl) :
    sp.send [(a, ps)] =
      let t := sp.awaits a (ps.map (lineParts a)).flatten.length
      ({ t with joining := t.joining.filter (·.seq ≠ a.seq) ++
          (ps.map (lineParts a)).flatten.foldl (fun es p => addPart (protoEntry a) p es) (t.joining.filter (·.seq = a.seq)) } : Span).sendJoined := by
  have hdec : sp.decideStl a ps = (sp, some a) := by simp [Span.decideStl, hstl]
  simp only [Span.send, List.foldl_cons, List.foldl_nil, hdec, List.nil_append, List.map_cons, List.map_nil, List.flatten_cons (L := []),
    List.flatten_nil, List.append_nil]
  rfl

/-- A request of an instruction with no check that waits is reached by no lane any more. -/
theorem stillReached_alone {sp : Span} {e : Entry} (h : ∀ c ∈ sp.checks, c.seq ≠ e.seq) : sp.stillReached e = false := by
  rw [Span.stillReached, List.any_eq_false]
  intro c hc
  simp [h c hc]

/-- Requests that nothing reaches any more are all sent. -/
theorem sendJoined_all {sp : Span} (h : ∀ e ∈ sp.joining, sp.stillReached e = false) : sp.sendJoined = { sp with joining := [], unsent := sp.unsent ++ sp.joining } := by
  have hnone : sp.joining.filter sp.stillReached = [] := List.filter_eq_nil_iff.2 fun e he => by simp [h e he]
  have hall : sp.joining.filter (!sp.stillReached ·) = sp.joining := List.filter_eq_self.2 fun e he => by simp [h e he]
  rw [Span.sendJoined, hnone, hall]

/-- The requests of one access that has passed, when no other of its instruction waits: all are to be sent. -/
theorem send_one {sp : Span} {a : Access} (ps : List Piece) (hstl : a.op ≠ .stl) (hjoin : sp.joining = []) (halone : ∀ c ∈ sp.checks, c.seq ≠ a.seq) :
    (sp.send [(a, ps)]).unsent = sp.unsent ++ requestsOf (protoEntry a) (ps.map (lineParts a)).flatten ∧
      (sp.send [(a, ps)]).checks = sp.checks ∧ (sp.send [(a, ps)]).lanes = sp.lanes := by
  rw [send_one_eq ps hstl]
  have hrest := awaits_rest sp a (ps.map (lineParts a)).flatten.length
  generalize sp.awaits a (ps.map (lineParts a)).flatten.length = t at hrest
  have hj : t.joining = sp.joining := by have hf := congrArg Span.joining hrest; exact hf
  have hc : t.checks = sp.checks := by have hf := congrArg Span.checks hrest; exact hf
  have hu : t.unsent = sp.unsent := by have hf := congrArg Span.unsent hrest; exact hf
  have hl : t.lanes = sp.lanes := by have hf := congrArg Span.lanes hrest; exact hf
  have hplace := (requestsOf_ordered (n := a.seq) (proto := protoEntry a) ⟨rfl, rfl, rfl⟩ (ps.map (lineParts a)).flatten).place
  dsimp only
  rw [hj, hjoin, List.filter_nil, List.filter_nil, List.nil_append, ← requestsOf, sendJoined_all]
  · exact ⟨by dsimp only; rw [hu], hc, hl⟩
  · intro e he
    refine stillReached_alone fun c hcc => ?_
    rw [(hplace e he).1]
    exact halone c (hc ▸ hcc)

/-! A write that goes takes the release fences before it (log 50). -/

/-- An entry without the fences its parts carry. -/
def Entry.bare (e : Entry) : Entry := { e with parts := e.parts.map fun p => { p with acc := { p.acc with fences := [] } } }

theorem takeFences_bare (sp : Span) (a : Access) : (sp.takeFences a).unsent.map Entry.bare = sp.unsent.map Entry.bare := by
  simp only [Span.takeFences, List.map_map]
  refine List.map_congr_left fun e _ => ?_
  simp only [Function.comp_apply]
  split
  · rfl
  · simp [Entry.bare]

/-! The walk that returns. -/

/-- A check is no longer there. -/
def Span.dropCheck (sp : Span) (k : Nat) : Span := { sp with checks := sp.checks.filter (·.id ≠ k) }

theorem dropCheck_gone (sp : Span) (k : Nat) : ∀ c ∈ (sp.dropCheck k).checks, c.id ≠ k := by
  intro c hc
  simpa using (List.mem_filter.1 hc).2

/-- What a verdict leaves to be sent. -/
def Verdict.toSend (a : Access) : Verdict → List (Access × List Piece)
  | .pass ps => [(a, ps)]
  | _ => []

/-- The state in which the lane of a single access has its verdict. -/
def State.decided (s : State) (id l : Nat) (a : Access) (v : Verdict) : State :=
  match v with
  | .pass ps => (s.settleVerdict id [l] a none (.pass ps)).onSpan id (·.takeFences a)
  | v => s.settleVerdict id [l] a none v

/-- The check of one lane's access: its verdict, and what is sent. -/
theorem walkDone_one {s t : State} {sp : Span} {cx : Context} {c : Check} {a : Access} {l : Nat} {v : Verdict} (haccs : c.accs = [a])
    (hlane : a.lane = some l) (hwait : (sp.lane l).wait = some (.check c.id)) (hstl : a.op ≠ .stl) (hwatch : c.watch = none)
    (hwalk : (s.onSpan sp.id (·.dropCheck c.id)).checkWalk sp.pier cx a = (t, v)) :
    s.walkDone sp cx c = ((t.decided sp.id l a v).onSpan sp.id (·.send (v.toSend a))).settle sp.id := by
  have hlive : [l].filter (fun l => (sp.lane l).wait = some (.check c.id)) = [l] := by simp [hwait]
  unfold Span.dropCheck at hwalk
  simp only [State.walkDone, haccs, List.foldl_cons, List.foldl_nil, hlane, hlive, hwatch, List.isEmpty_cons, Bool.false_eq_true, if_false, hwalk]
  cases v <;> simp only [hstl, if_false, State.decided, Verdict.toSend, List.nil_append]

/-- R18: the lane whose access passes goes on, and its requests wait to board. -/
theorem decided_pass {t : State} {id : Nat} {old : Span} {a : Access} {l : Nat} (ps : List Piece) (hold : t.span? id = some old) (hl : l < old.lanes.length)
    (hstl : a.op ≠ .stl) (hjoin : old.joining = []) (halone : ∀ c ∈ old.checks, c.seq ≠ a.seq) :
    ∃ sp', ((t.decided id l a (.pass ps)).onSpan id (·.send [(a, ps)])).span? id = some sp' ∧ sp'.checks = old.checks ∧
      (sp'.lane l) = (old.lane l).go ∧ ∃ earlier, sp'.unsent = earlier ++ requestsOf (protoEntry a) (ps.map (lineParts a)).flatten ∧
        earlier.map Entry.bare = old.unsent.map Entry.bare := by
  have hgo := span?_onSpan_self (·.passLanes [l] a none) (fun _ => rfl) hold
  have htake := span?_onSpan_self (·.takeFences a) (fun _ => rfl) hgo
  have hjoin' : ((old.passLanes [l] a none).takeFences a).joining = [] := by
    show old.joining.map _ = []
    rw [hjoin, List.map_nil]
  obtain ⟨hunsent, hchecks, hlanes⟩ := send_one (sp := (old.passLanes [l] a none).takeFences a) ps hstl hjoin' halone
  refine ⟨_, span?_onSpan_self (·.send [(a, ps)]) (fun u => ?_) htake, hchecks, ?_, _, hunsent, takeFences_bare (old.passLanes [l] a none) a⟩
  · rw [send_one_eq ps hstl]
    have hrest := awaits_rest u a (ps.map (lineParts a)).flatten.length
    have hid := congrArg Span.id hrest
    exact hid
  · have hlane : (((old.passLanes [l] a none).takeFences a).send [(a, ps)]).lane l = (old.passLanes [l] a none).lane l := by
      rw [Span.lane, hlanes]; rfl
    rw [hlane]
    show (old.onLanes [l] Lane.go).lane l = _
    rw [lane_onLanes, if_pos ⟨List.mem_singleton_self l, hl⟩]

/-- R28, R144: the lane of an access that finds a page away is parked with the reason, each page told to the fault service. -/
theorem decided_park {t : State} {id : Nat} {old : Span} {a : Access} {l : Nat} (why : Park) (pages : List Nat) (hold : t.span? id = some old)
    (hl : l < old.lanes.length) :
    ∃ sp', ((t.decided id l a (.park why pages)).onSpan id (·.send [])).span? id = some sp' ∧ sp'.checks = old.checks ∧
      sp'.lane l = { old.lane l with st := .parkedRec, reason := some why, pages := pages, wait := none } ∧
      ∀ p ∈ pages, ∃ n ∈ ((t.decided id l a (.park why pages)).onSpan id (·.send [])).notices,
        n.ctx = old.ctx ∧ n.page = p ∧ n.who = .lane old.uid l := by
  have hdraw := span?_onSpan_self (·.withdraw a) (fun _ => rfl) hold
  obtain ⟨sp', hs', hchecks, hlane, htold⟩ := parkLane_parks why pages hdraw hl
  exact ⟨sp'.sendJoined, span?_onSpan_self (·.send []) (fun _ => rfl) hs', hchecks, hlane, htold⟩

/-- R19: the lane of an access that faults is parked fatal at its instruction, and the fault is counted. -/
theorem decided_fatal {t : State} {id : Nat} {old : Span} {a : Access} {l : Nat} (cause : Cause) (part : Nat) (hold : t.span? id = some old)
    (hl : l < old.lanes.length) :
    ∃ sp', ((t.decided id l a (.fatal cause part)).onSpan id (·.send [])).span? id = some sp' ∧ sp'.checks = old.checks ∧
      (sp'.lane l).st = .parkedFatal ∧ (sp'.lane l).pc = (old.lane l).pc ∧ (sp'.lane l).wait = none ∧ sp'.fseq = (old.fseq + 1) % 256 := by
  obtain rfl : old.id = id := span?_id hold
  have hdraw := span?_onSpan_self (·.withdraw a) (fun _ => rfl) hold
  obtain ⟨sp', hs', hchecks, hst, hpc, hwait, hseq⟩ := faultLane_faults cause a.op.faultKind (log2Size a.size) part (BitVec.ofNat 64 a.ea)
    ((old.withdraw a).lane l).pc (sp := old.withdraw a) hdraw hl
  refine ⟨sp'.sendJoined, span?_onSpan_self (·.send []) (fun _ => rfl) ?_, hchecks, hst, hpc, hwait, hseq⟩
  simp only [State.decided, State.settleVerdict, State.faultLanes, List.foldl_cons, List.foldl_nil, hdraw]
  exact hs'

/-- Settles O34: the walk's own change of the state leaves of the span what `Span.Spares` says; then the verdict of its one access decides. -/
theorem walksReturn : Obligations.walks_return := by
  unfold Obligations.walks_return
  intro s sp cx c a l t v hs hres hjoin halone hfind hctx haccs hlane hl _ hwait hstl hwatch hheld hwalk
  have hexec : exec (.walkComplete sp.id c.id) s = .next (((t.decided sp.id l a v).onSpan sp.id (·.send (v.toSend a))).settle sp.id) := by
    rw [← walkDone_one haccs hlane hwait hstl hwatch hwalk]
    show execWalkComplete sp.id c.id s = _
    simp [execWalkComplete, hs, hfind, hctx, hres, haccs, hheld]
  have hdrop := span?_onSpan_self (s := s) (·.dropCheck c.id) (fun _ => rfl) hs
  obtain ⟨old, hold, hsp⟩ := checkWalk_spares (s.onSpan sp.id (·.dropCheck c.id)) sp.pier cx a sp.id _ hdrop
  have hwalked : ((s.onSpan sp.id (·.dropCheck c.id)).checkWalk sp.pier cx a).1 = t := congrArg Prod.fst hwalk
  rw [hwalked] at hold
  have hgone : ∀ k ∈ old.checks, k.id ≠ c.id := hsp.checks_eq ▸ dropCheck_gone sp c.id
  have hlen : l < old.lanes.length := hsp.count ▸ hl
  have hpc : (old.lane l).pc = (sp.lane l).pc := hsp.lane_pc l
  intro bare
  refine ⟨checkWalk_decides hwalk, (t.decided sp.id l a v).onSpan sp.id (·.send (v.toSend a)), ?_⟩
  cases v with
  | wait => exact absurd rfl (checkWalk_decides hwalk)
  | pass ps =>
    have hjoin' : old.joining = [] := List.length_eq_zero_iff.1 (hsp.joining.trans (congrArg List.length hjoin))
    have halone' : ∀ k ∈ old.checks, k.seq ≠ a.seq := fun k hk => by
      rw [hsp.checks_eq] at hk
      exact halone k (List.mem_of_mem_filter hk) (dropCheck_gone sp c.id k hk)
    obtain ⟨sp', hs', hchecks, hgo, earlier, hunsent, hbare⟩ := decided_pass ps hold hlen hstl hjoin' halone'
    refine ⟨sp', hexec, hs', hchecks ▸ hgone, fun qs hqs => ?_, by simp, by simp⟩
    cases hqs
    rw [hgo]
    exact ⟨rfl, congrArg (· + 8) hpc, rfl, old, earlier, _, hold, hunsent, hbare, requestsOf_requested a ps⟩
  | park why pages =>
    obtain ⟨sp', hs', hchecks, hpark, htold⟩ := decided_park (a := a) why pages hold hlen
    refine ⟨sp', hexec, hs', hchecks ▸ hgone, by simp, fun w qs hwq => ?_, by simp⟩
    cases hwq
    rw [hpark]
    have hctx' : old.ctx = sp.ctx := hsp.ctx_eq
    have huid : old.uid = sp.uid := hsp.uid_eq
    rw [hctx', huid] at htold
    exact ⟨rfl, hpc, rfl, rfl, htold⟩
  | fatal cause part =>
    obtain ⟨sp', hs', hchecks, hst, hpc', hwait', hseq⟩ := decided_fatal (a := a) cause part hold hlen
    refine ⟨sp', hexec, hs', hchecks ▸ hgone, by simp, by simp, fun k p hkp => ?_⟩
    have hfseq : old.fseq = sp.fseq := hsp.fseq_eq
    exact ⟨hst, hpc'.trans hpc, hwait', hfseq ▸ hseq⟩

end Sys2Proof.Machine
end

section
/-! SUPPORT. What follows from a change of a span leaves the pending results of every span: nothing in `State.settle` creates, changes or drops one. -/

namespace Sys2Proof.Machine

/-! Operations that leave the spans. -/

@[simp] theorem spans_putFuture (s : State) (f : Future) : (s.putFuture f).spans = s.spans := by
  unfold State.putFuture
  split <;> rfl

@[simp] theorem spans_removeBerthed (s : State) (h : Word) : (s.removeBerthed h).spans = s.spans := by
  simp only [State.removeBerthed]
  split
  · rfl
  · rw [spans_putFuture]

@[simp] theorem spans_setFuture (s : State) (h : Word) (f : Future) : (s.setFuture h f).spans = s.spans := by
  simp only [State.setFuture]
  split <;> simp

@[simp] theorem spans_dropAt (s : State) (h : Word) : (s.dropAt h).spans = s.spans := by
  simp only [State.dropAt]
  split <;> simp

@[simp] theorem spans_leaveJoin (s : State) (h : Word) : (s.leaveJoin h).spans = s.spans := by
  simp only [State.leaveJoin]
  split <;> simp

@[simp] theorem spans_quitJoin (s : State) (uid l : Nat) (j : Join) (last : Bool) : (s.quitJoin uid l j last).spans = s.spans := by
  unfold State.quitJoin
  split
  · rw [spans_leaveJoin]
  · rfl

@[simp] theorem spans_dropOne (s : State) (sp : Span) (l : Nat) (o : Option Wait) (last : Bool) : (s.dropOne sp l o last).spans = s.spans := by
  unfold State.dropOne
  split
  · rw [spans_quitJoin]
  · rfl

@[simp] theorem spans_dropWait (s : State) (sp : Span) (l : Nat) : (s.dropWait sp l).spans = s.spans := by
  simp only [State.dropWait, spans_dropOne]

theorem spans_dropEach (rs : List Ref) (s : State) : (rs.foldl (fun t r => t.dropAt r.handle) s).spans = s.spans := by
  induction rs generalizing s with
  | nil => rfl
  | cons r rs ih => rw [List.foldl_cons, ih, spans_dropAt]

@[simp] theorem spans_dropAll (s : State) (o : Owner) : (s.dropAll o).spans = s.spans := by
  simp only [State.dropAll, spans_dropEach]

@[simp] theorem spans_onLaunch (s : State) (id : Nat) (f : Launch → Launch) : (s.onLaunch id f).spans = s.spans := rfl

@[simp] theorem spans_onBlock (s : State) (b : Nat × Nat) (f : Block → Block) : (s.onBlock b f).spans = s.spans := rfl

@[simp] theorem spans_endTask (s : State) (launch : Nat) (t : Task) : (s.endTask launch t).spans = s.spans := by
  simp only [State.endTask, State.recordGone, spans_onLaunch, spans_dropAll]
  split
  · rfl
  · split <;> simp

@[simp] theorem spans_endLaneTask (s : State) (sp : Span) (l : Nat) : (s.endLaneTask sp l).spans = s.spans := by
  unfold State.endLaneTask
  split
  · rw [spans_endTask]
  · rfl

@[simp] theorem spans_putBar (s : State) (b : NamedBar) : (s.putBar b).spans = s.spans := rfl

@[simp] theorem spans_wrote (s : State) (deck : Option (Nat × Nat)) (k n : Nat) (rmw : Bool) : (s.wrote deck k n rmw).spans = s.spans := rfl

@[simp] theorem spans_tellObj (s : State) (b : Nat × Nat) (obj : Nat) (v : View) : (s.tellObj b obj v).spans = s.spans := rfl

@[simp] theorem spans_tellHost (s : State) (v : View) (t : Word) : (s.tellHost v t).spans = s.spans := rfl

@[simp] theorem spans_putQueue (s : State) (q : Queue) : (s.putQueue q).spans = s.spans := by
  unfold State.putQueue
  split <;> rfl

@[simp] theorem spans_announceAt (s : State) (cx : Context) (va : Word) (len : Nat) (sc : Scope) (v : View) (p : Party) :
    (s.announceAt cx va len sc v p).spans = s.spans := by
  unfold State.announceAt
  split <;> rfl

/-! Operations that leave the results. -/

/-- The same results are pending. -/
structure Span.Pends (sp sp' : Span) : Prop where
  results : sp'.results = sp.results

theorem Span.Pends.refl (sp : Span) : sp.Pends sp := ⟨rfl⟩

theorem Span.Pends.trans {a b c : Span} (h : a.Pends b) (g : b.Pends c) : a.Pends c := ⟨g.results.trans h.results⟩

/-- The same results are pending in every span. -/
def State.Pends : State → State → Prop := State.Each Span.Pends

namespace State.Pends

variable {s t u : State}

theorem refl (s : State) : s.Pends s := Each.refl Span.Pends.refl s
theorem trans (h : s.Pends t) (g : t.Pends u) : s.Pends u := Each.trans Span.Pends.trans h g
/-- The spans stay as they are. -/
theorem of_spans (h : s.Pends t) (hu : u.spans = t.spans) : s.Pends u := h.trans (Each.of_spans Span.Pends.refl hu)
/-- Every span changes by a rule. -/
theorem of_map (h : s.Pends t) {g : Span → Span} (hid : ∀ sp, (g sp).id = sp.id) (hg : ∀ sp : Span, sp.Pends (g sp)) (hu : u.spans = t.spans.map g) :
    s.Pends u := h.trans (Each.of_map hid hg hu)
/-- One span changes by a rule. -/
theorem onSpan (h : s.Pends t) {id : Nat} {f : Span → Span} (hid : ∀ sp, (f sp).id = sp.id) (hf : ∀ sp : Span, sp.Pends (f sp)) :
    s.Pends (t.onSpan id f) := h.trans (Each.onSpan Span.Pends.refl hid hf)
/-- Operations one after another. -/
theorem foldl (h : s.Pends t) {α : Type} {f : State → α → State} {l : List α} (hf : ∀ t a, State.Pends t (f t a)) : s.Pends (l.foldl f t) :=
  h.trans (Each.foldl Span.Pends.refl Span.Pends.trans hf l t)

theorem of_logs (h : State.Each Span.Logs s t) : s.Pends t := fun id sp hs =>
  have ⟨sp', hs', hlog⟩ := h id sp hs
  ⟨sp', hs', ⟨by have hf := congrArg Span.results hlog.rest; exact hf⟩⟩

theorem of_spares (h : s.Spares t) : s.Pends t := of_logs (Span.Logs.each_of_spares h)

end State.Pends

/-! Views and the order of `.seq` events (R155, R159). -/

theorem advance_pends (s : State) (id : Nat) (sc : Scope) : s.Pends (s.advance id sc) := by
  unfold State.advance
  split
  · exact (State.Pends.refl s).onSpan (fun _ => rfl) fun _ => ⟨rfl⟩
  · exact .refl s

theorem seqEvent_pends (s : State) (id : Nat) (x : SeqEvent) (missed : View) : s.Pends (s.seqEvent id x missed) := by
  unfold State.seqEvent
  split
  · exact .refl s
  · exact State.Pends.onSpan ((State.Pends.refl s).of_spans rfl) (fun _ => rfl) fun _ => ⟨rfl⟩

/-- The fences that stand above an event learn what stands before it. -/
def Span.learnAll (x : SeqEvent) (ys : List SeqEvent) (sp : Span) : Span :=
  ys.foldl (fun u y => if y.from_.span = some u.uid then u.learn (y.seq + 1) .own x.before else u) sp

theorem learnAll_keeps (x : SeqEvent) (ys : List SeqEvent) (sp : Span) : (sp.learnAll x ys).id = sp.id ∧ sp.Pends (sp.learnAll x ys) := by
  unfold Span.learnAll
  induction ys generalizing sp with
  | nil => exact ⟨rfl, .refl sp⟩
  | cons y r ih =>
    rw [List.foldl_cons]
    split
    · refine ⟨(ih _).1, Span.Pends.trans ?_ (ih _).2⟩
      exact ⟨rfl⟩
    · exact ih sp

theorem seqFence_pends (s : State) (id seq : Nat) (sc : Scope) : s.Pends (s.seqFence id seq sc) := by
  unfold State.seqFence
  split
  · exact .refl s
  · refine State.Pends.of_map (State.Pends.trans ?_ (advance_pends _ id sc)) (g := Span.learnAll _ _) (fun sp => (learnAll_keeps _ _ sp).1)
      (fun sp => (learnAll_keeps _ _ sp).2) rfl
    exact (seqEvent_pends s id _ []).onSpan (fun _ => rfl) fun _ => ⟨rfl⟩

/-! Shadow lines (R178). -/

theorem mergeShadow_pends (s : State) (h : Shadow) : s.Pends (s.mergeShadow h) := by
  unfold State.mergeShadow
  split
  · exact (State.Pends.refl s).of_spans rfl
  · refine State.Pends.foldl ?_ fun t e => ?_
    · exact (State.Pends.refl s).of_spans rfl
    · refine State.Pends.foldl ?_ fun u b => (State.Pends.refl u).of_spans rfl
      exact (State.Pends.of_spares (poke_spares t _ _)).of_spans rfl

theorem mergeBlock_pends (s : State) (b : Nat × Nat) : s.Pends (s.mergeBlock b) := by
  unfold State.mergeBlock State.mergeAll
  exact (State.Pends.refl s).foldl fun t _ => (State.Pends.refl t).foldl mergeShadow_pends

theorem mergeFor_pends (s : State) (id : Nat) : s.Pends (s.mergeFor id) := by
  unfold State.mergeFor
  split
  exacts [.refl s, mergeBlock_pends s _]

/-! Barriers (R199 to R205). -/

theorem mapLanes_pends (s : State) (f : Span → Nat → Lane → Lane) : s.Pends (s.mapLanes f) :=
  (State.Pends.refl s).of_map (g := fun sp => { sp with lanes := imap (f sp) 0 sp.lanes }) (fun _ => rfl) (fun _ => ⟨rfl⟩) rfl

theorem wakeBar_pends (s : State) (key : BarKey) (phase : Option Nat) (broken : Bool) (view : View) : s.Pends (s.wakeBar key phase broken view) := by
  have hrecord : s.Pends (if broken then
      { s with spans := s.spans.map fun sp => if sp.lanes.any (fun ln => (waitsAt key phase ln.wait).isSome) then sp.record .barbroken else sp } else s) := by
    split
    · refine (State.Pends.refl s).of_map (fun sp => ?_) (fun sp => ⟨?_⟩) rfl <;> split <;> rfl
    · exact .refl s
  unfold State.wakeBar
  refine State.Pends.trans (hrecord.of_map (fun sp => ?_) (fun sp => ⟨?_⟩) rfl) (mapLanes_pends _ _)
  all_goals
    split
    · rfl
    · split <;> rfl

theorem testBar_pends (s : State) (key : BarKey) : s.Pends (s.testBar key) := by
  unfold State.testBar
  dsimp only
  split
  · split
    · exact ((State.Pends.refl s).of_spans (spans_putBar _ _)).trans (wakeBar_pends _ _ _ _ _)
    · exact .refl s
  · exact .refl s

theorem arrive_pends (s : State) (id : Nat) (key : BarKey) (count : Option Nat) (lanes : List Nat) (seq : Nat) :
    s.Pends (s.arrive id key count lanes seq) := by
  unfold State.arrive
  dsimp only
  split
  · refine State.Pends.trans ?_ (wakeBar_pends _ key none true [])
    refine State.Pends.onSpan ?_ (fun _ => rfl) fun _ => ⟨rfl⟩
    exact (State.Pends.refl s).onSpan (fun _ => rfl) fun _ => ⟨rfl⟩
  · refine State.Pends.trans (State.Pends.of_spans ?_ (spans_putBar _ _)) (testBar_pends _ key)
    exact (State.Pends.refl s).onSpan (fun _ => rfl) fun _ => ⟨rfl⟩

theorem breakBlock_pends (s : State) (b : Nat × Nat) : s.Pends (s.breakBlock b) := by
  unfold State.breakBlock
  exact ((State.Pends.refl s).of_spans (spans_onBlock s b _)).foldl fun t n => wakeBar_pends t (blockKey b n) none true []

theorem hearObj_pends (s : State) (id obj : Nat) : s.Pends (s.hearObj id obj) := by
  unfold State.hearObj
  split
  · exact .refl s
  · exact (State.Pends.refl s).onSpan (fun _ => rfl) fun _ => ⟨rfl⟩

theorem wakeMb_pends (s : State) (b : Nat × Nat) (obj : Nat) (m : MBar) (init : Bool) : s.Pends (s.wakeMb b obj m init) := by
  unfold State.wakeMb
  dsimp only
  refine State.Pends.trans (State.Pends.of_spans ?_ rfl) (mapLanes_pends _ _)
  exact (State.Pends.refl s).foldl fun t (sp : Span) => hearObj_pends t sp.id obj

theorem mbChange_pends (s : State) (b : Nat × Nat) (obj : Nat) (f : MBar → MBar) : s.Pends (s.mbChange b obj f) := by
  unfold State.mbChange
  split
  · exact .refl s
  · dsimp only
    split
    · refine State.Pends.trans ((State.Pends.refl s).of_spans ?_) (wakeMb_pends _ b obj _ false)
      rw [spans_wrote, spans_onBlock]
    · exact (State.Pends.refl s).of_spans rfl

/-! Notices, records and events (R21, R22, R144). -/

theorem notify_pends (s : State) (ctx : Nat) (why : Park) (who : Waiter) (pages : List Nat) : s.Pends (s.notify ctx why who pages) :=
  (State.Pends.refl s).of_spans (notify_spec s ctx why who pages).1

theorem retryRecords_pends (s : State) (id : Nat) : s.Pends (s.retryRecords id) := by
  unfold State.retryRecords
  split
  · exact .refl s
  · split
    · exact .refl s
    · refine State.Pends.foldl ?_ fun t r => .of_logs (writeRecord_logs t id _ _ _)
      exact (State.Pends.refl s).onSpan (fun _ => rfl) fun _ => ⟨rfl⟩

theorem putDrafts_pends (s : State) (id : Nat) : s.Pends (s.putDrafts id) := by
  unfold State.putDrafts
  split
  · exact .refl s
  · split
    · exact .refl s
    · rename_i sp _ _ cx _
      refine State.Pends.foldl ?_ fun t r => ?_
      · exact (State.Pends.refl s).onSpan (fun _ => rfl) fun _ => ⟨rfl⟩
      have hwrite := State.Pends.of_spares (deviceWrite_spares t (some sp.pier) cx (s.recordPlace sp cx r.1) r.2)
      dsimp only
      split <;> rename_i heq <;> rw [heq] at hwrite
      · exact hwrite.of_spans (spans_announceAt _ _ _ _ _ _ _)
      · refine State.Pends.trans ?_ (notify_pends _ _ _ _ _)
        exact hwrite.onSpan (fun _ => rfl) fun _ => ⟨rfl⟩
      · exact hwrite

theorem showRecords_pends (s : State) (id : Nat) : s.Pends (s.showRecords id) := by
  unfold State.showRecords
  split
  · exact .refl s
  · split
    · exact .refl s
    · exact (mergeFor_pends s id).trans (putDrafts_pends _ id)

theorem postEvent_pends (s : State) (qid type body : Nat) (lidx slot : Option Nat) : s.Pends (s.postEvent qid type body lidx slot) := by
  unfold State.postEvent
  dsimp only
  split
  · exact (State.Pends.of_spares (poke_spares s _ _)).of_spans (spans_putQueue _ _)
  · split <;> exact (State.Pends.refl s).of_spans (spans_putQueue _ _)

/-! Stops and traps (R20, R22, R39). -/

theorem settleStop_pends (s : State) (id : Nat) : s.Pends (s.settleStop id) := by
  unfold State.settleStop
  split
  · exact .refl s
  · split
    · split
      · exact .refl s
      · refine State.Pends.onSpan (State.Pends.trans ?_ (postEvent_pends _ _ _ _ _ _)) (fun _ => rfl) fun _ => ⟨rfl⟩
        exact (mergeBlock_pends s _).of_spans (spans_tellHost _ _ _)
    · exact .refl s

theorem stopSpan_pends (s : State) (id : Nat) (c : Cause) : s.Pends (s.stopSpan id c) := by
  unfold State.stopSpan
  split
  · exact .refl s
  · dsimp only
    refine ((State.Pends.trans ?_ (retryRecords_pends _ id)).trans (showRecords_pends _ id)).trans (settleStop_pends _ id)
    refine State.Pends.of_spans (State.Pends.trans (State.Pends.of_spans ?_ (spans_onBlock _ _ _)) (breakBlock_pends _ _)) (spans_onLaunch _ _ _)
    refine State.Pends.onSpan (State.Pends.of_spans ?_ (spans_dropAll _ _)) (fun _ => rfl) fun _ => ⟨rfl⟩
    refine (State.Pends.refl s).foldl fun t l => (State.Pends.refl t).of_spans ?_
    rw [spans_endLaneTask, spans_dropWait]

theorem takeTrap_pends (s : State) (id : Nat) (r : TrapReq) : s.Pends (s.takeTrap id r) := by
  unfold State.takeTrap
  split
  · exact .refl s
  · rename_i sp _
    dsimp only
    split
    · exact (State.Pends.refl s).onSpan (fun _ => rfl) fun _ => ⟨rfl⟩
    · split
      · exact .refl s
      · rename_i cx _
        split
        · exact stopSpan_pends s id _
        · have hwrite := State.Pends.of_spares (deviceWrite_spares s (some sp.pier) cx (s.areas sp cx).1 (trapFrame sp r (sp.trapCause r)))
          split <;> rename_i heq <;> rw [heq] at hwrite
          · exact hwrite.onSpan (fun _ => rfl) fun _ => ⟨rfl⟩
          · exact hwrite.trans (stopSpan_pends _ id _)
          · refine State.Pends.trans ?_ (notify_pends _ _ _ _ _)
            exact hwrite.onSpan (fun _ => rfl) fun _ => ⟨rfl⟩
          · exact hwrite

theorem settleTrap_pends (s : State) (id : Nat) : s.Pends (s.settleTrap id) := by
  unfold State.settleTrap
  split
  · exact .refl s
  · split
    · exact .refl s
    · split
      · exact takeTrap_pends s id _
      · split
        exacts [takeTrap_pends s id _, .refl s]

/-! What follows at once. -/

theorem writeSent_pends (s : State) (pier : Nat) (e : Entry) : s.Pends (s.writeSent pier e) := by
  unfold State.writeSent
  refine (State.Pends.refl s).of_map (fun sp => ?_) (fun sp => ⟨?_⟩) rfl <;> split <;> rfl

/-- A span whose landing has gone on (R111, R128). -/
def State.landed (s : State) (sp : Span) : Span :=
  { s.landingRound (s.landingRound sp) with
    want := if (s.landingRound (s.landingRound sp)).lacks then (s.landingRound (s.landingRound sp)).want else 0 }

/-- A span whose landing has gone on is put back, and its writes are sent. -/
theorem landed_pends {s : State} {id : Nat} {sp sp' : Span} (hs : s.span? id = some sp) (hid : sp'.id = sp.id) (hsp : sp.Pends sp') (sent : List Entry) :
    s.Pends (sent.foldl (fun t e => t.writeSent sp.pier e) (s.putSpan sp')) := by
  refine State.Pends.foldl (State.Each.putSpan Span.Pends.refl ?_ hsp) fun t e => writeSent_pends t sp.pier e
  rw [hid, span?_id hs, hs]

theorem settleLanding_pends (s : State) (id : Nat) : s.Pends (s.settleLanding id) := by
  unfold State.settleLanding
  split
  · exact .refl s
  · rename_i sp hs
    refine State.Pends.foldl ?_ fun t e => seqFence_pends t id _ _
    split
    · refine State.Pends.trans ?_ (mergeFor_pends _ id)
      exact landed_pends hs (sp' := s.landed sp) rfl ⟨rfl⟩ _
    · exact landed_pends hs (sp' := s.landed sp) rfl ⟨rfl⟩ _

theorem settleArrivals_pends (s : State) (id n : Nat) : s.Pends (s.settleArrivals id n) := by
  induction n generalizing s with
  | zero => exact .refl s
  | succ n ih =>
    unfold State.settleArrivals
    split
    · exact .refl s
    · split
      · exact .refl s
      · split
        · refine State.Pends.trans ?_ (ih _)
          refine State.Pends.trans ?_ (arrive_pends _ _ _ _ _ _)
          refine State.Pends.onSpan ?_ (fun _ => rfl) fun _ => ⟨rfl⟩
          split
          exacts [mergeFor_pends s id, .refl s]
        · exact .refl s
      · split
        · refine State.Pends.trans ?_ (ih _)
          refine State.Pends.trans ?_ (mbChange_pends _ _ _ _)
          refine State.Pends.of_spans ?_ (spans_tellObj _ _ _ _)
          exact (State.Pends.refl s).onSpan (fun _ => rfl) fun _ => ⟨rfl⟩
        · exact .refl s

theorem settleHolds_pends (s : State) (id : Nat) : s.Pends (s.settleHolds id) := by
  unfold State.settleHolds
  split
  · exact .refl s
  · refine (State.Pends.refl s).onSpan (fun sp => ?_) fun sp => ⟨?_⟩ <;> dsimp only <;> split <;> rfl

theorem takeSlots_keeps (sp : Span) : sp.takeSlots.id = sp.id ∧ sp.Pends sp.takeSlots := by
  unfold Span.takeSlots
  generalize laneNums = ls
  induction ls generalizing sp with
  | nil => exact ⟨rfl, .refl sp⟩
  | cons l r ih =>
    rw [List.foldl_cons]
    split
    · split
      · refine ⟨(ih _).1, Span.Pends.trans ?_ (ih _).2⟩
        exact ⟨rfl⟩
      · exact ih _
    · exact ih _

theorem settleCvg_keeps (sp : Span) : sp.settleCvg.id = sp.id ∧ sp.Pends sp.settleCvg := by
  unfold Span.settleCvg
  dsimp only
  split <;> exact ⟨rfl, ⟨rfl⟩⟩

/-- What follows at once from a change of a span leaves the pending results of every span. -/
theorem settle_pends (s : State) (id : Nat) : s.Pends (s.settle id) := by
  unfold State.settle
  split
  · exact .refl s
  · dsimp only
    have hland := (((settleLanding_pends s id).trans (settleArrivals_pends _ id 64)).trans (settleLanding_pends _ id)).trans (settleHolds_pends _ id)
    have hshow := (hland.trans (retryRecords_pends _ id)).trans (showRecords_pends _ id)
    have hcvg := (hshow.onSpan (id := id) (fun sp => (takeSlots_keeps sp).1) fun sp => (takeSlots_keeps sp).2).onSpan
      (id := id) (fun sp => (settleCvg_keeps sp).1) fun sp => (settleCvg_keeps sp).2
    exact ((hcvg.trans (settleTrap_pends _ id)).trans (settleStop_pends _ id)).onSpan (fun _ => rfl) fun _ => ⟨rfl⟩

end Sys2Proof.Machine
end

section
/-! SUPPORT. A pending result whose number the machine gives again: the load that does so changes it, and the obligation that says it does not (R63). -/

namespace Sys2Proof.Machine

theorem issued_pends (s : State) (i : Instr) (x : Iss) : s.Pends (s.issued i x) := by
  unfold State.issued
  dsimp only
  split
  · exact (State.Pends.refl s).of_spans rfl
  · refine State.Pends.onSpan ?_ (fun _ => rfl) fun _ => ⟨rfl⟩
    exact (State.Pends.refl s).of_spans rfl

/-! The state of the counterexample: span 0, in its only lane a load of a page its TLB holds, and a pending result with the number that the load gives its own. -/

namespace Clash

def late : Result := { id := 1, lane := some 5, need := 7 }

def span : Span :=
  { id := 0, uid := 1, ctx := 1, part := 0, launch := 0, blk := 0, idx := 0, role := 0, budget := 1,
    lanes := [{ st := .ready, pc := 0 }], results := [late] }

def context : Context := { id := 1, part := 0, number := 0, queue := 0 }

def partition : Partition where
  row := { piers := [0], channels := [0], ways := [], tlbSets := [], viaSlots := [], queues := [], zoneSlots := [], capFrames := [], shares := [],
           linkSlots := [], regs := [], entryCap := 0, entrySram := 0, launchCap := 0, slice := none, input := false }

def state : State :=
  { picked := some 0, parts := [partition], ctxs := [context], spans := [span],
    tlb := [{ pier := some 0, die := 0, part := 0, ctx := 1, page := 0, size := 16, frame := 0, pkind := .c, rd := true, wr := true, ex := true, dirty := true }] }

def word : Instr := .ld { ctl := {}, a := 0xFF, b := 0xFF }

/-- The load gives the pending result another count of parts. -/
theorem runs : (match exec word state with
    | .next t => (t.span? 0).any fun sp => sp.results.any fun r => r.lane = some 5 && r.need ≠ 7
    | _ => false) = true := by decide +kernel

theorem clear : Clear word state span span [0] 0 where
  picked := rfl
  there := rfl
  free := by decide +kernel
  select := by decide +kernel
  unlocked := by decide +kernel
  budget := by decide +kernel
  answered := by decide +kernel
  alive := by decide +kernel

end Clash

/-- Refutes O15: a pending result of another lane, with the number that the load gives its own, is changed by it, and is then neither a result
from before nor one of a lane that takes the outcome of an access. That no span holds such a result is no hypothesis of the statement. -/
theorem not_memoryWords : ¬ Obligations.memory_words := by
  unfold Obligations.memory_words
  rintro ⟨-, -, hlanes, -⟩
  obtain ⟨u, sp', passes, new, hexec, hu, -, -, -, -, -, -, -, -, -, -, hresults⟩ := hlanes Clash.word Clash.state Clash.span Clash.span [0] 0 Clash.context rfl
    Clash.clear (by decide +kernel) ⟨rfl, by decide⟩ rfl
  obtain ⟨fin, hfin, hpend⟩ := (settle_pends u Clash.span.id).trans (issued_pends _ Clash.word (At Clash.word Clash.span [0] 0)) Clash.span.id sp' hu
  have hany : fin.results.any (fun r => r.lane = some 5 && r.need ≠ 7) = true := by
    have hruns := Clash.runs
    rw [hexec] at hruns
    change Option.any _ (State.span? _ Clash.span.id) = true at hruns
    rwa [hfin] at hruns
  rw [hpend.results] at hany
  obtain ⟨r, hr, hlate⟩ := List.any_eq_true.1 hany
  obtain ⟨hlane, hneed⟩ : r.lane = some 5 ∧ r.need ≠ 7 := by simpa using hlate
  have htakers : takers Clash.word Clash.span [0] = [0] := by decide +kernel
  rcases hresults r hr with hold | ⟨hnone | ⟨l, hl, hr5⟩, -⟩
  · obtain rfl : r = Clash.late := List.mem_singleton.1 hold
    exact hneed rfl
  · simp [hlane] at hnone
  · have hfive : l = 5 := Option.some.inj (hr5.symm.trans hlane)
    rw [htakers, hfive] at hl
    exact absurd hl (by decide)

end Sys2Proof.Machine
end

section
/-! SUPPORT. Every word issues, and under its own rules: who may run it, and whether it takes its whole span (R31, R74). -/

namespace Sys2Proof.Machine

/-- A meaning that issues its word, under rules in which its privilege and its claim on the whole span are the word's own. -/
def Issues (i : Instr) (o : State → Out) : Prop :=
  ∃ r body, (∀ s, o s = issue i r body s) ∧ (∀ s x, r.priv s x = privileged i) ∧ r.whole = collective i

theorem issue_issues {i : Instr} {r : Rules} {body : State → Iss → State} (hp : ∀ s x, r.priv s x = privileged i)
    (hw : r.whole = collective i) : Issues i fun s => issue i r body s := ⟨r, body, fun _ => rfl, hp, hw⟩

theorem regOp_issues {i : Instr} {r : Rules} {f : Iss → Span → Span} (hp : ∀ s x, r.priv s x = privileged i)
    (hw : r.whole = collective i) : Issues i fun s => regOp i r f s := issue_issues hp hw

theorem ite_issues {i : Instr} {c : Prop} [Decidable c] {f g : State → Out} (hf : Issues i f) (hg : Issues i g) :
    Issues i fun s => if c then f s else g s := by
  by_cases h : c
  · simpa only [if_pos h] using hf
  · simpa only [if_neg h] using hg

section
variable {i : Instr} (hp : privileged i = false)
include hp

theorem planeIssue_issues {k : PlaneKind} {x : RRR} {ops : Span → Word × Word} (hw : collective i = true) :
    Issues i fun s => planeIssue i k x ops s := issue_issues (fun _ _ => hp.symm) hw.symm

variable (hw : collective i = false)
include hw

theorem memIssue_issues {u : Bool} {d : Option Nat} {recl : Iss → Nat → Bool} {watch : State → Iss → Option Watch} {mk : Iss → Nat → Access} :
    Issues i fun s => memIssue i u d recl watch mk s := issue_issues (fun _ _ => hp.symm) hw.symm

theorem deckIssue_issues {size : Nat} {sgn : Bool} {res : Option Nat} {addr : Iss → Nat → Int} {op : Nat → DeckOp} {data : Iss → Nat → BitVec 128}
    {atomd : Bool} : Issues i fun s => deckIssue i size sgn res addr op data atomd s := by
  unfold deckIssue
  exact issue_issues (fun _ _ => hp.symm) hw.symm

theorem quietOp_issues {f : State → Iss → State} : Issues i fun s => quietOp i f s := issue_issues (fun _ _ => hp.symm) hw.symm

theorem mbIssue_issues {x : MEM} {arrivals writes : Bool} {f : State → Iss → Nat → State} :
    Issues i fun s => mbIssue i x arrivals writes f s := issue_issues (fun _ _ => hp.symm) hw.symm

theorem ferryIssue_issues {op : Span → FerryOp} : Issues i fun s => ferryIssue i op s := issue_issues (fun _ _ => hp.symm) hw.symm

theorem plain_issues {f : Iss → Span → Span} : Issues i fun s => regOp i {} f s := regOp_issues (fun _ _ => hp.symm) hw.symm

theorem floatOp_issues {x : RRR} {f : BitVec 32 → BitVec 32 → BitVec 32 → BitVec 32} : Issues i fun s => floatOp i x f s := plain_issues hp hw

theorem floatPending_issues {x : RRR} {f : BitVec 32 → BitVec 32 → BitVec 32 → BitVec 32} : Issues i fun s => floatPending i x f s :=
  plain_issues hp hw

theorem pairOp_issues {c : Cop} {x : Pair} : Issues i fun s => pairOp i c x s := plain_issues hp hw

end

theorem word_issues (i : Instr) (h : (encode i).isSome = true) : Issues i fun s => exec i s := by
  unfold exec
  cases i
  case instructionFetch | walkComplete | trapEntry | spanRetire | blockRetire | preemptionRequest | preemptionSave | preemptionTimeout |
      resumption | resultArrival | deckBankAccess | requestPerformed | bounce | backoffExpiry | wakeEvent | engineFork | faultNotice |
      faultServiceComplete | evictionStart | expansion | pageMove | shootDownAck | retireNotice | watchWake | waitaTimeout | watchPoll |
      sleepExpiry | ferryChunk | planeOpStart | planeOpEnd | shadowMerge | routerAccept | roundResult | roundTimeout | recordArrival | spillMove
      | berthStep | berthTimerExpiry | berthSpanStart | futureMessage | doomArrival | fjoinDelivery | fjoinPoll | quadrantPick | blockPlacement |
      launchComplete | doorbell | recordConsume | eridxWrite | enable | reset | kill | clrlost | save | resume | registerWrite | dieFence | take
      | restore | release | timeSliceExpiry | partitionTableWrite | snapshotTrigger | lineHoldArm | lineHoldStart | lineHoldExpiry | deviceReset
      | getVersion | getCapabilities | negotiateAlgorithms | getDigests | getCertificate | challenge | getMeasurements | sheundLinkDown |
      hostAccess | mailboxRequest => cases h
  case reds x =>
    unfold execReds
    exact regOp_issues (fun _ _ => rfl) rfl
  case rdln x =>
    unfold execRdln
    exact regOp_issues (fun _ _ => rfl) rfl
  case wrln x =>
    unfold execWrln
    exact regOp_issues (fun _ _ => rfl) rfl
  case nop | bra | brq | call | yield | trap | bkpt | cmp | cmpImm | fcmp | plop | pmov | vote | pset | mad | neg | abs | sel | xtn | lea | bfx
      | bfi | popc | clz | brev | shfl | mts | rdix | wrix | fstat | cvt | rng | pack | unpk => exact regOp_issues (fun _ _ => rfl) rfl
  case brx | callx | ret | cvg | exit | mfs | bara | barw | mbwait | fcan | nsend | psync | spawn | fref | fdrop | fjoin | fpoll | fret | rpt |
      post | lnch | rft | tlbi | snap | time | ctr | sleep => exact issue_issues (fun _ _ => rfl) rfl
  case add | sub | adds | subs | mul | mulh | div | rem | min | max | and | or | xor | andn | shl | shr | sha | rot => exact plain_issues rfl rfl
  case addImm | subImm | addsImm | subsImm | mulImm | mulhImm | divImm | remImm | minImm | maxImm | andImm | orImm | xorImm | andnImm | shlImm
      | shrImm | shaImm | rotImm => exact plain_issues rfl rfl
  case mov | movi | movh => exact ite_issues (plain_issues rfl rfl) (plain_issues rfl rfl)
  case pmma => exact ite_issues (planeIssue_issues rfl rfl) (planeIssue_issues rfl rfl)
  case ld | st | lda | stl | atom | red | cas | waita | sred => exact memIssue_issues rfl rfl
  case ldd | std | atomd => exact deckIssue_issues rfl rfl
  case pfs => exact quietOp_issues rfl rfl
  case cctl | lth => exact quietOp_issues rfl rfl
  case fence x =>
    unfold execFence
    exact issue_issues (fun _ _ => rfl) rfl
  case mfc x =>
    unfold execMfc
    exact issue_issues (fun _ _ => rfl) rfl
  case mtc x =>
    unfold execMtc
    exact issue_issues (fun _ _ => rfl) rfl
  case mbinit | mbarv | mbexp => exact mbIssue_issues rfl rfl
  case fcpy | fcpyt | fpln => exact ferryIssue_issues rfl rfl
  case fadd | fsub | fmul | ffma | fmin | fmax | fcls | frnd | fdot2 => exact floatOp_issues rfl rfl
  case fdiv | fsqrt | frcp | frsq | fex2 | flg2 => exact floatPending_issues rfl rfl
  case pmms | plma | pacz | pdrn | pdrb | pacs | pacl => exact planeIssue_issues rfl rfl
  case halfAddS32 | halfSubS32 | halfAddsS32 | halfSubsS32 | halfMulS32 | halfMinS32 | halfMaxS32 | halfMinN32 | halfMaxN32 | halfAndB32 |
      halfOrB32 | halfXorB32 | halfAndnB32 | halfShlB32 | halfShrB32 | halfShaB32 | halfRotB32 | halfMovB32 | halfAddS64 | halfSubS64 |
      halfAndB64 | halfOrB64 | halfXorB64 | halfShlB64 | halfShrB64 | halfShaB64 | halfMovB64 | halfFaddF32 | halfFmulF32 | halfFminF32 |
      halfFmaxF32 | halfFaddBf16x2 | halfFmulBf16x2 | halfFminBf16x2 | halfFmaxBf16x2 | halfFaddF16x2 | halfFmulF16x2 | halfFminF16x2 |
      halfFmaxF16x2 | halfNop => exact pairOp_issues rfl rfl

end Sys2Proof.Machine
end

section
/-! SUPPORT. The causes that an issue takes before any effect, in their order, and the obligation about them and the software traps (R38, R66, R87). -/

namespace Sys2Proof.Machine

/-! The first cause of an issue (R66). -/

theorem laneNums_eq : laneNums = List.range 32 := rfl

/-- A cause taken at issue: the trap is taken with every lane of the issue on the word (R38). -/
theorem issue_cause {i : Instr} {r : Rules} {body : State → Iss → State} {s : State} {sp0 sp : Span} {I : List Nat} {a : Word} {c : Cause}
    (h : Issuing s sp0 sp I a) (hlock : sp.interlocked (shape i).uses I = false) (hc : issueCause i r s (At i sp I a) = some c) :
    issue i r body s = .next { ((s.putSpan sp).takeTrap sp.id ⟨c, true, a, I⟩) with picked := none } := by
  obtain ⟨hpicked, hthere, hfree, hselect⟩ := h
  have hc' : issueCause i r s ⟨sp, I, guardLanes sp (shape i).ctl I, a⟩ = some c := hc
  simp only [issue, hpicked, hthere, hfree, hselect, hlock, hc', select_id hselect, Bool.false_eq_true, if_false]

section
variable {i : Instr} {r : Rules} {s : State} {x : Iss}

theorem issueCause_priv (hp : r.priv s x = true) (hu : x.sp.hmode = false) : issueCause i r s x = some .priv := by
  simp [issueCause, hp, hu]

variable (hp : ¬ (r.priv s x = true ∧ x.sp.hmode = false))
include hp

theorem issueCause_regbud (hb : ∃ k ∈ (shape i).uses.v, x.sp.budget ≤ k) : issueCause i r s x = some .regbud := by
  have h1 : (r.priv s x && !x.sp.hmode) = false := by simpa using hp
  have h2 : ((shape i).uses.v.any fun k => decide (x.sp.budget ≤ k)) = true := by simpa using hb
  simp only [issueCause, h1, h2, Bool.false_eq_true, if_false, if_true]

variable (hb : ¬ ∃ k ∈ (shape i).uses.v, x.sp.budget ≤ k)
include hb

theorem issueCause_subset (hw : r.whole = true ∧ x.I ≠ x.sp.lanesIn (!·.ended)) : issueCause i r s x = some .subset := by
  have h1 : (r.priv s x && !x.sp.hmode) = false := by simpa using hp
  have h2 : ((shape i).uses.v.any fun k => decide (x.sp.budget ≤ k)) = false := by simpa using hb
  have h3 : (r.whole && decide (x.I ≠ x.sp.lanesIn (!·.ended))) = true := by simpa using hw
  simp only [issueCause, h1, h2, h3, Bool.false_eq_true, if_false, if_true]

variable (hw : ¬ (r.whole = true ∧ x.I ≠ x.sp.lanesIn (!·.ended)))
include hw

theorem issueCause_unsync (hu : ∃ q ∈ x.sp.results, q.hits (shape i).uses x.I = true) : issueCause i r s x = some .unsync := by
  have h1 : (r.priv s x && !x.sp.hmode) = false := by simpa using hp
  have h2 : ((shape i).uses.v.any fun k => decide (x.sp.budget ≤ k)) = false := by simpa using hb
  have h3 : (r.whole && decide (x.I ≠ x.sp.lanesIn (!·.ended))) = false := by simpa using hw
  have h4 : (x.sp.results.any fun q => q.hits (shape i).uses x.I) = true := by simpa using hu
  simp only [issueCause, h1, h2, h3, h4, Bool.true_or, Bool.false_eq_true, if_false, if_true]

theorem issueCause_own (hu : ¬ ∃ q ∈ x.sp.results, q.hits (shape i).uses x.I = true) (hr : r.unsync s x = false) :
    issueCause i r s x = r.own s x := by
  have h1 : (r.priv s x && !x.sp.hmode) = false := by simpa using hp
  have h2 : ((shape i).uses.v.any fun k => decide (x.sp.budget ≤ k)) = false := by simpa using hb
  have h3 : (r.whole && decide (x.I ≠ x.sp.lanesIn (!·.ended))) = false := by simpa using hw
  have h4 : (x.sp.results.any fun q => q.hits (shape i).uses x.I) = false := by simpa using hu
  simp only [issueCause, h1, h2, h3, h4, hr, Bool.false_or, Bool.false_eq_true, if_false]

end

/-- A software trap of cause `c` in the lanes whose guard is true (R87). -/
def trapRules (c : Cause) : Rules := { own := fun _ j => if j.G.isEmpty then none else some c }

/-- TRAP and BKPT are the software traps. -/
theorem exec_trapWord {i : Instr} {x : RIW} {c : Cause} (h : (i = .trap x ∧ c = .swtrap) ∨ (i = .bkpt x ∧ c = .bkpt)) (s : State) :
    exec i s = regOp i (trapRules c) (fun _ t => t) s := by
  rcases h with ⟨rfl, rfl⟩ | ⟨rfl, rfl⟩
  · exact (rfl : execTrap x s = _)
  · exact (rfl : execBkpt x s = _)

section
variable {i : Instr} {c : Cause} {s s1 : State} {sp0 sp : Span} {I : List Nat} {a : Word}
  (he : ∀ s, exec i s = regOp i (trapRules c) (fun _ t => t) s) (h : Clear i s sp0 sp I a)
include he h

/-- R87: where no guard is true the lanes go on. -/
theorem trapWord_passes (hnone : acting i sp I = []) : Becomes i s sp fun sp' => Goes sp sp' I a ∧ KeepsRegs sp sp' ∧ sp'.qs = sp.qs := by
  refine becomes_regOp (he s) h (fun _ => rfl) (by intro hp; cases hp) (by intro hw; cases hw) rfl ?own rfl ⟨?goes, ⟨rfl, rfl⟩, rfl⟩
  case own => simp [trapRules, hnone]
  case goes =>
    obtain ⟨hcount, hlane⟩ := moved_goes h.toIssuing (acting i sp I)
    exact ⟨hcount, hlane⟩

/-- R38, R87: where a guard is true the trap is taken at issue, before any effect. -/
theorem trapWord_taken (hsome : acting i sp I ≠ []) :
    exec i s = .next { ((s.putSpan sp).takeTrap sp.id ⟨c, true, a, I⟩) with picked := none } := by
  have hbudget : ¬ ∃ k ∈ (shape i).uses.v, sp.budget ≤ k := fun ⟨k, hk, hle⟩ => absurd (h.budget k hk) (by omega)
  have hanswered : ¬ ∃ q ∈ sp.results, q.hits (shape i).uses I = true := fun ⟨q, hq, hhit⟩ => by simp [h.answered q hq] at hhit
  rw [he]
  refine issue_cause h.toIssuing h.unlocked ?_
  rw [issueCause_own (r := trapRules c) (by rintro ⟨hp, -⟩; cases hp) hbudget (by rintro ⟨hw, -⟩; cases hw) hanswered rfl]
  simpa [trapRules] using hsome

end

/-- Settles O12: the causes one by one in their order, and TRAP and BKPT, whose cause is their own. -/
theorem issueCauses : Obligations.issue_causes := by
  refine ⟨fun s s1 sp0 sp I a x cx c i hi h => ⟨trapWord_passes (exec_trapWord hi) h, fun hsome hopen => ?enter⟩,
    fun i s sp0 sp I a hword h hlock => ?causes⟩
  case enter =>
    obtain ⟨sp1, sp', hs1, hseen, ⟨hthere, hrest, hothers⟩, hin⟩ := (trapEntry.1 (s.putSpan sp) sp ⟨c, true, a, I⟩ cx hopen.there).1 s1 hopen
    exact ⟨_, sp1, sp', trapWord_taken (exec_trapWord hi) h hsome, rfl, hs1, hseen, ⟨hthere, hrest, hothers⟩, hin⟩
  case causes =>
    obtain ⟨r, body, he, hpriv, hwhole⟩ := word_issues i hword
    have taken {c : Cause} (hc : issueCause i r s (At i sp I a) = some c) :
        exec i s = .next { ((s.putSpan sp).takeTrap sp.id ⟨c, true, a, I⟩) with picked := none } := (he s).trans (issue_cause h hlock hc)
    have hp := hpriv s (At i sp I a)
    refine ⟨fun hp1 => taken (issueCause_priv (hp.trans hp1.1) hp1.2), fun hp1 hb => taken (issueCause_regbud (hp ▸ hp1) hb),
      fun hp1 hb hw => taken (issueCause_subset (hp ▸ hp1) hb (hwhole ▸ hw)), fun hp1 hb hw hu => taken (issueCause_unsync (hp ▸ hp1) hb (hwhole ▸ hw) hu)⟩

end Sys2Proof.Machine
end

section
/-! SUPPORT. The return from a trap: what the frame restores of a span, and the obligation about it (R40, R41, R330). -/

namespace Sys2Proof.Machine

/-! One span that differs. -/

theorem differs_refl {s : State} {id : Nat} {sp : Span} (h : s.span? id = some sp) : Differs s s id sp := ⟨h, rfl, fun _ _ => rfl⟩

theorem differs_trans {s t u : State} {id : Nat} {sp sp' : Span} (h : Differs s t id sp) (g : Differs t u id sp') : Differs s u id sp' := by
  obtain ⟨-, hrest, hothers⟩ := h
  obtain ⟨hthere, grest, gothers⟩ := g
  refine ⟨hthere, ?_, fun j hj => (gothers j hj).trans (hothers j hj)⟩
  calc { u with spans := s.spans, picked := s.picked }
      = { ({ u with spans := t.spans, picked := t.picked } : State) with spans := s.spans, picked := s.picked } := rfl
    _ = s := by rw [grest, hrest]

/-! Lanes that change one after another, each by its own rule. -/

theorem onLane_length (sp : Span) (l : Nat) (f : Lane → Lane) : (sp.onLane l f).lanes.length = sp.lanes.length := by simp [Span.onLane]

theorem lane_foldl_onLane_each (f : Nat → Lane → Lane) {ls : List Nat} (hnodup : ls.Nodup) (sp : Span) (l : Nat) :
    (ls.foldl (fun t k => t.onLane k (f k)) sp).lane l = if l ∈ ls ∧ l < sp.lanes.length then f l (sp.lane l) else sp.lane l := by
  induction ls generalizing sp with
  | nil => simp
  | cons k r ih =>
    obtain ⟨hk, hr⟩ := List.nodup_cons.1 hnodup
    rw [List.foldl_cons, ih hr, lane_onLane, onLane_length]
    by_cases hl : l = k
    · subst hl; simp [hk]
    · simp [hl]

theorem foldl_onLane_rest (f : Nat → Lane → Lane) (ls : List Nat) (sp : Span) :
    { ls.foldl (fun t k => t.onLane k (f k)) sp with lanes := sp.lanes } = sp := by
  have go : ∀ (ls : List Nat) (t : Span), { ls.foldl (fun t k => t.onLane k (f k)) t with lanes := sp.lanes } = { t with lanes := sp.lanes } := by
    intro ls
    induction ls with
    | nil => exact fun _ => rfl
    | cons k r ih => exact fun t => (ih _).trans rfl
  exact go ls sp

/-! The lanes of the frame (R40). -/

/-- A lane that waits for nothing, runs no task, and has not been reclaimed, at the trap or since. -/
structure Lane.Idle (ln : Lane) : Prop where
  kept   : ln.kept = none
  held   : ln.held = none
  wait   : ln.wait = none
  task   : ln.task = none
  alive  : ln.st ≠ .reclaimed
  before : ∀ st p d, ln.atTrap = some (st, p, d) → st ≠ .reclaimed

/-- What lane `l` of a frame makes of its lane. -/
def Lane.framed (b : ExecBlock) (l : Nat) (ln : Lane) : Lane :=
  ln.restore (b.state.getD l 0) (b.pc.getD l 0) (b.depth.getD l 0) (BitVec.ofNat 16 (b.preds.getD l 0))

/-- The state of a lane restored from its code (R40): one that waited or was parked goes on at its instruction. -/
def restoredState (code : Nat) : LaneState :=
  if code = 1 then .deferred else if code = 4 then .parkedFatal else if code = 5 ∨ code = 6 then .exited else .ready

theorem Lane.Idle.restore_eq {ln : Lane} (h : ln.Idle) (code : Nat) (pc : Word) (depth : Nat) (preds : BitVec 16) :
    ln.restore code pc depth preds =
      { ln with st := restoredState code, pc := pc, depth := depth, preds := preds, atTrap := none, reason := none, pages := [] } := by
  obtain ⟨hkept, hheld, hwait, -, halive, hbefore⟩ := h
  have hnot : (decide (ln.st = .reclaimed) || (match ln.atTrap with | some (st, _, _) => decide (st = .reclaimed) | none => false)) = false := by
    cases hat : ln.atTrap with
    | none => simp [halive]
    | some q => obtain ⟨st, p, d⟩ := q; simp [halive, hbefore st p d hat]
  have hsame : ln.sameWait code pc depth = false := by simp [Lane.sameWait, hkept]
  unfold Lane.restore
  dsimp only
  rw [if_neg (by rw [← Bool.not_eq_true] at hnot; exact hnot), if_neg (by simp [hsame])]
  unfold restoredState
  split <;> simp_all

theorem Lane.Idle.framed_idle {ln : Lane} (h : ln.Idle) (b : ExecBlock) (l : Nat) : (ln.framed b l).task = none ∧ (ln.framed b l).wait = none := by
  rw [Lane.framed, h.restore_eq]
  exact ⟨h.task, h.wait⟩

/-- A lane changes by a rule that is asked about that lane alone. -/
theorem onLane_congr {sp : Span} {l : Nat} {f g : Lane → Lane} (h : f (sp.lane l) = g (sp.lane l)) : sp.onLane l f = sp.onLane l g := by
  have hlanes : sp.lanes.modify l f = sp.lanes.modify l g := by
    refine List.ext_getElem (by simp) fun k hk _ => ?_
    rw [List.getElem_modify, List.getElem_modify]
    by_cases hl : l = k
    · subst hl
      have hlane : sp.lane l = sp.lanes[l]'(by simpa using hk) := List.getD_eq_getElem _ _ _
      simpa [hlane] using h
    · simp [hl]
  rw [Span.onLane, Span.onLane, hlanes]

theorem withoutTask {ln : Lane} (h : ln.task = none) : (if ln.st = .exited then { ln with task := none } else ln) = ln := by
  split
  · rw [← h]
  · rfl

/-- An idle lane takes what the frame holds, and nothing else changes. -/
theorem restoreLane_idle {s : State} {sp : Span} {l : Nat} (b : ExecBlock) (hs : s.span? sp.id = some sp) (h : (sp.lane l).Idle) :
    Differs s (s.restoreLane sp.id b l) sp.id (sp.onLane l (Lane.framed b l)) := by
  have hput := differs_onSpan (s := s) (fun t => t.onLane l fun _ => (sp.lane l).framed b l) (fun _ => rfl) hs
  have hsame : sp.onLane l (fun _ => (sp.lane l).framed b l) = sp.onLane l (Lane.framed b l) := onLane_congr rfl
  have heq : s.restoreLane sp.id b l = s.onSpan sp.id fun t => t.onLane l fun _ => (sp.lane l).framed b l := by
    obtain ⟨htask, hwait⟩ := h.framed_idle b l
    obtain ⟨hkept, hheld, hnow, hnone, -, -⟩ := h
    have hend : s.endLaneTask sp l = s := by simp [State.endLaneTask, hnone]
    unfold Lane.framed at htask hwait ⊢
    simp only [State.restoreLane, hs]
    generalize (sp.lane l).restore (b.state.getD l 0) (b.pc.getD l 0) (b.depth.getD l 0) (BitVec.ofNat 16 (b.preds.getD l 0)) = ln at htask hwait ⊢
    simp only [hnow, hkept, State.dropOne, ite_self, hend, withoutTask htask]
    simp only [hwait]
  rw [heq]
  exact hsame ▸ hput

/-- Idle lanes take one after another what the frame holds. -/
theorem restoreLanes_idle {s : State} (b : ExecBlock) {ls : List Nat} (hnodup : ls.Nodup) {t : State} {sp : Span} (ht : Differs s t sp.id sp)
    (hidle : ∀ l ∈ ls, (sp.lane l).Idle) :
    Differs s (ls.foldl (fun t l => t.restoreLane sp.id b l) t) sp.id (ls.foldl (fun u l => u.onLane l (Lane.framed b l)) sp) := by
  induction ls generalizing t sp with
  | nil => exact ht
  | cons l r ih =>
    obtain ⟨hl, hr⟩ := List.nodup_cons.1 hnodup
    refine ih (sp := sp.onLane l (Lane.framed b l)) hr (differs_trans ht (restoreLane_idle b ht.1 (hidle l (.head _)))) fun k hk => ?_
    rw [lane_onLane, if_neg (by rintro ⟨rfl, -⟩; exact hl hk)]
    exact hidle k (.tail _ hk)

/-- No lane runs a task: none is reclaimed. -/
theorem reclaimStanding_idle {s : State} {id : Nat} {sp : Span} (hs : s.span? id = some sp) (htask : ∀ l, (sp.lane l).task = none) (ls : List Nat) :
    ls.foldl (fun t l => t.reclaimStanding id l) s = s := by
  induction ls with
  | nil => rfl
  | cons l r ih =>
    have hone : s.reclaimStanding id l = s := by simp [State.reclaimStanding, hs, htask l]
    rw [List.foldl_cons, hone, ih]

/-! The span outside handler mode (R40). -/

/-- The first `n` of s56 to s63 as the frame holds them. -/
def Span.setHigh (b : ExecBlock) (n : Nat) (t : Span) : Span :=
  (List.range n).foldl (fun u i => u.setS (56 + i) (BitVec.ofNat 64 (b.shi.getD i 0))) t

theorem setHigh_succ (b : ExecBlock) (n : Nat) (t : Span) :
    t.setHigh b (n + 1) = (t.setHigh b n).setS (56 + n) (BitVec.ofNat 64 (b.shi.getD n 0)) := by
  rw [Span.setHigh, List.range_succ, List.foldl_append]; rfl

theorem setHigh_rest (b : ExecBlock) (n : Nat) (t : Span) : { t.setHigh b n with sregs := t.sregs } = t := by
  induction n with
  | zero => rfl
  | succ n ih => rw [setHigh_succ]; exact ih

theorem s_setHigh (b : ExecBlock) (n : Nat) (t : Span) (k : Nat) :
    (t.setHigh b n).s k = if 56 ≤ k ∧ k < 56 + n then BitVec.ofNat 64 (b.shi.getD (k - 56) 0) else t.s k := by
  induction n with
  | zero => rw [if_neg (by omega)]; rfl
  | succ n ih =>
    rw [setHigh_succ, s_setS, ih]
    by_cases hk : k = 56 + n
    · subst hk; simp
    · rw [if_neg hk]
      by_cases hin : 56 ≤ k ∧ k < 56 + n
      · rw [if_pos hin, if_pos (by omega)]
      · rw [if_neg hin, if_neg (by omega)]

/-- The span that leaves handler mode, before its lanes are restored. -/
def Span.leaving (b : ExecBlock) (t : Span) : Span :=
  { t.setHigh b 8 with qs := BitVec.ofNat 8 (b.dq / 256), hmode := false, fseq := 0, cause := none, first := none, due := false, hcause := none,
                       resv := none, lanes := (t.setHigh b 8).lanes.map fun ln => { ln with resv := none } }

/-- Of the span nothing else changes. -/
theorem leaving_rest (b : ExecBlock) (t : Span) : { t.leaving b with
    qs := t.qs, hmode := t.hmode, fseq := t.fseq, cause := t.cause, first := t.first, due := t.due, hcause := t.hcause, resv := t.resv,
    lanes := t.lanes, sregs := t.sregs } = t := by
  have h := setHigh_rest b 8 t
  unfold Span.leaving
  generalize t.setHigh b 8 = u at h
  rw [← h]

theorem bad_iff (b : ExecBlock) : b.bad = true ↔ (∃ c ∈ b.state, 6 < c) ∨ ∃ p ∈ b.pc, p.toNat % 8 ≠ 0 := by
  simp [ExecBlock.bad]

theorem returnFromTrap_bad {s : State} {sp : Span} {b : ExecBlock} (hs : s.span? sp.id = some sp) (hb : b.bad = true) :
    s.returnFromTrap sp.id b = s.stopSpan sp.id .ill := by
  simp [State.returnFromTrap, hs, hb]

theorem lanes_leaving (b : ExecBlock) (sp : Span) : (sp.leaving b).lanes = sp.lanes.map fun ln => { ln with resv := none } :=
  by have hf := congrArg Span.lanes (setHigh_rest b 8 sp); exact congrArg (List.map fun ln : Lane => { ln with resv := none }) hf

theorem lane_leaving (b : ExecBlock) (sp : Span) (l : Nat) : (sp.leaving b).lane l = { sp.lane l with resv := none } := by
  rw [Span.lane, lanes_leaving, lane_map _ _ rfl]
  rfl

/-- The span as the frame restores it, before what follows at once. -/
def Span.returned (b : ExecBlock) (sp : Span) : Span := laneNums.foldl (fun u l => u.onLane l (Lane.framed b l)) (sp.leaving b)

theorem leaving_idle {b : ExecBlock} {sp : Span} {l : Nat} (h : (sp.lane l).Idle) : ((sp.leaving b).lane l).Idle := by
  obtain ⟨hkept, hheld, hwait, htask, halive, hbefore⟩ := h
  rw [lane_leaving]
  exact ⟨hkept, hheld, hwait, htask, halive, hbefore⟩

theorem lane_returned {b : ExecBlock} {sp : Span} {l : Nat} (h : (sp.lane l).Idle) (hl : l < 32) (hlen : l < sp.lanes.length) : (sp.returned b).lane l = { sp.lane l with
    st := restoredState (b.state.getD l 0), pc := b.pc.getD l 0, depth := b.depth.getD l 0, preds := BitVec.ofNat 16 (b.preds.getD l 0),
    atTrap := none, reason := none, pages := [], resv := none } := by
  have hcount : l < (sp.leaving b).lanes.length := by rw [lanes_leaving, List.length_map]; exact hlen
  rw [Span.returned, lane_foldl_onLane_each _ (by decide), if_pos ⟨mem_laneNums.2 hl, hcount⟩, Lane.framed, (leaving_idle h).restore_eq, lane_leaving]

theorem returned_rest (b : ExecBlock) (sp : Span) : { sp.returned b with lanes := (sp.leaving b).lanes } = sp.leaving b :=
  foldl_onLane_rest _ _ _

theorem s_returned (b : ExecBlock) (sp : Span) (k : Nat) :
    (sp.returned b).s k = if 56 ≤ k ∧ k < 64 then BitVec.ofNat 64 (b.shi.getD (k - 56) 0) else sp.s k := by
  have hrest := returned_rest b sp
  generalize sp.returned b = q at hrest ⊢
  have hregs := congrArg Span.sregs hrest
  have hs : q.s k = (sp.setHigh b 8).s k := congrArg (fun m => sget 0 m k) hregs
  rw [hs, s_setHigh]

theorem returned_fields (b : ExecBlock) (sp : Span) : (sp.returned b).vregs = sp.vregs ∧ (sp.returned b).qs = BitVec.ofNat 8 (b.dq / 256) ∧
    (sp.returned b).hmode = false ∧ (sp.returned b).cause = none ∧ (sp.returned b).fseq = 0 ∧ (sp.returned b).due = false := by
  have hrest := returned_rest b sp
  have hhigh := congrArg Span.vregs (leaving_rest b sp)
  generalize sp.returned b = q at hrest
  have hvregs := congrArg Span.vregs hrest
  have hqs := congrArg Span.qs hrest
  have hmode := congrArg Span.hmode hrest
  have hcause := congrArg Span.cause hrest
  have hfseq := congrArg Span.fseq hrest
  have hdue := congrArg Span.due hrest
  exact ⟨Eq.trans hvregs hhigh, hqs, hmode, hcause, hfseq, hdue⟩

/-- A valid frame that names no lane parked fatal restores its span (R40). -/
theorem returnFromTrap_good {s : State} {sp : Span} {b : ExecBlock} (hs : s.span? sp.id = some sp) (hb : b.bad = false)
    (hfatal : ∀ l, l < 32 → b.state.getD l 0 ≠ 4) (hlen : sp.lanes.length = 32) (hidle : ∀ l, l < 32 → (sp.lane l).Idle) :
    ∃ u, s.returnFromTrap sp.id b = u.settle sp.id ∧ Differs s u sp.id (sp.returned b) := by
  have hleave : Differs s (s.onSpan sp.id (·.leaving b)) sp.id (sp.leaving b) := by
    refine differs_onSpan _ (fun t => ?_) hs
    have hid := congrArg Span.id (leaving_rest b t)
    exact hid
  have hid : (sp.leaving b).id = sp.id := span?_id hleave.1
  have hrestored := restoreLanes_idle (sp := sp.leaving b) b (ls := laneNums) (by decide) (hid.symm ▸ hleave)
    fun l hl => leaving_idle (hidle l (mem_laneNums.1 hl))
  rw [hid] at hrestored
  have hcodes (l : Nat) (hl : l < 32) : ((sp.returned b).lane l).st ≠ .parkedFatal := by
    rw [lane_returned (hidle l hl) hl (hlen ▸ hl), restoredState]
    simp only [if_neg (hfatal l hl)]
    split
    · simp
    · split <;> simp
  have htasks (l : Nat) : ((sp.returned b).lane l).task = none := by
    by_cases hl : l < 32
    · rw [lane_returned (hidle l hl) hl (hlen ▸ hl)]
      exact (hidle l hl).task
    · rw [Span.returned, lane_foldl_onLane_each _ (by decide), if_neg fun h => hl (mem_laneNums.1 h.1), lane_leaving, Span.lane,
        List.getD_eq_default _ _ (by omega)]
      rfl
  have hnone : (sp.returned b).lanesIn (· = .parkedFatal) = [] := by
    rw [Span.lanesIn, List.filter_eq_nil_iff]
    intro l hl
    simpa using hcodes l (mem_laneNums.1 hl)
  refine ⟨_, ?_, hrestored⟩
  have hthere : (laneNums.foldl (fun t l => t.restoreLane sp.id b l) (s.onSpan sp.id (·.leaving b))).span? sp.id = some (sp.returned b) := hrestored.1
  have hstand := reclaimStanding_idle hthere htasks laneNums
  generalize hu : laneNums.foldl (fun t l => t.restoreLane sp.id b l) (s.onSpan sp.id (·.leaving b)) = u at hthere hstand ⊢
  unfold Span.leaving Span.setHigh at hu
  simp only [State.returnFromTrap, hs, hb, Bool.false_eq_true, if_false, hu, hstand, hthere, hnone, List.isEmpty_nil, if_true]

/-- RFT, its frame read (R330). -/
theorem execRft_clear {x : RRR} {s s1 : State} {sp0 sp : Span} {I : List Nat} {a : Word} {cx : Context} {bs : List Byte} (h : Clear (.rft x) s sp0 sp I a)
    (hmode : sp.hmode = true) (hdrained : s.drained sp sp.seq = true) (hctx : s.ctx? sp.ctx = some cx)
    (hread : s.deviceRead (some sp.pier) cx (s.areas sp cx).1 512 = (s1, .ok bs)) :
    exec (.rft x) s = .next (((s1.putSpan (At (.rft x) sp I a).moved).returnFromTrap sp.id (readBlock bs)).issued (.rft x) (At (.rft x) sp I a)) := by
  have he : exec (.rft x) s = execRft x s := rfl
  rw [he, execRft, issue_clear h (fun _ => hmode) (by intro hw; cases hw) rfl rfl hdrained]
  simp only [hctx, hread]
  rfl

/-- Settles O14: the word by its own equation; the frame lane by lane, each of which it restores by its code. -/
theorem trapReturn : Obligations.trap_return := by
  refine ⟨fun s s1 sp0 sp I a x cx bs h hmode hdrained hctx hread => execRft_clear h hmode hdrained hctx hread,
    fun s sp b hs => ⟨fun hbad => returnFromTrap_bad hs ((bad_iff b).2 hbad), fun hcodes hpcs hfatal hcount hlen hlanes => ?_⟩⟩
  have hgood : b.bad = false := by
    rw [Bool.eq_false_iff, Ne, bad_iff]
    rintro (⟨c, hc, hlt⟩ | ⟨p, hp, hodd⟩)
    · exact absurd (hcodes c hc) (by omega)
    · exact hodd (hpcs p hp)
  have hnot4 (l : Nat) (hl : l < 32) : b.state.getD l 0 ≠ 4 := by
    rw [List.getD_eq_getElem _ _ (hcount ▸ hl)]
    exact hfatal _ (List.getElem_mem _)
  have hidle (l : Nat) (hl : l < 32) : (sp.lane l).Idle := by
    obtain ⟨hkept, hheld, hwait, htask, halive, hbefore⟩ := hlanes l hl
    exact ⟨hkept, hheld, hwait, htask, halive, hbefore⟩
  obtain ⟨u, hret, hdiff⟩ := returnFromTrap_good hs hgood hnot4 hlen hidle
  obtain ⟨hvregs, hrest⟩ := returned_fields b sp
  refine ⟨u, sp.returned b, hret, hdiff, fun l hl => ?_, hvregs, s_returned b sp, hrest⟩
  rw [lane_returned (hidle l hl) hl (hlen ▸ hl), restoredState]
  simp only [if_neg (hnot4 l hl)]

end Sys2Proof.Machine
end

section
/-! SUPPORT. The slots that a block takes on a pier, its spans there, and the obligation about its placement (R50, R309). -/

namespace Sys2Proof.Machine

/-! Slots (R48, R311). -/

/-- A slot that no span of a pier has. -/
def freeIn (used : List (Nat × Nat)) (k : Nat) : Prop := k < 64 ∧ ∀ u ∈ used, u.1 ≠ k

/-- The lowest slot of a quadrant that is free and not closed. -/
def slotIn (used : List (Nat × Nat)) (closed : List Nat) (q : Nat) : Option Nat :=
  (List.range 16).find? fun k => !used.any (·.1 = 16 * q + k) && !closed.contains (16 * q + k)

theorem slotIn_free {used : List (Nat × Nat)} {closed : List Nat} {q k : Nat} (hq : q < 4) (h : slotIn used closed q = some k) :
    freeIn used (16 * q + k) := by
  have hfree := List.find?_some h
  have hlt := List.mem_range.1 (List.mem_of_find?_eq_some h)
  simp only [Bool.and_eq_true, Bool.not_eq_true', List.any_eq_false, decide_eq_true_eq] at hfree
  exact ⟨by omega, hfree.1⟩

/-- The better of a choice and a quadrant: the one with more free registers, of those that have room. -/
def betterSlot (used : List (Nat × Nat)) (closed : List Nat) (budget : Nat) (b : Option (Nat × Nat)) (q : Nat) : Option (Nat × Nat) :=
  match slotIn used closed q with
  | none => b
  | some k => if quadRegs used q < budget then b else match b with
    | some (p, _) => if quadRegs used p < quadRegs used q then some (q, 16 * q + k) else b
    | none => some (q, 16 * q + k)

theorem betterSlot_cases (used : List (Nat × Nat)) (closed : List Nat) (budget : Nat) (b : Option (Nat × Nat)) (q : Nat) :
    betterSlot used closed budget b q = b ∨ ∃ k, slotIn used closed q = some k ∧ betterSlot used closed budget b q = some (q, 16 * q + k) := by
  unfold betterSlot
  cases slotIn used closed q with
  | none => exact .inl rfl
  | some k =>
    dsimp only
    split
    · exact .inl rfl
    · split
      · split
        exacts [.inr ⟨k, rfl, rfl⟩, .inl rfl]
      · exact .inr ⟨k, rfl, rfl⟩

theorem foldl_betterSlot_free {used : List (Nat × Nat)} {closed : List Nat} {budget : Nat} {qs : List Nat} (hqs : ∀ q ∈ qs, q < 4)
    {b : Option (Nat × Nat)} (hb : ∀ x, b = some x → freeIn used x.2) (x : Nat × Nat) (h : qs.foldl (betterSlot used closed budget) b = some x) :
    freeIn used x.2 := by
  induction qs generalizing b with
  | nil => exact hb x h
  | cons q r ih =>
    refine ih (fun q' hq' => hqs q' (.tail _ hq')) ?_ h
    rcases betterSlot_cases used closed budget b q with heq | ⟨k, hk, heq⟩
    · rw [heq]; exact hb
    · rintro y hy
      rw [heq] at hy
      cases hy
      exact slotIn_free (hqs q (.head _)) hk

theorem nextSlot_free {used : List (Nat × Nat)} {closed : List Nat} {budget k : Nat} (h : nextSlot used closed budget = some k) : freeIn used k := by
  obtain ⟨x, hbest, rfl⟩ := Option.map_eq_some_iff.1 h
  exact foldl_betterSlot_free (qs := List.range 4) (fun q hq => List.mem_range.1 hq) (by simp) x hbest

theorem placeSpans_free {used : List (Nat × Nat)} {closed bs ks : List Nat} (h : placeSpans used closed bs = some ks) :
    ks.length = bs.length ∧ ∀ k ∈ ks, freeIn used k := by
  induction bs generalizing used ks with
  | nil => cases h; simp
  | cons b r ih =>
    unfold placeSpans at h
    split at h
    · cases h
    · rename_i k hk
      obtain ⟨ks', hks, rfl⟩ := Option.map_eq_some_iff.1 h
      obtain ⟨hlen, hfree⟩ := ih hks
      refine ⟨by simp [hlen], fun j hj => ?_⟩
      rcases List.mem_cons.1 hj with rfl | hj
      · exact nextSlot_free hk
      · exact ⟨(hfree j hj).1, fun u hu => (hfree j hj).2 u (.tail _ hu)⟩

theorem fits_free {r : Room} {closed : List Nat} {l : Launch} {reserve : Nat} {ks : List Nat} (h : r.fits closed l reserve = some ks) :
    ks.length = l.budgets.length ∧ ∀ k ∈ ks, freeIn r.used k := by
  unfold Room.fits at h
  dsimp only at h
  split at h
  · have hplaced := placeSpans_free h
    rwa [List.length_map] at hplaced
  · cases h

/-- What the choice of a die, a pier and slots says of them. -/
theorem nextBlock_spec {s : State} {p : Partition} {l : Launch} {f : Nat → Bool} {d i : Nat} {ks : List Nat} (h : s.nextBlock p l f = some (d, i, ks)) :
    l.unplaced = true ∧ i ∈ p.row.piers ∧ i / 40 = d ∧ ks.length = l.budgets.length ∧ ∀ k ∈ ks, freeIn (s.room i).used k := by
  obtain ⟨d', hd, hdie⟩ := List.exists_of_findSome?_eq_some h
  split at hdie
  · rename_i hleft
    obtain ⟨⟨i', ks'⟩, hpier, heq⟩ := Option.map_eq_some_iff.1 hdie
    cases heq
    obtain ⟨j, hj, hfit⟩ := List.exists_of_findSome?_eq_some hpier
    split at hfit
    · obtain ⟨ks'', hks, heq⟩ := Option.map_eq_some_iff.1 hfit
      cases heq
      simp only [State.piersOn, List.mem_filter, Bool.and_eq_true, decide_eq_true_eq, List.contains_iff_mem] at hj
      refine ⟨List.any_eq_true.2 ⟨d, hd, ?_⟩, hj.2.1.1, hj.2.1.2, fits_free hks⟩
      exact (Bool.and_eq_true _ _ ▸ hleft).1
    · cases hfit
  · cases hdie

/-- No span stands in a slot that is free on its pier. -/
theorem free_no_span {s : State} {i k : Nat} (h : freeIn (s.room i).used k) : ∀ t ∈ s.spans, t.id ≠ 64 * i + k := by
  intro t ht hid
  obtain ⟨hlt, hfree⟩ := h
  have hmem : (t.slot, t.budget) ∈ (s.room i).used := by
    refine List.mem_map_of_mem (f := fun sp : Span => (sp.slot, sp.budget)) (List.mem_filter.2 ⟨ht, decide_eq_true ?_⟩)
    show t.id / 64 = i
    omega
  exact hfree _ hmem (show t.id % 64 = k by omega)

/-! Values from key 0 on. -/

theorem sget_sparseFrom {α : Type} [DecidableEq α] (d : α) (vs : List α) (k i : Nat) :
    sget d ((imap (fun i v => if v = d then none else some (i, v)) k vs).filterMap id) i = if k ≤ i then vs.getD (i - k) d else d := by
  induction vs generalizing k with
  | nil => simp [imap, sget]
  | cons v r ih =>
    have hstep : (if k ≤ i then (v :: r).getD (i - k) d else d) = if i = k then v else if k + 1 ≤ i then r.getD (i - (k + 1)) d else d := by
      rcases Nat.lt_trichotomy i k with h | h | h
      · rw [if_neg (by omega), if_neg (by omega), if_neg (by omega)]
      · subst h; simp
      · rw [if_pos (by omega), if_neg (by omega), if_pos (by omega), show i - k = i - (k + 1) + 1 by omega, List.getD_cons_succ]
    rw [hstep, imap]
    by_cases hv : v = d
    · rw [List.filterMap_cons_none (by simp [hv]), ih]
      by_cases hi : i = k
      · rw [if_pos hi, if_neg (by omega), hv]
      · rw [if_neg hi]
    · rw [List.filterMap_cons_some (b := (k, v)) (by simp [hv]), sget, ih]
      simp only [eq_comm (a := i)]

theorem sget_ssparse {α : Type} [DecidableEq α] (d : α) (vs : List α) (i : Nat) : sget d (ssparse d vs) i = vs.getD i d := by
  rw [ssparse, sget_sparseFrom, if_pos (Nat.zero_le i), Nat.sub_zero]

/-! A span at its start (R50). -/

theorem v_newSpan (s : State) (l : Launch) (id blk idx role budget : Nat) (entry : Word) {r k : Nat} (hk : k < 32) :
    (s.newSpan l id blk idx role budget entry).v r k = if r = 0 then BitVec.ofNat 32 k else 0 := by
  have hstart : (s.newSpan l id blk idx role budget entry).v r k = (laneNums.map (BitVec.ofNat 32)).getD (32 * r + k) 0 := sget_ssparse _ _ _
  rw [hstart, laneNums_eq]
  by_cases hr : r = 0
  · subst hr
    rw [if_pos rfl, List.getD_eq_getElem _ _ (by simpa using hk)]
    simp
  · rw [if_neg hr, List.getD_eq_default _ _ (by simp; omega)]

theorem s_newSpan (s : State) (l : Launch) (id blk idx role budget : Nat) (entry : Word) (r : Nat) :
    (s.newSpan l id blk idx role budget entry).s r = if r = 0 then l.args else if r = 1 then BitVec.ofNat 64 blk else if r = 2 then BitVec.ofNat 64 idx
      else if r = 3 then BitVec.ofNat 64 role else 0 := by
  have hstart : (s.newSpan l id blk idx role budget entry).s r =
      [l.args, BitVec.ofNat 64 blk, BitVec.ofNat 64 idx, BitVec.ofNat 64 role].getD r 0 := sget_ssparse _ _ _
  rw [hstart]
  match r with
  | 0 => rfl
  | 1 => rfl
  | 2 => rfl
  | 3 => rfl
  | n + 4 => simp

/-! The block and its spans (R309). -/

/-- One span more of a block: the state, the index of the next span, the numbers of the spans. -/
def startSpan (l : Launch) (pier b : Nat) (acc : State × Nat × List Nat) (x : Nat × (Nat × Role)) : State × Nat × List Nat :=
  let sp := acc.1.newSpan l (64 * pier + x.1) b acc.2.1 x.2.1 x.2.2.budget x.2.2.entry
  ({ acc.1 with uid := acc.1.uid + 1, spans := acc.1.spans ++ [sp] }, acc.2.1 + 1, acc.2.2 ++ [sp.uid])

theorem foldl_startSpan_rest (l : Launch) (pier b : Nat) (xs : List (Nat × (Nat × Role))) (acc : State × Nat × List Nat) :
    { (xs.foldl (startSpan l pier b) acc).1 with uid := acc.1.uid, spans := acc.1.spans } = acc.1 ∧
      (xs.foldl (startSpan l pier b) acc).2.1 = acc.2.1 + xs.length ∧ ∀ sp ∈ acc.1.spans, sp ∈ (xs.foldl (startSpan l pier b) acc).1.spans := by
  induction xs generalizing acc with
  | nil => exact ⟨rfl, rfl, fun _ h => h⟩
  | cons x r ih =>
    obtain ⟨hrest, hcount, hkeep⟩ := ih (startSpan l pier b acc x)
    rw [List.foldl_cons]
    refine ⟨?_, ?_, fun sp hsp => hkeep sp (List.mem_append_left _ hsp)⟩
    · generalize r.foldl (startSpan l pier b) (startSpan l pier b acc x) = q at hrest
      calc { q.1 with uid := acc.1.uid, spans := acc.1.spans }
          = { ({ q.1 with uid := (startSpan l pier b acc x).1.uid, spans := (startSpan l pier b acc x).1.spans } : State) with
                uid := acc.1.uid, spans := acc.1.spans } := rfl
        _ = acc.1 := by rw [hrest]; rfl
    · rw [hcount, List.length_cons]
      show acc.2.1 + 1 + r.length = _
      omega

theorem foldl_startSpan_mem (l : Launch) (pier b : Nat) {xs : List (Nat × (Nat × Role))} (acc : State × Nat × List Nat) {n : Nat}
    {x : Nat × (Nat × Role)} (h : xs[n]? = some x) :
    ∃ t : State, t.newSpan l (64 * pier + x.1) b (acc.2.1 + n) x.2.1 x.2.2.budget x.2.2.entry ∈ (xs.foldl (startSpan l pier b) acc).1.spans := by
  induction xs generalizing acc n with
  | nil => cases h
  | cons y r ih =>
    rw [List.foldl_cons]
    cases n with
    | zero =>
      cases h
      exact ⟨acc.1, (foldl_startSpan_rest l pier b r _).2.2 _ (List.mem_append_right _ (.head _))⟩
    | succ n =>
      obtain ⟨t, ht⟩ := ih (startSpan l pier b acc y) (n := n) (by simpa using h)
      refine ⟨t, ?_⟩
      rwa [show acc.2.1 + (n + 1) = acc.2.1 + 1 + n by omega]

theorem crossed_eq (s : State) (die : Nat) : ∃ ts, s.crossed die = { s with tsc := ts } := by
  unfold State.crossed
  have go : ∀ (ds : List Nat) (t : State), ∃ ts, ds.foldl (fun t d => t.raise die (s.time d + 1)) t = { t with tsc := ts } := by
    intro ds
    induction ds with
    | nil => exact fun t => ⟨t.tsc, rfl⟩
    | cons d r ih => exact fun t => ih _
  exact go _ s

/-- A block as it is placed, of `n` spans. -/
def Launch.newBlock (l : Launch) (b pier n : Nat) (uids : List Nat) : Block :=
  { launch := l.id, idx := b, pier := pier, bytes := l.deck, tiles := List.replicate l.tiles {}, nspans := n, live := uids }

/-- The block that a launch places next on a die. -/
def Launch.nextOn (l : Launch) (d : Nat) : Nat := (l.range.getD d (0, 0)).1 + l.next.getD d 0

def Launch.placed (l : Launch) (d : Nat) : Launch := { l with started := true, next := l.next.set d (l.next.getD d 0 + 1) }

theorem placeOne_eq {s : State} {l : Launch} {d pier : Nat} {slots : List Nat} {acc : State × Nat × List Nat}
    (h : (List.zip slots l.budgets).foldl (startSpan l pier (l.nextOn d)) (s, 0, []) = acc) :
    s.placeOne l d pier slots =
      (({ acc.1 with blocks := acc.1.blocks ++ [l.newBlock (l.nextOn d) pier acc.2.1 acc.2.2] } : State).crossed d).onLaunch l.id (·.placed d) := by
  subst h; rfl

/-- The block of `slots` on `pier`, with its spans. -/
theorem placeOne_spec {s : State} {l : Launch} (d pier : Nat) {slots : List Nat} (hl : s.launch? l.id = some l) (hlen : slots.length = l.budgets.length) :
    let u := s.placeOne l d pier slots
    u.mem = s.mem ∧ (∃ uids, l.newBlock (l.nextOn d) pier slots.length uids ∈ u.blocks) ∧ l.placed d ∈ u.launches ∧
    ∀ n slot x, slots[n]? = some slot → l.budgets[n]? = some x →
      ∃ t : State, t.newSpan l (64 * pier + slot) (l.nextOn d) n x.1 x.2.budget x.2.entry ∈ u.spans := by
  intro u
  obtain ⟨hrest, hcount, -⟩ := foldl_startSpan_rest l pier (l.nextOn d) (List.zip slots l.budgets) (s, 0, [])
  have hspans := fun n x (h : (List.zip slots l.budgets)[n]? = some x) => foldl_startSpan_mem l pier (l.nextOn d) (s, 0, []) h
  generalize hacc : (List.zip slots l.budgets).foldl (startSpan l pier (l.nextOn d)) (s, 0, []) = acc at hrest hcount hspans
  obtain ⟨ts, hts⟩ := crossed_eq { acc.1 with blocks := acc.1.blocks ++ [l.newBlock (l.nextOn d) pier acc.2.1 acc.2.2] } d
  have hu : u = _ := (placeOne_eq hacc).trans (congrArg (State.onLaunch · l.id (·.placed d)) hts)
  have hmem := congrArg State.mem hrest
  have hlaunches := congrArg State.launches hrest
  have hall : acc.2.1 = slots.length := by rw [hcount, List.length_zip, ← hlen]; simp
  rw [hu]
  refine ⟨hmem, ⟨acc.2.2, List.mem_append_right _ ?_⟩, ?_, fun n slot x hslot hx => ?_⟩
  · rw [hall]; exact .head _
  · have hin : l ∈ acc.1.launches := Eq.mpr (congrArg (l ∈ ·) hlaunches) (List.mem_of_find?_eq_some hl)
    exact List.mem_map.2 ⟨l, hin, if_pos rfl⟩
  · obtain ⟨t, ht⟩ := hspans n (slot, x) (List.getElem?_zip_eq_some.2 ⟨hslot, hx⟩)
    rw [Nat.zero_add] at ht
    exact ⟨t, ht⟩

/-- A launch in its turn places its next block. -/
theorem place_next {s : State} {l : Launch} {p : Partition} {cx : Context} {d i : Nat} {ks : List Nat} (hp : s.parts[l.part]? = some p)
    (hctx : s.ctx? l.ctx = some cx) (hrun : cx.status = .running) (hck : s.ckStops l.part = false) (hadmit : s.admitted l = true)
    (hleft : l.unplaced = true) (hgang : l.gang = false) (hready : l.started = true ∨ l.trees = 0)
    (hnext : s.nextBlock p l (s.inTurn p l) = some (d, i, ks)) : s.place l = s.placeOne l d i ks := by
  have hgo : (l.started || decide (l.trees = 0)) = true := by simpa using hready
  simp only [State.place, hp, hctx, hrun, hck, hadmit, hleft, hgang, hgo, hnext, ne_eq, not_true_eq_false, decide_false, Bool.not_true, Bool.or_self,
    Bool.false_eq_true, if_false, if_true]

/-- Settles O46: the slots of the block are free, and each of its spans starts as `newSpan` says. -/
theorem blocksPlaced : Obligations.blocks_placed := by
  intro s l p cx d i ks hl hp hctx hrun hck hadmit hgang hready hnext b
  obtain ⟨hleft, hpier, hdie, hlen, hfree⟩ := nextBlock_spec hnext
  obtain ⟨hmem, ⟨uids, hblock⟩, hlaunch, hspans⟩ := placeOne_spec d i hl hlen
  have hexec : exec (.blockPlacement l.id) s = .next (s.placeOne l d i ks) := by
    have he : exec (.blockPlacement l.id) s = execBlockPlacement l.id s := rfl
    rw [he, execBlockPlacement, hl]
    exact congrArg Host.Outcome.next (place_next hp hctx hrun hck hadmit hleft hgang hready hnext)
  refine ⟨_, hexec, hmem, hlen, hpier, hdie, ⟨_, hblock, rfl, rfl, rfl, rfl, rfl, rfl, rfl, rfl⟩, ⟨_, hlaunch, rfl⟩, fun n slot x hslot hx => ?_⟩
  obtain ⟨t, ht⟩ := hspans n slot x hslot hx
  have hslotFree := hfree slot (List.mem_of_getElem? hslot)
  exact ⟨_, ht, rfl, hslotFree.1, free_no_span hslotFree, rfl, rfl, rfl, rfl, rfl, rfl, rfl, rfl, rfl, rfl,
    fun r k hk => v_newSpan _ _ _ _ _ _ _ _ hk, s_newSpan _ _ _ _ _ _ _ _⟩

end Sys2Proof.Machine
end

section
/-! SUPPORT. Plane words: the causes of their own in order, the operation behind the fork, PSYNC; and the obligation about them (R217, R278 to R285). -/

namespace Sys2Proof.Machine

/-! The issuing set is never empty (R30). -/

theorem foremost_ne_nil {sp : Span} {L : List Nat} (h : L ≠ []) : sp.foremost L ≠ [] := by
  have hD : (L.filter fun l => (sp.lane l).depth = maxNat (L.map fun l => (sp.lane l).depth)) ≠ [] := by
    obtain ⟨l, hl, hdepth⟩ := List.mem_map.1 (maxNat_mem (l := L.map fun l => (sp.lane l).depth) (by simpa using h))
    exact List.ne_nil_of_mem (List.mem_filter.2 ⟨hl, by simpa using hdepth⟩)
  unfold Span.foremost
  generalize (L.filter fun l => (sp.lane l).depth = maxNat (L.map fun l => (sp.lane l).depth)) = D at hD
  obtain ⟨l, hl, hpc⟩ := List.mem_map.1 (minNat_mem (l := D.map fun l => (sp.lane l).pc.toNat) (by simpa using hD))
  exact List.ne_nil_of_mem (List.mem_filter.2 ⟨hl, by simpa using hpc⟩)

theorem select_ne_nil {sp0 sp : Span} {I : List Nat} {a : Word} (h : sp0.select = some (sp, I, a)) : I ≠ [] := by
  simp only [Span.select] at h
  split at h
  · cases h
  next hsome =>
    simp only [Option.some.injEq, Prod.mk.injEq] at h
    obtain ⟨-, hI, -⟩ := h
    rw [← hI]
    refine foremost_ne_nil ?_
    split
    · simpa using hsome
    next hready => simpa using hready

/-! The causes of a plane word, one by one. -/

/-- The lanes of the word agree on the format. -/
def FmtSame (sp : Span) (x : RRR) (I : List Nat) : Prop := ∀ l ∈ I, sp.v x.d.toNat l = sp.v x.d.toNat (I.headD 0)

/-- The tile, the segment and the count that the control word names are there for the operation. -/
def TileOk (k : PlaneKind) (ctl : Word) (b : Block) : Prop :=
  ctlTile ctl < b.tiles.length ∧ ¬ (k = .pdrb ∧ ctlSeg ctl = 3) ∧ ¬ (k = .pmmabp ∧ ctlCount ctl ≠ 1)

/-- The operands lie in the deck, aligned. -/
def InDeck (k : PlaneKind) (fmt : VWord) (ctl opa opb : Word) (b : Block) : Prop :=
  ∀ r ∈ planeRanges k fmt ctl opa opb, r.1 % 8 = 0 ∧ r.1 + r.2 ≤ b.bytes

section
variable {k : PlaneKind} {x : RRR} {ops : Span → Word × Word} {s : State} {i : Iss} {b : Block}

/-- What a plane word looks at, once its lanes and its block are known. -/
theorem planeCause_eq (hI : i.I ≠ []) (hb : s.block? i.sp.block = some b) : planeCause k x ops s i =
    (let fmt := i.sp.v x.d.toNat (i.I.headD 0)
    let ctl := i.sp.s x.a.toNat
    if (i.I.any fun l => i.sp.v x.d.toNat l ≠ fmt) || !fmtAccepts k fmt then some .fmtdiv
    else if decide (b.tiles.length ≤ ctlTile ctl) || (k = .pdrb && ctlSeg ctl = 3) || (k = .pmmabp && ctlCount ctl ≠ 1) then some .accrange
    else if (planeRanges k fmt ctl (ops i.sp).1 (ops i.sp).2).any (fun r => r.1 % 8 ≠ 0 || decide (b.bytes < r.1 + r.2)) then some .deckrange
    else none) := by
  obtain ⟨l, ls, hl⟩ := List.exists_cons_of_ne_nil hI
  simp only [planeCause, hb, hl, List.map_cons, List.headD_cons, List.any_cons, List.any_map]
  rfl

theorem fmt_passes (hsame : FmtSame i.sp x i.I) (haccepts : fmtAccepts k (i.sp.v x.d.toNat (i.I.headD 0)) = true) :
    ((i.I.any fun l => i.sp.v x.d.toNat l ≠ i.sp.v x.d.toNat (i.I.headD 0)) ||
    !fmtAccepts k (i.sp.v x.d.toNat (i.I.headD 0))) = false := by
  have h1 : (i.I.any fun l => i.sp.v x.d.toNat l ≠ i.sp.v x.d.toNat (i.I.headD 0)) = false := by simpa [FmtSame] using hsame
  rw [h1, haccepts]; rfl

section
variable (hI : i.I ≠ []) (hb : s.block? i.sp.block = some b)
include hI hb

theorem planeCause_fmtdiv (h : ¬ (FmtSame i.sp x i.I ∧ fmtAccepts k (i.sp.v x.d.toNat (i.I.headD 0)) = true)) :
    planeCause k x ops s i = some .fmtdiv := by
  rw [planeCause_eq hI hb]
  refine if_pos ?_
  rw [Bool.or_eq_true, Bool.not_eq_true']
  by_cases hsame : FmtSame i.sp x i.I
  · exact .inr (by simpa [hsame] using h)
  · exact .inl (by simpa [FmtSame] using hsame)

variable (hsame : FmtSame i.sp x i.I) (haccepts : fmtAccepts k (i.sp.v x.d.toNat (i.I.headD 0)) = true)
include hsame haccepts

theorem planeCause_accrange (h : ¬ TileOk k (i.sp.s x.a.toNat) b) : planeCause k x ops s i = some .accrange := by
  rw [planeCause_eq hI hb]
  dsimp only
  rw [fmt_passes hsame haccepts, if_neg Bool.false_ne_true, if_pos]
  simp only [TileOk, not_and_or, not_not, not_lt] at h
  simpa [or_assoc] using h

variable (htile : TileOk k (i.sp.s x.a.toNat) b)
include htile

theorem planeCause_past : planeCause k x ops s i =
    if (planeRanges k (i.sp.v x.d.toNat (i.I.headD 0)) (i.sp.s x.a.toNat) (ops i.sp).1 (ops i.sp).2).any
        (fun r => r.1 % 8 ≠ 0 || decide (b.bytes < r.1 + r.2)) then some .deckrange
    else none := by
  rw [planeCause_eq hI hb]
  dsimp only
  rw [fmt_passes hsame haccepts, if_neg Bool.false_ne_true, if_neg]
  obtain ⟨hcount, hseg, hbypass⟩ := htile
  simp only [Bool.or_eq_true, Bool.and_eq_true, decide_eq_true_eq, not_or, not_le]
  exact ⟨⟨hcount, hseg⟩, hbypass⟩

theorem planeCause_deckrange (h : ¬ InDeck k (i.sp.v x.d.toNat (i.I.headD 0)) (i.sp.s x.a.toNat) (ops i.sp).1 (ops i.sp).2 b) :
    planeCause k x ops s i = some .deckrange := by
  rw [planeCause_past hI hb hsame haccepts htile]
  refine if_pos ?_
  simp only [InDeck, not_forall, not_and_or, not_le] at h
  obtain ⟨r, hr, hbad⟩ := h
  exact List.any_eq_true.2 ⟨r, hr, by simpa using hbad⟩

theorem planeCause_none (h : InDeck k (i.sp.v x.d.toNat (i.I.headD 0)) (i.sp.s x.a.toNat) (ops i.sp).1 (ops i.sp).2 b) :
    planeCause k x ops s i = none := by
  rw [planeCause_past hI hb hsame haccepts htile]
  refine if_neg ?_
  simpa [InDeck] using h

end
end

/-! A plane word as it issues. -/

section
variable {i : Instr} {k : PlaneKind} {x : RRR} {ops : Span → Word × Word} {s : State} {sp0 sp : Span} {I : List Nat} {a : Word} {c : Cause}

/-- A cause of a plane word is its trap. -/
theorem planeIssue_traps (h : Clear i s sp0 sp I a) (hwhole : I = sp.lanesIn (!·.ended)) (hc : planeCause k x ops s (At i sp I a) = some c) :
    planeIssue i k x ops s = .next { ((s.putSpan sp).takeTrap sp.id ⟨c, true, a, I⟩) with picked := none } := by
  have hbudget : ¬ ∃ n ∈ (shape i).uses.v, sp.budget ≤ n := fun ⟨n, hn, hle⟩ => absurd (h.budget n hn) (by omega)
  have hanswered : ¬ ∃ q ∈ sp.results, q.hits (shape i).uses I = true := fun ⟨q, hq, hhit⟩ => by simp [h.answered q hq] at hhit
  refine issue_cause h.toIssuing h.unlocked ?_
  rw [issueCause_own (by rintro ⟨hp, -⟩; cases hp) hbudget (fun hw => hw.2 hwhole) hanswered rfl]
  exact hc

/-- The operation that a plane word puts behind the fork. -/
def planeOpOf (k : PlaneKind) (sp : Span) (fmt : VWord) (ctl : Word) (ops : Word × Word) : PlaneOp :=
  { id := sp.seq, pier := sp.pier, span := sp.id, uid := sp.uid, blk := sp.block, kind := k, st := .drain, seq := sp.seq
    fmt := fmt, ctl := ctl, opa := ops.1, opb := ops.2, idx := sp.idx }

/-- With no cause, a slot free and no order held, the operation is behind the fork. -/
theorem planeIssue_goes (h : Clear i s sp0 sp I a) (hwhole : I = sp.lanesIn (!·.ended)) (hc : planeCause k x ops s (At i sp I a) = none)
    (hheld : sp.acqHeld = false) (hslots : (s.planeq.filter (·.uid = sp.uid)).length < 4) :
    planeIssue i k x ops s = .next (({ s with planeq := s.planeq ++ [planeOpOf k sp (sp.v x.d.toNat (I.headD 0)) (sp.s x.a.toNat) (ops sp)] }.putSpan
      { sp.onLanes I (fun ln => { ln with pc := a + 8 }) with
        seq := sp.seq + 1, planesAt := sp.planesAt ++ [sp.seq]
        checkOp := if k = PlaneKind.pmms ∨ k = PlaneKind.pacl then some sp.seq else sp.checkOp }).issued i (At i sp I a)) := by
  have hready : (!sp.acqHeld && decide ((s.planeq.filter (·.uid = sp.uid)).length < Config.spanSlots)) = true := by
    rw [hheld, decide_eq_true (show _ < Config.spanSlots from hslots)]; rfl
  have hhold : (if (decide (k = .pmms) || decide (k = .pacl)) = true then some sp.seq else sp.checkOp) =
      if k = .pmms ∨ k = .pacl then some sp.seq else sp.checkOp := by simp
  rw [← hhold]
  exact issue_clear h (by intro hp; cases hp) (fun _ => hwhole) rfl hc hready

/-- What the statement says of a plane word, of any that `planeIssue` gives its meaning. -/
theorem planeWord {opa opb : Word} {b : Block} (he : exec i s = planeIssue i k x ops s) (hops : ops sp = (opa, opb)) (h : Clear i s sp0 sp I a)
    (hwhole : I = sp.lanesIn (!·.ended)) (hb : s.block? sp.block = some b) :
    let fmt := sp.v x.d.toNat (I.headD 0)
    let ctl := sp.s x.a.toNat
    let traps := fun c => exec i s = .next { ((s.putSpan sp).takeTrap sp.id ⟨c, true, a, I⟩) with picked := none }
    (FmtSame sp x I → fmtAccepts k fmt = true → TileOk k ctl b → InDeck k fmt ctl opa opb b → sp.acqHeld = false →
      (s.planeq.filter (·.uid = sp.uid)).length < 4 →
      exec i s = .next (({ s with planeq := s.planeq ++ [planeOpOf k sp fmt ctl (opa, opb)] }.putSpan
        { sp.onLanes I (fun ln => { ln with pc := a + 8 }) with
          seq := sp.seq + 1, planesAt := sp.planesAt ++ [sp.seq]
          checkOp := if k = PlaneKind.pmms ∨ k = PlaneKind.pacl then some sp.seq else sp.checkOp }).issued i (At i sp I a))) ∧
    (¬ (FmtSame sp x I ∧ fmtAccepts k fmt = true) → traps .fmtdiv) ∧
    (FmtSame sp x I → fmtAccepts k fmt = true → ¬ TileOk k ctl b → traps .accrange) ∧
    (FmtSame sp x I → fmtAccepts k fmt = true → TileOk k ctl b → ¬ InDeck k fmt ctl opa opb b → traps .deckrange) := by
  have hI := select_ne_nil h.select
  have hopa : (ops sp).1 = opa := by rw [hops]
  have hopb : (ops sp).2 = opb := by rw [hops]
  subst hopa hopb
  dsimp only
  rw [he]
  exact ⟨fun hsame haccepts htile hdeck hheld hslots =>
      planeIssue_goes h hwhole (planeCause_none (i := At i sp I a) hI hb hsame haccepts htile hdeck) hheld hslots,
    fun hfmt => planeIssue_traps h hwhole (planeCause_fmtdiv (i := At i sp I a) hI hb hfmt),
    fun hsame haccepts htile => planeIssue_traps h hwhole (planeCause_accrange (i := At i sp I a) hI hb hsame haccepts htile),
    fun hsame haccepts htile hdeck => planeIssue_traps h hwhole (planeCause_deckrange (i := At i sp I a) hI hb hsame haccepts htile hdeck)⟩

end

/-! PSYNC. -/

/-- What PSYNC does to its span: held while an operation of it is on the plane, joined with them otherwise. -/
theorem psync_holds {s : State} {sp0 sp : Span} {I : List Nat} {a : Word} {x : RRR} (h : Clear (.psync x) s sp0 sp I a)
    (hwhole : I = sp.lanesIn (!·.ended)) :
    let moved := sp.onLanes I fun ln => { ln with pc := a + 8 }
    let busy := s.planeq.any fun o => decide (o.uid = sp.uid)
    exec (.psync x) s = .next ((s.putSpan { (if busy then moved else s.joinPlanes moved) with pHold := busy }).issued (.psync x) (At (.psync x) sp I a)) := by
  have he : exec (.psync x) s = execPsync x s := rfl
  rw [he]
  unfold execPsync
  exact issue_clear h (by intro hp; cases hp) (fun _ => hwhole) rfl rfl rfl

/-- The hold of PSYNC lasts as long as an operation of its span is on the plane. -/
theorem settleHolds_pHold {t : State} {u : Span} (hu : t.span? u.id = some u) (hhold : u.pHold = true) :
    ((t.settleHolds u.id).span? u.id).map (·.pHold) = some (t.planeq.any fun o => decide (o.uid = u.uid)) := by
  unfold State.settleHolds
  simp only [hu]
  rw [span?_onSpan _ _ _ _ (by intro v; dsimp only; split <;> rfl), if_pos rfl, hu]
  simp [hhold]

/-- Settles O24: each plane word issues by `planeIssue` with its operands; PSYNC holds its span or joins it. -/
theorem planeWords : Obligations.plane_words := by
  refine ⟨fun i s sp0 sp I a x k opa opb hi h hwhole => ?word, fun s sp0 sp I a x h hwhole => ⟨psync_holds h hwhole, fun t u => settleHolds_pHold⟩⟩
  intro fmt ctl same tileOk inDeck traps b hb
  have holds {ops : Span → Word × Word} (he : exec i s = planeIssue i k x ops s) (hops : ops sp = (opa, opb)) := planeWord he hops h hwhole hb
  rcases hi with ⟨rfl, hbp, rfl, rfl, rfl⟩ | ⟨rfl, hbp, rfl, rfl, rfl⟩ | ⟨rfl, rfl, rfl, rfl⟩ | ⟨rfl, rfl, rfl, rfl⟩ | ⟨rfl, rfl, rfl, rfl⟩ |
    ⟨rfl, rfl, rfl, rfl⟩ | ⟨rfl, rfl, rfl, rfl⟩ | ⟨rfl, rfl, rfl, rfl⟩ | ⟨rfl, rfl, rfl, rfl⟩
  · exact holds ((rfl : _ = execPmma x s).trans (if_neg (by simp [hbp]))) rfl
  · exact holds ((rfl : _ = execPmma x s).trans (if_pos hbp)) rfl
  · exact holds (rfl : _ = execPmms x s) rfl
  · exact holds (rfl : _ = execPlma x s) rfl
  · exact holds (rfl : _ = execPacz x s) rfl
  · exact holds (rfl : _ = execPdrn x s) rfl
  · exact holds (rfl : _ = execPdrb x s) rfl
  · exact holds (rfl : _ = execPacs x s) rfl
  · exact holds (rfl : _ = execPacl x s) rfl

end Sys2Proof.Machine
end

section
/-! SUPPORT. The ends of spans, blocks and launches, and the obligation about them (R32, R289, R310). -/

namespace Sys2Proof.Machine

/-! What a barrier whose phase ends leaves as it was. -/

/-- Only the barriers, the counters and the spans differ, and of the spans no unique number. -/
structure State.KeepsUids (s t : State) : Prop where
  rest : { t with tsc := s.tsc, bars := s.bars, spans := s.spans, saved := s.saved } = s
  uids : t.spans.map Span.uid = s.spans.map Span.uid

namespace State.KeepsUids

variable {s t u : State}

theorem refl (s : State) : s.KeepsUids s := ⟨rfl, rfl⟩

theorem trans (h : s.KeepsUids t) (g : t.KeepsUids u) : s.KeepsUids u := by
  refine ⟨?_, g.uids.trans h.uids⟩
  calc { u with tsc := s.tsc, bars := s.bars, spans := s.spans, saved := s.saved }
      = { { u with tsc := t.tsc, bars := t.bars, spans := t.spans, saved := t.saved } with
          tsc := s.tsc, bars := s.bars, spans := s.spans, saved := s.saved } := rfl
    _ = { t with tsc := s.tsc, bars := s.bars, spans := s.spans, saved := s.saved } := by rw [g.rest]
    _ = s := h.rest

theorem foldl {α : Type} {f : State → α → State} (hf : ∀ t a, State.KeepsUids t (f t a)) (l : List α) (s : State) : s.KeepsUids (l.foldl f s) := by
  induction l generalizing s with
  | nil => exact refl s
  | cons a r ih => exact (hf s a).trans (ih _)

end State.KeepsUids

theorem crossed_keepsUids (s : State) (die : Nat) : s.KeepsUids (s.crossed die) := by
  obtain ⟨ts, hts⟩ := crossed_eq s die
  rw [hts]
  exact ⟨rfl, rfl⟩

theorem mapLanes_keepsUids (s : State) (f : Span → Nat → Lane → Lane) : s.KeepsUids (s.mapLanes f) :=
  ⟨rfl, by simp [State.mapLanes, Function.comp_def]⟩

/-- What a span hears of a barrier leaves its number. -/
theorem hear_uid (c d : Prop) [Decidable c] [Decidable d] (sp a b : Span) (ha : a.uid = sp.uid) (hb : b.uid = sp.uid) :
    (if c then sp else if d then a else b).uid = sp.uid := by
  split
  · rfl
  · split <;> assumption

theorem wakeBar_keepsUids (s : State) (key : BarKey) (phase : Option Nat) (view : View) : s.KeepsUids (s.wakeBar key phase false view) := by
  unfold State.wakeBar
  simp only [Bool.false_eq_true, if_false]
  refine State.KeepsUids.trans ?tell (mapLanes_keepsUids _ _)
  case tell =>
    have hcross : s.KeepsUids (if key.blk.isSome = true then s else ((s.spans ++ s.saved).filter fun sp =>
        sp.lanes.any fun ln => (waitsAt key phase ln.wait).isSome || (waitsAt key phase ln.kept).isSome).foldl (fun t sp => t.crossed sp.die) s) := by
      split
      · exact .refl s
      · exact .foldl (fun t (sp : Span) => crossed_keepsUids t sp.die) _ s
    refine ⟨hcross.rest, ?_⟩
    simp only [List.map_map]
    exact List.map_congr_left fun sp _ => hear_uid _ _ sp _ _ rfl rfl

theorem testBar_keepsUids (s : State) (key : BarKey) : s.KeepsUids (s.testBar key) := by
  unfold State.testBar
  dsimp only
  split
  · split
    · exact .trans (t := s.putBar _) ⟨rfl, rfl⟩ (wakeBar_keepsUids _ _ _ _)
    · exact .refl s
  · exact .refl s

theorem lowerBars_keepsUids (s : State) (b : Nat × Nat) : s.KeepsUids (s.lowerBars b) := by
  refine .foldl (fun t n => ?_) _ s
  dsimp only
  split
  · exact .trans (t := t.putBar _) ⟨rfl, rfl⟩ (testBar_keepsUids _ _)
  · exact .refl t

/-! A span retires (R32). -/

/-- The state without a span, its launch knowing of what it did: before the barriers of its block fall. -/
def State.without (s : State) (sp : Span) : State :=
  (({ s with
      spans := s.spans.filter (·.uid ≠ sp.uid), flows := s.flows.filter (·.uid ≠ sp.uid)
      fmsgs := s.fmsgs.filter fun m => m.uid ≠ sp.uid || m.kind = .drop true } : State).onLaunch sp.launch
    fun l => { l with ended := joinViews l.ended (s.handing sp sp.seq true true) }).onBlock sp.block
    fun k => { k with live := k.live.filter (· ≠ sp.uid) }

section
variable {s : State} {sp : Span} (hs : s.span? sp.id = some sp) (hrun : sp.status = .running)
include hs hrun

theorem execSpanRetire_goes (hended : sp.allEnded = true) (hquiet : s.quiet sp = true) (hdue : sp.due = false) (htrap : sp.trap = none)
    (hpreempt : sp.preempt = none) (hrefs : ∀ r ∈ s.refs, r.owner ≠ .span sp.uid) :
    exec (.spanRetire sp.id) s =
      .next (((s.without sp).lowerBars sp.block).onLaunch sp.launch fun l => { l with retired := l.retired + 1 }) := by
  have he : exec (.spanRetire sp.id) s = execSpanRetire sp.id s := rfl
  rw [he]
  unfold execSpanRetire
  simp only [hs, State.retire, hrun, hended, hquiet, hdue, htrap, hpreempt, Option.isNone_none, Bool.not_false, Bool.and_self, if_true]
  rw [dropAll_unowned (by exact hrefs)]
  rfl

theorem execSpanRetire_stays (h : sp.allEnded = false ∨ s.quiet sp = false ∨ sp.due = true) : exec (.spanRetire sp.id) s = .next s := by
  have he : exec (.spanRetire sp.id) s = execSpanRetire sp.id s := rfl
  have hno : (sp.allEnded && s.quiet sp && !sp.due && sp.trap.isNone && sp.preempt.isNone) = false := by
    rcases h with h | h | h <;> simp [h]
  rw [he]
  unfold execSpanRetire
  simp only [hs, State.retire, hrun, hno, Bool.false_eq_true, if_false]

end

theorem without_spans {s : State} {sp t : Span} (h : t ∈ (s.without sp).spans) : t.uid ≠ sp.uid := by
  have hmem : t ∈ s.spans.filter (·.uid ≠ sp.uid) := h
  simpa using (List.mem_filter.1 hmem).2

theorem without_blocks {s : State} {sp : Span} {k : Block} (hk : k ∈ (s.without sp).blocks) (hb : (k.launch, k.idx) = sp.block) : sp.uid ∉ k.live := by
  have hmem : k ∈ s.blocks.map fun k => if k.launch = sp.block.1 && k.idx = sp.block.2 then { k with live := k.live.filter (· ≠ sp.uid) } else k := hk
  obtain ⟨k0, -, rfl⟩ := List.mem_map.1 hmem
  by_cases hkey : (decide (k0.launch = sp.block.1) && decide (k0.idx = sp.block.2)) = true
  · rw [if_pos hkey]
    simp
  · rw [if_neg hkey] at hb
    exact absurd (by simp [← hb]) hkey

/-- A span that retires is gone: what the state after it has. -/
theorem retired_spec (s : State) (sp : Span) :
    let u := ((s.without sp).lowerBars sp.block).onLaunch sp.launch fun l => { l with retired := l.retired + 1 }
    (∀ t ∈ u.spans, t.uid ≠ sp.uid) ∧ u.mem = s.mem ∧ (∀ k ∈ u.blocks, (k.launch, k.idx) = sp.block → sp.uid ∉ k.live) ∧
      u.launches = s.launches.map fun l =>
        if l.id = sp.launch then { l with retired := l.retired + 1, ended := joinViews l.ended (s.handing sp sp.seq true true) } else l := by
  obtain ⟨hrest, huids⟩ := lowerBars_keepsUids (s.without sp) sp.block
  generalize (s.without sp).lowerBars sp.block = v at hrest huids
  have hmem := congrArg State.mem hrest
  have hblocks := congrArg State.blocks hrest
  have hlaunches := congrArg State.launches hrest
  refine ⟨fun t ht => ?_, hmem, fun k hk => without_blocks (by rw [← hblocks]; exact hk), ?_⟩
  · have huid : t.uid ∈ (s.without sp).spans.map Span.uid := huids ▸ List.mem_map_of_mem ht
    obtain ⟨t0, ht0, hid⟩ := List.mem_map.1 huid
    exact hid ▸ without_spans ht0
  · have hv : v.launches = s.launches.map fun l =>
        if l.id = sp.launch then { l with ended := joinViews l.ended (s.handing sp sp.seq true true) } else l := hlaunches
    change v.launches.map (fun l => if l.id = sp.launch then { l with retired := l.retired + 1 } else l) = _
    rw [hv, List.map_map]
    refine List.map_congr_left fun l _ => ?_
    by_cases hl : l.id = sp.launch <;> simp [hl]

/-! A block retires (R32). -/

/-- A span or an engine operation of the block is left. -/
def State.BlockBusy (s : State) (b : Nat × Nat) : Prop :=
  (∃ t ∈ s.spans ++ s.saved, t.block = b) ∨ (∃ o ∈ s.planeq, o.blk = b) ∨ ∃ r ∈ s.deckq, r.blk = b

theorem mergeAll_unshadowed {s : State} (h : s.shadows = []) (f : Shadow → Bool) : s.mergeAll f = s := by
  unfold State.mergeAll
  generalize List.range Config.dies = ds
  induction ds with
  | nil => rfl
  | cons d ds ih => rw [List.foldl_cons, h, List.filter_nil, List.foldl_nil, ih]

section
variable {s : State} {launch blk : Nat} (hshadows : s.shadows = [])
include hshadows

theorem busy_iff : ((s.spans.any (·.block = (launch, blk)) || s.saved.any (·.block = (launch, blk)) || s.planeq.any (·.blk = (launch, blk)) ||
    s.deckq.any (·.blk = (launch, blk)) || s.mergeWaits (launch, blk)) = true) ↔ s.BlockBusy (launch, blk) := by
  have hwaits : s.mergeWaits (launch, blk) = false := by simp [State.mergeWaits, hshadows]
  simp only [hwaits, State.BlockBusy, Bool.or_false, Bool.or_eq_true, List.any_eq_true, decide_eq_true_eq, List.mem_append, or_and_right, exists_or, or_assoc]

theorem execBlockRetire_stays (h : s.BlockBusy (launch, blk)) : exec (.blockRetire launch blk) s = .next s := by
  have he : exec (.blockRetire launch blk) s = execBlockRetire launch blk s := rfl
  rw [he]
  exact if_pos ((busy_iff hshadows).2 h)

theorem execBlockRetire_goes (h : ¬ s.BlockBusy (launch, blk)) : exec (.blockRetire launch blk) s = .next { s with
    launches := (s.onLaunch launch fun l => { l with ended := joinViews l.ended (((s.block? (launch, blk)).map Block.merged).getD []) }).launches
    blocks := s.blocks.filter fun k => !(k.launch = launch && k.idx = blk)
    bars := s.bars.filter (·.key.blk ≠ some blk) ++ s.bars.filter fun n => n.key.blk = some blk && n.key.launch ≠ launch } := by
  have he : exec (.blockRetire launch blk) s = execBlockRetire launch blk s := rfl
  have hmerge : s.mergeBlock (launch, blk) = s := mergeAll_unshadowed hshadows _
  rw [he]
  unfold execBlockRetire
  dsimp only
  rw [if_neg (fun hb => h ((busy_iff hshadows).1 hb)), hmerge]
  rfl

end

/-! A launch completes (R289, R310). -/

section
variable {s : State} {l : Launch} (hl : s.launch? l.id = some l)
include hl

theorem execLaunchComplete_eq : exec (.launchComplete l.id) s = .next (s.complete l) := by
  have he : exec (.launchComplete l.id) s = execLaunchComplete l.id s := rfl
  rw [he]
  unfold execLaunchComplete
  simp only [hl]

theorem execLaunchComplete_stays {cx : Context} (hcx : s.ctx? l.ctx = some cx) (h : l.done s = false) : exec (.launchComplete l.id) s = .next s := by
  rw [execLaunchComplete_eq hl]
  simp [State.complete, hcx, h]

end

/-- Nothing keeps a launch that is done: its context runs and no line that it merges is held. -/
theorem complete_open {s : State} {l : Launch} {cx : Context} (hrun : cx.status = .running) (hdone : l.done s = true)
    (hfree : ∀ h ∈ s.shadows, h.part = l.part → s.lineHeld h.line = false) :
    (!l.done s || decide (cx.status ≠ .running) || s.shadows.any (fun h => h.part = l.part && s.lineHeld h.line)) = false := by
  have hheld : s.shadows.any (fun h => h.part = l.part && s.lineHeld h.line) = false := by simpa using hfree
  simp [hdone, hrun, hheld]

theorem done_eq_false {s : State} {l : Launch} (h : l.unplaced = true ∨ l.records ≠ 0 ∨ (∃ t ∈ s.spans, t.launch = l.id) ∨ ∃ k ∈ s.blocks, k.launch = l.id) :
    l.done s = false := by
  unfold Launch.done
  rcases h with h | h | ⟨t, ht, hid⟩ | ⟨k, hk, hid⟩
  · simp [h]
  · simp [h]
  · have hany : s.spans.any (·.launch = l.id) = true := List.any_eq_true.2 ⟨t, ht, by simpa using hid⟩
    simp [hany]
  · have hany : s.blocks.any (·.launch = l.id) = true := List.any_eq_true.2 ⟨k, hk, by simpa using hid⟩
    simp [hany]

/-- Settles O47: the three ends, each by what its transition does. -/
theorem ends : Obligations.ends := by
  refine fun s => ⟨fun sp hs hrun => ⟨fun hended hquiet hdue htrap hpreempt hrefs => ?span, execSpanRetire_stays hs hrun⟩,
    fun launch blk hshadows => ⟨execBlockRetire_stays hshadows, fun hbusy => ?block⟩, fun l cx hl hcx hrun => ⟨fun hdone hfree => ?launch, fun hnote => ?note,
      fun h => execLaunchComplete_stays hl hcx (done_eq_false h)⟩⟩
  case span => exact ⟨_, execSpanRetire_goes hs hrun hended hquiet hdue htrap hpreempt hrefs, retired_spec s sp⟩
  case block =>
    refine ⟨_, execBlockRetire_goes hshadows hbusy, rfl, fun k => ?_, fun n => ?_⟩
    · simp [List.mem_filter, imp_iff_not_or]
    · simp only [List.mem_append, List.mem_filter]
      by_cases hblk : n.key.blk = some blk <;> simp [hblk]
  case launch =>
    have hopen := complete_open hrun hdone hfree
    rw [execLaunchComplete_eq hl]
    unfold State.complete
    simp only [hcx, hopen, Bool.false_eq_true, if_false]
    refine ⟨fun h0 => by simp only [h0, if_true], fun s1 pages h0 hwrite => ?_, fun s1 c pages h0 hwrite => ?_⟩
    all_goals simp only [h0, if_false, hwrite]
  case note => simp [State.noteDone, hnote]

end Sys2Proof.Machine
end

section
/-! SUPPORT. The point of a save: when it is found, and the transitions of a pre-emption (R43, R44). -/

namespace Sys2Proof.Machine

/-! Where a span stands at its save point (R43, R46). -/

/-- Every lane that has not ended is ready, at one address and one depth (R43). -/
theorem reconverged_iff (t : Span) : t.reconverged = true ↔ ∃ pc depth, ∀ l, l < 32 → (t.lane l).st.ended = false →
    (t.lane l).st = .ready ∧ (t.lane l).pc = pc ∧ (t.lane l).depth = depth := by
  have hmem {l : Nat} : l ∈ t.lanesIn (!·.ended) ↔ l < 32 ∧ (t.lane l).st.ended = false := by rw [mem_lanesIn, Bool.not_eq_true']
  simp only [Span.reconverged, List.all_eq_true, Bool.and_eq_true, decide_eq_true_eq]
  constructor
  · exact fun h => ⟨_, _, fun l hl hst => by obtain ⟨⟨hready, hpc⟩, hdepth⟩ := h l (hmem.2 ⟨hl, hst⟩); exact ⟨hready, hpc, hdepth⟩⟩
  · rintro ⟨pc, depth, h⟩ l hl
    have hhead : (t.lanesIn (!·.ended)).headD 0 ∈ t.lanesIn (!·.ended) := by
      obtain ⟨k, ks, hk⟩ := List.exists_cons_of_ne_nil (List.ne_nil_of_mem hl)
      rw [hk]; exact .head _
    obtain ⟨hlt, hst⟩ := hmem.1 hl
    obtain ⟨hlt0, hst0⟩ := hmem.1 hhead
    obtain ⟨hready, hpc, hdepth⟩ := h l hlt hst
    obtain ⟨-, hpc0, hdepth0⟩ := h _ hlt0 hst0
    exact ⟨⟨hready, hpc.trans hpc0.symm⟩, hdepth.trans hdepth0.symm⟩

/-- Some lane is eligible. -/
def Span.Eligible (t : Span) : Prop := ∃ l, l < 32 ∧ ((t.lane l).st = .ready ∨ (t.lane l).st = .deferred)

theorem noEligible_false_iff (t : Span) : t.noEligible = false ↔ t.Eligible := by
  rw [Bool.eq_false_iff, ne_eq, noEligible_iff]
  simp only [Span.Eligible, not_forall, not_and_or, not_not, exists_prop]

/-- The point of a requested span that runs and whose trap, if one is due, cannot be taken yet. -/
theorem savePoint_eq {t : Span} {d : Nat} {forced : Bool} (hpreempt : t.preempt = some (d, forced)) (hrun : t.status = .running)
    (htrap : t.trap = none) (hdue : t.due = false ∨ t.Eligible) : t.savePoint =
      match t.point with
      | some full => some full
      | none => if forced then some true else if t.reconverged then some false else if t.noEligible then some true else none := by
  have hno : (t.due && t.noEligible) = false := by
    rcases hdue with h | h
    · rw [h, Bool.false_and]
    · rw [(noEligible_false_iff t).2 h, Bool.and_false]
  simp only [Span.savePoint, hpreempt, hrun, htrap, hno, ne_eq, not_true_eq_false, decide_false, Option.isSome_none, Bool.or_self,
    Bool.false_eq_true, if_false] <;> rfl

theorem held_of_savePoint {t : Span} (h : t.savePoint ≠ none) : t.held = true := by
  simp [Span.held, Option.isSome_iff_ne_none.2 h]

/-! The spans after the fault records that a span has kept back are written (R45). -/

theorem putDrafts_logs (s : State) (id : Nat) : State.Each Span.Logs s (s.putDrafts id) := by
  unfold State.putDrafts
  split
  · exact .refl Span.Logs.refl s
  · split
    · exact .refl Span.Logs.refl s
    · rename_i sp _ _ cx _
      have hclear : State.Each Span.Logs s (s.onSpan id fun t => { t with drafts := [] }) :=
        .onSpan Span.Logs.refl (fun _ => rfl) fun _ => ⟨fun _ => rfl, fun _ h => h, rfl⟩
      refine hclear.trans Span.Logs.trans (.foldl Span.Logs.refl Span.Logs.trans (fun t r => ?_) _ _)
      have hwrite := Span.Logs.each_of_spares (deviceWrite_spares t (some sp.pier) cx (s.recordPlace sp cx r.1) r.2)
      dsimp only
      split <;> rename_i heq <;> rw [heq] at hwrite
      · exact hwrite.trans Span.Logs.trans (.of_spans Span.Logs.refl (spans_announceAt _ _ _ _ _ _ _))
      · refine State.Each.trans Span.Logs.trans ?_ (.of_spans Span.Logs.refl (notify_spec _ _ _ _ _).1)
        refine hwrite.trans Span.Logs.trans (.onSpan Span.Logs.refl (fun _ => ?_) fun _ => ?_)
        · rfl
        · exact ⟨fun _ => rfl, fun _ h => h, rfl⟩
      · exact hwrite

theorem putDrafts_none {s : State} {sp : Span} (hs : s.span? sp.id = some sp) (h : sp.drafts = []) : (s.putDrafts sp.id).mem = s.mem := by
  unfold State.putDrafts
  simp only [hs]
  split
  · rfl
  · simp only [h, List.foldl_nil]
    rfl

theorem Span.Logs.keepsRegs {sp sp' : Span} (h : sp.Logs sp') : KeepsRegs sp sp' :=
  ⟨by have hf := congrArg Span.vregs h.rest; exact hf, by have hf := congrArg Span.sregs h.rest; exact hf⟩

/-- A span that is saved stands in its slot, stopped, without its reservations, its registers as they were. -/
theorem saveSpan_spec {s : State} {sp : Span} (hs : s.span? sp.id = some sp) (full : Bool) :
    ∃ sp', (s.saveSpan sp full).span? sp.id = some sp' ∧ sp'.status = .saved full ∧ sp'.preempt = none ∧ sp'.point = none ∧ sp'.resv = none ∧
      (∀ l, (sp'.lane l).resv = none) ∧ KeepsRegs sp sp' := by
  obtain ⟨t, ht, hlogs⟩ := putDrafts_logs s sp.id sp.id sp hs
  refine ⟨_, span?_onSpan_self _ (fun _ => rfl) ht, rfl, rfl, rfl, rfl, fun l => ?_, ⟨hlogs.keepsRegs.vectors, hlogs.keepsRegs.scalars⟩⟩
  rw [Span.lane, lane_map _ _ rfl]

/-! The transitions of a pre-emption (R43, R44). -/

section
variable {s : State} {sp : Span} (hs : s.span? sp.id = some sp)
include hs

theorem execPreemptionRequest_eq {cx : Context} (hrun : sp.status = .running) (hcx : s.ctx? sp.ctx = some cx) (hp : sp.uid ∈ cx.pending) :
    exec (.preemptionRequest sp.id) s = .next ((s.onCtx sp.ctx fun c => { c with
       pending := c.pending.filter fun k => decide (k ≠ sp.uid) }).onSpan sp.id fun t =>
         ({ t with preempt := some ((s.time sp.die).toNat + 1000 * cx.preto.toNat, decide (cx.preto = 0)) } : Span).keepPoint) := by
  have he : exec (.preemptionRequest sp.id) s = execPreemptionRequest sp.id s := rfl
  have hid : cx.id = sp.ctx := by simpa using List.find?_some hcx
  have hcontains : cx.pending.contains sp.uid = true := by simpa using hp
  rw [he]
  simp only [execPreemptionRequest, hs, hcx, hcontains, hrun, hid, Bool.not_true, ne_eq, not_true_eq_false, decide_false, Bool.or_self,
    Bool.false_eq_true, if_false]

theorem execPreemptionTimeout_eq {d : Nat} (hpreempt : sp.preempt = some (d, false)) : exec (.preemptionTimeout sp.id) s =
    .next (if d ≤ (s.time sp.die).toNat then s.onSpan sp.id fun t => ({ t.keepPoint with preempt := some (d, true) } : Span).keepPoint else s) := by
  have he : exec (.preemptionTimeout sp.id) s = execPreemptionTimeout sp.id s := rfl
  rw [he]
  simp only [execPreemptionTimeout, hs, hpreempt, decide_eq_true_eq]

theorem execPreemptionSave_none (h : sp.savePoint = none) : exec (.preemptionSave sp.id) s = .next s.trySaves := by
  have he : exec (.preemptionSave sp.id) s = execPreemptionSave sp.id s := rfl
  rw [he]
  simp only [execPreemptionSave, hs, h]

theorem execPreemptionSave_some {full : Bool} (h : sp.savePoint = some full) : exec (.preemptionSave sp.id) s =
    if s.saveReady sp then .next (s.saveSpan sp full).trySaves else .next (s.onSpan sp.id Span.keepPoint) := by
  have he : exec (.preemptionSave sp.id) s = execPreemptionSave sp.id s := rfl
  rw [he]
  simp only [execPreemptionSave, hs, h]

end

/-- A requested span from its request to its save (R43, R44). -/
theorem preemption_steps (s : State) (sp : Span) (cx : Context) (hs : s.span? sp.id = some sp) (hrun : sp.status = .running)
    (hcx : s.ctx? sp.ctx = some cx) :
    let now := (s.time sp.die).toNat
    (sp.uid ∈ cx.pending → exec (.preemptionRequest sp.id) s = .next ((s.onCtx sp.ctx fun c => { c with
      pending := c.pending.filter fun k => decide (k ≠ sp.uid) }).onSpan sp.id fun t =>
        ({ t with preempt := some (now + 1000 * cx.preto.toNat, decide (cx.preto = 0)) } : Span).keepPoint)) ∧
    (∀ d, sp.preempt = some (d, false) →
      (d ≤ now → exec (.preemptionTimeout sp.id) s = .next (s.onSpan sp.id fun t => ({ t.keepPoint with preempt := some (d, true) } : Span).keepPoint)) ∧
      (now < d → exec (.preemptionTimeout sp.id) s = .next s)) ∧
    (sp.savePoint = none → exec (.preemptionSave sp.id) s = .next s.trySaves) ∧
    (∀ full, sp.savePoint = some full →
      (s.saveReady sp = true → exec (.preemptionSave sp.id) s = .next (s.saveSpan sp full).trySaves) ∧
      (s.saveReady sp = false → exec (.preemptionSave sp.id) s = .next (s.onSpan sp.id Span.keepPoint))) ∧
    ∀ full, ∃ sp', (s.saveSpan sp full).span? sp.id = some sp' ∧ sp'.status = .saved full ∧ sp'.preempt = none ∧ sp'.point = none ∧ sp'.resv = none ∧
      (∀ l, (sp'.lane l).resv = none ∨ sp.lanes.length ≤ l) ∧ KeepsRegs sp sp' ∧ (sp.drafts = [] → (s.saveSpan sp full).mem = s.mem) := by
  refine ⟨execPreemptionRequest_eq hs hrun hcx, fun d hd => ⟨fun hlate => ?_, fun hearly => ?_⟩, execPreemptionSave_none hs,
    fun full hfull => ⟨fun hready => ?_, fun hbusy => ?_⟩, fun full => ?_⟩
  · rw [execPreemptionTimeout_eq hs hd, if_pos hlate]
  · rw [execPreemptionTimeout_eq hs hd, if_neg (by omega)]
  · rw [execPreemptionSave_some hs hfull, if_pos hready]
  · rw [execPreemptionSave_some hs hfull, if_neg (by simp [hbusy])]
  · obtain ⟨sp', hthere, hstatus, hpreempt, hpoint, hresv, hlanes, hregs⟩ := saveSpan_spec hs full
    exact ⟨sp', hthere, hstatus, hpreempt, hpoint, hresv, fun l => .inl (hlanes l), hregs, putDrafts_none hs⟩

/-- The point of a span, by what was asked of it and where its lanes stand (R43). -/
theorem savePoint_cases (t : Span) : t.keepPoint = { t with point := t.savePoint } ∧ (t.preempt = none → t.savePoint = none) ∧
    (t.savePoint ≠ none → t.held = true) ∧
    let eligible := ∃ l, l < 32 ∧ ((t.lane l).st = .ready ∨ (t.lane l).st = .deferred)
    let one := ∃ pc depth, ∀ l, l < 32 → (t.lane l).st.ended = false → (t.lane l).st = .ready ∧ (t.lane l).pc = pc ∧ (t.lane l).depth = depth
    ∀ d forced, t.preempt = some (d, forced) → t.status = .running → t.trap = none → t.due = false ∨ eligible →
      (∀ full, t.point = some full → t.savePoint = some full) ∧
      (t.point = none → (forced = true → t.savePoint = some true) ∧ (forced = false → (one → t.savePoint = some false) ∧
        (¬ one → ¬ eligible → t.savePoint = some true) ∧ (¬ one → eligible → t.savePoint = none))) := by
  refine ⟨rfl, fun h => by simp [Span.savePoint, h], held_of_savePoint, fun d forced hpreempt hrun htrap hdue => ?_⟩
  have hpoint := savePoint_eq hpreempt hrun htrap hdue
  have hnone (h : t.point = none) (hforced : forced = false) : t.savePoint =
      if t.reconverged then some false else if t.noEligible then some true else none := by
    simp [hpoint, h, hforced]
  refine ⟨fun full h => by simp [hpoint, h], fun h => ⟨fun hforced => by simp [hpoint, h, hforced], fun hforced => ⟨fun hone => ?_, fun hone helig => ?_, fun hone helig => ?_⟩⟩⟩
  · rw [hnone h hforced, if_pos ((reconverged_iff t).2 hone)]
  · rw [hnone h hforced, if_neg (mt (reconverged_iff t).1 hone), if_pos]
    exact Bool.eq_true_of_not_eq_false (mt (noEligible_false_iff t).1 helig)
  · rw [hnone h hforced, if_neg (mt (reconverged_iff t).1 hone), if_neg]
    rw [(noEligible_false_iff t).2 helig]
    exact Bool.false_ne_true

end Sys2Proof.Machine
end

section
/-! SUPPORT. A span from its save record: the slot that it comes back to, and what its record gives it (R45, R317). -/

namespace Sys2Proof.Machine

/-! The device's own reads leave every span in its slot. -/

/-- The spans stand in the same slots, in the same order. -/
def State.SameIds (s t : State) : Prop := t.spans.map Span.id = s.spans.map Span.id

namespace State.SameIds

variable {s t u : State}

theorem refl (s : State) : s.SameIds s := rfl

theorem trans (h : s.SameIds t) (g : t.SameIds u) : s.SameIds u := Eq.trans g h

theorem of_spans (h : t.spans = s.spans) : s.SameIds t := congrArg (List.map Span.id) h

theorem of_map {g : Span → Span} (hg : ∀ sp, (g sp).id = sp.id) (h : t.spans = s.spans.map g) : s.SameIds t := by
  rw [State.SameIds, h, List.map_map]
  exact List.map_congr_left fun sp _ => hg sp

theorem foldl {α : Type} {f : State → α → State} (hf : ∀ t a, State.SameIds t (f t a)) (l : List α) (s : State) : s.SameIds (l.foldl f s) := by
  induction l generalizing s with
  | nil => exact refl s
  | cons a r ih => exact (hf s a).trans (ih _)

theorem span?_none (h : s.SameIds t) {id : Nat} (hs : ∀ sp ∈ s.spans, sp.id ≠ id) : t.span? id = none := by
  refine List.find?_eq_none.2 fun sp hsp => ?_
  obtain ⟨sp0, hsp0, hid⟩ := List.mem_map.1 (h ▸ List.mem_map_of_mem hsp : sp.id ∈ s.spans.map Span.id)
  simpa [← hid] using hs sp0 hsp0

end State.SameIds

theorem poke_sameIds (s : State) (k : Nat) (bs : List Byte) : s.SameIds (s.poke k bs) := by
  unfold State.poke
  split
  · exact .refl s
  · refine .trans (t := (s.write k bs).written (lineOf k) (lineOf (k + bs.length - 1))) ?_ (.of_spans rfl)
    exact .of_map (g := fun sp => sp.seesWrite _ _ (s.time sp.die).toNat) (fun _ => rfl) rfl

theorem portsFree_sameIds (s : State) (part k n : Nat) : s.SameIds (s.portsFree part k n) := by
  unfold State.portsFree
  split
  · exact .refl s
  · refine .foldl (fun t i => ?_) _ s
    unfold State.portFrees
    dsimp only
    split
    · exact .refl t
    · split
      · exact .refl t
      · exact .of_map (fun sp => by split <;> rfl) rfl

theorem walk_sameIds (s : State) (pier : Option Nat) (cx : Context) (va : Nat) (need : Need) : s.SameIds (s.walk pier cx va need).1 := by
  unfold State.walk
  split
  · exact .refl s
  · split
    · split
      · split
        · exact (poke_sameIds s _ _).trans (.of_spans rfl)
        · exact .refl s
      · split
        · exact (poke_sameIds s _ _).trans (.of_spans rfl)
        · exact poke_sameIds s _ _
    · exact .refl s

theorem lookPages_sameIds (s : State) (pier : Option Nat) (cx : Context) (need : Need) (ps : List (Nat × Nat)) :
    s.SameIds (s.lookPages pier cx need ps).1 := by
  induction ps generalizing s with
  | nil => exact .refl s
  | cons p r ih =>
    have hseek : s.SameIds (s.seek pier cx p.1 need).1 := by
      unfold State.seek
      split
      exacts [.refl s, walk_sameIds s pier cx p.1 need]
    unfold State.lookPages
    split
    · exact .refl s
    · exact hseek.trans (ih _)

theorem checkPages_sameIds (s : State) (pier : Option Nat) (cx : Context) (need : Need) (ps : List (Nat × Nat)) :
    s.SameIds (s.checkPages pier cx need ps).1 := by
  have h := lookPages_sameIds s pier cx need ps
  unfold State.checkPages
  split <;> rename_i heq <;> rw [heq] at h <;> exact h

theorem deviceRead_sameIds (s : State) (pier : Option Nat) (cx : Context) (va : Word) (len : Nat) : s.SameIds (s.deviceRead pier cx va len).1 := by
  have h := checkPages_sameIds s pier cx { rd := true } (pagePieces va.toNat len)
  unfold State.deviceRead
  split <;> rename_i heq <;> rw [heq] at h
  · exact h
  · split
    · exact h
    · refine h.trans (.foldl (fun t k => ?_) _ _)
      exact (portsFree_sameIds t _ _ _).trans (.of_spans rfl)

/-- Room on its pier for a span means that its slot is free (R363). -/
theorem roomFor_free {s : State} {k : Block} {sp : Span} (h : s.roomFor k [sp] = true) (hpier : sp.pier = k.pier) : ∀ t ∈ s.spans, t.id ≠ sp.id := by
  intro t ht hid
  have hslot : (!(s.room k.pier).used.any fun u => decide (u.1 = sp.slot)) = true := by
    simp only [State.roomFor, Bool.and_eq_true, List.all_cons, List.all_nil] at h
    exact h.1.1.1
  have hused : (t.slot, t.budget) ∈ (s.room k.pier).used := by
    have hat : t.pier = k.pier := by rw [← hpier, Span.pier, Span.pier, hid]
    exact List.mem_map.2 ⟨t, List.mem_filter.2 ⟨ht, by simpa using hat⟩, rfl⟩
  rw [Bool.not_eq_true', List.any_eq_false] at hslot
  exact absurd (show t.slot = sp.slot by rw [Span.slot, Span.slot, hid]) (by simpa using hslot _ hused)

/-! What a record holds. -/

theorem chop_getD (n k i : Nat) (bs : List Byte) (h : i < k) : (chop n k bs).getD i 0 = leNat ((bs.drop (n * i)).take n) := by
  induction k generalizing i bs with
  | zero => omega
  | succ k ih =>
    cases i with
    | zero => rfl
    | succ i =>
      rw [chop, List.getD_cons_succ, ih i _ (by omega), List.drop_drop, show n + n * i = n * (i + 1) by ring]

theorem chop_words (n k i w : Nat) (bs : List Byte) (h : i < k) :
    ((chop n k bs).map (BitVec.ofNat w)).getD i 0 = BitVec.ofNat w (leNat ((bs.drop (n * i)).take n)) := by
  rw [← chop_getD n k i bs h]
  exact List.getD_map (f := BitVec.ofNat w) (chop n k bs) 0

/-! The lanes (R45, R46). -/

/-- A lane that was saved alive, and waits for nothing and runs no task. -/
structure Lane.Saved (ln : Lane) : Prop where
  wait  : ln.wait = none
  kept  : ln.kept = none
  task  : ln.task = none
  alive : ∃ st a d, ln.savedAs = some (st, a, d) ∧ st ≠ .reclaimed

/-- What lane `l` of a record makes of its lane. -/
def Lane.reread (b : ExecBlock) (l : Nat) (ln : Lane) : Lane :=
  { ln with st := restoredState (b.state.getD l 0), pc := b.pc.getD l 0, depth := b.depth.getD l 0, preds := BitVec.ofNat 16 (b.preds.getD l 0),
            savedAs := none, reason := none, pages := [] }

theorem Lane.Saved.resume_eq {ln : Lane} (h : ln.Saved) (now l : Nat) (slots : List SlotRec) (code : Nat) (pc : Word) (depth : Nat) :
    ln.resume now l slots code pc depth =
      { ln with st := restoredState code, pc := pc, depth := depth, savedAs := none, reason := none, pages := [] } := by
  obtain ⟨hwait, hkept, -, st, a, d, hsaved, halive⟩ := h
  unfold Lane.resume restoredState
  simp only [hwait, hkept, hsaved, halive, Option.map_none, Option.isSome_none, Bool.and_false, Bool.false_eq_true, if_false]
  split <;> simp_all

/-- A lane as a resumption restores it, in the order of the record's fields. -/
def State.resumeFrom (b : ExecBlock) (id : Nat) (slots : List SlotRec) (s : State) (l : Nat) : State :=
  s.resumeLane id slots (b.state.getD l 0) (b.pc.getD l 0) (b.depth.getD l 0) (BitVec.ofNat 16 (b.preds.getD l 0)) l

theorem resumeFrom_saved {s : State} {sp : Span} {l : Nat} (b : ExecBlock) (slots : List SlotRec) (hs : s.span? sp.id = some sp) (h : (sp.lane l).Saved) :
    Differs s (s.resumeFrom b sp.id slots l) sp.id (sp.onLane l (Lane.reread b l)) := by
  have hput := differs_onSpan (s := s) (fun t => t.onLane l fun _ => (sp.lane l).reread b l) (fun _ => rfl) hs
  have hsame : sp.onLane l (fun _ => (sp.lane l).reread b l) = sp.onLane l (Lane.reread b l) := onLane_congr rfl
  have heq : s.resumeFrom b sp.id slots l = s.onSpan sp.id fun t => t.onLane l fun _ => (sp.lane l).reread b l := by
    have hend : s.endLaneTask sp l = s := by simp [State.endLaneTask, h.task]
    simp only [State.resumeFrom, State.resumeLane, Lane.reread, hs, h.resume_eq, h.wait, h.task, hend, ite_self, Bool.false_eq_true, if_false]
  rw [heq]
  exact hsame ▸ hput

theorem resumeFrom_all {s t : State} {sp : Span} (b : ExecBlock) (slots : List SlotRec) {ls : List Nat} (hnodup : ls.Nodup) (ht : Differs s t sp.id sp)
    (hsaved : ∀ l ∈ ls, (sp.lane l).Saved) :
    Differs s (ls.foldl (State.resumeFrom b sp.id slots) t) sp.id (ls.foldl (fun u l => u.onLane l (Lane.reread b l)) sp) := by
  induction ls generalizing t sp with
  | nil => exact ht
  | cons l r ih =>
    obtain ⟨hl, hr⟩ := List.nodup_cons.1 hnodup
    refine ih (sp := sp.onLane l (Lane.reread b l)) hr (differs_trans ht (resumeFrom_saved b slots ht.1 (hsaved l (.head _)))) fun k hk => ?_
    rw [lane_onLane, if_neg (by rintro ⟨rfl, -⟩; exact hl hk)]
    exact hsaved k (.tail _ hk)

/-! The span. -/

/-- A span from its record, before its lanes (R45, R317). -/
def Span.restart (sp : Span) (steps : Nat) (bs : List Byte) : Span :=
  let b := readBlock bs
  let hmode := decide (b.head / 2 ^ 14 % 2 = 1)
  let rest := bs.drop (0x400 + 128 * sp.budget)
  let tail := rest.drop 0x1280
  let cause := causeOf (leNat ((tail.drop 16).take 1))
  { ((sp.withRegs bs).withFerry (rest.drop 0x1080)).told steps [] with
    status := .running, hmode := hmode, qs := BitVec.ofNat 8 (b.dq / 256), spantag := BitVec.ofNat 32 (leNat (tail.take 4)),
    fseq := leNat ((tail.drop 4).take 4) % 256, origin := BitVec.ofNat 64 (leNat ((tail.drop 8).take 8)), cause := if hmode then sp.cause else cause,
    first := cause, landing := sp.landing.map Entry.resumed, age := steps, waited := 0 }

/-- A resumed span with its lanes: a trap is due where it was, and a cause that came meanwhile is pending. -/
def Span.wakened (late : Option Cause) (t : Span) : Span :=
  let u := { t with late := none, due := if t.hmode then t.due else t.cause.isSome || !(t.lanesIn (· = .parkedFatal)).isEmpty }
  match late with
  | some c => u.record c
  | none => u

/-- The span stands in its slot again, and is saved no more. -/
def State.boarded (s : State) (sp : Span) (bs : List Byte) : State :=
  { s with saved := s.saved.filter (·.uid ≠ sp.uid), spans := s.spans ++ [sp.restart s.steps bs] }

/-- A span that was saved full, with no task and no ferry operation, comes back in three steps. -/
theorem resumeSpan_full (s : State) {sp : Span} {bs : List Byte} (hfull : (readBlock bs).head / 2 ^ 15 % 2 = 1) (hferry : sp.ferry = [])
    (htask : ∀ l, (sp.lane l).task = none) :
    s.resumeSpan sp bs = (((laneNums.foldl (State.resumeFrom (readBlock bs) sp.id (readSlots ((bs.drop (0x400 + 128 * sp.budget)).drop 0x1000)))
      (s.boarded sp bs)).onSpan sp.id (Span.wakened sp.late)).settle sp.id) := by
  have hnone : (sp.restart s.steps bs).ferry = [] := by simp [Span.restart, Span.told, Span.learn, Span.withFerry, Span.withRegs, hferry, imap]
  unfold State.resumeSpan
  simp only [hfull, decide_true, if_true, htask, List.foldl_fixed]
  unfold Span.restart at hnone
  dsimp only at hnone
  rw [hnone, List.foldl_nil]
  refine congrArg (State.settle · sp.id) (congrArg₂ (fun t f => State.onSpan t sp.id f) (congrArg (List.foldl _ · laneNums) ?_) rfl)
  simp only [State.boarded, Span.restart, hnone]

/-! The fields of a record, each from its place (R42, R315). -/

section
variable (bs : List Byte) {l : Nat} (hl : l < 32)
include hl

theorem readBlock_state : (readBlock bs).state.getD l 0 = leNat ((bs.drop (64 + l)).take 1) := by
  rw [readBlock, chop_getD _ _ _ _ hl, List.drop_drop, Nat.one_mul]

theorem readBlock_depth : (readBlock bs).depth.getD l 0 = leNat ((bs.drop (96 + l)).take 1) := by
  rw [readBlock, chop_getD _ _ _ _ hl, List.drop_drop, Nat.one_mul]

theorem readBlock_preds : (readBlock bs).preds.getD l 0 = leNat ((bs.drop (128 + 2 * l)).take 2) := by
  rw [readBlock, chop_getD _ _ _ _ hl, List.drop_drop]

theorem readBlock_pc : (readBlock bs).pc.getD l 0 = BitVec.ofNat 64 (leNat ((bs.drop (256 + 8 * l)).take 8)) := by
  rw [← List.drop_drop]
  exact chop_words 8 32 l 64 _ hl

end

theorem s_restart (sp : Span) (steps : Nat) (bs : List Byte) {r : Nat} (hr : r < 64) :
    (sp.restart steps bs).s r = BitVec.ofNat 64 (leNat ((bs.drop (512 + 8 * r)).take 8)) := by
  have h : (sp.restart steps bs).s r = sget 0 (ssparse 0 ((chop 8 64 (bs.drop 0x200)).map (BitVec.ofNat 64))) r := rfl
  rw [h, sget_ssparse, ← List.drop_drop]
  exact chop_words 8 64 r 64 _ hr

theorem v_restart (sp : Span) (steps : Nat) (bs : List Byte) {r l : Nat} (hr : r < sp.budget) (hl : l < 32) :
    (sp.restart steps bs).v r l = BitVec.ofNat 32 (leNat ((bs.drop (1024 + 4 * (32 * r + l))).take 4)) := by
  have h : (sp.restart steps bs).v r l = sget 0 (ssparse 0 ((chop 4 (32 * sp.budget) (bs.drop 0x400)).map (BitVec.ofNat 32))) (32 * r + l) := rfl
  rw [h, sget_ssparse, ← List.drop_drop]
  exact chop_words 4 (32 * sp.budget) (32 * r + l) 32 _ (by omega)

section
variable (sp : Span) (steps : Nat) (bs : List Byte)

@[simp] theorem restart_id : (sp.restart steps bs).id = sp.id := by
  simp only [Span.restart, Span.told, Span.learn, Span.withFerry, Span.withRegs]

@[simp] theorem restart_uid : (sp.restart steps bs).uid = sp.uid := by
  simp only [Span.restart, Span.told, Span.learn, Span.withFerry, Span.withRegs]

@[simp] theorem restart_lanes : (sp.restart steps bs).lanes = sp.lanes := by
  simp only [Span.restart, Span.told, Span.learn, Span.withFerry, Span.withRegs]

@[simp] theorem restart_status : (sp.restart steps bs).status = .running := rfl

@[simp] theorem restart_hmode : (sp.restart steps bs).hmode = decide (leNat (bs.take 8) / 2 ^ 14 % 2 = 1) := rfl

end

theorem restart_fseq (sp : Span) (steps : Nat) (bs : List Byte) :
    (sp.restart steps bs).fseq = leNat ((bs.drop (1024 + 128 * sp.budget + 4740)).take 4) % 256 := by
  simp only [Span.restart, List.drop_drop, Nat.add_assoc, Nat.reduceAdd]

theorem restart_cause (sp : Span) (steps : Nat) (bs : List Byte) (h : (sp.restart steps bs).hmode = false) :
    (sp.restart steps bs).cause = causeOf (leNat ((bs.drop (1024 + 128 * sp.budget + 4752)).take 1)) := by
  have hmode : decide ((readBlock bs).head / 2 ^ 14 % 2 = 1) = false := h
  simp only [Span.restart, hmode, Bool.false_eq_true, if_false, List.drop_drop, Nat.add_assoc, Nat.reduceAdd]

/-! A span resumed (R45, R317). -/

theorem wakened_rest (late : Option Cause) (t : Span) :
    { t.wakened late with late := t.late, due := t.due, cause := t.cause, first := t.first, hcause := t.hcause } = t := by
  cases late <;> rfl

/-- What the record `bs` gives a span that was saved full: everything that the statement asks of it, for its span after the resumption. -/
structure Rebuilt (sp sp' : Span) (bs : List Byte) : Prop where
  mode   : sp'.hmode = decide (leNat (bs.take 8) / 2 ^ 14 % 2 = 1)
  fseq   : sp'.fseq = leNat ((bs.drop (1024 + 128 * sp.budget + 4740)).take 4) % 256
  cause  : sp'.hmode = false → sp.late = none → sp'.cause = causeOf (leNat ((bs.drop (1024 + 128 * sp.budget + 4752)).take 1))
  uid    : sp'.uid = sp.uid
  status : sp'.status = .running
  s      : ∀ r, r < 64 → sp'.s r = BitVec.ofNat 64 (leNat ((bs.drop (512 + 8 * r)).take 8))
  v      : ∀ r l, r < sp.budget → l < 32 → sp'.v r l = BitVec.ofNat 32 (leNat ((bs.drop (1024 + 4 * (32 * r + l))).take 4))
  lane   : ∀ l, l < 32 → sp'.lane l = (sp.lane l).reread (readBlock bs) l

/-- A resumed span whose lanes apart is `r` has everything else that `r` has. -/
theorem wakened_fields {r t : Span} (h : { t with lanes := r.lanes } = r) (late : Option Cause) :
    (t.wakened late).hmode = r.hmode ∧ (t.wakened late).fseq = r.fseq ∧ (t.wakened late).uid = r.uid ∧ (t.wakened late).status = r.status ∧
      (t.wakened late).sregs = r.sregs ∧ (t.wakened late).vregs = r.vregs ∧ (t.wakened late).lanes = t.lanes ∧
      (late = none → (t.wakened late).cause = r.cause) := by
  have hmode := congrArg Span.hmode h
  have hfseq := congrArg Span.fseq h
  have huid := congrArg Span.uid h
  have hstatus := congrArg Span.status h
  have hs := congrArg Span.sregs h
  have hv := congrArg Span.vregs h
  have hcause := congrArg Span.cause h
  cases late with
  | none => exact ⟨hmode, hfseq, huid, hstatus, hs, hv, rfl, fun _ => hcause⟩
  | some c => exact ⟨hmode, hfseq, huid, hstatus, hs, hv, rfl, by intro h; cases h⟩

theorem restart_rebuilt {sp r t : Span} {steps : Nat} {bs : List Byte} (hr : sp.restart steps bs = r)
    (hlanes : { t with lanes := r.lanes } = r) (hlane : ∀ l, l < 32 → t.lane l = (sp.lane l).reread (readBlock bs) l) :
    Rebuilt sp (t.wakened sp.late) bs := by
  obtain ⟨hmode, hfseq, huid, hstatus, hs, hv, hsame, hcause⟩ := wakened_fields hlanes sp.late
  have hmode0 : r.hmode = decide (leNat (bs.take 8) / 2 ^ 14 % 2 = 1) := by simp [← hr]
  have huid0 : r.uid = sp.uid := by simp [← hr]
  have hstatus0 : r.status = .running := by simp [← hr]
  refine ⟨hmode.trans hmode0, hfseq.trans (by rw [← hr]; exact restart_fseq sp steps bs), fun hm hlate => (hcause hlate).trans ?cause, huid.trans huid0,
    hstatus.trans hstatus0, fun n hn => ?s, fun n l hn hl => ?v, fun l hl => ?lane⟩
  case cause =>
    rw [hmode, ← hr] at hm
    rw [← hr]
    exact restart_cause sp steps bs hm
  case s => rw [Span.s, hs, ← hr]; exact s_restart sp steps bs hn
  case v => rw [Span.v, hv, ← hr]; exact v_restart sp steps bs hn hl
  case lane => rw [Span.lane, hsame]; exact hlane l hl

/-- A span that was saved full, alive in every lane, with no wait, task or ferry operation, comes back to its free slot as its record says. -/
theorem resumeSpan_rebuilt {s : State} {sp : Span} {bs : List Byte} (hfree : s.span? sp.id = none) (hferry : sp.ferry = [])
    (hcount : sp.lanes.length = 32) (hsaved : ∀ l, l < 32 → (sp.lane l).Saved) (hfull : leNat (bs.take 8) / 2 ^ 15 % 2 = 1) :
    ∃ (u : State) (sp' : Span), s.resumeSpan sp bs = u.settle sp.id ∧ u.span? sp.id = some sp' ∧ Rebuilt sp sp' bs ∧ ∀ t ∈ u.saved, t.uid ≠ sp.uid := by
  have htask (l : Nat) : (sp.lane l).task = none := by
    by_cases hl : l < 32
    · exact (hsaved l hl).task
    · rw [Span.lane, List.getD_eq_default _ _ (by omega)]; rfl
  obtain ⟨r, hr⟩ : ∃ r, sp.restart s.steps bs = r := ⟨_, rfl⟩
  have hid : r.id = sp.id := by simp [← hr]
  have hlanes : r.lanes = sp.lanes := by simp [← hr]
  have hlane (l : Nat) : r.lane l = sp.lane l := by rw [Span.lane, hlanes]; rfl
  have hspans : (s.boarded sp bs).spans = s.spans ++ [r] := by rw [← hr, State.boarded]
  have hboard : (s.boarded sp bs).span? r.id = some r := by
    have hnone : s.spans.find? (fun t => decide (t.id = sp.id)) = none := hfree
    rw [State.span?, hspans, List.find?_append, hid, hnone, Option.none_or, List.find?_cons, hid]
    simp
  obtain ⟨hthere, hrest, -⟩ := resumeFrom_all (readBlock bs) (readSlots ((bs.drop (0x400 + 128 * sp.budget)).drop 0x1000)) (ls := laneNums)
    List.nodup_range (differs_refl hboard) fun l hl => by rw [hlane]; exact hsaved l (mem_laneNums.1 hl)
  have hreread (l : Nat) (hl : l < 32) := lane_foldl_onLane_each (Lane.reread (readBlock bs)) (ls := laneNums) List.nodup_range r l
  have hkeep := foldl_onLane_rest (Lane.reread (readBlock bs)) laneNums r
  have hsame := congrArg State.saved hrest
  rw [hid] at hthere hsame
  have hresume := resumeSpan_full s hfull hferry htask
  generalize laneNums.foldl (fun u l => u.onLane l (Lane.reread (readBlock bs) l)) r = t at hthere hreread hkeep
  generalize laneNums.foldl (State.resumeFrom (readBlock bs) sp.id (readSlots ((bs.drop (0x400 + 128 * sp.budget)).drop 0x1000))) (s.boarded sp bs) = u
    at hthere hsame hresume
  refine ⟨_, _, hresume, span?_onSpan_self _ (fun t => ?_) hthere, restart_rebuilt hr hkeep fun l hl => ?_, fun w hw => ?_⟩
  · have hf := congrArg Span.id (wakened_rest sp.late t); exact hf
  · rw [hreread l hl, if_pos ⟨mem_laneNums.2 hl, by rw [hlanes, hcount]; exact hl⟩, hlane]
  · have hmem : w ∈ s.saved.filter (·.uid ≠ sp.uid) := by
      have hkept : w ∈ (s.boarded sp bs).saved := hsame ▸ hw
      exact hkept
    simpa using (List.mem_filter.1 hmem).2

/-! The region (R262, R317). -/

section
variable {s s1 : State} {cx : Context} {k : Block} {sp : Span} {off : Nat} {bs : List Byte}

theorem readRegion_untiled (htiles : k.tiles = []) {sps : List Span}
    (hread : s.deviceRead none cx (cx.savebase + BitVec.ofNat 64 off) (regionAt k sps 0).size = (s1, .ok bs)) :
    s.readRegion cx k sps off = (s1, .ok (0, bs)) := by
  simp [State.readRegion, htiles, hread, leNat]

/-- The block of a region with its deck, and its spans beside it still saved. -/
def State.decked (s : State) (k : Block) (sps : List Span) (bs : List Byte) : State :=
  let at_ := regionAt k sps 0
  (s.restorePlane (k.launch, k.idx) sps 0 (bs.drop at_.plane)).onBlock (k.launch, k.idx) fun _ =>
    if k.berth then k else { k with deck := ssparse 0 ((bs.drop at_.deck).take k.bytes) }

/-- The region of one span without tiles: its deck, then the span. -/
theorem resumeRegion_untiled (htiles : k.tiles = [])
    (hread : s.deviceRead none cx (cx.savebase + BitVec.ofNat 64 off) (regionAt k [sp] 0).size = (s1, .ok bs)) :
    s.resumeRegion cx k [sp] off = ((s1.decked k [sp] bs).resumeSpan sp ((bs.drop 256).take sp.recordSize)).resumeDone cx := by
  have hrecs : (regionAt k [sp] 0).recs = [256] := rfl
  simp only [State.resumeRegion, readRegion_untiled htiles hread, htiles, hrecs, List.isEmpty_nil, if_true, Option.isNone_some, Bool.false_eq_true,
    if_false, List.zip_cons_cons, List.zip_nil_left, List.foldl_cons, List.foldl_nil, Option.getD_some, State.decked]

theorem execResumption_goes {n : Nat} (hcx : s.ctx? cx.id = some cx) (hstatus : cx.status = .resuming) (hregion : cx.regions[n]? = some ((k.launch, k.idx), off))
    (hk : s.block? (k.launch, k.idx) = some k) (hsps : blockSpans (s.saved.filter fun t => decide (t.ctx = cx.id)) k = [sp])
    (hfence : s.fenced.contains (k.pier / 40) = false) (hroom : s.roomFor k [sp] = true) :
    exec (.resumption cx.id n) s = .next (s.resumeRegion cx k [sp] off).trySaves := by
  have he : exec (.resumption cx.id n) s = execResumption cx.id n s := rfl
  rw [he]
  unfold execResumption
  simp only [hcx, hregion, hk, hsps, hstatus, hfence, hroom, ne_eq, not_true_eq_false, decide_false, List.isEmpty_cons, Bool.or_self, Bool.not_true,
    Bool.false_eq_true, if_false]

end

/-- A region of a resuming context brings its span back (R45, R317). -/
theorem resumption_rebuilds (s s1 : State) (cx : Context) (k : Block) (sp : Span) (n off : Nat) (bs : List Byte) (hcx : s.ctx? cx.id = some cx)
    (hstatus : cx.status = .resuming) (hregion : cx.regions[n]? = some ((k.launch, k.idx), off)) (hk : s.block? (k.launch, k.idx) = some k)
    (htiles : k.tiles = []) (hsps : blockSpans (s.saved.filter fun t => decide (t.ctx = cx.id)) k = [sp]) (hpier : sp.pier = k.pier)
    (hfence : s.fenced.contains (k.pier / 40) = false) (hroom : s.roomFor k [sp] = true) (hferry : sp.ferry = []) (hcount : sp.lanes.length = 32)
    (hsaved : ∀ l, l < 32 → (sp.lane l).Saved)
    (hread : s.deviceRead none cx (cx.savebase + BitVec.ofNat 64 off) (regionAt k [sp] 0).size = (s1, .ok bs))
    (hfull : leNat (((bs.drop 256).take sp.recordSize).take 8) / 2 ^ 15 % 2 = 1) :
    ∃ (u : State) (sp' : Span), exec (.resumption cx.id n) s = .next (((u.settle sp.id).resumeDone cx).trySaves) ∧ u.span? sp.id = some sp' ∧
      Rebuilt sp sp' ((bs.drop 256).take sp.recordSize) ∧ ∀ t ∈ u.saved, t.uid ≠ sp.uid := by
  have hids := deviceRead_sameIds s none cx (cx.savebase + BitVec.ofNat 64 off) (regionAt k [sp] 0).size
  rw [hread] at hids
  have hfree : (s1.decked k [sp] bs).span? sp.id = none := hids.span?_none (roomFor_free hroom hpier)
  obtain ⟨u, sp', hu, hthere, hbuilt, hgone⟩ := resumeSpan_rebuilt hfree hferry hcount hsaved hfull
  refine ⟨u, sp', ?_, hthere, hbuilt, hgone⟩
  rw [execResumption_goes hcx hstatus hregion hk hsps hfence hroom, resumeRegion_untiled htiles hread, hu]

end Sys2Proof.Machine
end

section
/-! SUPPORT. Bytes at offsets of runs, and the bytes of a span's save record field by field (R42, R137, R315, R316). -/

namespace Sys2Proof.Machine

/-! Bytes in lists. -/

/-- From `off` on a list holds the low `n` bytes of `v`. -/
def HoldsNat (bs : List Byte) (off n v : Nat) : Prop := ∀ k, k < n → bs[off + k]? = some (BitVec.ofNat 8 (v / 256 ^ k))

theorem getElem?_toBytes {n k : Nat} (x : Nat) (h : k < n) : (toBytes n x)[k]? = some (BitVec.ofNat 8 (x / 256 ^ k)) := by
  induction n generalizing k x with
  | zero => omega
  | succ n ih =>
    cases k with
    | zero => simp [toBytes]
    | succ k => rw [toBytes, List.getElem?_cons_succ, ih _ (by omega), Nat.div_div_eq_div_mul, pow_succ']

theorem getElem?_append_some {a b : List Byte} {k : Nat} {x : Byte} (h : a[k]? = some x) : (a ++ b)[k]? = some x := by
  rw [List.getElem?_append_left (List.getElem?_eq_some_iff.1 h).1, h]

theorem getElem?_append_shift (a b : List Byte) {n k : Nat} (h : a.length = n) : (a ++ b)[n + k]? = b[k]? := by
  rw [List.getElem?_append_right (by omega), h, Nat.add_sub_cancel_left]

/-- The bytes of one of several pieces of one length. -/
theorem getElem?_flatten {α : Type} {m : Nat} {f : α → List Byte} (hm : ∀ x, (f x).length = m) {xs : List α} {i k : Nat} {x : α}
    (hx : xs[i]? = some x) (hk : k < m) : ((xs.map f).flatten)[m * i + k]? = (f x)[k]? := by
  induction xs generalizing i with
  | nil => simp at hx
  | cons y ys ih =>
    rw [List.map_cons, List.flatten_cons]
    cases i with
    | zero =>
      obtain rfl : y = x := by simpa using hx
      rw [Nat.mul_zero, Nat.zero_add, List.getElem?_append_left (by rw [hm]; exact hk)]
    | succ i => rw [show m * (i + 1) + k = m + (m * i + k) by ring, getElem?_append_shift _ _ (hm y), ih (by simpa using hx)]

theorem flatten_length {α : Type} {m : Nat} {f : α → List Byte} (hm : ∀ x, (f x).length = m) (xs : List α) :
    ((xs.map f).flatten).length = m * xs.length := by
  induction xs with
  | nil => rfl
  | cons x xs ih => rw [List.map_cons, List.flatten_cons, List.length_append, hm, ih, List.length_cons]; ring

theorem padTo_length {n : Nat} {bs : List Byte} (h : bs.length ≤ n) : (padTo n bs).length = n := by
  rw [padTo, List.length_append, List.length_replicate]; omega

/-- What stands behind the bytes that a padding fills. -/
theorem getElem?_padTo {n k : Nat} {bs : List Byte} (h : bs.length ≤ k) (hk : k < n) : (padTo n bs)[k]? = some 0 := by
  rw [padTo, List.getElem?_append_right h, List.getElem?_replicate, if_pos (by omega)]

namespace HoldsNat

variable {a b : List Byte} {off n v m : Nat}

theorem toBytes (n v : Nat) : HoldsNat (toBytes n v) 0 n v := fun k hk => by rw [Nat.zero_add]; exact getElem?_toBytes v hk

/-- The number stands in the first part. -/
theorem left (b : List Byte) (h : HoldsNat a off n v) : HoldsNat (a ++ b) off n v := fun k hk => getElem?_append_some (h k hk)

/-- The number stands behind a part of `m` bytes. -/
theorem right (ha : a.length = m) (h : HoldsNat b off n v) : HoldsNat (a ++ b) (m + off) n v := fun k hk => by
  rw [Nat.add_assoc, getElem?_append_shift a b ha]; exact h k hk

theorem flatten {α : Type} {f : α → List Byte} (hm : ∀ x, (f x).length = m) {xs : List α} {i : Nat} {x : α} (hx : xs[i]? = some x)
    (h : HoldsNat (f x) off n v) : HoldsNat ((xs.map f).flatten) (m * i + off) n v := fun k hk => by
  have hlt := (List.getElem?_eq_some_iff.1 (h k hk)).1
  rw [Nat.add_assoc, getElem?_flatten hm hx (by rw [← hm x]; exact hlt)]
  exact h k hk

theorem padTo (N : Nat) (h : HoldsNat a off n v) : HoldsNat (padTo N a) off n v := h.left _

end HoldsNat

/-! Bytes of runs. -/

/-- The runs before one do not reach it: its bytes stand where it says. -/
theorem runByte_at {pre post : List (Nat × List Byte)} {at_ k : Nat} {bs : List Byte} {x : Byte} (hpre : ∀ r ∈ pre, r.1 + r.2.length ≤ at_)
    (h : bs[k]? = some x) : runByte (pre ++ (at_, bs) :: post) (at_ + k) = some x := by
  have hlt := (List.getElem?_eq_some_iff.1 h).1
  have hskip : (pre.find? fun r => decide (r.1 ≤ at_ + k) && decide (at_ + k < r.1 + r.2.length)) = none := by
    refine List.find?_eq_none.2 fun r hr => ?_
    have := hpre r hr
    simp only [Bool.and_eq_true, decide_eq_true_eq]
    omega
  have hhit : (decide (at_ ≤ at_ + k) && decide (at_ + k < at_ + bs.length)) = true := by
    simp only [Bool.and_eq_true, decide_eq_true_eq]
    omega
  rw [runByte, List.find?_append, hskip, Option.none_or, List.find?_cons, hhit]
  simp [h]

theorem runNat_at {pre post : List (Nat × List Byte)} {at_ off n v : Nat} {bs : List Byte} (hpre : ∀ r ∈ pre, r.1 + r.2.length ≤ at_)
    (h : HoldsNat bs off n v) : RunNat (pre ++ (at_, bs) :: post) (at_ + off) n v := fun k hk => by
  rw [Nat.add_assoc]; exact runByte_at hpre (h k hk)

/-- No run holds the byte. -/
theorem runByte_none {rs : List (Nat × List Byte)} {k : Nat} (h : ∀ r ∈ rs, k < r.1 ∨ r.1 + r.2.length ≤ k) : runByte rs k = none := by
  have hnone : (rs.find? fun r => decide (r.1 ≤ k) && decide (k < r.1 + r.2.length)) = none := by
    refine List.find?_eq_none.2 fun r hr => ?_
    have := h r hr
    simp only [Bool.and_eq_true, decide_eq_true_eq]
    omega
  rw [runByte, hnone]; rfl

/-! The parts of a save record (R42, R315). -/

/-- The first lane that has not ended. -/
def Span.firstLane (sp : Span) : Nat := (sp.lanesIn (!·.ended)).headD 0

/-- The first 64 bytes of a save record. -/
def Span.saveTop (sp : Span) (full ckpt : Bool) : List Byte :=
  blockHead sp (headWord (if ckpt then 2 else 1) full sp.hmode false 0 0) (if full then 0 else (sp.lane sp.firstLane).pc) 0
    (if full then 0 else (sp.lane sp.firstLane).depth)

/-- The predicates, and the bytes behind them that a save leaves 0. -/
def Span.saveMid (sp : Span) : List Byte := blockPreds sp ++ toBytes 64 0

/-- The registers and what follows them. -/
def Span.saveRest (sp : Span) (now : Nat) : List Byte := sp.saveRegs ++ sp.saveTail now

theorem saveBytes_full (sp : Span) (ckpt : Bool) (now : Nat) : sp.saveBytes true ckpt now =
    [(0, sp.saveTop true ckpt ++ blockStates sp ++ blockDepths sp ++ sp.saveMid ++ blockPcs sp ++ sp.saveRest now)] := rfl

theorem saveBytes_short (sp : Span) (ckpt : Bool) (now : Nat) : sp.saveBytes false ckpt now =
    [(0, sp.saveTop false ckpt), (0x80, sp.saveMid), (0x200, sp.saveRest now)] := rfl

theorem saveTop_length (sp : Span) (full ckpt : Bool) : (sp.saveTop full ckpt).length = 64 := by
  simp [Span.saveTop, blockHead, toBytes_length]

theorem blockStates_length (sp : Span) : (blockStates sp).length = 32 := by simp [blockStates, laneNums, Config.lanes]
theorem blockDepths_length (sp : Span) : (blockDepths sp).length = 32 := by simp [blockDepths, laneNums, Config.lanes]
theorem blockPreds_length (sp : Span) : (blockPreds sp).length = 64 := by
  rw [blockPreds, flatten_length fun l => toBytes_length 2 _]; rfl
theorem blockPcs_length (sp : Span) : (blockPcs sp).length = 256 := by
  rw [blockPcs, flatten_length fun l => toBytes_length 8 _]; rfl
theorem saveMid_length (sp : Span) : sp.saveMid.length = 128 := by rw [Span.saveMid, List.length_append, blockPreds_length, toBytes_length]

/-! Where the parts of a full record end. -/

section
variable (sp : Span) (ckpt : Bool)

theorem upToStates_length : (sp.saveTop true ckpt ++ blockStates sp).length = 96 := by
  rw [List.length_append, saveTop_length, blockStates_length]

theorem upToDepths_length : (sp.saveTop true ckpt ++ blockStates sp ++ blockDepths sp).length = 128 := by
  rw [List.length_append, upToStates_length, blockDepths_length]

theorem upToMid_length : (sp.saveTop true ckpt ++ blockStates sp ++ blockDepths sp ++ sp.saveMid).length = 256 := by
  rw [List.length_append, upToDepths_length, saveMid_length]

theorem upToPcs_length : (sp.saveTop true ckpt ++ blockStates sp ++ blockDepths sp ++ sp.saveMid ++ blockPcs sp).length = 512 := by
  rw [List.length_append, upToMid_length, blockPcs_length]

end

theorem saveShort_before (sp : Span) (ckpt : Bool) : ∀ r ∈ [(0, sp.saveTop false ckpt), (0x80, sp.saveMid)], r.1 + r.2.length ≤ 0x200 := by
  intro r hr
  simp only [List.mem_cons, List.not_mem_nil, or_false] at hr
  rcases hr with rfl | rfl
  · rw [saveTop_length]; exact (by decide : 0 + 64 ≤ 0x200)
  · rw [saveMid_length]; exact (by decide : 0x80 + 128 ≤ 0x200)

section
variable (sp : Span) (full ckpt : Bool) (now : Nat) {k : Nat} {x : Byte}

theorem runByte_top (h : (sp.saveTop full ckpt)[k]? = some x) : runByte (sp.saveBytes full ckpt now) k = some x := by
  rw [← Nat.zero_add k]
  cases full with
  | true => exact runByte_at (pre := []) (by simp) (getElem?_append_some (getElem?_append_some (getElem?_append_some (getElem?_append_some
      (getElem?_append_some h)))))
  | false => exact runByte_at (pre := []) (by simp) h

theorem runByte_mid (h : sp.saveMid[k]? = some x) : runByte (sp.saveBytes full ckpt now) (128 + k) = some x := by
  cases full with
  | true =>
    rw [saveBytes_full, ← Nat.zero_add (128 + k)]
    refine runByte_at (pre := []) (by simp) (getElem?_append_some (getElem?_append_some ?_))
    rw [getElem?_append_shift _ _ (upToDepths_length sp ckpt)]
    exact h
  | false => exact runByte_at (pre := [(0, sp.saveTop false ckpt)]) (by simp [saveTop_length]) h

theorem runByte_rest (h : (sp.saveRest now)[k]? = some x) : runByte (sp.saveBytes full ckpt now) (512 + k) = some x := by
  cases full with
  | true =>
    rw [saveBytes_full, ← Nat.zero_add (512 + k)]
    refine runByte_at (pre := []) (by simp) ?_
    rw [getElem?_append_shift _ _ (upToPcs_length sp ckpt)]
    exact h
  | false => exact runByte_at (pre := [(0, sp.saveTop false ckpt), (0x80, sp.saveMid)]) (saveShort_before sp ckpt) h

theorem runNat_top {off n v : Nat} (h : HoldsNat (sp.saveTop full ckpt) off n v) : RunNat (sp.saveBytes full ckpt now) off n v :=
  fun k hk => runByte_top sp full ckpt now (h k hk)

theorem runNat_mid {off n v : Nat} (h : HoldsNat sp.saveMid off n v) : RunNat (sp.saveBytes full ckpt now) (128 + off) n v :=
  fun k hk => by rw [Nat.add_assoc]; exact runByte_mid sp full ckpt now (h k hk)

theorem runNat_rest {off n v : Nat} (h : HoldsNat (sp.saveRest now) off n v) : RunNat (sp.saveBytes full ckpt now) (512 + off) n v :=
  fun k hk => by rw [Nat.add_assoc]; exact runByte_rest sp full ckpt now (h k hk)

end

/-! The first bytes: mode, program counter, predicates of the span, ended lanes (R42). -/

section
variable (sp : Span) (full ckpt : Bool)

theorem saveTop_append : sp.saveTop full ckpt = toBytes 8 (headWord (if ckpt then 2 else 1) full sp.hmode false 0 0) ++
    (toBytes 8 (if full then 0 else (sp.lane sp.firstLane).pc : Word).toNat ++ (toBytes 8 0 ++
      (toBytes 8 ((if full then 0 else (sp.lane sp.firstLane).depth) + 256 * sp.qs.toNat) ++
      (toBytes 8 (maskOf sp (· = .exited) + 2 ^ 32 * maskOf sp (· = .reclaimed)) ++ toBytes 24 0)))) := by
  simp only [Span.saveTop, blockHead, List.append_assoc]

theorem saveTop_head : HoldsNat (sp.saveTop full ckpt) 0 8 (headWord (if ckpt then 2 else 1) full sp.hmode false 0 0) := by
  rw [saveTop_append]; exact (HoldsNat.toBytes _ _).left _

theorem saveTop_pc : HoldsNat (sp.saveTop full ckpt) 8 8 (if full then 0 else (sp.lane sp.firstLane).pc : Word).toNat := by
  rw [saveTop_append]; exact ((HoldsNat.toBytes _ _).left _).right (toBytes_length 8 _)

theorem saveTop_flags : HoldsNat (sp.saveTop full ckpt) 24 8 ((if full then 0 else (sp.lane sp.firstLane).depth) + 256 * sp.qs.toNat) := by
  rw [saveTop_append]
  exact ((((HoldsNat.toBytes _ _).left _).right (toBytes_length 8 _)).right (toBytes_length 8 _)).right (toBytes_length 8 _)

theorem saveTop_ended : HoldsNat (sp.saveTop full ckpt) 32 8 (maskOf sp (· = .exited) + 2 ^ 32 * maskOf sp (· = .reclaimed)) := by
  rw [saveTop_append]
  exact (((((HoldsNat.toBytes _ _).left _).right (toBytes_length 8 _)).right (toBytes_length 8 _)).right (toBytes_length 8 _)).right (toBytes_length 8 _)

end

theorem headWord_saved (full hmode ckpt : Bool) : headWord (if ckpt then 2 else 1) full hmode false 0 0 =
    2 ^ 16 * (if ckpt then 2 else 1) + (if full then 2 ^ 15 else 0) + (if hmode then 2 ^ 14 else 0) := by
  cases full <;> cases hmode <;> cases ckpt <;> decide

theorem maskOf_eq_laneMask (sp : Span) (f : LaneState → Bool) : maskOf sp f = laneMask ((List.range 32).filter fun l => f (sp.lane l).st) := rfl

/-- The first lane that has not ended is the one before which all have. -/
theorem firstLane_eq {sp : Span} {l : Nat} (hl : l < 32) (hlive : (sp.lane l).st.ended = false) (hbefore : ∀ k, k < l → (sp.lane k).st.ended = true) :
    sp.firstLane = l := by
  have hfind : laneNums.find? (fun k => !(sp.lane k).st.ended) = some l := by
    rw [laneNums_eq, List.find?_range_eq_some]
    exact ⟨by simp [hlive], List.mem_range.2 hl, fun k hk => by simp [hbefore k hk]⟩
  rw [Span.firstLane, Span.lanesIn, List.headD_eq_head?_getD, List.head?_filter, hfind]
  rfl

/-! The lanes. -/

theorem getElem?_laneNums {l : Nat} (hl : l < 32) : laneNums[l]? = some l := by rw [laneNums_eq, List.getElem?_range hl]

section
variable (sp : Span) (ckpt : Bool) (now : Nat) {l : Nat} (hl : l < 32)
include hl

theorem saveMid_preds : HoldsNat sp.saveMid (2 * l) 2 (sp.lane l).preds.toNat :=
  HoldsNat.left _ (HoldsNat.flatten (off := 0) (f := fun l => toBytes 2 (sp.lane l).preds.toNat) (fun _ => toBytes_length 2 _) (getElem?_laneNums hl) (HoldsNat.toBytes _ _))

theorem runNat_state : RunNat (sp.saveBytes true ckpt now) (64 + l) 1 (sp.lane l).st.code := by
  intro k hk
  obtain rfl : k = 0 := by omega
  rw [saveBytes_full, ← Nat.zero_add (64 + l + 0)]
  refine runByte_at (pre := []) (by simp) (getElem?_append_some (getElem?_append_some (getElem?_append_some (getElem?_append_some ?_))))
  rw [Nat.add_assoc, getElem?_append_shift _ _ (saveTop_length sp true ckpt), Nat.add_zero, blockStates, List.getElem?_map, getElem?_laneNums hl]
  simp

theorem runNat_depth : RunNat (sp.saveBytes true ckpt now) (96 + l) 1 (sp.lane l).depth := by
  intro k hk
  obtain rfl : k = 0 := by omega
  rw [saveBytes_full, ← Nat.zero_add (96 + l + 0)]
  refine runByte_at (pre := []) (by simp) (getElem?_append_some (getElem?_append_some (getElem?_append_some ?_)))
  rw [Nat.add_assoc, getElem?_append_shift _ _ (upToStates_length sp ckpt), Nat.add_zero, blockDepths, List.getElem?_map,
    getElem?_laneNums hl]
  simp

theorem runNat_pc : RunNat (sp.saveBytes true ckpt now) (256 + 8 * l) 8 (sp.lane l).pc.toNat := by
  have hpcs : HoldsNat (blockPcs sp) (8 * l) 8 (sp.lane l).pc.toNat :=
    HoldsNat.flatten (off := 0) (f := fun l => toBytes 8 (sp.lane l).pc.toNat) (fun _ => toBytes_length 8 _) (getElem?_laneNums hl) (HoldsNat.toBytes _ _)
  rw [saveBytes_full, ← Nat.zero_add (256 + 8 * l)]
  exact runNat_at (pre := []) (by simp) (HoldsNat.left _ (hpcs.right (upToMid_length sp ckpt)))

/-- A short save leaves the states, the depths and the program counters of the lanes unwritten. -/
theorem runByte_short_none : runByte (sp.saveBytes false ckpt now) (64 + l) = none ∧ runByte (sp.saveBytes false ckpt now) (96 + l) = none ∧
    ∀ k, k < 8 → runByte (sp.saveBytes false ckpt now) (256 + 8 * l + k) = none := by
  have gap {k : Nat} (h : (64 ≤ k ∧ k < 128) ∨ (256 ≤ k ∧ k < 512)) : runByte (sp.saveBytes false ckpt now) k = none := by
    refine runByte_none fun r hr => ?_
    rw [saveBytes_short] at hr
    simp only [List.mem_cons, List.not_mem_nil, or_false] at hr
    rcases hr with rfl | rfl | rfl
    · rw [saveTop_length]; omega
    · rw [saveMid_length]; omega
    · simp only; omega
  exact ⟨gap (by omega), gap (by omega), fun k hk => gap (by omega)⟩

end

/-! The registers. -/

section
variable (sp : Span) (now : Nat)

theorem saveRegs_length : sp.saveRegs.length = 512 + 128 * sp.budget := by
  rw [Span.saveRegs, List.length_append, flatten_length fun r => toBytes_length 8 _, flatten_length fun x => toBytes_length 4 _, List.length_range,
    sgets_length]
  ring

theorem saveRest_s {r : Nat} (hr : r < 64) : HoldsNat (sp.saveRest now) (8 * r) 8 (sp.s r).toNat :=
  HoldsNat.left _ (HoldsNat.left _ (HoldsNat.flatten (off := 0) (f := fun r => toBytes 8 (sp.s r).toNat) (fun _ => toBytes_length 8 _)
    (List.getElem?_range hr) (HoldsNat.toBytes _ _)))

theorem saveRest_v {r l : Nat} (hr : r < sp.budget) (hl : l < 32) : HoldsNat (sp.saveRest now) (512 + 4 * (32 * r + l)) 4 (sp.v r l).toNat := by
  have hget : (sgets 0 sp.vregs 0 (32 * sp.budget))[32 * r + l]? = some (sp.v r l) := by
    have hlt : 32 * r + l < (sgets 0 sp.vregs 0 (32 * sp.budget)).length := by rw [sgets_length]; omega
    have hval := sgets_getD 0 sp.vregs 0 (32 * sp.budget) (32 * r + l) (by omega)
    rw [List.getD_eq_getElem _ _ hlt, Nat.zero_add] at hval
    rw [List.getElem?_eq_getElem hlt, hval]
    rfl
  refine HoldsNat.left _ (HoldsNat.right ?_ (HoldsNat.flatten (off := 0) (f := fun x : VWord => toBytes 4 x.toNat) (fun _ => toBytes_length 4 _) hget
    (HoldsNat.toBytes _ _)))
  rw [flatten_length fun r => toBytes_length 8 _]
  rfl

/-- What stands in the tail of a record. -/
theorem saveRest_tail {off n v : Nat} (h : HoldsNat (sp.saveTail now) off n v) : HoldsNat (sp.saveRest now) (512 + 128 * sp.budget + off) n v :=
  h.right (saveRegs_length sp)

end

end Sys2Proof.Machine
end

section
/-! SUPPORT. The tail of a span's save record: its landing entries, its waits and its ferry commands (R137, R315, R316). -/

namespace Sys2Proof.Machine

/-! Landing entries (R137). -/

theorem insertSeq_length (e : Entry) (es : List Entry) : (insertSeq e es).length = es.length + 1 := by
  induction es with
  | nil => rfl
  | cons f r ih => rw [insertSeq]; split <;> simp [ih]

theorem ordered_length (sp : Span) : sp.ordered.length = sp.landing.length := by
  rw [Span.ordered]
  induction sp.landing with
  | nil => rfl
  | cons e r ih => rw [List.foldr_cons, insertSeq_length, ih, List.length_cons]

theorem entrySave_length (ls : List Entry) (e : Entry) : (Entry.save ls e).length = 128 := by
  simp only [Entry.save, List.length_append, toBytes_length, List.length_map, List.length_range]

/-- The address of an entry stands first. -/
theorem entrySave_addr (ls : List Entry) {e : Entry} (h : e.op = .mem) : HoldsNat (Entry.save ls e) 0 8 (64 * e.vline) := by
  simp only [Entry.save, h, List.append_assoc]
  exact (HoldsNat.toBytes _ _).left _

/-- Its data stands behind the four words and the 32 bytes that are 0. -/
theorem entrySave_data (ls : List Entry) {e : Entry} (h : e.op = .mem) {k : Nat} (hk : k < 64) {x : Byte}
    (hx : e.lineBytes.find? (fun y => decide (y.1 = k)) = some (k, x)) : (Entry.save ls e)[64 + k]? = some x := by
  simp only [Entry.save, h]
  rw [getElem?_append_shift _ _ (by simp only [List.length_append, toBytes_length]), List.getElem?_map, List.getElem?_range hk, Option.map_some]
  simp only [hx]

/-- A byte that is put at its place hides what stood there. -/
theorem find?_put (x : Nat × Byte) (m : List (Nat × Byte)) (k : Nat) :
    (x :: m.filter (·.1 ≠ x.1)).find? (fun y => decide (y.1 = k)) = if x.1 = k then some x else m.find? fun y => decide (y.1 = k) := by
  by_cases h : x.1 = k
  · simp [h]
  · rw [List.find?_cons, if_neg h, decide_eq_false h, List.find?_filter]
    refine List.find?_congr fun y _ => ?_
    by_cases hy : y.1 = k
    · simp [hy, Ne.symm h]
    · simp [hy]

/-- Bytes put one after another from `o` on are found at their places. -/
theorem find?_puts (o : Nat) (bs : List Byte) (j : Nat) (m : List (Nat × Byte)) {k : Nat} (hj : j ≤ k) (hk : k < j + bs.length) :
    ((imap (fun i b => (o + i, b)) j bs).foldl (fun m x => x :: m.filter (·.1 ≠ x.1)) m).find? (fun y => decide (y.1 = o + k)) =
      bs[k - j]?.map fun b => (o + k, b) := by
  have later (bs : List Byte) : ∀ (j : Nat) (m : List (Nat × Byte)), k < j →
      ((imap (fun i b => (o + i, b)) j bs).foldl (fun m x => x :: m.filter (·.1 ≠ x.1)) m).find? (fun y => decide (y.1 = o + k)) =
        m.find? fun y => decide (y.1 = o + k) := by
    induction bs with
    | nil => exact fun _ _ _ => rfl
    | cons b r ih => exact fun j m hkj => by rw [imap, List.foldl_cons, ih (j + 1) _ (by omega), find?_put, if_neg (by omega)]
  induction bs generalizing j m with
  | nil => simp at hk; omega
  | cons b r ih =>
    rw [imap, List.foldl_cons]
    by_cases h : k = j
    · subst h
      rw [later r (k + 1) _ (by omega), find?_put, if_pos rfl, Nat.sub_self]
      rfl
    · rw [ih (j + 1) _ (by omega) (by rw [List.length_cons] at hk; omega), show k - j = (k - (j + 1)) + 1 by omega, List.getElem?_cons_succ]

theorem partBytes_length {p : Part} (h : p.skip + p.len ≤ 16) : p.bytes.length = p.len := by
  rw [Part.bytes, List.length_take, List.length_drop, toBytes_length]; omega

theorem getElem?_partBytes {p : Part} {i : Nat} (h : p.skip + p.len ≤ 16) (hi : i < p.len) :
    p.bytes[i]? = some (BitVec.ofNat 8 (p.acc.data.toNat / 256 ^ (p.skip + i))) := by
  rw [Part.bytes, List.getElem?_take_of_lt hi, List.getElem?_drop, getElem?_toBytes _ (by omega)]

/-- An entry of one store writes the store's bytes at their places in the line. -/
theorem lineBytes_store {e : Entry} {p : Part} (hop : e.op = .mem) (hparts : e.parts = [p]) (hstore : p.acc.op = .store) (hskip : p.skip + p.len ≤ 16)
    {k : Nat} (hlow : p.off ≤ k) (hhigh : k < p.off + p.len) :
    e.lineBytes.find? (fun y => decide (y.1 = k)) = some (k, BitVec.ofNat 8 (p.acc.data.toNat / 256 ^ (p.skip + (k - p.off)))) := by
  have hopk : e.opk = 0 := by simp [Entry.opk, hop, Entry.any, hparts, hstore]
  obtain ⟨i, rfl⟩ := Nat.exists_eq_add_of_le hlow
  simp only [Entry.lineBytes, hparts, hopk, List.foldl_cons, List.foldl_nil, decide_true, Bool.true_or, if_true]
  rw [find?_puts p.off p.bytes 0 [] (Nat.zero_le i) (by rw [partBytes_length hskip]; omega), Nat.sub_zero, Nat.add_sub_cancel_left,
    getElem?_partBytes hskip (by omega)]
  rfl

/-! The parts of the tail (R315). -/

/-- The landing entries, padded to their 4096 bytes. -/
def Span.savedLanding (sp : Span) : List Byte := padTo 4096 (sp.ordered.map (Entry.save sp.ordered)).flatten

/-- The ferry commands, padded to their 512 bytes. -/
def Span.savedFerry (sp : Span) : List Byte := padTo 512 (((sp.ferry.filter (·.kind ≠ .nsend)).map FerryOp.save).flatten)

theorem saveTail_append (sp : Span) (now : Nat) : sp.saveTail now = sp.savedLanding ++ (sp.saveWatches now ++ (sp.savedFerry ++
    (toBytes 4 sp.spantag.toNat ++ (toBytes 4 sp.fseq ++ (toBytes 8 sp.origin.toNat ++ (toBytes 1 ((sp.first.map Cause.code).getD 0) ++
      toBytes 47 0)))))) := by
  have hfirst : (match sp.first with | some c => c.code | none => 0) = (sp.first.map Cause.code).getD 0 := by cases sp.first <;> rfl
  simp only [Span.saveTail, Span.savedLanding, Span.savedFerry, List.append_assoc, ← hfirst] <;> rfl

section
variable (sp : Span) (now : Nat)

theorem savedLanding_entry {n : Nat} {e : Entry} (he : sp.ordered[n]? = some e) {off m v : Nat} (h : HoldsNat (Entry.save sp.ordered e) off m v) :
    HoldsNat (sp.saveTail now) (128 * n + off) m v := by
  rw [saveTail_append]
  exact HoldsNat.left _ (HoldsNat.padTo _ (HoldsNat.flatten (entrySave_length sp.ordered) he h))

theorem savedLanding_byte {n : Nat} {e : Entry} (he : sp.ordered[n]? = some e) {k : Nat} {x : Byte} (h : (Entry.save sp.ordered e)[k]? = some x) :
    (sp.saveTail now)[128 * n + k]? = some x := by
  have hk : k < 128 := by rw [← entrySave_length sp.ordered e]; exact (List.getElem?_eq_some_iff.1 h).1
  rw [saveTail_append]
  refine getElem?_append_some (getElem?_append_some ?_)
  rw [getElem?_flatten (entrySave_length sp.ordered) he hk, h]

theorem entries_length : ((sp.ordered.map (Entry.save sp.ordered)).flatten).length = 128 * sp.landing.length := by
  rw [flatten_length (entrySave_length sp.ordered), ordered_length]

/-- Behind the entries stand zeros. -/
theorem savedLanding_zero {k : Nat} (hlow : 128 * sp.landing.length ≤ k) (hhigh : k < 4096) : (sp.saveTail now)[k]? = some 0 := by
  rw [saveTail_append]
  exact getElem?_append_some (getElem?_padTo (by rw [entries_length sp]; exact hlow) hhigh)

variable (hlanding : sp.landing.length ≤ 32)
include hlanding

theorem savedLanding_length : sp.savedLanding.length = 4096 := padTo_length (by rw [entries_length sp]; omega)

theorem saveTail_watches {off n v : Nat} (h : HoldsNat (sp.saveWatches now) off n v) : HoldsNat (sp.saveTail now) (0x1000 + off) n v := by
  rw [saveTail_append]
  exact (h.left _).right (savedLanding_length sp hlanding)

variable (hwatches : (sp.saveWatches now).length = 128)
include hwatches

theorem saveTail_ferry {off n v : Nat} (h : HoldsNat sp.savedFerry off n v) : HoldsNat (sp.saveTail now) (0x1000 + (128 + off)) n v := by
  rw [saveTail_append]
  exact ((h.left _).right hwatches).right (savedLanding_length sp hlanding)

variable (hferry : sp.savedFerry.length = 512)
include hferry

/-- The last fields: SPANTAG, FSEQ, ORIGIN and PCAUSE. -/
theorem saveTail_last : HoldsNat (sp.saveTail now) (0x1000 + (128 + (512 + 0))) 4 sp.spantag.toNat ∧
    HoldsNat (sp.saveTail now) (0x1000 + (128 + (512 + (4 + 0)))) 4 sp.fseq ∧
    HoldsNat (sp.saveTail now) (0x1000 + (128 + (512 + (4 + (4 + 0))))) 8 sp.origin.toNat ∧
    HoldsNat (sp.saveTail now) (0x1000 + (128 + (512 + (4 + (4 + (8 + 0)))))) 1 ((sp.first.map Cause.code).getD 0) := by
  have behind {rest : List Byte} {off n v : Nat} (h : HoldsNat rest off n v) :
      HoldsNat (sp.savedLanding ++ (sp.saveWatches now ++ (sp.savedFerry ++ rest))) (0x1000 + (128 + (512 + off))) n v :=
    ((h.right hferry).right hwatches).right (savedLanding_length sp hlanding)
  rw [saveTail_append]
  exact ⟨behind ((HoldsNat.toBytes _ _).left _), behind (((HoldsNat.toBytes _ _).left _).right (toBytes_length 4 _)),
    behind ((((HoldsNat.toBytes _ _).left _).right (toBytes_length 4 _)).right (toBytes_length 4 _)),
    behind (((((HoldsNat.toBytes _ _).left _).right (toBytes_length 8 _)).right (toBytes_length 4 _)).right (toBytes_length 4 _))⟩

end

/-! Ferry commands (R316). -/

/-- The first 8 words of a command, one after another. -/
theorem ferrySave_append (o : FerryOp) : ∃ ctrl next win, o.save = toBytes 8 o.dst.toNat ++ (toBytes 8 o.src.toNat ++ (toBytes 8 o.shape.toNat ++
    (toBytes 8 o.comp.toNat ++ (toBytes 8 o.value.toNat ++ (toBytes 8 o.strA.toNat ++ (toBytes 8 o.strB.toNat ++ (toBytes 8 ctrl ++ (toBytes 8 next ++
      (toBytes 8 win ++ (toBytes 8 o.bytes ++ toBytes 40 0)))))))))) := by
  simp only [FerryOp.save, List.foldl_cons, List.foldl_nil, List.nil_append, List.append_assoc]
  exact ⟨_, _, _, rfl⟩

theorem ferrySave_length (o : FerryOp) : o.save.length = 128 := by
  obtain ⟨ctrl, next, win, h⟩ := ferrySave_append o
  simp only [h, List.length_append, toBytes_length]

/-- A word of eight bytes behind others. -/
theorem HoldsNat.behind8 {rest : List Byte} {off n v : Nat} (x : Nat) (h : HoldsNat rest off n v) : HoldsNat (Machine.toBytes 8 x ++ rest) (8 + off) n v :=
  h.right (toBytes_length 8 x)

theorem ferrySave_fields (o : FerryOp) : HoldsNat o.save 0 8 o.dst.toNat ∧ HoldsNat o.save 8 8 o.src.toNat ∧ HoldsNat o.save 16 8 o.shape.toNat ∧
    HoldsNat o.save 24 8 o.comp.toNat ∧ HoldsNat o.save 32 8 o.value.toNat ∧ HoldsNat o.save 40 8 o.strA.toNat ∧ HoldsNat o.save 48 8 o.strB.toNat ∧
    HoldsNat o.save 80 8 o.bytes := by
  obtain ⟨ctrl, next, win, h⟩ := ferrySave_append o
  have first (x : Nat) (rest : List Byte) : HoldsNat (toBytes 8 x ++ rest) 0 8 x := (HoldsNat.toBytes 8 x).left rest
  rw [h]
  exact ⟨first _ _, (first _ _).behind8 _, ((first _ _).behind8 _).behind8 _, (((first _ _).behind8 _).behind8 _).behind8 _,
    ((((first _ _).behind8 _).behind8 _).behind8 _).behind8 _, (((((first _ _).behind8 _).behind8 _).behind8 _).behind8 _).behind8 _,
    ((((((first _ _).behind8 _).behind8 _).behind8 _).behind8 _).behind8 _).behind8 _,
    ((((((((((first _ _).behind8 _).behind8 _).behind8 _).behind8 _).behind8 _).behind8 _).behind8 _).behind8 _).behind8 _).behind8 _⟩

theorem savedFerry_length {sp : Span} (h : (sp.ferry.filter (·.kind ≠ .nsend)).length ≤ 4) : sp.savedFerry.length = 512 :=
  padTo_length (by rw [flatten_length ferrySave_length]; omega)

theorem savedFerry_command {sp : Span} {n : Nat} {o : FerryOp} (ho : (sp.ferry.filter (·.kind ≠ .nsend))[n]? = some o) {off m v : Nat}
    (h : HoldsNat o.save off m v) : HoldsNat sp.savedFerry (128 * n + off) m v := HoldsNat.padTo _ (HoldsNat.flatten ferrySave_length ho h)

/-! Watch slots (R315). -/

theorem eraseDups_nodup {α : Type} [BEq α] [LawfulBEq α] (l : List α) : l.eraseDups.Nodup := by
  match l with
  | [] => simp
  | a :: r =>
    have : (r.filter fun b => !b == a).length < r.length + 1 := Nat.lt_succ_of_le (List.length_filter_le _ _)
    rw [List.eraseDups_cons, List.nodup_cons]
    exact ⟨by simp, eraseDups_nodup _⟩
termination_by l.length

/-- The sum of the different powers of two is the mask of its bits. -/
theorem testBit_powers {L : List Nat} {l : Nat} (h : l ∈ L) : ((L.map fun i => 2 ^ i).eraseDups.sum).testBit l = true := by
  have hsum : (L.map fun i => 2 ^ i).eraseDups.sum = ∑ i ∈ L.toFinset, 2 ^ i := by
    have hset : (L.map fun i => 2 ^ i).eraseDups.toFinset = L.toFinset.image fun i => 2 ^ i := by ext x; simp
    have hlist := List.sum_toFinset (fun x : Nat => x) (eraseDups_nodup (L.map fun i => 2 ^ i))
    rw [List.map_id'] at hlist
    rw [← hlist, hset, Finset.sum_image fun a _ b _ hab => Nat.pow_right_injective (Nat.le_refl 2) hab]
  rw [hsum, ← Nat.mem_bitIndices, ← List.mem_toFinset, Finset.toFinset_bitIndices_sum_two_pow]
  exact List.mem_toFinset.2 h

theorem getElem?_imap {α β : Type} (f : Nat → α → β) (i n : Nat) (l : List α) : (imap f i l)[n]? = l[n]?.map (f (i + n)) := by
  induction l generalizing i n with
  | nil => rfl
  | cons a r ih =>
    cases n with
    | zero => rfl
    | succ n => rw [imap, List.getElem?_cons_succ, ih, List.getElem?_cons_succ, show i + 1 + n = i + (n + 1) by omega]

/-- Every wait in a slot, with its lane. -/
def Span.savedWaits (sp : Span) : List (Nat × Bool × Nat × Nat) := (imap (fun l (ln : Lane) => ln.slotWaits.map fun w => (l, w)) 0 sp.lanes).flatten

/-- What the slots watch: a line or a future each. -/
def Span.savedKeys (sp : Span) : List (Bool × Nat) := (sp.savedWaits.map fun x => (x.2.1, x.2.2.1)).eraseDups

/-- The waits that share a slot. -/
def Span.sharing (sp : Span) (k : Bool × Nat) : List (Nat × Bool × Nat × Nat) := sp.savedWaits.filter fun x => x.2.1 = k.1 && x.2.2.1 = k.2

/-- A slot of the record. -/
def Span.saveSlot (sp : Span) (now : Nat) (k : Bool × Nat) : List Byte :=
  toBytes 8 k.2 ++ toBytes 4 (((sp.sharing k).map fun x => 2 ^ x.1).eraseDups.sum) ++ toBytes 1 (if k.1 then 2 else 1) ++ toBytes 3 0 ++
    toBytes 8 (leftOf (((sp.sharing k).map (·.2.2.2)).foldl max 0) now) ++ toBytes 8 0

theorem saveWatches_eq (sp : Span) (now : Nat) : sp.saveWatches now = padTo 128 ((sp.savedKeys.map (sp.saveSlot now)).flatten) := rfl

theorem saveSlot_length (sp : Span) (now : Nat) (k : Bool × Nat) : (sp.saveSlot now k).length = 32 := by
  simp only [Span.saveSlot, List.length_append, toBytes_length]

theorem savedKeys_eq (sp : Span) : sp.savedKeys = ((sp.lanes.map Lane.slotWaits).flatten.map fun w => (w.1, w.2.1)).eraseDups := by
  have hall : ∀ (lanes : List Lane) (i : Nat), ((imap (fun l (ln : Lane) => ln.slotWaits.map fun w => (l, w)) i lanes).flatten.map fun x => (x.2.1, x.2.2.1)) =
      (lanes.map Lane.slotWaits).flatten.map fun w => (w.1, w.2.1) := by
    intro lanes
    induction lanes with
    | nil => exact fun _ => rfl
    | cons ln r ih =>
      intro i
      rw [imap, List.flatten_cons, List.map_append, ih, List.map_cons, List.flatten_cons, List.map_append, List.map_map]
      rfl
  rw [Span.savedKeys, Span.savedWaits, hall]

theorem saveWatches_length {sp : Span} (now : Nat) (h : sp.savedKeys.length ≤ 4) : (sp.saveWatches now).length = 128 := by
  rw [saveWatches_eq]
  exact padTo_length (by rw [flatten_length (saveSlot_length sp now)]; omega)

/-- A lane's wait in a slot is in the record: its key, its kind and its lane's bit. -/
theorem saveWatches_slot {sp : Span} (now : Nat) (hkeys : sp.savedKeys.length ≤ 4) {l due : Nat} {key : Bool × Nat} (hl : l < sp.lanes.length)
    (h : (key.1, key.2, due) ∈ (sp.lane l).slotWaits) : ∃ n, n < 4 ∧ HoldsNat (sp.saveWatches now) (32 * n + 0) 8 key.2 ∧
      HoldsNat (sp.saveWatches now) (32 * n + (8 + (4 + 0))) 1 (if key.1 then 2 else 1) ∧
      ∃ m, HoldsNat (sp.saveWatches now) (32 * n + (8 + 0)) 4 m ∧ m.testBit l = true := by
  have hwait : (l, key.1, key.2, due) ∈ sp.savedWaits := by
    refine List.mem_flatten.2 ⟨(sp.lane l).slotWaits.map fun w => (l, w), List.mem_of_getElem? (i := l) ?_, List.mem_map.2 ⟨_, h, rfl⟩⟩
    rw [getElem?_imap, List.getElem?_eq_getElem hl, Span.lane, List.getD_eq_getElem _ _ hl, Nat.zero_add]
    rfl
  have hkey : key ∈ sp.savedKeys := List.mem_eraseDups.2 (List.mem_map.2 ⟨_, hwait, rfl⟩)
  obtain ⟨n, hn⟩ := List.getElem?_of_mem hkey
  have hlt := (List.getElem?_eq_some_iff.1 hn).1
  have slot {off m v : Nat} (h : HoldsNat (sp.saveSlot now key) off m v) : HoldsNat (sp.saveWatches now) (32 * n + off) m v := by
    rw [saveWatches_eq]
    exact HoldsNat.padTo _ (HoldsNat.flatten (saveSlot_length sp now) hn h)
  have hbit : (((sp.sharing key).map fun (x : Nat × Bool × Nat × Nat) => 2 ^ x.1).eraseDups.sum).testBit l = true := by
    have hmap := testBit_powers (L := (sp.sharing key).map (·.1)) (l := l) (List.mem_map.2 ⟨_, List.mem_filter.2 ⟨hwait, by simp⟩, rfl⟩)
    rwa [List.map_map] at hmap
  simp only [Span.saveSlot, List.append_assoc] at slot
  exact ⟨n, by omega, slot ((HoldsNat.toBytes _ _).left _),
    slot ((((HoldsNat.toBytes _ _).left _).right (toBytes_length 4 _)).right (toBytes_length 8 _)),
    _, slot (((HoldsNat.toBytes _ _).left _).right (toBytes_length 8 _)), hbit⟩

theorem slotWaits_watch {ln : Lane} {w : Watch} (h : ln.wait = some (.watch w)) (hslot : w.slot = true) :
    (false, w.acc.ea / 64 * 64, w.due.getD 0) ∈ ln.slotWaits := by
  simp [Lane.slotWaits, h, hslot]

theorem slotWaits_join {ln : Lane} {j : Join} (h : ln.wait = some (.join j)) (hslot : j.slot = true) : (true, j.handle.toNat, 0) ∈ ln.slotWaits := by
  simp [Lane.slotWaits, h, hslot]

end Sys2Proof.Machine
end

section
/-! SUPPORT. The bytes of a save record, of a block's region and of the directory, and the obligation about saves and resumptions (R42 to R46, R262,
R313 to R317). -/

namespace Sys2Proof.Machine

/-! The record of a span, put together (R42, R315). -/

section
variable (sp : Span) (full ckpt : Bool) (now : Nat)

/-- What stands in the tail, behind the registers. -/
theorem runNat_tail {at_ off n v : Nat} (h : HoldsNat (sp.saveTail now) off n v) (hat : at_ = 1024 + 128 * sp.budget + off) :
    RunNat (sp.saveBytes full ckpt now) at_ n v := by
  have hrun := runNat_rest sp full ckpt now (saveRest_tail sp now h)
  rwa [show 512 + (512 + 128 * sp.budget + off) = at_ by omega] at hrun

theorem runByte_tail {at_ k : Nat} {x : Byte} (h : (sp.saveTail now)[k]? = some x) (hat : at_ = 1024 + 128 * sp.budget + k) :
    runByte (sp.saveBytes full ckpt now) at_ = some x := by
  have hrun := runByte_rest sp full ckpt now (k := 512 + 128 * sp.budget + k) (x := x)
    (by rw [Span.saveRest, getElem?_append_shift _ _ (saveRegs_length sp), h])
  rwa [show 512 + (512 + 128 * sp.budget + k) = at_ by omega] at hrun

/-- The head word, and the program counter, depth and predicates of the span in a full save. -/
theorem record_head : RunNat (sp.saveBytes full ckpt now) 0 8
      (2 ^ 16 * (if ckpt then 2 else 1) + (if full then 2 ^ 15 else 0) + (if sp.hmode then 2 ^ 14 else 0)) ∧
    (full = true → RunNat (sp.saveBytes full ckpt now) 8 8 0 ∧ RunNat (sp.saveBytes full ckpt now) 24 8 (256 * sp.qs.toNat)) := by
  have hpc := runNat_top sp full ckpt now (saveTop_pc sp full ckpt)
  have hflags := runNat_top sp full ckpt now (saveTop_flags sp full ckpt)
  refine ⟨headWord_saved full sp.hmode ckpt ▸ runNat_top sp full ckpt now (saveTop_head sp full ckpt), fun hfull => ?_⟩
  subst hfull
  exact ⟨hpc, by simpa using hflags⟩

/-- In a short save they are those of its first lane that has not ended. -/
theorem record_short {l : Nat} (hfull : full = false) (hl : l < 32) (hlive : (sp.lane l).st.ended = false)
    (hbefore : ∀ k, k < l → (sp.lane k).st.ended = true) :
    RunNat (sp.saveBytes full ckpt now) 8 8 (sp.lane l).pc.toNat ∧
      RunNat (sp.saveBytes full ckpt now) 24 8 ((sp.lane l).depth + 256 * sp.qs.toNat) := by
  have hpc := runNat_top sp full ckpt now (saveTop_pc sp full ckpt)
  have hflags := runNat_top sp full ckpt now (saveTop_flags sp full ckpt)
  rw [firstLane_eq hl hlive hbefore] at hpc hflags
  subst hfull
  exact ⟨hpc, hflags⟩

/-- What the record has for a lane. -/
theorem record_lane {l : Nat} (hl : l < 32) : RunNat (sp.saveBytes full ckpt now) (128 + 2 * l) 2 (sp.lane l).preds.toNat ∧
    (full = true → RunNat (sp.saveBytes full ckpt now) (64 + l) 1 (sp.lane l).st.code ∧ RunNat (sp.saveBytes full ckpt now) (96 + l) 1 (sp.lane l).depth ∧
      RunNat (sp.saveBytes full ckpt now) (256 + 8 * l) 8 (sp.lane l).pc.toNat) ∧
    (full = false → runByte (sp.saveBytes full ckpt now) (64 + l) = none ∧ runByte (sp.saveBytes full ckpt now) (96 + l) = none ∧
      ∀ k, k < 8 → runByte (sp.saveBytes full ckpt now) (256 + 8 * l + k) = none) := by
  refine ⟨runNat_mid sp full ckpt now (saveMid_preds sp hl), fun hfull => ?_, fun hfull => ?_⟩ <;> subst hfull
  · exact ⟨runNat_state sp ckpt now hl, runNat_depth sp ckpt now hl, runNat_pc sp ckpt now hl⟩
  · exact runByte_short_none sp ckpt now hl

theorem record_v {r l : Nat} (hr : r < sp.budget) (hl : l < 32) :
    RunNat (sp.saveBytes full ckpt now) (1024 + 128 * r + 4 * l) 4 (sp.v r l).toNat := by
  have hrun := runNat_rest sp full ckpt now (saveRest_v sp now hr hl)
  rwa [show 512 + (512 + 4 * (32 * r + l)) = 1024 + 128 * r + 4 * l by omega] at hrun

/-- What the record has for a landing entry of a memory access, and for its bytes where it is one store. -/
theorem record_entry {n : Nat} {e : Entry} (he : sp.ordered[n]? = some e) (hop : e.op = .mem)
    (hstores : ∀ p ∈ e.parts, p.acc.op = .store ∧ p.off + p.len ≤ 64 ∧ p.skip + p.len ≤ 16) :
    RunNat (sp.saveBytes full ckpt now) (1024 + 128 * sp.budget + 128 * n) 8 (64 * e.vline) ∧
      ∀ p, e.parts = [p] → ∀ k, p.off ≤ k → k < p.off + p.len → runByte (sp.saveBytes full ckpt now) (1024 + 128 * sp.budget + 128 * n + 64 + k) =
        some (BitVec.ofNat 8 (p.acc.data.toNat / 256 ^ (p.skip + (k - p.off)))) := by
  refine ⟨runNat_tail sp full ckpt now (savedLanding_entry sp now he (entrySave_addr _ hop)) rfl, fun p hp k hlow hhigh => ?_⟩
  obtain ⟨hstore, hline, hskip⟩ := hstores p (by rw [hp]; exact .head _)
  have hfind := lineBytes_store hop hp hstore hskip hlow hhigh
  exact runByte_tail sp full ckpt now (savedLanding_byte sp now he (entrySave_data _ hop (by omega) hfind)) (by omega)

end

section
variable {sp : Span} (full ckpt : Bool) (now : Nat) (hlanding : sp.landing.length ≤ 32) (hkeys : sp.savedKeys.length ≤ 4)
include hlanding hkeys

/-- A wait in a slot. -/
theorem record_wait {l due : Nat} {key : Bool × Nat} (hl : l < sp.lanes.length) (h : (key.1, key.2, due) ∈ (sp.lane l).slotWaits) :
    ∃ n, n < 4 ∧ RunNat (sp.saveBytes full ckpt now) (1024 + 128 * sp.budget + 0x1000 + 32 * n) 8 key.2 ∧
      RunNat (sp.saveBytes full ckpt now) (1024 + 128 * sp.budget + 0x1000 + 32 * n + 12) 1 (if key.1 then 2 else 1) ∧
      ∃ m, RunNat (sp.saveBytes full ckpt now) (1024 + 128 * sp.budget + 0x1000 + 32 * n + 8) 4 m ∧ m.testBit l = true := by
  obtain ⟨n, hn, hkey, hkind, m, hmask, hbit⟩ := saveWatches_slot now hkeys hl h
  exact ⟨n, hn, runNat_tail sp full ckpt now (saveTail_watches sp now hlanding hkey) (by omega),
    runNat_tail sp full ckpt now (saveTail_watches sp now hlanding hkind) (by omega),
    m, runNat_tail sp full ckpt now (saveTail_watches sp now hlanding hmask) (by omega), hbit⟩

/-- A ferry command. -/
theorem record_ferry {n : Nat} {o : FerryOp} (ho : (sp.ferry.filter fun f => decide (f.kind ≠ .nsend))[n]? = some o) :
    let rs := sp.saveBytes full ckpt now
    let at_ := 1024 + 128 * sp.budget + 0x1080 + 128 * n
    RunNat rs at_ 8 o.dst.toNat ∧ RunNat rs (at_ + 8) 8 o.src.toNat ∧ RunNat rs (at_ + 16) 8 o.shape.toNat ∧ RunNat rs (at_ + 24) 8 o.comp.toNat ∧
      RunNat rs (at_ + 32) 8 o.value.toNat ∧ RunNat rs (at_ + 40) 8 o.strA.toNat ∧ RunNat rs (at_ + 48) 8 o.strB.toNat ∧ RunNat rs (at_ + 80) 8 o.bytes := by
  have field {off v : Nat} (h : HoldsNat o.save off 8 v) :
      RunNat (sp.saveBytes full ckpt now) (1024 + 128 * sp.budget + 0x1080 + 128 * n + off) 8 v :=
    runNat_tail sp full ckpt now (saveTail_ferry sp now hlanding (saveWatches_length now hkeys) (savedFerry_command ho h)) (by omega)
  obtain ⟨hdst, hsrc, hshape, hcomp, hvalue, hstrA, hstrB, hbytes⟩ := ferrySave_fields o
  exact ⟨field hdst, field hsrc, field hshape, field hcomp, field hvalue, field hstrA, field hstrB, field hbytes⟩

theorem record_last (hferry : (sp.ferry.filter fun f => decide (f.kind ≠ .nsend)).length ≤ 4) :
    let rs := sp.saveBytes full ckpt now
    let tail := 1024 + 128 * sp.budget
    RunNat rs (tail + 0x1280) 4 sp.spantag.toNat ∧ RunNat rs (tail + 0x1284) 4 sp.fseq ∧ RunNat rs (tail + 0x1288) 8 sp.origin.toNat ∧
      RunNat rs (tail + 0x1290) 1 ((sp.first.map Cause.code).getD 0) := by
  obtain ⟨htag, hfseq, horigin, hfirst⟩ := saveTail_last sp now hlanding (saveWatches_length now hkeys) (savedFerry_length hferry)
  exact ⟨runNat_tail sp full ckpt now htag (by omega), runNat_tail sp full ckpt now hfseq (by omega), runNat_tail sp full ckpt now horigin (by omega),
    runNat_tail sp full ckpt now hfirst (by omega)⟩

end

/-! The region of a block (R314). -/

theorem sgets_eq_map {α : Type} (d : α) (m : List (Nat × α)) (k n : Nat) : sgets d m k n = (List.range n).map fun i => sget d m (k + i) := by
  induction n generalizing k with
  | zero => rfl
  | succ n ih =>
    rw [sgets, ih, List.range_succ_eq_map, List.map_cons, List.map_map]
    refine congrArg (sget d m k :: ·) (List.map_congr_left fun i _ => ?_)
    simp only [Function.comp_apply]
    rw [Nat.succ_eq_add_one, Nat.add_right_comm, Nat.add_assoc]

/-- Where the records of a region begin: one behind the other, each on a multiple of 64. -/
theorem foldl_recs (sps : List Span) (rs : List Nat) (e n : Nat) {sp : Span} (h : sps[n]? = some sp) :
    (sps.foldl (fun (acc : List Nat × Nat) sp => (acc.1 ++ [acc.2], acc.2 + up 64 sp.recordSize)) (rs, e)).1[rs.length + n]? =
      some (e + ((sps.take n).map fun t => (t.recordSize + 63) / 64 * 64).sum) := by
  have keeps (sps : List Span) : ∀ (rs : List Nat) (e k : Nat), k < rs.length →
      (sps.foldl (fun (acc : List Nat × Nat) sp => (acc.1 ++ [acc.2], acc.2 + up 64 sp.recordSize)) (rs, e)).1[k]? = rs[k]? := by
    induction sps with
    | nil => exact fun _ _ _ _ => rfl
    | cons t r ih =>
      intro rs e k hk
      rw [List.foldl_cons, ih (rs ++ [e]) _ _ (by rw [List.length_append]; omega), List.getElem?_append_left hk]
  induction sps generalizing rs e n with
  | nil => simp at h
  | cons t r ih =>
    rw [List.foldl_cons]
    cases n with
    | zero =>
      rw [Nat.add_zero, keeps r _ _ _ (by simp)]
      simp
    | succ n =>
      have hnext := ih (rs ++ [e]) (e + up 64 t.recordSize) n (by simpa using h)
      rw [List.length_append, List.length_singleton, Nat.add_assoc, Nat.add_comm 1 n] at hnext
      rw [hnext, List.take_succ_cons, List.map_cons, List.sum_cons, ← Nat.add_assoc]
      rfl

theorem regionAt_recs (k : Block) {sps : List Span} (ncmd : Nat) {n : Nat} {sp : Span} (h : sps[n]? = some sp) :
    (regionAt k sps ncmd).recs[n]? = some (256 + ((sps.take n).map fun t => (t.recordSize + 63) / 64 * 64).sum) := by
  have hrecs := foldl_recs sps [] 0x100 n h
  rwa [List.length_nil, Nat.zero_add] at hrecs

/-- The first 256 bytes of a region: its head and the barriers of its block. -/
def State.regionHead (s : State) (k : Block) (sps : List Span) : List Byte :=
  padTo 128 (toBytes 4 sps.length ++ toBytes 4 k.bytes ++ toBytes 1 k.tiles.length) ++ s.barBytes (k.launch, k.idx) k.broken

theorem regionBytes_head (s : State) (k : Block) (sps : List Span) (ckpt : Bool) : ∃ rs, s.regionBytes k sps ckpt = [] ++ (0, s.regionHead k sps) :: rs := ⟨_, rfl⟩

section
variable (s : State) (k : Block) (sps : List Span) (ckpt : Bool)

theorem runNat_region {off n v : Nat} (h : HoldsNat (s.regionHead k sps) off n v) : RunNat (s.regionBytes k sps ckpt) off n v := by
  obtain ⟨rs, hrs⟩ := regionBytes_head s k sps ckpt
  rw [hrs, ← Nat.zero_add off]
  exact runNat_at (by simp) h

/-- How many spans, and how large the deck and the tiles of the block are. -/
theorem region_sizes : RunNat (s.regionBytes k sps ckpt) 0 4 sps.length ∧ RunNat (s.regionBytes k sps ckpt) 4 4 k.bytes ∧
    RunNat (s.regionBytes k sps ckpt) 8 1 k.tiles.length := by
  have padded {off n v : Nat} (h : HoldsNat (toBytes 4 sps.length ++ (toBytes 4 k.bytes ++ toBytes 1 k.tiles.length)) off n v) :
      RunNat (s.regionBytes k sps ckpt) off n v := by
    rw [← List.append_assoc] at h
    exact runNat_region s k sps ckpt (HoldsNat.left _ (HoldsNat.padTo 128 h))
  exact ⟨padded ((HoldsNat.toBytes _ _).left _), padded (((HoldsNat.toBytes _ _).left _).right (toBytes_length 4 _)),
    padded (((HoldsNat.toBytes _ _).right (toBytes_length 4 _)).right (toBytes_length 4 _))⟩

/-- The barriers of the block. -/
theorem region_bars {n : Nat} (hn : n < 16) :
    RunNat (s.regionBytes k sps ckpt) (128 + 8 * n) 4 (s.bar (blockKey (k.launch, k.idx) n)).arrivals ∧
      RunNat (s.regionBytes k sps ckpt) (132 + 8 * n) 2 ((s.bar (blockKey (k.launch, k.idx) n)).count.getD 0) ∧
      RunNat (s.regionBytes k sps ckpt) (134 + 8 * n) 2 k.broken.toNat := by
  have hpad : (padTo 128 (toBytes 4 sps.length ++ toBytes 4 k.bytes ++ toBytes 1 k.tiles.length)).length = 128 :=
    padTo_length (by simp only [List.length_append, toBytes_length]; decide)
  have bar {off m v : Nat} (h : HoldsNat (toBytes 4 (s.bar (blockKey (k.launch, k.idx) n)).arrivals ++
      (toBytes 2 ((s.bar (blockKey (k.launch, k.idx) n)).count.getD 0) ++ toBytes 2 k.broken.toNat)) off m v) {at_ : Nat} (hat : at_ = 128 + (8 * n + off)) :
      RunNat (s.regionBytes k sps ckpt) at_ m v := by
    rw [← List.append_assoc] at h
    rw [hat]
    exact runNat_region s k sps ckpt (HoldsNat.right hpad (HoldsNat.flatten (m := 8) (f := fun n => toBytes 4 (s.bar (blockKey (k.launch, k.idx) n)).arrivals ++
      toBytes 2 ((s.bar (blockKey (k.launch, k.idx) n)).count.getD 0) ++ toBytes 2 k.broken.toNat)
      (fun _ => by simp only [List.length_append, toBytes_length]) (List.getElem?_range hn) h))
  exact ⟨bar ((HoldsNat.toBytes _ _).left _) (by omega), bar (((HoldsNat.toBytes _ _).left _).right (toBytes_length 4 _)) (by omega),
    bar (((HoldsNat.toBytes _ _).right (toBytes_length 2 _)).right (toBytes_length 4 _)) (by omega)⟩

/-- The runs of a saved span stand at its record. -/
theorem region_record {n : Nat} {sp : Span} {r : Nat} {full : Bool} (hsp : sps[n]? = some sp)
    (hr : (regionAt k sps (s.planeCmds (k.launch, k.idx)).length).recs[n]? = some r) (hfull : sp.status = .saved full) {y : Nat × List Byte}
    (hy : y ∈ sp.saveBytes full ckpt (s.time (k.pier / 40)).toNat) : (r + y.1, y.2) ∈ s.regionBytes k sps ckpt := by
  have hzip : (r, sp) ∈ List.zip (regionAt k sps (s.planeCmds (k.launch, k.idx)).length).recs sps :=
    List.mem_of_getElem? (List.getElem?_zip_eq_some.2 ⟨hr, hsp⟩)
  refine List.mem_append_left _ (List.mem_append_left _ (List.mem_append_right _ (List.mem_flatten.2 ⟨_, List.mem_map.2 ⟨_, hzip, rfl⟩, ?_⟩)))
  simp only [hfull]
  exact List.mem_map.2 ⟨y, hy, rfl⟩

/-- The deck of a block that is no berth. -/
theorem region_deck (hberth : k.berth = false) : ((regionAt k sps (s.planeCmds (k.launch, k.idx)).length).deck,
    (List.range ((k.bytes + 63) / 64 * 64)).map fun n => sget 0 k.deck n) ∈ s.regionBytes k sps ckpt := by
  refine List.mem_append_left _ (List.mem_append_right _ ?_)
  rw [hberth, if_neg Bool.false_ne_true, sgets_eq_map, List.mem_singleton]
  simp only [Nat.zero_add]
  rfl

end

/-! The directory, and the save of a context (R313). -/

def SpanStatus.isSaved : SpanStatus → Bool
  | .saved _ => true
  | _ => false

/-- The spans of a context that are saved. -/
def State.savedOf (s : State) (cx : Context) : List Span := s.spans.filter fun t => decide (t.ctx = cx.id) && t.status.isSaved

theorem filter_savedOf (s : State) (cx : Context) : (s.spans.filter (·.ctx = cx.id)).filter (·.status.isSaved) = s.savedOf cx := by
  rw [List.filter_filter]
  exact List.filter_congr fun t _ => Bool.and_comm _ _

/-- Every span of the context is stopped, and the engine has stopped at each operation of their blocks: nothing keeps the save waiting. -/
theorem trySave_open {s : State} {cx : Context} (hstatus : cx.status = .saving) (hrun : ∀ t ∈ s.spans, t.ctx = cx.id → t.status ≠ .running)
    (hplane : ∀ o ∈ s.planeq, ∀ t ∈ s.savedOf cx, o.blk = t.block → o.stopped = true) :
    ¬ (decide (cx.status ≠ .saving) || (s.spans.filter (·.ctx = cx.id)).any (·.status = .running) || s.planeq.any fun o =>
      (((s.spans.filter (·.ctx = cx.id)).filter (·.status.isSaved)).any (·.block = o.blk)) && !o.stopped) = true := by
  have hnone : (s.spans.filter (·.ctx = cx.id)).any (·.status = .running) = false := by
    simp only [List.any_eq_false, List.mem_filter, decide_eq_true_eq]
    exact fun t ht => hrun t ht.1 ht.2
  have hstopped : (s.planeq.any fun o => ((s.savedOf cx).any (·.block = o.blk)) && !o.stopped) = false := by
    simp only [List.any_eq_false, Bool.and_eq_true, List.any_eq_true, decide_eq_true_eq, Bool.not_eq_true']
    rintro o ho ⟨⟨t, ht, hblk⟩, hgoing⟩
    rw [hplane o ho t ht hblk.symm] at hgoing
    exact Bool.noConfusion hgoing
  rw [filter_savedOf, hnone, hstopped, hstatus]
  simp

/-- A directory entry by its fields: SLOTB is the lowest slot of the block's spans. -/
theorem dirEntry_eq {sps : List Span} {x : Block × Nat} {first : Nat} (hle : ∀ t ∈ blockSpans sps x.1, first ≤ t.slot)
    (hmem : ∃ t ∈ blockSpans sps x.1, first = t.slot) : dirEntry sps x = toBytes 8 x.2 ++ toBytes 4 (if x.1.berth then 2 ^ 32 - 1 else x.1.idx) ++
      toBytes 1 (x.1.pier / 40) ++ toBytes 1 (x.1.pier % 40) ++ toBytes 1 first ++ [0] := by
  obtain ⟨t, ht, rfl⟩ := hmem
  have hslot : t.slot ∈ (blockSpans sps x.1).map (·.slot) := List.mem_map_of_mem ht
  obtain ⟨u, hu, hmin⟩ := List.mem_map.1 (minNat_mem (List.ne_nil_of_mem hslot))
  have hfirst : minNat ((blockSpans sps x.1).map (·.slot)) = t.slot := Nat.le_antisymm (minNat_le hslot) (hmin ▸ hle u hu)
  rw [dirEntry, hfirst]
  rfl

/-- Entries that are each a block's are the directory. -/
theorem directory_eq {sps : List Span} {lay : List (Block × Nat)} {entries : List (Nat × List Byte)} (hcount : entries.length = lay.length)
    (hentry : ∀ n x, lay[n]? = some x → entries[n]? = some (64 + 16 * n, dirEntry sps x)) :
    imap (fun i x => (64 + 16 * i, dirEntry sps x)) 0 lay = entries := by
  refine List.ext_getElem? fun n => ?_
  rw [getElem?_imap, Nat.zero_add]
  cases hx : lay[n]? with
  | none => rw [List.getElem?_eq_none (hcount ▸ List.getElem?_eq_none_iff.1 hx)]; rfl
  | some x => rw [hentry n x hx]; rfl

section
variable {s : State} {cx : Context} (hstatus : cx.status = .saving) (hrun : ∀ t ∈ s.spans, t.ctx = cx.id → t.status ≠ .running)
  (hplane : ∀ o ∈ s.planeq, ∀ t ∈ s.savedOf cx, o.blk = t.block → o.stopped = true)
include hstatus hrun hplane

theorem trySave_refused (hsmall : cx.savesize.toNat < (s.saveLayout (s.savedOf cx)).2) :
    s.trySave cx = s.refuseSave cx (s.saveLayout (s.savedOf cx)).2 0 := by
  have hopen := trySave_open hstatus hrun hplane
  rw [← filter_savedOf] at hsmall ⊢
  exact (if_neg hopen).trans (if_pos hsmall)

/-- The save area is written whole: the save is complete. -/
theorem trySave_written (hlarge : (s.saveLayout (s.savedOf cx)).2 ≤ cx.savesize.toNat) {s1 : State} {pages : List Nat}
    (hwrite : s.writeRuns cx cx.savebase ([(0, toBytes 8 (s.saveLayout (s.savedOf cx)).1.length ++ toBytes 8 (s.saveLayout (s.savedOf cx)).2 ++ toBytes 48 0)] ++
      ((s.saveLayout (s.savedOf cx)).1.map fun x => (s.regionBytes x.1 (blockSpans (s.savedOf cx) x.1) cx.ckpt).map fun y => (x.2 + y.1, y.2)).flatten ++
      imap (fun i x => (64 + 16 * i, dirEntry (s.savedOf cx) x)) 0 (s.saveLayout (s.savedOf cx)).1) = (s1, none, pages)) :
    s.trySave cx = s1.saveDone cx (s.savedOf cx) (s.saveLayout (s.savedOf cx)).1 := by
  have hopen := trySave_open hstatus hrun hplane
  have hlarge' : ¬ cx.savesize.toNat < (s.saveLayout (s.savedOf cx)).2 := Nat.not_lt.2 hlarge
  rw [← filter_savedOf] at hlarge' hwrite ⊢
  refine (if_neg hopen).trans ((if_neg hlarge').trans ?_)
  dsimp only
  split <;> rename_i heq
  · obtain ⟨rfl, -⟩ := Prod.mk.inj (hwrite.symm.trans heq)
    rfl
  all_goals
    obtain ⟨-, hout⟩ := Prod.mk.inj (hwrite.symm.trans heq)
    cases hout

end

/-- Settles O48: the steps of a pre-emption, the save point by its cases, the resumption of one span, and the three kinds of bytes by their places. -/
theorem savesAndResumptions : Obligations.saves_and_resumptions := by
  refine ⟨preemption_steps, savePoint_cases, ?resumption, ?record, ?region, ?directory⟩
  case resumption =>
    intro s s1 cx k sp n off bs hcx hstatus hregion hk htiles hsps hpier hfence hroom hferry hcount hlanes hread rec_ word hfull
    have hsaved (l : Nat) (hl : l < 32) : (sp.lane l).Saved := by
      obtain ⟨hwait, hkept, htask, halive⟩ := hlanes l hl
      exact ⟨hwait, hkept, htask, halive⟩
    obtain ⟨u, sp', hgoes, hthere, hbuilt, hgone⟩ := resumption_rebuilds s s1 cx k sp n off bs hcx hstatus hregion hk htiles hsps hpier hfence hroom
      hferry hcount hsaved hread hfull
    refine ⟨u, sp', hgoes, hthere, hbuilt.mode, hbuilt.fseq, hbuilt.cause, hbuilt.uid, hbuilt.status, hgone, hbuilt.s, hbuilt.v, fun l hl => ?_⟩
    rw [hbuilt.lane l hl]
    refine ⟨readBlock_pc rec_ hl, readBlock_depth rec_ hl, congrArg (BitVec.ofNat 16) (readBlock_preds rec_ hl), ?_⟩
    exact congrArg restoredState (readBlock_state rec_ hl)
  case record =>
    intro sp full ckpt now hcount hlanding rs tail
    obtain ⟨hhead, hfull⟩ := record_head sp full ckpt now
    refine ⟨hhead, hfull, fun l hf hl => record_short sp full ckpt now hf hl, runNat_top sp full ckpt now (saveTop_ended sp full ckpt),
      fun l hl => record_lane sp full ckpt now hl, fun r hr => runNat_rest sp full ckpt now (saveRest_s sp now hr), fun r l hr hl => record_v sp full ckpt now hr hl,
      fun n e => record_entry sp full ckpt now, fun k hlow hhigh => runByte_tail sp full ckpt now (savedLanding_zero sp now hlow hhigh) rfl,
      fun hkeys hferry => ?slots⟩
    rw [← savedKeys_eq] at hkeys
    refine ⟨fun n o => record_ferry full ckpt now hlanding hkeys, fun l w hl hwait hslot => ?watch, fun l j hl hwait hslot => ?join,
      record_last full ckpt now hlanding hkeys hferry⟩
    case watch =>
      have hin := slotWaits_watch hwait hslot
      rw [Nat.mul_comm] at hin
      exact record_wait (key := (false, 64 * (w.acc.ea / 64))) full ckpt now hlanding hkeys (hcount ▸ hl) hin
    case join => exact record_wait (key := (true, j.handle.toNat)) full ckpt now hlanding hkeys (hcount ▸ hl) (slotWaits_join hwait hslot)
  case region =>
    intro s k sps ckpt
    obtain ⟨hspans, hdeck, htiles⟩ := region_sizes s k sps ckpt
    exact ⟨hspans, hdeck, htiles, fun n hn => region_bars s k sps ckpt hn, fun n sp hsp => ⟨_, regionAt_recs k _ hsp, rfl,
      fun full hfull y hy => region_record s k sps ckpt hsp (regionAt_recs k _ hsp) hfull hy⟩, region_deck s k sps ckpt⟩
  case directory =>
    intro s cx hstatus sps hrun hplane L
    refine ⟨trySave_refused hstatus hrun hplane, fun hlarge s1 pages entries hcount hentry hwrite => trySave_written (pages := pages) hstatus hrun hplane hlarge ?_⟩
    have hdir : imap (fun i x => (64 + 16 * i, dirEntry sps x)) 0 L.1 = entries := directory_eq hcount fun n x hx => by
      obtain ⟨first, hfirst, hle, hmem⟩ := hentry n x hx
      rw [hfirst, dirEntry_eq hle hmem]
    rw [← hdir] at hwrite
    exact hwrite

end Sys2Proof.Machine
end

section
/-! SUPPORT. Words and what they stand for: each code and each layout reads back what it wrote, and the obligations about the encodings (R51 to R75). -/

namespace Sys2Proof

/-! Bits of words. -/

theorem ofBool_getLsbD {n : Nat} (w : BitVec n) (k : Nat) : BitVec.ofBool (w.getLsbD k) = w.extractLsb' k 1 := by
  ext j hj
  obtain rfl : j = 0 := by omega
  simp

theorem eq_ofNat_of_toNat {n k : Nat} {b : BitVec n} (h : b.toNat = k) : b = BitVec.ofNat n k := by
  rw [← h, BitVec.ofNat_toNat, BitVec.setWidth_eq]

/-! Readings that may fail. -/

theorem bind_eq_ok {α β : Type} {m : Except Ill α} {k : α → Except Ill β} {b : β} : m >>= k = .ok b ↔ ∃ a, m = .ok a ∧ k a = .ok b := by
  cases m with
  | error e => exact ⟨nofun, nofun⟩
  | ok a => exact ⟨fun h => ⟨a, rfl, h⟩, fun ⟨_, h, hk⟩ => by cases h; exact hk⟩

theorem code_eq_ok {α : Type} {o : Option α} {e : Ill} {a : α} : code o e = .ok a ↔ o = some a := by
  cases o <;> simp [code]

/-! Codes (R52, R56, R57, R60, R61, R72): each reads back, and stands for one value. -/

@[simp] theorem tyOfNat_code (t : Ty) : tyOfNat t.code.toNat = some t := by cases t <;> rfl

theorem code_of_tyOfNat : ∀ {b : BitVec 5} {t : Ty}, tyOfNat b.toNat = some t → t.code = b := by
  decide

@[simp] theorem scopeOf_code (c : Scope) : scopeOf c.code = some c := by cases c <;> rfl

theorem code_of_scopeOf : ∀ {b : BitVec 3} {c : Scope}, scopeOf b = some c → c.code = b := by
  decide

@[simp] theorem orderOf_code (o : Order) : orderOf o.code = some o := by cases o <;> rfl

theorem code_of_orderOf : ∀ {b : BitVec 3} {o : Order}, orderOf b = some o → o.code = b := by
  decide

@[simp] theorem combineOf_code (c : Combine) : combineOf c.code = some c := by cases c <;> rfl

theorem code_of_combineOf : ∀ {b : BitVec 3} {c : Combine}, combineOf b = some c → c.code = b := by
  decide

@[simp] theorem condOf_code (c : Cond) : condOf (BitVec.ofNat 3 c.code) = c := by cases c <;> rfl

theorem code_condOf : ∀ b : BitVec 3, BitVec.ofNat 3 (condOf b).code = b := by
  decide

@[simp] theorem copOf_code (c : Cop) : copOf c.code = some c := by cases c <;> rfl

theorem code_of_copOf {b : BitVec 7} {c : Cop} (h : copOf b = some c) : c.code = b := by
  unfold copOf at h
  split at h <;> cases h <;> rename_i hb <;> exact (eq_ofNat_of_toNat hb).symm

@[simp] theorem guardOf_guardBits (g : Guard) : guardOf (guardBits g) = .ok g := by
  cases g with
  | always => rfl
  | pred p neg =>
    have hpred : (guardBits (.pred p neg)).extractLsb' 1 4 = p := by
      simp (disch := decide) only [guardBits, BitVec.extractLsb'_append_eq_of_le, BitVec.extractLsb'_append_eq_of_add_le,
        BitVec.extractLsb'_eq_self, Nat.reduceSub]
    have hneg : (guardBits (.pred p neg)).getLsbD 0 = neg := by
      simp only [guardBits, BitVec.getLsbD_append, Nat.reduceLT, ↓reduceIte, BitVec.getLsbD_ofBool, decide_true, Bool.true_and]
    have hset : (guardBits (.pred p neg)).getLsbD 5 = true := by
      simp only [guardBits, BitVec.getLsbD_append, Nat.reduceLT, Nat.reduceSub, ↓reduceIte]
      rfl
    rw [guardOf, if_pos hset, hpred, hneg]

theorem guardBits_of_guardOf {b : BitVec 6} {g : Guard} (h : guardOf b = .ok g) : guardBits g = b := by
  unfold guardOf at h
  split at h
  case isTrue hset =>
    obtain rfl := Except.ok.inj h
    have htop : (1#1 : BitVec 1) = b.extractLsb' 5 1 := by rw [← ofBool_getLsbD, hset]; rfl
    simp (disch := decide) only [guardBits, htop, ofBool_getLsbD, BitVec.extractLsb'_append_extractLsb'_eq_extractLsb']
    exact BitVec.extractLsb'_eq_self
  case isFalse =>
    split at h
    case isTrue hzero =>
      obtain rfl := Except.ok.inj h
      exact hzero.symm
    case isFalse => cases h

/-! The full form (R51). -/

section
variable (op : BitVec 10) (c : Ctl) (d a : BitVec 8) (rest : BitVec 29)

theorem packFull_form : (packFull op c d a rest).getLsbD 63 = false := by
  simp only [packFull, BitVec.getLsbD_append]
  rfl

@[simp] theorem opOf_packFull : opOf (packFull op c d a rest) = op := by
  simp (disch := decide) only [opOf, packFull, bits, BitVec.extractLsb'_append_eq_of_le, BitVec.extractLsb'_append_eq_of_add_le,
    BitVec.extractLsb'_eq_self, Nat.reduceSub]

@[simp] theorem dOf_packFull : dOf (packFull op c d a rest) = d := by
  simp (disch := decide) only [dOf, packFull, bits, BitVec.extractLsb'_append_eq_of_le, BitVec.extractLsb'_append_eq_of_add_le,
    BitVec.extractLsb'_eq_self, Nat.reduceSub]

@[simp] theorem aOf_packFull : aOf (packFull op c d a rest) = a := by
  simp (disch := decide) only [aOf, packFull, bits, BitVec.extractLsb'_append_eq_of_le, BitVec.extractLsb'_append_eq_of_add_le,
    BitVec.extractLsb'_eq_self, Nat.reduceSub]

@[simp] theorem ctlOf_packFull : ctlOf (packFull op c d a rest) = .ok c := by
  have hguard : bits (packFull op c d a rest) 56 6 = guardBits c.guard := by
    simp (disch := decide) only [packFull, bits, BitVec.extractLsb'_append_eq_of_le, BitVec.extractLsb'_append_eq_of_add_le,
      BitVec.extractLsb'_eq_self, Nat.reduceSub]
  have hw : (packFull op c d a rest).getLsbD 62 = c.w := by
    simp only [packFull, BitVec.getLsbD_append, Nat.reduceLT, Nat.reduceSub, ↓reduceIte, BitVec.getLsbD_ofBool, decide_true, Bool.true_and]
  have hu : (packFull op c d a rest).getLsbD 45 = c.u := by
    simp only [packFull, BitVec.getLsbD_append, Nat.reduceLT, Nat.reduceSub, ↓reduceIte, BitVec.getLsbD_ofBool, decide_true, Bool.true_and]
  simp only [ctlOf, hguard, hw, hu, guardOf_guardBits]
  rfl

/-- Bits of the fields that the layout shares out. -/
theorem bits_packFull {lo n : Nat} (h : lo + n ≤ 29) : bits (packFull op c d a rest) lo n = rest.extractLsb' lo n :=
  BitVec.extractLsb'_append_eq_of_add_le h

theorem bit_packFull {k : Nat} (h : k < 29) : (packFull op c d a rest).getLsbD k = rest.getLsbD k := by
  simp only [packFull, BitVec.getLsbD_append, h, if_true]

end

/-- A word of the full form by its fields. -/
theorem packFull_of_ctlOf {w : Word} {c : Ctl} (hform : w.getLsbD 63 = false) (h : ctlOf w = .ok c) :
    packFull (opOf w) c (dOf w) (aOf w) (bits w 0 29) = w := by
  obtain ⟨g, hg, hc⟩ := bind_eq_ok.1 h
  obtain rfl := Except.ok.inj hc
  have htop : (0#1 : BitVec 1) = w.extractLsb' 63 1 := by rw [← ofBool_getLsbD, hform]; rfl
  simp (disch := decide) only [packFull, htop, guardBits_of_guardOf hg, ofBool_getLsbD, opOf, dOf, aOf, bits,
    BitVec.extractLsb'_append_extractLsb'_eq_extractLsb']
  exact BitVec.extractLsb'_eq_self

/-! The layouts (R56, R58, R60). -/

/-- A layout of the full form: its fields read back, and a word that reads is the word of what it reads. -/
structure Layout {α : Type} (pack : BitVec 10 → α → Word) (read : Word → Except Ill α) : Prop where
  form : ∀ op x, (pack op x).getLsbD 63 = false
  op : ∀ op x, opOf (pack op x) = op
  read_pack : ∀ op x, read (pack op x) = .ok x
  pack_read : ∀ w x, w.getLsbD 63 = false → read w = .ok x → pack (opOf w) x = w

theorem layout_RRR : Layout packRRR readRRR where
  form _ _ := packFull_form ..
  op _ _ := opOf_packFull ..
  read_pack op x := by
    simp (disch := decide) only [readRRR, packRRR, ctlOf_packFull, dOf_packFull, aOf_packFull, bits_packFull, bit_packFull,
      BitVec.extractLsb'_append_eq_of_le, BitVec.extractLsb'_append_eq_of_add_le, BitVec.extractLsb'_eq_self, BitVec.getLsbD_append,
      Nat.reduceLT, Nat.reduceSub, ↓reduceIte, BitVec.getLsbD_ofBool, decide_true, Bool.true_and, tyOfNat_code]
    rfl
  pack_read w x hform h := by
    obtain ⟨c, hc, h⟩ := bind_eq_ok.1 h
    obtain ⟨t, ht, h⟩ := bind_eq_ok.1 h
    obtain rfl := Except.ok.inj h
    refine Eq.trans (congrArg (packFull _ _ _ _) ?_) (packFull_of_ctlOf hform hc)
    simp (disch := decide) only [code_of_tyOfNat (code_eq_ok.1 ht), ofBool_getLsbD, BitVec.extractLsb'_append_extractLsb'_eq_extractLsb']

theorem layout_RIT : Layout packRIT readRIT where
  form _ _ := packFull_form ..
  op _ _ := opOf_packFull ..
  read_pack op x := by
    simp (disch := decide) only [readRIT, packRIT, ctlOf_packFull, dOf_packFull, aOf_packFull, bits_packFull,
      BitVec.extractLsb'_append_eq_of_le, BitVec.extractLsb'_append_eq_of_add_le, BitVec.extractLsb'_eq_self, Nat.reduceSub, tyOfNat_code]
    rfl
  pack_read w x hform h := by
    obtain ⟨c, hc, h⟩ := bind_eq_ok.1 h
    obtain ⟨t, ht, h⟩ := bind_eq_ok.1 h
    obtain rfl := Except.ok.inj h
    refine Eq.trans (congrArg (packFull _ _ _ _) ?_) (packFull_of_ctlOf hform hc)
    simp (disch := decide) only [code_of_tyOfNat (code_eq_ok.1 ht), BitVec.extractLsb'_append_extractLsb'_eq_extractLsb']

theorem layout_RIC : Layout packRIC readRIC where
  form _ _ := packFull_form ..
  op _ _ := opOf_packFull ..
  read_pack op x := by
    simp (disch := decide) only [readRIC, packRIC, ctlOf_packFull, dOf_packFull, aOf_packFull, bits_packFull,
      BitVec.extractLsb'_append_eq_of_le, BitVec.extractLsb'_append_eq_of_add_le, BitVec.extractLsb'_eq_self, Nat.reduceSub, tyOfNat_code,
      combineOf_code, condOf_code]
    rfl
  pack_read w x hform h := by
    obtain ⟨c, hc, h⟩ := bind_eq_ok.1 h
    obtain ⟨t, ht, h⟩ := bind_eq_ok.1 h
    obtain ⟨ct, hct, h⟩ := bind_eq_ok.1 h
    obtain rfl := Except.ok.inj h
    refine Eq.trans (congrArg (packFull _ _ _ _) ?_) (packFull_of_ctlOf hform hc)
    simp (disch := decide) only [code_of_tyOfNat (code_eq_ok.1 ht), code_of_combineOf (code_eq_ok.1 hct), code_condOf,
      BitVec.extractLsb'_append_extractLsb'_eq_extractLsb']

theorem layout_RIB : Layout packRIB readRIB where
  form _ _ := packFull_form ..
  op _ _ := opOf_packFull ..
  read_pack op x := by
    simp (disch := decide) only [readRIB, packRIB, ctlOf_packFull, dOf_packFull, aOf_packFull, bits_packFull, bit_packFull,
      BitVec.extractLsb'_append_eq_of_add_le, BitVec.extractLsb'_eq_self, BitVec.getLsbD_append,
      Nat.reduceLT, Nat.reduceSub, ↓reduceIte, BitVec.getLsbD_ofBool, decide_true, Bool.true_and]
    rfl
  pack_read w x hform h := by
    obtain ⟨c, hc, h⟩ := bind_eq_ok.1 h
    obtain rfl := Except.ok.inj h
    refine Eq.trans (congrArg (packFull _ _ _ _) ?_) (packFull_of_ctlOf hform hc)
    simp (disch := decide) only [ofBool_getLsbD, BitVec.extractLsb'_append_extractLsb'_eq_extractLsb']

theorem layout_RIW : Layout packRIW readRIW where
  form _ _ := packFull_form ..
  op _ _ := opOf_packFull ..
  read_pack op x := by
    simp (disch := decide) only [readRIW, packRIW, ctlOf_packFull, dOf_packFull, aOf_packFull, bits_packFull, BitVec.extractLsb'_eq_self]
    rfl
  pack_read w x hform h := by
    obtain ⟨c, hc, h⟩ := bind_eq_ok.1 h
    obtain rfl := Except.ok.inj h
    exact packFull_of_ctlOf hform hc

theorem layout_MEM : Layout packMEM readMEM where
  form _ _ := packFull_form ..
  op _ _ := opOf_packFull ..
  read_pack op x := by
    simp (disch := decide) only [readMEM, packMEM, ctlOf_packFull, dOf_packFull, aOf_packFull, bits_packFull, bit_packFull,
      BitVec.extractLsb'_append_eq_of_le, BitVec.extractLsb'_append_eq_of_add_le, BitVec.extractLsb'_eq_self, BitVec.getLsbD_append,
      Nat.reduceLT, Nat.reduceSub, ↓reduceIte, BitVec.getLsbD_ofBool, decide_true, Bool.true_and, scopeOf_code, orderOf_code]
    rfl
  pack_read w x hform h := by
    obtain ⟨c, hc, h⟩ := bind_eq_ok.1 h
    obtain ⟨sc, hsc, h⟩ := bind_eq_ok.1 h
    obtain ⟨o, ho, h⟩ := bind_eq_ok.1 h
    obtain rfl := Except.ok.inj h
    refine Eq.trans (congrArg (packFull _ _ _ _) ?_) (packFull_of_ctlOf hform hc)
    simp (disch := decide) only [code_of_scopeOf (code_eq_ok.1 hsc), code_of_orderOf (code_eq_ok.1 ho), ofBool_getLsbD,
      BitVec.extractLsb'_append_extractLsb'_eq_extractLsb']

/-! The opcode map (R73). -/

section
variable {α : Type} {pack : BitVec 10 → α → Word} {read : Word → Except Ill α} (h : Layout pack read) {C : α → Instr} {n : Nat}
include h

/-- A row of the opcode map reads the word that it writes. -/
theorem Layout.row_read (op : BitVec 10) (x : α) (hrow : ∀ w, opOf w = op → readFull w = C <$> read w) :
    readFull (pack op x) = .ok (C x) := by
  rw [hrow _ (h.op op x), h.read_pack]
  rfl

/-- What a row of the opcode map reads from a word, it writes as that word. -/
theorem Layout.row_write {w : Word} {i : Instr} (hform : w.getLsbD 63 = false) (hop : (opOf w).toNat = n)
    (hC : ∀ x, encodeFull (C x) = some (pack (BitVec.ofNat 10 n) x)) (hread : C <$> read w = .ok i) : encodeFull i = some w := by
  cases hx : read w with
  | error e => rw [hx] at hread; cases hread
  | ok x =>
    rw [hx] at hread
    obtain rfl := Except.ok.inj hread
    rw [hC, ← eq_ofNat_of_toNat hop, h.pack_read w x hform hx]

end

theorem readFull_of_encodeFull {i : Instr} {w : Word} (h : encodeFull i = some w) : w.getLsbD 63 = false ∧ readFull w = .ok i := by
  cases i with
  | nop x | brx x | callx x | ret x | yield x | cvg x | exit x | cmp x | fcmp x | plop x | pmov x | vote x | pset x | add x | sub x | adds x
    | subs x | mul x | mulh x | mad x | div x | rem x | neg x | abs x | min x | max x | and x | or x | xor x | andn x | shl x | shr x
    | sha x | rot x | sel x | mov x | xtn x | bfx x | bfi x | popc x | clz x | brev x | shfl x | reds x | rdln x | wrln x | mfs x | mts x
    | rdix x | wrix x | pfs x | lth x | fcan x | fstat x | fadd x | fsub x | fmul x | ffma x | fmin x | fmax x | fdiv x | fsqrt x | frcp x
    | frsq x | fex2 x | flg2 x | fcls x | frnd x | fdot2 x | cvt x | rng x | pack x | unpk x | pmma x | pmms x | plma x | pacz x | pdrn x
    | pdrb x | pacs x | pacl x | psync x | spawn x | fref x | fdrop x | fjoin x | fpoll x | fret x | rpt x | post x | lnch x | rft x | mfc x
    | mtc x | tlbi x | snap x | time x | ctr x | sleep x =>
    obtain rfl := Option.some.inj h
    exact ⟨layout_RRR.form .., layout_RRR.row_read _ _ fun w hop => by rw [readFull, hop]; rfl⟩
  | addImm x | subImm x | addsImm x | subsImm x | mulImm x | mulhImm x | divImm x | remImm x | minImm x | maxImm x | andImm x | orImm x
    | xorImm x | andnImm x | shlImm x | shrImm x | shaImm x | rotImm x =>
    obtain rfl := Option.some.inj h
    exact ⟨layout_RIT.form .., layout_RIT.row_read _ _ fun w hop => by rw [readFull, hop]; rfl⟩
  | cmpImm x =>
    obtain rfl := Option.some.inj h
    exact ⟨layout_RIC.form .., layout_RIC.row_read _ _ fun w hop => by rw [readFull, hop]; rfl⟩
  | bra x | brq x | call x =>
    obtain rfl := Option.some.inj h
    exact ⟨layout_RIB.form .., layout_RIB.row_read _ _ fun w hop => by rw [readFull, hop]; rfl⟩
  | trap x | bkpt x | movi x | movh x | lea x =>
    obtain rfl := Option.some.inj h
    exact ⟨layout_RIW.form .., layout_RIW.row_read _ _ fun w hop => by rw [readFull, hop]; rfl⟩
  | ld x | st x | ldd x | std x | lda x | stl x | cctl x | atom x | red x | cas x | atomd x | fence x | waita x | bara x | barw x | mbinit x
    | mbarv x | mbexp x | mbwait x | sred x | fcpy x | fcpyt x | fpln x | nsend x =>
    obtain rfl := Option.some.inj h
    exact ⟨layout_MEM.form .., layout_MEM.row_read _ _ fun w hop => by rw [readFull, hop]; rfl⟩
  | _ => cases h

theorem encodeFull_of_readFull {i : Instr} {w : Word} (hform : w.getLsbD 63 = false) (h : readFull w = .ok i) : encodeFull i = some w := by
  have := layout_RRR
  have := layout_RIT
  have := layout_RIC
  have := layout_RIB
  have := layout_RIW
  have := layout_MEM
  unfold readFull at h
  split at h <;> rename_i hop
  pick_goal -1
  case _ => cases h
  all_goals
    apply Layout.row_write (hform := hform) (hop := hop) (hread := h)
    · assumption
    · exact fun _ => rfl

/-! The paired form (R68, R72). -/

@[simp] theorem readHalf_packHalf (c : Cop) (f : HalfF) : readHalf (packHalf c f) = .ok ⟨c, f⟩ := by
  simp (disch := decide) only [readHalf, packHalf, BitVec.extractLsb'_append_eq_of_le, BitVec.extractLsb'_append_eq_of_add_le,
    BitVec.extractLsb'_eq_self, Nat.reduceSub, guardOf_guardBits, copOf_code]
  rfl

theorem packHalf_of_readHalf {b : BitVec 31} {h : Half} (hread : readHalf b = .ok h) : packHalf h.cop h.f = b := by
  cases hguard : guardOf (b.extractLsb' 25 6) with
  | error e =>
    simp only [readHalf, hguard] at hread
    cases hread
  | ok g =>
    simp only [readHalf, hguard] at hread
    obtain ⟨_, hg, hread⟩ := bind_eq_ok.1 hread
    obtain rfl := Except.ok.inj hg
    obtain ⟨c, hc, hread⟩ := bind_eq_ok.1 hread
    obtain rfl := Except.ok.inj hread
    simp (disch := decide) only [packHalf, guardBits_of_guardOf hguard, code_of_copOf (code_eq_ok.1 hc),
      BitVec.extractLsb'_append_extractLsb'_eq_extractLsb']
    exact BitVec.extractLsb'_eq_self

theorem packPair_form (c : Cop) (x : Pair) : (packPair c x).getLsbD 63 = true := by
  simp only [packPair, BitVec.getLsbD_append]
  rfl

theorem readPair_packPair (c : Cop) (x : Pair) : readPair (packPair c x) = .ok (pairInstr x c) := by
  have hw : (packPair c x).getLsbD 62 = x.w := by
    simp only [packPair, BitVec.getLsbD_append, Nat.reduceLT, Nat.reduceSub, ↓reduceIte, BitVec.getLsbD_ofBool, decide_true, Bool.true_and]
  have hfirst : bits (packPair c x) 31 31 = packHalf c x.h0 := by
    simp (disch := decide) only [packPair, bits, BitVec.extractLsb'_append_eq_of_le, BitVec.extractLsb'_append_eq_of_add_le,
      BitVec.extractLsb'_eq_self, Nat.reduceSub]
  have hsecond : bits (packPair c x) 0 31 = packHalf x.h1.cop x.h1.f := by
    simp (disch := decide) only [packPair, bits, BitVec.extractLsb'_append_eq_of_add_le, BitVec.extractLsb'_eq_self]
  simp only [readPair, hfirst, hsecond, hw, readHalf_packHalf]
  rfl

theorem pair?_pairInstr (c : Cop) (x : Pair) : (pairInstr x c).pair? = some (c, x) := by cases c <;> rfl

theorem eq_pairInstr {i : Instr} {c : Cop} {x : Pair} (h : i.pair? = some (c, x)) : i = pairInstr x c := by
  unfold Instr.pair? at h
  split at h <;> cases h <;> rfl

theorem encodeFull_pairInstr (c : Cop) (x : Pair) : encodeFull (pairInstr x c) = none := by cases c <;> rfl

theorem pair?_of_encodeFull {i : Instr} {w : Word} (h : encodeFull i = some w) : i.pair? = none := by
  cases hpair : i.pair? with
  | none => rfl
  | some p =>
    rw [eq_pairInstr hpair, encodeFull_pairInstr] at h
    cases h

theorem encode_of_readPair {w : Word} {i : Instr} (hform : w.getLsbD 63 = true) (h : readPair w = .ok i) : encode i = some w := by
  obtain ⟨h0, hfirst, h⟩ := bind_eq_ok.1 h
  obtain ⟨h1, hsecond, h⟩ := bind_eq_ok.1 h
  obtain rfl := Except.ok.inj h
  have htop : (1#1 : BitVec 1) = w.extractLsb' 63 1 := by rw [← ofBool_getLsbD, hform]; rfl
  simp (disch := decide) only [encode, pair?_pairInstr, packPair, packHalf_of_readHalf hfirst, packHalf_of_readHalf hsecond, htop, ofBool_getLsbD,
    bits, BitVec.extractLsb'_append_extractLsb'_eq_extractLsb']
  exact congrArg some BitVec.extractLsb'_eq_self

/-! Words (R51 to R75). -/

/-- What a word's bits say, before the checks of R75. -/
def readWord (w : Word) : Except Ill Instr := if w.getLsbD 63 then readPair w else readFull w

theorem decode_eq_ok {w : Word} {i : Instr} : decode w = .ok i ↔ readWord w = .ok i ∧ wf i = true := by
  have hdecode : decode w = readWord w >>= fun i => match illegal i with | none => .ok i | some e => .error e := by
    unfold decode readWord
    split <;> rfl
  rw [hdecode, bind_eq_ok]
  constructor
  · rintro ⟨j, hread, h⟩
    split at h
    case h_1 hill =>
      obtain rfl := Except.ok.inj h
      exact ⟨hread, by rw [wf, hill]; rfl⟩
    case h_2 => cases h
  · rintro ⟨hread, hwf⟩
    exact ⟨i, hread, by rw [Option.isNone_iff_eq_none.1 hwf]⟩

theorem encode_eq_some {i : Instr} {w : Word} : encode i = some w ↔ readWord w = .ok i := by
  unfold readWord
  constructor
  · intro h
    unfold encode at h
    split at h
    case h_1 c x hpair =>
      obtain rfl := Option.some.inj h
      rw [if_pos (packPair_form c x), readPair_packPair, eq_pairInstr hpair]
    case h_2 =>
      obtain ⟨hform, hread⟩ := readFull_of_encodeFull h
      rwa [if_neg (Bool.eq_false_iff.1 hform)]
  · intro h
    split at h
    case isTrue hform => exact encode_of_readPair hform h
    case isFalse hform =>
      have hfull := encodeFull_of_readFull (Bool.eq_false_iff.2 hform) h
      rw [encode, pair?_of_encodeFull hfull]
      exact hfull

/-- Settles O56: the bits of a word and its instruction give one another, layout by layout. -/
theorem wordsRoundTrip : Obligations.words_round_trip := by
  refine ⟨fun i w hw hwf => ?_, fun i w h => ?_⟩
  · exact decode_eq_ok.2 ⟨encode_eq_some.1 hw, hwf⟩
  · obtain ⟨hread, hwf⟩ := decode_eq_ok.1 h
    exact ⟨encode_eq_some.2 hread, hwf⟩

/-- Settles O55: the words are those of their instructions, or of no instruction. -/
theorem decodedWords : Obligations.decoded_words := by
  refine ⟨Tests.test_decode_integer.2, Tests.test_decode_task.1, Tests.test_decode_system.1, Tests.test_decode_sync.1,
    Tests.test_decode_sync.2.2, ⟨.reservedClass, ?_⟩, .badFunction, ?_⟩ <;> rfl

end Sys2Proof
end

section
/-! SUPPORT. Predicates of lanes and of the span after a word, and the obligation about the words that write them (R61, R89 to R94). -/

namespace Sys2Proof.Machine

/-! Predicates of lanes. -/

/-- `u` is `t` but for the predicates of its lanes. -/
structure PredsOnly (t u : Span) : Prop where
  vectors : u.vregs = t.vregs
  scalars : u.sregs = t.sregs
  flags : u.qs = t.qs
  frame : u.frame = t.frame
  count : u.lanes.length = t.lanes.length
  lane : ∀ l, { u.lane l with preds := (t.lane l).preds } = t.lane l

theorem PredsOnly.refl (t : Span) : PredsOnly t t := ⟨rfl, rfl, rfl, rfl, rfl, fun _ => rfl⟩

theorem PredsOnly.trans {t u v : Span} (h : PredsOnly t u) (h' : PredsOnly u v) : PredsOnly t v where
  vectors := h'.vectors.trans h.vectors
  scalars := h'.scalars.trans h.scalars
  flags := h'.flags.trans h.flags
  frame := h'.frame.trans h.frame
  count := h'.count.trans h.count
  lane l := by
    rw [← h.lane l, ← h'.lane l]

theorem predsOnly_onLane (t : Span) (l : Nat) (p : Lane → BitVec 16) : PredsOnly t (t.onLane l fun ln => { ln with preds := p ln }) where
  vectors := rfl
  scalars := rfl
  flags := rfl
  frame := rfl
  count := by simp only [Span.onLane, List.length_modify]
  lane j := by
    rw [lane_onLane]
    split <;> rfl

theorem predsOnly_setP (t : Span) (r l : Nat) (b : Bool) : PredsOnly t (t.setP r l b) := predsOnly_onLane t l _

theorem PredsOnly.foldl {put : Span → Nat → Span} (hput : ∀ t l, PredsOnly t (put t l)) (L : List Nat) (t : Span) :
    PredsOnly t (L.foldl put t) := by
  induction L generalizing t with
  | nil => exact .refl t
  | cons l L ih => exact (hput t l).trans (ih (put t l))

theorem PredsOnly.goesOn {sp t u : Span} {I : List Nat} {a : Word} (h : Goes sp t I a) (hp : PredsOnly t u) : GoesOn sp u I a where
  count := hp.count.trans h.count
  lane l := by
    have hpreds : (t.lane l).preds = (sp.lane l).preds := by
      rw [h.lane l]
      split <;> rfl
    rw [← hpreds, hp.lane l, h.lane l]

theorem goesOn_of_goes {sp t : Span} {I : List Nat} {a : Word} (h : Goes sp t I a) : GoesOn sp t I a := PredsOnly.goesOn h (.refl t)

theorem goes_p {sp t : Span} {I : List Nat} {a : Word} (h : Goes sp t I a) (r l : Nat) : t.p r l = sp.p r l := by
  rw [Span.p, h.lane l]
  split <;> rfl

/-- The predicates after each lane of a list has had its own written: `new` gives what is written, which no other write touches. -/
theorem p_foldl {put : Span → Nat → Span} {new : Nat → Nat → Option Bool} (hkeeps : ∀ t l, PredsOnly t (put t l))
    (hput : ∀ t l r j, r < 16 → l < t.lanes.length → (put t l).p r j = if j = l then (new r l).getD (t.p r l) else t.p r j)
    {r : Nat} (hr : r < 16) (l : Nat) (L : List Nat) (t : Span) (hL : ∀ k ∈ L, k < t.lanes.length) :
    (L.foldl put t).p r l = if l ∈ L then (new r l).getD (t.p r l) else t.p r l := by
  induction L generalizing t with
  | nil => rfl
  | cons k L ih =>
    have hk := hL k (.head _)
    rw [List.foldl_cons, ih _ fun j hj => (hkeeps t k).count ▸ hL j (.tail _ hj), hput t k r l hr hk]
    by_cases hlk : l = k
    · subst hlk
      cases new r l <;> simp
    · simp [hlk]

/-! Words that write predicates. -/

theorem becomes_mono {i : Instr} {s : State} {sp : Span} {P Q : Span → Prop} (h : Becomes i s sp P) (hPQ : ∀ sp', P sp' → Q sp') :
    Becomes i s sp Q := by
  obtain ⟨t, sp', hexec, hbecame, hP⟩ := h
  exact ⟨t, sp', hexec, hbecame, hPQ sp' hP⟩

section
variable {i : Instr} {s : State} {sp0 sp : Span} {I : List Nat} {a : Word} (h : Clear i s sp0 sp I a)
include h

theorem issued_lane_lt {l : Nat} (hl : l ∈ I) : l < sp.lanes.length := by
  by_contra hlt
  have hready := select_ready h.select hl
  rw [Span.lane, List.getD_eq_default _ _ (Nat.le_of_not_lt hlt)] at hready
  cases hready

/-- A word that writes predicates of lanes of its issue, one lane after the other. -/
theorem becomes_preds {lanes : Iss → List Nat} {put : Span → Span → Nat → Span} {new : Nat → Nat → Option Bool}
    (he : exec i s = regOp i {} (fun j t => (lanes j).foldl (put j.sp) t) s) (hlanes : ∀ l ∈ lanes (At i sp I a), l ∈ I)
    (hkeeps : ∀ t l, PredsOnly t (put sp t l))
    (hput : ∀ t l r j, r < 16 → l < t.lanes.length → (put sp t l).p r j = if j = l then (new r l).getD (t.p r l) else t.p r j) :
    Becomes i s sp fun sp' => KeepsRegs sp sp' ∧ GoesOn sp sp' I a ∧ sp'.qs = sp.qs ∧
      ∀ r l, r < 16 → sp'.p r l = if l ∈ lanes (At i sp I a) then (new r l).getD (sp.p r l) else sp.p r l := by
  have hmoved := moved_goes h.toIssuing (acting i sp I)
  have hpreds := PredsOnly.foldl hkeeps (lanes (At i sp I a)) (Iss.moved (At i sp I a))
  refine becomes_of he h (fun t => (PredsOnly.foldl hkeeps _ t).frame) ⟨⟨hpreds.vectors, hpreds.scalars⟩, ?_, hpreds.flags, fun r l hr => ?_⟩
  · have hgoes := hpreds.goesOn hmoved
    exact ⟨hgoes.count, hgoes.lane⟩
  · rw [← goes_p hmoved r l]
    exact p_foldl hkeeps hput hr l _ _ fun k hk => hmoved.count ▸ issued_lane_lt h (hlanes k hk)

/-- A word that writes predicates of its span. -/
theorem becomes_flags {f : Iss → Span → Span} (q : BitVec 8 → BitVec 8) (he : exec i s = regOp i {} f s)
    (hf : ∀ t : Span, f (At i sp I a) t = { t with qs := q t.qs }) :
    Becomes i s sp fun sp' => KeepsRegs sp sp' ∧ Goes sp sp' I a ∧ sp'.qs = q sp.qs := by
  have hmoved := moved_goes h.toIssuing (acting i sp I)
  refine becomes_of he h (fun t => by rw [hf t]; rfl) ?_
  rw [hf]
  exact ⟨⟨rfl, rfl⟩, ⟨hmoved.count, hmoved.lane⟩, rfl⟩

end

/-! Compares (R61, R89, R90). -/

theorem newPa_eq (ct : Combine) (g c old : Bool) : newPa ct g c old = if combineWrites ct g then some (combine ct g c old) else none := by
  cases ct <;> cases g <;> rfl

theorem pa_toNat (d : BitVec 8) : (d.extractLsb' 4 4).toNat = paOf d := by
  have := d.isLt
  simp only [BitVec.extractLsb'_toNat, Nat.shiftRight_eq_div_pow, paOf]
  omega

theorem pb_toNat (d : BitVec 8) : (d.extractLsb' 0 4).toNat = pbOf d := by
  simp only [BitVec.extractLsb'_toNat, Nat.shiftRight_zero, pbOf]

/-- What a compare writes to predicate `r` when it gives pa the value `n`, if anything. -/
def pairWrite (d : BitVec 8) (n : Option Bool) (r : Nat) : Option Bool :=
  n.bind fun n => if r = pbOf d then some !n else if r = paOf d then some n else none

theorem pairWrite_getD (d : BitVec 8) (n : Option Bool) (r : Nat) (old : Bool) :
    (pairWrite d n r).getD old = match n with | some n => if r = pbOf d then !n else if r = paOf d then n else old | none => old := by
  cases n with
  | none => rfl
  | some n =>
    simp only [pairWrite, Option.bind_some]
    split
    · rfl
    · split <;> rfl

theorem compare_p (sp t : Span) (ctl : Ctl) (hu : ctl.u = false) (ct : Combine) (d : BitVec 8) (c : Bool) {l r : Nat} (j : Nat) (hr : r < 16)
    (hl : l < t.lanes.length) : (t.compare sp ctl ct d l c).p r j =
      if j = l then (pairWrite d (newPa ct (sp.guard ctl l) c (sp.p (paOf d) l)) r).getD (t.p r l) else t.p r j := by
  unfold Span.compare
  simp only [hu, Bool.false_eq_true, if_false, newPa_eq, pa_toNat]
  split
  case isTrue =>
    simp only [Span.setPair, Bool.false_eq_true, if_false, p_setP, pa_toNat, pb_toNat, lanes_length_setP, pairWrite, Option.bind_some]
    by_cases hj : j = l
    · subst hj
      by_cases hb : r = pbOf d
      · subst hb; simp [hr, hl]
      · by_cases ha : r = paOf d
        · subst ha; simp [hb, hr, hl]
        · simp [ha, hb]
    · simp [hj]
  case isFalse =>
    split
    case isTrue hj => rw [hj]; rfl
    case isFalse => rfl

theorem compare_predsOnly (sp t : Span) (ctl : Ctl) (hu : ctl.u = false) (ct : Combine) (d : BitVec 8) (l : Nat) (c : Bool) :
    PredsOnly t (t.compare sp ctl ct d l c) := by
  simp only [Span.compare, Span.setPair, hu, Bool.false_eq_true, if_false]
  split
  · exact (predsOnly_setP ..).trans (predsOnly_setP ..)
  · exact .refl t

/-- The span's predicates after a compare that gives pa the value `n`, if any. -/
def pairFlags (d : BitVec 8) (n : Option Bool) (qs : BitVec 8) : BitVec 8 :=
  match n with
  | some n => setBit (setBit qs (paOf d) n) (pbOf d) (!n)
  | none => qs

theorem pairFlags_getLsbD (d : BitVec 8) (n : Option Bool) (qs : BitVec 8) {r : Nat} (hr : r < 8) :
    (pairFlags d n qs).getLsbD r = (pairWrite d n r).getD (qs.getLsbD r) := by
  cases n with
  | none => rfl
  | some n =>
    simp only [pairFlags, getLsbD_setBit, pairWrite, Option.bind_some]
    by_cases hb : r = pbOf d
    · subst hb; simp [hr]
    · by_cases ha : r = paOf d
      · subst ha; simp [hb, hr]
      · simp [ha, hb]

/-- A compare of the span writes the two predicates of the span. -/
theorem compare_flags (sp t : Span) (ctl : Ctl) (hu : ctl.u = true) (ct : Combine) (d : BitVec 8) (c : Bool) :
    t.compare sp ctl ct d 0 c = { t with qs := pairFlags d (newPa ct (sp.guard ctl 0) c (sp.q (paOf d))) t.qs } := by
  simp only [Span.compare, Span.setPair, hu, if_true, newPa_eq, pa_toNat, pb_toNat]
  split <;> rfl

/-- A compare, whose condition a claim writes as `c`. -/
theorem compares_of {i : Instr} {s : State} {sp0 sp : Span} {I : List Nat} {a : Word} {ctl : Ctl} {ct : Combine} {d : BitVec 8}
    {cond : Span → Nat → Bool} (c : Nat → Bool) (h : Clear i s sp0 sp I a)
    (he : exec i s = regOp i {} (fun j t => (compareLanes ctl.u j).foldl (fun u l => u.compare j.sp ctl ct d l (cond j.sp l)) t) s)
    (hc : ∀ l, cond sp l = c l) : Compares i s sp I a ctl ct d c := by
  unfold Compares
  cases hu : ctl.u with
  | false =>
    simp only [Bool.false_eq_true, if_false]
    refine becomes_mono (becomes_preds h (put := fun sp u l => u.compare sp ctl ct d l (cond sp l))
      (new := fun r l => pairWrite d (newPa ct (sp.guard ctl l) (c l) (sp.p (paOf d) l)) r) (by rw [he, hu])
      (fun l hl => hl) (fun t l => compare_predsOnly sp t ctl hu ct d l _) fun t l r j hr hl => ?_) ?_
    · rw [hc l]
      exact compare_p sp t ctl hu ct d _ j hr hl
    · rintro sp' ⟨hregs, hgoes, hflags, hp⟩
      refine ⟨hregs, hgoes, hflags, fun l r hr => ?_⟩
      rw [hp r l hr, pairWrite_getD]
      rfl
  | true =>
    simp only [if_true]
    refine becomes_mono (becomes_flags h (pairFlags d (newPa ct (sp.guard ctl 0) (c 0) (sp.q (paOf d)))) he fun t => ?_) ?_
    · rw [hu, ← hc 0]
      exact compare_flags sp t ctl hu ct d _
    · rintro sp' ⟨hregs, hgoes, hflags⟩
      refine ⟨hregs, hgoes, fun r hr => ?_⟩
      rw [Span.q, hflags, pairFlags_getLsbD d _ _ hr, pairWrite_getD]
      rfl

theorem intCond_eq {w : Nat} (c : Cond) (sgn : Bool) (a b : BitVec w) : intCond c sgn a b = condHolds c (exact sgn a) (exact sgn b) := by
  rw [Bool.eq_iff_iff]
  cases c <;> cases sgn <;> simp [intCond, condHolds, exact, BitVec.slt, BitVec.sle, BitVec.ult, BitVec.ule, BitVec.toInt_inj, BitVec.toNat_inj]

/-! Float numbers in order (R90). -/

/-- Units of the magnitude that the low bits `n` of a pattern stand for. -/
def unitsOf (f : Fmt) (n : Nat) : Nat := if n / 2 ^ f.fw = 0 then n % 2 ^ f.fw else (2 ^ f.fw + n % 2 ^ f.fw) * 2 ^ (n / 2 ^ f.fw - 1)

theorem unitsOf_split (f : Fmt) (q : Nat) {m : Nat} (hm : m < 2 ^ f.fw) :
    unitsOf f (2 ^ f.fw * q + m) = if q = 0 then m else (2 ^ f.fw + m) * 2 ^ (q - 1) := by
  have hdiv : (2 ^ f.fw * q + m) / 2 ^ f.fw = q := by rw [Nat.mul_add_div (Nat.two_pow_pos _), Nat.div_eq_of_lt hm, Nat.add_zero]
  have hmod : (2 ^ f.fw * q + m) % 2 ^ f.fw = m := by rw [Nat.mul_add_mod, Nat.mod_eq_of_lt hm]
  rw [unitsOf, hdiv, hmod]

theorem unitsOf_strictMono (f : Fmt) : StrictMono (unitsOf f) := by
  refine strictMono_nat_of_lt_succ fun n => ?_
  have hmod : n % 2 ^ f.fw < 2 ^ f.fw := Nat.mod_lt _ (Nat.two_pow_pos _)
  rw [← Nat.div_add_mod n (2 ^ f.fw)]
  generalize n / 2 ^ f.fw = q, n % 2 ^ f.fw = m at hmod
  by_cases hlast : m + 1 = 2 ^ f.fw
  case pos =>
    have hnext : 2 ^ f.fw * q + m + 1 = 2 ^ f.fw * (q + 1) + 0 := by rw [Nat.add_assoc, hlast, Nat.add_zero, Nat.mul_succ]
    rw [hnext, unitsOf_split f q hmod, unitsOf_split f (q + 1) (Nat.two_pow_pos _), if_neg (Nat.succ_ne_zero q)]
    cases q with
    | zero => simp [hmod]
    | succ q =>
      have hpos := Nat.two_pow_pos q
      simp only [Nat.succ_ne_zero, if_false, Nat.add_sub_cancel, Nat.add_zero, Nat.pow_succ]
      nlinarith
  case neg =>
    rw [Nat.add_assoc, unitsOf_split f q hmod, unitsOf_split f q (by omega)]
    split
    · exact Nat.lt_succ_self m
    · exact Nat.mul_lt_mul_of_pos_right (by omega) (Nat.two_pow_pos _)

theorem magnitude_eq (f : Fmt) (x : Nat) : magnitude f x = unitsOf f (x % 2 ^ (f.ew + f.fw)) := by
  have hexp : x % 2 ^ (f.ew + f.fw) / 2 ^ f.fw = expOf f x := by
    rw [Nat.pow_add, Nat.mul_comm, Nat.mod_mul_right_div_self]; rfl
  have hfrac : x % 2 ^ (f.ew + f.fw) % 2 ^ f.fw = fracOf f x := Nat.mod_mod_of_dvd _ (Nat.pow_dvd_pow 2 (Nat.le_add_left ..))
  rw [unitsOf, hexp, hfrac]
  rfl

/-- The key of a pattern orders as its units do. -/
theorem units_lt_units (f : Fmt) (x y : Nat) : units f x < units f y ↔ f.key false x < f.key false y := by
  have hmono (m n : Nat) : unitsOf f m < unitsOf f n ↔ m < n := (unitsOf_strictMono f).lt_iff_lt
  have hzero : unitsOf f 0 = 0 := by simp [unitsOf]
  have hpos (n : Nat) : 0 < unitsOf f n ↔ 0 < n := by rw [← hmono 0 n, hzero]
  simp only [units, Fmt.key, magnitude_eq, negOf, decide_eq_true_eq, Bool.false_eq_true, if_false, sub_zero]
  generalize x % 2 ^ (f.ew + f.fw) = m, y % 2 ^ (f.ew + f.fw) = n
  have h1 := hmono m n
  have h2 := hmono n m
  have h3 := hpos m
  have h4 := hpos n
  split <;> split <;> omega

theorem units_eq_units (f : Fmt) (x y : Nat) : units f x = units f y ↔ f.key false x = f.key false y := by
  have hlt := units_lt_units f x y
  have hgt := units_lt_units f y x
  omega

theorem isNan_iff (f : Fmt) (x : Nat) : f.isNan x = true ↔ isNaN f x := by
  simp only [Fmt.isNan, Fmt.read, isNaN, expOf, fracOf]
  split
  case isTrue hexp =>
    split
    case isTrue hfrac => simp [hfrac]
    case isFalse hfrac => simp [hexp, hfrac]
  case isFalse hexp => split <;> simp [hexp]

theorem floatCond_iff (c : Cond) (f : Fmt) (a b : BitVec 32) : floatCond c f a b = true ↔ FloatHolds c f a.toNat b.toNat := by
  have hnan : (f.isNan a.toNat || f.isNan b.toNat) = true ↔ ¬ (¬ isNaN f a.toNat ∧ ¬ isNaN f b.toNat) := by
    rw [Bool.or_eq_true, isNan_iff, isNan_iff]
    tauto
  have hnum : (!(f.isNan a.toNat || f.isNan b.toNat)) = true ↔ ¬ isNaN f a.toNat ∧ ¬ isNaN f b.toNat := by
    rw [Bool.not_eq_true', ← Bool.not_eq_true, hnan, not_not]
  have hlt := units_lt_units f a.toNat b.toNat
  have hgt := units_lt_units f b.toNat a.toNat
  have heq := units_eq_units f a.toNat b.toNat
  cases c <;> simp only [floatCond, FloatHolds, Bool.and_eq_true, Bool.or_eq_true (_ || _), hnum, hnan, beq_iff_eq, bne_iff_ne,
    decide_eq_true_eq, heq, hlt, hgt, ← not_lt]
  exact not_and_or.symm

/-! One register. -/

/-- A register written in one lane, as a run of one register. -/
theorem v_setV_run (t : Span) (d : Nat) (x : VWord) {l l' r : Nat} (hl : l < 32) (hl' : l' < 32) :
    (t.setV d l x).v r l' = if l' = l ∧ d ≤ r ∧ r < d + 1 then x.extractLsb' (32 * (r - d)) 32 else t.v r l' := by
  rw [v_setV _ _ _ _ _ _ hl hl']
  by_cases hr : r = d
  · subst hr
    simp
  · rw [if_neg (fun h => hr h.1), if_neg (by omega)]

/-- A word that writes one scalar register, if anything. -/
theorem putsS_of {i : Instr} {s : State} {sp0 sp : Span} {I : List Nat} {a : Word} {f : Iss → Span → Span} {d : Nat} {go : Prop} [Decidable go]
    {x : Word} (he : exec i s = regOp i {} f s) (h : Clear i s sp0 sp I a) (hf : ∀ t : Span, f (At i sp I a) t = if go then t.setS d x else t) :
    PutsS i s sp I a d go x := by
  have hmoved := moved_goes h.toIssuing (acting i sp I)
  refine becomes_of he h (fun t => ?_) ?_
  · rw [hf]
    split <;> rfl
  · rw [hf]
    by_cases hgo : go
    · rw [if_pos hgo]
      refine ⟨⟨hmoved.count, hmoved.lane⟩, rfl, rfl, fun k => ?_⟩
      simp only [hgo, true_and]
      exact s_setS (Iss.moved (At i sp I a)) d k x
    · rw [if_neg hgo]
      exact ⟨⟨hmoved.count, hmoved.lane⟩, rfl, rfl, fun k => by rw [if_neg fun hk => hgo hk.1]; rfl⟩

/-! PLOP, PMOV, VOTE and PSET (R91 to R94). -/

section
variable {s : State} {sp0 sp : Span} {I : List Nat} {a : Word}

theorem acting_subset (i : Instr) (l : Nat) (hl : l ∈ acting i sp I) : l ∈ I := (List.mem_filter.1 hl).1

/-- A word that writes one predicate: of the span with U, where it has an acting lane, and else of each acting lane. -/
theorem becomes_onePred {i : Instr} (u : Bool) (d : Nat) (flag : Span → Bool) (bit : Span → Nat → Bool) (h : Clear i s sp0 sp I a)
    (he : exec i s = regOp i {} (fun j t => if u then (if j.G.isEmpty then t else t.setQ d (flag j.sp)) else
      j.G.foldl (fun v l => v.setP d l (bit j.sp l)) t) s) :
    Becomes i s sp fun sp' => KeepsRegs sp sp' ∧ GoesOn sp sp' I a ∧
      (∀ r, r < 8 → sp'.q r = if u = true ∧ acting i sp I ≠ [] ∧ r = d then flag sp else sp.q r) ∧
      ∀ r l, r < 16 → sp'.p r l = if u = false ∧ l ∈ acting i sp I ∧ r = d then bit sp l else sp.p r l := by
  cases u with
  | true =>
    refine becomes_mono (becomes_flags h (fun qs => if acting i sp I = [] then qs else setBit qs d (flag sp)) he fun t => ?_) ?_
    · simp only [if_true, List.isEmpty_iff]
      split <;> rfl
    · rintro sp' ⟨hregs, hgoes, hflags⟩
      refine ⟨hregs, goesOn_of_goes hgoes, fun r hr => ?_, fun r l hr => ?_⟩
      · rw [Span.q, hflags]
        split
        case isTrue hempty => simp [hempty, Span.q]
        case isFalse hacts =>
          rw [getLsbD_setBit]
          by_cases hd : r = d
          · subst hd; simp [hacts, hr]
          · simp [hd, Span.q]
      · simpa using goes_p hgoes r l
  | false =>
    refine becomes_mono (becomes_preds h (lanes := Iss.G) (put := fun sp v l => v.setP d l (bit sp l))
      (new := fun r l => if r = d then some (bit sp l) else none) he (acting_subset i) (fun t l => predsOnly_setP t d l _)
      fun t l r j hr hl => ?_) ?_
    · rw [p_setP]
      by_cases hd : r = d
      · subst hd; by_cases hj : j = l <;> simp [hj, hr, hl]
      · by_cases hj : j = l <;> simp [hd, hj]
    · rintro sp' ⟨hregs, hgoes, hflags, hp⟩
      refine ⟨hregs, hgoes, fun r hr => ?_, fun r l hr => ?_⟩
      · rw [Span.q, hflags]
        simp [Span.q]
      · rw [hp r l hr]
        by_cases hd : r = d <;> simp [hd]

theorem plopTable_eq (t : BitVec 6) (p q : Bool) : plopTable t p q = t.getLsbD ((if p then 2 else 0) + if q then 1 else 0) := by
  cases p <;> cases q <;> rfl

theorem pmov_fromPreds {x : RRR} (h : Clear (.pmov x) s sp0 sp I a) (hdir : x.lo2 = 0) :
    PutsV (.pmov x) s sp I a 1 x.d.toNat fun l => (sp.lane l).preds.setWidth 32 := by
  have he : exec (.pmov x) s = execPmov x s := rfl
  simp only [execPmov, hdir] at he
  refine putsV_of (put := fun sp t l => t.setV x.d.toNat l ((sp.lane l).preds.setWidth 32)) he h
    (fun t l r l' hl hl' => v_setV_run t _ _ hl hl') (fun _ _ => rfl) (fun _ _ => rfl) nofun nofun rfl rfl rfl

theorem pmov_toPreds {x : RRR} (h : Clear (.pmov x) s sp0 sp I a) (hdir : x.lo2 = 1) :
    Becomes (.pmov x) s sp fun sp' => KeepsRegs sp sp' ∧ sp'.qs = sp.qs ∧ GoesOn sp sp' I a ∧
      ∀ l, (sp'.lane l).preds = if l ∈ acting (.pmov x) sp I then (sp.v x.a.toNat l).setWidth 16 else (sp.lane l).preds := by
  have he : exec (.pmov x) s = execPmov x s := rfl
  simp only [execPmov, hdir] at he
  refine becomes_mono (becomes_preds h (lanes := Iss.G) (put := fun sp t l => t.onLane l fun ln => { ln with preds := (sp.v x.a.toNat l).setWidth 16 })
    (new := fun r l => some ((sp.v x.a.toNat l).getLsbD r)) he (acting_subset _) (fun t l => predsOnly_onLane t l _) fun t l r j hr hl => ?_) ?_
  · rw [Span.p, lane_onLane]
    by_cases hj : j = l
    · subst hj
      simp [hl, hr]
    · simp [hj, Span.p]
  · rintro sp' ⟨hregs, hgoes, hflags, hp⟩
    refine ⟨hregs, hflags, hgoes, fun l => BitVec.eq_of_getLsbD_eq fun r hr => ?_⟩
    refine (hp r l hr).trans ?_
    split
    · simp [hr]
    · rfl

theorem pmov_fromFlags {x : RRR} (h : Clear (.pmov x) s sp0 sp I a) (hdir : x.lo2 = 2) :
    PutsS (.pmov x) s sp I a x.d.toNat (acting (.pmov x) sp I ≠ []) (sp.qs.setWidth 64) := by
  have he : exec (.pmov x) s = execPmov x s := rfl
  simp only [execPmov, hdir] at he
  refine putsS_of he h fun t => ?_
  by_cases hempty : acting (.pmov x) sp I = [] <;> simp [hempty]

theorem pmov_toFlags {x : RRR} (h : Clear (.pmov x) s sp0 sp I a) (hdir : x.lo2 = 3) :
    Becomes (.pmov x) s sp fun sp' => KeepsRegs sp sp' ∧ Goes sp sp' I a ∧
      sp'.qs = if acting (.pmov x) sp I = [] then sp.qs else (sp.s x.a.toNat).setWidth 8 := by
  have he : exec (.pmov x) s = execPmov x s := rfl
  simp only [execPmov, hdir] at he
  refine becomes_flags h (fun qs => if acting (.pmov x) sp I = [] then qs else (sp.s x.a.toNat).setWidth 8) he fun t => ?_
  simp only [List.isEmpty_iff]
  split <;> rfl

theorem vote_flag {x : RRR} (h : Clear (.vote x) s sp0 sp I a) (hop : x.lo2 < 2) {J : List Nat}
    (hJ : J = (acting (.vote x) sp I).filter fun l => sp.p x.a.toNat l != x.bit 2) :
    Becomes (.vote x) s sp fun sp' => KeepsRegs sp sp' ∧ Goes sp sp' I a ∧ ∀ r, r < 8 → sp'.q r =
      if r = x.d.toNat then (if x.lo2 = 0 then decide (J = acting (.vote x) sp I) else decide (J ≠ [])) else sp.q r := by
  have he : exec (.vote x) s = execVote x s := rfl
  have hall : (acting (.vote x) sp I).all (fun l => sp.p x.a.toNat l != x.bit 2) = decide (J = acting (.vote x) sp I) := by
    rw [hJ, Bool.eq_iff_iff, decide_eq_true_eq, List.filter_eq_self, List.all_eq_true]
  have hany : (acting (.vote x) sp I).any (fun l => sp.p x.a.toNat l != x.bit 2) = decide (J ≠ []) := by
    rw [hJ, Bool.eq_iff_iff, decide_eq_true_eq, ne_eq, List.filter_eq_nil_iff, List.any_eq_true]
    simp
  refine becomes_mono (becomes_flags h (fun qs => setBit qs x.d.toNat
    (if x.lo2 = 0 then decide (J = acting (.vote x) sp I) else decide (J ≠ []))) he fun t => ?_) ?_
  · rw [← hall, ← hany]
    obtain h0 | h1 : x.lo2 = 0 ∨ x.lo2 = 1 := by omega
    · simp only [h0]; rfl
    · simp only [h1]; rfl
  · rintro sp' ⟨hregs, hgoes, hflags⟩
    refine ⟨hregs, hgoes, fun r hr => ?_⟩
    rw [Span.q, hflags, getLsbD_setBit]
    by_cases hd : r = x.d.toNat
    · rw [if_pos ⟨hd, hd ▸ hr⟩, if_pos hd]
    · rw [if_neg fun hk => hd hk.1, if_neg hd]
      rfl

theorem vote_mask {x : RRR} (h : Clear (.vote x) s sp0 sp I a) (hop : x.lo2 = 2) : PutsS (.vote x) s sp I a x.d.toNat True
    (BitVec.ofNat 64 (laneMask ((acting (.vote x) sp I).filter fun l => sp.p x.a.toNat l != x.bit 2))) := by
  have he : exec (.vote x) s = execVote x s := rfl
  exact putsS_of he h fun t => by simp only [hop]; rfl

/-- What PSET writes (R94). -/
def psetValue (x : RRR) (sp : Span) (l : Nat) : Bool :=
  if x.lo2 = 0 then false else if x.lo2 = 1 then true else sp.opA x (tyWidth x.ty) l != 0

theorem pset_regOp (x : RRR) (s : State) : exec (.pset x) s = regOp (.pset x) {} (fun j t =>
    if x.ctl.u then (if j.G.isEmpty then t else t.setQ x.d.toNat (psetValue x j.sp 0)) else
      j.G.foldl (fun v l => v.setP x.d.toNat l (psetValue x j.sp l)) t) s := by
  have he : exec (.pset x) s = execPset x s := rfl
  rw [he, execPset]
  split
  case h_1 hop => simp only [psetValue, hop, if_true]
  case h_2 hop => simp only [psetValue, hop, Nat.one_ne_zero, if_false, if_true]
  case h_3 h0 h1 =>
    simp only [psetValue, if_neg h0, if_neg h1]
    rfl

end

/-- Settles O4: each word is a change of the predicates of lanes, or of those of the span. -/
theorem comparesAndPredicates : Obligations.compares_and_predicates := by
  refine ⟨fun s sp0 sp I a => ⟨fun x h => ?cmp, fun x h => ?cmpImm⟩, fun s sp0 sp I a x hu h => ?fcmp, fun s sp0 sp I a x => ⟨fun h => ?plop,
    fun h => ⟨pmov_fromPreds h, pmov_toPreds h, pmov_fromFlags h, pmov_toFlags h⟩, fun h => ?vote, fun h => ?pset⟩⟩
  case cmp =>
    exact compares_of (cond := fun sp l => intCond (condOfNat x.hi3) (tySigned x.ty) (sp.opA x _ l) (sp.opB x _ l)) _ h rfl
      fun l => intCond_eq ..
  case cmpImm =>
    refine compares_of (cond := fun sp l => intCond x.cond (tySigned x.ty) (sp.src _ x.ctl.u x.a l) (immAt _ (tySigned x.ty) x.imm)) _ h rfl
      fun l => (intCond_eq ..).trans ?_
    rw [exact, immAt]
    cases tySigned x.ty <;> rfl
  case fcmp =>
    have he : exec (.fcmp x) s = execFcmp x s := rfl
    refine ⟨fun l => floatCond (condOfNat x.hi3) (fmtOf x.ty) (sp.src 32 false x.a l) (sp.src 32 x.kb x.b l), compares_of
      (cond := fun sp l => floatCond (condOfNat x.hi3) (fmtOf x.ty) (sp.src 32 false x.a l) (sp.src 32 x.kb x.b l)) _ h ?_ fun l => rfl, fun l => ?_⟩
    · simp only [he, execFcmp, compareLanes, hu, Bool.false_eq_true, if_false]
    · exact (floatCond_iff ..).trans (by simp [Span.src])
  case plop =>
    simp only [← plopTable_eq]
    exact becomes_onePred x.ctl.u x.d.toNat (fun sp => plopTable x.f6 (sp.q x.a.toNat) (sp.q x.b.toNat))
      (fun sp l => plopTable x.f6 (sp.p x.a.toNat l) (sp.p x.b.toNat l)) h rfl
  case vote =>
    intro J
    exact ⟨fun hop => vote_flag h hop rfl, vote_mask h⟩
  case pset =>
    intro value
    have hvalue : value = psetValue x sp := by
      funext l
      have hne : decide (sp.opA x (tyWidth x.ty) l ≠ 0) = (sp.opA x (tyWidth x.ty) l != 0) := by
        rw [Bool.eq_iff_iff, decide_eq_true_eq, bne_iff_ne]
      simp only [value, psetValue, hne]
    rw [hvalue]
    exact becomes_onePred x.ctl.u x.d.toNat (fun sp => psetValue x sp 0) (psetValue x) h (pset_regOp x s)

end Sys2Proof.Machine
end

section
/-! SUPPORT. The integer functions bit by bit and by their exact values, the float functions element by element, and the obligation about paired
words (R69, R72, R95 to R97, R225). -/

namespace Sys2Proof.Machine

/-! Exact values (R76, R95 to R97). -/

theorem ofInt_exact {w : Nat} (sgn : Bool) (x : BitVec w) : BitVec.ofInt w (exact sgn x) = x := by
  cases sgn <;> simp [exact]

theorem satTo_eq (w : Nat) (sgn : Bool) (z : Int) : satTo w sgn z = BitVec.ofInt w (max (lowest w sgn) (min (highest w sgn) z)) := by
  have hpos : (0 : Int) < 2 ^ (w - 1) := by positivity
  have hpos' : (0 : Int) < 2 ^ w := by positivity
  have hrange : lowest w sgn ≤ highest w sgn := by
    cases sgn <;> simp only [lowest, highest, if_true, if_false, Bool.false_eq_true] <;> omega
  have hsat : satTo w sgn z = BitVec.ofInt w (if z < lowest w sgn then lowest w sgn else if highest w sgn < z then highest w sgn else z) := rfl
  rw [hsat]
  congr 1
  split
  · omega
  · split <;> omega

section
variable {w : Nat} (sgn : Bool) (x y : BitVec w)

theorem result_exact {op : IntOp} {r : BitVec w} (hbits : ∀ k, op.bitOf x y k = none)
    (h : ∀ z, op.exactly w sgn (exact sgn x) (exact sgn y) = some z → r = BitVec.ofInt w z) : op.Result sgn x y r :=
  ⟨h, fun k _ _ hb => nomatch (hbits k).symm.trans hb⟩

theorem result_bits {op : IntOp} {r : BitVec w} (hexact : ∀ a b, op.exactly w sgn a b = none)
    (h : ∀ k, k < w → ∀ b, op.bitOf x y k = some b → r.getLsbD k = b) : op.Result sgn x y r :=
  ⟨fun _ hz => (nomatch (hexact _ _).symm.trans hz), h⟩

theorem fAdd_result : IntOp.add.Result sgn x y (fAdd w sgn x y) := by
  refine result_exact sgn x y (fun _ => rfl) fun z hz => ?_
  obtain rfl := Option.some.inj hz
  rw [BitVec.ofInt_add, ofInt_exact, ofInt_exact, fAdd]

theorem fSub_result : IntOp.sub.Result sgn x y (fSub w sgn x y) := by
  refine result_exact sgn x y (fun _ => rfl) fun z hz => ?_
  obtain rfl := Option.some.inj hz
  rw [Int.sub_eq_add_neg, BitVec.ofInt_add, BitVec.ofInt_neg, ofInt_exact, ofInt_exact, fSub, BitVec.sub_eq_add_neg]

theorem fMul_result : IntOp.mul.Result sgn x y (fMul w sgn x y) := by
  refine result_exact sgn x y (fun _ => rfl) fun z hz => ?_
  obtain rfl := Option.some.inj hz
  rw [BitVec.ofInt_mul, ofInt_exact, ofInt_exact, fMul]

theorem fAdds_result : IntOp.adds.Result sgn x y (fAdds w sgn x y) :=
  result_exact sgn x y (fun _ => rfl) fun _ hz => Option.some.inj hz ▸ satTo_eq w sgn _

theorem fSubs_result : IntOp.subs.Result sgn x y (fSubs w sgn x y) :=
  result_exact sgn x y (fun _ => rfl) fun _ hz => Option.some.inj hz ▸ satTo_eq w sgn _

theorem fMin_result : IntOp.lesser.Result sgn x y (fMin w sgn x y) := by
  refine result_exact sgn x y (fun _ => rfl) fun z hz => ?_
  obtain rfl := Option.some.inj hz
  rw [fMin, min_def]
  split <;> exact (ofInt_exact sgn _).symm

theorem fMax_result : IntOp.greater.Result sgn x y (fMax w sgn x y) := by
  refine result_exact sgn x y (fun _ => rfl) fun z hz => ?_
  obtain rfl := Option.some.inj hz
  rw [fMax, max_def]
  split <;> exact (ofInt_exact sgn _).symm

theorem fAnd_result : IntOp.and.Result sgn x y (fAnd w sgn x y) :=
  result_bits sgn x y (fun _ _ => rfl) fun _ _ _ hb => Option.some.inj hb ▸ BitVec.getLsbD_and

theorem fOr_result : IntOp.or.Result sgn x y (fOr w sgn x y) :=
  result_bits sgn x y (fun _ _ => rfl) fun _ _ _ hb => Option.some.inj hb ▸ BitVec.getLsbD_or

theorem fXor_result : IntOp.xor.Result sgn x y (fXor w sgn x y) :=
  result_bits sgn x y (fun _ _ => rfl) fun _ _ _ hb => Option.some.inj hb ▸ BitVec.getLsbD_xor

theorem fAndn_result : IntOp.andn.Result sgn x y (fAndn w sgn x y) := by
  refine result_bits sgn x y (fun _ _ => rfl) fun k hk b hb => ?_
  obtain rfl := Option.some.inj hb
  simp [fAndn, hk]

theorem fShl_result : IntOp.shl.Result sgn x y (fShl w sgn x y) := by
  refine result_bits sgn x y (fun _ _ => rfl) fun k hk b hb => ?_
  obtain rfl := Option.some.inj hb
  rw [fShl]
  split
  case isTrue hfar =>
    have : ¬ y.toNat ≤ k := by omega
    simp [this]
  case isFalse =>
    rw [BitVec.getLsbD_shiftLeft]
    by_cases hlow : k < y.toNat
    · simp [hlow, hk]
    · simp [hlow, hk, Nat.not_lt.1 hlow]

theorem fShr_result : IntOp.shr.Result sgn x y (fShr w sgn x y) := by
  refine result_bits sgn x y (fun _ _ => rfl) fun k hk b hb => ?_
  obtain rfl := Option.some.inj hb
  rw [fShr, Nat.add_comm]
  split
  case isTrue hfar => rw [BitVec.getLsbD_of_ge x _ (by omega)]; exact BitVec.getLsbD_zero
  case isFalse => exact BitVec.getLsbD_ushiftRight ..

theorem fSha_result : IntOp.sha.Result sgn x y (fSha w sgn x y) := by
  refine result_bits sgn x y (fun _ _ => rfl) fun k hk b hb => ?_
  obtain rfl := Option.some.inj hb
  rw [fSha, BitVec.getLsbD_sshiftRight]
  by_cases hin : k + y.toNat < w
  · have hmin : min y.toNat w = y.toNat := by omega
    have hk' : ¬ w ≤ k := by omega
    simp [hmin, hin, hk', Nat.add_comm]
  · have hout : ¬ min y.toNat w + k < w := by omega
    have hk' : ¬ w ≤ k := by omega
    simp [hin, hout, hk']

theorem fRot_result : IntOp.rot.Result sgn x y (fRot w sgn x y) := by
  refine result_bits sgn x y (fun _ _ => rfl) fun k hk b hb => ?_
  obtain rfl := Option.some.inj hb
  have hlt : y.toNat % w < w := Nat.mod_lt _ (by omega)
  rw [fRot, BitVec.getLsbD_rotateLeft, Nat.mod_mod, Bool.cond_decide]
  generalize y.toNat % w = n at hlt
  split
  case isTrue hwrap =>
    rw [Nat.mod_eq_of_lt (by omega)]
    congr 1
    omega
  case isFalse hin =>
    rw [show k + w - n = (k - n) + w by omega, Nat.add_mod_right, Nat.mod_eq_of_lt (by omega), decide_eq_true hk, Bool.true_and]

end

/-! Elements (R225). -/

theorem eachElem_eq (ty : Ty) (f : Nat → Nat → Nat → Nat) (a b c : BitVec 32) :
    eachElem ty f a b c = fromElements ty fun e => f (element ty e a) (element ty e b) (element ty e c) := by
  have hhigh (x : BitVec 32) : x.toNat / 65536 % 65536 = x.toNat / 65536 := Nat.mod_eq_of_lt (by have := x.isLt; omega)
  cases ty <;> simp [eachElem, fromElements, element, packed, hhigh]

/-! Halves (R69, R72). -/

/-- The result of a half in lane `l`; a 32-bit one lies in the low bits. -/
def halfValue (sp : Span) (c : Cop) (f : HalfF) (l : Nat) : Word :=
  if c.wide then cop64 c (sp.v64 f.d.toNat l) (HalfF.opB sp f 64 l) else (cop32 c (sp.v f.d.toNat l) (HalfF.opB sp f 32 l)).setWidth 64

theorem setWidth_setWidth_32 (x : BitVec 32) : (x.setWidth 64).setWidth 32 = x := by
  rw [BitVec.setWidth_setWidth_of_le _ (by decide), BitVec.setWidth_eq]

theorem halfValue_low {c : Cop} (hc : c.wide = false) (sp : Span) (f : HalfF) (l : Nat) :
    (halfValue sp c f l).setWidth 32 = cop32 c (sp.v f.d.toNat l) (HalfF.opB sp f 32 l) := by
  rw [halfValue, hc]
  exact setWidth_setWidth_32 _

theorem cop64_result {c : Cop} {op : IntOp} {sgn : Bool} (h : halfInt c = some (op, sgn)) (hc : c.wide = true) (d b : BitVec 64) :
    op.Result sgn d b (cop64 c d b) := by
  cases c <;> cases hc <;> cases h
  case addS64 => exact fAdd_result ..
  case subS64 => exact fSub_result ..
  case andB64 => exact fAnd_result ..
  case orB64 => exact fOr_result ..
  case xorB64 => exact fXor_result ..
  case shlB64 => exact fShl_result ..
  case shrB64 => exact fShr_result ..
  case shaB64 => exact fSha_result ..

theorem cop32_result {c : Cop} {op : IntOp} {sgn : Bool} (h : halfInt c = some (op, sgn)) (hc : c.wide = false) (d b : BitVec 32) :
    op.Result sgn d b (cop32 c d b) := by
  cases c <;> cases hc <;> cases h
  case addS32 => exact fAdd_result ..
  case subS32 => exact fSub_result ..
  case addsS32 => exact fAdds_result ..
  case subsS32 => exact fSubs_result ..
  case mulS32 => exact fMul_result ..
  case minS32 | minN32 => exact fMin_result ..
  case maxS32 | maxN32 => exact fMax_result ..
  case andB32 => exact fAnd_result ..
  case orB32 => exact fOr_result ..
  case xorB32 => exact fXor_result ..
  case andnB32 => exact fAndn_result ..
  case shlB32 => exact fShl_result ..
  case shrB32 => exact fShr_result ..
  case shaB32 => exact fSha_result ..
  case rotB32 => exact fRot_result ..

theorem cop32_float {c : Cop} {ty : Ty} {g : Nat → Nat → Nat} (h : halfFloat c = some (ty, g)) (d b : BitVec 32) :
    cop32 c d b = fromElements ty fun e => g (element ty e d) (element ty e b) := by
  have heach : cop32 c d b = eachElem ty (fun x y _ => g x y) d b 0 := by cases c <;> cases h <;> rfl
  exact heach.trans (eachElem_eq ..)

theorem halfValue_result (sp : Span) (c : Cop) (f : HalfF) (l : Nat) : HalfResult sp c f l (halfValue sp c f l) where
  int64 op sgn h hc := by
    rw [halfValue, hc]
    exact cop64_result h hc _ _
  int32 op sgn h hc := by
    rw [halfValue_low hc]
    exact cop32_result h hc _ _
  move64 hc := by subst hc; rfl
  move32 hc := by subst hc; exact halfValue_low rfl sp f l
  float32 ty g h := by
    rw [halfValue_low (by cases c <;> cases h <;> rfl)]
    exact cop32_float h _ _

/-! Registers after both halves (R69). -/

/-- The registers after each lane of a list has had its own written: `new` gives what is written, which no other write touches. -/
theorem v_foldl {put : Span → Nat → Span} {new : Nat → Nat → Option VWord}
    (hput : ∀ t l r j, l < 32 → j < 32 → (put t l).v r j = if j = l then (new r l).getD (t.v r l) else t.v r j)
    (r : Nat) {l : Nat} (hl : l < 32) (L : List Nat) (t : Span) (hL : ∀ k ∈ L, k < 32) :
    (L.foldl put t).v r l = if l ∈ L then (new r l).getD (t.v r l) else t.v r l := by
  induction L generalizing t with
  | nil => rfl
  | cons k L ih =>
    rw [List.foldl_cons, ih _ fun j hj => hL j (.tail _ hj), hput t k r l (hL k (.head _)) hl]
    by_cases hlk : l = k
    · subst hlk
      cases new r l <;> simp
    · simp [hlk]

/-- What a half writes to register `r` of lane `l`, if anything. -/
def halfWrite (sp : Span) (h : Half) (r l : Nat) : Option VWord :=
  if sp.guard { guard := h.f.guard } l = true ∧ h.f.d.toNat ≤ r ∧ r < h.f.d.toNat + h.regs then
    some ((halfValue sp h.cop h.f l).extractLsb' (32 * (r - h.f.d.toNat)) 32) else none

theorem half_body (src : Span) (h : Half) (l : Nat) (t : Span) : (Half.inLane src h l t).body = t.body := by
  unfold Half.inLane
  split
  · rfl
  · split
    · exact setV64_body ..
    · rfl

theorem half_sregs (src : Span) (h : Half) (l : Nat) (t : Span) : (Half.inLane src h l t).sregs = t.sregs := by
  unfold Half.inLane
  split
  · rfl
  · split
    · exact setV64_sregs ..
    · rfl

theorem half_v (src : Span) (h : Half) (t : Span) {l j : Nat} (r : Nat) (hl : l < 32) (hj : j < 32) :
    (Half.inLane src h l t).v r j = if j = l then (halfWrite src h r l).getD (t.v r l) else t.v r j := by
  unfold Half.inLane halfWrite Half.regs
  have hkept : t.v r j = if j = l then t.v r l else t.v r j := by
    split
    case isTrue hjl => rw [hjl]
    case isFalse => rfl
  by_cases hnop : h.cop = .nop
  · have hnone : ¬ (src.guard { guard := h.f.guard } l = true ∧ h.f.d.toNat ≤ r ∧ r < h.f.d.toNat + 0) := by omega
    rw [if_pos hnop, if_neg hnone, if_pos (by rw [hnop]; rfl)]
    exact hkept
  cases hguard : src.guard { guard := h.f.guard } l with
  | false => simpa using hkept
  | true =>
    simp only [hnop, decide_false, Bool.not_true, Bool.or_false, Bool.false_eq_true, if_false, true_and]
    cases hwide : h.cop.wide with
    | true =>
      rw [if_pos rfl, v_setV64 _ _ _ _ _ _ hl hj, if_pos rfl, halfValue, hwide, if_pos rfl]
      by_cases hjl : j = l
      · subst hjl
        simp only [true_and, if_true]
        split <;> rfl
      · simp [hjl]
    | false =>
      rw [if_neg Bool.false_ne_true, v_setV_run _ _ _ hl hj, if_neg Bool.false_ne_true]
      by_cases hjl : j = l
      · subst hjl
        simp only [true_and, if_true]
        split
        case isTrue hr =>
          rw [Option.getD_some, show r - h.f.d.toNat = 0 by omega, ← halfValue_low hwide, extract_all32]
          exact BitVec.setWidth_eq_extractLsb' (by decide)
        case isFalse => rfl
      · simp [hjl]

/-- What a paired word writes to register `r` of lane `l`, if anything: the second half's write comes after the first half's. -/
def pairedWrite (sp : Span) (h0 h1 : Half) (r l : Nat) : Option VWord := (halfWrite sp h1 r l).or (halfWrite sp h0 r l)

theorem halves_v (src : Span) (h0 h1 : Half) (t : Span) {l j : Nat} (r : Nat) (hl : l < 32) (hj : j < 32) :
    (Half.inLane src h1 l (Half.inLane src h0 l t)).v r j = if j = l then (pairedWrite src h0 h1 r l).getD (t.v r l) else t.v r j := by
  rw [half_v _ _ _ _ hl hj, half_v _ _ _ _ hl hl, half_v _ _ _ _ hl hj, if_pos rfl, pairedWrite]
  split
  · cases halfWrite src h1 r l <;> rfl
  · rfl

theorem halves_body (src : Span) (h0 h1 : Half) (L : List Nat) (t : Span) :
    (L.foldl (fun t l => Half.inLane src h1 l (Half.inLane src h0 l t)) t).body = t.body := by
  induction L generalizing t with
  | nil => rfl
  | cons l L ih => rw [List.foldl_cons, ih, half_body, half_body]

theorem halves_sregs (src : Span) (h0 h1 : Half) (L : List Nat) (t : Span) :
    (L.foldl (fun t l => Half.inLane src h1 l (Half.inLane src h0 l t)) t).sregs = t.sregs := by
  induction L generalizing t with
  | nil => rfl
  | cons l L ih => rw [List.foldl_cons, ih, half_sregs, half_sregs]

theorem halfWrite_reached {sp : Span} {I : List Nat} {h : Half} {r l : Nat} (hr : Half.reaches sp I h r l) :
    halfWrite sp h r l = some ((halfValue sp h.cop h.f l).extractLsb' (32 * (r - h.f.d.toNat)) 32) := if_pos hr.2

theorem halfWrite_missed {sp : Span} {I : List Nat} {h : Half} {r l : Nat} (hl : l ∈ I) (hr : ¬ Half.reaches sp I h r l) :
    halfWrite sp h r l = none := if_neg fun hw => hr ⟨hl, hw⟩

/-- Settles O8: each half's write is of the values before either, and the second half's comes last. -/
theorem pairedWords : Obligations.paired_words := by
  intro c x s sp0 sp I a h
  have he : exec (pairInstr x c) s = pairOp (pairInstr x c) c x s := by cases c <;> rfl
  have hmoved := moved_goes h.toIssuing (acting (pairInstr x c) sp I)
  have hbody := halves_body sp ⟨c, x.h0⟩ x.h1 I
  refine ⟨halfValue sp c x.h0, halfValue sp x.h1.cop x.h1.f, halfValue_result sp c x.h0, halfValue_result sp x.h1.cop x.h1.f,
    becomes_of he h (fun t => frame_of_body (hbody t)) ⟨?_, halves_sregs sp ⟨c, x.h0⟩ x.h1 I _, ?_, fun r l hl => ?_⟩⟩
  · have hgoes := goes_of_body hmoved (hbody _)
    exact ⟨hgoes.count, hgoes.lane⟩
  · have hqs := congrArg Span.qs (hbody (Iss.moved (At (pairInstr x c) sp I a)))
    exact hqs
  · have hv := v_foldl (fun t l r j hl hj => halves_v sp ⟨c, x.h0⟩ x.h1 t r hl hj) r hl I (Iss.moved (At (pairInstr x c) sp I a))
      fun k hk => (select_mem h.select hk).1
    by_cases hin : l ∈ I
    · rw [if_pos hin, pairedWrite] at hv
      refine ⟨fun h1 => ?_, fun h1 h0 => ?_, fun h1 h0 => ?_⟩
      · rw [halfWrite_reached h1] at hv
        exact hv
      · rw [halfWrite_missed hin h1, halfWrite_reached h0] at hv
        exact hv
      · rw [halfWrite_missed hin h1, halfWrite_missed hin h0] at hv
        exact hv
    · rw [if_neg hin] at hv
      exact ⟨fun h1 => absurd h1.1 hin, fun _ h0 => absurd h0.1 hin, fun _ _ => hv⟩

end Sys2Proof.Machine
end

section
/-! SUPPORT. Float words: their results lane by lane, at once or pending, the special cases of float arithmetic, and the obligation about them
(R63, R225, R227, R264 to R269). -/

namespace Sys2Proof.Machine

/-! Words that leave results pending (R63). -/

theorem map_imap {α β γ : Type} (f : Nat → α → β) (g : β → γ) (i : Nat) (L : List α) :
    (imap f i L).map g = imap (fun n a => g (f n a)) i L := by
  induction L generalizing i with
  | nil => rfl
  | cons a L ih => rw [imap, imap, List.map_cons, ih]

theorem imap_const {α β : Type} (f : α → β) (i : Nat) (L : List α) : imap (fun _ a => f a) i L = L.map f := by
  induction L generalizing i with
  | nil => rfl
  | cons a L ih => rw [imap, List.map_cons, ih]

theorem mem_imap {α β : Type} {f : Nat → α → β} {i : Nat} {L : List α} {b : β} (h : b ∈ imap f i L) :
    ∃ n a, L[n]? = some a ∧ b = f (i + n) a := by
  obtain ⟨n, hn⟩ := List.mem_iff_getElem?.1 h
  rw [getElem?_imap, Option.map_eq_some_iff] at hn
  obtain ⟨a, ha, rfl⟩ := hn
  exact ⟨n, a, ha, rfl⟩

/-- Results left pending one after another take the numbers from the span's count on. -/
theorem foldl_pend (f : Nat → Result) (L : List Nat) (t : Span) : L.foldl (fun t l => t.pend (f l)) t =
    { t with results := t.results ++ imap (fun n l => { f l with id := n }) t.seq L, seq := t.seq + L.length } := by
  induction L generalizing t with
  | nil => rw [imap, List.append_nil]; rfl
  | cons l L ih =>
    rw [List.foldl_cons, ih]
    simp only [Span.pend, imap, List.append_assoc, List.singleton_append, List.length_cons, Nat.add_comm L.length 1, Nat.add_assoc]

section
variable {i : Instr} {s : State} {sp0 sp : Span} {I : List Nat} {a : Word} (h : Clear i s sp0 sp I a)
include h

/-- A word that changes its span alone: nothing else changes in the machine. -/
theorem leaves_regOp {f : Iss → Span → Span} (he : exec i s = regOp i {} f s) (hf : ∀ x t, (f x t).id = t.id) :
    ∃ b, Leaves i s sp ((f (At i sp I a) (Iss.moved (At i sp I a))).hold b) := by
  obtain ⟨t, b, hnext, honly, -, hspan⟩ := regOp_clear (r := {}) h hf nofun nofun rfl rfl rfl
  have hissue := issue_clear (r := {}) (body := fun t x => t.putSpan (f x x.moved)) h nofun nofun rfl rfl rfl
  have ht : t = _ := Host.Outcome.next.inj (hnext.symm.trans hissue)
  exact ⟨b, t, he.trans hnext, honly, ht ▸ issued_picked .., hspan⟩

theorem floatOp_putsV {x : RRR} {f : BitVec 32 → BitVec 32 → BitVec 32 → BitVec 32} (he : exec i s = floatOp i x f s) :
    PutsV i s sp I a 1 x.d.toNat (floatArgs f x sp) :=
  putsV_of (put := fun sp t l => t.setV x.d.toNat l (floatArgs f x sp l)) he h (fun t _ _ _ hl hl' => v_setV_run t _ _ hl hl')
    (fun _ _ => rfl) (fun _ _ => rfl) nofun nofun rfl rfl rfl

theorem floatOp_elements {x : RRR} {f : Nat → Nat → Nat → Nat} (he : exec i s = floatOp i x (eachElem x.ty f) s) :
    PutsV i s sp I a 1 x.d.toNat fun l => fromElements x.ty fun e =>
      f (element x.ty e (sp.src 32 x.ka x.a l)) (element x.ty e (sp.src 32 x.kb x.b l)) (element x.ty e (sp.v x.c.toNat l)) := by
  have hputs := floatOp_putsV h he
  have hargs : floatArgs (eachElem x.ty f) x sp = fun l => fromElements x.ty fun e =>
      f (element x.ty e (sp.src 32 x.ka x.a l)) (element x.ty e (sp.src 32 x.kb x.b l)) (element x.ty e (sp.v x.c.toNat l)) :=
    funext fun l => eachElem_eq ..
  rwa [hargs] at hputs

theorem floatPending_leaves {x : RRR} {f : Nat → Nat → Nat → Nat} {g : Nat → Nat → Nat} (hg : ∀ p q r, f p q r = g p q)
    (hty : packed x.ty = false) (he : exec i s = floatPending i x (eachElem x.ty f) s) : ∃ sp', Leaves i s sp sp' ∧ Goes sp sp' I a ∧
      { sp' with lanes := sp.lanes, results := sp.results, seq := sp.seq, wHold := sp.wHold } = sp ∧
      sp'.seq = sp.seq + (acting i sp I).length ∧
      ∃ new : List Result, sp'.results = sp.results ++ new ∧
        (∀ r ∈ new, r.vreg = some (x.d.toNat, 1) ∧ r.sreg = none ∧ r.pred = none ∧ r.need = 0 ∧ sp.seq ≤ r.id ∧ r.id < sp'.seq) ∧
        new.map (·.lane) = (acting i sp I).map some ∧
        new.map (·.val) = (acting i sp I).map (fun l => BitVec.ofNat 128
          ((BitVec.ofNat 32 (g (element x.ty 0 (sp.src 32 x.ka x.a l)) (element x.ty 0 (sp.src 32 x.kb x.b l)))).toNat)) := by
  have hmoved := moved_goes h.toIssuing (acting i sp I)
  obtain ⟨b, hleaves⟩ := leaves_regOp h he fun y t => by rw [foldl_pend]
  rw [foldl_pend] at hleaves
  refine ⟨_, hleaves, ⟨hmoved.count, hmoved.lane⟩, rfl, rfl, _, rfl, fun r hr => ?_, ?_, ?_⟩
  · obtain ⟨n, l, hl, rfl⟩ := mem_imap hr
    obtain ⟨hn, -⟩ := List.getElem?_eq_some_iff.1 hl
    exact ⟨rfl, rfl, rfl, rfl, Nat.le_add_right .., Nat.add_lt_add_left hn _⟩
  · rw [map_imap]
    exact imap_const some _ _
  · rw [map_imap, imap_const]
    refine List.map_congr_left fun l _ => ?_
    simp only [floatArgs, eachElem_eq, fromElements, hty, Bool.false_eq_true, if_false, hg]
    exact (BitVec.ofNat_toNat ..).symm

end

/-! Special cases (R227, R265). -/

theorem read_eq (f : Fmt) (x : Nat) : f.read x =
    if expOf f x = 2 ^ f.ew - 1 then (if fracOf f x = 0 then .inf (negOf f x) else .nan)
    else if expOf f x = 0 then .fin (negOf f x) (fracOf f x) (1 - f.bias - f.fw)
    else .fin (negOf f x) (2 ^ f.fw + fracOf f x) (expOf f x - f.bias - f.fw) := rfl

theorem read_of_isNaN {f : Fmt} {x : Nat} (h : isNaN f x) : f.read x = .nan := by
  obtain ⟨hexp, hfrac⟩ := h
  rw [read_eq, if_pos hexp, if_neg hfrac]

theorem read_of_isInfinite {f : Fmt} {x : Nat} (h : isInfinite f x) : f.read x = .inf (negOf f x) := by
  obtain ⟨hexp, hfrac⟩ := h
  rw [read_eq, if_pos hexp, if_pos hfrac]

theorem read_of_isFinite {f : Fmt} {x : Nat} (h : isFinite f x) : ∃ m e, f.read x = .fin (negOf f x) m e ∧ (m = 0 ↔ magnitude f x = 0) := by
  rw [read_eq, if_neg (Nat.ne_of_lt h), magnitude]
  by_cases hzero : expOf f x = 0
  · rw [if_pos hzero, if_pos hzero]
    exact ⟨_, _, rfl, Iff.rfl⟩
  · rw [if_neg hzero, if_neg hzero]
    have hpos := Nat.two_pow_pos f.fw
    have hpos' := Nat.two_pow_pos (expOf f x - 1)
    exact ⟨_, _, rfl, iff_of_false (by omega) (Nat.mul_ne_zero (by omega) (by omega))⟩

/-- A pattern is a NaN, an infinity or a finite number. -/
theorem pattern_cases (f : Fmt) (x : Nat) : isNaN f x ∨ isInfinite f x ∨ isFinite f x := by
  have hlt : expOf f x < 2 ^ f.ew := Nat.mod_lt _ (Nat.two_pow_pos _)
  unfold isNaN isInfinite isFinite
  omega

@[simp] theorem sign_eq (f : Fmt) (neg : Bool) : f.sign neg = signed0 f neg := rfl
@[simp] theorem sign_add_inf (f : Fmt) (neg : Bool) : signed0 f neg + f.inf = infinity f neg := rfl
@[simp] theorem nan_eq (f : Fmt) : infinity f false + 2 ^ (f.fw - 1) = f.nan := by
  simp [infinity, signed0, Fmt.nan, Fmt.inf]

@[simp] theorem sum_nan_left (f : Fmt) (mode : Nat) (y : FV) : f.sum mode .nan y = f.nan := by cases y <;> rfl
@[simp] theorem sum_nan_right (f : Fmt) (mode : Nat) (x : FV) : f.sum mode x .nan = f.nan := by cases x <;> rfl
@[simp] theorem mul_nan_left (y : FV) : FV.mul .nan y = .nan := by cases y <;> rfl
@[simp] theorem mul_nan_right (x : FV) : FV.mul x .nan = .nan := by cases x <;> rfl
@[simp] theorem neg_nan : FV.neg .nan = .nan := rfl
@[simp] theorem neg_inf (p : Bool) : FV.neg (.inf p) = .inf !p := rfl
@[simp] theorem neg_fin (p : Bool) (m : Nat) (e : Int) : FV.neg (.fin p m e) = .fin (!p) m e := rfl

section
variable {f : Fmt} {a b c : Nat} (mode : Nat)

theorem operand_nan (h : isNaN f a ∨ isNaN f b) :
    fadd f mode a b = f.nan ∧ fsub f mode a b = f.nan ∧ fmul f mode a b = f.nan ∧ fdiv f mode a b = f.nan := by
  obtain h | h := h
  · simp [fadd, fsub, fmul, fdiv, read_of_isNaN h, Fmt.put]
  · have hdiv : fdiv f mode a b = f.nan := by
      unfold fdiv
      rw [read_of_isNaN h]
      cases f.read a <;> rfl
    simp [fadd, fsub, fmul, hdiv, read_of_isNaN h, Fmt.put]

theorem ffma_nan (nc np : Bool) (h : isNaN f a ∨ isNaN f b ∨ isNaN f c) : ffma f mode nc np a b c = f.nan := by
  obtain h | h | h := h <;> simp [ffma, read_of_isNaN h]

theorem both_infinite (ha : isInfinite f a) (hb : isInfinite f b) :
    fadd f mode a b = (if (negOf f a != negOf f b) = true then f.nan else infinity f (negOf f a)) ∧
    fsub f mode a b = (if (negOf f a != negOf f b) = true then infinity f (negOf f a) else f.nan) ∧
    fmul f mode a b = infinity f (negOf f a != negOf f b) ∧ fdiv f mode a b = f.nan := by
  simp only [fadd, fsub, fmul, fdiv, read_of_isInfinite ha, read_of_isInfinite hb, neg_inf, FV.mul]
  cases negOf f a <;> cases negOf f b <;> simp [Fmt.sum, Fmt.put]

theorem infinite_and_finite (ha : isInfinite f a) (hb : isFinite f b) :
    fadd f mode a b = infinity f (negOf f a) ∧ fsub f mode a b = infinity f (negOf f a) ∧
      (isFinite f b ∧ magnitude f b = 0 → fmul f mode a b = f.nan ∧ fmul f mode b a = f.nan) ∧
      (¬ (isFinite f b ∧ magnitude f b = 0) →
        fmul f mode a b = infinity f (negOf f a != negOf f b) ∧ fmul f mode b a = infinity f (negOf f a != negOf f b)) ∧
      fadd f mode b a = infinity f (negOf f a) ∧ fsub f mode b a = infinity f (!negOf f a) ∧
      fdiv f mode a b = infinity f (negOf f a != negOf f b) ∧ fdiv f mode b a = signed0 f (negOf f a != negOf f b) := by
  obtain ⟨m, e, hread, hm⟩ := read_of_isFinite hb
  have hcomm : (negOf f b != negOf f a) = (negOf f a != negOf f b) := by
    cases negOf f a <;> cases negOf f b <;> rfl
  simp only [fadd, fsub, fmul, fdiv, read_of_isInfinite ha, hread, FV.neg, FV.mul, Fmt.sum, sign_eq, sign_add_inf, hb, true_and, ← hm, hcomm]
  refine ⟨fun h => ?_, fun h => ?_, trivial⟩ <;> simp [h, Fmt.put]

theorem divided_by_zero (hb : isFinite f b) (hzero : magnitude f b = 0) (ha : isFinite f a) :
    (magnitude f a = 0 → fdiv f mode a b = f.nan) ∧ (magnitude f a ≠ 0 → fdiv f mode a b = infinity f (negOf f a != negOf f b)) := by
  obtain ⟨m, e, hread, hm⟩ := read_of_isFinite ha
  obtain ⟨n, d, hread', hn⟩ := read_of_isFinite hb
  simp only [fdiv, hread, hread', hn.2 hzero, if_true, ← hm, ne_eq]
  exact ⟨fun h => if_pos h, fun h => if_neg h⟩

theorem ffma_infinite (nc np : Bool) (ha : isInfinite f a) (h : isFinite f b ∧ magnitude f b = 0 ∨
    isInfinite f c ∧ (((negOf f a != negOf f b) != np) != (negOf f c != nc)) = true) : ffma f mode nc np a b c = f.nan := by
  obtain ⟨hb, hzero⟩ | ⟨hc, hsigns⟩ := h
  · obtain ⟨m, e, hread, hm⟩ := read_of_isFinite hb
    simp [ffma, read_of_isInfinite ha, hread, FV.mul, hm.2 hzero]
  · obtain hb | hb | hb := pattern_cases f b
    · exact ffma_nan mode nc np (.inr (.inl hb))
    · simp only [ffma, read_of_isInfinite ha, read_of_isInfinite hb, read_of_isInfinite hc, FV.mul]
      revert hsigns
      cases negOf f a <;> cases negOf f b <;> cases negOf f c <;> cases nc <;> cases np <;> simp [Fmt.sum]
    · obtain ⟨m, e, hread, hm⟩ := read_of_isFinite hb
      simp only [ffma, read_of_isInfinite ha, hread, read_of_isInfinite hc, FV.mul]
      revert hsigns
      by_cases hzero : m = 0
      · simp [hzero]
      · cases negOf f a <;> cases negOf f b <;> cases negOf f c <;> cases nc <;> cases np <;> simp [hzero, Fmt.sum]

end

/-- Settles O5: a result is the function of its elements; each special case follows from what kind of number each operand reads as. -/
theorem floatWords : Obligations.float_words := by
  refine ⟨fun i x f hform s sp0 sp I a h => ?now, fun i x f hform hty s sp0 sp I a h => ?pending, fun s sp0 sp I a x h => ?dot, ?special⟩
  case now =>
    have he : exec i s = floatOp i x (eachElem x.ty f) s := by cases i <;> cases hform <;> rfl
    exact floatOp_elements h he
  case pending =>
    have he : exec i s = floatPending i x (eachElem x.ty fun p q _ => f p q) s := by cases i <;> cases hform <;> rfl
    exact floatPending_leaves h (fun _ _ _ => rfl) hty he
  case dot => exact floatOp_putsV h rfl
  case special =>
    intro f _ mode a b c nc np nan zero sg
    have hnan : nan = f.nan := nan_eq f
    rw [hnan]
    exact ⟨operand_nan mode, ffma_nan mode nc np, both_infinite mode, infinite_and_finite mode,
      fun hb => ⟨fun ha => (divided_by_zero mode hb.1 hb.2 ha.1).1 ha.2, fun ha hzero => (divided_by_zero mode hb.1 hb.2 ha).2 fun hm => hzero ⟨ha, hm⟩⟩,
      ffma_infinite mode nc np⟩

end Sys2Proof.Machine
end

section
/-! SUPPORT. What a result writes when it arrives, and the obligation about it (R63). -/

namespace Sys2Proof.Machine

theorem exec_resultArrival (span res : Nat) (s : State) : exec (.resultArrival span res) s = execResultArrival span res s := rfl

theorem setVn_body (sp : Span) (n r l : Nat) (x : BitVec 128) : (sp.setVn n r l x).body = sp.body := by
  unfold Span.setVn
  split
  · exact setV128_body ..
  · split
    · exact setV64_body ..
    · rfl

theorem setVn_sregs (sp : Span) (n r l : Nat) (x : BitVec 128) : (sp.setVn n r l x).sregs = sp.sregs := by
  unfold Span.setVn
  split
  · exact setV128_sregs ..
  · split
    · exact setV64_sregs ..
    · rfl

theorem v_setVn (sp : Span) {n : Nat} (hn : n = 1 ∨ n = 2 ∨ n = 4) (d r : Nat) {l j : Nat} (x : BitVec 128) (hl : l < 32) (hj : j < 32) :
    (sp.setVn n d l x).v r j = if j = l ∧ d ≤ r ∧ r < d + n then x.extractLsb' (32 * (r - d)) 32 else sp.v r j := by
  obtain rfl | rfl | rfl := hn
  · refine (v_setV_run sp d (x.setWidth 32) hl hj).trans ?_
    split
    case isTrue hr =>
      rw [show r - d = 0 by omega, BitVec.setWidth_eq_extractLsb' (by decide)]
      exact slice_slice x 0 0 (by decide)
    case isFalse => rfl
  · refine (v_setV64 sp d r l j (x.setWidth 64) hl hj).trans ?_
    split
    case isTrue hr =>
      rw [BitVec.setWidth_eq_extractLsb' (by decide), slice_slice x 0 _ (by omega), Nat.zero_add]
    case isFalse => rfl
  · exact v_setV128 sp d r l j x hl hj

/-- A span without a pending result. -/
def Span.without (sp : Span) (id : Nat) : Span :=
  { sp with results := sp.results.filter (·.id ≠ id), ilock := sp.ilock.filter (·.1 ≠ id) }

theorem setVn_frame (sp : Span) (n r l : Nat) (x : BitVec 128) : (sp.setVn n r l x).frame = sp.frame := frame_of_body (setVn_body ..)

section
variable {r : Result} (hskip : r.skip = false) (sp : Span)
include hskip

/-- A result changes registers and predicates, beside leaving the list of those that are pending. -/
theorem arrive_frame : (sp.arrive r).frame = (sp.without r.id).frame := by
  simp only [Span.arrive, hskip, Bool.false_eq_true, if_false]
  cases r.lane with
  | some l => cases r.vreg <;> cases r.pred <;> simp only [setP_frame, setVn_frame] <;> rfl
  | none => cases r.sreg <;> cases r.pred <;> simp only [setQ_frame, setS_frame] <;> rfl

theorem arrive_results : (sp.arrive r).results = sp.results.filter (·.id ≠ r.id) := by
  have hresults := congrArg Span.results (arrive_frame hskip sp)
  exact hresults

theorem arrive_vreg {l d n : Nat} (hl : r.lane = some l) (hv : r.vreg = some (d, n)) :
    PredsOnly ((sp.without r.id).setVn n d l r.val) (sp.arrive r) := by
  simp only [Span.arrive, hskip, hl, hv, Bool.false_eq_true, if_false]
  split
  · exact predsOnly_setP ..
  · exact .refl _

theorem arrive_writesV {l d n : Nat} (hl : r.lane = some l) (hlt : l < 32) (hv : r.vreg = some (d, n)) (hn : n = 1 ∨ n = 2 ∨ n = 4) :
    WritesV n d [l] (fun _ => r.val) sp (sp.arrive r) := by
  have hpreds := arrive_vreg hskip sp hl hv
  refine ⟨hpreds.scalars.trans (setVn_sregs ..), ?_, fun k j hj => ?_⟩
  · have hqs := congrArg Span.qs (setVn_body (sp.without r.id) n d l r.val)
    exact hpreds.flags.trans hqs
  · rw [Span.v, hpreds.vectors]
    simp only [List.mem_singleton]
    exact v_setVn (sp.without r.id) hn d k r.val hlt hj

theorem arrive_writesS {d : Nat} (hl : r.lane = none) (hs : r.sreg = some d) (hp : r.pred = none) :
    WritesS d True (r.val.setWidth 64) sp (sp.arrive r) := by
  simp only [Span.arrive, hskip, hl, hs, hp, Bool.false_eq_true, if_false]
  refine ⟨rfl, rfl, fun k => ?_⟩
  simp only [true_and]
  exact s_setS (sp.without r.id) d k _

theorem arrive_p {l k : Nat} (hl : r.lane = some l) (hlt : l < sp.lanes.length) (hp : r.pred = some k) (hk : k < 16) :
    (sp.arrive r).p k l = r.pval := by
  simp only [Span.arrive, hskip, hl, hp, Bool.false_eq_true, if_false, p_setP, true_and]
  refine if_pos ⟨hk, ?_⟩
  cases r.vreg with
  | none => exact hlt
  | some vreg =>
    have hlanes := congrArg Span.lanes (setVn_body (sp.without r.id) vreg.2 vreg.1 l r.val)
    exact lt_of_lt_of_eq hlt (congrArg List.length hlanes).symm

theorem arrive_q {k : Nat} (hl : r.lane = none) (hp : r.pred = some k) (hk : k < 8) : (sp.arrive r).q k = r.pval := by
  simp only [Span.arrive, hskip, hl, hp, Bool.false_eq_true, if_false, q_setQ]
  exact if_pos ⟨trivial, hk⟩

end

theorem arrive_id (sp : Span) (r : Result) : (sp.arrive r).id = sp.id := by
  cases hskip : r.skip with
  | true => simp only [Span.arrive, hskip, if_true]
  | false =>
    have hid := congrArg Span.id (arrive_frame hskip sp)
    exact hid

/-- Settles O32: the change of the span is `Span.arrive`, whose parts are said above. -/
theorem resultsArrive : Obligations.results_arrive := by
  intro s sp r hs hr hneed hskip
  refine ⟨s.onSpan sp.id (·.arrive r), sp.arrive r, ?_, span?_onSpan_self _ (arrive_id · r) hs, rfl, fun j hj => ?_, fun q => ?_, ?_, ?_, ?_, ?_⟩
  · simp only [exec_resultArrival, execResultArrival, hs, hr, hneed, if_true]
  · rw [span?_onSpan _ _ _ _ (arrive_id · r), if_neg hj]
  · rw [arrive_results hskip, List.mem_filter, decide_eq_true_eq]
  · exact fun l d n hl hlt hv hn _ => arrive_writesV hskip sp hl hlt hv hn
  · exact fun d => arrive_writesS hskip sp
  · exact fun l k hl hlt hp hk => arrive_p hskip sp hl hlt hp hk
  · exact fun k hl hp hk => arrive_q hskip sp hl hp hk

end Sys2Proof.Machine
end

section
/-! SUPPORT. The pick of a span, the fetch of its next word, and the obligation about both (R67, R121, R312). -/

namespace Sys2Proof.Machine

/-! The order of the spans (R312). -/

/-- The span goes before the other, or is it: it is older, or of the same age with no higher number. -/
def Span.Leads (a b : Span) : Prop := a.age < b.age ∨ (a.age = b.age ∧ a.uid ≤ b.uid)

theorem Span.Leads.refl (a : Span) : a.Leads a := .inr ⟨rfl, le_rfl⟩

theorem Span.Leads.trans {a b c : Span} (h : a.Leads b) (g : b.Leads c) : a.Leads c := by
  unfold Span.Leads at *
  omega

theorem leads_of_older {a b : Span} (h : older a b = true) : a.Leads b := by
  simp only [older, Bool.or_eq_true, Bool.and_eq_true, decide_eq_true_eq] at h
  unfold Span.Leads
  omega

theorem leads_of_not_older {a b : Span} (h : ¬ older a b = true) : b.Leads a := by
  simp only [older, Bool.or_eq_true, Bool.and_eq_true, decide_eq_true_eq] at h
  unfold Span.Leads
  omega

/-- The running choice of the oldest leads all that has been seen. -/
theorem foldl_older_leads (r : List Span) (a : Span) :
    let m := r.foldl (fun b c => if older c b then c else b) a
    m ∈ a :: r ∧ ∀ t ∈ a :: r, m.Leads t := by
  induction r generalizing a with
  | nil => exact ⟨.head _, fun t ht => List.mem_singleton.1 ht ▸ .refl a⟩
  | cons c r ih =>
    rw [List.foldl_cons]
    dsimp only
    split
    case isTrue hold =>
      obtain ⟨hmem, hleads⟩ := ih c
      refine ⟨.tail _ hmem, fun t ht => ?_⟩
      obtain rfl | ht := List.mem_cons.1 ht
      · exact (hleads c (.head _)).trans (leads_of_older hold)
      · exact hleads t ht
    case isFalse hold =>
      obtain ⟨hmem, hleads⟩ := ih a
      have hfirst := hleads a (.head _)
      refine ⟨?_, fun t ht => ?_⟩
      · obtain h | h := List.mem_cons.1 hmem
        · exact List.mem_cons.2 (.inl h)
        · exact .tail _ (.tail _ h)
      · obtain rfl | ht := List.mem_cons.1 ht
        · exact hfirst
        · obtain rfl | ht := List.mem_cons.1 ht
          · exact hfirst.trans (leads_of_not_older hold)
          · exact hleads t (.tail _ ht)

theorem oldest_some {l : List Span} (h : l ≠ []) : ∃ m ∈ l, oldest l = some m ∧ ∀ t ∈ l, m.Leads t := by
  cases l with
  | nil => exact absurd rfl h
  | cons a r => exact ⟨_, (foldl_older_leads r a).1, rfl, (foldl_older_leads r a).2⟩

/-- R312: the choice among the spans that are ready. -/
theorem choose_some {ready : List Span} (h : ready ≠ []) : ∃ sp ∈ ready, choose ready = some sp ∧
    ((∀ t ∈ ready, t.waited < 48) → ∀ t ∈ ready, sp.Leads t) ∧
    ((∃ t ∈ ready, 48 ≤ t.waited) → 48 ≤ sp.waited ∧ ∀ t ∈ ready, t.waited ≤ sp.waited) := by
  unfold choose
  dsimp only
  split
  case isTrue hnone =>
    have hnone : ∀ t ∈ ready, t.waited < 48 := by simpa using hnone
    obtain ⟨sp, hsp, hold, hleads⟩ := oldest_some h
    refine ⟨sp, hsp, hold, fun _ => hleads, fun ⟨t, ht, hlate⟩ => ?_⟩
    exact absurd (hnone t ht) (by omega)
  case isFalse hsome =>
    generalize hL : ready.filter (fun sp => decide (48 ≤ sp.waited)) = late at hsome ⊢
    have hlate {t : Span} : t ∈ late ↔ t ∈ ready ∧ 48 ≤ t.waited := by rw [← hL, List.mem_filter, decide_eq_true_eq]
    have hne : late ≠ [] := by simpa using hsome
    have hmost : maxNat (late.map (·.waited)) ∈ late.map (·.waited) := maxNat_mem (by simpa using hne)
    obtain ⟨w, hw, hwm⟩ := List.mem_map.1 hmost
    obtain ⟨sp, hsp, hold, -⟩ := oldest_some (l := late.filter (·.waited = maxNat (late.map (·.waited))))
      (List.ne_nil_of_mem (List.mem_filter.2 ⟨hw, decide_eq_true hwm⟩))
    obtain ⟨hspl, hspm⟩ := List.mem_filter.1 hsp
    have hspm := of_decide_eq_true hspm
    obtain ⟨hready, h48⟩ := hlate.1 hspl
    refine ⟨sp, hready, hold, fun hall => absurd (hall sp hready) (by omega), fun _ => ⟨h48, fun t ht => ?_⟩⟩
    by_cases h : 48 ≤ t.waited
    · exact hspm ▸ le_maxNat (List.mem_map_of_mem (hlate.2 ⟨ht, h⟩))
    · omega

/-! The pick. -/

theorem countPick_eq (s : State) (quad : Nat) (here : List Span) (picked : Bool) :
    ∃ c, s.countPick quad here picked = { s with ctrs := c } := by
  unfold State.countPick
  dsimp only
  split
  exacts [⟨_, rfl⟩, ⟨_, rfl⟩]

/-- The spans of a quadrant that are ready to issue. -/
def State.readyIn (s : State) (quad : Nat) : List Span :=
  s.spans.filter fun sp => decide (sp.id / 16 = quad) && sp.resident && (s.holdOf sp).isNone

theorem mem_readyIn {s : State} {quad : Nat} {sp : Span} :
    sp ∈ s.readyIn quad ↔ sp ∈ s.spans ∧ sp.id / 16 = quad ∧ sp.resident = true ∧ (s.holdOf sp).isNone = true := by
  rw [State.readyIn, List.mem_filter, Bool.and_eq_true, Bool.and_eq_true, decide_eq_true_eq, and_assoc]

/-- A span after a pick by its quadrant, which picks the span of the number `p`. -/
def State.counted (s : State) (quad : Nat) (p : Option Nat) (sp : Span) : Span :=
  if sp.id / 16 = quad && sp.resident then
    { sp with waited := if (s.readyIn quad).any (·.uid = sp.uid) && p ≠ some sp.uid then sp.waited + 1 else 0, want := max sp.want (s.wants sp) }
  else sp

theorem pick_eq (s : State) (quad : Nat) : ∃ c, s.pick quad =
    { s with picked := match choose (s.readyIn quad) with | some sp => some sp.id | none => s.picked
             spans := s.spans.map (s.counted quad ((choose (s.readyIn quad)).map (·.uid)))
             ctrs := c } := by
  have hready : (s.spans.filter fun sp => sp.id / 16 = quad && sp.resident).filter (fun sp => (s.holdOf sp).isNone) = s.readyIn quad := by
    rw [List.filter_filter, State.readyIn]
    exact List.filter_congr fun sp _ => Bool.and_comm ..
  obtain ⟨c, hc⟩ := countPick_eq s quad (s.spans.filter fun sp => sp.id / 16 = quad && sp.resident) ((choose (s.readyIn quad)).map (·.uid)).isSome
  refine ⟨c, ?_⟩
  unfold State.pick
  dsimp only
  rw [hready, hc]
  rfl

theorem counted_bare (s : State) (quad : Nat) (p : Option Nat) (sp : Span) :
    { s.counted quad p sp with waited := 0, want := 0 } = { sp with waited := 0, want := 0 } := by
  unfold State.counted
  split <;> rfl

/-- R312: a span that was ready and is not the one picked has waited one cycle more. -/
theorem counted_ready {s : State} {quad : Nat} {p : Option Nat} {sp : Span} (h : sp ∈ s.readyIn quad) (hp : p ≠ some sp.uid) :
    s.counted quad p sp = { sp with waited := sp.waited + 1, want := max sp.want (s.wants sp) } := by
  obtain ⟨-, hquad, hres, -⟩ := mem_readyIn.1 h
  have hany : (s.readyIn quad).any (·.uid = sp.uid) = true := List.any_eq_true.2 ⟨sp, h, decide_eq_true rfl⟩
  unfold State.counted
  simp only [hquad, hres, hany, hp, decide_true, Bool.and_self, if_true, ne_eq, not_false_eq_true]

theorem prefetch_idle {s : State} (h : s.streams = []) (pier : Nat) : s.prefetch pier = s := by
  unfold State.prefetch
  simp only [h, List.filter_nil, List.getElem?_nil]

theorem forget_tlb (s : State) : ∀ t ∈ s.forget.tlb, t ∈ s.tlb := fun _ => List.mem_of_mem_eraseIdx

theorem exec_quadrantPick (quad : Nat) (s : State) : exec (.quadrantPick quad) s = execQuadrantPick quad s := rfl

/-- R312: what a quadrant picks while no span is picked. -/
theorem pick_picks (s : State) (quad : Nat) (hnone : s.picked = none) :
    { s.pick quad with picked := s.picked, spans := s.spans, ctrs := s.ctrs } = s ∧
    (s.pick quad).spans.map (fun t => { t with waited := 0, want := 0 }) = s.spans.map (fun t => { t with waited := 0, want := 0 }) ∧
    (s.readyIn quad = [] → (s.pick quad).picked = none) ∧
    (s.readyIn quad ≠ [] → ∃ sp ∈ s.readyIn quad, (s.pick quad).picked = some sp.id ∧
      ((∀ t ∈ s.readyIn quad, t.waited < 48) → ∀ t ∈ s.readyIn quad, sp.age < t.age ∨ (sp.age = t.age ∧ sp.uid ≤ t.uid)) ∧
      ((∃ t ∈ s.readyIn quad, 48 ≤ t.waited) → 48 ≤ sp.waited ∧ ∀ t ∈ s.readyIn quad, t.waited ≤ sp.waited) ∧
      ∀ t ∈ s.readyIn quad, t.uid ≠ sp.uid → ∃ w, { t with waited := t.waited + 1, want := w } ∈ (s.pick quad).spans) := by
  obtain ⟨c, hpick⟩ := pick_eq s quad
  rw [hpick]
  refine ⟨rfl, ?_, fun hempty => ?_, fun hne => ?_⟩
  · rw [List.map_map]
    exact List.map_congr_left fun sp _ => counted_bare s quad _ sp
  · rw [hempty]
    exact hnone
  · obtain ⟨sp, hsp, hchoose, holder, hlate⟩ := choose_some hne
    rw [hchoose]
    refine ⟨sp, hsp, rfl, holder, hlate, fun t ht hut => ⟨max t.want (s.wants t), ?_⟩⟩
    rw [← counted_ready (p := some sp.uid) ht fun h => hut (Option.some.inj h).symm]
    exact List.mem_map_of_mem (mem_readyIn.1 ht).1

/-! The fetch (R67). -/

theorem exec_instructionFetch {s t : State} (h : s.fetch = t) : exec .instructionFetch s = .next t := h ▸ rfl

/-- What a fetch finds at the address of the issuing set: what the TLB says, else the outcome of a walk. -/
def State.fetchLook (s : State) (sp : Span) (cx : Context) (a : Word) : State × XOut :=
  match s.tlbLook sp.pier cx a.toNat { ex := true } with
  | some o => (s, o)
  | none => s.walk (some sp.pier) cx a.toNat { ex := true }

theorem fetchLook_spares (s : State) (sp : Span) (cx : Context) (a : Word) : s.Spares (s.fetchLook sp cx a).1 := by
  unfold State.fetchLook
  split
  exacts [.refl s, walk_spares s _ cx _ _]

section
variable {s : State} {sp0 sp : Span} {I : List Nat} {a : Word} {cx : Context}

/-- A fetch whose walk meets a held line is made again. -/
theorem fetch_held (h : Issuing s sp0 sp I a) (hcx : s.ctx? sp0.ctx = some cx) (hmiss : s.tlbLook sp.pier cx a.toNat { ex := true } = none)
    (hheld : s.walkHeld cx a.toNat = true) : s.fetch = { s with picked := none, ir := none } := by
  simp only [State.fetch, h.picked, h.there, h.free, h.select, hcx, hmiss, hheld, Bool.false_eq_true, Option.isNone_none, Bool.and_self, if_true, if_false]

/-- A fetch that meets no held line has the outcome that it finds. -/
theorem fetch_looks (h : Issuing s sp0 sp I a) (hcx : s.ctx? sp0.ctx = some cx)
    (hfree : ((s.tlbLook sp.pier cx a.toNat { ex := true }).isNone && s.walkHeld cx a.toNat) = false) : s.fetch =
    match s.fetchLook sp cx a with
    | (s1, .pass key _) =>
      if s1.lineHeld (lineOf key) then { s1 with picked := none, ir := none }
      else { (s1.fillIc sp.pier (lineOf key)).touch (lineOf key) with ir := some (s1.word key) }
    | (s1, o) => { s1.putSpan sp with ir := none }.fetchFails sp.id I a o := by
  simp only [State.fetch, h.picked, h.there, h.free, h.select, hcx, hfree, Bool.false_eq_true, if_false, select_id h.select]
  rfl

end

/-! The fetch that fails: the word register stays as the fetch leaves it. -/

/-- The instruction word that has been fetched is the same. -/
def State.SameWord (s t : State) : Prop := t.ir = s.ir

namespace State.SameWord

variable {s t u : State}

theorem refl (s : State) : s.SameWord s := rfl
theorem trans (h : s.SameWord t) (g : t.SameWord u) : s.SameWord u := Eq.trans g h

theorem foldl {α : Type} {f : State → α → State} (hf : ∀ t a, State.SameWord t (f t a)) (l : List α) (s : State) : s.SameWord (l.foldl f s) := by
  induction l generalizing s with
  | nil => exact refl s
  | cons a r ih => exact (hf s a).trans (ih _)

theorem foldl_fst {α β : Type} {f : State × β → α → State × β} (hf : ∀ p a, State.SameWord p.1 (f p a).1) (l : List α) (p : State × β) :
    p.1.SameWord (l.foldl f p).1 := by
  induction l generalizing p with
  | nil => exact refl p.1
  | cons a r ih => exact (hf p a).trans (ih _)

end State.SameWord

theorem portsFree_sameWord (s : State) (part k n : Nat) : s.SameWord (s.portsFree part k n) := by
  unfold State.portsFree
  split
  · exact .refl s
  · refine .foldl (fun t i => ?_) _ s
    unfold State.portFrees
    dsimp only
    split
    · exact .refl t
    · split <;> exact .refl t

theorem unlist_sameWord (s : State) (pier : Option Nat) (k n : Nat) : s.SameWord (s.unlist pier k n) := by
  unfold State.unlist
  split <;> exact .refl s

theorem walk_sameWord (s : State) (pier : Option Nat) (cx : Context) (va : Nat) (need : Need) : s.SameWord (s.walk pier cx va need).1 := by
  unfold State.walk
  split
  · exact .refl s
  · split
    · split
      · split
        · exact State.poke_ir s _ _
        · exact .refl s
      · split <;> exact State.poke_ir s _ _
    · exact .refl s

theorem lookPages_sameWord (s : State) (pier : Option Nat) (cx : Context) (need : Need) (ps : List (Nat × Nat)) :
    s.SameWord (s.lookPages pier cx need ps).1 := by
  induction ps generalizing s with
  | nil => exact .refl s
  | cons p r ih =>
    have hseek : s.SameWord (s.seek pier cx p.1 need).1 := by
      unfold State.seek
      split
      exacts [.refl s, walk_sameWord s pier cx p.1 need]
    unfold State.lookPages
    split
    · exact .refl s
    · exact hseek.trans (ih _)

theorem checkPages_sameWord (s : State) (pier : Option Nat) (cx : Context) (need : Need) (ps : List (Nat × Nat)) :
    s.SameWord (s.checkPages pier cx need ps).1 := by
  have h := lookPages_sameWord s pier cx need ps
  unfold State.checkPages
  split <;> rename_i heq <;> rw [heq] at h <;> exact h

theorem deviceWrite_sameWord (s : State) (pier : Option Nat) (cx : Context) (va : Word) (bs : List Byte) :
    s.SameWord (s.deviceWrite pier cx va bs).1 := by
  have h := checkPages_sameWord s pier cx { wr := true } (pagePieces va.toNat bs.length)
  unfold State.deviceWrite
  split <;> rename_i heq <;> rw [heq] at h
  · exact h
  · split
    · exact h
    · refine h.trans (.foldl_fst (fun p k => ?_) _ (_, bs))
      exact State.SameWord.trans (State.poke_ir _ _ _) ((unlist_sameWord _ _ _ _).trans (portsFree_sameWord _ _ _ _))

theorem notify_sameWord (s : State) (ctx : Nat) (why : Park) (who : Waiter) (pages : List Nat) : s.SameWord (s.notify ctx why who pages) := by
  refine .foldl (fun t p => ?_) _ s
  dsimp only
  split <;> exact .refl t

theorem tryRecord_sameWord (s : State) (sp : Span) (cx : Context) (l : Nat) (bs : List Byte) : s.SameWord (s.tryRecord sp cx l bs).1 := by
  unfold State.tryRecord
  split
  exacts [checkPages_sameWord _ _ _ _ _, deviceWrite_sameWord _ _ _ _ _]

theorem writeRecord_sameWord (s : State) (id l : Nat) (c : Cause) (bs : List Byte) : s.SameWord (s.writeRecord id l c bs) := by
  unfold State.writeRecord
  split
  · exact .refl s
  · rename_i sp _
    split
    · exact .refl s
    · rename_i cx _
      have hwrite := tryRecord_sameWord s sp cx l bs
      unfold State.tryRecord at hwrite
      dsimp only at hwrite ⊢
      split <;> rename_i heq <;> rw [heq] at hwrite
      · exact hwrite
      · exact hwrite
      · exact hwrite.trans (notify_sameWord _ _ _ _ _)
      · exact hwrite

theorem faultLane_sameWord (s : State) (id l : Nat) (c : Cause) (kind log2 part : Nat) (vaddr iaddr : Word) :
    s.SameWord (s.faultLane id l c kind log2 part vaddr iaddr) := by
  unfold State.faultLane
  split
  · exact .refl s
  · exact writeRecord_sameWord _ _ _ _ _

theorem parkLane_sameWord (s : State) (id l : Nat) (why : Park) (pages : List Nat) : s.SameWord (s.parkLane id l why pages) := by
  unfold State.parkLane
  split
  · exact .refl s
  · exact notify_sameWord _ _ _ _ _

/-! The fetch that fails: its lanes, one after another. -/

/-- Two states of a lane that differ in its reservation and its waits alone. -/
def Lane.Alike (a b : Lane) : Prop := { b with resv := a.resv, wait := a.wait, kept := a.kept } = a

theorem Lane.Alike.refl (a : Lane) : a.Alike a := rfl

theorem Lane.Alike.trans {a b c : Lane} (h : a.Alike b) (g : b.Alike c) : a.Alike c := by
  unfold Lane.Alike at *
  rw [← g] at h
  exact h

/-- The operation `f` strikes the lane it is given, and leaves the others: the lane's address stays, and `P` holds of it. -/
def Strikes (id : Nat) (P : Lane → Prop) (f : State → Nat → State) : Prop :=
  ∀ (t : State) (q : Span) (l : Nat), t.span? id = some q → (q.lane l).st.ended = false →
    ∃ q', (f t l).span? id = some q' ∧ (q'.lane l).pc = (q.lane l).pc ∧ P (q'.lane l) ∧ ∀ k, k ≠ l → (q.lane k).Alike (q'.lane k)

/-- What holds of a struck lane: it has not ended, and its reservation and its waits do not matter. -/
structure Lasting (P : Lane → Prop) : Prop where
  alive : ∀ a, P a → a.st.ended = false
  alike : ∀ a b, a.Alike b → P a → P b

theorem Strikes.foldl {id : Nat} {P : Lane → Prop} {f : State → Nat → State} (hf : Strikes id P f) (hP : Lasting P) (I : List Nat) {t : State} {q : Span}
    (ht : t.span? id = some q) (halive : ∀ l ∈ I, (q.lane l).st.ended = false) :
    ∃ q', (I.foldl f t).span? id = some q' ∧ (∀ l ∈ I, (q'.lane l).pc = (q.lane l).pc ∧ P (q'.lane l)) ∧
      ∀ l, l ∉ I → (q.lane l).Alike (q'.lane l) := by
  induction I generalizing t q with
  | nil => exact ⟨q, ht, fun _ h => absurd h List.not_mem_nil, fun l _ => .refl _⟩
  | cons l r ih =>
    obtain ⟨q1, h1, hpc, hstruck, hothers⟩ := hf t q l ht (halive l (.head _))
    have halive1 : ∀ k ∈ r, (q1.lane k).st.ended = false := by
      intro k hk
      by_cases hkl : k = l
      · exact hkl ▸ hP.alive _ hstruck
      · have hst := congrArg Lane.st (hothers k hkl)
        exact (congrArg LaneState.ended hst).trans (halive k (.tail _ hk))
    obtain ⟨q', h', hdone, hleft⟩ := ih h1 halive1
    refine ⟨q', h', fun k hk => ?_, fun k hk => ?_⟩
    · have hpc1 : (q1.lane k).pc = (q.lane k).pc := by
        by_cases hkl : k = l
        · exact hkl ▸ hpc
        · have h := congrArg Lane.pc (hothers k hkl)
          exact h
      by_cases hkr : k ∈ r
      · exact ⟨(hdone k hkr).1.trans hpc1, (hdone k hkr).2⟩
      · obtain rfl := (List.mem_cons.1 hk).resolve_right hkr
        have hsame := hleft k hkr
        have hpc' := congrArg Lane.pc hsame
        exact ⟨Eq.trans hpc' hpc1, hP.alike _ _ hsame hstruck⟩
    · obtain ⟨hkl, hkr⟩ := not_or.1 (List.mem_cons.not.1 hk)
      exact (hothers k hkl).trans (hleft k hkr)

theorem parkLane_strikes (id : Nat) (why : Park) (pages : List Nat) :
    Strikes id (fun ln => ln.st = .parkedRec ∧ ln.reason = some why ∧ ln.pages = pages) (fun t l => t.parkLane id l why pages) := by
  intro t q l ht halive
  have hlen := lane_lt_of_not_ended halive
  refine ⟨q.onLane l fun ln => { ln with st := .parkedRec, reason := some why, pages := pages, wait := none }, ?_, ?_, ?_, fun k hk => ?_⟩
  · simp only [State.parkLane, ht, notify_span?]
    exact span?_onSpan_self _ (fun _ => rfl) ht
  · rw [lane_onLane, if_pos ⟨rfl, hlen⟩]
  · dsimp only
    rw [lane_onLane, if_pos ⟨rfl, hlen⟩]
    exact ⟨rfl, rfl, rfl⟩
  · rw [lane_onLane, if_neg fun h => hk h.1]
    exact .refl _

theorem faultLane_strikes (id : Nat) (c : Cause) (kind log2 part : Nat) (vaddr iaddr : Word) :
    Strikes id (fun ln => ln.st = .parkedFatal) (fun t l => t.faultLane id l c kind log2 part vaddr iaddr) := by
  intro t q l ht halive
  obtain rfl : q.id = id := span?_id ht
  have hthere := span?_onSpan_self (·.faulted l) (fun _ => rfl) ht
  obtain ⟨q', hq', hlog⟩ := writeRecord_logs _ q.id l c (faultRecord q l c kind log2 part vaddr iaddr) q.id _ hthere
  have hlane (k : Nat) := lane_faulted q l k
  refine ⟨q', (congrArg (·.span? q.id) (faultLane_eq ht ..)).trans hq', ?_, ?_, fun k hk => ?_⟩
  · rw [hlog.lane_pc, hlane, if_pos ⟨rfl, lane_lt_of_not_ended halive⟩]
  · dsimp only
    rw [hlog.lane_st, hlane, if_pos ⟨rfl, lane_lt_of_not_ended halive⟩]
  · have h := hlog.lane k
    rw [hlane, if_neg fun h => hk h.1] at h
    exact h

theorem lasting_parked (why : Park) (pages : List Nat) : Lasting fun ln => ln.st = .parkedRec ∧ ln.reason = some why ∧ ln.pages = pages where
  alive ln h := by rw [h.1]; rfl
  alike a b h hP := by rw [← h] at hP; exact hP

theorem lasting_fatal : Lasting fun ln => ln.st = .parkedFatal where
  alive ln h := by rw [h]; rfl
  alike a b h hP := by rw [← h] at hP; exact hP

section
variable {s s1 : State} {sp0 sp : Span} {I : List Nat} {a : Word} {cx : Context}

/-- The lanes of the issuing set are struck one after another; no span is picked, and no word fetched. -/
theorem struck_all {P : Lane → Prop} {f : State → Nat → State} {t : State} (hf : Strikes sp.id P f) (hP : Lasting P)
    (hword : ∀ t l, State.SameWord t (f t l))
    (h : Issuing s sp0 sp I a) (ht : t.span? sp.id = some sp) (hir : t.ir = none) :
    ∃ (u : State) (sp' : Span), ({ I.foldl f t with picked := none } : State) = u ∧ u.picked = none ∧ u.ir = none ∧ u.span? sp.id = some sp' ∧
      ∀ l ∈ I, (sp'.lane l).pc = (sp.lane l).pc ∧ P (sp'.lane l) := by
  have halive : ∀ l ∈ I, (sp.lane l).st.ended = false := fun l hl => congrArg LaneState.ended (select_ready h.select hl)
  obtain ⟨sp', hsp', hstruck, -⟩ := hf.foldl hP I ht halive
  exact ⟨_, sp', rfl, rfl, Eq.trans (b := t.ir) (State.SameWord.foldl hword I t) hir, hsp', hstruck⟩

/-- The state in which a fetch fails: what its walk left, with the span as selection leaves it. -/
theorem failing_span? (h : Issuing s sp0 sp I a) (hs1 : s.Spares s1) : ({ s1.putSpan sp with ir := none } : State).span? sp.id = some sp := by
  obtain ⟨q, hq, -⟩ := hs1 sp.id sp0 (issuing_span? h)
  exact span?_putSpan_self s1 sp q hq

end

/-- Settles O45: the pick is `choose` of the spans that are ready, and a fetch that fails strikes the lanes of the issuing set one after another. -/
theorem picksAndFetches : Obligations.picks_and_fetches := by
  refine ⟨fun s quad => ⟨fun hpicked => ?_, rfl, forget_tlb s, fun hnone => ?_⟩, fun s sp0 sp I a cx h hcx => ?_⟩
  · rw [exec_quadrantPick, execQuadrantPick, if_pos (Option.isSome_iff_ne_none.2 hpicked)]
  · refine ⟨s.pick quad, ?_, fun hidle => ?_, pick_picks s quad hnone⟩
    · rw [exec_quadrantPick, execQuadrantPick, if_neg (by simp [hnone])]
    · have hstreams : (s.pick quad).streams = s.streams := by have hf := congrArg State.streams (pick_picks s quad hnone).1; exact hf
      exact prefetch_idle (hstreams.trans hidle) _
  · intro look
    have hlook {s1 : State} {o : XOut} (hl : look s1 o) : s.fetchLook sp cx a = (s1, o) ∧
        ((s.tlbLook sp.pier cx a.toNat { ex := true }).isNone && s.walkHeld cx a.toNat) = false := by
      obtain ⟨hhit, rfl⟩ | ⟨hmiss, hfree, hwalk⟩ := hl
      · exact ⟨by rw [State.fetchLook, hhit], by rw [hhit]; rfl⟩
      · exact ⟨by rw [State.fetchLook, hmiss]; exact hwalk, by rw [hfree, Bool.and_false]⟩
    refine ⟨fun hmiss hheld => exec_instructionFetch (fetch_held h hcx hmiss hheld), fun s1 key kind hl => ?_, fun s1 o hl => ?_⟩
    · obtain ⟨hfound, hfree⟩ := hlook hl
      have hfetch := fetch_looks h hcx hfree
      rw [hfound] at hfetch
      dsimp only at hfetch
      refine ⟨fun hline => ⟨_, exec_instructionFetch (hfetch.trans (if_neg (ne_true_of_eq_false hline))), rfl, rfl⟩, fun hline => ?_⟩
      exact exec_instructionFetch (hfetch.trans (if_pos hline))
    · obtain ⟨hfound, hfree⟩ := hlook hl
      have hfetch := fetch_looks h hcx hfree
      have hspares := fetchLook_spares s sp cx a
      rw [hfound] at hfetch hspares
      have hthere := failing_span? h hspares
      refine ⟨fun c hc => ?_, fun w hw => ?_⟩
      · subst hc
        obtain ⟨u, sp', hu, hpicked, hir, hsp', hstruck⟩ :=
          struck_all (faultLane_strikes sp.id c 3 3 0 a a) lasting_fatal (fun t l => faultLane_sameWord t sp.id l c 3 3 0 a a) h hthere rfl
        exact ⟨u, sp', exec_instructionFetch (hfetch.trans (congrArg (State.settle · sp.id) hu)), hpicked, hir, hsp', fun l hl _ => hstruck l hl⟩
      · subst hw
        obtain ⟨u, sp', hu, hpicked, hir, hsp', hstruck⟩ :=
          struck_all (parkLane_strikes sp.id w _) (lasting_parked w _) (fun t l => parkLane_sameWord t sp.id l w [a.toNat / 65536 * 65536]) h hthere rfl
        exact ⟨u, sp', exec_instructionFetch (hfetch.trans (congrArg (State.settle · sp.id) hu)), hpicked, hir, hsp', fun l hl _ => hstruck l hl⟩

end Sys2Proof.Machine
end

section
/-! SUPPORT. The requests of a deck word: one for each bank row that it names, rows rising (R186, R187, R190, R246). -/

namespace Sys2Proof.Machine

/-! The row of a part. -/

/-- The requests of an instruction, one for each bank row: its `proto` but for the row, the bank and the parts. -/
structure DeckFiled (proto : DeckReq) (rs : List DeckReq) : Prop where
  rows  : (rs.map (·.row)).Pairwise (· < ·)
  form  : ∀ r ∈ rs, { r with row := proto.row, bank := proto.bank, parts := proto.parts } = proto
  bank  : ∀ r ∈ rs, r.bank = r.row % 48
  parts : ∀ r ∈ rs, ∀ p ∈ r.parts, p.addr / 64 = r.row

section
variable (proto : DeckReq) (row : Nat) (p : DeckPart)

/-- The rows after a part has been filed: its own and those before. -/
theorem mem_rows_addDeck (rs : List DeckReq) (n : Nat) :
    n ∈ (addDeck proto row p rs).map (·.row) ↔ n = row ∨ n ∈ rs.map (·.row) := by
  induction rs with
  | nil => simp [addDeck]
  | cons r rest ih =>
    simp only [addDeck]
    split
    case isTrue heq => simp [heq]
    case isFalse hne =>
      split
      · simp
      · simp only [List.map_cons, List.mem_cons, ih]
        exact or_left_comm

/-- The parts after one has been filed: that one and those before. -/
theorem mem_parts_addDeck (rs : List DeckReq) (q : DeckPart) :
    (∃ r ∈ addDeck proto row p rs, q ∈ r.parts) ↔ q = p ∨ ∃ r ∈ rs, q ∈ r.parts := by
  induction rs with
  | nil => simp [addDeck]
  | cons r rest ih =>
    simp only [addDeck]
    split
    case isTrue heq =>
      simp only [List.mem_cons, exists_eq_or_imp, List.mem_append, List.not_mem_nil, or_false]
      tauto
    case isFalse hne =>
      split
      · simp
      · simp only [List.mem_cons, exists_eq_or_imp, ih]
        exact or_left_comm

variable {proto row p}

theorem addDeck_filed {rs : List DeckReq} (h : DeckFiled proto rs) (hp : p.addr / 64 = row) : DeckFiled proto (addDeck proto row p rs) := by
  induction rs with
  | nil =>
    refine ⟨List.pairwise_singleton _ _, fun r hr => ?_, fun r hr => ?_, fun r hr q hq => ?_⟩ <;> obtain rfl := List.mem_singleton.1 hr
    · rfl
    · rfl
    · obtain rfl := List.mem_singleton.1 hq
      exact hp
  | cons r rest ih =>
    obtain ⟨hrows, hform, hbank, hparts⟩ := h
    obtain ⟨hfirst, hrest⟩ := List.pairwise_cons.1 hrows
    obtain ⟨hform0, hform⟩ := List.forall_mem_cons.1 hform
    obtain ⟨hbank0, hbank⟩ := List.forall_mem_cons.1 hbank
    obtain ⟨hparts0, hparts⟩ := List.forall_mem_cons.1 hparts
    simp only [addDeck]
    split
    case isTrue heq =>
      refine ⟨hrows, List.forall_mem_cons.2 ⟨hform0, hform⟩, List.forall_mem_cons.2 ⟨hbank0, hbank⟩, List.forall_mem_cons.2 ⟨fun q hq => ?_, hparts⟩⟩
      obtain hq | hq := List.mem_append.1 hq
      · exact hparts0 q hq
      · exact (List.mem_singleton.1 hq ▸ hp).trans heq.symm
    case isFalse hne =>
      split
      case isTrue hlt =>
        refine ⟨List.pairwise_cons.2 ⟨fun n hn => ?_, hrows⟩, List.forall_mem_cons.2 ⟨rfl, List.forall_mem_cons.2 ⟨hform0, hform⟩⟩,
          List.forall_mem_cons.2 ⟨rfl, List.forall_mem_cons.2 ⟨hbank0, hbank⟩⟩,
          List.forall_mem_cons.2 ⟨fun q hq => ?_, List.forall_mem_cons.2 ⟨hparts0, hparts⟩⟩⟩
        · obtain rfl | hn := List.mem_cons.1 hn
          · exact hlt
          · exact hlt.trans (hfirst n hn)
        · exact List.mem_singleton.1 hq ▸ hp
      case isFalse hlt =>
        have hfiled := ih ⟨hrest, hform, hbank, hparts⟩
        refine ⟨List.pairwise_cons.2 ⟨fun n hn => ?_, hfiled.rows⟩, List.forall_mem_cons.2 ⟨hform0, hfiled.form⟩,
          List.forall_mem_cons.2 ⟨hbank0, hfiled.bank⟩, List.forall_mem_cons.2 ⟨hparts0, hfiled.parts⟩⟩
        obtain rfl | hn := (mem_rows_addDeck proto row p rest n).1 hn
        · exact lt_of_le_of_ne (Nat.not_lt.1 hlt) hne
        · exact hfirst n hn

end

/-- The parts of an instruction, each filed under its row. -/
def fileDeck (proto : DeckReq) (ps : List DeckPart) (rs : List DeckReq) : List DeckReq :=
  ps.foldl (fun rs p => addDeck proto (p.addr / 64) p rs) rs

section
variable {proto : DeckReq}

theorem fileDeck_filed (ps : List DeckPart) {rs : List DeckReq} (h : DeckFiled proto rs) : DeckFiled proto (fileDeck proto ps rs) := by
  induction ps generalizing rs with
  | nil => exact h
  | cons p ps ih => exact ih (addDeck_filed h rfl)

theorem mem_parts_fileDeck (ps : List DeckPart) (rs : List DeckReq) (q : DeckPart) :
    (∃ r ∈ fileDeck proto ps rs, q ∈ r.parts) ↔ q ∈ ps ∨ ∃ r ∈ rs, q ∈ r.parts := by
  induction ps generalizing rs with
  | nil => simp [fileDeck]
  | cons p ps ih =>
    refine (ih _).trans ?_
    rw [mem_parts_addDeck, List.mem_cons]
    tauto

theorem mem_rows_fileDeck (ps : List DeckPart) (rs : List DeckReq) (n : Nat) :
    n ∈ (fileDeck proto ps rs).map (·.row) ↔ n ∈ ps.map (·.addr / 64) ∨ n ∈ rs.map (·.row) := by
  induction ps generalizing rs with
  | nil => simp [fileDeck]
  | cons p ps ih =>
    refine (ih _).trans ?_
    rw [mem_rows_addDeck, List.map_cons, List.mem_cons]
    tauto

theorem deckFiled_nil : DeckFiled proto [] :=
  ⟨.nil, fun _ h => absurd h List.not_mem_nil, fun _ h => absurd h List.not_mem_nil, fun _ h => absurd h List.not_mem_nil⟩

/-- Rows that all lie in a list are no more than its elements. -/
theorem filed_length {rs : List DeckReq} (h : DeckFiled proto rs) {L : List Nat} (hL : ∀ n ∈ rs.map (·.row), n ∈ L) : rs.length ≤ L.length := by
  have hnodup : (rs.map (·.row)).Nodup := h.rows.imp fun h => Nat.ne_of_lt h
  have hle := (hnodup.subperm hL).length_le
  rwa [List.length_map] at hle

end

/-! The landing entries of an ATOMD (R111). -/

/-- The slots of the landing that are free. -/
def Span.freeSlots (sp : Span) : List Nat := (List.range 32).filter fun k => !sp.landing.any (·.slot = k)

/-- Each entry takes one slot at most. -/
theorem landFree_le_freeSlots (sp : Span) : sp.landFree ≤ sp.freeSlots.length := by
  have hused : ((List.range 32).filter fun k => sp.landing.any (·.slot = k)).length ≤ (sp.landing.map (·.slot)).length := by
    refine ((List.nodup_range.filter _).subperm fun k hk => ?_).length_le
    obtain ⟨e, he, hslot⟩ := List.any_eq_true.1 (List.mem_filter.1 hk).2
    exact List.mem_map.2 ⟨e, he, of_decide_eq_true hslot⟩
  have hsplit := List.length_eq_length_filter_add (l := List.range 32) (fun k => sp.landing.any (·.slot = k))
  rw [List.length_range] at hsplit
  rw [List.length_map] at hused
  have hfree : sp.landFree ≤ 32 - sp.landing.length := (Nat.sub_le _ _).trans ((Nat.sub_le _ _).trans (Nat.sub_le _ _))
  unfold Span.freeSlots
  omega

/-- R111: an ATOMD with free entries enough holds one for each row. -/
theorem deckEntries_vlines {sp : Span} (seq : Nat) {reqs : List DeckReq} (h : reqs.length ≤ sp.landFree) :
    (deckEntries sp seq reqs).map (·.vline) = reqs.map (·.row) := by
  have hle : reqs.length ≤ sp.freeSlots.length := h.trans (landFree_le_freeSlots sp)
  have hsnd := congrArg (List.map (·.row)) (List.map_snd_zip hle)
  rw [List.map_map] at hsnd
  rw [← hsnd, deckEntries, List.map_map]
  rfl

/-! The sizes (R184). -/

theorem sizeBytes_eq : ∀ z : BitVec 3, sizeBytes z = bytesOf z := by decide
theorem sizeSigned_eq : ∀ z : BitVec 3, sizeSigned z = signed z := by decide
theorem sizeRegs_eq : ∀ z : BitVec 3, sizeRegs z = wordsOf z := by decide

end Sys2Proof.Machine
end

section
/-! SUPPORT. The deck words as they issue: their requests, their results and their landing entries (R63, R111, R186, R187, R190). -/

namespace Sys2Proof.Machine

/-! What a deck word does to its span and to the queues. -/

/-- The parts of a deck word, one for each acting lane, with the results' numbers rising. -/
def Iss.deckParts (x : Iss) (size : Nat) (sgn : Bool) (addr : Nat → Int) (op : Nat → DeckOp) (data : Nat → BitVec 128) : List DeckPart :=
  imap (fun k l => ⟨l, (addr l).toNat, size, sgn, data l, op (x.sp.seq + 1 + k)⟩) 0 x.G

/-- A result of a deck word. -/
def deckResult (size d id l : Nat) : Result :=
  { id := id, lane := some l, vreg := some (d, if size = 16 then 4 else if size = 8 then 2 else 1), need := 1 }

/-- The results of a deck word. -/
def Iss.deckResults (x : Iss) (size : Nat) : Option Nat → List Result
  | some d => imap (fun k l => deckResult size d (x.sp.seq + 1 + k) l) 0 x.G
  | none => []

theorem deckParts_eq (x : Iss) (size : Nat) (sgn : Bool) (addr : Nat → Int) (op : Nat → DeckOp) (data : Nat → BitVec 128) :
    x.deckParts size sgn addr op data = (imap (fun k l => (l, x.sp.seq + 1 + k)) 0 x.G).map fun e =>
      ⟨e.1, (addr e.1).toNat, size, sgn, data e.1, op e.2⟩ := by
  rw [map_imap]
  rfl

theorem deckResults_eq (x : Iss) (size d : Nat) :
    x.deckResults size (some d) =
      (imap (fun k l => (l, x.sp.seq + 1 + k)) 0 x.G).map fun e => deckResult size d e.2 e.1 := by
  rw [map_imap]
  rfl

def Iss.deckProto (x : Iss) (stores : Bool) : DeckReq :=
  { pier := x.sp.pier, bank := 0, row := 0, span := x.sp.id, uid := x.sp.uid, blk := x.sp.block, seq := x.sp.seq, parts := [],
    fences := if stores then x.sp.relFence else [] }

/-- The span of a deck word after its issue. -/
def Iss.decked (x : Iss) (results : List Result) (stores : Bool) (es : List Entry) : Span :=
  { x.moved with seq := x.sp.seq + 1 + x.G.length, results := x.sp.results ++ results, relFence := if stores then [] else x.sp.relFence,
                 landing := x.sp.landing ++ es }

section
variable {i : Instr} {size : Nat} {sgn : Bool} {res : Option Nat} {addr : Iss → Nat → Int} {op : Nat → DeckOp}
  {data : Iss → Nat → BitVec 128} {atomd : Bool}
  {s : State} {sp0 sp : Span} {I : List Nat} {a : Word}

/-- The acting lanes are 32 at most. -/
theorem acting_length (h : sp0.select = some (sp, I, a)) : (acting i sp I).length ≤ 32 := by
  have hI : I.Sublist laneNums := by
    simp only [Span.select] at h
    split at h
    · cases h
    · simp only [Option.some.injEq, Prod.mk.injEq] at h
      obtain ⟨-, rfl, -⟩ := h
      refine List.filter_sublist.trans (List.filter_sublist.trans ?_)
      split <;> exact List.filter_sublist
  exact (List.filter_sublist.trans hI).length_le

/-- A deck word that nothing keeps from its effect has it. -/
theorem deckIssue_clear (h : Clear i s sp0 sp I a) (hown : deckCause size addr s (At i sp I a) = none)
    (hready : sp.deckReady (if atomd then min 32 (deckRows addr (At i sp I a)).length else 0) = true)
    (harr : sp.arrivesAt ((acting i sp I).map (addr (At i sp I a))) = false) :
    let x := At i sp I a
    let stores := !x.G.isEmpty && (op 0).stores
    let reqs := fileDeck (x.deckProto stores) (x.deckParts size sgn (addr x) op (data x)) []
    let q := x.decked (x.deckResults size res) stores (if atomd then deckEntries sp sp.seq reqs else [])
    deckIssue i size sgn res addr op data atomd s = .next (({ s.putSpan q with deckq := s.deckq ++ reqs } : State).issued i x) := by
  intro x stores reqs q
  unfold deckIssue
  refine (issue_clear h (by intro hp; cases hp) (by intro hw; cases hw) rfl hown ?_).trans ?_
  · exact Bool.and_eq_true_iff.2 ⟨hready, by rw [Bool.not_eq_true']; exact harr⟩
  · have hlen := imap_length (fun k l => (l, sp.seq + 1 + k)) 0 (acting i sp I)
    unfold acting at hlen
    cases res <;> simp only [q, reqs, x, stores, Iss.decked, deckResults_eq, deckParts_eq, fileDeck, List.foldl_map, acting, hlen] <;> rfl

/-- What a word that nothing keeps from its effect takes, when its own rule names a cause. -/
theorem issueCause_clear {r : Rules} (h : Clear i s sp0 sp I a) (hp : ∀ x, r.priv s x = false) (hw : r.whole = false) (hu : ∀ x, r.unsync s x = false) :
    issueCause i r s (At i sp I a) = r.own s (At i sp I a) := by
  refine issueCause_own (fun hpriv => ?_) (fun ⟨k, hk, hle⟩ => ?_) (fun hwhole => ?_) (fun ⟨q, hq, hhits⟩ => ?_) (hu _)
  · rw [hp] at hpriv
    cases hpriv.1
  · exact absurd (h.budget k hk) (Nat.not_lt.2 hle)
  · rw [hw] at hwhole
    cases hwhole.1
  · rw [h.answered q hq] at hhits
    cases hhits

/-- R186: a deck range is good when it lies in the block's allocation, aligned. -/
theorem deckCause_eq (x : Iss) : deckCause size addr s x =
    if ∀ l ∈ x.G, 0 ≤ addr x l ∧ addr x l + size ≤ s.deckBytes x.sp ∧ addr x l % size = 0 then none else some .deckrange := by
  have hany : (x.G.any fun l => !deckOk (s.deckBytes x.sp) (addr x l) size) = true ↔
      ¬ ∀ l ∈ x.G, 0 ≤ addr x l ∧ addr x l + size ≤ s.deckBytes x.sp ∧ addr x l % size = 0 := by
    rw [List.any_eq_true, Classical.not_forall]
    refine exists_congr fun l => ?_
    rw [Classical.not_imp, Bool.not_eq_true', ← Bool.not_eq_true, deckOk, Bool.and_eq_true, Bool.and_eq_true, decide_eq_true_eq, decide_eq_true_eq,
      decide_eq_true_eq, and_assoc]
  unfold deckCause
  by_cases hgood : ∀ l ∈ x.G, 0 ≤ addr x l ∧ addr x l + size ≤ s.deckBytes x.sp ∧ addr x l % size = 0
  · rw [if_pos hgood, if_neg fun h => hany.1 h hgood]
  · rw [if_neg hgood, if_pos (hany.2 hgood)]

/-- R186: a deck word of which an acting lane's address is not good takes DECKRANGE, and has no effect. -/
theorem deckIssue_range (h : Clear i s sp0 sp I a) (hown : deckCause size addr s (At i sp I a) = some .deckrange) :
    deckIssue i size sgn res addr op data atomd s = .next { ((s.putSpan sp).takeTrap sp.id ⟨.deckrange, true, a, I⟩) with picked := none } := by
  unfold deckIssue
  exact issue_cause h.toIssuing h.unlocked ((issueCause_clear h (fun _ => rfl) rfl fun _ => rfl).trans hown)

theorem mem_imap_iff {α β : Type} {f : Nat → α → β} {L : List α} {b : β} : b ∈ imap f 0 L ↔ ∃ n a, L[n]? = some a ∧ b = f n a := by
  simp only [List.mem_iff_getElem?, getElem?_imap, Option.map_eq_some_iff, Nat.zero_add]
  exact ⟨fun ⟨n, a, ha, hb⟩ => ⟨n, a, ha, hb.symm⟩, fun ⟨n, a, ha, hb⟩ => ⟨n, a, ha, hb.symm⟩⟩

/-- The parts of a deck word. -/
theorem mem_deckParts {x : Iss} {addr : Nat → Int} {data : Nat → BitVec 128} {p : DeckPart} : p ∈ x.deckParts size sgn addr op data ↔
    ∃ l ∈ x.G, ∃ k, x.G[k]? = some l ∧ p = ⟨l, (addr l).toNat, size, sgn, data l, op (x.sp.seq + 1 + k)⟩ := by
  rw [Iss.deckParts, mem_imap_iff]
  constructor
  · rintro ⟨k, l, hl, rfl⟩
    exact ⟨l, List.mem_of_getElem? hl, k, hl, rfl⟩
  · rintro ⟨l, -, k, hl, rfl⟩
    exact ⟨k, l, hl, rfl⟩

/-- The rows of a deck word's requests are those that it names. -/
theorem mem_deckRows {x : Iss} {proto : DeckReq} {n : Nat}
    (hn : n ∈ (fileDeck proto (x.deckParts size sgn (addr x) op (data x)) []).map (·.row)) : n ∈ x.G.map fun l => (addr x l).toNat / 64 := by
  obtain h | h := (mem_rows_fileDeck _ _ n).1 hn
  · rw [Iss.deckParts, map_imap] at h
    exact imap_const (fun l => (addr x l).toNat / 64) 0 x.G ▸ h
  · exact absurd h List.not_mem_nil

theorem deckReqs_length (h : sp0.select = some (sp, I, a)) {proto : DeckReq}
    (hready : sp.deckReady (min 32 (deckRows addr (At i sp I a)).length) = true) :
    (fileDeck proto ((At i sp I a).deckParts size sgn (addr (At i sp I a)) op (data (At i sp I a))) []).length ≤ sp.landFree := by
  have hfiled := fileDeck_filed ((At i sp I a).deckParts size sgn (addr (At i sp I a)) op (data (At i sp I a))) (deckFiled_nil (proto := proto))
  have hlanes := filed_length hfiled fun n hn => mem_deckRows hn
  have hrows := filed_length hfiled (L := deckRows addr (At i sp I a)) fun n hn => List.mem_eraseDups.2 (mem_deckRows hn)
  have hacting := acting_length (i := i) h
  rw [List.length_map] at hlanes
  obtain ⟨-, hfree⟩ := Bool.and_eq_true_iff.1 hready
  exact (le_min (hlanes.trans hacting) hrows).trans (of_decide_eq_true hfree)

/-- R63, R111, R186, R187, R190, R246: the effect of a deck word. -/
theorem deckIssue_good (h : Clear i s sp0 sp I a) (hown : deckCause size addr s (At i sp I a) = none)
    (hready : sp.deckReady (if atomd then min 32 (deckRows addr (At i sp I a)).length else 0) = true)
    (harr : sp.arrivesAt ((acting i sp I).map (addr (At i sp I a))) = false) :
    ∃ t sp', deckIssue i size sgn res addr op data atomd s = .next t ∧ t.span? sp.id = some sp' ∧ Goes sp sp' I a ∧ KeepsRegs sp sp' ∧
      { t with spans := s.spans, picked := s.picked, deckq := s.deckq, flows := s.flows } = s ∧
      (∃ new, t.deckq = s.deckq ++ new ∧
        (∀ r ∈ new, r.pier = sp.pier ∧ r.uid = sp.uid ∧ r.blk = sp.block ∧ r.seq = sp.seq ∧ r.bank = r.row % 48 ∧
          ∀ p ∈ r.parts, p.addr / 64 = r.row) ∧ (new.map (·.row)).Pairwise (· < ·) ∧
        (∀ p, (∃ r ∈ new, p ∈ r.parts) ↔ ∃ l ∈ acting i sp I, ∃ k, (acting i sp I)[k]? = some l ∧
          p = ⟨l, (addr (At i sp I a) l).toNat, size, sgn, data (At i sp I a) l, op (sp.seq + 1 + k)⟩) ∧
        ∃ es, sp'.landing = sp.landing ++ es ∧ (atomd = false → es = []) ∧ (atomd = true → es.map (·.vline) = new.map (·.row))) ∧
      sp'.results = sp.results ++ (At i sp I a).deckResults size res := by
  have hexec := deckIssue_clear (res := res) (op := op) (data := data) (size := size) (sgn := sgn) h hown hready harr
  dsimp only at hexec
  generalize hstores : (!(acting i sp I).isEmpty && (op 0).stores) = stores at hexec
  generalize hreqs : fileDeck ((At i sp I a).deckProto stores) ((At i sp I a).deckParts size sgn (addr (At i sp I a)) op (data (At i sp I a))) [] = reqs at hexec
  generalize hes : (if atomd then deckEntries sp sp.seq reqs else []) = es at hexec
  generalize hq : (At i sp I a).decked ((At i sp I a).deckResults size res) stores es = q at hexec
  have hgoes := moved_goes h.toIssuing (acting i sp I)
  have hid : q.id = sp.id := by rw [← hq]; rfl
  have hput : ({ s.putSpan q with deckq := s.deckq ++ reqs } : State).span? sp.id = some q := by
    have hself := span?_putSpan_self s q sp0 (hid.symm ▸ issuing_span? h.toIssuing)
    rw [hid] at hself
    exact hself
  have hrest := issued_rest ({ s.putSpan q with deckq := s.deckq ++ reqs } : State) i (At i sp I a)
  have hthere := issued_span?_self _ i (At i sp I a) q hput
  have hfiled := fileDeck_filed ((At i sp I a).deckParts size sgn (addr (At i sp I a)) op (data (At i sp I a)))
    (deckFiled_nil (proto := (At i sp I a).deckProto stores))
  rw [hreqs] at hfiled
  refine ⟨_, _, hexec, hthere, ?goes, ?regs, ?rest, ⟨reqs, ?queue, fun r hr => ?req, hfiled.rows, fun p => ?parts, es, ?landing, ?none, ?entries⟩, ?results⟩
  case goes => subst hq; exact ⟨hgoes.count, hgoes.lane⟩
  case regs => subst hq; exact ⟨rfl, rfl⟩
  case rest =>
    have hf := congrArg (fun u : State => { u with spans := s.spans, picked := s.picked, deckq := s.deckq, flows := s.flows }) hrest
    exact hf
  case queue =>
    have hf := congrArg State.deckq hrest
    exact hf
  case req =>
    have hform := hfiled.form r hr
    have hpier := congrArg DeckReq.pier hform
    have huid := congrArg DeckReq.uid hform
    have hblk := congrArg DeckReq.blk hform
    have hseq := congrArg DeckReq.seq hform
    exact ⟨hpier, huid, hblk, hseq, hfiled.bank r hr, hfiled.parts r hr⟩
  case parts =>
    rw [← hreqs, mem_parts_fileDeck, mem_deckParts]
    simp only [List.not_mem_nil, false_and, exists_false, or_false]
  case landing => subst hq; rfl
  case none =>
    intro hno
    rw [← hes, hno]
    rfl
  case entries =>
    intro hatomd
    rw [hatomd, if_pos rfl] at hready hes
    rw [← hes]
    refine deckEntries_vlines sp.seq ?_
    rw [← hreqs]
    exact deckReqs_length h.select hready
  case results => subst hq; rfl

end

/-! The three deck words. -/

/-- What a deck word is: its bytes and its sign, whether it has a result, the addresses, what a bank does with it, and its data. -/
def IsDeckWord (i : Instr) (x : MEM) (sp : Span) (I : List Nat) (size : Nat) (sgn res : Bool) (addr : Nat → Int)
    (op : Nat → DeckOp) (data : Nat → BitVec 128) : Prop :=
  (i = .ldd x ∧ size = bytesOf x.size ∧ sgn = signed x.size ∧ res = true ∧ addr = (fun l => sp.deckAddr x true true l) ∧
      op = DeckOp.load ∧ data = fun _ => 0) ∨
    (i = .std x ∧ size = bytesOf x.size ∧ sgn = false ∧ res = false ∧ addr = (fun l => sp.deckAddr x true true l) ∧
      op = (fun _ => .store) ∧ data = fun l => sp.vn (wordsOf x.size) x.d.toNat l) ∨
    (i = .atomd x ∧ size = bytesOf x.size ∧ sgn = false ∧ res = true ∧ addr = (fun l => sp.deckAddr x false false l) ∧
      op = DeckOp.atomic x.aop x.aty ∧ (data = fun l => (sp.atomArg x 0 l).setWidth 128) ∧
      sp.deckReady (min 32 ((acting i sp I).map fun l => (addr l).toNat / 64).eraseDups.length) = true)

/-- The register of the pending results. -/
def deckRes (x : MEM) (res : Bool) : Option Nat := if res then some x.d.toNat else none

section
variable {i : Instr} {x : MEM} {s : State} {sp0 sp : Span} {I : List Nat} {a : Word} {size : Nat} {sgn res : Bool} {addr : Nat → Int} {op : Nat → DeckOp}
  {data : Nat → BitVec 128}

theorem exec_deckWord (h : IsDeckWord i x sp I size sgn res addr op data) (s : State) (a : Word) (hready : sp.deckReady 0 = true) :
    ∃ (addr' : Iss → Nat → Int) (data' : Iss → Nat → BitVec 128) (atomd : Bool),
      exec i s = deckIssue i size sgn (deckRes x res) addr' op data' atomd s ∧
      addr' (At i sp I a) = addr ∧ data' (At i sp I a) = data ∧ (atomd = true ↔ i = .atomd x) ∧
      sp.deckReady (if atomd then min 32 (deckRows addr' (At i sp I a)).length else 0) = true := by
  obtain ⟨rfl, rfl, rfl, rfl, rfl, rfl, rfl⟩ | ⟨rfl, rfl, rfl, rfl, rfl, rfl, rfl⟩ | ⟨rfl, rfl, rfl, rfl, rfl, rfl, rfl, hrows⟩ := h
  · refine ⟨fun i l => i.sp.deckAddr x true true l, fun _ _ => 0, false, ?_, rfl, rfl, by simp, hready⟩
    rw [← sizeBytes_eq, ← sizeSigned_eq]
    rfl
  · refine ⟨fun i l => i.sp.deckAddr x true true l, fun i l => i.sp.vn (wordsOf x.size) x.d.toNat l, false, ?_, rfl, rfl, by simp, hready⟩
    rw [← sizeBytes_eq, ← sizeRegs_eq]
    rfl
  · refine ⟨fun i l => i.sp.deckAddr x false false l, fun i l => (i.sp.atomArg x 0 l).setWidth 128, true, ?_, rfl, rfl, by simp, hrows⟩
    rw [← sizeBytes_eq]
    rfl

end

end Sys2Proof.Machine
end

section
/-! SUPPORT. The deck's banks, and the obligation about the deck words (R63, R111, R155, R186, R187, R190, R192, R246). -/

namespace Sys2Proof.Machine

/-! What an access to the deck tells its span (R155). -/

/-- Of a span nothing has changed but what it has been told of releases. -/
def Span.Hears (sp sp' : Span) : Prop := { sp' with heard := sp.heard, view := sp.view, epoch := sp.epoch } = sp

theorem Span.Hears.trans {a b c : Span} (h : a.Hears b) (g : b.Hears c) : a.Hears c := by
  unfold Span.Hears at *
  rw [← g] at h
  exact h

theorem Span.Hears.fields {a b : Span} (h : a.Hears b) : b.id = a.id ∧ b.uid = a.uid ∧ b.results = a.results := by
  have hid := congrArg Span.id h
  have huid := congrArg Span.uid h
  have hresults := congrArg Span.results h
  exact ⟨hid, huid, hresults⟩

/-- What a span has been told, with results that have received their values. -/
theorem Span.Hears.told {a b : Span} (h : a.Hears b) (rs : List Result) : Told a { b with results := rs } := by
  have heard : { b with heard := a.heard, view := a.view, epoch := a.epoch } = a := h
  calc { b with results := a.results, heard := a.heard, view := a.view, epoch := a.epoch }
      = { ({ b with heard := a.heard, view := a.view, epoch := a.epoch } : Span) with results := a.results } := rfl
    _ = a := by rw [heard]

/-- Between two states the span `id` has been told of releases, counters have been passed, and the releases and reads on record have changed. -/
structure State.Tells (id : Nat) (s t : State) : Prop where
  rest   : { t with spans := s.spans, tsc := s.tsc, looks := s.looks, overtakes := s.overtakes, msgs := s.msgs, l1 := s.l1 } = s
  others : ∀ j, j ≠ id → t.span? j = s.span? j
  hears  : ∀ sp, s.span? id = some sp → ∃ sp', t.span? id = some sp' ∧ sp.Hears sp'

namespace State.Tells

variable {id : Nat} {s t u : State}

theorem of_spans (hrest : { t with spans := s.spans, tsc := s.tsc, looks := s.looks, overtakes := s.overtakes, msgs := s.msgs, l1 := s.l1 } = s)
    (h : t.spans = s.spans) : State.Tells id s t :=
  ⟨hrest, fun j _ => by rw [State.span?, h]; rfl, fun sp hsp => ⟨sp, by rw [State.span?, h]; exact hsp, rfl⟩⟩

theorem refl (s : State) : State.Tells id s s := of_spans rfl rfl

theorem trans (h : State.Tells id s t) (g : State.Tells id t u) : State.Tells id s u where
  rest := by
    calc { u with spans := s.spans, tsc := s.tsc, looks := s.looks, overtakes := s.overtakes, msgs := s.msgs, l1 := s.l1 }
        = { ({ u with spans := t.spans, tsc := t.tsc, looks := t.looks, overtakes := t.overtakes, msgs := t.msgs, l1 := t.l1 } : State) with
            spans := s.spans, tsc := s.tsc, looks := s.looks, overtakes := s.overtakes, msgs := s.msgs, l1 := s.l1 } := rfl
      _ = s := by rw [g.rest]; exact h.rest
  others j hj := (g.others j hj).trans (h.others j hj)
  hears sp hsp := by
    obtain ⟨sp1, h1, hears1⟩ := h.hears sp hsp
    obtain ⟨sp2, h2, hears2⟩ := g.hears sp1 h1
    exact ⟨sp2, h2, hears1.trans hears2⟩

theorem onSpan {f : Span → Span} (hf : ∀ sp : Span, sp.Hears (f sp)) (s : State) : State.Tells id s (s.onSpan id f) where
  rest := rfl
  others j hj := by rw [span?_onSpan _ _ _ _ fun sp => (hf sp).fields.1, if_neg hj]
  hears sp hsp := ⟨f sp, span?_onSpan_self f (fun sp => (hf sp).fields.1) hsp, hf sp⟩

theorem foldl {α : Type} {f : State → α → State} (hf : ∀ t a, State.Tells id t (f t a)) (l : List α) (s : State) : State.Tells id s (l.foldl f s) := by
  induction l generalizing s with
  | nil => exact refl s
  | cons a r ih => exact (hf s a).trans (ih _)

/-- Neither the blocks, nor the deck's queues, nor memory. -/
theorem fields (h : State.Tells id s t) : t.blocks = s.blocks ∧ t.deckq = s.deckq ∧ t.mem = s.mem := by
  have hblocks := congrArg State.blocks h.rest
  have hqueue := congrArg State.deckq h.rest
  have hmem := congrArg State.mem h.rest
  exact ⟨hblocks, hqueue, hmem⟩

end State.Tells

section
variable (s : State) (sp : Span) (id seq : Nat) (deck : Option (Nat × Nat)) (at_ len : Nat)

theorem hear_tells (ms : List Msg) : State.Tells id s (s.hear id ms) := by
  refine .onSpan (fun _ => ?_) s
  rfl

theorem meet1_tells (sc : Scope) (since : Nat) (m : Msg) : State.Tells id s (State.meet1 id sc since s m) := by
  unfold State.meet1
  split
  · exact .refl s
  · rename_i sp _
    split
    · exact .refl s
    · have hlearn : State.Tells id s (s.onSpan id (·.learn since .all m.view)) := by
        refine .onSpan (fun _ => ?_) s
        rfl
      dsimp only
      split
      exacts [hlearn, hlearn.trans (.of_spans rfl rfl)]

theorem heardLate_tells (ms : List Msg) : State.Tells id s (s.heardLate id seq ms) := by
  unfold State.heardLate
  split
  · exact .refl s
  · split
    exacts [.foldl (fun t m => meet1_tells t id _ _ m) ms s, .refl s]

theorem looked_tells (stale : View) : State.Tells id s (s.looked sp seq deck at_ len stale) := by
  unfold State.looked
  split
  exacts [.of_spans rfl rfl, .refl s]

theorem advance_tells (sc : Scope) : State.Tells id s (s.advance id sc) := by
  unfold State.advance
  split
  · refine .onSpan (fun _ => ?_) s
    rfl
  · exact .refl s

theorem follows_tells (lane : Option Nat) (since : Nat) (reach : Reach) : State.Tells id s (s.follows id seq lane since reach) := by
  unfold State.follows
  split
  · exact .refl s
  · refine .onSpan (fun _ => ?_) s
    rfl

theorem overtake_tells : State.Tells id s (s.overtake sp seq deck at_ len) := .of_spans rfl rfl

theorem wrote_tells (rmw : Bool) : State.Tells id s (s.wrote deck at_ len rmw) := .of_spans rfl rfl

theorem announce_tells (rels : List (Scope × View)) (from_ : Party) : State.Tells id s (s.announce deck at_ len rels from_) := .of_spans rfl rfl

/-- Whatever an access tells its span and leaves for others, no other span changes, and of its own only what it has been told. -/
theorem deckTold_tells (r : DeckReq) (p : DeckPart) : State.Tells sp.id s (s.deckTold sp r p) := by
  unfold State.deckTold
  extract_lets reads ms t s1 rels
  have hread : State.Tells sp.id s s1 := by
    unfold s1
    split
    · have hheard : State.Tells sp.id s t := ((hear_tells s sp.id ms).trans (heardLate_tells _ sp.id r.seq ms)).trans (looked_tells ..)
      split
      exacts [hheard.trans (advance_tells t sp.id _), hheard]
    · exact .refl s
  split
  · have hwrite := (follows_tells s1 sp.id r.seq (some p.lane) r.seq .all).trans ((overtake_tells _ sp sp.id r.seq (some r.blk) p.addr p.len).trans
      ((wrote_tells _ sp.id (some r.blk) p.addr p.len reads).trans (announce_tells _ sp.id (some r.blk) p.addr p.len rels sp.party)))
    exact hread.trans hwrite
  · exact hread

end

/-! The bank's access (R246). -/

theorem exec_deckBankAccess (pier bank : Nat) (s : State) : exec (.deckBankAccess pier bank) s = execDeckBankAccess pier bank s := rfl

/-- R155, R192: the only access of a bank's queue waits there while it is held. -/
theorem nextDeck_held {s : State} {r : DeckReq} (hq : (s.deckq.filter fun q => decide (q.pier = r.pier) && decide (q.bank = r.bank)) = [r])
    (hheld : s.deckHeld r = true) : s.nextDeck r.pier r.bank = none := by
  unfold State.nextDeck
  dsimp only
  rw [hq]
  simp [hheld]

/-- The earliest access of a bank's queue is served next, when no access of its span is held. -/
theorem nextDeck_first {s : State} {r : DeckReq} (hq : s.deckq.find? (fun q => decide (q.pier = r.pier) && decide (q.bank = r.bank)) = some r)
    (hfree : ∀ b ∈ s.deckq, b.uid = r.uid → s.deckHeld b = false) : s.nextDeck r.pier r.bank = some r := by
  have hhead : (s.deckq.filter fun q => decide (q.pier = r.pier) && decide (q.bank = r.bank)).head? = some r := by rw [List.head?_filter, hq]
  obtain ⟨rest, hrest⟩ := List.head?_eq_some_iff.1 hhead
  have hnone : (s.deckq.filter fun q => decide (q.pier = r.pier) && decide (q.bank = r.bank)).any
      (fun b => decide (b.uid = r.uid) && decide (b.seq ≤ r.seq) && s.deckHeld b) = false := by
    refine List.any_eq_false.2 fun b hb hheld => ?_
    simp only [Bool.and_eq_true, decide_eq_true_eq] at hheld
    obtain ⟨⟨huid, -⟩, hheld⟩ := hheld
    rw [hfree b (List.mem_filter.1 hb).1 huid] at hheld
    cases hheld
  unfold State.nextDeck
  dsimp only
  rw [hrest] at hnone ⊢
  exact List.find?_cons_of_pos (by rw [hnone]; rfl)

/-- The first element that meets a condition, when all that meet it are replaced by one that does. -/
theorem find?_map_replace {α : Type} {f : α → Bool} {x y : α} {l : List α} (h : l.find? f = some x) (hy : f y = true) :
    (l.map fun a => if f a then y else a).find? f = some y := by
  induction l with
  | nil => cases h
  | cons a r ih =>
    rw [List.map_cons]
    by_cases ha : f a = true
    · rw [if_pos ha, List.find?_cons_of_pos hy]
    · rw [if_neg ha, List.find?_cons_of_neg ha]
      rw [List.find?_cons_of_neg ha] at h
      exact ih h

theorem block?_onBlock {s : State} {b : Nat × Nat} {k k' : Block} (hk : s.block? b = some k) (hlaunch : k'.launch = k.launch) (hidx : k'.idx = k.idx) :
    (s.onBlock b fun _ => k').block? b = some k' := by
  have hthere := List.find?_some hk
  refine find?_map_replace hk ?_
  rw [hlaunch, hidx]
  exact hthere

/-- What a result receives. -/
def Result.receive (v : Option (Nat × BitVec 128)) (q : Result) : Result := match v with
  | some (id, x) => if q.id = id then { q with need := 0, val := x } else q
  | none => q

/-- The span of a deck access has its answer. -/
def State.answered (s : State) (uid : Nat) (v : Option (Nat × BitVec 128)) : State := match v with
  | some (id, x) => { s with spans := s.spans.map fun sp => if sp.uid = uid then sp.onResult id fun q => { q with need := 0, val := x } else sp }
  | none => s

theorem answered_fields (s : State) (uid : Nat) (v : Option (Nat × BitVec 128)) :
    (s.answered uid v).blocks = s.blocks ∧ (s.answered uid v).deckq = s.deckq ∧ (s.answered uid v).mem = s.mem := by
  cases v <;> exact ⟨rfl, rfl, rfl⟩

theorem answered_span? {s : State} {sp : Span} {id uid : Nat} (h : s.span? id = some sp) (huid : sp.uid = uid) (v : Option (Nat × BitVec 128)) :
    (s.answered uid v).span? id = some { sp with results := sp.results.map (·.receive v) } := by
  cases v with
  | none => exact h.trans (congrArg some (congrArg (fun rs => ({ sp with results := rs } : Span)) (List.map_id sp.results).symm))
  | some v =>
    have hmap := find?_map_key s.spans Span.id (fun sp => if sp.uid = uid then sp.onResult v.1 fun q => { q with need := 0, val := v.2 } else sp)
      (fun sp => by split <;> rfl) id
    refine hmap.trans ((congrArg (Option.map _) h).trans ?_)
    rw [Option.map_some, if_pos huid]
    rfl

/-- What the bank's access of one lane does to the device, beside its block. -/
structure State.Served (s u : State) (r : DeckReq) (k' : Block) (sp sp' : Span) (v : Option (Nat × BitVec 128)) : Prop where
  block   : u.block? r.blk = some k'
  queue   : u.deckq = s.deckq.erase r
  mem     : u.mem = s.mem
  there   : u.span? sp.id = some sp'
  told    : Told sp sp'
  results : sp'.results = sp.results.map (·.receive v)
  others  : v = none → ∀ j, j ≠ sp.id → u.span? j = s.span? j

section
variable {s : State} {r : DeckReq} {p : DeckPart} {k : Block} {sp : Span}

theorem deckServe_one (hparts : r.parts = [p]) (hk : s.block? r.blk = some k) (hspan : s.spanOf? r.uid = some sp) :
    s.deckServe r = (((({ s with deckq := s.deckq.erase r } : State).onBlock r.blk fun _ => (k.deckPart p).1).deckTold sp r p).answered r.uid
      (k.deckPart p).2).settle r.span := by
  have hk0 : ({ s with deckq := s.deckq.erase r } : State).block? r.blk = some k := hk
  have hspan0 : (({ s with deckq := s.deckq.erase r } : State).onBlock r.blk fun _ => (k.deckPart p).1).spanOf? r.uid = some sp := hspan
  unfold State.deckServe
  simp only [hparts, List.foldl_cons, List.foldl_nil, hk0, hspan0]
  cases (k.deckPart p).2 <;> rfl

theorem deckPart_names (k : Block) (p : DeckPart) : { (k.deckPart p).1 with deck := k.deck } = k := by
  unfold Block.deckPart
  dsimp only
  split <;> rfl

theorem deckServe_served (hparts : r.parts = [p]) (hk : s.block? r.blk = some k) (huid : s.spanOf? r.uid = some sp) (hthere : s.span? sp.id = some sp) :
    ∃ u sp', s.deckServe r = u.settle r.span ∧ s.Served u r (k.deckPart p).1 sp sp' (k.deckPart p).2 := by
  have hserve := deckServe_one hparts hk huid
  generalize ht : (({ s with deckq := s.deckq.erase r } : State).onBlock r.blk fun _ => (k.deckPart p).1) = t at hserve
  have hblock : t.block? r.blk = some (k.deckPart p).1 := by
    have hlaunch := congrArg Block.launch (deckPart_names k p)
    have hidx := congrArg Block.idx (deckPart_names k p)
    rw [← ht]
    exact block?_onBlock (s := { s with deckq := s.deckq.erase r }) hk hlaunch hidx
  have hspans (j : Nat) : t.span? j = s.span? j := by rw [← ht]; rfl
  have hqueue : t.deckq = s.deckq.erase r := by rw [← ht]; rfl
  have hmem : t.mem = s.mem := by rw [← ht]; rfl
  have htells := deckTold_tells t sp r p
  obtain ⟨sp1, h1, hears⟩ := htells.hears sp ((hspans _).trans hthere)
  obtain ⟨-, huid1, hresults1⟩ := hears.fields
  have huid0 : sp.uid = r.uid := by
    have hfound := List.find?_some (show s.spans.find? (fun q => decide (q.uid = r.uid)) = some sp from huid)
    exact of_decide_eq_true hfound
  obtain ⟨hblocks1, hqueue1, hmem1⟩ := htells.fields
  obtain ⟨hblocks2, hqueue2, hmem2⟩ := answered_fields (t.deckTold sp r p) r.uid (k.deckPart p).2
  generalize (k.deckPart p).2 = v at *
  have hnow := answered_span? h1 (huid1.trans huid0) v
  refine ⟨_, _, hserve, ?_, hqueue2.trans (hqueue1.trans hqueue), hmem2.trans (hmem1.trans hmem), hnow, hears.told _, ?_, fun hnone j hj => ?_⟩
  · rw [State.block?] at hblock ⊢
    rw [hblocks2, hblocks1]
    exact hblock
  · exact congrArg (List.map _) hresults1
  · rw [hnone]
    exact (htells.others j hj).trans (hspans j)

end

/-! The bytes (R6, R246). -/

section
variable (k : Block) (off : Nat) (bs : List Byte)

theorem sget_deckPut (b : Nat) : sget 0 (k.deckPut off bs).deck b = if off ≤ b ∧ b < off + bs.length then bs.getD (b - off) 0 else sget 0 k.deck b :=
  sget_sputs k.deck off b bs

theorem deckNat_deckPut (n x : Nat) : (k.deckPut off (toBytes n x)).deckNat off n = x % 256 ^ n := by
  have hread := sgets_sputs (0 : Byte) k.deck off (toBytes n x)
  rw [toBytes_length] at hread
  exact (congrArg leNat hread).trans (leNat_toBytes n x)

end

theorem getD_toBytes_word {n b : Nat} (x : BitVec 128) (h : b < n) : (toBytes n x.toNat).getD b 0 = x.extractLsb' (8 * b) 8 := by
  rw [List.getD_eq_getElem?_getD, getElem?_toBytes x.toNat h, Option.getD_some]
  refine BitVec.eq_of_toNat_eq ?_
  rw [BitVec.toNat_ofNat, BitVec.extractLsb'_toNat, Nat.shiftRight_eq_div_pow, pow_mul, show 2 ^ 8 = 256 from rfl]

section
variable {k : Block} {p : DeckPart}

/-- A bank's access changes the bytes of its part alone. -/
theorem deckPart_outside (k : Block) (p : DeckPart) {b : Nat} (hb : ¬ (p.addr ≤ b ∧ b < p.addr + p.len)) :
    sget 0 (k.deckPart p).1.deck b = sget 0 k.deck b := by
  unfold Block.deckPart
  dsimp only
  split
  · rfl
  · rw [sget_deckPut, if_neg (by rwa [toBytes_length])]
  · rw [sget_deckPut, if_neg (by rwa [toBytes_length])]

theorem deckPart_store (h : p.op = .store) : k.deckPart p = (k.deckPut p.addr (toBytes p.len p.data.toNat), none) := by
  simp only [Block.deckPart, h]

/-- R187: the bytes that a store leaves. -/
theorem deckPart_stored (h : p.op = .store) {b : Nat} (hb : b < p.len) : sget 0 (k.deckPart p).1.deck (p.addr + b) = p.data.extractLsb' (8 * b) 8 := by
  rw [deckPart_store h, sget_deckPut, toBytes_length, if_pos (by omega), Nat.add_sub_cancel_left]
  exact getD_toBytes_word p.data hb

/-- The value that a load of a part answers (R60, R187). -/
def Block.deckLoaded (k : Block) (p : DeckPart) : BitVec 128 :=
  if p.sgn = true ∧ p.len ≤ 4 then (BitVec.ofNat (8 * p.len) (k.deckNat p.addr p.len)).signExtend 128 else BitVec.ofNat 128 (k.deckNat p.addr p.len)

theorem deckPart_load {id : Nat} (h : p.op = .load id) (hlen : p.len ∈ [1, 2, 4, 8, 16]) : k.deckPart p = (k, some (id, k.deckLoaded p)) := by
  have hfill : Access.fill { op := .load, lane := none, ea := 0, size := p.len, sgn := p.sgn } (BitVec.ofNat 128 (k.deckNat p.addr p.len)) = k.deckLoaded p := by
    unfold Access.fill Block.deckLoaded
    generalize k.deckNat p.addr p.len = n
    simp only [List.mem_cons, List.not_mem_nil, or_false] at hlen
    cases p.sgn with
    | false => simp
    | true =>
      obtain hl | hl | hl | hl | hl := hlen <;> rw [hl] <;> simp [BitVec.setWidth_ofNat_of_le]
  simp only [Block.deckPart, h, hfill]

/-- The word that an atomic leaves (R188, R190). -/
def Block.deckAtomic (k : Block) (p : DeckPart) (aop aty : Nat) : BitVec 64 :=
  rmw p.len aop aty (BitVec.ofNat 64 (k.deckNat p.addr p.len)) (p.data.setWidth 64)

theorem deckPart_atomic {aop aty id : Nat} (h : p.op = .atomic aop aty id) :
    k.deckPart p = (k.deckPut p.addr (toBytes p.len (k.deckAtomic p aop aty).toNat), some (id, BitVec.ofNat 128 (k.deckNat p.addr p.len))) := by
  simp only [Block.deckPart, h, Block.deckAtomic, BitVec.setWidth_ofNat_of_le (by decide : 64 ≤ 128)]

/-- R188, R190: the bytes that an atomic leaves. -/
theorem deckPart_rmw {aop aty id : Nat} (h : p.op = .atomic aop aty id) :
    (k.deckPart p).1.deckNat p.addr p.len = ((k.deckAtomic p aop aty).setWidth (8 * p.len)).toNat := by
  rw [deckPart_atomic h, deckNat_deckPut, BitVec.toNat_setWidth, pow_mul, show 2 ^ 8 = 256 from rfl]

end

/-- Settles O18: the issue is `deckIssue_good` and `deckIssue_range`; a bank's access is `Block.deckPart` of its one part. -/
theorem deckWords : Obligations.deck_words := by
  refine ⟨fun s sp0 sp I a i x size sgn res addr op data hword h hready harr => ?issue, fun s r hq ⟨p, hp, hstores⟩ sp hspan ⟨e, he, hop, hseq⟩ => ?waits,
    fun s r p k sp hq hfree hfence hparts hk hlen hspan hthere => ?serve⟩
  case issue =>
    obtain ⟨addr', data', atomd, hexec, haddr, hdata, hatomd, hneed⟩ := exec_deckWord hword s a hready
    have hcause := deckCause_eq (size := size) (addr := addr') (s := s) (At i sp I a)
    subst haddr hdata
    intro good
    rw [hexec]
    refine ⟨fun hgood => ?_, fun hbad => deckIssue_range h (hcause.trans (if_neg hbad))⟩
    obtain ⟨t, sp', ht, hnow, hgoes, hregs, hrest, ⟨new, hqueue, hreqs, hrows, hmem, es, hland, hnone, hlines⟩, hresults⟩ :=
      deckIssue_good (res := deckRes x res) (op := op) (data := data') (sgn := sgn) h (hcause.trans (if_pos hgood)) hneed harr
    refine ⟨t, sp', ht, hnow, hgoes, hregs, hrest, ⟨new, hqueue, hreqs, hrows, hmem, es, hland, fun hi => hnone ?_, fun hi => hlines (hatomd.2 hi)⟩,
      fun hres => ?_, fun hres n l hl => ?_⟩
    · exact Bool.eq_false_iff.2 fun ht => hi (hatomd.1 ht)
    · rw [hresults, hres]
      exact List.append_nil _
    · rw [hresults, hres]
      exact ⟨_, List.mem_append_right _ (mem_imap_iff.2 ⟨n, l, hl, rfl⟩), rfl, rfl, rfl, rfl⟩
  case waits =>
    have hheld : s.deckHeld r = true := by
      have hpart : r.parts.any (·.op.stores) = true := by
        refine List.any_eq_true.2 ⟨p, hp, ?_⟩
        cases hpo : p.op with
        | load id => exact absurd hpo (hstores id)
        | store => rfl
        | atomic aop aty id => rfl
      have hfence : (sp.landing.any fun e => e.isFence && decide (e.seq < r.seq)) = true :=
        List.any_eq_true.2 ⟨e, he, Bool.and_eq_true_iff.2 ⟨decide_eq_true hop, decide_eq_true hseq⟩⟩
      rw [State.deckHeld, hpart, hspan]
      exact hfence
    rw [exec_deckBankAccess, execDeckBankAccess, nextDeck_held hq hheld]
  case serve =>
    intro plain read
    obtain ⟨u, sp', hserve, hserved⟩ := deckServe_served hparts hk hspan hthere
    obtain ⟨hblock, hqueue, hmem, hnow, htold, hresults, hothers⟩ := hserved
    refine ⟨u, _, sp', ?_, hblock, hqueue, hmem, deckPart_names k p, hnow, htold, fun b hb => deckPart_outside k p hb, fun hop => ?_, fun id hop => ?_,
      fun aop aty id hop _ => ?_⟩
    · rw [exec_deckBankAccess, execDeckBankAccess, nextDeck_first hq hfree, ← hserve]
      exact congrArg Host.Outcome.next (if_neg (by rw [hfence]; decide))
    · refine ⟨fun b hb => deckPart_stored hop hb, ?_, hothers ?_⟩
      · rw [hresults, deckPart_store hop]
        exact List.map_id _
      · rw [deckPart_store hop]
    · rw [hresults, deckPart_load hop hlen]
      exact ⟨rfl, rfl⟩
    · refine ⟨deckPart_rmw hop, ?_⟩
      rw [hresults, deckPart_atomic hop]
      rfl

end Sys2Proof.Machine
end

section
/-! SUPPORT. The integer words of two operands, and the obligation about them (R58, R95 to R97). -/

namespace Sys2Proof.Machine

section
variable {w : Nat} (sgn : Bool) (x y : BitVec w)

theorem fMulh_result : IntOp.mulh.Result sgn x y (fMulh w sgn x y) :=
  result_exact sgn x y (fun _ => rfl) fun _ hz => Option.some.inj hz ▸ rfl

theorem exact_eq_zero : exact sgn y = 0 ↔ y = 0 := by
  cases sgn with
  | false => simp [exact, ← BitVec.toNat_inj]
  | true => simp [exact, ← BitVec.toInt_inj]

theorem exact_neg : exact sgn x < 0 ↔ (sgn && x.msb) = true := by
  cases sgn with
  | false => simp [exact]
  | true => simp [exact, BitVec.toInt_neg_iff, BitVec.msb_eq_true_iff_two_mul_ge]

theorem fDiv_result : IntOp.div.Result sgn x y (fDiv w sgn x y) := by
  refine result_exact sgn x y (fun _ => rfl) fun z hz => ?_
  obtain rfl := Option.some.inj hz
  by_cases hy : y = 0
  · rw [fDiv, if_pos hy, if_pos ((exact_eq_zero sgn y).2 hy)]
    by_cases hneg : (sgn && x.msb) = true
    · rw [if_pos hneg, if_neg (not_le.2 ((exact_neg sgn x).2 hneg))]
      exact (BitVec.ofInt_ofNat w 1).symm
    · rw [if_neg hneg, if_pos (not_lt.1 fun hlt => hneg ((exact_neg sgn x).1 hlt))]
      rw [BitVec.ofInt_neg, BitVec.neg_one_eq_allOnes.symm]; rfl
  · rw [fDiv, if_neg hy, if_neg fun h => hy ((exact_eq_zero sgn y).1 h)]

theorem fRem_result : IntOp.rem.Result sgn x y (fRem w sgn x y) := by
  refine result_exact sgn x y (fun _ => rfl) fun z hz => ?_
  obtain rfl := Option.some.inj hz
  by_cases hy : y = 0
  · rw [fRem, if_pos hy, if_pos ((exact_eq_zero sgn y).2 hy), ofInt_exact]
  · rw [fRem, if_neg hy, if_neg fun h => hy ((exact_eq_zero sgn y).1 h), Int.tmod_def]

end

/-- The function of the machine for each word of two operands. -/
def fnOf : IntOp → Fn2
  | .add => fAdd | .sub => fSub | .adds => fAdds | .subs => fSubs | .mul => fMul | .mulh => fMulh | .div => fDiv | .rem => fRem
  | .lesser => fMin | .greater => fMax | .and => fAnd | .or => fOr | .xor => fXor | .andn => fAndn | .shl => fShl | .shr => fShr
  | .sha => fSha | .rot => fRot

theorem fnOf_result (op : IntOp) {w : Nat} (sgn : Bool) (x y : BitVec w) : op.Result sgn x y (fnOf op w sgn x y) := by
  cases op
  case add => exact fAdd_result sgn x y
  case sub => exact fSub_result sgn x y
  case adds => exact fAdds_result sgn x y
  case subs => exact fSubs_result sgn x y
  case mul => exact fMul_result sgn x y
  case mulh => exact fMulh_result sgn x y
  case div => exact fDiv_result sgn x y
  case rem => exact fRem_result sgn x y
  case lesser => exact fMin_result sgn x y
  case greater => exact fMax_result sgn x y
  case and => exact fAnd_result sgn x y
  case or => exact fOr_result sgn x y
  case xor => exact fXor_result sgn x y
  case andn => exact fAndn_result sgn x y
  case shl => exact fShl_result sgn x y
  case shr => exact fShr_result sgn x y
  case sha => exact fSha_result sgn x y
  case rot => exact fRot_result sgn x y

theorem exec_regForm {i : Instr} {op : IntOp} {x : RRR} (hform : regForm i = some (op, x)) (s : State) : exec i s = bin (fnOf op) i x s := by
  cases i <;> cases hform <;> rfl

theorem exec_immForm {i : Instr} {op : IntOp} {x : RIT} (hform : immForm i = some (op, x)) (s : State) : exec i s = binImm (fnOf op) i x s := by
  cases i <;> cases hform <;> rfl

/-- Settles O1: every such word puts the value of its function, which is the result of R95 to R97. -/
theorem integerWords : Obligations.integer_words := by
  refine ⟨fun i op x hform s sp0 sp I a h => ?reg, fun i op x hform s sp0 sp I a h => ?imm⟩
  case reg => exact ⟨_, fun l => fnOf_result op _ _ _, puts_of (exec_regForm hform s) h _ fun l => rfl⟩
  case imm => exact ⟨_, fun l => fnOf_result op _ _ _, puts_of (exec_immForm hform s) h _ fun l => rfl⟩

end Sys2Proof.Machine
end

section
/-! SUPPORT. Bit fields, bit counts and halves bit by bit, and the obligation about the moves and the bit-field words (R95, R98 to R102). -/

namespace Sys2Proof.Machine

/-! Extensions (R58, R76). -/

theorem immAt_eq {n : Nat} (w : Nat) (sgn : Bool) (x : BitVec n) : immAt w sgn x = BitVec.ofInt w (exact sgn x) := by
  cases sgn with
  | false => simp [immAt, exact, BitVec.ofInt_natCast, BitVec.ofNat_toNat]
  | true => rfl

theorem getLsbD_immAt {n : Nat} (w : Nat) (sgn : Bool) (x : BitVec n) {k : Nat} (hk : k < w) :
    (immAt w sgn x).getLsbD k = if k < n then x.getLsbD k else sgn && x.msb := by
  cases sgn with
  | false =>
    rw [immAt, if_neg Bool.false_ne_true, BitVec.getLsbD_setWidth, decide_eq_true hk, Bool.true_and, Bool.false_and]
    split
    · rfl
    · exact BitVec.getLsbD_of_ge x k (by omega)
  | true => rw [immAt, if_pos rfl, BitVec.getLsbD_signExtend, decide_eq_true hk, Bool.true_and, Bool.true_and]

/-- ABS is the magnitude, or for the most negative value the value itself, to which its magnitude wraps (R95). -/
theorem abs_eq {w : Nat} (x : BitVec w) : (if x.msb then -x else x) = BitVec.ofInt w x.toInt.natAbs := by
  have hneg : x.msb = true ↔ x.toInt < 0 := by simpa [exact] using (exact_neg true x).symm
  split
  case isTrue h => rw [Int.ofNat_natAbs_of_nonpos (hneg.1 h).le, BitVec.ofInt_neg, BitVec.ofInt_toInt]
  case isFalse h => rw [Int.natAbs_of_nonneg (not_lt.1 fun hlt => h (hneg.2 hlt)), BitVec.ofInt_toInt]

/-! Halves of a register (R100). -/

theorem getLsbD_putHalf {w : Nat} (old : BitVec w) (k : Nat) (h : BitVec 16) {j : Nat} (hj : j < w) :
    (putHalf old k h).getLsbD j = if 16 * k ≤ j ∧ j < 16 * k + 16 then h.getLsbD (j - 16 * k) else old.getLsbD j := by
  have hones (i : Nat) (hi : i < w) : (0xFFFF#w).getLsbD i = decide (i < 16) := by
    rw [BitVec.getLsbD_ofNat, decide_eq_true hi, Bool.true_and]
    exact Nat.testBit_two_pow_sub_one 16 i
  simp only [putHalf, BitVec.getLsbD_or, BitVec.getLsbD_and, BitVec.getLsbD_not, BitVec.getLsbD_shiftLeft, hj, decide_true, Bool.true_and,
    BitVec.getLsbD_setWidth, hones (j - 16 * k) (by omega), show j - 16 * k < w by omega]
  by_cases hlow : j < 16 * k
  · have hout : ¬ (16 * k ≤ j ∧ j < 16 * k + 16) := by omega
    simp [hlow, hout]
  · by_cases hin : j - 16 * k < 16
    · have hrun : 16 * k ≤ j ∧ j < 16 * k + 16 := by omega
      simp [hlow, hin, hrun]
    · have hout : ¬ (16 * k ≤ j ∧ j < 16 * k + 16) := by omega
      simp [hlow, hin, hout, BitVec.getLsbD_of_ge h _ (Nat.not_lt.1 hin)]

/-! Bit fields (R101). -/

theorem bfxOf_eq {w : Nat} (sgn : Bool) (a b : BitVec w) :
    bfxOf sgn a b = immAt w sgn (a.extractLsb' (fieldPos b.toNat) (fieldLen w b.toNat)) := by
  have hspan : bfSpan w b.toNat = (fieldPos b.toNat, fieldLen w b.toNat) := rfl
  generalize hn : fieldLen w b.toNat = n at hspan
  have hfield : a.toNat / 2 ^ fieldPos b.toNat % 2 ^ n = (a.extractLsb' (fieldPos b.toNat) n).toNat := by
    rw [BitVec.extractLsb'_toNat, Nat.shiftRight_eq_div_pow]
  simp only [bfxOf, hspan, hfield]
  generalize a.extractLsb' (fieldPos b.toNat) n = f
  rw [immAt_eq]
  cases sgn with
  | false => simp [exact, BitVec.ofInt_natCast]
  | true =>
    rw [exact, if_pos rfl, BitVec.toInt_eq_toNat_cond]
    cases n with
    | zero => simp [BitVec.of_length_zero]
    | succ n =>
      have hdouble : 2 ^ (n + 1) = 2 * 2 ^ n := Nat.pow_succ'
      simp only [Bool.true_and, Nat.succ_pos, decide_true, Nat.add_sub_cancel, decide_eq_true_eq]
      by_cases htop : 2 ^ n ≤ f.toNat
      · rw [if_pos htop, if_neg (by omega), Nat.cast_pow, Nat.cast_ofNat]
      · rw [if_neg htop, if_pos (by omega), BitVec.ofInt_natCast]

theorem getLsbD_bfxOf {w : Nat} (sgn : Bool) (a b : BitVec w) {k : Nat} (hk : k < w) : (bfxOf sgn a b).getLsbD k =
    if fieldLen w b.toNat = 0 then false
    else if k < fieldLen w b.toNat then a.getLsbD (fieldPos b.toNat + k)
    else sgn && a.getLsbD (fieldPos b.toNat + fieldLen w b.toNat - 1) := by
  rw [bfxOf_eq, getLsbD_immAt w sgn _ hk]
  generalize fieldLen w b.toNat = n
  cases n with
  | zero => simp [BitVec.of_length_zero]
  | succ n =>
    rw [if_neg (Nat.succ_ne_zero n), BitVec.msb_eq_getLsbD_last, BitVec.getLsbD_extractLsb', BitVec.getLsbD_extractLsb']
    by_cases hin : k < n + 1 <;> simp [hin]

theorem getLsbD_bfiOf {w : Nat} (a b c : BitVec w) {k : Nat} (hk : k < w) : (bfiOf a b c).getLsbD k =
    if fieldPos b.toNat ≤ k ∧ k < fieldPos b.toNat + fieldLen w b.toNat then a.getLsbD (k - fieldPos b.toNat) else c.getLsbD k := by
  have hspan : bfSpan w b.toNat = (fieldPos b.toNat, fieldLen w b.toNat) := rfl
  generalize fieldPos b.toNat = p, fieldLen w b.toNat = n at hspan
  have hmask : (BitVec.ofNat w ((2 ^ n - 1) * 2 ^ p)).getLsbD k = decide (p ≤ k ∧ k < p + n) := by
    rw [BitVec.getLsbD_ofNat, Nat.testBit_mul_two_pow, Nat.testBit_two_pow_sub_one, Bool.eq_iff_iff]
    simp only [hk, decide_true, Bool.true_and, Bool.and_eq_true, decide_eq_true_eq]
    omega
  simp only [bfiOf, hspan, BitVec.getLsbD_or, BitVec.getLsbD_and, BitVec.getLsbD_not, BitVec.getLsbD_shiftLeft, hmask, hk, decide_true, Bool.true_and]
  by_cases hin : p ≤ k ∧ k < p + n
  · simp [hin, Nat.not_lt.2 hin.1]
  · simp [hin]

/-! Bit counts (R102). -/

theorem leadingZeros_spec {w : Nat} (a : BitVec w) : leadingZeros a ≤ w ∧
    (∀ k, k < leadingZeros a → a.getLsbD (w - 1 - k) = false) ∧ (leadingZeros a < w → a.getLsbD (w - 1 - leadingZeros a) = true) := by
  by_cases ha : a = 0
  · subst ha
    simp [leadingZeros]
  · have hne : a.toNat ≠ 0 := fun h => ha (BitVec.eq_of_toNat_eq (by simpa using h))
    have hlog : a.toNat.log2 < w := (Nat.log2_lt hne).2 a.isLt
    have hzeros : leadingZeros a = w - 1 - a.toNat.log2 := if_neg ha
    rw [hzeros]
    refine ⟨by omega, fun k hk => Nat.testBit_lt_two_pow ?_, fun _ => ?_⟩
    · exact (Nat.log2_lt hne).1 (by omega)
    · rw [show w - 1 - (w - 1 - a.toNat.log2) = a.toNat.log2 by omega]
      exact Nat.testBit_log2 hne

/-! The words. -/

section
variable {i : Instr} {s : State} {sp0 sp : Span} {I : List Nat} {a : Word} (h : Clear i s sp0 sp I a)
include h

/-- Of a word's rules and of its function no more counts, where nothing keeps it from its effect, than what they are in this issue. -/
theorem issue_plainly {r : Rules} {body body' : State → Iss → State} (hbody : body s (At i sp I a) = body' s (At i sp I a))
    (hp : r.priv s (At i sp I a) = true → sp.hmode = true) (hw : r.whole = true → I = sp.lanesIn (!·.ended))
    (hu : r.unsync s (At i sp I a) = false) (ho : r.own s (At i sp I a) = none) (hr : r.ready s (At i sp I a) = true) :
    issue i r body s = issue i {} body' s := by
  rw [issue_clear h hp hw hu ho hr, issue_clear (r := {}) h nofun nofun rfl rfl rfl]
  exact congrArg (fun t : State => Host.Outcome.next (t.issued i (At i sp I a))) hbody

theorem regOp_plainly {r : Rules} {f g : Iss → Span → Span} (hf : ∀ t, f (At i sp I a) t = g (At i sp I a) t)
    (hp : r.priv s (At i sp I a) = true → sp.hmode = true) (hw : r.whole = true → I = sp.lanesIn (!·.ended))
    (hu : r.unsync s (At i sp I a) = false) (ho : r.own s (At i sp I a) = none) (hr : r.ready s (At i sp I a) = true) :
    regOp i r f s = regOp i {} g s :=
  issue_plainly h (congrArg s.putSpan (hf _)) hp hw hu ho hr

end

/-- What a word of 64 bits with U and of 32 without reads of its own destination. -/
theorem getLsbD_src_own (sp : Span) (u : Bool) (d : BitVec 8) (l : Nat) {j : Nat} :
    (sp.src (if u then 64 else 32) u d l).getLsbD j = if u then (sp.s d.toNat).getLsbD j else (sp.v d.toNat l).getLsbD j := by
  cases u <;> simp [Span.src]

theorem exec_movi (x : RIW) (s : State) : exec (.movi x) s =
    regOp (.movi x) {} (writeD (if x.ctl.u then 64 else 32) x.ctl.u true x.d fun _ _ => x.imm.signExtend _) s := by
  have he : exec (.movi x) s = execMovi x s := rfl
  rw [he, execMovi]
  generalize x.ctl.u = u
  cases u <;> rfl

theorem exec_movh (x : RIW) (s : State) : exec (.movh x) s =
    regOp (.movh x) {} (writeD (if x.ctl.u then 64 else 32) x.ctl.u false x.d fun sp l =>
      putHalf (sp.src _ x.ctl.u x.d l) (x.a.toNat % 4) (x.imm.setWidth 16)) s := by
  have he : exec (.movh x) s = execMovh x s := rfl
  rw [he, execMovh]
  generalize x.ctl.u = u
  cases u <;> simp [Span.src]

/-- Settles O2: each word puts the value of its function, whose bits are those of the rules. -/
theorem movesAndBitFields : Obligations.moves_and_bit_fields := by
  refine ⟨fun s sp0 sp I a => ⟨fun x h => ?mad, fun x h => ?neg, fun x h => ?abs, fun x h => ?sel, fun x hty h => ?mov, fun x hty h => ?mov128,
    fun x h => ?xtn, fun x h => ?movi, fun x h => ?movh, fun x h => ?lea⟩, fun s sp0 sp I a x => ⟨fun h => ?bfx, fun h => ?bfi, fun h => ?popc,
    fun h => ?clz, fun h => ?brev⟩⟩
  case mad => exact puts_of rfl h _ fun l => by rw [BitVec.ofInt_add, BitVec.ofInt_mul, ofInt_exact, ofInt_exact, ofInt_exact]
  case neg => exact puts_of rfl h _ fun l => by rw [BitVec.ofInt_neg, BitVec.ofInt_toInt]
  case abs => exact puts_of rfl h _ fun l => abs_eq _
  case sel =>
    refine puts_of rfl h _ fun l => ?_
    congr 1
    rw [eq_iff_iff, bne_iff_ne, Bool.eq_not]
  case mov =>
    have he : exec (.mov x) s = execMov x s := rfl
    rw [execMov, if_neg hty] at he
    exact puts_of he h _ fun l => rfl
  case mov128 =>
    have he : exec (.mov x) s = execMov x s := rfl
    rw [execMov, if_pos hty] at he
    exact putsV_of (put := fun sp t l => t.setV128 x.d.toNat l (sp.v128 x.a.toNat l)) he h (fun t l r l' hl hl' => v_setV128 t _ _ _ _ _ hl hl')
      (fun _ _ => setV128_sregs ..) (fun _ _ => setV128_body ..) nofun nofun rfl rfl rfl
  case xtn => exact puts_of rfl h _ fun l => immAt_eq ..
  case movi => exact puts_of (exec_movi x s) h _ fun l => rfl
  case movh =>
    refine ⟨_, fun l j hj => ?_, puts_of (exec_movh x s) h _ fun l => rfl⟩
    rw [getLsbD_putHalf _ _ _ hj, getLsbD_src_own]
    refine ite_congr rfl (fun hin => ?_) fun _ => rfl
    rw [BitVec.getLsbD_setWidth, decide_eq_true (by omega), Bool.true_and]
  case lea =>
    have he : exec (.lea x) s = regOp (.lea x) {} (writeD 64 x.ctl.u false x.d fun _ _ => a + 8 * x.imm.signExtend 64) s :=
      regOp_plainly (r := {}) (f := fun j t => writeD 64 x.ctl.u false x.d (fun _ _ => j.a + 8 * x.imm.signExtend 64) j t) h (fun _ => rfl)
        nofun nofun rfl rfl rfl
    refine puts_of he h _ fun l => ?_
    rw [BitVec.ofInt_add, BitVec.ofInt_mul, BitVec.ofInt_natCast, BitVec.ofNat_toNat, BitVec.setWidth_eq]
    rfl
  case bfx => exact ⟨_, fun l k hk => getLsbD_bfxOf _ _ _ hk, puts_of rfl h _ fun l => rfl⟩
  case bfi => exact ⟨_, fun l k hk => getLsbD_bfiOf _ _ _ hk, puts_of rfl h _ fun l => rfl⟩
  case popc => exact puts_of rfl h _ fun l => by rw [popcount, List.countP_eq_length_filter]
  case clz => exact ⟨_, fun l => leadingZeros_spec _, puts_of rfl h _ fun l => rfl⟩
  case brev =>
    refine ⟨_, fun l k hk => ?_, puts_of rfl h _ fun l => rfl⟩
    rw [BitVec.getLsbD_reverse, BitVec.getMsbD_eq_getLsbD, decide_eq_true hk, Bool.true_and]

end Sys2Proof.Machine
end

section
/-! SUPPORT. Lane exchanges, special registers and indexed registers, and the obligation about them (R103 to R108). -/

namespace Sys2Proof.Machine

/-! Exchanges between lanes (R103, R105). -/

theorem shuffleFrom_eq (mode n l k : Nat) : shuffleFrom mode n l k = shflSrc mode n l k := by
  have hbase : l - l % n = n * (l / n) := by
    have := Nat.div_add_mod l n
    omega
  have hrest : l - n * (l / n) = l % n := by
    have := Nat.div_add_mod l n
    omega
  have hle : n * (l / n) ≤ l := Nat.mul_div_le l n
  simp only [shflSrc, hbase, hrest]
  match mode with
  | 0 => rfl
  | 1 =>
    have hfits : k ≤ l % n ↔ k + n * (l / n) ≤ l := by omega
    simp [shuffleFrom, hfits]
  | 2 => rfl
  | _ + 3 => simp [shuffleFrom]

/-! Reductions (R104). -/

section
variable {w : Nat} (sgn : Bool)

theorem exact_inj {x y : BitVec w} (h : exact sgn x = exact sgn y) : x = y := by
  rw [← ofInt_exact sgn x, h, ofInt_exact]

theorem foldl_add_eq (J : List (BitVec w)) (z : BitVec w) : J.foldl (· + ·) z = z + BitVec.ofInt w (J.map (exact sgn)).sum := by
  induction J generalizing z with
  | nil => simp
  | cons y J ih => rw [List.foldl_cons, ih, List.map_cons, List.sum_cons, BitVec.ofInt_add, ofInt_exact, BitVec.add_assoc]

/-- A fold that keeps the better of two values, from one that no value is worse than, gives the best of the list. -/
theorem foldl_extreme {α : Type} {R : α → α → Prop} {f : α → α → α} {z : α} (hrefl : ∀ x, R x x) (htrans : ∀ x y v, R x y → R y v → R x v)
    (hanti : ∀ x y, R x y → R y x → x = y) (hf : ∀ x y, (f x y = x ∨ f x y = y) ∧ R (f x y) x ∧ R (f x y) y) (hz : ∀ y, R y z)
    {J : List α} (hJ : J ≠ []) : J.foldl f z ∈ J ∧ ∀ y ∈ J, R (J.foldl f z) y := by
  have hfold (J : List α) (z : α) : J.foldl f z ∈ z :: J ∧ ∀ y ∈ z :: J, R (J.foldl f z) y := by
    induction J generalizing z with
    | nil => exact ⟨.head _, fun y hy => List.mem_singleton.1 hy ▸ hrefl z⟩
    | cons y J ih =>
      obtain ⟨hmem, hbest⟩ := ih (f z y)
      obtain ⟨hone, hleft, hright⟩ := hf z y
      have hfirst := hbest _ (.head _)
      rw [List.foldl_cons]
      refine ⟨?_, List.forall_mem_cons.2 ⟨htrans _ _ _ hfirst hleft, List.forall_mem_cons.2 ⟨htrans _ _ _ hfirst hright, fun v hv =>
        hbest v (.tail _ hv)⟩⟩⟩
      rcases List.mem_cons.1 hmem with heq | hin
      · rw [heq]
        rcases hone with h | h <;> simp [h]
      · exact .tail _ (.tail _ hin)
  obtain ⟨hmem, hbest⟩ := hfold J z
  refine ⟨?_, fun y hy => hbest y (.tail _ hy)⟩
  rcases List.mem_cons.1 hmem with heq | hin
  · obtain ⟨y, hy⟩ := List.exists_mem_of_ne_nil J hJ
    have hsame : z = y := hanti z y (heq ▸ hbest y (.tail _ hy)) (hz y)
    rw [heq]
    exact hsame ▸ hy
  · exact hin

/-- No value of a type lies outside its range. -/
theorem exact_range (x : BitVec w) : lowest w sgn ≤ exact sgn x ∧ exact sgn x ≤ highest w sgn := by
  cases sgn with
  | false =>
    have hlt : (x.toNat : Int) < 2 ^ w := by exact_mod_cast x.isLt
    simp only [lowest, highest, exact, Bool.false_eq_true, if_false]
    omega
  | true =>
    have hle := BitVec.le_toInt x
    have hlt := BitVec.toInt_lt (x := x)
    simp only [lowest, highest, exact, if_true]
    omega

theorem exact_ofInt (hw : 0 < w) {z : Int} (hlow : lowest w sgn ≤ z) (hhigh : z ≤ highest w sgn) : exact sgn (BitVec.ofInt w z) = z := by
  cases sgn with
  | false =>
    simp only [lowest, highest, Bool.false_eq_true, if_false] at hlow hhigh
    rw [exact, if_neg Bool.false_ne_true, BitVec.toNat_ofInt, Int.toNat_of_nonneg (Int.emod_nonneg _ (by positivity))]
    exact Int.emod_eq_of_lt hlow (by push_cast; omega)
  | true =>
    simp only [lowest, highest, if_true] at hlow hhigh
    rw [exact, if_pos rfl]
    exact BitVec.toInt_ofInt_eq_self hw hlow (by omega)

theorem lowest_le_highest (w : Nat) : lowest w sgn ≤ highest w sgn := by
  have hpos : (0 : Int) < 2 ^ (w - 1) := by positivity
  have hpos' : (0 : Int) < 2 ^ w := by positivity
  cases sgn <;> simp only [lowest, highest, if_true, if_false, Bool.false_eq_true] <;> omega

theorem reds_sum (J : List (BitVec w)) : redsOf w 0 sgn J = BitVec.ofInt w (J.map (exact sgn)).sum := by
  rw [redsOf, foldl_add_eq sgn]
  exact BitVec.zero_add _

theorem reds_least (hw : 0 < w) {J : List (BitVec w)} (hJ : J ≠ []) :
    redsOf w 1 sgn J ∈ J ∧ ∀ y ∈ J, exact sgn (redsOf w 1 sgn J) ≤ exact sgn y := by
  refine foldl_extreme (R := fun x y => exact sgn x ≤ exact sgn y) (f := fMin w sgn) (z := BitVec.ofInt w (highest w sgn)) (fun _ => le_rfl)
    (fun _ _ _ => le_trans) (fun _ _ h h' => exact_inj sgn (le_antisymm h h')) (fun x y => ?_) (fun y => ?_) hJ
  · unfold fMin
    split
    case isTrue h => exact ⟨.inl rfl, le_rfl, h⟩
    case isFalse h => exact ⟨.inr rfl, (not_le.1 h).le, le_rfl⟩
  · rw [exact_ofInt sgn hw (lowest_le_highest sgn w) le_rfl]
    exact (exact_range sgn y).2

theorem reds_greatest (hw : 0 < w) {J : List (BitVec w)} (hJ : J ≠ []) :
    redsOf w 2 sgn J ∈ J ∧ ∀ y ∈ J, exact sgn y ≤ exact sgn (redsOf w 2 sgn J) := by
  refine foldl_extreme (R := fun x y => exact sgn y ≤ exact sgn x) (f := fMax w sgn) (z := BitVec.ofInt w (lowest w sgn)) (fun _ => le_rfl)
    (fun _ _ _ h h' => h'.trans h) (fun _ _ h h' => exact_inj sgn (le_antisymm h' h)) (fun x y => ?_) (fun y => ?_) hJ
  · unfold fMax
    split
    case isTrue h => exact ⟨.inr rfl, h, le_rfl⟩
    case isFalse h => exact ⟨.inl rfl, le_rfl, (not_le.1 h).le⟩
  · rw [exact_ofInt sgn hw le_rfl (lowest_le_highest sgn w)]
    exact (exact_range sgn y).1

/-- Bit `k` of a reduction bit by bit. -/
theorem getLsbD_foldl {f : BitVec w → BitVec w → BitVec w} {g : Bool → Bool → Bool} {k : Nat}
    (hf : ∀ x y, (f x y).getLsbD k = g (x.getLsbD k) (y.getLsbD k)) (J : List (BitVec w)) (z : BitVec w) :
    (J.foldl f z).getLsbD k = (J.map (·.getLsbD k)).foldl g (z.getLsbD k) := by
  induction J generalizing z with
  | nil => rfl
  | cons y J ih => rw [List.foldl_cons, ih, hf, List.map_cons, List.foldl_cons]

theorem foldl_and_eq (L : List Bool) (b : Bool) : L.foldl (· && ·) b = (b && L.all id) := by
  induction L generalizing b with
  | nil => simp
  | cons c L ih => rw [List.foldl_cons, ih, List.all_cons, id, Bool.and_assoc]

theorem foldl_or_eq (L : List Bool) (b : Bool) : L.foldl (· || ·) b = (b || L.any id) := by
  induction L generalizing b with
  | nil => simp
  | cons c L ih => rw [List.foldl_cons, ih, List.any_cons, id, Bool.or_assoc]

theorem foldl_xor_eq (L : List Bool) (b : Bool) : L.foldl (· ^^ ·) b = (b ^^ decide (L.countP id % 2 = 1)) := by
  induction L generalizing b with
  | nil => simp
  | cons c L ih =>
    rw [List.foldl_cons, ih, List.countP_cons]
    cases c with
    | false => rw [Bool.xor_false]; rfl
    | true =>
      have hodd : decide ((L.countP id + 1) % 2 = 1) = !decide (L.countP id % 2 = 1) := by
        rw [← decide_not, decide_eq_decide]
        omega
      rw [id, if_pos rfl, hodd, Bool.xor_assoc, Bool.true_xor]

theorem getLsbD_reds_and (J : List (BitVec w)) {k : Nat} (hk : k < w) : (redsOf w 3 sgn J).getLsbD k = J.all (·.getLsbD k) := by
  rw [redsOf, getLsbD_foldl (fun _ _ => BitVec.getLsbD_and), foldl_and_eq, BitVec.getLsbD_allOnes, decide_eq_true hk, Bool.true_and, List.all_map]
  rfl

theorem getLsbD_reds_or (J : List (BitVec w)) (k : Nat) : (redsOf w 4 sgn J).getLsbD k = J.any (·.getLsbD k) := by
  rw [redsOf, getLsbD_foldl (fun _ _ => BitVec.getLsbD_or), foldl_or_eq, List.any_map]
  exact (congrArg (· || _) BitVec.getLsbD_zero).trans (Bool.false_or _)

theorem getLsbD_reds_xor (J : List (BitVec w)) (k : Nat) : (redsOf w 5 sgn J).getLsbD k = decide (J.countP (·.getLsbD k) % 2 = 1) := by
  have hV : redsOf w 5 sgn J = J.foldl (· ^^^ ·) 0 := rfl
  rw [hV, getLsbD_foldl (fun _ _ => BitVec.getLsbD_xor), foldl_xor_eq, List.countP_map]
  exact (congrArg (· ^^ _) BitVec.getLsbD_zero).trans (Bool.false_xor _)

end

theorem tyWidth_pos (ty : Ty) : 0 < tyWidth ty := by cases ty <;> decide

/-! Special registers (R107). -/

theorem maskOf_ended (sp : Span) :
    maskOf sp LaneState.ended = laneMask (laneNums.filter fun k => (sp.lane k).st = .exited || (sp.lane k).st = .reclaimed) := by
  have hended (st : LaneState) : st.ended = (decide (st = .exited) || decide (st = .reclaimed)) := by cases st <;> rfl
  simp only [maskOf, Span.lanesIn, laneMask, hended]

theorem stateCodes_eq (sp : Span) (l : Nat) : stateCodes sp l = ((List.range 16).map fun k => (sp.lane (l + k)).st.code * 16 ^ k).sum := by
  simp only [stateCodes, Nat.pow_mul]

theorem special_eq (i : Instr) (s : State) (sp : Span) (I : List Nat) (a : Word) (l : Nat) :
    ∀ p ∈ specials s sp I a l, s.special (At i sp I a) p.1 l = p.2 := by
  simp only [specials, List.forall_mem_cons]
  refine ⟨rfl, rfl, rfl, rfl, maskOf_ended sp, ?low, stateCodes_eq sp 16, rfl, rfl, rfl, rfl, rfl, ?mode, rfl, rfl, rfl, rfl, ?cause, rfl, nofun⟩
  case low =>
    have hcodes := stateCodes_eq sp 0
    simp only [Nat.zero_add] at hcodes
    exact hcodes
  case mode =>
    show sp.hmode.toNat = if sp.hmode then 1 else 0
    cases sp.hmode <;> rfl
  case cause =>
    show (match sp.cause with | some c => c.code | none => 0) = _
    cases sp.cause <;> rfl

theorem specialWidth_eq (n : Nat) : specialWidth n = some 64 ↔ n = 2 ∨ n = 5 ∨ n = 6 := by
  unfold specialWidth
  split
  case isTrue h => simp [h]
  case isFalse h =>
    split <;> simp [h]

/-! The words. -/

section
variable {s : State} {sp0 sp : Span} {I : List Nat} {a : Word} {x : RRR}

theorem shfl_puts (h : Clear (.shfl x) s sp0 sp I a)
    (hfree : sp.crossPending (run x.a.toNat x.ty.regs) ((acting (.shfl x) sp I).map (shflFrom x sp)) = false) :
    Puts (.shfl x) s sp I a (tyWidth x.ty) false false x.d fun l => sp.src (tyWidth x.ty) false x.a (shflFrom x sp l) :=
  becomes_writeD (r := { unsync := fun _ i => i.sp.crossPending (run x.a.toNat x.ty.regs) (i.G.map (shflFrom x i.sp)) })
    (f := fun sp l => sp.src (tyWidth x.ty) false x.a (shflFrom x sp l)) rfl h nofun nofun hfree rfl rfl

theorem reds_puts (h : Clear (.reds x) s sp0 sp I a) : PutsS (.reds x) s sp I a x.d.toNat True (filled (tyWidth x.ty) (tySigned x.ty)
    (redsOf (tyWidth x.ty) x.lo3 (tySigned x.ty) ((acting (.reds x) sp I).map fun l => sp.src (tyWidth x.ty) false x.a l))) :=
  putsS_of (f := fun i t => t.dst (tyWidth x.ty) true (tySigned x.ty) x.d 0
    (redsOf (tyWidth x.ty) x.lo3 (tySigned x.ty) (i.G.map fun l => i.sp.src (tyWidth x.ty) false x.a l))) rfl h fun _ => rfl

theorem rdln_puts (h : Clear (.rdln x) s sp0 sp I a) (hfree : sp.crossPending (run x.a.toNat x.ty.regs) [laneIndex x sp] = false) :
    PutsS (.rdln x) s sp I a x.d.toNat True ((sp.src (tyWidth x.ty) false x.a (laneIndex x sp)).setWidth 64) := by
  have he : exec (.rdln x) s = regOp (.rdln x) { unsync := fun _ i => i.sp.crossPending (run x.a.toNat x.ty.regs) [laneIndex x i.sp] }
    (fun i t => t.dst (tyWidth x.ty) true false x.d 0 (i.sp.src (tyWidth x.ty) false x.a (laneIndex x i.sp))) s := rfl
  exact putsS_of (f := fun i t => t.dst (tyWidth x.ty) true false x.d 0 (i.sp.src (tyWidth x.ty) false x.a (laneIndex x i.sp)))
    (he.trans (regOp_plainly h (fun _ => rfl) nofun nofun hfree rfl rfl)) h fun _ => rfl

theorem wrln_becomes (h : Clear (.wrln x) s sp0 sp I a) (hfree : sp.crossPending (run x.d.toNat x.ty.regs) [laneIndex x sp] = false) :
    Becomes (.wrln x) s sp fun sp' => Goes sp sp' I a ∧ WritesV (if tyWidth x.ty = 64 then 2 else 1) x.d.toNat [laneIndex x sp]
      (fun _ => (sp.s x.a.toNat).setWidth (tyWidth x.ty)) sp sp' := by
  have he : exec (.wrln x) s = regOp (.wrln x) { unsync := fun _ i => i.sp.crossPending (run x.d.toNat x.ty.regs) [laneIndex x i.sp] }
    (fun i t => t.dst (tyWidth x.ty) false false x.d (laneIndex x i.sp) (i.sp.src (tyWidth x.ty) true x.a 0)) s := rfl
  have hlt : laneIndex x sp < 32 := by
    unfold laneIndex
    split <;> exact Nat.mod_lt _ (by decide)
  have hput := foldl_writesV (fun t l => t.dst (tyWidth x.ty) false false x.d l ((sp.s x.a.toNat).setWidth (tyWidth x.ty)))
    (if tyWidth x.ty = 64 then 2 else 1) x.d.toNat (fun _ => (sp.s x.a.toNat).setWidth (tyWidth x.ty))
    (fun t l r l' hl hl' => v_dst t false x.d r l l' _ hl hl') (fun t l => dst_sregs ..) (fun t l => dst_body ..) [laneIndex x sp] (by simpa using hlt)
  refine becomes_regOp he h (fun t => frame_of_body (hput t).2) nofun nofun hfree rfl rfl ?_
  obtain ⟨hwrites, hbody⟩ := hput (At (.wrln x) sp I a).moved
  have hgoes := goes_of_body (moved_goes h.toIssuing (acting (.wrln x) sp I)) hbody
  exact ⟨⟨hgoes.count, hgoes.lane⟩, hwrites.scalars, hwrites.flags, hwrites.regs⟩

theorem mfs_puts (h : Clear (.mfs x) s sp0 sp I a) (value : Nat → Nat) (hvalue : ∀ l, (x.a.toNat, value l) ∈ specials s sp I a l) :
    PutsV (.mfs x) s sp I a (if x.a.toNat = 2 ∨ x.a.toNat = 5 ∨ x.a.toNat = 6 then 2 else 1) x.d.toNat fun l => BitVec.ofNat 64 (value l) := by
  have he : exec (.mfs x) s = execMfs x s := rfl
  have hspecial (l : Nat) : s.special (At (.mfs x) sp I a) x.a.toNat l = value l := special_eq _ s sp I a l _ (hvalue l)
  refine putsV_of (put := fun _ t l => if specialWidth x.a.toNat = some 64 then t.setV64 x.d.toNat l (BitVec.ofNat 64 (value l))
    else t.setV x.d.toNat l ((BitVec.ofNat 64 (value l)).setWidth 32)) (r := {}) (he.trans (issue_plainly h ?_ nofun nofun rfl rfl rfl)) h
    (fun t l r l' hl hl' => ?_) (fun t l => ?_) (fun t l => ?_) nofun nofun rfl rfl rfl
  · simp only [hspecial]
  · simp only [specialWidth_eq]
    split
    · exact v_setV64 _ _ _ _ _ _ hl hl'
    · rw [v_setV_run _ _ _ hl hl']
      refine ite_congr rfl (fun hr => ?_) fun _ => rfl
      rw [show r - x.d.toNat = 0 by omega, extract_all32]
      exact BitVec.setWidth_eq_extractLsb' (by decide)
  · split
    · exact setV64_sregs ..
    · rfl
  · split
    · exact setV64_body ..
    · rfl

/-- The wait marker was not set: a span that it holds does not issue (R64). -/
theorem issuing_wHold (h : Issuing s sp0 sp I a) : sp.wHold = false := by
  have hsame := congrArg Span.wHold (select_rest h.select)
  have hheld := h.free
  simp only [Span.held, Bool.or_eq_false_iff] at hheld
  obtain ⟨⟨⟨⟨⟨-, hfree⟩, -⟩, -⟩, -⟩, -⟩ := hheld
  exact hsame.trans hfree

/-- A word that changes its span alone, and whose results and count it leaves: what the wait marker is after it. -/
theorem leaves_regOp_hold {i : Instr} {f : Iss → Span → Span} (h : Clear i s sp0 sp I a) (he : exec i s = regOp i {} f s)
    (hf : ∀ y t, (f y t).id = t.id) (hres : (f (At i sp I a) (At i sp I a).moved).results = sp.results)
    (huid : (f (At i sp I a) (At i sp I a).moved).uid = sp.uid) (hseq : (f (At i sp I a) (At i sp I a).moved).seq = sp.seq) :
    Leaves i s sp ((f (At i sp I a) (At i sp I a).moved).hold (s.waitsAt i sp)) := by
  obtain ⟨b, t, hnext, honly, hpicked, hspan⟩ := leaves_regOp h he hf
  have hissue := issue_clear (r := {}) (body := fun t x => t.putSpan (f x x.moved)) h nofun nofun rfl rfl rfl
  have ht : t = _ := Host.Outcome.next.inj (hnext.symm.trans (he.trans hissue))
  have hid : (f (At i sp I a) (At i sp I a).moved).id = sp.id := hf _ _
  have hput : (s.putSpan (f (At i sp I a) (At i sp I a).moved)).span? sp.id = some (f (At i sp I a) (At i sp I a).moved) := by
    rw [← hid]
    exact span?_putSpan_self s _ sp0 (by rw [hid]; exact issuing_span? h.toIssuing)
  have hwaits : (s.putSpan (f (At i sp I a) (At i sp I a).moved)).waitsAt i (f (At i sp I a) (At i sp I a).moved) = s.waitsAt i sp := by
    unfold State.waitsAt
    rw [hres, huid, hseq]
    rfl
  have hself := issued_span?_self _ i (At i sp I a) _ hput
  rw [hwaits] at hself
  refine ⟨t, hnext, honly, hpicked, ?_⟩
  rw [ht]
  exact hself

theorem mts_leaves (h : Clear (.mts x) s sp0 sp I a) : ∃ sp', Goes sp sp' I a ∧
    { sp' with lanes := sp.lanes, spantag := sp.spantag, wHold := sp.wHold } = sp ∧ sp'.spantag = (sp.s x.a.toNat).setWidth 32 ∧
    sp'.wHold = s.waitsAt (.mts x) sp ∧ Leaves (.mts x) s sp sp' := by
  have hmoved := moved_goes h.toIssuing (acting (.mts x) sp I)
  have he : exec (.mts x) s = regOp (.mts x) {} (fun i t => { t with spantag := (i.sp.s x.a.toNat).setWidth 32 }) s := rfl
  refine ⟨_, ?_, ?_, ?_, ?_, leaves_regOp_hold h he (fun _ _ => rfl) rfl rfl rfl⟩
  · exact ⟨hmoved.count, hmoved.lane⟩
  · rfl
  · rfl
  show (sp.wHold || s.waitsAt (.mts x) sp) = s.waitsAt (.mts x) sp
  rw [issuing_wHold h.toIssuing, Bool.false_or]

/-! Indexed registers (R108). -/

theorem indexCause_none {i : Instr} {f : BitVec 8} (hin : ∀ l ∈ acting i sp I, (sp.v f.toNat l).toNat < sp.budget)
    (hfree : ∀ l ∈ I, ∀ r ∈ sp.results, r.hits { v := [(sp.v f.toNat l).toNat] } [l] = false) : indexCause f s (At i sp I a) = none := by
  have hbudget : (acting i sp I).any (fun l => decide (sp.budget ≤ indexIn sp f l)) = false := by
    rw [List.any_eq_false]
    exact fun l hl => by rw [decide_eq_true_eq]; exact Nat.not_le.2 (hin l hl)
  have hresults : I.any (fun l => sp.results.any (·.hits { v := [indexIn sp f l] } [l])) = false := by
    rw [List.any_eq_false]
    exact fun l hl => by simpa [indexIn] using hfree l hl
  simp only [indexCause, hbudget, hresults, Bool.false_eq_true, if_false]

theorem indexCause_regbud {i : Instr} {f : BitVec 8} (hpast : ∃ l ∈ acting i sp I, sp.budget ≤ (sp.v f.toNat l).toNat) :
    indexCause f s (At i sp I a) = some .regbud := by
  have hbudget : (acting i sp I).any (fun l => decide (sp.budget ≤ indexIn sp f l)) = true := by
    obtain ⟨l, hl, hle⟩ := hpast
    exact List.any_eq_true.2 ⟨l, hl, decide_eq_true hle⟩
  simp only [indexCause, hbudget, if_true]

theorem indexCause_unsync {i : Instr} {f : BitVec 8} (hin : ¬ ∃ l ∈ acting i sp I, sp.budget ≤ (sp.v f.toNat l).toNat)
    (hpending : ∃ l ∈ I, ∃ r ∈ sp.results, r.hits { v := [(sp.v f.toNat l).toNat] } [l] = true) : indexCause f s (At i sp I a) = some .unsync := by
  have hbudget : (acting i sp I).any (fun l => decide (sp.budget ≤ indexIn sp f l)) = false := by
    rw [List.any_eq_false]
    exact fun l hl hle => hin ⟨l, hl, of_decide_eq_true hle⟩
  have hresults : I.any (fun l => sp.results.any (·.hits { v := [indexIn sp f l] } [l])) = true := by
    simpa [indexIn] using hpending
  simp only [indexCause, hbudget, hresults, Bool.false_eq_true, if_false, if_true]

theorem rdix_puts (h : Clear (.rdix x) s sp0 sp I a) (hnone : indexCause x.a s (At (.rdix x) sp I a) = none) :
    PutsV (.rdix x) s sp I a 1 x.d.toNat fun l => sp.v (sp.v x.a.toNat l).toNat l :=
  putsV_of (r := { own := indexCause x.a }) (put := fun sp t l => t.setV x.d.toNat l (sp.v (indexIn sp x.a l) l)) rfl h
    (fun t _ _ _ hl hl' => v_setV_run t _ _ hl hl') (fun _ _ => rfl) (fun _ _ => rfl) nofun nofun rfl hnone rfl

theorem wrix_becomes (h : Clear (.wrix x) s sp0 sp I a) (hnone : indexCause x.d s (At (.wrix x) sp I a) = none) :
    Becomes (.wrix x) s sp fun sp' => Goes sp sp' I a ∧ sp'.sregs = sp.sregs ∧ sp'.qs = sp.qs ∧ ∀ r l, l < 32 → sp'.v r l =
      if l ∈ acting (.wrix x) sp I ∧ r = (sp.v x.d.toNat l).toNat then sp.src 32 x.ka x.a l else sp.v r l := by
  have hbody (G : List Nat) (t : Span) : (G.foldl (fun t l => t.setV (indexIn sp x.d l) l (sp.src 32 x.ka x.a l)) t).body = t.body ∧
      (G.foldl (fun t l => t.setV (indexIn sp x.d l) l (sp.src 32 x.ka x.a l)) t).sregs = t.sregs := by
    induction G generalizing t with
    | nil => exact ⟨rfl, rfl⟩
    | cons l G ih => exact ih _
  obtain ⟨hmovedBody, hscalars⟩ := hbody (acting (.wrix x) sp I) (At (.wrix x) sp I a).moved
  have hgoes := goes_of_body (moved_goes h.toIssuing (acting (.wrix x) sp I)) hmovedBody
  refine becomes_regOp (r := { own := indexCause x.d }) (f := fun i t => i.G.foldl (fun t l => t.setV (indexIn i.sp x.d l) l (i.sp.src 32 x.ka x.a l)) t)
    rfl h (fun t => frame_of_body (hbody _ t).1) nofun nofun rfl hnone rfl ⟨⟨hgoes.count, hgoes.lane⟩, hscalars, ?_, fun r l hl => ?_⟩
  · have hflags := congrArg Span.qs hmovedBody
    exact hflags
  · have hv := v_foldl (put := fun t l => t.setV (indexIn sp x.d l) l (sp.src 32 x.ka x.a l))
      (new := fun r l => if r = indexIn sp x.d l then some (sp.src 32 x.ka x.a l) else none) (fun t l r j hl hj => ?_) r hl
      (acting (.wrix x) sp I) (At (.wrix x) sp I a).moved (acting_lt h.select)
    · refine hv.trans ?_
      by_cases hin : l ∈ acting (.wrix x) sp I
      · by_cases hr : r = indexIn sp x.d l
        · rw [if_pos hin, if_pos hr, if_pos ⟨hin, hr⟩]
          rfl
        · rw [if_pos hin, if_neg hr, if_neg fun hk => hr hk.2]
          rfl
      · rw [if_neg hin, if_neg fun hk => hin hk.1]
        rfl
    · rw [v_setV _ _ _ _ _ _ hl hj]
      by_cases hjl : j = l
      · subst hjl
        by_cases hr : r = indexIn sp x.d j <;> simp [hr]
      · simp [hjl]

/-- A word that nothing else keeps from its effect takes the cause that its own rule names, with every lane of the issue on the word. -/
theorem own_traps {i : Instr} {r : Rules} {body : State → Iss → State} {c : Cause} (h : Clear i s sp0 sp I a) (he : exec i s = issue i r body s)
    (hp : ∀ y, r.priv s y = false) (hw : r.whole = false) (hu : ∀ y, r.unsync s y = false) (ho : r.own s (At i sp I a) = some c) :
    exec i s = .next { ((s.putSpan sp).takeTrap sp.id ⟨c, true, a, I⟩) with picked := none } :=
  he.trans (issue_cause h.toIssuing h.unlocked ((issueCause_clear h hp hw hu).trans ho))

theorem indexed_traps {i : Instr} {f : BitVec 8} {g : Iss → Span → Span} (h : Clear i s sp0 sp I a)
    (he : exec i s = regOp i { own := indexCause f } g s) :
    let traps := fun c => exec i s = .next { ((s.putSpan sp).takeTrap sp.id ⟨c, true, a, I⟩) with picked := none }
    let past := ∃ l ∈ acting i sp I, sp.budget ≤ (sp.v f.toNat l).toNat
    (past → traps .regbud) ∧
      (¬ past → (∃ l ∈ I, ∃ r ∈ sp.results, r.hits { v := [(sp.v f.toNat l).toNat] } [l] = true) → traps .unsync) := by
  refine ⟨fun hpast => ?_, fun hin hpending => ?_⟩
  · exact own_traps h he (fun _ => rfl) rfl (fun _ => rfl) (indexCause_regbud (s := s) hpast)
  · exact own_traps h he (fun _ => rfl) rfl (fun _ => rfl) (indexCause_unsync (s := s) hin hpending)

end

/-- Settles O3: an exchange reads and writes as its source lanes say, a special register is the one of its index, and an index's causes come
after those of every word. -/
theorem lanesAndSpecialRegisters : Obligations.lanes_and_special_registers := by
  refine ⟨fun s sp0 sp I a x => ⟨?shfl, ?reds, ?lanes⟩, fun s sp0 sp I a x => ⟨fun h => mfs_puts h, fun h => mts_leaves h⟩,
    fun s sp0 sp I a x => ⟨?rdix, ?wrix, ?traps⟩⟩
  case shfl =>
    intro from_ h hfree
    have hfrom : from_ = shflFrom x sp := funext fun l => shuffleFrom_eq ..
    rw [hfrom] at hfree ⊢
    exact shfl_puts h hfree
  case reds =>
    refine fun h => ⟨_, ⟨fun hop => ?_, fun hop => ?_, fun hop => ?_, fun hop k hk => ?_, fun hop k hk => ?_, fun hop k hk => ?_⟩, reds_puts h⟩
    all_goals rw [hop]
    · exact reds_sum ..
    · exact ⟨fun hJ => by rw [hJ]; rfl, reds_least _ (tyWidth_pos x.ty)⟩
    · exact ⟨fun hJ => by rw [hJ]; rfl, reds_greatest _ (tyWidth_pos x.ty)⟩
    · exact getLsbD_reds_and _ _ hk
    · exact getLsbD_reds_or ..
    · exact getLsbD_reds_xor ..
  case lanes => exact ⟨fun h hfree => rdln_puts h hfree, fun h hfree => wrln_becomes h hfree⟩
  case rdix => exact fun h hin hfree => rdix_puts h (indexCause_none hin hfree)
  case wrix => exact fun h hin hfree => wrix_becomes h (indexCause_none hin hfree)
  case traps =>
    rintro i f (⟨rfl, rfl⟩ | ⟨rfl, rfl⟩) h
    · exact indexed_traps (g := fun i t => i.G.foldl (fun t l => t.setV x.d.toNat l (i.sp.v (indexIn i.sp x.a l) l)) t) h rfl
    · exact indexed_traps (g := fun i t => i.G.foldl (fun t l => t.setV (indexIn i.sp x.d l) l (i.sp.src 32 x.ka x.a l)) t) h rfl

end Sys2Proof.Machine
end

section
/-! SUPPORT. The words that steer lanes, and the obligation about them (R35, R80 to R82, R84, R88). -/

namespace Sys2Proof.Machine

/-- A relative target is exact, modulo 2^64 (R58). -/
theorem branchTo_eq (a : Word) (off : BitVec 28) : branchTo a off = relTarget a off := by
  rw [branchTo, BitVec.ofInt_add, BitVec.ofInt_add, BitVec.ofInt_mul, BitVec.ofInt_natCast, BitVec.ofNat_toNat, BitVec.setWidth_eq]
  rfl

theorem laneNums_nodup : laneNums.Nodup := List.nodup_range

theorem select_nodup {sp0 sp : Span} {I : List Nat} {a : Word} (h : sp0.select = some (sp, I, a)) : I.Nodup := by
  simp only [Span.select] at h
  split at h
  · cases h
  · simp only [Option.some.injEq, Prod.mk.injEq] at h
    obtain ⟨rfl, rfl, rfl⟩ := h
    refine List.Nodup.filter _ (List.Nodup.filter _ ?_)
    split <;> exact laneNums_nodup.filter _

/-! Calls (R82). -/

/-- A lane that a call has entered. -/
def Lane.entered (t : Word) (ln : Lane) : Lane := { ln with pc := t, depth := ln.depth + 1 }

theorem foldl_setV64_onLane (d : Nat) (x : Word) (k : Nat) (f : Lane → Lane) (G : List Nat) (t : Span) :
    G.foldl (fun t l => t.setV64 d l x) (t.onLane k f) = (G.foldl (fun t l => t.setV64 d l x) t).onLane k f := by
  induction G generalizing t with
  | nil => rfl
  | cons l G ih => exact ih (t.setV64 d l x)

/-- The links of a call's lanes and their moves do not meet. -/
theorem foldl_call_eq (d : BitVec 8) (a : Word) (dest : Nat → Word) (G : List Nat) (t : Span) : G.foldl (fun t l => t.call d a (dest l) l) t =
    G.foldl (fun t l => t.onLane l (Lane.entered (dest l))) (G.foldl (fun t l => t.setV64 d.toNat l (a + 8)) t) := by
  induction G generalizing t with
  | nil => rfl
  | cons l G ih =>
    simp only [List.foldl_cons]
    rw [ih, ← foldl_setV64_onLane]
    rfl

section
variable (d : BitVec 8) (a : Word) (dest : Nat → Word) {G : List Nat} (t : Span)

theorem foldl_call_writes (hG : ∀ l ∈ G, l < 32) :
    WritesV 2 d.toNat G (fun _ => a + 8) t (G.foldl (fun t l => t.call d a (dest l) l) t) := by
  obtain ⟨hwrites, -⟩ := foldl_writesV (fun t l => t.setV64 d.toNat l (a + 8)) 2 d.toNat (fun _ => a + 8)
    (fun t l r l' hl hl' => v_setV64 t _ _ _ _ _ hl hl') (fun _ _ => setV64_sregs ..) (fun _ _ => setV64_body ..) G hG t
  have hrest := foldl_onLane_rest (fun l => Lane.entered (dest l)) G (G.foldl (fun t l => t.setV64 d.toNat l (a + 8)) t)
  rw [foldl_call_eq]
  generalize G.foldl (fun t l => t.setV64 d.toNat l (a + 8)) t = u at hwrites hrest
  generalize G.foldl (fun t l => t.onLane l (Lane.entered (dest l))) u = v at hrest
  have hscalars := congrArg Span.sregs hrest
  have hflags := congrArg Span.qs hrest
  have hvectors := congrArg Span.vregs hrest
  have hv (r l : Nat) : v.v r l = u.v r l := congrArg (fun m => sget 0 m (32 * r + l)) hvectors
  exact ⟨hscalars.trans hwrites.scalars, hflags.trans hwrites.flags, fun r l hl => (hv r l).trans (hwrites.regs r l hl)⟩

theorem lanes_foldl_setV64 (x : Word) (G : List Nat) (t : Span) : (G.foldl (fun t l => t.setV64 d.toNat l x) t).lanes = t.lanes := by
  induction G generalizing t with
  | nil => rfl
  | cons l G ih => exact ih (t.setV64 d.toNat l x)

theorem lane_foldl_call (hnodup : G.Nodup) (l : Nat) : (G.foldl (fun t l => t.call d a (dest l) l) t).lane l =
    if l ∈ G ∧ l < t.lanes.length then Lane.entered (dest l) (t.lane l) else t.lane l := by
  have hlanes := lanes_foldl_setV64 d (a + 8) G t
  rw [foldl_call_eq, lane_foldl_onLane_each _ hnodup, Span.lane, hlanes]
  rfl

theorem foldl_call_frame (G : List Nat) : (G.foldl (fun t l => t.call d a (dest l) l) t).frame = t.frame :=
  foldl_frame (fun t l => t.call d a (dest l) l) (fun t l => by rw [Span.call, onLane_frame, setV64_frame]) G t

theorem foldl_onLane_length (f : Nat → Lane → Lane) (G : List Nat) (t : Span) :
    (G.foldl (fun t l => t.onLane l (f l)) t).lanes.length = t.lanes.length := by
  induction G generalizing t with
  | nil => rfl
  | cons l G ih => exact (ih _).trans (onLane_length ..)

theorem foldl_call_length (G : List Nat) : (G.foldl (fun t l => t.call d a (dest l) l) t).lanes.length = t.lanes.length := by
  rw [foldl_call_eq, foldl_onLane_length, lanes_foldl_setV64]

end

/-! Words that leave the lanes of their issue where their fields say. -/

section
variable {i : Instr} {s : State} {sp0 sp : Span} {I : List Nat} {a : Word}

/-- A change of the lanes that act, after the lanes of the issue have moved on. -/
theorem splitLanes_of {t u : Span} {G J : List Nat} {f g : Nat → Lane → Lane} (hlt : ∀ l ∈ G, l < sp.lanes.length) (hsub : ∀ l ∈ G, l ∈ J)
    (ht : Goes sp t J a) (hcount : u.lanes.length = t.lanes.length)
    (hu : ∀ l, u.lane l = if l ∈ G ∧ l < t.lanes.length then f l (t.lane l) else t.lane l)
    (hfg : ∀ l ln, f l { ln with pc := a + 8 } = g l ln) : Lanes sp u (splitLanes G J a g) := by
  refine ⟨hcount.trans ht.count, fun l => ?_⟩
  rw [hu, ht.count, ht.lane]
  unfold splitLanes
  by_cases hG : l ∈ G
  · rw [if_pos ⟨hG, hlt l hG⟩, if_pos hG, if_pos (hsub l hG), hfg]
  · rw [if_neg fun hk => hG hk.1, if_neg hG]

/-- A word that changes lanes and no register. -/
theorem becomes_lanes {recl : Iss → Nat → Bool} {f : Iss → Lane → Lane} {g : Lane → Lane} (h : Clear i s sp0 sp I a)
    (he : exec i s = regOp i { recl := recl } (fun j t => t.onLanes j.G (f j)) s) (hfg : ∀ ln, f (At i sp I a) { ln with pc := a + 8 } = g ln) :
    Becomes i s sp fun sp' => KeepsRegs sp sp' ∧ sp'.qs = sp.qs ∧ Lanes sp sp' (splitLanes (acting i sp I) I a fun _ => g) := by
  obtain ⟨hcount, hlane⟩ := moved_splitLanes (f := f (At i sp I a)) (g := fun _ => g) h.toIssuing fun l _ => hfg (sp.lane l)
  exact becomes_regOp he h (fun _ => rfl) nofun nofun rfl rfl rfl ⟨⟨rfl, rfl⟩, rfl, hcount, hlane⟩

theorem nop_becomes {x : RRR} (h : Clear (.nop x) s sp0 sp I a) :
    Becomes (.nop x) s sp fun sp' => Goes sp sp' I a ∧ KeepsRegs sp sp' ∧ sp'.qs = sp.qs := by
  obtain ⟨hcount, hlane⟩ := moved_goes h.toIssuing (acting (.nop x) sp I)
  exact becomes_of (f := fun _ t => t) rfl h (fun _ => rfl) ⟨⟨hcount, hlane⟩, ⟨rfl, rfl⟩, rfl⟩

theorem deepCall_none (hdepth : ∀ l ∈ acting i sp I, (sp.lane l).depth ≠ 255) : deepCall (At i sp I a) = none := by
  have hany : (acting i sp I).any (fun l => decide ((sp.lane l).depth = 255)) = false := by
    rw [List.any_eq_false]
    exact fun l hl hd => hdepth l hl (of_decide_eq_true hd)
  simp only [deepCall, hany, Bool.false_eq_true, if_false]

theorem deepCall_depth (hdepth : ∃ l ∈ acting i sp I, (sp.lane l).depth = 255) : deepCall (At i sp I a) = some .depth := by
  obtain ⟨l, hl, hd⟩ := hdepth
  have hany : (acting i sp I).any (fun l => decide ((sp.lane l).depth = 255)) = true := List.any_eq_true.2 ⟨l, hl, decide_eq_true hd⟩
  simp only [deepCall, hany, if_true]

theorem call_becomes {x : RIB} (h : Clear (.call x) s sp0 sp I a) (hdepth : ∀ l ∈ acting (.call x) sp I, (sp.lane l).depth ≠ 255) :
    Becomes (.call x) s sp fun sp' => WritesV 2 x.d.toNat (acting (.call x) sp I) (fun _ => a + 8) sp sp' ∧
      Lanes sp sp' (splitLanes (acting (.call x) sp I) I a fun _ => Lane.entered (branchTo a x.off)) := by
  have hmoved := moved_goes h.toIssuing (acting (.call x) sp I)
  have hwrites := foldl_call_writes x.d a (fun _ => relTarget a x.off) (At (.call x) sp I a).moved (acting_lt (i := .call x) h.select)
  obtain ⟨hcount, hlane⟩ := splitLanes_of (G := acting (.call x) sp I) (f := fun _ => Lane.entered (relTarget a x.off))
    (g := fun _ => Lane.entered (branchTo a x.off)) (fun l hl => select_lt h.select (acting_subset _ l hl)) (acting_subset _) hmoved
    (foldl_call_length x.d a (fun _ => relTarget a x.off) (At (.call x) sp I a).moved (acting (.call x) sp I))
    (fun l => lane_foldl_call x.d a (fun _ => relTarget a x.off) _ ((select_nodup h.select).filter _) l) fun _ ln => by rw [branchTo_eq]; rfl
  exact becomes_regOp (r := { own := fun _ i => deepCall i, recl := fun i l => i.G.contains l })
    (f := fun i t => i.G.foldl (fun t l => t.call x.d i.a (relTarget i.a x.off) l) t) rfl h
    (fun t => foldl_call_frame x.d a (fun _ => relTarget a x.off) t _) nofun nofun rfl (deepCall_none hdepth) rfl
    ⟨⟨hwrites.scalars, hwrites.flags, hwrites.regs⟩, hcount, hlane⟩

end

/-! Words whose targets may be misaligned (R81). -/

/-- The lanes of an issue that do not fault. -/
def unfaulted (x : Iss) (target : Nat → Word) : List Nat := x.I.filter fun l => !(x.G.contains l && badTarget (target l))

/-- The word `i` leaves its span as `P` says of the lanes whose target is good, those being steered by `g`; then the others that act fault, and
what follows at once from all that happens. -/
def Steers (i : Instr) (target : Nat → Word) (s : State) (sp : Span) (I : List Nat) (a : Word) (g : Nat → Lane → Lane) (P : List Nat → Span → Prop) :
    Prop :=
  ∃ sp', exec i s = .next (((faultTargets (s.putSpan sp') (At i sp I a) target).settle sp.id).issued i (At i sp I a)) ∧ sp'.frame = sp.frame ∧
    P (goodLanes (At i sp I a) target) sp' ∧
    Lanes sp sp' (splitLanes (goodLanes (At i sp I a) target) (unfaulted (At i sp I a) target) a g)

section
variable {i : Instr} {s : State} {sp0 sp : Span} {I : List Nat} {a : Word} (target : Nat → Word)

theorem goodLanes_eq : goodLanes (At i sp I a) target = (acting i sp I).filter fun l => decide ((target l).toNat % 8 = 0) :=
  List.filter_congr fun l _ => by simp [badTarget]

theorem unfaulted_eq : unfaulted (At i sp I a) target =
    I.filter fun l => decide (l ∉ (acting i sp I).filter fun l => decide ((target l).toNat % 8 ≠ 0)) :=
  List.filter_congr fun l _ => by
    rw [Bool.eq_iff_iff]
    simp [badTarget]

theorem goodLanes_all (hgood : ∀ l ∈ acting i sp I, (target l).toNat % 8 = 0) : goodLanes (At i sp I a) target = acting i sp I := by
  rw [goodLanes_eq, List.filter_eq_self]
  exact fun l hl => decide_eq_true (hgood l hl)

theorem faultTargets_none (hgood : ∀ l ∈ acting i sp I, (target l).toNat % 8 = 0) (u : State) : faultTargets u (At i sp I a) target = u := by
  have hbad : (acting i sp I).filter (fun l => badTarget (target l)) = [] := by
    rw [List.filter_eq_nil_iff]
    exact fun l hl => by simp [badTarget, hgood l hl]
  rw [faultTargets, hbad]
  rfl

theorem unfaulted_all (hgood : ∀ l ∈ acting i sp I, (target l).toNat % 8 = 0) : unfaulted (At i sp I a) target = I := by
  rw [unfaulted_eq, List.filter_eq_self]
  intro l _
  have hnot : l ∉ (acting i sp I).filter fun l => decide ((target l).toNat % 8 ≠ 0) := by
    rw [List.mem_filter]
    rintro ⟨hl, hbad⟩
    exact of_decide_eq_true hbad (hgood l hl)
  exact decide_eq_true hnot

theorem goodLanes_subset (l : Nat) (hl : l ∈ goodLanes (At i sp I a) target) : l ∈ acting i sp I := (List.mem_filter.1 hl).1

theorem goodLanes_unfaulted (l : Nat) (hl : l ∈ goodLanes (At i sp I a) target) : l ∈ unfaulted (At i sp I a) target := by
  obtain ⟨hact, hgood⟩ := List.mem_filter.1 hl
  refine List.mem_filter.2 ⟨acting_subset _ l hact, ?_⟩
  rw [Bool.not_eq_true'] at hgood
  simp [hgood]

/-- The lanes that do not fault move on. -/
theorem movedBut_goes (h : Issuing s sp0 sp I a) :
    Goes sp (movedBut (At i sp I a) target) (unfaulted (At i sp I a) target) a := by
  refine ⟨onLanes_lanes_length _ _ _, fun l => ?_⟩
  rw [movedBut, lane_onLanes]
  by_cases hl : l ∈ unfaulted (At i sp I a) target
  · rw [if_pos hl, if_pos ⟨hl, select_lt h.select (List.mem_filter.1 hl).1⟩]
  · rw [if_neg hl]
    exact if_neg fun hk => hl hk.1

variable {target}

theorem Steers.settles {g : Nat → Lane → Lane} {P : List Nat → Span → Prop} (h : Steers i target s sp I a g P)
    (hgood : ∀ l ∈ acting i sp I, (target l).toNat % 8 = 0) :
    Settles i s sp I a fun sp' => P (acting i sp I) sp' ∧ Lanes sp sp' (splitLanes (acting i sp I) I a g) := by
  obtain ⟨sp', hexec, hframe, hP, hlanes⟩ := h
  rw [faultTargets_none target hgood] at hexec
  rw [goodLanes_all target hgood] at hP hlanes
  rw [unfaulted_all target hgood] at hlanes
  exact ⟨sp', hexec, of_frame hframe, hP, hlanes⟩

/-- A word whose effect is on the span `sp'` before the lanes with bad targets fault. -/
theorem steers_of {r : Rules} {body : State → Iss → State} {g : Nat → Lane → Lane} {P : List Nat → Span → Prop} (sp' : Span)
    (h : Clear i s sp0 sp I a) (he : exec i s = issue i r body s)
    (hbody : body s (At i sp I a) = (faultTargets (s.putSpan sp') (At i sp I a) target).settle sp.id)
    (hp : r.priv s (At i sp I a) = true → sp.hmode = true) (hw : r.whole = true → I = sp.lanesIn (!·.ended))
    (hu : r.unsync s (At i sp I a) = false) (ho : r.own s (At i sp I a) = none) (hr : r.ready s (At i sp I a) = true)
    (hframe : sp'.frame = sp.frame) (hP : P (goodLanes (At i sp I a) target) sp')
    (hlanes : Lanes sp sp' (splitLanes (goodLanes (At i sp I a) target) (unfaulted (At i sp I a) target) a g)) : Steers i target s sp I a g P := by
  refine ⟨sp', ?_, hframe, hP, hlanes⟩
  rw [he, issue_clear h hp hw hu ho hr]
  exact congrArg (fun t : State => Host.Outcome.next (t.issued i (At i sp I a))) hbody

theorem goodLanes_lt (h : Issuing s sp0 sp I a) (l : Nat) (hl : l ∈ goodLanes (At i sp I a) target) : l < sp.lanes.length :=
  select_lt h.select (acting_subset _ l (goodLanes_subset target l hl))

theorem goodLanes_nodup (h : Issuing s sp0 sp I a) : (goodLanes (At i sp I a) target).Nodup := ((select_nodup h.select).filter _).filter _

/-- The lanes with good targets steered one after the other, no register written. -/
theorem foldl_onLane_steers (f g : Nat → Lane → Lane) (h : Issuing s sp0 sp I a) (hfg : ∀ l ln, f l { ln with pc := a + 8 } = g l ln) {sp' : Span}
    (hsp : sp' = (goodLanes (At i sp I a) target).foldl (fun t l => t.onLane l (f l)) (movedBut (At i sp I a) target)) :
    sp'.frame = sp.frame ∧ (KeepsRegs sp sp' ∧ sp'.qs = sp.qs) ∧
      Lanes sp sp' (splitLanes (goodLanes (At i sp I a) target) (unfaulted (At i sp I a) target) a g) := by
  have hrest := foldl_onLane_rest f (goodLanes (At i sp I a) target) (movedBut (At i sp I a) target)
  rw [← hsp] at hrest
  have hframe := congrArg Span.frame hrest
  have hvectors := congrArg Span.vregs hrest
  have hscalars := congrArg Span.sregs hrest
  have hflags := congrArg Span.qs hrest
  refine ⟨hframe, ⟨⟨hvectors, hscalars⟩, hflags⟩, splitLanes_of (f := f) (goodLanes_lt h) (goodLanes_unfaulted target) (movedBut_goes target h) ?_ ?_ hfg⟩
  · rw [hsp]
    exact foldl_onLane_length ..
  · rw [hsp]
    exact fun l => lane_foldl_onLane_each f (goodLanes_nodup h) _ l

end

section
variable {s : State} {sp0 sp : Span} {I : List Nat} {a : Word} {x : RRR}

theorem brx_steers (h : Clear (.brx x) s sp0 sp I a) : Steers (.brx x) (sp.target x) s sp I a (fun l => jumped (sp.target x l) (x.bit 0))
    fun _ sp' => KeepsRegs sp sp' ∧ sp'.qs = sp.qs := by
  have he : exec (.brx x) s = execBrx x s := rfl
  obtain ⟨hframe, hregs, hlanes⟩ := foldl_onLane_steers (i := .brx x) (target := sp.target x) (fun l ln => ln.jump (sp.target x l) (x.bit 0))
    (fun l => jumped (sp.target x l) (x.bit 0)) h.toIssuing (fun _ _ => rfl) rfl
  exact steers_of _ h he rfl nofun nofun rfl rfl rfl hframe hregs hlanes

theorem ret_steers (h : Clear (.ret x) s sp0 sp I a) (hdepth : ∀ l ∈ acting (.ret x) sp I, (sp.lane l).depth ≠ 0) :
    Steers (.ret x) (sp.target x) s sp I a (fun l ln => { ln with pc := sp.target x l, depth := ln.depth - 1 })
      fun _ sp' => KeepsRegs sp sp' ∧ sp'.qs = sp.qs := by
  have he : exec (.ret x) s = execRet x s := rfl
  have hany : (acting (.ret x) sp I).any (fun l => decide ((sp.lane l).depth = 0)) = false := by
    rw [List.any_eq_false]
    exact fun l hl hd => hdepth l hl (of_decide_eq_true hd)
  obtain ⟨hframe, hregs, hlanes⟩ := foldl_onLane_steers (i := .ret x) (target := sp.target x)
    (fun l ln => { ln with pc := sp.target x l, depth := ln.depth - 1 }) (fun l ln => { ln with pc := sp.target x l, depth := ln.depth - 1 })
    h.toIssuing (fun _ _ => rfl) rfl
  exact steers_of _ h he rfl nofun nofun rfl (if_neg (by rw [hany]; decide)) rfl hframe hregs hlanes

theorem callx_steers (h : Clear (.callx x) s sp0 sp I a) (hdepth : ∀ l ∈ acting (.callx x) sp I, (sp.lane l).depth ≠ 255) :
    Steers (.callx x) (sp.target x) s sp I a (fun l => Lane.entered (sp.target x l)) fun G sp' => WritesV 2 x.d.toNat G (fun _ => a + 8) sp sp' := by
  have he : exec (.callx x) s = execCallx x s := rfl
  have hwrites := foldl_call_writes x.d a (sp.target x) (movedBut (At (.callx x) sp I a) (sp.target x))
    (G := goodLanes (At (.callx x) sp I a) (sp.target x)) fun l hl => acting_lt h.select l (goodLanes_subset _ l hl)
  refine steers_of _ h he rfl nofun nofun rfl (deepCall_none hdepth) rfl (foldl_call_frame ..) ⟨hwrites.scalars, hwrites.flags, hwrites.regs⟩ ?_
  exact splitLanes_of (f := fun l => Lane.entered (sp.target x l)) (goodLanes_lt h.toIssuing) (goodLanes_unfaulted _) (movedBut_goes _ h.toIssuing)
    (foldl_call_length ..) (fun l => lane_foldl_call _ _ _ _ (goodLanes_nodup h.toIssuing) l) fun _ _ => rfl

end

/-- Settles O9: NOP, BRA, BRQ, YIELD and CALL change their span alone; the lanes that BRX, CALLX and RET steer are those whose target is good, and
DEPTH is these words' own cause. -/
theorem branches : Obligations.branches := by
  refine ⟨fun s sp0 sp I a => ⟨fun x h => nop_becomes h, fun x h => ?bra, fun x h => ?brq, fun x h => ?yield, fun x h hd => call_becomes h hd⟩,
    fun s sp0 sp I a x => ⟨fun h hg => ?brx, fun h hg => ?callx, fun h hg => ?ret⟩,
    fun s sp0 sp I a x => ⟨fun h => ?brxBad, fun h hd => ?callxBad, fun h hd => ?retBad⟩, ?depth⟩
  case bra => exact becomes_lanes (f := fun i ln => ln.jump (relTarget i.a x.off) x.y) h rfl fun ln => by rw [branchTo_eq]; rfl
  case brq => exact becomes_lanes (f := fun i ln => ln.jump (relTarget i.a x.off) x.y) h rfl fun ln => by rw [branchTo_eq]; rfl
  case yield => exact becomes_lanes (recl := fun _ _ => false) (f := fun i ln => ln.jump (i.a + 8) true) h rfl fun _ => rfl
  case brx =>
    obtain ⟨sp', hexec, hsame, ⟨hregs, hflags⟩, hlanes⟩ := (brx_steers h).settles hg
    exact ⟨sp', hexec, hsame, hregs, hflags, hlanes⟩
  case callx => exact (callx_steers h fun l hl => (hg l hl).2).settles fun l hl => (hg l hl).1
  case ret =>
    obtain ⟨sp', hexec, hsame, ⟨hregs, hflags⟩, hlanes⟩ := (ret_steers h fun l hl => (hg l hl).2).settles fun l hl => (hg l hl).1
    exact ⟨sp', hexec, hsame, hregs, hflags, hlanes⟩
  case brxBad =>
    obtain ⟨sp', hexec, -, ⟨hregs, -⟩, hlanes⟩ := brx_steers h
    rw [goodLanes_eq, unfaulted_eq] at hlanes
    exact ⟨sp', hexec, hregs, hlanes⟩
  case callxBad =>
    obtain ⟨sp', hexec, -, hwrites, hlanes⟩ := callx_steers h hd
    rw [goodLanes_eq] at hwrites hlanes
    rw [unfaulted_eq] at hlanes
    exact ⟨sp', hexec, hwrites, hlanes⟩
  case retBad =>
    obtain ⟨sp', hexec, -, ⟨hregs, -⟩, hlanes⟩ := ret_steers h hd
    rw [goodLanes_eq, unfaulted_eq] at hlanes
    exact ⟨sp', hexec, hregs, hlanes⟩
  case depth =>
    rintro i n s sp0 sp I a (⟨x, rfl, rfl⟩ | ⟨x, rfl, rfl⟩ | ⟨x, rfl, rfl⟩) h hdepth
    · have he : exec (.call x) s = execCall x s := rfl
      rw [execCall, regOp] at he
      exact own_traps h he (fun _ => rfl) rfl (fun _ => rfl) (deepCall_depth hdepth)
    · have he : exec (.callx x) s = execCallx x s := rfl
      exact own_traps h he (fun _ => rfl) rfl (fun _ => rfl) (deepCall_depth hdepth)
    · have he : exec (.ret x) s = execRet x s := rfl
      obtain ⟨l, hl, hd⟩ := hdepth
      have hany : (acting (.ret x) sp I).any (fun l => decide ((sp.lane l).depth = 0)) = true := List.any_eq_true.2 ⟨l, hl, decide_eq_true hd⟩
      exact own_traps h he (fun _ => rfl) rfl (fun _ => rfl) (if_pos hany)

end Sys2Proof.Machine
end

section
/-! SUPPORT. What follows from a change of a span leaves of every span all but its execution: the frame of `State.settle`, registers of vectors
among it. -/

namespace Sys2Proof.Machine

/-! What outlasts the operations of a settlement. -/

/-- What of a span outlasts all that follows at once from a change: its vector registers and results among it, but not its lanes, what it has in
flight to memory, its traps and its holds. -/
def Span.lasting (sp : Span) : Span :=
  { sp with
    status := .running, lanes := [], sregs := [], qs := 0, landing := [], unsent := [], joining := [], want := 0, checks := [], arrivals := []
    hmode := false, cause := none, first := none, entered := none, due := false, hcause := none, stop := none, trap := none, records := []
    drafts := [], wHold := false, pHold := false, checkOp := none, tlbi := none, preempt := none, point := none, resv := none, epoch := 0
    view := [], heard := [], planesAt := [] }

/-- What outlasts a change is the same. -/
structure Span.Lasts (sp sp' : Span) : Prop where
  same : sp'.lasting = sp.lasting

theorem Span.Lasts.refl (sp : Span) : sp.Lasts sp := ⟨rfl⟩

theorem Span.Lasts.trans {a b c : Span} (h : a.Lasts b) (g : b.Lasts c) : a.Lasts c := ⟨g.same.trans h.same⟩

theorem Span.Lasts.vregs_eq {sp sp' : Span} (h : sp.Lasts sp') : sp'.vregs = sp.vregs := by
  have hf := congrArg Span.vregs h.same
  exact hf

/-- The same of every span. -/
def State.Lasts : State → State → Prop := State.Each Span.Lasts

namespace State.Lasts

variable {s t u : State}

theorem refl (s : State) : s.Lasts s := Each.refl Span.Lasts.refl s
theorem trans (h : s.Lasts t) (g : t.Lasts u) : s.Lasts u := Each.trans Span.Lasts.trans h g
/-- The spans stay as they are. -/
theorem of_spans (h : s.Lasts t) (hu : u.spans = t.spans) : s.Lasts u := h.trans (Each.of_spans Span.Lasts.refl hu)
/-- Every span changes by a rule. -/
theorem of_map (h : s.Lasts t) {g : Span → Span} (hid : ∀ sp, (g sp).id = sp.id) (hg : ∀ sp : Span, sp.Lasts (g sp)) (hu : u.spans = t.spans.map g) :
    s.Lasts u := h.trans (Each.of_map hid hg hu)
/-- One span changes by a rule. -/
theorem onSpan (h : s.Lasts t) {id : Nat} {f : Span → Span} (hid : ∀ sp, (f sp).id = sp.id) (hf : ∀ sp : Span, sp.Lasts (f sp)) :
    s.Lasts (t.onSpan id f) := h.trans (Each.onSpan Span.Lasts.refl hid hf)
/-- Operations one after another. -/
theorem foldl (h : s.Lasts t) {α : Type} {f : State → α → State} {l : List α} (hf : ∀ t a, State.Lasts t (f t a)) : s.Lasts (l.foldl f t) :=
  h.trans (Each.foldl Span.Lasts.refl Span.Lasts.trans hf l t)

theorem of_logs (h : State.Each Span.Logs s t) : s.Lasts t := fun id sp hs =>
  have ⟨sp', hs', hlog⟩ := h id sp hs
  ⟨sp', hs', ⟨by have hf := congrArg Span.lasting hlog.rest; exact hf⟩⟩

theorem of_spares (h : s.Spares t) : s.Lasts t := of_logs (Span.Logs.each_of_spares h)

end State.Lasts

/-! Views and the order of `.seq` events (R155, R159). -/

theorem advance_lasts (s : State) (id : Nat) (sc : Scope) : s.Lasts (s.advance id sc) := by
  unfold State.advance
  split
  · exact (State.Lasts.refl s).onSpan (fun _ => rfl) fun _ => ⟨rfl⟩
  · exact .refl s

theorem seqEvent_lasts (s : State) (id : Nat) (x : SeqEvent) (missed : View) : s.Lasts (s.seqEvent id x missed) := by
  unfold State.seqEvent
  split
  · exact .refl s
  · exact State.Lasts.onSpan ((State.Lasts.refl s).of_spans rfl) (fun _ => rfl) fun _ => ⟨rfl⟩

theorem learnAll_lasts (x : SeqEvent) (ys : List SeqEvent) (sp : Span) : (sp.learnAll x ys).id = sp.id ∧ sp.Lasts (sp.learnAll x ys) := by
  unfold Span.learnAll
  induction ys generalizing sp with
  | nil => exact ⟨rfl, .refl sp⟩
  | cons y r ih =>
    rw [List.foldl_cons]
    split
    · refine ⟨(ih _).1, Span.Lasts.trans ?_ (ih _).2⟩
      exact ⟨rfl⟩
    · exact ih sp

theorem seqFence_lasts (s : State) (id seq : Nat) (sc : Scope) : s.Lasts (s.seqFence id seq sc) := by
  unfold State.seqFence
  split
  · exact .refl s
  · refine State.Lasts.of_map (State.Lasts.trans ?_ (advance_lasts _ id sc)) (g := Span.learnAll _ _) (fun sp => (learnAll_lasts _ _ sp).1)
      (fun sp => (learnAll_lasts _ _ sp).2) rfl
    exact (seqEvent_lasts s id _ []).onSpan (fun _ => rfl) fun _ => ⟨rfl⟩

/-! Shadow lines (R178). -/

theorem mergeShadow_lasts (s : State) (h : Shadow) : s.Lasts (s.mergeShadow h) := by
  unfold State.mergeShadow
  split
  · exact (State.Lasts.refl s).of_spans rfl
  · refine State.Lasts.foldl ?_ fun t e => ?_
    · exact (State.Lasts.refl s).of_spans rfl
    · refine State.Lasts.foldl ?_ fun u b => (State.Lasts.refl u).of_spans rfl
      exact (State.Lasts.of_spares (poke_spares t _ _)).of_spans rfl

theorem mergeBlock_lasts (s : State) (b : Nat × Nat) : s.Lasts (s.mergeBlock b) := by
  unfold State.mergeBlock State.mergeAll
  exact (State.Lasts.refl s).foldl fun t _ => (State.Lasts.refl t).foldl mergeShadow_lasts

theorem mergeFor_lasts (s : State) (id : Nat) : s.Lasts (s.mergeFor id) := by
  unfold State.mergeFor
  split
  exacts [.refl s, mergeBlock_lasts s _]

/-! Barriers (R199 to R205). -/

theorem mapLanes_lasts (s : State) (f : Span → Nat → Lane → Lane) : s.Lasts (s.mapLanes f) :=
  (State.Lasts.refl s).of_map (g := fun sp => { sp with lanes := imap (f sp) 0 sp.lanes }) (fun _ => rfl) (fun _ => ⟨rfl⟩) rfl

theorem wakeBar_lasts (s : State) (key : BarKey) (phase : Option Nat) (broken : Bool) (view : View) : s.Lasts (s.wakeBar key phase broken view) := by
  have hrecord : s.Lasts (if broken then
      { s with spans := s.spans.map fun sp => if sp.lanes.any (fun ln => (waitsAt key phase ln.wait).isSome) then sp.record .barbroken else sp } else s) := by
    split
    · refine (State.Lasts.refl s).of_map (fun sp => ?_) (fun sp => ⟨?_⟩) rfl <;> split <;> rfl
    · exact .refl s
  unfold State.wakeBar
  refine State.Lasts.trans (hrecord.of_map (fun sp => ?_) (fun sp => ⟨?_⟩) rfl) (mapLanes_lasts _ _)
  all_goals
    split
    · rfl
    · split <;> rfl

theorem testBar_lasts (s : State) (key : BarKey) : s.Lasts (s.testBar key) := by
  unfold State.testBar
  dsimp only
  split
  · split
    · exact ((State.Lasts.refl s).of_spans (spans_putBar _ _)).trans (wakeBar_lasts _ _ _ _ _)
    · exact .refl s
  · exact .refl s

theorem arrive_lasts (s : State) (id : Nat) (key : BarKey) (count : Option Nat) (lanes : List Nat) (seq : Nat) :
    s.Lasts (s.arrive id key count lanes seq) := by
  unfold State.arrive
  dsimp only
  split
  · refine State.Lasts.trans ?_ (wakeBar_lasts _ key none true [])
    refine State.Lasts.onSpan ?_ (fun _ => rfl) fun _ => ⟨rfl⟩
    exact (State.Lasts.refl s).onSpan (fun _ => rfl) fun _ => ⟨rfl⟩
  · refine State.Lasts.trans (State.Lasts.of_spans ?_ (spans_putBar _ _)) (testBar_lasts _ key)
    exact (State.Lasts.refl s).onSpan (fun _ => rfl) fun _ => ⟨rfl⟩

theorem breakBlock_lasts (s : State) (b : Nat × Nat) : s.Lasts (s.breakBlock b) := by
  unfold State.breakBlock
  exact ((State.Lasts.refl s).of_spans (spans_onBlock s b _)).foldl fun t n => wakeBar_lasts t (blockKey b n) none true []

theorem hearObj_lasts (s : State) (id obj : Nat) : s.Lasts (s.hearObj id obj) := by
  unfold State.hearObj
  split
  · exact .refl s
  · exact (State.Lasts.refl s).onSpan (fun _ => rfl) fun _ => ⟨rfl⟩

theorem wakeMb_lasts (s : State) (b : Nat × Nat) (obj : Nat) (m : MBar) (init : Bool) : s.Lasts (s.wakeMb b obj m init) := by
  unfold State.wakeMb
  dsimp only
  refine State.Lasts.trans (State.Lasts.of_spans ?_ rfl) (mapLanes_lasts _ _)
  exact (State.Lasts.refl s).foldl fun t (sp : Span) => hearObj_lasts t sp.id obj

theorem mbChange_lasts (s : State) (b : Nat × Nat) (obj : Nat) (f : MBar → MBar) : s.Lasts (s.mbChange b obj f) := by
  unfold State.mbChange
  split
  · exact .refl s
  · dsimp only
    split
    · refine State.Lasts.trans ((State.Lasts.refl s).of_spans ?_) (wakeMb_lasts _ b obj _ false)
      rw [spans_wrote, spans_onBlock]
    · exact (State.Lasts.refl s).of_spans rfl

/-! Notices, records and events (R21, R22, R144). -/

theorem notify_lasts (s : State) (ctx : Nat) (why : Park) (who : Waiter) (pages : List Nat) : s.Lasts (s.notify ctx why who pages) :=
  (State.Lasts.refl s).of_spans (notify_spec s ctx why who pages).1

theorem retryRecords_lasts (s : State) (id : Nat) : s.Lasts (s.retryRecords id) := by
  unfold State.retryRecords
  split
  · exact .refl s
  · split
    · exact .refl s
    · refine State.Lasts.foldl ?_ fun t r => .of_logs (writeRecord_logs t id _ _ _)
      exact (State.Lasts.refl s).onSpan (fun _ => rfl) fun _ => ⟨rfl⟩

theorem putDrafts_lasts (s : State) (id : Nat) : s.Lasts (s.putDrafts id) := by
  unfold State.putDrafts
  split
  · exact .refl s
  · split
    · exact .refl s
    · rename_i sp _ _ cx _
      refine State.Lasts.foldl ?_ fun t r => ?_
      · exact (State.Lasts.refl s).onSpan (fun _ => rfl) fun _ => ⟨rfl⟩
      have hwrite := State.Lasts.of_spares (deviceWrite_spares t (some sp.pier) cx (s.recordPlace sp cx r.1) r.2)
      dsimp only
      split <;> rename_i heq <;> rw [heq] at hwrite
      · exact hwrite.of_spans (spans_announceAt _ _ _ _ _ _ _)
      · refine State.Lasts.trans ?_ (notify_lasts _ _ _ _ _)
        exact hwrite.onSpan (fun _ => rfl) fun _ => ⟨rfl⟩
      · exact hwrite

theorem showRecords_lasts (s : State) (id : Nat) : s.Lasts (s.showRecords id) := by
  unfold State.showRecords
  split
  · exact .refl s
  · split
    · exact .refl s
    · exact (mergeFor_lasts s id).trans (putDrafts_lasts _ id)

theorem postEvent_lasts (s : State) (qid type body : Nat) (lidx slot : Option Nat) : s.Lasts (s.postEvent qid type body lidx slot) := by
  unfold State.postEvent
  dsimp only
  split
  · exact (State.Lasts.of_spares (poke_spares s _ _)).of_spans (spans_putQueue _ _)
  · split <;> exact (State.Lasts.refl s).of_spans (spans_putQueue _ _)

/-! Stops and traps (R20, R22, R39). -/

theorem settleStop_lasts (s : State) (id : Nat) : s.Lasts (s.settleStop id) := by
  unfold State.settleStop
  split
  · exact .refl s
  · split
    · split
      · exact .refl s
      · refine State.Lasts.onSpan (State.Lasts.trans ?_ (postEvent_lasts _ _ _ _ _ _)) (fun _ => rfl) fun _ => ⟨rfl⟩
        exact (mergeBlock_lasts s _).of_spans (spans_tellHost _ _ _)
    · exact .refl s

theorem stopSpan_lasts (s : State) (id : Nat) (c : Cause) : s.Lasts (s.stopSpan id c) := by
  unfold State.stopSpan
  split
  · exact .refl s
  · dsimp only
    refine ((State.Lasts.trans ?_ (retryRecords_lasts _ id)).trans (showRecords_lasts _ id)).trans (settleStop_lasts _ id)
    refine State.Lasts.of_spans (State.Lasts.trans (State.Lasts.of_spans ?_ (spans_onBlock _ _ _)) (breakBlock_lasts _ _)) (spans_onLaunch _ _ _)
    refine State.Lasts.onSpan (State.Lasts.of_spans ?_ (spans_dropAll _ _)) (fun _ => rfl) fun _ => ⟨rfl⟩
    refine (State.Lasts.refl s).foldl fun t l => (State.Lasts.refl t).of_spans ?_
    rw [spans_endLaneTask, spans_dropWait]

theorem takeTrap_lasts (s : State) (id : Nat) (r : TrapReq) : s.Lasts (s.takeTrap id r) := by
  unfold State.takeTrap
  split
  · exact .refl s
  · rename_i sp _
    dsimp only
    split
    · exact (State.Lasts.refl s).onSpan (fun _ => rfl) fun _ => ⟨rfl⟩
    · split
      · exact .refl s
      · rename_i cx _
        split
        · exact stopSpan_lasts s id _
        · have hwrite := State.Lasts.of_spares (deviceWrite_spares s (some sp.pier) cx (s.areas sp cx).1 (trapFrame sp r (sp.trapCause r)))
          split <;> rename_i heq <;> rw [heq] at hwrite
          · exact hwrite.onSpan (fun _ => rfl) fun _ => ⟨rfl⟩
          · exact hwrite.trans (stopSpan_lasts _ id _)
          · refine State.Lasts.trans ?_ (notify_lasts _ _ _ _ _)
            exact hwrite.onSpan (fun _ => rfl) fun _ => ⟨rfl⟩
          · exact hwrite

theorem settleTrap_lasts (s : State) (id : Nat) : s.Lasts (s.settleTrap id) := by
  unfold State.settleTrap
  split
  · exact .refl s
  · split
    · exact .refl s
    · split
      · exact takeTrap_lasts s id _
      · split
        exacts [takeTrap_lasts s id _, .refl s]

/-! What follows at once. -/

theorem writeSent_lasts (s : State) (pier : Nat) (e : Entry) : s.Lasts (s.writeSent pier e) := by
  unfold State.writeSent
  refine (State.Lasts.refl s).of_map (fun sp => ?_) (fun sp => ⟨?_⟩) rfl <;> split <;> rfl

theorem landingRound_lasts (s : State) (sp : Span) : sp.Lasts (s.landingRound sp) := ⟨rfl⟩

theorem landed_keeps (s : State) (sp : Span) : sp.Lasts (s.landed sp) :=
  Span.Lasts.trans ((landingRound_lasts s sp).trans (landingRound_lasts s _)) ⟨rfl⟩

/-- A span whose landing has gone on is put back, and its writes are sent. -/
theorem landed_lasts {s : State} {id : Nat} {sp sp' : Span} (hs : s.span? id = some sp) (hid : sp'.id = sp.id) (hsp : sp.Lasts sp') (sent : List Entry) :
    s.Lasts (sent.foldl (fun t e => t.writeSent sp.pier e) (s.putSpan sp')) := by
  refine State.Lasts.foldl (State.Each.putSpan Span.Lasts.refl ?_ hsp) fun t e => writeSent_lasts t sp.pier e
  rw [hid, span?_id hs, hs]

theorem settleLanding_lasts (s : State) (id : Nat) : s.Lasts (s.settleLanding id) := by
  unfold State.settleLanding
  split
  · exact .refl s
  · rename_i sp hs
    refine State.Lasts.foldl ?_ fun t e => seqFence_lasts t id _ _
    split
    · refine State.Lasts.trans ?_ (mergeFor_lasts _ id)
      exact landed_lasts hs (sp' := s.landed sp) rfl (landed_keeps s sp) _
    · exact landed_lasts hs (sp' := s.landed sp) rfl (landed_keeps s sp) _

theorem settleArrivals_lasts (s : State) (id n : Nat) : s.Lasts (s.settleArrivals id n) := by
  induction n generalizing s with
  | zero => exact .refl s
  | succ n ih =>
    unfold State.settleArrivals
    split
    · exact .refl s
    · split
      · exact .refl s
      · split
        · refine State.Lasts.trans ?_ (ih _)
          refine State.Lasts.trans ?_ (arrive_lasts _ _ _ _ _ _)
          refine State.Lasts.onSpan ?_ (fun _ => rfl) fun _ => ⟨rfl⟩
          split
          exacts [mergeFor_lasts s id, .refl s]
        · exact .refl s
      · split
        · refine State.Lasts.trans ?_ (ih _)
          refine State.Lasts.trans ?_ (mbChange_lasts _ _ _ _)
          refine State.Lasts.of_spans ?_ (spans_tellObj _ _ _ _)
          exact (State.Lasts.refl s).onSpan (fun _ => rfl) fun _ => ⟨rfl⟩
        · exact .refl s

theorem settleHolds_lasts (s : State) (id : Nat) : s.Lasts (s.settleHolds id) := by
  unfold State.settleHolds
  split
  · exact .refl s
  · refine (State.Lasts.refl s).onSpan (fun sp => ?_) fun sp => ⟨?_⟩ <;> dsimp only <;> split <;> rfl

theorem takeSlots_lasts (sp : Span) : sp.takeSlots.id = sp.id ∧ sp.Lasts sp.takeSlots := by
  unfold Span.takeSlots
  generalize laneNums = ls
  induction ls generalizing sp with
  | nil => exact ⟨rfl, .refl sp⟩
  | cons l r ih =>
    rw [List.foldl_cons]
    split
    · split
      · refine ⟨(ih _).1, Span.Lasts.trans ?_ (ih _).2⟩
        exact ⟨rfl⟩
      · exact ih _
    · exact ih _

theorem settleCvg_lasts (sp : Span) : sp.settleCvg.id = sp.id ∧ sp.Lasts sp.settleCvg := by
  unfold Span.settleCvg
  dsimp only
  split <;> exact ⟨rfl, ⟨rfl⟩⟩

/-- What follows at once from a change of a span leaves of every span what `Span.lasting` says. -/
theorem settle_lasts (s : State) (id : Nat) : s.Lasts (s.settle id) := by
  unfold State.settle
  split
  · exact .refl s
  · dsimp only
    have hland := (((settleLanding_lasts s id).trans (settleArrivals_lasts _ id 64)).trans (settleLanding_lasts _ id)).trans (settleHolds_lasts _ id)
    have hshow := (hland.trans (retryRecords_lasts _ id)).trans (showRecords_lasts _ id)
    have hcvg := (hshow.onSpan (id := id) (fun sp => (takeSlots_lasts sp).1) fun sp => (takeSlots_lasts sp).2).onSpan
      (id := id) (fun sp => (settleCvg_lasts sp).1) fun sp => (settleCvg_lasts sp).2
    exact ((hcvg.trans (settleTrap_lasts _ id)).trans (settleStop_lasts _ id)).onSpan (fun _ => rfl) fun _ => ⟨rfl⟩

end Sys2Proof.Machine
end

section
/-! SUPPORT. An FJOIN of three registers, to which a result is delivered in one; and the obligation that says it is delivered in three (R323). -/

namespace Sys2Proof.Machine

/-! The state of the counterexample: span 0, whose only lane waits in an FJOIN on a future that is done. The lane's registers all read 0, and
the result is all ones. -/

namespace TripleJoin

def handle : Word := 2 ^ 36 + 1

def join : Join := { handle := handle, reg := 0, n := 3, drop := false, slot := true, poll := 0, asked := true }

def span : Span :=
  { id := 0, uid := 1, ctx := 1, part := 0, launch := 0, blk := 0, idx := 0, role := 0, budget := 4,
    lanes := [{ st := .waiting, pc := 0, wait := some (.join join) }] }

def future : Future := { part := 0, die := 0, slot := 1, serial := 1, count := 1, wait := 1, st := .done, result := BitVec.allOnes 128 }

def state : State := { spans := [span], futs := [future] }

/-- The delivery leaves the second of the three registers as it was. -/
theorem runs : (match exec (.fjoinDelivery 0 0) state with
    | .next t => (t.span? 0).any fun sp => decide (sp.v 0 0 = BitVec.allOnes 32) && decide (sp.v 1 0 = 0)
    | _ => false) = true := by decide +kernel

theorem fresh : state.stale span.part handle = false := by decide +kernel

theorem settled : state.future join.handle = future := by decide +kernel

/-- No other lane waits in an FJOIN, and none has a kept one. -/
theorem alone (k : Nat) (_ : k < 32) (q : Join) : (k ≠ 0 → (span.lane k).wait ≠ some (.join q)) ∧ (span.lane k).kept ≠ some (.join q) := by
  cases k with
  | zero => exact ⟨fun h => absurd rfl h, nofun⟩
  | succ k => exact ⟨fun _ => nofun, nofun⟩

end TripleJoin

/-- Refutes O40: an FJOIN whose count of registers is 3, which the statement admits (`j.n ≤ 4`), gets its result in one register and not in
three. -/
theorem not_doomsAndJoins : ¬ Obligations.dooms_and_joins := by
  unfold Obligations.dooms_and_joins
  rintro ⟨-, hdelivers⟩
  obtain ⟨-, hjoin⟩ := hdelivers TripleJoin.state TripleJoin.span 0 rfl rfl (by decide) (by decide)
  obtain ⟨hdone, -⟩ := hjoin (.fjoinDelivery 0 0) TripleJoin.join rfl rfl (.inl ⟨rfl, rfl⟩) TripleJoin.fresh TripleJoin.alone (by decide)
  have hst : (TripleJoin.state.future TripleJoin.join.handle).st = .done := congrArg Future.st TripleJoin.settled
  obtain ⟨u, sp', hexec, hu, -, -, -, hwrites, -⟩ := hdone (.inl hst)
  obtain ⟨fin, hfin, hlasts⟩ := settle_lasts u TripleJoin.span.id _ sp' hu
  have hkept : fin.v 1 0 = 0 := by
    have hruns := TripleJoin.runs
    rw [hexec] at hruns
    change Option.any _ (State.span? _ TripleJoin.span.id) = true at hruns
    rw [hfin] at hruns
    obtain ⟨-, hv⟩ := Bool.and_eq_true_iff.1 hruns
    exact of_decide_eq_true hv
  have hwritten : sp'.v 1 0 = (TripleJoin.future.result).extractLsb' 32 32 := by
    have hregs := hwrites.regs 1 0 (by decide)
    rw [if_pos hst, congrArg Future.result TripleJoin.settled] at hregs
    exact hregs.trans (if_pos (by decide))
  have hsame : fin.v 1 0 = sp'.v 1 0 := congrArg (fun m => sget 0 m (32 * 1 + 0)) hlasts.vregs_eq
  rw [hkept, hwritten] at hsame
  exact absurd hsame (by decide)

end Sys2Proof.Machine
end

section
/-! SUPPORT. FENCE as it issues, the copies that serve no load, what an acquire meets, and the obligation about them (R111, R156 to R158, R180,
R192). -/

namespace Sys2Proof.Machine

/-! The issue (R111, R192). -/

/-- The slot that a release part takes: the first that is free. -/
def Span.fenceSlot (sp : Span) : Nat := ((List.range 32).find? fun k => !sp.landing.any (·.slot = k)).getD 0

/-- R111: with a landing entry free, that slot is one of the 32, and no entry stands in it. -/
theorem fenceSlot_free {sp : Span} (h : 1 ≤ sp.landFree) : sp.fenceSlot < 32 ∧ ∀ f ∈ sp.landing, f.slot ≠ sp.fenceSlot := by
  have hpos : 0 < sp.freeSlots.length := h.trans (landFree_le_freeSlots sp)
  obtain ⟨k, hk⟩ := List.exists_mem_of_length_pos hpos
  obtain ⟨hrange, hfree⟩ := List.mem_filter.1 hk
  cases hfound : (List.range 32).find? fun k => !sp.landing.any (·.slot = k) with
  | none => exact absurd hfree (List.find?_eq_none.1 hfound k hrange)
  | some n =>
    have hslot : sp.fenceSlot = n := by rw [Span.fenceSlot, hfound]; rfl
    have hn := List.find?_some hfound
    rw [hslot]
    refine ⟨List.mem_range.1 (List.mem_of_find?_eq_some hfound), fun f hf heq => ?_⟩
    have hused : sp.landing.any (fun g => decide (g.slot = n)) = true := List.any_eq_true.2 ⟨f, hf, decide_eq_true heq⟩
    rw [hused] at hn
    cases hn

/-- The entry of a FENCE. -/
def fenceEntry (x : MEM) (sp : Span) : Entry :=
  { slot := sp.fenceSlot, seq := sp.seq, st := .ordered, op := .fence, order := x.order, scope := x.scope, u := decide (x.d = 1) || decide (x.order = .seq) }

/-- The span of a FENCE after its issue: its entry in the landing, and what it releases and acquires. -/
def Span.fenced (sp : Span) (x : MEM) (I : List Nat) (a : Word) : Span :=
  { sp.onLanes I (fun ln => { ln with pc := a + 8 }) with
    seq := sp.seq + 1, landing := if x.order.releases then sp.landing ++ [fenceEntry x sp] else sp.landing
    relFence := if x.order.releases then sp.relFence ++ [⟨sp.seq, x.scope, (fenceEntry x sp).u⟩] else sp.relFence
    acqSeq := if x.order.acquires then sp.seq else sp.acqSeq, acqScope := if x.order.acquires then x.scope else sp.acqScope }

section
variable {s : State} {sp0 sp : Span} {I : List Nat} {a : Word} {x : MEM}

/-- R192: a FENCE that nothing holds: its acquire part meets what the span's reads have met. -/
theorem exec_fence (h : Clear (.fence x) s sp0 sp I a) (hready : sp.memReady (if x.order.releases then 1 else 0) = true)
    (hacting : acting (.fence x) sp I ≠ []) :
    exec (.fence x) s = .next ((State.settle (if x.order.acquires then
      ((s.putSpan (sp.fenced x I a)).meet sp.id x.scope (sp.seq + 1) sp.heard).advance sp.id x.scope else s.putSpan (sp.fenced x I a)) sp.id).issued
        (.fence x) (At (.fence x) sp I a)) := by
  have hnonempty : (guardLanes sp (shape (.fence x)).ctl I).isEmpty = false := List.isEmpty_eq_false_iff.2 hacting
  change execFence x s = _
  unfold execFence
  rw [issue_clear h (fun hpriv => absurd hpriv Bool.false_ne_true) (fun hwhole => absurd hwhole Bool.false_ne_true) rfl rfl hready]
  simp only [hnonempty, Bool.false_eq_true, if_false]
  rfl

theorem fence_issues (h : Clear (.fence x) s sp0 sp I a) (hready : sp.memReady (if x.order.releases then 1 else 0) = true)
    (hacting : acting (.fence x) sp I ≠ []) :
    ∃ e t, (x.order.releases = true → e.slot < 32 ∧ ∀ f ∈ sp.landing, f.slot ≠ e.slot) ∧
      { e with slot := 0 } = ({ slot := 0, seq := sp.seq, st := .ordered, op := .fence, order := x.order, scope := x.scope,
                                u := decide (x.d = 1) || decide (x.order = .seq) } : Entry) ∧
      t = s.putSpan { sp.onLanes I (fun ln => { ln with pc := a + 8 }) with
        seq := sp.seq + 1, landing := if x.order.releases then sp.landing ++ [e] else sp.landing
        relFence := if x.order.releases then sp.relFence ++ [⟨sp.seq, x.scope, e.u⟩] else sp.relFence
        acqSeq := if x.order.acquires then sp.seq else sp.acqSeq, acqScope := if x.order.acquires then x.scope else sp.acqScope } ∧
      (x.order.acquires = false → exec (.fence x) s = .next ((t.settle sp.id).issued (.fence x) (At (.fence x) sp I a))) ∧
      (x.order.acquires = true → exec (.fence x) s = .next ((((t.meet sp.id x.scope (sp.seq + 1) sp.heard).advance sp.id x.scope).settle
        sp.id).issued (.fence x) (At (.fence x) sp I a))) := by
  refine ⟨fenceEntry x sp, s.putSpan (sp.fenced x I a), fun hreleases => ?_, rfl, rfl, fun hacquires => ?_, fun hacquires => ?_⟩
  · rw [if_pos hreleases, Span.memReady, Bool.and_eq_true, decide_eq_true_eq] at hready
    exact fenceSlot_free hready.2
  · rw [exec_fence h hready hacting, hacquires, if_neg Bool.false_ne_true]
  · rw [exec_fence h hready hacting, if_pos hacquires]

end

/-! The copies that serve a load (R157, R158, R161). -/

/-- R157, R158: a copy that serves a load is its pier's copy of its line, and has missed no write of its bytes that happens before it. -/
theorem l1Copy_serves {t : State} {sp : Span} {e : Entry} {c : L1Line} (h : t.l1Copy sp e = some c) :
    c.pier = sp.pier ∧ c.line = e.pline ∧ sp.outdated e c = false := by
  unfold State.l1Copy at h
  split at h
  · cases h
  · have hserves := List.find?_some h
    simp only [Bool.and_eq_true, decide_eq_true_eq, Bool.not_eq_true'] at hserves
    obtain ⟨⟨⟨⟨⟨hpier, hline⟩, hfresh⟩, -⟩, -⟩, -⟩ := hserves
    exact ⟨hpier, hline, hfresh⟩

/-- What it means that a copy is not outdated for a load. -/
theorem since_of_not_outdated {sp : Span} {e : Entry} {c : L1Line} (h : sp.outdated e c = false) {p : Part} (hp : p ∈ e.parts) {w : Nat × Nat}
    (hw : w ∈ c.missed) (hlo : 64 * e.pline + p.off ≤ w.1) (hhi : w.1 < 64 * e.pline + p.off + p.len) {x : Seen} (hx : x ∈ sp.view)
    (hkey : x.key = w.1) (hstep : x.step = w.2) : e.seq < x.since := by
  by_contra hle
  have hin : (e.parts.any fun q => decide (64 * e.pline + q.off ≤ w.1) && decide (w.1 < 64 * e.pline + q.off + q.len)) = true :=
    List.any_eq_true.2 ⟨p, hp, by simp [hlo, hhi]⟩
  have hknown : (sp.view.any fun y => y.key = w.1 && y.step = w.2 && decide (y.since ≤ e.seq)) = true :=
    List.any_eq_true.2 ⟨x, hx, by simp [hkey, hstep, Nat.le_of_not_lt hle]⟩
  exact List.any_eq_false.1 h w hw (by rw [hin, hknown]; rfl)

/-! What an acquire meets (R156, R180). -/

/-- A span that has learned what a release hands on. -/
theorem mem_learn_view (sp : Span) (since : Nat) (reach : Reach) (v : View) (x : Seen) :
    x ∈ (sp.learn since reach v).view ↔ x ∈ sp.view ∨ ∃ w ∈ v, x = { key := w.1, step := w.2, since := since, reach := reach } := by
  unfold Span.learn
  simp only [List.mem_append, List.mem_filter, List.mem_map, Bool.not_eq_true', List.contains_eq_mem, decide_eq_false_iff_not]
  constructor
  · rintro (h | ⟨⟨w, hw, rfl⟩, -⟩)
    exacts [.inl h, .inr ⟨w, hw, rfl⟩]
  · rintro (h | ⟨w, hw, rfl⟩)
    · exact .inl h
    · by_cases hold : ({ key := w.1, step := w.2, since := since, reach := reach } : Seen) ∈ sp.view
      exacts [.inl hold, .inr ⟨⟨w, hw, rfl⟩, hold⟩]

/-- R180: a counter that is raised stands at what it is raised to, at least. -/
theorem time_raise (s : State) {die : Nat} (h : die < s.tsc.length) (t : Word) : t.toNat ≤ ((s.raise die t).time die).toNat := by
  have htime : (s.raise die t).time die = if (s.tsc[die]).toNat < t.toNat then t else s.tsc[die] := by
    simp [State.time, State.raise, List.getD_eq_getElem?_getD, h]
  rw [htime]
  split <;> omega

section
variable {t : State} {sp : Span} {sc : Scope} {since : Nat} {m : Msg}

/-- R156: where a party lies outside the scope of the other, nothing is met. -/
theorem meet_apart (hsp : t.span? sp.id = some sp) (h : ¬ (joins sc sp.party m.from_ = true ∧ joins m.scope m.from_ sp.party = true)) :
    t.meet sp.id sc since [m] = t := by
  have hnot : (!(joins sc sp.party m.from_ && joins m.scope m.from_ sp.party)) = true := by
    rw [Bool.not_eq_true', Bool.eq_false_iff, ne_eq, Bool.and_eq_true]
    exact h
  simp only [State.meet, List.foldl_cons, List.foldl_nil, State.meet1, hsp]
  rw [if_pos hnot]

theorem meet_joined (hsp : t.span? sp.id = some sp) (h : joins sc sp.party m.from_ = true ∧ joins m.scope m.from_ sp.party = true) :
    t.meet sp.id sc since [m] = if m.from_.die = some sp.die then t.onSpan sp.id (·.learn since .all m.view)
      else (t.onSpan sp.id (·.learn since .all m.view)).raise sp.die (m.tsc + 1) := by
  have hnot : ¬ (!(joins sc sp.party m.from_ && joins m.scope m.from_ sp.party)) = true := by rw [h.1, h.2]; decide
  simp only [State.meet, List.foldl_cons, List.foldl_nil, State.meet1, hsp]
  rw [if_neg hnot]

/-- R156: with both, the span of the acquire has learned what the release hands on. -/
theorem meet_joined_span (hsp : t.span? sp.id = some sp) (h : joins sc sp.party m.from_ = true ∧ joins m.scope m.from_ sp.party = true) :
    (t.meet sp.id sc since [m]).span? sp.id = some (sp.learn since .all m.view) := by
  have hlearned := span?_onSpan_self (·.learn since .all m.view) (fun _ => rfl) hsp
  rw [meet_joined hsp h]
  split
  exacts [hlearned, hlearned]

/-- R180: and the counter of its die has passed that of another die. -/
theorem meet_joined_time (hsp : t.span? sp.id = some sp) (h : joins sc sp.party m.from_ = true ∧ joins m.scope m.from_ sp.party = true)
    (hdie : m.from_.die ≠ some sp.die) (hlen : sp.die < t.tsc.length) (hfits : m.tsc.toNat + 1 < 2 ^ 64) :
    m.tsc.toNat < ((t.meet sp.id sc since [m]).time sp.die).toNat := by
  rw [meet_joined hsp h, if_neg hdie]
  refine Nat.lt_of_lt_of_le ?_ (time_raise (t.onSpan sp.id (·.learn since .all m.view)) hlen (m.tsc + 1))
  rw [BitVec.toNat_add, show BitVec.toNat (1 : Word) = 1 from rfl, Nat.mod_eq_of_lt hfits]
  exact Nat.lt_succ_self _

end

/-- Settles O21: the issue is `exec_fence`, a copy that serves is not outdated, and a meeting is `State.meet1` of its one release. -/
theorem fenceWord : Obligations.fence_word := by
  unfold Obligations.fence_word
  refine ⟨fun s sp0 sp I a x h hready hacting => fence_issues h hready hacting, fun t sp e c h => ?_, fun t sp sc since m hsp => ?_⟩
  · obtain ⟨hpier, hline, hfresh⟩ := l1Copy_serves h
    exact ⟨hpier, hline, fun p hp w hw hlo hhi x hx => since_of_not_outdated hfresh hp hw hlo hhi hx⟩
  · refine ⟨meet_apart hsp, fun hboth => ?_, fun hwide => ?_, fun hnarrow => ?_⟩
    · exact ⟨_, meet_joined_span hsp hboth, rfl, mem_learn_view sp since .all m.view, meet_joined_time hsp hboth⟩
    · refine ⟨_, ?_, rfl⟩
      rw [State.advance, if_pos hwide]
      exact span?_onSpan_self _ (fun _ => rfl) hsp
    · rw [State.advance, if_neg (by rw [hnarrow]; exact Bool.false_ne_true)]

end Sys2Proof.Machine
end

section
/-! SUPPORT. The operations of atomics on words of 4 and 8 bytes (R189). -/

namespace Sys2Proof.Machine

/-- R189: an operation on a word of 4 or 8 bytes is that of its width on the word's bits. -/
theorem rmw_setWidth {size : Nat} (h : size = 4 ∨ size = 8) (aop aty : Nat) (x y : Word) :
    (rmw size aop aty x y).setWidth (8 * size) = rmwAt (8 * size) aop aty (x.setWidth (8 * size)) (y.setWidth (8 * size)) := by
  rcases h with rfl | rfl
  · rw [rmw, if_neg (by decide)]
    exact BitVec.setWidth_setWidth_of_le _ (by decide)
  · rw [rmw, if_pos rfl]
    simp only [Nat.reduceMul, BitVec.setWidth_eq]

section
variable {w : Nat} (a b : BitVec w)

theorem rmwAt_min_nat : (rmwAt w 1 0 a b).toNat = min a.toNat b.toNat := by
  simp only [rmwAt, OfNat.zero_ne_ofNat, if_false, zero_ne_one]
  split <;> rename_i h <;> simp only [decide_eq_true_eq] at h <;> omega

theorem rmwAt_min_signed : (rmwAt w 1 1 a b).toInt = min a.toInt b.toInt := by
  simp only [rmwAt, OfNat.one_ne_ofNat, if_false, if_true]
  split <;> rename_i h <;> simp only [decide_eq_true_eq] at h <;> omega

theorem rmwAt_max_nat : (rmwAt w 2 0 a b).toNat = max a.toNat b.toNat := by
  simp only [rmwAt, OfNat.zero_ne_ofNat, if_false, zero_ne_one]
  split <;> rename_i h <;> simp only [decide_eq_true_eq] at h <;> omega

theorem rmwAt_max_signed : (rmwAt w 2 1 a b).toInt = max a.toInt b.toInt := by
  simp only [rmwAt, OfNat.one_ne_ofNat, if_false, if_true]
  split <;> rename_i h <;> simp only [decide_eq_true_eq] at h <;> omega

end

/-- R189: the operations and their types: natural 0, signed 1, FP32 3. -/
theorem rmw_operations {size : Nat} (h : size = 4 ∨ size = 8) (aop aty : Nat) (x y : Word) :
    let a := x.setWidth (8 * size)
    let b := y.setWidth (8 * size)
    let r := (rmw size aop aty x y).setWidth (8 * size)
    (aop = 0 → r.toNat = (a.toNat + b.toNat) % 2 ^ (8 * size)) ∧
     (aop = 1 → aty = 0 → r.toNat = min a.toNat b.toNat) ∧ (aop = 1 → aty = 1 → r.toInt = min a.toInt b.toInt) ∧
     (aop = 2 → aty = 0 → r.toNat = max a.toNat b.toNat) ∧ (aop = 2 → aty = 1 → r.toInt = max a.toInt b.toInt) ∧
     (aop = 1 → aty = 3 → size = 4 → r.toNat = fminmax fp32 false true a.toNat b.toNat % 2 ^ 32) ∧
     (aop = 2 → aty = 3 → size = 4 → r.toNat = fminmax fp32 true true a.toNat b.toNat % 2 ^ 32) ∧
     (∀ k, k < 8 * size → (aop = 3 → r.getLsbD k = (a.getLsbD k && b.getLsbD k)) ∧ (aop = 4 → r.getLsbD k = (a.getLsbD k || b.getLsbD k)) ∧
       (aop = 5 → r.getLsbD k = (a.getLsbD k != b.getLsbD k))) ∧
     (aop = 6 → r = b) := by
  intro a b r
  have hr : r = rmwAt (8 * size) aop aty a b := rmw_setWidth h aop aty x y
  rw [hr]
  refine ⟨?_, ?_, ?_, ?_, ?_, ?_, ?_, fun k hk => ⟨?_, ?_, ?_⟩, ?_⟩
  · rintro rfl
    exact BitVec.toNat_add a b
  · rintro rfl rfl
    exact rmwAt_min_nat a b
  · rintro rfl rfl
    exact rmwAt_min_signed a b
  · rintro rfl rfl
    exact rmwAt_max_nat a b
  · rintro rfl rfl
    exact rmwAt_max_signed a b
  · rintro rfl rfl rfl
    exact BitVec.toNat_ofNat ..
  · rintro rfl rfl rfl
    exact BitVec.toNat_ofNat ..
  · rintro rfl
    exact BitVec.getLsbD_and
  · rintro rfl
    exact BitVec.getLsbD_or
  · rintro rfl
    exact BitVec.getLsbD_xor
  · rintro rfl
    rfl

end Sys2Proof.Machine
end

section
/-! SUPPORT. What the order of events leaves as it was (R155 to R161): the releases that a request meets and makes tell spans of writes, and change
nothing of memory, lanes, landings and results. -/

namespace Sys2Proof.Machine

/-! Spans one by one, in their list. -/

/-- The spans of `t` are those of `s`, each changed as `R` says. -/
def State.Maps (R : Span → Span → Prop) (s t : State) : Prop := ∃ g : Span → Span, (∀ sp, R sp (g sp)) ∧ t.spans = s.spans.map g

namespace State.Maps

variable {R : Span → Span → Prop} {s t u : State}

theorem of_spans (hR : ∀ sp, R sp sp) (h : t.spans = s.spans) : State.Maps R s t := ⟨id, hR, by rw [h, List.map_id]⟩

theorem trans (hR : ∀ {a b c}, R a b → R b c → R a c) (h : State.Maps R s t) (g : State.Maps R t u) : State.Maps R s u := by
  obtain ⟨f1, h1, e1⟩ := h
  obtain ⟨f2, h2, e2⟩ := g
  exact ⟨f2 ∘ f1, fun sp => hR (h1 sp) (h2 (f1 sp)), by rw [e2, e1, List.map_map]⟩

theorem onSpan (hR : ∀ sp, R sp sp) {f : Span → Span} (hf : ∀ sp, R sp (f sp)) (s : State) (id : Nat) : State.Maps R s (s.onSpan id f) := by
  refine ⟨fun sp => if sp.id = id then f sp else sp, fun sp => ?_, rfl⟩
  dsimp only
  split
  exacts [hf sp, hR sp]

/-- The span of a number. -/
theorem span? (hid : ∀ {a b}, R a b → b.id = a.id) (h : State.Maps R s t) {id : Nat} {sp : Span} (hs : s.span? id = some sp) :
    ∃ sp', t.span? id = some sp' ∧ R sp sp' := by
  obtain ⟨g, hg, e⟩ := h
  exact Each.of_map (fun sp => hid (hg sp)) hg e id sp hs

/-- Each span of `t` comes from one of `s`. -/
theorem mem (h : State.Maps R s t) {sp' : Span} (hs : sp' ∈ t.spans) : ∃ sp ∈ s.spans, R sp sp' := by
  obtain ⟨g, hg, e⟩ := h
  rw [e] at hs
  obtain ⟨sp, hsp, rfl⟩ := List.mem_map.1 hs
  exact ⟨sp, hsp, hg sp⟩

end State.Maps

/-! What spans have been told. -/

/-- Between two states spans have been told of writes and releases, counters have been passed, and the releases, reads, `.seq` events and computed
values on record have changed. -/
structure State.Learned (s t : State) : Prop where
  rest  : { t with spans := s.spans, tsc := s.tsc, msgs := s.msgs, seqs := s.seqs, looks := s.looks, overtakes := s.overtakes, flows := s.flows } = s
  spans : State.Maps Span.Hears s t

namespace State.Learned

variable {s t u : State}

theorem of_spans (hrest : { t with spans := s.spans, tsc := s.tsc, msgs := s.msgs, seqs := s.seqs, looks := s.looks, overtakes := s.overtakes
                                   flows := s.flows } = s) (h : t.spans = s.spans) : s.Learned t :=
  ⟨hrest, .of_spans (fun _ => rfl) h⟩

theorem refl (s : State) : s.Learned s := of_spans rfl rfl

theorem trans (h : s.Learned t) (g : t.Learned u) : s.Learned u where
  rest := by
    calc { u with spans := s.spans, tsc := s.tsc, msgs := s.msgs, seqs := s.seqs, looks := s.looks, overtakes := s.overtakes, flows := s.flows }
        = { ({ u with spans := t.spans, tsc := t.tsc, msgs := t.msgs, seqs := t.seqs, looks := t.looks, overtakes := t.overtakes
                      flows := t.flows } : State) with
            spans := s.spans, tsc := s.tsc, msgs := s.msgs, seqs := s.seqs, looks := s.looks, overtakes := s.overtakes, flows := s.flows } := rfl
      _ = s := by rw [g.rest]; exact h.rest
  spans := h.spans.trans Span.Hears.trans g.spans

theorem onSpan {f : Span → Span} (hf : ∀ sp : Span, sp.Hears (f sp)) (s : State) (id : Nat) : s.Learned (s.onSpan id f) :=
  ⟨rfl, State.Maps.onSpan (R := Span.Hears) (fun _ => rfl) hf s id⟩

theorem foldl {α : Type} {f : State → α → State} (hf : ∀ t a, State.Learned t (f t a)) (l : List α) (s : State) : s.Learned (l.foldl f s) := by
  induction l generalizing s with
  | nil => exact refl s
  | cons a r ih => exact (hf s a).trans (ih _)

/-- Memory, shadow lines and the step are as they were. -/
theorem fields (h : s.Learned t) : t.mem = s.mem ∧ t.shadows = s.shadows ∧ t.steps = s.steps := by
  have hmem := congrArg State.mem h.rest
  have hshadows := congrArg State.shadows h.rest
  have hsteps := congrArg State.steps h.rest
  exact ⟨hmem, hshadows, hsteps⟩

theorem span? (h : s.Learned t) {id : Nat} {sp : Span} (hs : s.span? id = some sp) : ∃ sp', t.span? id = some sp' ∧ sp.Hears sp' :=
  h.spans.span? (fun hears => hears.fields.1) hs

end State.Learned

section
variable (s : State) (id seq : Nat) (sp : Span) (deck : Option (Nat × Nat)) (at_ len : Nat)

theorem learn_hears (since : Nat) (reach : Reach) (v : View) (lane : Option Nat) (mine : Bool) : sp.Hears (sp.learn since reach v lane mine) := rfl

theorem seed_learned (uid : Nat) (r : ReadId) (ps : List Spot) : s.Learned (s.seed uid r ps) := by
  unfold State.seed
  split
  · exact .refl s
  · split <;> exact .of_spans rfl rfl

theorem looked_learned (stale : View) : s.Learned (s.looked sp seq deck at_ len stale) := by
  unfold State.looked
  split
  exacts [.of_spans rfl rfl, .refl s]

theorem hear_learned (ms : List Msg) : s.Learned (s.hear id ms) := by
  refine .onSpan (fun _ => ?_) s id
  rfl

theorem meet1_learned (sc : Scope) (since : Nat) (m : Msg) : s.Learned (State.meet1 id sc since s m) := by
  unfold State.meet1
  split
  · exact .refl s
  · split
    · exact .refl s
    · have hlearn : s.Learned (s.onSpan id (·.learn since .all m.view)) := .onSpan (fun sp => learn_hears sp _ _ _ _ _) s id
      dsimp only
      split
      exacts [hlearn, hlearn.trans (.of_spans rfl rfl)]

theorem meet_learned (sc : Scope) (since : Nat) (ms : List Msg) : s.Learned (s.meet id sc since ms) :=
  .foldl (fun t m => meet1_learned t id sc since m) ms s

theorem heardLate_learned (ms : List Msg) : s.Learned (s.heardLate id seq ms) := by
  unfold State.heardLate
  split
  · exact .refl s
  · split
    exacts [meet_learned s id _ _ ms, .refl s]

theorem advance_learned (sc : Scope) : s.Learned (s.advance id sc) := by
  unfold State.advance
  split
  · refine .onSpan (fun _ => ?_) s id
    rfl
  · exact .refl s

theorem follows_learned (lane : Option Nat) (since : Nat) (reach : Reach) : s.Learned (s.follows id seq lane since reach) := by
  unfold State.follows
  split
  exacts [.refl s, .onSpan (fun sp => learn_hears sp _ _ _ _ _) s id]

theorem seqEvent_learned (x : SeqEvent) (missed : View) : s.Learned (s.seqEvent id x missed) := by
  unfold State.seqEvent
  split
  · exact .refl s
  · extract_lets all
    exact State.Learned.trans (t := { s with seqs := all }) (.of_spans rfl rfl) (.onSpan (fun sp => learn_hears sp _ _ _ _ _) _ id)

theorem overtake_learned : s.Learned (s.overtake sp seq deck at_ len) := .of_spans rfl rfl

theorem announce_learned (rels : List (Scope × View)) (from_ : Party) : s.Learned (s.announce deck at_ len rels from_) := .of_spans rfl rfl

/-- R154, R155: what a performed write of a span tells. -/
theorem released_learned (key : Nat) (kind : PKind) (p : Part) : s.Learned (s.released id key kind p) := by
  unfold State.released
  extract_lets reach s1
  have hown : s.Learned s1 :=
    State.Learned.trans (.onSpan (fun sp => learn_hears sp p.acc.seq reach (s.known key p.len s.steps) none true) s id) (follows_learned ..)
  split
  exacts [hown, hown.trans ((overtake_learned ..).trans (announce_learned ..))]

theorem partTold_learned (e : Entry) (copy : Option L1Line) (p : Part) : s.Learned (s.partTold id e copy p) := by
  unfold State.partTold
  split
  · exact .refl s
  · extract_lets key v plain s1 s2 missed
    have hlearn : s.Learned s1 := by
      refine .onSpan (fun sp => ?_) s id
      split <;> exact learn_hears sp _ _ _ _ _
    have hseed : s.Learned s2 := by
      unfold s2
      split
      exacts [hlearn.trans (seed_learned ..), hlearn]
    refine State.Learned.trans ?_ (looked_learned ..)
    split
    exacts [hseed.trans (follows_learned ..), hseed]

/-- What the reads of a performed request tell, its own acquire apart. -/
def State.readsTold (s : State) (id : Nat) (e : Entry) (copy : Option L1Line) : State :=
  let ms := s.meets e copy
  let s1 := (((e.parts.filter (·.acc.op.reads)).foldl (fun t p => t.partTold id e copy p) s).hear id ms).heardLate id e.seq ms
  match s1.span? id with
  | some sp => if e.seq < sp.acqSeq then s1.advance id sp.acqScope else s1
  | none => s1

theorem acquired_eq (e : Entry) (copy : Option L1Line) : s.acquired id e copy =
    if e.order.acquires && !e.any (· = .waita) then
      ((s.readsTold id e copy).meet id e.scope (if e.write then e.seq else e.seq + 1) (s.meets e copy)).advance id e.scope
    else s.readsTold id e copy := rfl

theorem readsTold_learned (e : Entry) (copy : Option L1Line) : s.Learned (s.readsTold id e copy) := by
  unfold State.readsTold
  extract_lets ms s1
  have hheard : s.Learned s1 := ((State.Learned.foldl (fun t p => partTold_learned t id e copy p) _ s).trans (hear_learned _ id ms)).trans
    (heardLate_learned _ id e.seq ms)
  split
  · split
    exacts [hheard.trans (advance_learned s1 id _), hheard]
  · exact hheard

theorem acquired_learned (e : Entry) (copy : Option L1Line) : s.Learned (s.acquired id e copy) := by
  have hreads := readsTold_learned s id e copy
  rw [acquired_eq]
  split
  exacts [(hreads.trans (meet_learned ..)).trans (advance_learned ..), hreads]

end

/-- R161: an acquire at a wide scope advances the fill epoch of its span. -/
theorem acquired_epoch {s : State} {id : Nat} {e : Entry} {copy : Option L1Line} {sp : Span} (hs : s.span? id = some sp)
    (hacquires : e.order.acquires = true) (hwaita : e.any (· = .waita) = false) (hwide : e.scope.wide = true) :
    ∃ sp', (s.acquired id e copy).span? id = some sp' ∧ sp'.epoch = s.steps := by
  have hmet := (readsTold_learned s id e copy).trans (meet_learned _ id e.scope (if e.write then e.seq else e.seq + 1) (s.meets e copy))
  obtain ⟨sp1, h1, -⟩ := hmet.span? hs
  obtain ⟨-, -, hsteps⟩ := hmet.fields
  rw [acquired_eq, if_pos (by rw [hacquires, hwaita]; rfl), State.advance, if_pos hwide]
  exact ⟨_, span?_onSpan_self _ (fun _ => rfl) h1, hsteps⟩

/-- A `.seq` event that takes its place leaves the fill epoch of its span. -/
theorem seqEvent_epoch {s : State} {id : Nat} {sp : Span} (hs : s.span? id = some sp) (x : SeqEvent) (missed : View) :
    ∃ sp', (s.seqEvent id x missed).span? id = some sp' ∧ sp'.epoch = sp.epoch := by
  unfold State.seqEvent
  simp only [hs]
  exact ⟨_, span?_onSpan_self (s := { s with seqs := _ }) _ (fun _ => rfl) hs, rfl⟩

end Sys2Proof.Machine
end

section
/-! SUPPORT. How a request of one lane's part is performed (R112): what it tells before its effect, and what its end leaves as it was. -/

namespace Sys2Proof.Machine

/-! The end of a request. -/

/-- Of a span nothing has changed but marks on its landing entries, none of which has changed its state. -/
structure Span.Marks (sp sp' : Span) : Prop where
  rest   : { sp' with landing := sp.landing } = sp
  states : sp'.landing.map (fun f => (f.slot, f.st)) = sp.landing.map fun f => (f.slot, f.st)

theorem Span.Marks.refl (sp : Span) : sp.Marks sp := ⟨rfl, rfl⟩

theorem Span.Marks.id_eq {a b : Span} (h : a.Marks b) : b.id = a.id := by
  have hid := congrArg Span.id h.rest
  exact hid

/-- Entries marked one by one. -/
theorem Span.Marks.of_map (sp : Span) {f : Entry → Entry} (hf : ∀ e, (f e).slot = e.slot ∧ (f e).st = e.st) :
    sp.Marks { sp with landing := sp.landing.map f } := by
  refine ⟨rfl, ?_⟩
  rw [List.map_map]
  refine List.map_congr_left fun e _ => ?_
  obtain ⟨hslot, hst⟩ := hf e
  rw [Function.comp_apply, hslot, hst]

/-- Of a span nothing has changed but its landing. -/
def Span.Landed (sp sp' : Span) : Prop := { sp' with landing := sp.landing } = sp

theorem Span.Landed.trans {a b c : Span} (h : a.Landed b) (g : b.Landed c) : a.Landed c := by
  unfold Span.Landed at *
  rw [← g] at h
  exact h

/-- Every entry of a slot is done. -/
def Span.doneAt (sp : Span) (slot : Nat) : Prop := ∀ f ∈ sp.landing, f.slot = slot → f.st = .done

theorem Span.Marks.doneAt {a b : Span} (h : a.Marks b) {slot : Nat} (ha : a.doneAt slot) : b.doneAt slot := by
  intro f hf hslot
  have hpair : (f.slot, f.st) ∈ a.landing.map fun g => (g.slot, g.st) := h.states ▸ List.mem_map_of_mem hf
  obtain ⟨g, hg, heq⟩ := List.mem_map.1 hpair
  obtain ⟨hgs, hgst⟩ := Prod.mk.inj heq
  exact hgst ▸ ha g hg (hgs.trans hslot)

/-- Between two states nothing has changed but landings, copies of lines and the record of what was accessed. -/
structure State.Closes (R : Span → Span → Prop) (s t : State) : Prop where
  rest  : { t with spans := s.spans, l1 := s.l1, lru := s.lru } = s
  spans : State.Maps R s t

namespace State.Closes

variable {s t : State}

theorem fields {R : Span → Span → Prop} (h : State.Closes R s t) : t.mem = s.mem ∧ t.shadows = s.shadows := by
  have hmem := congrArg State.mem h.rest
  have hshadows := congrArg State.shadows h.rest
  exact ⟨hmem, hshadows⟩

end State.Closes

section
variable (s : State)

theorem writeSent_closes (pier : Nat) (e : Entry) : State.Closes Span.Marks s (s.writeSent pier e) := by
  refine ⟨rfl, _, fun sp => ?_, rfl⟩
  split
  · refine .of_map sp fun f => ?_
    split <;> exact ⟨rfl, rfl⟩
  · exact .refl sp

theorem fillL1_closes (pier line : Nat) : State.Closes Span.Marks s (s.fillL1 pier line) := ⟨rfl, .of_spans .refl rfl⟩

theorem lineRelease_closes (line : Nat) : State.Closes Span.Marks s (s.lineRelease line) := by
  refine ⟨rfl, _, fun sp => .of_map sp fun f => ?_, rfl⟩
  split <;> exact ⟨rfl, rfl⟩

theorem portFrees_closes (part line : Nat) : State.Closes Span.Marks s (s.portFrees part line) := by
  unfold State.portFrees
  dsimp only
  split
  · exact ⟨rfl, .of_spans .refl rfl⟩
  · split
    · exact ⟨rfl, .of_spans .refl rfl⟩
    · refine ⟨rfl, _, fun sp => ?_, rfl⟩
      split
      · refine .of_map sp fun f => ?_
        split <;> exact ⟨rfl, rfl⟩
      · exact .refl sp

/-- What follows the effect of a request: the copies of its line, its entry done, its port and its frame. -/
def State.finish (sp : Span) (e : Entry) (copy : Option L1Line) : State :=
  let s3 := if e.stores then s.writeSent sp.pier e
    else if e.any (· = .load) && copy.isNone && !e.noFill && !s.writeOut sp.pier e.pline then s.fillL1 sp.pier e.pline else s
  let s4 := s3.onSpan sp.id fun t => { t with landing := t.landing.map fun f => if f.slot = e.slot then { f with st := .done } else f }
  (if copy.isSome then s4 else s4.portFrees sp.part e.pline).touch e.pline

/-- What `State.finish` leaves: everything but landings, and the entry is done. -/
theorem finish_closes (sp : Span) (e : Entry) (copy : Option L1Line) {t : Span} (ht : s.span? sp.id = some t) :
    State.Closes Span.Landed s (s.finish sp e copy) ∧
      ∃ t', (s.finish sp e copy).span? sp.id = some t' ∧ t.Landed t' ∧ t'.doneAt e.slot := by
  unfold State.finish
  extract_lets s3 s4
  have h3 : State.Closes Span.Marks s s3 := by
    unfold s3
    split
    · exact writeSent_closes s sp.pier e
    · split
      exacts [fillL1_closes s sp.pier e.pline, ⟨rfl, .of_spans .refl rfl⟩]
  have h5 : State.Closes Span.Marks s4 ((if copy.isSome then s4 else s4.portFrees sp.part e.pline).touch e.pline) := by
    split
    · exact ⟨rfl, .of_spans .refl rfl⟩
    · have hport := portFrees_closes s4 sp.part e.pline
      refine ⟨?_, hport.spans⟩
      have hrest := hport.rest
      exact hrest
  obtain ⟨t3, ht3, m3⟩ := h3.spans.span? Span.Marks.id_eq ht
  have ht4 := span?_onSpan_self (fun t => { t with landing := t.landing.map fun f => if f.slot = e.slot then { f with st := .done } else f })
    (fun _ => rfl) ht3
  obtain ⟨t5, ht5, m5⟩ := h5.spans.span? Span.Marks.id_eq ht4
  have hlanded : ∀ a : Span, a.Landed { a with landing := a.landing.map fun f => if f.slot = e.slot then { f with st := .done } else f } :=
    fun _ => rfl
  have hmarks : ∀ {a b : Span}, a.Marks b → a.Landed b := fun m => m.rest
  refine ⟨⟨?_, ?_⟩, t5, ht5, ((hmarks m3).trans (hlanded t3)).trans (hmarks m5), m5.doneAt ?_⟩
  · have hrest3 := h3.rest
    have hrest5 := h5.rest
    generalize (if copy.isSome then s4 else s4.portFrees sp.part e.pline).touch e.pline = u at hrest5
    calc { u with spans := s.spans, l1 := s.l1, lru := s.lru }
        = { ({ u with spans := s4.spans, l1 := s4.l1, lru := s4.lru } : State) with spans := s.spans, l1 := s.l1, lru := s.lru } := rfl
      _ = { s3 with spans := s.spans, l1 := s.l1, lru := s.lru } := by rw [hrest5]; rfl
      _ = s := hrest3
  · obtain ⟨g3, m3', e3⟩ := h3.spans
    obtain ⟨g5, m5', e5⟩ := h5.spans
    have h34 : State.Maps Span.Landed s s3 := ⟨g3, fun a => (m3' a).rest, e3⟩
    have h56 : State.Maps Span.Landed s4 _ := ⟨g5, fun a => (m5' a).rest, e5⟩
    have h4 : State.Maps Span.Landed s3 s4 := .onSpan (R := Span.Landed) (fun _ => rfl) hlanded s3 sp.id
    exact State.Maps.trans (R := Span.Landed) Span.Landed.trans (State.Maps.trans (R := Span.Landed) Span.Landed.trans h34 h4) h56
  · intro f hf hslot
    obtain ⟨g, -, rfl⟩ := List.mem_map.1 hf
    split
    · rfl
    · rename_i hne
      rw [if_neg hne] at hslot
      exact absurd hslot hne

end

/-! A request with one lane's part. -/

/-- What a request tells before it has its effect (R155, R159). -/
def State.toldBefore (s : State) (sp : Span) (e : Entry) (copy : Option L1Line) : State :=
  let s1 := if e.any AccOp.reads then s.acquired sp.id e copy else s
  if e.order = .seq then s1.seqEvent sp.id (s1.asSeq sp e) (match copy with | some c => c.missed | none => []) else s1

theorem toldBefore_learned (s : State) (sp : Span) (e : Entry) (copy : Option L1Line) : s.Learned (s.toldBefore sp e copy) := by
  unfold State.toldBefore
  extract_lets s1
  have hacquired : s.Learned s1 := by
    unfold s1
    split
    exacts [acquired_learned s sp.id e copy, .refl s]
  split
  exacts [hacquired.trans (seqEvent_learned ..), hacquired]

theorem inOrder_one {e : Entry} {p : Part} (h : e.parts = [p]) (lanes : List Nat) : e.inOrder lanes = [p] := by
  unfold Entry.inOrder
  rw [h]
  split
  · rename_i hcond
    simp only [Bool.and_eq_true, decide_eq_true_eq, Bool.not_eq_true', List.isEmpty_eq_false_iff] at hcond
    obtain ⟨⟨-, hperm⟩, hne⟩ := hcond
    cases hlane : p.acc.lane with
    | none =>
      simp only [List.filterMap_cons, List.filterMap_nil, hlane] at hperm
      exact absurd hperm.eq_nil hne
    | some l =>
      simp only [List.filterMap_cons, List.filterMap_nil, hlane] at hperm
      rw [List.perm_singleton.1 hperm]
      simp [hlane]
  · rfl

/-- The copy that a request is served from. -/
def State.copyFor (s : State) (sp : Span) (e : Entry) (fromL1 : Bool) : Option L1Line := if fromL1 then s.l1Copy sp e else none

theorem perform_one {s : State} {sp : Span} {e : Entry} {p : Part} {fromL1 : Bool} {lanes : List Nat} (hparts : e.parts = [p])
    (hmerge : (e.write && e.order.releases && e.scope.all) = false) :
    s.perform sp e fromL1 lanes = (((((s.toldBefore sp e (s.copyFor sp e fromL1)).performPart sp.id e
      ((s.copyFor sp e fromL1).map (·.bytes)) p)).finish sp e (s.copyFor sp e fromL1)).settle sp.id) := by
  unfold State.perform
  simp only [hmerge, inOrder_one hparts, Bool.false_eq_true, if_false, List.foldl_cons, List.foldl_nil]
  rfl

/-- R112: the request is performed where it may be, and its line's die is not fenced. -/
theorem exec_requestPerformed {s : State} {sp : Span} {e : Entry} (hsp : s.span? sp.id = some sp) (hres : sp.resident = true)
    (he : sp.landing.find? (fun f => decide (f.slot = e.slot)) = some e) (hcan : s.canPerform sp e = true) (fromL1 : Bool) (lanes : List Nat) :
    exec (.requestPerformed sp.id e.slot fromL1 lanes) s =
      if (homeDie (64 * e.pline)).any s.fenced.contains then .next (s.performDead sp e) else .next (s.perform sp e fromL1 lanes) := by
  change execRequestPerformed sp.id e.slot fromL1 lanes s = _
  unfold execRequestPerformed
  simp only [hsp, he, hres, hcan, Bool.not_true, Bool.or_self, Bool.false_eq_true, if_false]

/-- The span has kept its place. -/
def Span.SameId (sp sp' : Span) : Prop := sp'.id = sp.id

theorem Span.SameId.trans {a b c : Span} (h : a.SameId b) (g : b.SameId c) : a.SameId c := Eq.trans g h

section
variable (t : State) (id key : Nat) (e : Entry) (p : Part)

theorem poke_maps (k : Nat) (bs : List Byte) : State.Maps Span.SameId t (t.poke k bs) := by
  unfold State.poke
  split
  · exact .of_spans (fun _ => rfl) rfl
  · refine ⟨_, fun _ => ?_, rfl⟩
    rfl

theorem released_maps (kind : PKind) : State.Maps Span.SameId t (t.released id key kind p) := by
  obtain ⟨g, hg, hspans⟩ := (released_learned t id key kind p).spans
  exact ⟨g, fun sp => (hg sp).fields.1, hspans⟩

theorem rmwDone_maps (bs : Option (List Byte)) (len : Nat) : State.Maps Span.SameId t (t.rmwDone key bs len) := by
  have hrelease (u : State) (line : Nat) : State.Maps Span.SameId u (u.lineRelease line) := by
    refine ⟨_, fun _ => ?_, rfl⟩
    rfl
  have hwrite : State.Maps Span.SameId t (match bs with | some b => t.poke key b | none => t.written (lineOf key) (lineOf key)) := by
    cases bs with
    | some b => exact poke_maps t key b
    | none =>
      refine ⟨_, fun _ => ?_, rfl⟩
      rfl
  exact hwrite.trans Span.SameId.trans (hrelease (State.wrote _ none key len true) (lineOf key))

theorem deliver_sameId (sp : Span) (n : Nat) : sp.SameId (sp.deliver p n) := by
  unfold Span.deliver
  split <;> rfl

theorem onSpan_maps {f : Span → Span} (hf : ∀ sp, Span.SameId sp (f sp)) : State.Maps Span.SameId t (t.onSpan id f) :=
  .onSpan (R := Span.SameId) (fun _ => rfl) hf t id

end

end Sys2Proof.Machine
end

section
/-! SUPPORT. The effect of a request's part, by its operation: what it leaves in memory and what it gives its span (R184, R185, R189, R191, R197). -/

namespace Sys2Proof.Machine

/-! The operations one by one. -/

section
variable (t : State) (id : Nat) (e : Entry) (copy : Option (List Byte)) {p : Part}

theorem performPart_load (h : p.acc.op = .load) : t.performPart id e copy p = t.onSpan id (·.deliver p (t.partNat e.pline copy p)) := by
  simp only [State.performPart, h]

/-- A span that has read a line with reservation. -/
def Span.reserve (sp : Span) (a : Access) (e : Entry) : Span := match a.lane with
  | some l => sp.onLane l fun ln => { ln with resv := some e.pline, resvVa := 64 * e.vline }
  | none => { sp with resv := some e.pline, resvVa := 64 * e.vline }

theorem performPart_lda (h : p.acc.op = .lda) :
    t.performPart id e copy p = t.onSpan id fun u => (u.deliver p (t.partNat e.pline none p)).reserve p.acc e := by
  simp only [State.performPart, h]
  rfl

theorem performPart_store (h : p.acc.op = .store) :
    t.performPart id e copy p = (t.poke (64 * e.pline + p.off) p.bytes).released id (64 * e.pline + p.off) e.pkind p := by
  simp only [State.performPart, h]

/-- A span after an STL that was performed. -/
def Span.stlDone (sp : Span) (a : Access) (armed : Bool) : Span := ((if armed then sp.takeFences a else sp).putPd a armed).withdraw a

theorem stlDone_sameId (sp : Span) (a : Access) (armed : Bool) : sp.SameId (sp.stlDone a armed) := by
  have hfences : sp.SameId (if armed then sp.takeFences a else sp) := by split <;> rfl
  have hputs (u : Span) : u.SameId ((u.putPd a armed).withdraw a) := by
    unfold Span.putPd
    split <;> rfl
  exact hfences.trans (hputs _)

theorem performPart_stl (h : p.acc.op = .stl) {sp : Span} (hsp : t.span? id = some sp) {armed : Bool}
    (hslot : (sp.landing.any fun f => f.slot = e.slot && f.parts.any fun q => q.acc.lane = p.acc.lane && q.acc.armed) = armed) :
    t.performPart id e copy p = (if armed then (t.poke (64 * e.pline + p.off) p.bytes).released id (64 * e.pline + p.off) e.pkind p
      else t).onSpan id (·.stlDone p.acc armed) := by
  simp only [State.performPart, h, hsp, hslot]
  rfl

/-- What an atomic leaves in its word (R189). -/
def Access.rmwBytes (a : Access) (old : Nat) : List Byte :=
  toBytes a.size (rmw a.size a.aop a.aty (BitVec.ofNat 64 old) (a.data.setWidth 64)).toNat

theorem performPart_red (h : p.acc.op = .red) : t.performPart id e copy p =
    (t.rmwDone (64 * e.pline + p.off) (some (p.acc.rmwBytes (t.nat (64 * e.pline + p.off) p.acc.size))) p.acc.size).released id
      (64 * e.pline + p.off) e.pkind p := by
  simp only [State.performPart, h]
  rfl

theorem performPart_atom (h : p.acc.op = .atom) : t.performPart id e copy p =
    ((t.rmwDone (64 * e.pline + p.off) (some (p.acc.rmwBytes (t.nat (64 * e.pline + p.off) p.acc.size))) p.acc.size).released id
      (64 * e.pline + p.off) e.pkind p).onSpan id (·.deliver p (t.nat (64 * e.pline + p.off) p.acc.size)) := by
  simp only [State.performPart, h]
  rfl

/-- What a CAS leaves in its word, when it writes (R189). -/
def Access.casBytes (a : Access) (old : Nat) : Option (List Byte) :=
  if old = a.data.toNat % 2 ^ (8 * a.size) then some (toBytes a.size a.data2.toNat) else none

theorem performPart_cas (h : p.acc.op = .cas) : t.performPart id e copy p =
    ((t.rmwDone (64 * e.pline + p.off) (p.acc.casBytes (t.nat (64 * e.pline + p.off) p.acc.size)) p.acc.size).released id
      (64 * e.pline + p.off) e.pkind p).onSpan id (·.deliver p (t.nat (64 * e.pline + p.off) p.acc.size)) := by
  simp only [State.performPart, h]
  rfl

theorem performPart_sred (h : p.acc.op = .sred) {sp : Span} (hsp : t.span? id = some sp) : t.performPart id e copy p =
    t.contribute sp.die sp.part e.pline p.acc.aop p.acc.aty p.acc.size sp.block p.off (p.acc.data.setWidth 64) := by
  simp only [State.performPart, h, hsp]

/-- The lane of a WAITA's read after it. -/
def Span.watchLane (sp : Span) (t : State) (e : Entry) (p : Part) (l : Nat) : Span :=
  sp.onLane l fun ln => ln.watchRead p.acc e.pline (t.partNat e.pline none p) ((t.time sp.die).toNat + 1000)

theorem performPart_waita (h : p.acc.op = .waita) {sp : Span} (hsp : t.span? id = some sp) {l : Nat} (hl : p.acc.lane = some l) :
    (t.putSpan (sp.watchLane t e p l)).Learned (t.performPart id e copy p) := by
  have hacquire (u : State) (c : Bool) : u.Learned (if c then
      ((((u.onSpan id (·.learn (p.acc.seq + 1) .all (t.known (64 * e.pline + p.off) p.len t.steps))).meet id p.acc.scope (p.acc.seq + 1)
        (t.standing none (64 * e.pline + p.off) p.len)).advance id p.acc.scope).follows id p.acc.seq (some l) (p.acc.seq + 1) .all) else u) := by
    split
    · refine State.Learned.trans (State.Learned.trans (State.Learned.trans ?_ (meet_learned ..)) (advance_learned ..)) (follows_learned ..)
      exact .onSpan (fun sp => learn_hears sp _ _ _ _ _) u id
    · exact .refl u
  simp only [State.performPart, h, hsp, hl]
  exact hacquire _ _

theorem performPart_waita_span (h : p.acc.op = .waita) (hl : p.acc.lane = none) : t.performPart id e copy p = t := by
  simp only [State.performPart, h, hl]

/-- No operation takes a span from its place. -/
theorem performPart_there (p : Part) {sp : Span} (hsp : t.span? id = some sp) : ∃ sp', (t.performPart id e copy p).span? id = some sp' := by
  have hmaps {u : State} (h : State.Maps Span.SameId t u) : ∃ sp', u.span? id = some sp' :=
    have ⟨sp', hsp', _⟩ := h.span? (fun same => same) hsp
    ⟨sp', hsp'⟩
  have hon {u : State} (h : State.Maps Span.SameId t u) {f : Span → Span} (hf : ∀ sp, Span.SameId sp (f sp)) : ∃ sp', (u.onSpan id f).span? id = some sp' :=
    hmaps (h.trans Span.SameId.trans (onSpan_maps u id hf))
  have hrefl : State.Maps Span.SameId t t := .of_spans (fun _ => rfl) rfl
  have hrmw (bs : Option (List Byte)) (len : Nat) :
      State.Maps Span.SameId t ((t.rmwDone (64 * e.pline + p.off) bs len).released id (64 * e.pline + p.off) e.pkind p) :=
    (rmwDone_maps t _ bs len).trans Span.SameId.trans (released_maps ..)
  have hstore : State.Maps Span.SameId t ((t.poke (64 * e.pline + p.off) p.bytes).released id (64 * e.pline + p.off) e.pkind p) :=
    (poke_maps t _ _).trans Span.SameId.trans (released_maps ..)
  cases hop : p.acc.op with
  | load =>
    rw [performPart_load t id e copy hop]
    exact hon hrefl fun sp => deliver_sameId p sp _
  | lda =>
    rw [performPart_lda t id e copy hop]
    refine hon hrefl fun sp => Span.SameId.trans (deliver_sameId p sp (t.partNat e.pline none p)) ?_
    unfold Span.reserve
    split <;> rfl
  | store =>
    rw [performPart_store t id e copy hop]
    exact hmaps hstore
  | stl =>
    rw [performPart_stl t id e copy hop hsp rfl]
    refine hon ?_ fun sp => stlDone_sameId sp p.acc _
    split
    exacts [hstore, hrefl]
  | red =>
    rw [performPart_red t id e copy hop]
    exact hmaps (hrmw _ _)
  | sred =>
    rw [performPart_sred t id e copy hop hsp]
    unfold State.contribute
    split <;> exact ⟨sp, hsp⟩
  | atom =>
    rw [performPart_atom t id e copy hop]
    exact hon (hrmw _ _) fun sp => deliver_sameId p sp _
  | cas =>
    rw [performPart_cas t id e copy hop]
    exact hon (hrmw _ _) fun sp => deliver_sameId p sp _
  | waita =>
    cases hl : p.acc.lane with
    | none =>
      rw [performPart_waita_span t id e copy hop hl]
      exact ⟨sp, hsp⟩
    | some l =>
      have hid : sp.id = id := span?_id hsp
      have hput := span?_putSpan_self t (sp.watchLane t e p l) sp (hid ▸ hsp)
      obtain ⟨sp', hsp', -⟩ := (performPart_waita t id e copy hop hsp hl).span? hput
      exact ⟨sp', hid ▸ hsp'⟩

end

end Sys2Proof.Machine
end

section
/-! SUPPORT. What a request leaves that is performed with one lane's part, by its operation; what one to a fenced die does (R360); the obligation about
both (R112, R184, R185, R189, R191, R197, R360). -/

namespace Sys2Proof.Machine

/-! The bytes. -/

theorem byte_of_mem {s t : State} (h : t.mem = s.mem) (k : Nat) : t.byte k = s.byte k := by rw [State.byte, h]; rfl

theorem nat_of_mem {s t : State} (h : t.mem = s.mem) (k n : Nat) : t.nat k n = s.nat k n := by rw [State.nat, State.bytes, h]; rfl

section
variable {p : Part} (hskip : p.skip = 0) (hlen : p.len = p.acc.size)
include hskip hlen

theorem part_bytes : p.bytes = (toBytes 16 p.acc.data.toNat).take p.acc.size := by
  rw [Part.bytes, hskip, hlen, List.drop_zero]

variable (hsize : p.acc.size ∈ [1, 2, 4, 8, 16])
include hsize

theorem part_bytes_length : p.bytes.length = p.acc.size := by
  have hle : p.acc.size ≤ 16 := by
    simp only [List.mem_cons, List.not_mem_nil, or_false] at hsize
    omega
  rw [part_bytes hskip hlen, List.length_take, toBytes_length, Nat.min_eq_left hle]

/-- R6: the bytes of a store's data. -/
theorem part_bytes_getD {k : Nat} (hk : k < p.acc.size) : p.bytes.getD k 0 = p.acc.data.extractLsb' (8 * k) 8 := by
  have hle : p.acc.size ≤ 16 := by
    simp only [List.mem_cons, List.not_mem_nil, or_false] at hsize
    omega
  rw [part_bytes hskip hlen, ← getD_toBytes_word p.acc.data (Nat.lt_of_lt_of_le hk hle), List.getD_eq_getElem?_getD, List.getElem?_take_of_lt hk,
    List.getD_eq_getElem?_getD]

end

/-- Memory after a store: its bytes, and every other byte as before. -/
theorem stored_bytes {s u : State} {p : Part} {key : Nat} (hskip : p.skip = 0) (hlen : p.len = p.acc.size) (hsize : p.acc.size ∈ [1, 2, 4, 8, 16])
    (h : u.mem = (s.poke key p.bytes).mem) :
    (∀ k, ¬ (key ≤ k ∧ k < key + p.acc.size) → u.byte k = s.byte k) ∧
      ∀ k, k < p.acc.size → u.byte (key + k) = p.acc.data.extractLsb' (8 * k) 8 := by
  have hcount := part_bytes_length hskip hlen hsize
  refine ⟨fun k hk => ?_, fun k hk => ?_⟩
  · rw [byte_of_mem h, byte_poke, hcount, if_neg hk]
  · rw [byte_of_mem h, byte_poke, hcount, if_pos ⟨Nat.le_add_right _ _, Nat.add_lt_add_left hk key⟩, Nat.add_sub_cancel_left,
      part_bytes_getD hskip hlen hsize hk]

/-- Memory after a number is written: the number, and every other byte as before. -/
theorem written_number {s u : State} {key n x : Nat} (h : u.mem = (s.poke key (toBytes n x)).mem) :
    (∀ k, ¬ (key ≤ k ∧ k < key + n) → u.byte k = s.byte k) ∧ u.nat key n = x % 2 ^ (8 * n) := by
  refine ⟨fun k hk => ?_, ?_⟩
  · rw [byte_of_mem h, byte_poke, toBytes_length, if_neg hk]
  · have hread := bytes_poke s key (toBytes n x)
    rw [toBytes_length] at hread
    rw [nat_of_mem h, State.nat, hread, leNat_toBytes, show 256 = 2 ^ 8 from rfl, ← pow_mul]

/-! The values (R60, R76). -/

/-- The value that an access loads, by its exact bytes. -/
def Access.loaded (a : Access) (old : Nat) : BitVec 128 :=
  if a.sgn = true ∧ a.size ≤ 4 then (BitVec.ofNat (8 * a.size) old).signExtend 128 else BitVec.ofNat 128 old

theorem fill_ofNat {a : Access} (hsize : a.size ∈ [1, 2, 4, 8, 16]) (old : Nat) : a.fill (BitVec.ofNat 128 old) = a.loaded old := by
  have hlow (w : Nat) (hw : w ≤ 128) : (BitVec.ofNat 128 old).setWidth w = BitVec.ofNat w old := by
    refine BitVec.eq_of_toNat_eq ?_
    rw [BitVec.toNat_setWidth, BitVec.toNat_ofNat, BitVec.toNat_ofNat, Nat.mod_mod_of_dvd _ (pow_dvd_pow 2 hw)]
  unfold Access.fill Access.loaded
  cases a.sgn with
  | false => rw [if_neg Bool.false_ne_true, if_neg fun h => absurd h.1 Bool.false_ne_true]
  | true =>
    generalize a.size = n at hsize ⊢
    simp only [List.mem_cons, List.not_mem_nil, or_false] at hsize
    rcases hsize with rfl | rfl | rfl | rfl | rfl
    · simp [hlow 8]
    · simp [hlow 16]
    · simp [hlow 32]
    · simp
    · simp

/-- The result of an access has come, with its value, and every other result is as it was. -/
def Returns (p : Part) (old : Nat) (sp sp' : Span) : Prop :=
  ∀ r, p.acc.res = some r → (∀ q ∈ sp.results, q.id = r → q.need = 1 ∧ q.val = 0) →
    sp'.results = sp.results.map fun q => if q.id = r then { q with need := 0, val := p.acc.loaded old } else q

theorem deliver_returns {p : Part} (hskip : p.skip = 0) (hsize : p.acc.size ∈ [1, 2, 4, 8, 16]) {old : Nat} {sp a sp' : Span}
    (ha : a.results = sp.results) (h : sp'.results = (a.deliver p old).results) : Returns p old sp sp' := by
  intro r hr hone
  rw [h, Span.deliver, hr]
  change a.results.map _ = _
  rw [ha]
  refine List.map_congr_left fun q hq => ?_
  split
  · rename_i hid
    obtain ⟨hneed, hval⟩ := hone q hq hid
    have hor : (0 : BitVec 128) ||| BitVec.ofNat 128 old = BitVec.ofNat 128 old := BitVec.zero_or
    simp only [hneed, hval, hskip, Nat.mul_zero, pow_zero, Nat.mul_one, hor, Nat.sub_self, Nat.le_refl, if_true, fill_ofNat hsize]
  · rfl

/-! What is performed. -/

/-- A request of one part has been performed in `s`: what it told first, its part's effect, and its end. -/
structure Performed (s t u : State) (sp sp1 sp2 sp' : Span) (e : Entry) (p : Part) (copy : Option (List Byte)) : Prop where
  told   : s.Learned t
  before : t.span? sp.id = some sp1
  hears  : sp.Hears sp1
  part   : (t.performPart sp.id e copy p).span? sp.id = some sp2
  closes : State.Closes Span.Landed (t.performPart sp.id e copy p) u
  after  : u.span? sp.id = some sp'
  landed : sp2.Landed sp'

theorem Span.Landed.fields {a b : Span} (h : a.Landed b) : b.results = a.results ∧ b.lanes = a.lanes ∧ b.resv = a.resv ∧ b.epoch = a.epoch := by
  have hresults := congrArg Span.results h
  have hlanes := congrArg Span.lanes h
  have hresv := congrArg Span.resv h
  have hepoch := congrArg Span.epoch h
  exact ⟨hresults, hlanes, hresv, hepoch⟩

/-- What a span has been told leaves its lanes, its landing, its reservation and its place. -/
theorem Span.Hears.rest {a b : Span} (h : a.Hears b) :
    b.lanes = a.lanes ∧ b.landing = a.landing ∧ b.resv = a.resv ∧ b.part = a.part ∧ b.block = a.block := by
  have hlanes := congrArg Span.lanes h
  have hlanding := congrArg Span.landing h
  have hresv := congrArg Span.resv h
  have hpart := congrArg Span.part h
  have hblock := congrArg Span.block h
  exact ⟨hlanes, hlanding, hresv, hpart, hblock⟩

/-- A read-modify-write leaves the results of a span pending (R63). -/
theorem rmwDone_span {t : State} {id : Nat} {sp : Span} (h : t.span? id = some sp) (key : Nat) (bs : Option (List Byte)) (len : Nat) :
    ∃ sp', (t.rmwDone key bs len).span? id = some sp' ∧ sp'.results = sp.results := by
  have hwrite : t.Spares (match bs with | some b => t.poke key b | none => t.written (lineOf key) (lineOf key)) := by
    cases bs with
    | some b => exact poke_spares t key b
    | none => exact written_spares t _ _
  obtain ⟨sp1, h1, spares⟩ := hwrite id sp h
  have hresults1 := congrArg Span.results spares.rest
  obtain ⟨sp2, h2, marks⟩ := (lineRelease_closes (State.wrote _ none key len true) (lineOf key)).spans.span? Span.Marks.id_eq h1
  have hresults2 := congrArg Span.results marks.rest
  exact ⟨sp2, h2, hresults2.trans hresults1⟩

theorem rmwDone_mem (t : State) (key : Nat) (bs : Option (List Byte)) (len : Nat) :
    (t.rmwDone key bs len).mem = match bs with | some b => (t.poke key b).mem | none => t.mem := by
  cases bs <;> rfl

/-- After a write no span holds a reservation of its line (R185). -/
theorem poke_unreserved {t : State} {key line : Nat} {bs : List Byte} (hne : bs ≠ []) (hlo : lineOf key = line) (hhi : lineOf (key + bs.length - 1) = line)
    {sp : Span} (hsp : sp ∈ (t.poke key bs).spans) : sp.resv ≠ some line ∧ ∀ ln ∈ sp.lanes, ln.resv ≠ some line := by
  have hempty : ¬ bs.isEmpty = true := by rwa [List.isEmpty_iff]
  rw [State.poke, if_neg hempty, hlo, hhi] at hsp
  obtain ⟨a, -, rfl⟩ := List.mem_map.1 hsp
  have hcut (o : Option Nat) : (if (match o with | some n => decide (line ≤ n) && decide (n ≤ line) | none => false) = true then none else o) ≠ some line := by
    cases o with
    | none => simp
    | some n =>
      by_cases hn : n = line
      · simp [hn]
      · have : ¬ (line ≤ n ∧ n ≤ line) := by omega
        simp [hn, this]
  refine ⟨hcut a.resv, fun ln hln => ?_⟩
  obtain ⟨b, -, rfl⟩ := List.mem_map.1 hln
  exact hcut b.resv

/-- The lane of a WAITA after its read, by the condition on exact values (R89, R197). -/
theorem watchRead_eq {a : Access} (hsize : a.size = 4 ∨ a.size = 8) {ln : Lane} {w : Watch} (hwait : ln.wait = some (.watch w))
    (hseq : w.acc.seq = a.seq) (line x poll : Nat) :
    ln.watchRead a line x poll =
      if condHolds w.cond (exact w.sgn (BitVec.ofNat (8 * a.size) x)) (exact w.sgn (w.cmp.setWidth (8 * a.size))) = true then (setPred ln (some w.pd) true).go
      else { ln with wait := some (.watch { w with reading := false, line := some line, poll := poll, must := false }) } := by
  have hcond : (if a.size = 8 then intCond w.cond w.sgn (BitVec.ofNat 64 x) w.cmp else intCond w.cond w.sgn (BitVec.ofNat 32 x) (w.cmp.setWidth 32)) =
      condHolds w.cond (exact w.sgn (BitVec.ofNat (8 * a.size) x)) (exact w.sgn (w.cmp.setWidth (8 * a.size))) := by
    generalize a.size = n at hsize ⊢
    rcases hsize with rfl | rfl
    · rw [if_neg (by decide), intCond_eq]
    · rw [if_pos rfl, intCond_eq, BitVec.setWidth_eq]
  unfold Lane.watchRead
  simp only [hwait, hseq, ne_eq, not_true_eq_false, if_false, hcond]

section
variable {s t u : State} {sp sp1 sp2 sp' : Span} {e : Entry} {p : Part} {copy : Option (List Byte)}

namespace Performed

theorem span_eq (h : Performed s t u sp sp1 sp2 sp' e p copy) {a : Span} (ha : (t.performPart sp.id e copy p).span? sp.id = some a) : sp2 = a :=
  Option.some.inj (h.part.symm.trans ha)

/-- A load, from memory (R184). -/
theorem load (h : Performed s t u sp sp1 sp2 sp' e p none) (hskip : p.skip = 0) (hlen : p.len = p.acc.size) (hsize : p.acc.size ∈ [1, 2, 4, 8, 16])
    (hop : p.acc.op = .load) :
    u.mem = s.mem ∧ Returns p (s.nat (64 * e.pline + p.off) p.acc.size) sp sp' ∧ sp'.epoch = sp1.epoch := by
  obtain ⟨hmem, -, -⟩ := h.told.fields
  obtain ⟨-, -, hresults1⟩ := h.hears.fields
  obtain ⟨hresults, -, -, hepoch⟩ := h.landed.fields
  have hpart := performPart_load t sp.id e none hop
  have hnow : (t.onSpan sp.id (·.deliver p (t.partNat e.pline none p))).span? sp.id = some (sp1.deliver p (t.partNat e.pline none p)) :=
    span?_onSpan_self _ (fun a => deliver_sameId p a _) h.before
  have hsp2 : sp2 = sp1.deliver p (t.partNat e.pline none p) := h.span_eq (hpart ▸ hnow)
  have hold : t.partNat e.pline none p = s.nat (64 * e.pline + p.off) p.acc.size := by rw [State.partNat, hlen, nat_of_mem hmem]
  rw [hold] at hsp2
  refine ⟨?_, deliver_returns hskip hsize hresults1 (hresults.trans (congrArg Span.results hsp2)), ?_⟩
  · rw [h.closes.fields.1, hpart]
    exact hmem
  · rw [hepoch, hsp2]
    unfold Span.deliver
    split <;> rfl

/-- A load with reservation (R185). -/
theorem lda (h : Performed s t u sp sp1 sp2 sp' e p copy) (hskip : p.skip = 0) (hlen : p.len = p.acc.size) (hsize : p.acc.size ∈ [1, 2, 4, 8, 16])
    (hop : p.acc.op = .lda) :
    u.mem = s.mem ∧ Returns p (s.nat (64 * e.pline + p.off) p.acc.size) sp sp' ∧
      (∀ l, p.acc.lane = some l → l < sp.lanes.length → (sp'.lane l).resv = some e.pline) ∧ (p.acc.lane = none → sp'.resv = some e.pline) := by
  obtain ⟨hmem, -, -⟩ := h.told.fields
  obtain ⟨-, -, hresults1⟩ := h.hears.fields
  obtain ⟨hlanes1, -, -, -, -⟩ := h.hears.rest
  obtain ⟨hresults, hlanes, hresv, -⟩ := h.landed.fields
  have hpart := performPart_lda t sp.id e copy hop
  have hid (a : Span) (n : Nat) : ((a.deliver p n).reserve p.acc e).id = a.id := by
    refine Eq.trans ?_ (deliver_sameId p a n)
    unfold Span.reserve
    split <;> rfl
  have hnow := span?_onSpan_self (fun a => (a.deliver p (t.partNat e.pline none p)).reserve p.acc e) (fun a => hid a _) h.before
  have hsp2 := h.span_eq (hpart ▸ hnow)
  have hold : t.partNat e.pline none p = s.nat (64 * e.pline + p.off) p.acc.size := by rw [State.partNat, hlen, nat_of_mem hmem]
  rw [hold] at hsp2
  have hdelivered : (sp1.deliver p (s.nat (64 * e.pline + p.off) p.acc.size)).lanes = sp.lanes := by
    rw [← hlanes1]
    unfold Span.deliver
    split <;> rfl
  refine ⟨?_, deliver_returns hskip hsize hresults1 (hresults.trans ?_), fun l hl hlt => ?_, fun hl => ?_⟩
  · rw [h.closes.fields.1, hpart]
    exact hmem
  · rw [hsp2]
    unfold Span.reserve
    split <;> rfl
  · have hreserved := congrArg (fun a => (Span.lane a l).resv) hsp2
    simp only [Span.reserve, hl] at hreserved
    rw [lane_onLane, if_pos ⟨rfl, by rwa [hdelivered]⟩] at hreserved
    rw [Span.lane, hlanes]
    exact hreserved
  · rw [hresv, hsp2, Span.reserve, hl]

/-- A store (R184). -/
theorem store (h : Performed s t u sp sp1 sp2 sp' e p copy) (hskip : p.skip = 0) (hlen : p.len = p.acc.size) (hsize : p.acc.size ∈ [1, 2, 4, 8, 16])
    (hoff : p.off + p.len ≤ 64) (hop : p.acc.op = .store) :
    (∀ k, ¬ (64 * e.pline + p.off ≤ k ∧ k < 64 * e.pline + p.off + p.acc.size) → u.byte k = s.byte k) ∧
      (∀ k, k < p.acc.size → u.byte (64 * e.pline + p.off + k) = p.acc.data.extractLsb' (8 * k) 8) ∧
      ∀ a ∈ u.spans, a.resv ≠ some e.pline ∧ ∀ ln ∈ a.lanes, ln.resv ≠ some e.pline := by
  obtain ⟨hmem, -, -⟩ := h.told.fields
  have hpart := performPart_store t sp.id e copy hop
  have hreleased := released_learned (t.poke (64 * e.pline + p.off) p.bytes) sp.id (64 * e.pline + p.off) e.pkind p
  have hu : u.mem = (s.poke (64 * e.pline + p.off) p.bytes).mem := by
    rw [h.closes.fields.1, hpart, hreleased.fields.1, poke_mem, poke_mem, hmem]
  have hcount := part_bytes_length hskip hlen hsize
  have hpos : 0 < p.acc.size := by
    simp only [List.mem_cons, List.not_mem_nil, or_false] at hsize
    omega
  obtain ⟨hother, hstored⟩ := stored_bytes hskip hlen hsize hu
  refine ⟨hother, hstored, fun a ha => ?_⟩
  obtain ⟨b, hb, hab⟩ := h.closes.spans.mem ha
  rw [hpart] at hb
  obtain ⟨c, hc, hbc⟩ := hreleased.spans.mem hb
  obtain ⟨-, halanes, haresv, -⟩ := hab.fields
  obtain ⟨hblanes, -, hbresv, -, -⟩ := hbc.rest
  rw [haresv, hbresv, halanes, hblanes]
  refine poke_unreserved ?_ ?_ ?_ hc
  · rw [ne_eq, ← List.length_eq_zero_iff, hcount]
    omega
  · unfold lineOf
    omega
  · unfold lineOf
    rw [hcount]
    omega

/-- An STL, whose reservation held or did not (R185). -/
theorem stl (h : Performed s t u sp sp1 sp2 sp' e p copy) (hskip : p.skip = 0) (hlen : p.len = p.acc.size) (hsize : p.acc.size ∈ [1, 2, 4, 8, 16])
    (hparts : e.parts = [p]) (hthere : e ∈ sp.landing) (halone : ∀ f ∈ sp.landing, f.slot = e.slot → f = e) (hop : p.acc.op = .stl) :
    (p.acc.armed = true → (∀ k, ¬ (64 * e.pline + p.off ≤ k ∧ k < 64 * e.pline + p.off + p.acc.size) → u.byte k = s.byte k) ∧
        ∀ k, k < p.acc.size → u.byte (64 * e.pline + p.off + k) = p.acc.data.extractLsb' (8 * k) 8) ∧
      (p.acc.armed = false → u.mem = s.mem) ∧
      ∀ r l, p.acc.pd = some r → p.acc.lane = some l → r < 16 → l < sp.lanes.length → sp'.p r l = p.acc.armed := by
  obtain ⟨hmem, -, -⟩ := h.told.fields
  obtain ⟨hlanes1, hlanding1, -, -, -⟩ := h.hears.rest
  obtain ⟨-, hlanes, -, -⟩ := h.landed.fields
  have hslot : (sp1.landing.any fun f => f.slot = e.slot && f.parts.any fun q => q.acc.lane = p.acc.lane && q.acc.armed) = p.acc.armed := by
    rw [hlanding1]
    cases harmed : p.acc.armed with
    | true => exact List.any_eq_true.2 ⟨e, hthere, by simp [hparts, harmed]⟩
    | false =>
      refine List.any_eq_false.2 fun f hf hany => ?_
      simp only [Bool.and_eq_true, decide_eq_true_eq] at hany
      obtain ⟨hslot, hany⟩ := hany
      rw [halone f hf hslot, hparts] at hany
      simp [harmed] at hany
  have hpart := performPart_stl t sp.id e copy hop h.before hslot
  have hreleased := released_learned (t.poke (64 * e.pline + p.off) p.bytes) sp.id (64 * e.pline + p.off) e.pkind p
  have hu := h.closes.fields.1
  rw [hpart] at hu
  refine ⟨fun harmed => stored_bytes hskip hlen hsize ?_, fun harmed => ?_, fun r l hr hl hr16 hlt => ?_⟩
  · rw [hu, State.onSpan_mem, if_pos harmed, hreleased.fields.1, poke_mem, poke_mem, hmem]
  · rw [hu, State.onSpan_mem, harmed, if_neg Bool.false_ne_true, hmem]
  · have hwritten : ∃ a, (if p.acc.armed then (t.poke (64 * e.pline + p.off) p.bytes).released sp.id (64 * e.pline + p.off) e.pkind p
        else t).span? sp.id = some a ∧ a.lanes.length = sp.lanes.length := by
      split
      · obtain ⟨b, hb, spares⟩ := poke_spares t (64 * e.pline + p.off) p.bytes sp.id sp1 h.before
        obtain ⟨c, hc, hears⟩ := hreleased.span? hb
        exact ⟨c, hc, by rw [hears.rest.1, spares.count, hlanes1]⟩
      · exact ⟨sp1, h.before, by rw [hlanes1]⟩
    obtain ⟨a, ha, hcount⟩ := hwritten
    have hsp2 := h.span_eq (hpart ▸ span?_onSpan_self (·.stlDone p.acc p.acc.armed) (fun b => stlDone_sameId b p.acc _) ha)
    have hfences : (if p.acc.armed then a.takeFences p.acc else a).lanes.length = sp.lanes.length := by
      split
      exacts [hcount, hcount]
    rw [Span.p, Span.lane, hlanes, hsp2]
    change (((if p.acc.armed then a.takeFences p.acc else a).putPd p.acc p.acc.armed).p r l) = p.acc.armed
    rw [Span.putPd, hr, hl]
    dsimp only
    rw [p_setP, if_pos ⟨rfl, hr16, rfl, by rwa [hfences]⟩]

/-- RED and ATOM (R189). -/
theorem atomic (h : Performed s t u sp sp1 sp2 sp' e p copy) (hskip : p.skip = 0) (hsize : p.acc.size ∈ [1, 2, 4, 8, 16])
    (hop : p.acc.op = .red ∨ p.acc.op = .atom) :
    (∀ k, ¬ (64 * e.pline + p.off ≤ k ∧ k < 64 * e.pline + p.off + p.acc.size) → u.byte k = s.byte k) ∧
      u.nat (64 * e.pline + p.off) p.acc.size = ((rmw p.acc.size p.acc.aop p.acc.aty (BitVec.ofNat 64 (s.nat (64 * e.pline + p.off) p.acc.size))
        (p.acc.data.setWidth 64)).setWidth (8 * p.acc.size)).toNat ∧
      (p.acc.op = .atom → Returns p (s.nat (64 * e.pline + p.off) p.acc.size) sp sp') := by
  obtain ⟨hmem, -, -⟩ := h.told.fields
  obtain ⟨-, -, hresults1⟩ := h.hears.fields
  obtain ⟨hresults, -, -, -⟩ := h.landed.fields
  have hold := nat_of_mem hmem (64 * e.pline + p.off) p.acc.size
  have hred := performPart_red t sp.id e copy (p := p)
  have hatom := performPart_atom t sp.id e copy (p := p)
  rw [hold] at hred hatom
  generalize s.nat (64 * e.pline + p.off) p.acc.size = old at *
  have hreleased := released_learned (t.rmwDone (64 * e.pline + p.off) (some (p.acc.rmwBytes old)) p.acc.size) sp.id (64 * e.pline + p.off) e.pkind p
  have hv : (t.performPart sp.id e copy p).mem = (s.poke (64 * e.pline + p.off) (p.acc.rmwBytes old)).mem := by
    have hwritten : (State.released _ sp.id (64 * e.pline + p.off) e.pkind p).mem = _ := hreleased.fields.1.trans (rmwDone_mem ..)
    rw [poke_mem, ← hmem, ← poke_mem]
    rcases hop with hop | hop
    · rw [hred hop, hwritten]
    · rw [hatom hop, State.onSpan_mem, hwritten]
  obtain ⟨hother, hnew⟩ := written_number (h.closes.fields.1.trans hv)
  refine ⟨hother, ?_, fun hop => ?_⟩
  · rw [hnew, BitVec.toNat_setWidth]
  · obtain ⟨a, ha, haresults⟩ := rmwDone_span h.before (64 * e.pline + p.off) (some (p.acc.rmwBytes old)) p.acc.size
    obtain ⟨b, hb, hears⟩ := hreleased.span? ha
    obtain ⟨-, -, hbresults⟩ := hears.fields
    have hsp2 := h.span_eq (hatom hop ▸ span?_onSpan_self (·.deliver p old) (fun c => deliver_sameId p c _) hb)
    exact deliver_returns hskip hsize (hbresults.trans (haresults.trans hresults1)) (hresults.trans (congrArg Span.results hsp2))

/-- CAS (R189). -/
theorem cas (h : Performed s t u sp sp1 sp2 sp' e p copy) (hskip : p.skip = 0) (hsize : p.acc.size ∈ [1, 2, 4, 8, 16]) (hop : p.acc.op = .cas) :
    (∀ k, ¬ (64 * e.pline + p.off ≤ k ∧ k < 64 * e.pline + p.off + p.acc.size) → u.byte k = s.byte k) ∧
      Returns p (s.nat (64 * e.pline + p.off) p.acc.size) sp sp' ∧
      u.nat (64 * e.pline + p.off) p.acc.size = if s.nat (64 * e.pline + p.off) p.acc.size = p.acc.data.toNat % 2 ^ (8 * p.acc.size)
        then p.acc.data2.toNat % 2 ^ (8 * p.acc.size) else s.nat (64 * e.pline + p.off) p.acc.size := by
  obtain ⟨hmem, -, -⟩ := h.told.fields
  obtain ⟨-, -, hresults1⟩ := h.hears.fields
  obtain ⟨hresults, -, -, -⟩ := h.landed.fields
  have hpart := performPart_cas t sp.id e copy hop
  rw [nat_of_mem hmem] at hpart
  generalize hold : s.nat (64 * e.pline + p.off) p.acc.size = old at *
  have hreleased := released_learned (t.rmwDone (64 * e.pline + p.off) (p.acc.casBytes old) p.acc.size) sp.id (64 * e.pline + p.off) e.pkind p
  have hu : u.mem = match p.acc.casBytes old with | some b => (s.poke (64 * e.pline + p.off) b).mem | none => s.mem := by
    rw [h.closes.fields.1, hpart, State.onSpan_mem, hreleased.fields.1, rmwDone_mem]
    cases p.acc.casBytes old with
    | some b =>
      dsimp only
      rw [poke_mem, poke_mem, hmem]
    | none => exact hmem
  obtain ⟨a, ha, haresults⟩ := rmwDone_span h.before (64 * e.pline + p.off) (p.acc.casBytes old) p.acc.size
  obtain ⟨b, hb, hears⟩ := hreleased.span? ha
  obtain ⟨-, -, hbresults⟩ := hears.fields
  have hsp2 := h.span_eq (hpart ▸ span?_onSpan_self (·.deliver p old) (fun c => deliver_sameId p c _) hb)
  have hreturns : Returns p old sp sp' :=
    deliver_returns hskip hsize (hbresults.trans (haresults.trans hresults1)) (hresults.trans (congrArg Span.results hsp2))
  unfold Access.casBytes at hu
  split
  · rename_i heq
    rw [if_pos heq] at hu
    obtain ⟨hother, hnew⟩ := written_number hu
    exact ⟨hother, hreturns, hnew⟩
  · rename_i hne
    rw [if_neg hne] at hu
    exact ⟨fun k _ => byte_of_mem hu k, hreturns, (nat_of_mem hu _ _).trans hold⟩

/-- An SRED whose shadow line is new (R191). -/
theorem sred (h : Performed s t u sp sp1 sp2 sp' e p copy) (hop : p.acc.op = .sred) :
    u.mem = s.mem ∧ ((∀ g ∈ s.shadows, g.isFor sp.die sp.part e.pline p.acc.aop p.acc.aty p.acc.size = false) →
      u.shadows = s.shadows ++ [⟨sp.die, sp.part, e.pline, p.acc.aop, p.acc.aty, p.acc.size,
        [(p.off, rmw p.acc.size p.acc.aop p.acc.aty (rmwUnit p.acc.size p.acc.aop p.acc.aty) (p.acc.data.setWidth 64))], [sp.block]⟩]) := by
  obtain ⟨hmem, hshadows, -⟩ := h.told.fields
  obtain ⟨hid, -, -⟩ := h.hears.fields
  obtain ⟨-, -, -, hpartition, hblock⟩ := h.hears.rest
  have hdie : sp1.die = sp.die := by rw [Span.die, hid]; rfl
  have hpart := performPart_sred t sp.id e copy hop h.before
  rw [hdie, hpartition, hblock] at hpart
  obtain ⟨hu, hushadows⟩ := h.closes.fields
  rw [hpart] at hu hushadows
  refine ⟨?_, fun hnew => ?_⟩
  · rw [hu, ← hmem]
    unfold State.contribute
    split <;> rfl
  · have hnone : (t.shadows.any fun g => g.isFor sp.die sp.part e.pline p.acc.aop p.acc.aty p.acc.size) = false :=
      List.any_eq_false.2 fun g hg => by rw [hnew g (hshadows ▸ hg)]; exact Bool.false_ne_true
    rw [hushadows, State.contribute, if_neg (by rw [hnone]; exact Bool.false_ne_true), hshadows]
    rfl

/-- The read of a WAITA (R197): its lane goes on when the condition holds, and watches its line when it does not. -/
theorem waita (h : Performed s t u sp sp1 sp2 sp' e p copy) (hlen : p.len = p.acc.size) (hsize : p.acc.size = 4 ∨ p.acc.size = 8)
    (hop : p.acc.op = .waita) {l : Nat} {w : Watch} (hl : p.acc.lane = some l) (hlt : l < sp.lanes.length) (hwait : (sp.lane l).wait = some (.watch w))
    (hseq : w.acc.seq = p.acc.seq) :
    u.mem = s.mem ∧
      let holds := condHolds w.cond (exact w.sgn (BitVec.ofNat (8 * p.acc.size) (s.nat (64 * e.pline + p.off) p.acc.size)))
        (exact w.sgn (w.cmp.setWidth (8 * p.acc.size)))
      (holds = true → (sp'.lane l).st = .ready ∧ (sp'.lane l).pc = (sp.lane l).pc + 8 ∧ (sp'.lane l).wait = none ∧ (w.pd < 16 → sp'.p w.pd l = true)) ∧
      (holds = false → (sp'.lane l).st = (sp.lane l).st ∧ (sp'.lane l).pc = (sp.lane l).pc ∧ ∃ v, (sp'.lane l).wait = some (.watch v) ∧
        v.reading = false ∧ v.line = some e.pline ∧ v.cond = w.cond ∧ v.cmp = w.cmp ∧ v.due = w.due) := by
  obtain ⟨hmem, -, -⟩ := h.told.fields
  obtain ⟨hid, -, -⟩ := h.hears.fields
  obtain ⟨hlanes1, -, -, -, -⟩ := h.hears.rest
  obtain ⟨-, hlanes, -, -⟩ := h.landed.fields
  have hlearned := performPart_waita t sp.id e copy hop h.before hl
  have hput := span?_putSpan_self t (sp1.watchLane t e p l) sp1 (hid.symm ▸ h.before)
  obtain ⟨a, ha, hears⟩ := hlearned.span? hput
  have hsp2 : sp2 = a := h.span_eq (hid ▸ ha)
  have hold : t.partNat e.pline none p = s.nat (64 * e.pline + p.off) p.acc.size := by rw [State.partNat, hlen, nat_of_mem hmem]
  have hlane : sp'.lane l = (sp.lane l).watchRead p.acc e.pline (s.nat (64 * e.pline + p.off) p.acc.size) ((t.time sp1.die).toNat + 1000) := by
    rw [Span.lane, hlanes, hsp2, hears.rest.1, ← Span.lane, Span.watchLane, lane_onLane, if_pos ⟨rfl, by rwa [hlanes1]⟩, hold, Span.lane, hlanes1]
    rfl
  refine ⟨?_, ?_⟩
  · rw [h.closes.fields.1, hlearned.fields.1]
    exact hmem
  · intro holds
    rw [watchRead_eq hsize hwait hseq] at hlane
    refine ⟨fun hyes => ?_, fun hno => ?_⟩
    · rw [if_pos hyes] at hlane
      refine ⟨by rw [hlane]; rfl, by rw [hlane]; rfl, by rw [hlane]; rfl, fun hpd => ?_⟩
      rw [Span.p, hlane]
      change (setBit (sp.lane l).preds w.pd true).getLsbD w.pd = true
      rw [getLsbD_setBit, if_pos ⟨rfl, hpd⟩]
    · rw [if_neg fun hyes => Bool.false_ne_true (hno.symm.trans hyes)] at hlane
      exact ⟨by rw [hlane], by rw [hlane], _, congrArg Lane.wait hlane, rfl, rfl, rfl, rfl, rfl⟩

end Performed

end

section
variable {s : State} {sp : Span} {e : Entry} {p : Part}

/-- R112: a request of one lane's part that may be performed is. -/
theorem performed_one (hsp : s.span? sp.id = some sp) (hres : sp.resident = true) (he : sp.landing.find? (fun f => decide (f.slot = e.slot)) = some e)
    (hcan : s.canPerform sp e = true) (hlive : (homeDie (64 * e.pline)).any s.fenced.contains = false) (hparts : e.parts = [p])
    (hmerge : (e.write && e.order.releases && e.scope.all) = false) (fromL1 : Bool) (lanes : List Nat) :
    ∃ u sp1 sp2 sp', exec (.requestPerformed sp.id e.slot fromL1 lanes) s = .next (u.settle sp.id) ∧ sp'.doneAt e.slot ∧
      Performed s (s.toldBefore sp e (s.copyFor sp e fromL1)) u sp sp1 sp2 sp' e p ((s.copyFor sp e fromL1).map (·.bytes)) := by
  have htold := toldBefore_learned s sp e (s.copyFor sp e fromL1)
  obtain ⟨sp1, h1, hears⟩ := htold.span? hsp
  obtain ⟨sp2, h2⟩ := performPart_there (s.toldBefore sp e (s.copyFor sp e fromL1)) sp.id e ((s.copyFor sp e fromL1).map (·.bytes)) p h1
  obtain ⟨hcloses, sp', h', hlanded, hdone⟩ := finish_closes _ sp e (s.copyFor sp e fromL1) h2
  refine ⟨_, sp1, sp2, sp', ?_, hdone, htold, h1, hears, h2, hcloses, h', hlanded⟩
  rw [exec_requestPerformed hsp hres he hcan, hlive, if_neg Bool.false_ne_true, perform_one hparts hmerge]

/-- R161: what a load that acquires at a wide scope tells leaves its span's fill epoch at this step. -/
theorem toldBefore_epoch (hsp : s.span? sp.id = some sp) (hparts : e.parts = [p]) (hop : p.acc.op = .load) (hacquires : e.order.acquires = true)
    (hwide : e.scope.wide = true) (copy : Option L1Line) : ∃ sp1, (s.toldBefore sp e copy).span? sp.id = some sp1 ∧ sp1.epoch = s.steps := by
  have hreads : e.any AccOp.reads = true := by simp [Entry.any, hparts, hop, AccOp.reads]
  have hwaita : e.any (· = .waita) = false := by simp [Entry.any, hparts, hop]
  obtain ⟨a, ha, hepoch⟩ := acquired_epoch (copy := copy) hsp hacquires hwaita hwide
  unfold State.toldBefore
  rw [if_pos hreads]
  dsimp only
  split
  · refine (seqEvent_epoch ha _ _).imp fun b hb => ⟨hb.1, ?_⟩
    exact hb.2.trans hepoch
  · exact ⟨a, ha, hepoch⟩

/-- The span of a request to a fenced die. -/
def Span.deadDone (sp : Span) (e : Entry) (p : Part) : Span :=
  ({ (match p.acc.res with | some r => sp.onResult r fun q => { q with need := 0, val := 0 } | none => sp) with
      landing := sp.landing.map fun f => if f.slot = e.slot then { f with st := .done } else f } : Span).record .diefail

theorem performDead_one (hparts : e.parts = [p]) (hop : p.acc.op ≠ .stl) : s.performDead sp e = (s.onSpan sp.id (·.deadDone e p)).settle sp.id := by
  unfold State.performDead
  simp only [hparts, List.foldl_cons, List.foldl_nil, if_neg hop]
  rfl

/-- R360: a request to a fenced die ends, its result is 0, and DIEFAIL is recorded. -/
theorem performedDead_one (hsp : s.span? sp.id = some sp) (hres : sp.resident = true) (he : sp.landing.find? (fun f => decide (f.slot = e.slot)) = some e)
    (hcan : s.canPerform sp e = true) (hdead : (homeDie (64 * e.pline)).any s.fenced.contains = true) (hparts : e.parts = [p])
    (hop : p.acc.op ≠ .stl) (fromL1 : Bool) (lanes : List Nat) :
    ∃ (u : State) (sp' : Span), exec (.requestPerformed sp.id e.slot fromL1 lanes) s = .next (u.settle sp.id) ∧ u.span? sp.id = some sp' ∧
      u.mem = s.mem ∧ u.shadows = s.shadows ∧ sp'.doneAt e.slot ∧ sp'.due = true ∧ sp'.cause = some (sp.cause.getD .diefail) ∧
      ∀ r, p.acc.res = some r → sp'.results = sp.results.map fun q => if q.id = r then { q with need := 0, val := 0 } else q := by
  have hid (a : Span) : (a.deadDone e p).id = a.id := by
    unfold Span.deadDone
    split <;> rfl
  refine ⟨s.onSpan sp.id (·.deadDone e p), sp.deadDone e p, ?_, span?_onSpan_self _ hid hsp, rfl, rfl, fun f hf hslot => ?_, rfl, ?_, fun r hr => ?_⟩
  · rw [exec_requestPerformed hsp hres he hcan, if_pos hdead, performDead_one hparts hop]
  · obtain ⟨g, -, rfl⟩ := List.mem_map.1 hf
    split
    · rfl
    · rename_i hne
      rw [if_neg hne] at hslot
      exact absurd hslot hne
  · unfold Span.deadDone
    cases p.acc.res <;> cases hcause : sp.cause <;> simp [Span.record, Span.onResult, hcause]
  · rw [Span.deadDone, hr]
    rfl

end

/-- Settles O31: the operations of a word are `rmw_operations`; a request's effect is that of its one part, between what it tells first and its end. -/
theorem requestsPerformed : Obligations.requests_performed := by
  unfold Obligations.requests_performed
  refine ⟨fun size aop aty x y hsize => rmw_operations hsize aop aty x y, ?_, ?_⟩
  · intro s sp e p fromL1 lanes hsp hres he hcan hlive hparts hskip hlen hsize hoff hmerge
    extract_lets n key old loaded returns other
    obtain ⟨u, sp1, sp2, sp', hexec, hdone, h⟩ := performed_one hsp hres he hcan hlive hparts hmerge fromL1 lanes
    refine ⟨u, sp', hexec, h.after, hdone, fun hop hhome => ?_, fun hop => h.lda hskip hlen hsize hop, fun hop => h.store hskip hlen hsize hoff hop,
      fun hop halone => h.stl hskip hlen hsize hparts (List.mem_of_find?_eq_some he) halone hop, fun _ hop => h.atomic hskip hsize hop,
      fun _ hop => h.cas hskip hsize hop, fun hop => h.sred hop, fun hword hop l w hl hlt hwait hseq => h.waita hlen hword hop hl hlt hwait hseq⟩
    have hcopy : s.copyFor sp e fromL1 = none := by
      unfold State.copyFor
      rcases hhome with rfl | hnone
      · rfl
      · rw [hnone]
        split <;> rfl
    rw [hcopy] at h
    obtain ⟨hmem, hreturns, hepoch⟩ := h.load hskip hlen hsize hop
    refine ⟨hmem, hreturns, fun hacquires hwide => ?_⟩
    obtain ⟨a, ha, hnow⟩ := toldBefore_epoch hsp hparts hop hacquires hwide none
    rw [hepoch, Option.some.inj (h.before.symm.trans ha), hnow]
  · intro s sp e p fromL1 lanes hsp hres he hcan hdead hparts hop
    exact performedDead_one hsp hres he hcan hdead hparts hop fromL1 lanes

end Sys2Proof.Machine
end

section
/-! SUPPORT. A bounce and the boarding after it, each under its own conditions, and the obligation about both (R129 to R132). -/

namespace Sys2Proof.Machine

variable {s : State} {sp : Span} {e : Entry}

theorem exec_bounce (hsp : s.span? sp.id = some sp) (hres : sp.resident = true)
    (he : sp.landing.find? (fun f => decide (f.slot = e.slot)) = some e) (reason : BitVec 4) (hcan : s.bounceable sp e reason.toNat = true) :
    exec (.bounce sp.id e.slot reason) s =
      .next ((if decide (e.st = .ordered) && e.stores then s.writeSent sp.pier e else s).onEntry sp.id e.slot fun f =>
        { f with st := (match (sp.marks e).getLast? with | some b => .chained b.slot | none => .ashore), since := s.steps, reason := reason.toNat
                 bounces := min 255 (f.bounces + 1), due := (s.time sp.die).toNat + backoff f.bounces
                 woken := (decide (reason = 3) || decide (reason = 4)) && (s.forwarded f.pline).isSome }) := by
  change execBounce .. = _
  unfold execBounce
  simp only [hsp, he, hres, hcan]
  rfl

theorem exec_backoffExpiry (hsp : s.span? sp.id = some sp) (hres : sp.resident = true)
    (he : sp.landing.find? (fun f => decide (f.slot = e.slot)) = some e) (hst : e.st = .ashore) (hdue : e.due ≤ (s.time sp.die).toNat) :
    exec (.backoffExpiry sp.id e.slot) s = .next (s.reboard sp e) := by
  change execBackoffExpiry .. = _
  simp [execBackoffExpiry, hsp, he, hres, hst, hdue]

theorem exec_wakeEvent (hsp : s.span? sp.id = some sp) (hres : sp.resident = true)
    (he : sp.landing.find? (fun f => decide (f.slot = e.slot)) = some e) (hst : e.st = .ashore)
    (hwake : e.woken = true ∨ e.reason = 7 ∨ e.reason = 8) : exec (.wakeEvent sp.id e.slot) s = .next (s.reboard sp e) := by
  change execWakeEvent .. = _
  have hcond : (e.woken || decide (e.reason = 2) || decide (e.reason = 7) || decide (e.reason = 8)) = true := by
    rcases hwake with h | h | h <;> simp [h]
  simp [execWakeEvent, hsp, he, hres, hst, hcond]

/-- Can a request be bounced: for a mark's reason, or for one of its own (R130, R132)? -/
theorem bounceable_of {reason : BitVec 4} (hmay : if e.op = .mem then s.maySend sp e = true else e.st = .inflight)
    (hwhy : (∃ b ∈ sp.marks e, b.reason = reason.toNat ∧ reason ≠ 0 ∧ reason ≠ 2) ∨ reason = 1 ∨ reason = 7 ∨ reason = 8 ∨
      (reason = 3 ∧ e.op = .mem ∧ s.lineMoved e.pline = true) ∨
      (reason = 4 ∧ e.op = .mem ∧ s.lineMoved e.pline = true ∧ ∃ m ∈ s.moves, (m.newLoc = 3 ∨ m.oldLoc = 3) ∧
        placeKey m.oldLoc m.old ≤ 64 * e.pline ∧ 64 * e.pline < placeKey m.oldLoc m.old + 2 ^ m.size) ∨
      (reason = 5 ∧ e.op = .mem ∧ s.lineHeld e.pline = true) ∨ (reason = 6 ∧ e.op = .mem ∧ 2 ^ 52 ≤ 64 * e.pline)) :
    s.bounceable sp e reason.toNat = true := by
  have hsend : (if e.isMem then s.maySend sp e else decide (e.st = .inflight)) = true := by
    by_cases hop : e.op = .mem <;> simp_all [Entry.isMem]
  unfold State.bounceable
  rw [hsend, Bool.true_and, Bool.or_eq_true]
  rcases hwhy with ⟨b, hb, hreason, h0, h2⟩ | rfl | rfl | rfl | ⟨rfl, hop, hmoved⟩ | ⟨rfl, hop, hmoved, m, hm, hloc, hlo, hhi⟩ | ⟨rfl, hop, hheld⟩ |
    ⟨rfl, hop, hcap⟩
  · have hne (k : BitVec 4) (h : reason ≠ k) : reason.toNat ≠ k.toNat := fun hk => h (BitVec.eq_of_toNat_eq hk)
    exact .inl (List.any_eq_true.2 ⟨b, hb, by simpa [hreason] using ⟨hne 0 h0, hne 2 h2⟩⟩)
  · exact .inr rfl
  · exact .inr rfl
  · exact .inr rfl
  · exact .inr (by simp [Entry.isMem, hop, hmoved])
  · have hany : (s.moves.any fun m => (decide (m.newLoc = 3) || decide (m.oldLoc = 3)) && decide (placeKey m.oldLoc m.old ≤ 64 * e.pline) &&
        decide (64 * e.pline < placeKey m.oldLoc m.old + 2 ^ m.size)) = true :=
      List.any_eq_true.2 ⟨m, hm, by simp [hloc, hlo, hhi]⟩
    exact .inr (by simpa [Entry.isMem, hop, hmoved] using hany)
  · exact .inr (by simp [Entry.isMem, hop, hheld])
  · have hkey : decide (capBase ≤ 64 * e.pline) = true := decide_eq_true hcap
    exact .inr (by simp [Entry.isMem, hop, hkey])

/-- A request boards where it was, behind what it must stay behind (R131, R132). -/
theorem reboard_same (hop : e.op = .mem) (hreason : e.reason ≠ 2) (hwoken : e.woken = false ∨ (e.reason ≠ 3 ∧ e.reason ≠ 4)) :
    s.reboard sp e = (s.onEntry sp.id e.slot fun _ =>
      { e with woken := false, st := boardState (sp.landing.filter fun f => decide (f.slot ≠ e.slot)) { e with woken := false } }).settle sp.id := by
  have hstay : (e.woken && (decide (e.reason = 3) || decide (e.reason = 4))) = false := by
    rcases hwoken with h | ⟨h3, h4⟩ <;> simp [*]
  simp [State.reboard, State.entryHeld, Entry.isMem, hop, hreason, hstay]

/-- A record goes on from where it was. -/
theorem reboard_record {r : TaskRec} (hop : e.op = .record r) (hreason : e.reason ≠ 2) :
    s.reboard sp e = s.onEntry sp.id e.slot fun f => { f with st := .inflight, woken := false } := by
  simp [State.reboard, State.entryHeld, Entry.isMem, hop, hreason]

/-- After a move a request is checked again, and boards where its check passes, or at the place that the wake carried (R131, R148). -/
theorem reboard_moved {cx : Context} {s1 : State} {o : XOut} {line : Nat} (hop : e.op = .mem) (hwoken : e.woken = true)
    (hreason : e.reason = 3 ∨ e.reason = 4) (hforwarded : s.forwarded e.pline = some line) (hctx : s.ctx? sp.ctx = some cx)
    (hheld : s.seekHeld (some sp.pier) cx (64 * e.vline) e.need = false) (hlook : s.lookAgain sp e cx = (s1, o)) :
    s.reboard sp e =
      let to_ : Nat × PKind := match o with | .pass key kind => (key / 64, kind) | _ => (line, e.pkind)
      let x := { e with pline := to_.1, pkind := to_.2, woken := false }
      (s1.onEntry sp.id e.slot fun _ => { x with st := boardState (sp.landing.filter fun f => decide (f.slot ≠ e.slot)) x }).settle sp.id := by
  have h2 : e.reason ≠ 2 := by omega
  have hmoved : (e.woken && (decide (e.reason = 3) || decide (e.reason = 4))) = true := by simp [hwoken, hreason]
  have hentry : s.entryHeld sp e = false := by simp [State.entryHeld, hctx, hheld]
  unfold State.reboard
  simp only [hentry, Entry.isMem, hop, h2, hctx, hmoved, hlook, hforwarded]
  cases o <;> simp [lineOf]

/-- A second look-up: what the pier's TLBs say where they can serve it, else a walk (R121 to R123). -/
theorem lookAgain_eq {cx : Context} {s1 : State} {o : XOut}
    (hlook : (s.tlbLook sp.pier cx (64 * e.vline) e.need = some o ∧ s1 = s) ∨
      (s.tlbLook sp.pier cx (64 * e.vline) e.need = none ∧ s.walkHeld cx (64 * e.vline) = false ∧
        s.walk (some sp.pier) cx (64 * e.vline) e.need = (s1, o))) :
    s.seekHeld (some sp.pier) cx (64 * e.vline) e.need = false ∧ s.lookAgain sp e cx = (s1, o) := by
  rcases hlook with ⟨hlook, rfl⟩ | ⟨hlook, hheld, hwalk⟩
  · simp [State.seekHeld, State.lookAgain, State.seek, hlook]
  · simp [State.seekHeld, State.lookAgain, State.seek, hlook, hheld, hwalk]

/-! Where a request boards (R113, R132). -/

/-- An entry ashore or chained, of an earlier request for the line. -/
def Entry.goesBefore (e f : Entry) : Prop :=
  f.op = .mem ∧ f.seq < e.seq ∧ (f.pline = e.pline ∨ f.vline = e.vline) ∧ (f.st = .ashore ∨ ∃ k, f.st = .chained k)

/-- The test of `boardState` for such an entry. -/
def Entry.marked (e f : Entry) : Bool :=
  f.isMem && decide (f.seq < e.seq) && f.sameLine e && (match f.st with | .ashore | .chained _ => true | _ => false)

theorem marked_iff (f : Entry) : e.marked f = true ↔ e.goesBefore f := by
  unfold Entry.marked Entry.goesBefore
  cases f.st <;> simp [Entry.isMem, Entry.sameLine, and_assoc]

theorem boardState_eq (ls : List Entry) (e : Entry) : boardState ls e =
    match (ls.filter e.marked).getLast?, (ls.filter fun f => f.isFence && decide (f.seq < e.seq)).getLast? with
    | some f, _ => .chained f.slot
    | none, some f => if e.write then .chained f.slot else .inflight
    | none, none => if e.order.releases && e.write || e.order = .seq then .ordered else .inflight := rfl

theorem boardState_chained {ls : List Entry} {f : Entry} (hf : f ∈ ls) (hbefore : e.goesBefore f) :
    ∃ g ∈ ls, e.goesBefore g ∧ boardState ls e = .chained g.slot := by
  have hmem : f ∈ ls.filter e.marked := List.mem_filter.2 ⟨hf, (marked_iff f).2 hbefore⟩
  obtain ⟨g, hg⟩ := Option.isSome_iff_exists.1 (List.getLast?_isSome.2 (List.ne_nil_of_mem hmem))
  obtain ⟨hin, hgo⟩ := List.mem_filter.1 (List.mem_of_getLast? hg)
  exact ⟨g, hin, (marked_iff g).1 hgo, by rw [boardState_eq, hg]⟩

theorem boardState_sent {ls : List Entry} (hbefore : ∀ f ∈ ls, ¬ e.goesBefore f) (hfence : ∀ f ∈ ls, f.op = .fence → e.seq ≤ f.seq)
    (hplain : e.order = .plain) : boardState ls e = .inflight := by
  have hmarked : ls.filter e.marked = [] := List.filter_eq_nil_iff.2 fun f hf h => hbefore f hf ((marked_iff f).1 h)
  have hfences : (ls.filter fun f => f.isFence && decide (f.seq < e.seq)) = [] := List.filter_eq_nil_iff.2 fun f hf h => by
    simp only [Entry.isFence, Bool.and_eq_true, decide_eq_true_eq] at h
    have := hfence f hf h.1
    omega
  rw [boardState_eq, hmarked, hfences, hplain]
  rfl

/-- Settles O33: a bounce that is allowed puts the entry ashore or behind a mark; a boarding is one of `reboard_same`, `reboard_record` and
`reboard_moved`, and its place is `boardState`. -/
theorem bounces : Obligations.bounces := by
  unfold Obligations.bounces
  intro s sp e hsp hres he
  extract_lets now onEntry others boards moving marks need before
  refine ⟨fun reason hmay hwhy => exec_bounce hsp hres he reason (bounceable_of hmay hwhy), fun hst hop hreason hwoken hdue => ?_,
    fun hst hdue ⟨r, hop⟩ hreason => ?_, fun hst hop hwake => ?_, fun cx s1 o line hst hop hwoken hreason hforwarded hctx hlook => ?_, fun ls f hf => ?_,
    fun ls hbefore hfence hplain => boardState_sent (fun f hf h => hbefore f ⟨hf, h⟩) hfence hplain⟩
  · exact (exec_backoffExpiry hsp hres he hst hdue).trans (congrArg _ (reboard_same hop hreason hwoken))
  · exact (exec_backoffExpiry hsp hres he hst hdue).trans (congrArg _ (reboard_record hop hreason))
  · have hwakes : e.woken = true ∨ e.reason = 7 ∨ e.reason = 8 := by tauto
    refine (exec_wakeEvent hsp hres he hst hwakes).trans (congrArg _ (reboard_same hop (by omega) ?_))
    exact .inr (by omega)
  · obtain ⟨hheld, hagain⟩ := lookAgain_eq hlook
    have hboards := (exec_wakeEvent hsp hres he hst (.inl hwoken)).trans
      (congrArg _ (reboard_moved hop hwoken hreason hforwarded hctx hheld hagain))
    refine ⟨fun key kind ho => ?_, fun ho => ?_⟩
    · subst ho
      exact hboards
    · cases o with
      | pass key kind => exact absurd rfl (ho key kind)
      | park why => exact hboards
      | fatal cause => exact hboards
  · obtain ⟨g, hin, hg, hboard⟩ := boardState_chained hf.1 hf.2
    exact ⟨g, ⟨hin, hg⟩, hboard⟩

end Sys2Proof.Machine
end

section
/-! SUPPORT. The steps of a shoot-down: who holds an old translation after an acknowledgement, and when it is over; and the obligation about
them (R145, R146, R335). -/

namespace Sys2Proof.Machine

variable {s : State} {d : ShootDown}

/-! Holders (R146). -/

/-- Request `x` of pier `p` is counted. -/
def Counted (hs : List (Nat × List (Nat × Nat))) (p : Nat) (x : Nat × Nat) : Prop := ∃ h ∈ hs, h.1 = p ∧ x ∈ h.2

/-- One pier's holders are counted, with those counted before. -/
def State.countHolders (s : State) (d : ShootDown) (hs : List (Nat × List (Nat × Nat))) (p : Nat) : List (Nat × List (Nat × Nat)) :=
  let now := ((((hs.filter (·.1 = p)).map (·.2)).flatten) ++ s.holders d p).eraseDups
  if now.isEmpty then hs else hs.filter (·.1 ≠ p) ++ [(p, now)]

theorem mem_now (hs : List (Nat × List (Nat × Nat))) (p : Nat) (x : Nat × Nat) :
    x ∈ ((((hs.filter (·.1 = p)).map (·.2)).flatten) ++ s.holders d p).eraseDups ↔ Counted hs p x ∨ x ∈ s.holders d p := by
  unfold Counted
  simp [and_assoc]

theorem counted_countHolders (hs : List (Nat × List (Nat × Nat))) (p q : Nat) (x : Nat × Nat) :
    Counted (s.countHolders d hs p) q x ↔ Counted hs q x ∨ (q = p ∧ x ∈ s.holders d p) := by
  have hnow := mem_now (s := s) (d := d) hs p
  unfold State.countHolders
  generalize ((((hs.filter (·.1 = p)).map (·.2)).flatten) ++ s.holders d p).eraseDups = now at hnow
  dsimp only
  split
  case isTrue hempty =>
    have hnone : x ∉ s.holders d p := fun hx => by
      have := (hnow x).2 (.inr hx)
      simp [List.isEmpty_iff.1 hempty] at this
    simp [hnone]
  case isFalse =>
    by_cases hq : q = p
    · subst hq
      simpa [Counted] using hnow x
    · unfold Counted
      constructor
      · rintro ⟨h, hh, rfl, hx⟩
        rcases List.mem_append.1 hh with hh | hh
        · exact .inl ⟨h, List.mem_of_mem_filter hh, rfl, hx⟩
        · rw [List.mem_singleton.1 hh] at hq
          exact absurd rfl hq
      · rintro (⟨h, hh, rfl, hx⟩ | ⟨h, -⟩)
        · exact ⟨h, List.mem_append_left _ (List.mem_filter.2 ⟨hh, by simpa using hq⟩), rfl, hx⟩
        · exact absurd h hq

theorem mem_countHolders {hs : List (Nat × List (Nat × Nat))} {p : Nat} {h : Nat × List (Nat × Nat)} (hh : h ∈ s.countHolders d hs p) :
    h ∈ hs ∨ (h.1 = p ∧ h.2 ≠ []) := by
  unfold State.countHolders at hh
  dsimp only at hh
  split at hh
  case isTrue => exact .inl hh
  case isFalse hne =>
    rcases List.mem_append.1 hh with hh | hh
    · exact .inl (List.mem_of_mem_filter hh)
    · rw [List.mem_singleton.1 hh]
      exact .inr ⟨rfl, fun h => hne (List.isEmpty_iff.2 h)⟩

theorem counted_foldl (ps : List Nat) (hs : List (Nat × List (Nat × Nat))) (q : Nat) (x : Nat × Nat) :
    Counted (ps.foldl (s.countHolders d) hs) q x ↔ Counted hs q x ∨ (q ∈ ps ∧ x ∈ s.holders d q) := by
  induction ps generalizing hs with
  | nil => simp
  | cons p ps ih =>
    rw [List.foldl_cons, ih, counted_countHolders, List.mem_cons]
    by_cases hq : q = p
    · subst hq; tauto
    · tauto

theorem mem_foldl_countHolders (ps : List Nat) (hs : List (Nat × List (Nat × Nat))) {h : Nat × List (Nat × Nat)}
    (hh : h ∈ ps.foldl (s.countHolders d) hs) : h ∈ hs ∨ (h.1 ∈ ps ∧ h.2 ≠ []) := by
  induction ps generalizing hs with
  | nil => exact .inl hh
  | cons p ps ih =>
    rcases ih _ hh with hin | ⟨hp, hne⟩
    · rcases mem_countHolders hin with hin | ⟨rfl, hne⟩
      · exact .inl hin
      · exact .inr ⟨List.mem_cons_self, hne⟩
    · exact .inr ⟨List.mem_cons_of_mem _ hp, hne⟩

/-! The end of a shoot-down (R335). -/

/-- The shoot-downs with one replaced, or without it once nothing of it is outstanding. -/
def State.putShoot (s : State) (d : ShootDown) : State :=
  { s with shoots := if d.waiting = [] ∧ d.holders = [] then s.shoots.filter (fun e => decide (e.id ≠ d.id))
    else s.shoots.map fun e => if e.id = d.id then d else e }

theorem settleShoot_eq (s : State) (d : ShootDown) : s.settleShoot d =
    if d.waiting ≠ [] then s.putShoot d else
      match d.issuer.bind (s.putShoot d).spanOf? with
      | some sp => ((s.putShoot d).onSpan sp.id fun t => if t.tlbi = some d.id then { t with tlbi := none } else t).settle sp.id
      | none => s.putShoot d := by
  have hput : (if d.waiting.isEmpty && d.holders.isEmpty then { s with shoots := s.shoots.filter (fun e => decide (e.id ≠ d.id)) }
      else { s with shoots := s.shoots.map fun e => if e.id = d.id then d else e }) = s.putShoot d := by
    unfold State.putShoot
    by_cases hw : d.waiting = [] <;> by_cases hh : d.holders = [] <;> simp [hw, hh]
  unfold State.settleShoot
  rw [hput]
  by_cases hw : d.waiting = []
  · exact (if_neg (by simp [hw])).trans (if_neg (not_not.2 hw)).symm
  · exact (if_pos (by simp [hw])).trans (if_pos hw).symm

theorem settleShoot_open (h : d.waiting ≠ [] ∨ d.issuer = none) : s.settleShoot d = s.putShoot d := by
  rw [settleShoot_eq]
  split
  · rfl
  · rw [h.resolve_left (by assumption)]
    rfl

theorem settleShoot_complete {uid : Nat} {sp : Span} (hw : d.waiting = []) (hissuer : d.issuer = some uid) (hsp : s.spanOf? uid = some sp) :
    s.settleShoot d = ((s.putShoot d).onSpan sp.id fun t => if t.tlbi = some d.id then { t with tlbi := none } else t).settle sp.id := by
  have hbind : d.issuer.bind (s.putShoot d).spanOf? = some sp := by rw [hissuer]; exact hsp
  rw [settleShoot_eq, if_neg (not_not.2 hw), hbind]

theorem putShoot_forgets (h : d.waiting = [] ∧ d.holders = []) : ∀ e ∈ (s.putShoot d).shoots, e.id ≠ d.id := by
  intro e he
  unfold State.putShoot at he
  rw [if_pos h] at he
  simpa using (List.mem_filter.1 he).2

theorem putShoot_find {d0 : ShootDown} (hd : s.shoots.find? (fun e => decide (e.id = d.id)) = some d0) (h : ¬ (d.waiting = [] ∧ d.holders = [])) :
    (s.putShoot d).shoots.find? (fun e => decide (e.id = d.id)) = some d := by
  unfold State.putShoot
  rw [if_neg h, find?_map_key s.shoots ShootDown.id (fun e => if e.id = d.id then d else e) (fun e => by split <;> simp_all), hd]
  have hid : d0.id = d.id := by simpa using List.find?_some hd
  simp [hid]

/-! The acknowledgement (R145). -/

theorem exec_shootDownAck (hd : s.shoots.find? (fun e => decide (e.id = d.id)) = some d) (recv : Nat) :
    exec (.shootDownAck d.id recv) s = .next (s.shootAck d recv) := by
  change execShootDownAck .. = _
  unfold execShootDownAck
  rw [hd]

/-- The piers whose requests an acknowledgement counts: the receiver, or those of its die that have acknowledged. -/
def ShootDown.acked (d : ShootDown) (recv : Nat) : List Nat :=
  if recv < Config.piers then [recv] else
    (List.range Config.piers).filter fun p => p / Config.piersPerDie + Config.piers = recv && !d.waiting.contains p

theorem mem_acked {recv p : Nat} : p ∈ d.acked recv ↔ if recv < 160 then p = recv else p < 160 ∧ p / 40 + 160 = recv ∧ p ∉ d.waiting := by
  unfold ShootDown.acked
  split <;> simp [Config.piers, Config.piersPerDie]

/-- The shoot-down after an acknowledgement. -/
def State.acknowledged (s : State) (d : ShootDown) (recv : Nat) : ShootDown :=
  { d with waiting := d.waiting.filter (fun k => decide (k ≠ recv)), holders := (d.acked recv).foldl (s.countHolders d) d.holders }

/-- The state without the receiver's entries of the range. -/
def State.dropped (s : State) (d : ShootDown) (recv : Nat) : State :=
  { s with
    tlb := s.tlb.filter fun t => !(d.covers t && (if recv < Config.piers then t.pier = some recv else t.pier = none && t.die + Config.piers = recv))
    spans := s.spans.map fun (sp : Span) => if sp.pier = recv && sp.ctx = d.ctx then sp.shotDown d else sp }

theorem shootAck_eq {recv : Nat} (hrecv : recv ∈ d.waiting) : s.shootAck d recv = (s.dropped d recv).settleShoot (s.acknowledged d recv) := by
  unfold State.shootAck
  rw [if_neg (by simp [hrecv])]
  rfl

theorem mem_dropped_tlb {recv : Nat} {t : TlbEntry} : t ∈ (s.dropped d recv).tlb ↔ t ∈ s.tlb ∧
    ¬ (d.covers t = true ∧ (if recv < 160 then t.pier = some recv else t.pier = none ∧ t.die + 160 = recv)) := by
  unfold State.dropped
  rw [List.mem_filter, Bool.not_eq_true', ← Bool.not_eq_true]
  refine and_congr Iff.rfl (not_congr ?_)
  simp only [Config.piers]
  split <;> simp

/-! The notice (R146). -/

theorem exec_retireNotice (hd : s.shoots.find? (fun e => decide (e.id = d.id)) = some d) (pier : Nat) :
    exec (.retireNotice d.id pier) s = .next (s.shootNotice d pier) := by
  change execRetireNotice .. = _
  unfold execRetireNotice
  rw [hd]

/-- Is the request or the stripe that a holder names still out? -/
def State.stillOut (s : State) (u : Nat × Nat) : Bool :=
  match s.spanOf? u.1 with
  | some sp => (match sp.status with | .saved _ => false | _ => true) && ((sp.landing ++ sp.unsent ++ sp.joining).any (fun e => e.seq = u.2 && e.st ≠ .done) ||
      sp.ferry.any fun o => o.id = u.2 && !o.stripes.isEmpty)
  | none => false

theorem shootNotice_eq {pier : Nat} {h : Nat × List (Nat × Nat)} (hh : d.holders.find? (fun e => decide (e.1 = pier)) = some h) :
    s.shootNotice d pier = if h.2.any s.stillOut then s else s.settleShoot { d with holders := d.holders.filter (fun k => decide (k.1 ≠ pier)) } := by
  unfold State.shootNotice
  rw [hh]
  rfl

theorem stillOut_false {x : Nat × Nat} (h : ∀ sp, s.spanOf? x.1 = some sp →
    (∀ e ∈ sp.landing ++ sp.unsent ++ sp.joining, e.seq = x.2 → e.st = .done) ∧ ∀ o ∈ sp.ferry, o.id = x.2 → o.stripes = []) :
    s.stillOut x = false := by
  unfold State.stillOut
  cases hsp : s.spanOf? x.1 with
  | none => rfl
  | some sp =>
    obtain ⟨hland, hferry⟩ := h sp hsp
    have hrequests : ((sp.landing ++ sp.unsent ++ sp.joining).any fun e => decide (e.seq = x.2) && decide (e.st ≠ .done)) = false :=
      List.any_eq_false.2 fun e he hout => by
        simp only [Bool.and_eq_true, decide_eq_true_eq] at hout
        exact hout.2 (hland e he hout.1)
    have hstripes : (sp.ferry.any fun o => decide (o.id = x.2) && !o.stripes.isEmpty) = false :=
      List.any_eq_false.2 fun o ho hout => by
        simp only [Bool.and_eq_true, decide_eq_true_eq] at hout
        simp [hferry o ho hout.1] at hout
    simp only [hrequests, hstripes, Bool.or_false, Bool.and_false]

theorem stillOut_true {x : Nat × Nat} {sp : Span} {e : Entry} (hsp : s.spanOf? x.1 = some sp) (hst : sp.status = .running)
    (he : e ∈ sp.landing ++ sp.unsent ++ sp.joining) (hseq : e.seq = x.2) (hout : e.st ≠ .done) : s.stillOut x = true := by
  have hrequests : ((sp.landing ++ sp.unsent ++ sp.joining).any fun e => decide (e.seq = x.2) && decide (e.st ≠ .done)) = true :=
    List.any_eq_true.2 ⟨e, he, by simp [hseq, hout]⟩
  unfold State.stillOut
  simp only [hsp, hst, hrequests, Bool.true_or, Bool.and_true]

/-- Settles O44: the holders are those of `counted_foldl`; what follows an acknowledgement or a notice is `settleShoot`. -/
theorem shootDownSteps : Obligations.shoot_down_steps := by
  unfold Obligations.shoot_down_steps
  intro s d hd
  refine ⟨fun recv hrecv => ?_, fun pier h hh hended => ?_, fun pier h x sp e hh hx hsp hst he hseq hout => ?_⟩
  · intro counted
    have hexec := (exec_shootDownAck hd recv).trans (congrArg _ (shootAck_eq hrecv))
    have hfind : (s.dropped d recv).shoots.find? (fun e => decide (e.id = (s.acknowledged d recv).id)) = some d := hd
    refine ⟨(s.acknowledged d recv).holders, fun p x => ?_, fun h hh => ?_, (s.dropped d recv).putShoot (s.acknowledged d recv), fun hopen => ?_,
      fun uid sp hw hissuer hsp => ?_, rfl, fun t => mem_dropped_tlb, putShoot_forgets, fun hleft => putShoot_find hfind ?_⟩
    · exact (counted_foldl (d.acked recv) d.holders p x).trans
        (or_congr Iff.rfl (and_congr mem_acked Iff.rfl))
    · exact (mem_foldl_countHolders (d.acked recv) d.holders hh).imp_right (And.imp_left mem_acked.1)
    · exact hexec.trans (congrArg _ (settleShoot_open hopen))
    · exact hexec.trans (congrArg _ (settleShoot_complete hw hissuer hsp))
    · exact fun h => hleft.elim (· h.1) (· h.2)
  · have hquiet : h.2.any s.stillOut = false := List.any_eq_false.2 fun x hx => by simp [stillOut_false (hended x hx)]
    have hexec := (exec_retireNotice hd pier).trans (congrArg _ (shootNotice_eq hh))
    rw [hquiet, if_neg Bool.false_ne_true] at hexec
    exact ⟨fun hopen => hexec.trans (congrArg _ (settleShoot_open hopen)),
      fun uid sp hw hissuer hsp => hexec.trans (congrArg _ (settleShoot_complete hw hissuer hsp))⟩
  · have hany : h.2.any s.stillOut = true := List.any_eq_true.2 ⟨x, hx, stillOut_true hsp hst he hseq hout⟩
    exact (exec_retireNotice hd pier).trans (by rw [shootNotice_eq hh, if_pos hany])

end Sys2Proof.Machine
end

section
/-! SUPPORT. A word of memory after it is written, and the fields of a leaf's word (R120). -/

namespace Sys2Proof.Machine

/-- Memory after a word is written: the word, and every other byte as before. -/
theorem written_word {s u : State} {key : Nat} {w : Word} (h : u.mem = (s.poke key (toBytes 8 w.toNat)).mem) :
    u.word key = w ∧ ∀ b, ¬ (key ≤ b ∧ b < key + 8) → u.byte b = s.byte b := by
  obtain ⟨hbytes, hnat⟩ := written_number h
  refine ⟨?_, hbytes⟩
  rw [State.word, hnat, Nat.mod_eq_of_lt (show w.toNat < 2 ^ (8 * 8) from w.isLt), BitVec.ofNat_toNat, BitVec.setWidth_eq]

section
variable (w : Word) (loc frame : Nat) (mig : Bool)

theorem leafWord_loc : (leafWord w loc frame mig).extractLsb' 62 2 = BitVec.ofNat 2 loc := by
  refine BitVec.eq_of_getLsbD_eq fun i hi => ?_
  simp only [leafWord, BitVec.getLsbD_extractLsb', BitVec.getLsbD_append]
  simp [hi, show ¬ 62 + i < 16 by omega, show ¬ 62 + i - 16 < 36 by omega, show ¬ 62 + i - 16 - 36 < 9 by omega, show 62 + i - 16 - 36 - 9 = i + 1 by omega]

theorem leafWord_mig : (leafWord w loc frame mig).getLsbD 61 = mig := by
  simp only [leafWord, BitVec.getLsbD_append]
  simp

theorem leafWord_kept : (leafWord w loc frame mig).extractLsb' 52 9 = w.extractLsb' 52 9 := by
  refine BitVec.eq_of_getLsbD_eq fun i hi => ?_
  simp only [leafWord, BitVec.getLsbD_extractLsb', BitVec.getLsbD_append]
  simp [hi, show ¬ 52 + i < 16 by omega, show ¬ 52 + i - 16 < 36 by omega, show 52 + i - 16 - 36 = i by omega]

theorem leafWord_low : (leafWord w loc frame mig).extractLsb' 0 16 = w.extractLsb' 0 16 := by
  refine BitVec.eq_of_getLsbD_eq fun i hi => ?_
  simp only [leafWord, BitVec.getLsbD_extractLsb', BitVec.getLsbD_append]
  simp [hi]

theorem leafWord_frame (hloc : loc ≠ 3) : (leafWord w loc frame mig).extractLsb' 16 36 = BitVec.ofNat 36 (frame / 65536) := by
  refine BitVec.eq_of_getLsbD_eq fun i hi => ?_
  simp only [leafWord, if_neg hloc, BitVec.getLsbD_extractLsb', BitVec.getLsbD_append]
  simp [hi]

end

end Sys2Proof.Machine
end

section
/-! SUPPORT. The start of a page move, and the choice of what is evicted; and the obligation about both (R120, R140, R142, R143). -/

namespace Sys2Proof.Machine

variable {s : State} {cx : Context} {page loc new : Nat} {lf : Leaf}

/-- What a page needs for its move to start: its leaf is in no move, its line is not held, its place is the partition's, and its engine has an
entry of the partition's share (R135, R143, R347). -/
def State.MayMove (s : State) (cx : Context) (lf : Leaf) (loc new : Nat) : Prop :=
  lf.word.getLsbD 61 = false ∧ (∀ m ∈ s.moves, m.leaf = lf.at_ → 5 ≤ m.step) ∧ s.movesOf cx.part (quayOf lf.loc lf.place loc new) < s.moveShare cx.part ∧
    s.lineHeld (lineOf lf.at_) = false ∧ s.ownsPlace cx.part lf.loc lf.place (2 ^ lf.log) = true

/-- Between two states the move of a page has started: its leaf is marked, and the move is open. -/
def State.MoveStarts (s : State) (cx : Context) (page : Nat) (lf : Leaf) (loc new : Nat) (u : State) : Prop :=
  u.word lf.at_ = lf.word ||| (1 <<< 61) ∧ (∀ b, ¬ (lf.at_ ≤ b ∧ b < lf.at_ + 8) → u.byte b = s.byte b) ∧
    u.moves = s.moves ++ [⟨cx.id, page / 2 ^ lf.log * 2 ^ lf.log, lf.log, lf.at_, lf.loc, lf.place, loc, new, 1, none⟩] ∧
    { u with mem := s.mem, moves := s.moves, spans := s.spans, msgs := s.msgs, l1 := s.l1 } = s

theorem startMove_starts (h : s.MayMove cx lf loc new) : s.MoveStarts cx page lf loc new (s.startMove cx page lf loc new) := by
  obtain ⟨hmig, hearly, hshare, hheld, howns⟩ := h
  have hfree : (s.moves.any fun m => decide (m.leaf = lf.at_) && m.early) = false := List.any_eq_false.2 fun m hm hbusy => by
    simp only [Move.early, Bool.and_eq_true, decide_eq_true_eq] at hbusy
    have := hearly m hm hbusy.1
    omega
  unfold State.startMove
  rw [if_neg (by rw [hfree, hmig, hheld, howns]; simpa using hshare)]
  obtain ⟨hword, hbytes⟩ := written_word (s := s) (key := lf.at_) (w := lf.word ||| (1 <<< 61)) rfl
  refine ⟨hword, hbytes, by simp, ?_⟩
  rw [← State.poke_moves s lf.at_ (toBytes 8 (lf.word ||| (1 <<< 61)).toNat)]
  exact poke_rest s lf.at_ _

/-! What is evicted (R142). -/

/-- A page in HBM that does not compress goes to the capacity tier. -/
theorem evict_incompressible {part dest : Nat} (hwanted : s.evictWanted part = true) (hfirst : s.firstRanked part 1 = some (cx, page, lf))
    (hbig : s.compressible lf = false) (hcap : s.capOk part dest (2 ^ lf.log) = true) : s.evict part dest = s.startMove cx page lf 2 dest := by
  simp [State.evict, hwanted, hfirst, hbig, hcap]

/-- The first slot of a compressed page is among its slots. -/
theorem mem_slotsOf {slot size : Nat} (h : 65536 ≤ size) : slot ∈ slotsOf slot size := by
  have hpos : 0 < size / 65536 := Nat.div_pos h (by decide)
  exact List.mem_map.2 ⟨0, List.mem_range.2 hpos, by simp⟩

theorem zoneOk_slot {part frame size slot : Nat} (hsize : 65536 ≤ size) (h : s.zoneOk part frame size slot = true) :
    ∃ p, s.parts[part]? = some p ∧ slot ∈ p.row.zoneSlots := by
  simp only [State.zoneOk, State.ownsPlace, Bool.and_eq_true] at h
  obtain ⟨⟨howns, -⟩, -⟩ := h
  cases hp : s.parts[part]? with
  | none => simp [hp] at howns
  | some p =>
    have hdiv : zoneStep * slot / zoneStep = slot := Nat.mul_div_cancel_left slot (by decide)
    simp only [hp, if_true, hdiv, List.all_eq_true, List.contains_iff_mem] at howns
    exact ⟨p, rfl, howns slot (mem_slotsOf hsize)⟩

/-- A page in HBM that compresses goes to the zone, while slots of its stacks are free. -/
theorem evict_zone {part slot : Nat} (hwanted : s.evictWanted part = true) (hfirst : s.firstRanked part 1 = some (cx, page, lf))
    (hsmall : s.compressible lf = true) (hlog : 16 ≤ lf.log) (hzone : s.zoneOk part lf.frame (2 ^ lf.log) slot = true) :
    s.evict part slot = s.startMove cx page lf 3 (zoneStep * slot) := by
  obtain ⟨p, hp, hslot⟩ := zoneOk_slot (Nat.pow_le_pow_right (by decide) hlog : 2 ^ 16 ≤ 2 ^ lf.log) hzone
  have hany : p.row.zoneSlots.any (s.zoneOk part lf.frame (2 ^ lf.log)) = true := List.any_eq_true.2 ⟨slot, hslot, hzone⟩
  simp [State.evict, hwanted, hfirst, hsmall, hp, hany, hzone]

/-- With the share of the zone full, the zone's first-ranked page goes to the capacity tier, and with none there the page itself. -/
theorem evict_full {part dest : Nat} {x : Context × Nat × Leaf} (hwanted : s.evictWanted part = true) (hfirst : s.firstRanked part 1 = some x)
    (hsmall : s.compressible x.2.2 = true) (hfull : ∀ slot, s.zoneOk part x.2.2.frame (2 ^ x.2.2.log) slot = false)
    (hwho : s.firstRanked part 3 = some (cx, page, lf) ∨ s.firstRanked part 3 = none ∧ x = (cx, page, lf))
    (hcap : s.capOk part dest (2 ^ lf.log) = true) : s.evict part dest = s.startMove cx page lf 2 dest := by
  have hany (slots : List Nat) : slots.any (s.zoneOk part x.2.2.frame (2 ^ x.2.2.log)) = false :=
    List.any_eq_false.2 fun slot _ => by simp [hfull slot]
  rcases hwho with hzone | ⟨hzone, rfl⟩
  · simp [State.evict, hwanted, hfirst, hsmall, hany, hzone, hcap]
  · simp only at hany hsmall
    simp [State.evict, hwanted, hfirst, hsmall, hany, hzone, hcap]

/-! The start of an expansion and of a promotion (R140, R143). -/

theorem exec_expansion (hctx : s.ctx? cx.id = some cx) (hleaf : s.leafOf cx page = some lf) (hloc : lf.loc = 3)
    (hfree : s.frameFree cx.part new (2 ^ lf.log) = true) : exec (.expansion cx.id page new) s = .next (s.startMove cx page lf 1 new) := by
  change execExpansion .. = _
  simp [execExpansion, hctx, hleaf, hloc, hfree]

theorem exec_promotion (n : Nat) (hctx : s.ctx? cx.id = some cx) (hleaf : s.leafOf cx page = some lf) (hloc : lf.loc = 2)
    (hpeer : peerOf lf.frame = 0) (hfree : s.frameFree cx.part new (2 ^ lf.log) = true) :
    exec (.pageMove n (some (cx.id, page, new))) s = .next (s.startMove cx page lf 1 new) := by
  change execPageMove n (some (cx.id, page, new)) s = _
  simp [execPageMove, hctx, hleaf, hloc, hpeer, hfree]

/-- Settles O42: the fields of a leaf's word are read off one by one; every start is `State.startMove` of the page that its rule names. -/
theorem movesStart : Obligations.moves_start := by
  unfold Obligations.moves_start
  refine ⟨fun w loc frame hloc haligned hframe => ?_, fun s cx page lf i loc new hctx hmig hearly hshare hheld howns hwhich => ?_⟩
  · intro v
    refine ⟨?_, ?_, leafWord_mig .., leafWord_kept .., leafWord_low ..⟩
    · rw [show v.extractLsb' 62 2 = _ from leafWord_loc .., BitVec.toNat_ofNat, Nat.mod_eq_of_lt (by omega)]
    · rw [show v.extractLsb' 16 36 = _ from leafWord_frame w loc frame false (by omega), BitVec.toNat_ofNat, Nat.mod_eq_of_lt (by omega)]
      omega
  · have hexec : exec i s = .next (s.startMove cx page lf loc new) := by
      rcases hwhich with ⟨rfl, hwanted, hfirst, hbig, rfl, hcap⟩ | ⟨slot, rfl, hwanted, hfirst, hsmall, rfl, rfl, hlog, hzone⟩ |
        ⟨rfl, hwanted, rfl, hcap, x, hfirst, hsmall, hfull, hwho⟩ | ⟨rfl, hleaf, hloc, rfl, hfree⟩ | ⟨⟨n, rfl⟩, hleaf, hloc, hpeer, rfl, hfree⟩
      · exact congrArg _ (evict_incompressible hwanted hfirst hbig hcap)
      · exact congrArg _ (evict_zone hwanted hfirst hsmall hlog hzone)
      · exact congrArg _ (evict_full hwanted hfirst hsmall hfull hwho hcap)
      · exact exec_expansion hctx hleaf hloc hfree
      · exact exec_promotion n hctx hleaf hloc hpeer hfree
    exact ⟨_, hexec, startMove_starts ⟨hmig, hearly, hshare, hheld, howns⟩⟩

end Sys2Proof.Machine
end

section
/-! SUPPORT. A page supplied by the fault service, the lane that waited for it, and the obligation about both (R127, R144). -/

namespace Sys2Proof.Machine

/-! What a supplied page leaves of the spans. -/

theorem written_mapsSpares (s : State) (lo hi : Nat) : State.Maps Span.Spares s (s.written lo hi) :=
  ⟨fun sp => sp.seesWrite lo hi (s.time sp.die).toNat, fun sp => seesWrite_spares sp lo hi _, rfl⟩

theorem poke_mapsSpares (s : State) (k : Nat) (bs : List Byte) : State.Maps Span.Spares s (s.poke k bs) := by
  unfold State.poke
  split
  · exact .of_spans Span.Spares.refl rfl
  · exact written_mapsSpares (s.write k bs) _ _

theorem freshRange_mapsSpares (s : State) (lo n : Nat) : State.Maps Span.Spares s (s.freshRange lo n) := written_mapsSpares s _ _

/-! The bytes of a page that begins to stand in a frame. -/

/-- One listed byte of a range is written. -/
def State.putListed (lo n : Nat) (t : State) (c : Nat × Byte) : State := if c.1 < n then { t with mem := sput 0 t.mem (lo + c.1) c.2 } else t

theorem putListed_rest (lo n : Nat) (t : State) (c : Nat × Byte) : { t.putListed lo n c with mem := t.mem } = t := by
  unfold State.putListed
  split <;> rfl

theorem fillRange_eq (s : State) (lo n : Nat) (bs : List (Nat × Byte)) : s.fillRange lo n bs = bs.foldl (State.putListed lo n) (s.clearRange lo n) := rfl

theorem fillRange_rest (s : State) (lo n : Nat) (bs : List (Nat × Byte)) : { s.fillRange lo n bs with mem := s.mem } = s := by
  rw [fillRange_eq]
  suffices h : ∀ t : State, { bs.foldl (State.putListed lo n) t with mem := s.mem } = { t with mem := s.mem } from h _
  induction bs with
  | nil => exact fun t => rfl
  | cons c r ih =>
    intro t
    rw [List.foldl_cons, ih]
    exact congrArg (fun v : State => { v with mem := s.mem }) (putListed_rest lo n t c)

theorem byte_putListed (lo n : Nat) (t : State) (c : Nat × Byte) (b : Nat) :
    (t.putListed lo n c).byte b = if c.1 < n ∧ b = lo + c.1 then c.2 else t.byte b := by
  unfold State.putListed State.byte
  split
  case isTrue h => simp [sget_sput, h]
  case isFalse h => simp [h]

/-! Who waits for a page (R127, R144). -/

/-- Is an address in the page of a leaf? -/
def Leaf.inPage (lf : Leaf) (page p : Nat) : Bool := decide (p / 2 ^ lf.log = page / 2 ^ lf.log)

/-- Is a notice of a context one of the page? -/
def Leaf.told (lf : Leaf) (ctx page : Nat) (n : Notice) : Bool := decide (n.ctx = ctx) && decide (n.page / 2 ^ lf.log = page / 2 ^ lf.log)

/-- After the service of a page the lane that waited for it goes on once no other page holds it, and no notice of the page is left. -/
def State.LaneServed (s : State) (ctx page : Nat) (lf : Leaf) (sp : Span) (l : Nat) (u : State) : Prop :=
  let rest := (sp.lane l).pages.filter fun p => decide (p / 2 ^ lf.log ≠ page / 2 ^ lf.log)
  (∃ sp', u.span? sp.id = some sp' ∧ (sp'.lane l).pc = (sp.lane l).pc ∧
    (rest = [] → (sp'.lane l).st = .ready ∧ (sp'.lane l).reason = none ∧ (sp'.lane l).pages = []) ∧
    (rest ≠ [] → (sp'.lane l).st = .parkedRec ∧ (sp'.lane l).pages = rest)) ∧
  u.notices = s.notices.filter fun n => !lf.told ctx page n

section
variable {s s1 : State} {cx : Context} {page q uid l : Nat} {why : Park} {sp : Span} {lf : Leaf} {how : Supply}

/-- A lane that has been served: ready with no page left, or parked in the others. -/
theorem served_spec (f : Nat → Bool) (ln : Lane) : let rest := ln.pages.filter (!f ·)
    (ln.served f).pc = ln.pc ∧ (rest = [] → (ln.served f).st = .ready ∧ (ln.served f).reason = none ∧ (ln.served f).pages = []) ∧
      (rest ≠ [] → (ln.served f).st = ln.st ∧ (ln.served f).pages = rest) := by
  intro rest
  by_cases h : rest = []
  · have heq : ln.served f = { ln with st := .ready, reason := none, pages := [] } := if_pos (List.isEmpty_iff.2 h)
    rw [heq]
    exact ⟨rfl, fun _ => ⟨rfl, rfl, rfl⟩, fun hne => absurd h hne⟩
  · have heq : ln.served f = { ln with pages := rest } := if_neg (mt List.isEmpty_iff.1 h)
    rw [heq]
    exact ⟨rfl, fun hnil => absurd hnil h, fun _ => ⟨rfl, rfl⟩⟩

theorem spanOf?_maps {R : Span → Span → Prop} (hR : ∀ {a b}, R a b → b.uid = a.uid) {t : State} (h : State.Maps R s t) (hsp : s.spanOf? uid = some sp) :
    ∃ sp', t.spanOf? uid = some sp' ∧ R sp sp' := by
  obtain ⟨g, hg, e⟩ := h
  refine ⟨g sp, ?_, hg sp⟩
  unfold State.spanOf? at *
  rw [e, find?_map_key s.spans Span.uid g (fun a => hR (hg a)) uid, hsp]
  rfl

theorem Span.Spares.id_eq {a b : Span} (h : a.Spares b) : b.id = a.id := by
  have hid := congrArg Span.id h.rest
  exact hid

theorem Span.Spares.lane_pages {a b : Span} (h : a.Spares b) (l : Nat) : (b.lane l).pages = (a.lane l).pages := by
  have hpages := congrArg Lane.pages (h.lane l)
  exact hpages

variable (hctx : s.ctx? cx.id = some cx) (hleaf : s.leafOf cx page = some lf)
  (honly : s.notices.filter (lf.told cx.id page) = [⟨cx.id, q, why, .lane uid l, true⟩])
include hctx hleaf honly

/-- The one waiter of a page that is supplied goes on. -/
theorem serve_one (hsupply : s.supply cx page how (decide (why = .migrate)) = some s1) (hnotices : s1.notices = s.notices) :
    s.serve cx.id page how = ({ s1 with notices := s.notices.filter fun n => !lf.told cx.id page n }).wakeWaiter (lf.inPage page) (.lane uid l) := by
  have hin : ⟨cx.id, q, why, .lane uid l, true⟩ ∈ s.notices.filter (lf.told cx.id page) := by rw [honly]; exact List.mem_singleton.2 rfl
  have hhere := (List.mem_filter.1 hin).2
  have hgot : (s.notices.any fun n => lf.told cx.id page n && n.got) = true :=
    List.any_eq_true.2 ⟨_, (List.mem_filter.1 hin).1, by rw [hhere]; rfl⟩
  have hmoved : (s.notices.any fun n => lf.told cx.id page n && n.got && decide (n.why = .migrate)) = decide (why = .migrate) := by
    simp only [Bool.and_assoc]
    rw [← List.any_filter, honly]
    simp
  have hwaiter : (s.notices.filter fun n => decide (n.ctx = cx.id) && decide (n.page / 2 ^ lf.log = page / 2 ^ lf.log)) =
      [⟨cx.id, q, why, .lane uid l, true⟩] := honly
  simp only [Leaf.told] at hgot hmoved
  unfold State.serve
  simp only [hctx, Option.bind_some, hleaf]
  rw [hgot, hmoved, hsupply]
  simp only [hnotices, hwaiter, List.foldl_cons, List.foldl_nil]
  rfl

/-- R127: a lane parked in a page that is supplied goes on once no other page holds it; memory is as the supply leaves it. -/
theorem serve_lane (hsp : s.spanOf? uid = some sp) (hid : s.span? sp.id = some sp) (hst : (sp.lane l).st = .parkedRec)
    (hsupply : s.supply cx page how (decide (why = .migrate)) = some s1) (hnotices : s1.notices = s.notices) (hspans : State.Maps Span.Spares s s1) :
    ∃ u, exec (.faultServiceComplete cx.id page how) s = .next (u.settle sp.id) ∧ s.LaneServed cx.id page lf sp l u ∧ u.mem = s1.mem := by
  let t : State := { s1 with notices := s.notices.filter fun n => !lf.told cx.id page n }
  have hmaps : State.Maps Span.Spares s t := hspans
  obtain ⟨sp1, hsp1, hspared⟩ := spanOf?_maps Span.Spares.uid_eq hmaps hsp
  obtain ⟨sp2, hsp2, hspared2⟩ := hmaps.span? Span.Spares.id_eq hid
  have hst1 : (sp1.lane l).st = .parkedRec := (hspared.lane_st l).trans hst
  have hlt : l < sp2.lanes.length := lane_lt_of_not_ended (by rw [hspared2.lane_st l, hst]; rfl)
  refine ⟨t.onSpan sp.id fun w => w.onLane l (Lane.served (lf.inPage page)), ?_, ⟨⟨_, span?_onSpan_self (fun w => w.onLane l (Lane.served (lf.inPage page))) (fun _ => rfl) hsp2, ?_⟩, rfl⟩, rfl⟩
  · change Host.Outcome.next (s.serve cx.id page how) = _
    rw [serve_one hctx hleaf honly hsupply hnotices]
    change Host.Outcome.next (t.wakeWaiter (lf.inPage page) (.lane uid l)) = _
    simp only [State.wakeWaiter, hsp1, hst1, if_true, hspared.id_eq]
  · have hspec := served_spec (lf.inPage page) (sp2.lane l)
    rw [lane_onLane, if_pos ⟨rfl, hlt⟩]
    rw [hspared2.lane_pc, hspared2.lane_st, hspared2.lane_pages, hst] at hspec
    have hrest : ((sp.lane l).pages.filter fun p => decide (p / 2 ^ lf.log ≠ page / 2 ^ lf.log)) = (sp.lane l).pages.filter (!lf.inPage page ·) := by
      simp [Leaf.inPage]
    rw [hrest]
    exact hspec

end

/-! What the service supplies (R144). -/

section
variable {s : State} {cx : Context} {page frame : Nat} {lf : Leaf}

/-- The page is put in its frame, and its leaf says so. -/
def State.withPage (s : State) (lf : Leaf) (frame : Nat) (bs : List (Nat × Byte)) : State :=
  ((s.freshRange frame (2 ^ lf.log)).fillRange frame (2 ^ lf.log) bs).poke lf.at_ (toBytes 8 (leafWord lf.word 1 frame false).toNat)

theorem withPage_notices (bs : List (Nat × Byte)) : (s.withPage lf frame bs).notices = s.notices := by
  have h := congrArg State.notices (fillRange_rest (s.freshRange frame (2 ^ lf.log)) frame (2 ^ lf.log) bs)
  exact (State.poke_notices ..).trans h

theorem withPage_mapsSpares (bs : List (Nat × Byte)) : State.Maps Span.Spares s (s.withPage lf frame bs) := by
  have h := congrArg State.spans (fillRange_rest (s.freshRange frame (2 ^ lf.log)) frame (2 ^ lf.log) bs)
  have hfill : State.Maps Span.Spares (s.freshRange frame (2 ^ lf.log)) ((s.freshRange frame (2 ^ lf.log)).fillRange frame (2 ^ lf.log) bs) :=
    .of_spans Span.Spares.refl h
  exact .trans (R := Span.Spares) .trans (.trans (R := Span.Spares) .trans (freshRange_mapsSpares s frame _) hfill) (poke_mapsSpares _ _ _)

theorem withPage_word (bs : List (Nat × Byte)) : (s.withPage lf frame bs).word lf.at_ = leafWord lf.word 1 frame false :=
  (written_word rfl).1

theorem byte_withPage_zeros {b : Nat} (hb : ¬ (lf.at_ ≤ b ∧ b < lf.at_ + 8)) :
    (s.withPage lf frame []).byte b = if frame ≤ b ∧ b < frame + 2 ^ lf.log then 0 else s.byte b :=
  ((written_word rfl).2 b hb).trans (byte_clearRange _ _ _ _)

theorem byte_withPage_one {o : Nat} {v : Byte} (ho : o < 2 ^ lf.log) {b : Nat} (hb : ¬ (lf.at_ ≤ b ∧ b < lf.at_ + 8)) :
    (s.withPage lf frame [(o, v)]).byte b = if b = frame + o then v else if frame ≤ b ∧ b < frame + 2 ^ lf.log then 0 else s.byte b := by
  refine ((written_word rfl).2 b hb).trans ?_
  rw [fillRange_eq, List.foldl_cons, List.foldl_nil, byte_putListed, byte_clearRange]
  simp only [ho, true_and]
  rfl

variable (hheld : s.walkHeld cx page = false) (hleaf : s.leafOf cx page = some lf) (moved : Bool)
include hheld hleaf

theorem supply_zeros (hloc : lf.loc = 0) (hfree : s.frameFree cx.part frame (2 ^ lf.log) = true) :
    s.supply cx page (.zeros frame) moved = some (s.withPage lf frame []) := by
  simp [State.supply, hheld, hleaf, hloc, hfree, State.withPage, State.fillRange]

theorem supply_data (bs : List (Nat × Byte)) (hloc : lf.loc = 0) (hfree : s.frameFree cx.part frame (2 ^ lf.log) = true) :
    s.supply cx page (.data frame bs) moved = some (s.withPage lf frame bs) := by
  simp [State.supply, hheld, hleaf, hloc, hfree, State.withPage]

theorem supply_present (hmig : lf.word.getLsbD 61 = false) (hthere : lf.loc = 1 ∨ lf.loc = 2 ∨ moved = true) :
    s.supply cx page .present moved = some s := by
  have hgone : (lf.word.getLsbD 61 || (!moved && (decide (lf.loc = 0) || decide (lf.loc = 3)))) = false := by
    rcases hthere with h | h | h <;> rw [hmig, h] <;> simp
  simp only [State.supply, hheld, hleaf, hgone, Bool.false_eq_true, if_false]

theorem supply_cannot : s.supply cx page .cannot moved = some (s.poke lf.at_ (toBytes 8 (lf.word &&& ~~~1).toNat)) := by
  simp only [State.supply, hheld, hleaf, Bool.false_eq_true, if_false]

end

/-- Settles O41: the lane goes on as `serve_lane` says, and memory is what the service supplies. -/
theorem faultService : Obligations.fault_service := by
  unfold Obligations.fault_service
  refine ⟨fun n s => rfl, fun s cx page q uid l why sp lf how hctx hleaf honly hsp hid hst hheld => ?_⟩
  intro size rest done apart
  have served {s1 : State} := serve_lane (s1 := s1) (how := how) hctx hleaf honly hsp hid hst
  have put (frame : Nat) (bs : List (Nat × Byte)) (hsupply : s.supply cx page how (decide (why = .migrate)) = some (s.withPage lf frame bs)) :=
    served hsupply (withPage_notices bs) (withPage_mapsSpares bs)
  refine ⟨fun frame hhow hloc hfree => ?_, fun frame o v hhow ho hloc hfree => ?_, fun hhow hmig hthere => ?_, fun hhow => ?_⟩
  · obtain ⟨u, hexec, hlane, hmem⟩ := put frame [] (hhow ▸ supply_zeros hheld hleaf _ hloc hfree)
    refine ⟨u, ⟨hexec, hlane⟩, ?_, fun b hb => ?_⟩
    · rw [← withPage_word (s := s) [], State.word, nat_of_mem hmem]
      rfl
    · rw [byte_of_mem hmem, byte_withPage_zeros hb]
  · obtain ⟨u, hexec, hlane, hmem⟩ := put frame [(o, v)] (hhow ▸ supply_data hheld hleaf _ _ hloc hfree)
    refine ⟨u, ⟨hexec, hlane⟩, ?_, fun b hb => ?_⟩
    · rw [← withPage_word (s := s) [(o, v)], State.word, nat_of_mem hmem]
      rfl
    · rw [byte_of_mem hmem, byte_withPage_one ho hb]
  · obtain ⟨u, hexec, hlane, hmem⟩ := served (hhow ▸ supply_present hheld hleaf _ hmig (by simpa using hthere)) rfl
      (.of_spans Span.Spares.refl rfl)
    exact ⟨u, ⟨hexec, hlane⟩, hmem⟩
  · obtain ⟨u, hexec, hlane, hmem⟩ := served (hhow ▸ supply_cannot hheld hleaf _) (State.poke_notices ..) (poke_mapsSpares ..)
    obtain ⟨hword, hbytes⟩ := written_word hmem
    exact ⟨u, ⟨hexec, hlane⟩, hword, fun b hb => hbytes b hb⟩

end Sys2Proof.Machine
end

section
/-! SUPPORT. The steps of a page move, one by one: the copy byte by byte, the frame that a bounced request is sent to; and the obligation about
them (R131, R143, R180). -/

namespace Sys2Proof.Machine

/-! The copy of a page. -/

theorem sget_of_not_mem {α : Type} {d : α} {m : List (Nat × α)} {k : Nat} (h : k ∉ m.map Prod.fst) : sget d m k = d := by
  induction m with
  | nil => rfl
  | cons x r ih =>
    simp only [List.map_cons, List.mem_cons, not_or] at h
    simp only [sget, if_neg (Ne.symm h.1), ih h.2]

theorem swf_keys {α : Type} [DecidableEq α] {d : α} {m : List (Nat × α)} (h : swf d m = true) : (m.map Prod.fst).Nodup := by
  induction m with
  | nil => exact List.nodup_nil
  | cons x r ih =>
    obtain ⟨-, habove, hr⟩ := (swf_cons x.1 x.2 r).1 h
    refine List.nodup_cons.2 ⟨fun hmem => ?_, ih hr⟩
    obtain ⟨e, he, hkey⟩ := List.mem_map.1 hmem
    have := habove e he
    omega

/-- Bytes listed of a range are its bytes. -/
theorem sget_listed (s : State) {lo n b : Nat} (hb : b < n) : sget 0 (s.listed lo n) b = s.byte (lo + b) := by
  unfold State.listed State.byte
  induction s.mem with
  | nil => rfl
  | cons x r ih =>
    by_cases hin : lo ≤ x.1 ∧ x.1 < lo + n
    · rw [List.filter_cons, if_pos (by simp [hin]), List.map_cons]
      have hkey : x.1 - lo = b ↔ x.1 = lo + b := by omega
      simp only [sget, hkey, ih]
    · rw [List.filter_cons, if_neg (by simpa using hin), ih]
      have hkey : x.1 ≠ lo + b := by omega
      simp only [sget, if_neg hkey]

theorem listed_keys {s : State} (hwf : Memory.wf s.mem = true) (lo n : Nat) : ((s.listed lo n).map Prod.fst).Nodup := by
  have hkeys : ((s.mem.filter fun c => decide (lo ≤ c.1) && decide (c.1 < lo + n)).map Prod.fst).Nodup := swf_keys (swf_filter s.mem _ hwf)
  have hshift : (s.listed lo n).map Prod.fst = ((s.mem.filter fun c => decide (lo ≤ c.1) && decide (c.1 < lo + n)).map Prod.fst).map (· - lo) := by
    simp [State.listed, Function.comp_def]
  rw [hshift]
  refine hkeys.map_on fun x hx y hy hxy => ?_
  have above {k : Nat} (hk : k ∈ (s.mem.filter fun c => decide (lo ≤ c.1) && decide (c.1 < lo + n)).map Prod.fst) : lo ≤ k := by
    obtain ⟨c, hc, rfl⟩ := List.mem_map.1 hk
    have hin := (List.mem_filter.1 hc).2
    simp only [Bool.and_eq_true, decide_eq_true_eq] at hin
    exact hin.1
  have := above hx
  have := above hy
  omega

theorem listed_lt (s : State) (lo n : Nat) : ∀ c ∈ s.listed lo n, c.1 < n := by
  intro c hc
  obtain ⟨e, he, rfl⟩ := List.mem_map.1 hc
  have hin := (List.mem_filter.1 he).2
  simp only [Bool.and_eq_true, decide_eq_true_eq] at hin
  exact (by omega : e.1 - lo < n)

/-- The bytes of a range after listed bytes have been put there, each offset once. -/
theorem byte_foldl_putListed {lo n : Nat} (L : List (Nat × Byte)) (hlt : ∀ c ∈ L, c.1 < n) (hkeys : (L.map Prod.fst).Nodup) (t : State) (b : Nat) :
    (L.foldl (State.putListed lo n) t).byte (lo + b) = if b ∈ L.map Prod.fst then sget 0 L b else t.byte (lo + b) := by
  induction L generalizing t with
  | nil => rfl
  | cons c r ih =>
    obtain ⟨hnew, hr⟩ := List.nodup_cons.1 hkeys
    rw [List.foldl_cons, ih (fun e he => hlt e (List.mem_cons_of_mem _ he)) hr, byte_putListed]
    by_cases hb : b = c.1
    · subst hb
      rw [if_neg hnew, if_pos ⟨hlt c List.mem_cons_self, rfl⟩, if_pos (by simp)]
      simp [sget]
    · have hne : ¬ (c.1 < n ∧ lo + b = lo + c.1) := by omega
      rw [if_neg hne]
      simp only [List.map_cons, List.mem_cons, hb, false_or, sget, if_neg (Ne.symm hb)]

theorem byte_foldl_putListed_apart {lo n b : Nat} (hb : ¬ (lo ≤ b ∧ b < lo + n)) (L : List (Nat × Byte)) (t : State) :
    (L.foldl (State.putListed lo n) t).byte b = t.byte b := by
  induction L generalizing t with
  | nil => rfl
  | cons c r ih =>
    rw [List.foldl_cons, ih, byte_putListed, if_neg (by omega)]

/-- Memory after a range has been filled with the bytes listed of another. -/
theorem byte_fillRange_listed {s t : State} (hwf : Memory.wf s.mem = true) (ht : t.mem = s.mem) (new old n : Nat) :
    (∀ b, b < n → (t.fillRange new n (s.listed old n)).byte (new + b) = s.byte (old + b)) ∧
      ∀ b, ¬ (new ≤ b ∧ b < new + n) → (t.fillRange new n (s.listed old n)).byte b = s.byte b := by
  refine ⟨fun b hb => ?_, fun b hb => ?_⟩
  · rw [fillRange_eq, byte_foldl_putListed _ (listed_lt s old n) (listed_keys hwf old n)]
    split
    case isTrue => exact sget_listed s hb
    case isFalse hmem => rw [byte_clearRange, if_pos (by omega), ← sget_listed s hb, sget_of_not_mem hmem]
  · rw [fillRange_eq, byte_foldl_putListed_apart hb, byte_clearRange, if_neg hb]
    exact byte_of_mem ht b

/-! The moves. -/

section
variable {s : State} {m : Move}

theorem same_iff (k m : Move) : k.same m = true ↔ k.leaf = m.leaf ∧ k.oldLoc = m.oldLoc ∧ k.old = m.old := by
  simp [Move.same, and_assoc]

/-- A move of the list that has come to another step stands in the list. -/
theorem mem_putMove {m' : Move} (hm : m ∈ s.moves) (hsame : m.same m' = true) : m' ∈ (s.putMove m').moves :=
  List.mem_map.2 ⟨m, hm, if_pos hsame⟩

theorem of_mem_putMove {m' k : Move} (hsame : m.same m' = true) (hk : k ∈ (s.putMove m').moves) : k = m' ∨ (k ∈ s.moves ∧ k ≠ m) := by
  obtain ⟨k0, hk0, rfl⟩ := List.mem_map.1 hk
  split
  case isTrue => exact .inl rfl
  case isFalse hne => exact .inr ⟨hk0, fun h => hne (h ▸ hsame)⟩

/-! Where a bounced request is sent (R131). -/

/-- Does a place that a page leaves hold the line? -/
def Move.leaves (m : Move) (line : Nat) : Prop := placeKey m.oldLoc m.old ≤ 64 * line ∧ 64 * line < placeKey m.oldLoc m.old + 2 ^ m.size

/-- The line of the new place, once it is known. -/
def Move.sends (m : Move) (line : Nat) : Option Nat :=
  if decide (5 ≤ m.step) && decide (placeKey m.oldLoc m.old ≤ 64 * line) && decide (64 * line < placeKey m.oldLoc m.old + 2 ^ m.size) then
    some (lineOf (placeKey m.newLoc m.new + (64 * line - placeKey m.oldLoc m.old)))
  else none

theorem forwarded_eq (s : State) (line : Nat) : s.forwarded line =
    (s.moves.findSome? (·.sends line)).bind fun k => if zoneBase ≤ 64 * k then s.moves.findSome? (·.sends k) else some k := rfl

theorem sends_none {line : Nat} (h : ¬ m.leaves line) : m.sends line = none := by
  unfold Move.leaves at h
  exact if_neg (by simpa [and_assoc] using fun _ => not_and.1 h)

theorem sends_some {line : Nat} (h : m.leaves line) (hstep : 5 ≤ m.step) :
    m.sends line = some (lineOf (placeKey m.newLoc m.new + (64 * line - placeKey m.oldLoc m.old))) :=
  if_pos (by simp [hstep, h.1, h.2])

theorem findSome?_only {α β : Type} {f : α → Option β} {l : List α} {a : α} {b : β} (ha : a ∈ l) (hf : f a = some b)
    (hrest : ∀ x ∈ l, x = a ∨ f x = none) : l.findSome? f = some b := by
  cases h : l.findSome? f with
  | none => rw [List.findSome?_eq_none_iff.1 h a ha] at hf; cases hf
  | some c =>
    obtain ⟨x, hx, hfx⟩ := List.exists_of_findSome?_eq_some h
    rcases hrest x hx with rfl | hnone
    · rw [← hfx, hf]
    · rw [hnone] at hfx; cases hfx

/-- The move that alone has left a line sends its requests to the new frame. -/
theorem forwarded_only {line : Nat} (hm : m ∈ s.moves) (hstep : 5 ≤ m.step) (hline : m.leaves line)
    (hrest : ∀ k ∈ s.moves, k = m ∨ ¬ k.leaves line) (hnew : placeKey m.newLoc m.new + 2 ^ m.size ≤ zoneBase) :
    s.forwarded line = some ((placeKey m.newLoc m.new + (64 * line - placeKey m.oldLoc m.old)) / 64) := by
  rw [forwarded_eq, findSome?_only hm (sends_some hline hstep) fun k hk => (hrest k hk).imp_right sends_none, Option.bind_some]
  obtain ⟨hlo, hhi⟩ := hline
  unfold lineOf
  rw [if_neg (by omega)]

end

/-! The steps (R143). -/

section
variable {s : State} {m : Move} {cx : Context}

/-- The move at a further step. -/
abbrev Move.at_ (m : Move) (k : Nat) : Move := { m with step := k }

theorem at_same (m : Move) (k : Nat) : m.same (m.at_ k) = true := (same_iff ..).2 ⟨rfl, rfl, rfl⟩

theorem moveStep_shoot (hctx : s.ctx? m.ctx = some cx) (hstep : m.step = 0 ∨ m.step = 1) :
    s.moveStep m = (s.shoot cx.part m.ctx m.page (m.page + 2 ^ m.size) none).1.putMove { m with step := 2, sd := some s.uid } := by
  unfold State.moveStep
  rcases hstep with h | h <;> rw [h] <;> simp only [hctx] <;> rfl

theorem moveStep_lock (hstep : m.step = 2) : s.moveStep m = if s.shootDone (m.sd.getD 0) then
    (({ s with locked := s.locked ++ [(placeKey m.oldLoc m.old, 2 ^ m.size)] }).rangeWritten (placeKey m.oldLoc m.old) (2 ^ m.size)).putMove (m.at_ 3)
    else s := by
  unfold State.moveStep
  rw [hstep]
  rfl

/-- Is a line of a range held (R109)? -/
def State.heldIn (s : State) (lo n : Nat) : Bool :=
  s.holds.any fun h => match h.on with | some (k, _) => decide (lo ≤ 64 * k) && decide (64 * k < lo + n) | none => false

theorem heldIn_idle (hholds : ∀ h ∈ s.holds, h.on = none) (lo n : Nat) : s.heldIn lo n = false :=
  List.any_eq_false.2 fun h hh => by simp [hholds h hh]

/-- The copy, with no shadow line about. -/
theorem moveStep_copy (hstep : m.step = 3) (hshadows : s.shadows = []) : s.moveStep m =
    if s.heldIn (placeKey m.oldLoc m.old) (2 ^ m.size) || s.heldIn (placeKey m.newLoc m.new) (2 ^ m.size) then s else
      (((s.freshRange (placeKey m.newLoc m.new) (2 ^ m.size)).fillRange (placeKey m.newLoc m.new) (2 ^ m.size)
        (s.listed (placeKey m.oldLoc m.old) (2 ^ m.size))).marksMoved (placeKey m.oldLoc m.old) (placeKey m.newLoc m.new) (2 ^ m.size)).putMove (m.at_ 4) := by
  unfold State.moveStep
  rw [hstep]
  dsimp only
  rw [mergeAll_unshadowed hshadows]
  rfl

theorem moveStep_leaf (hstep : m.step = 4) : s.moveStep m = if s.lineHeld (m.leaf / 64) then s else
    (s.poke m.leaf (toBytes 8 (leafWord (s.word m.leaf) m.newLoc m.new false).toNat)).putMove (m.at_ 5) := by
  unfold State.moveStep
  rw [hstep]
  rfl

/-- An entry that a move wakes. -/
def Entry.wokenBy (u : State) (e : Entry) : Entry :=
  if e.st = .ashore && (e.reason = 3 || e.reason = 4) && (u.forwarded e.pline).isSome then { e with woken := true } else e

theorem moveStep_wake (hstep : m.step = 5) : s.moveStep m =
    { s.putMove (m.at_ 6) with spans := s.spans.map fun (sp : Span) => { sp with landing := sp.landing.map (Entry.wokenBy (s.putMove (m.at_ 6))) } } := by
  unfold State.moveStep
  rw [hstep]
  rfl

theorem moveStep_end (hstep : m.step = 6) : s.moveStep m = if s.shootQuiet (m.sd.getD 0) then
    { s with moves := s.moves.filter (!·.same m), locked := s.locked.erase (placeKey m.oldLoc m.old, 2 ^ m.size) } else s := by
  unfold State.moveStep
  rw [hstep]
  rfl

end

/-- Settles O43: each step is its `moveStep_` lemma; the copy is `byte_fillRange_listed`, the frame of a woken request `forwarded_only`. -/
theorem pageMoves : Obligations.page_moves := by
  unfold Obligations.page_moves
  intro s m n cx hm hctx hone
  extract_lets size old new at_
  have hmem : m ∈ s.moves := List.mem_of_getElem? hm
  have hexec : exec (.pageMove n none) s = .next (s.moveStep m) := by
    change execPageMove n none s = _
    simp only [execPageMove, hm]
  refine ⟨s.moveStep m, hexec, fun hstep => ?_, fun sd hstep hsd => ⟨fun hdone => ?_, fun ⟨d, hd, hid, hwaiting⟩ => ?_⟩,
    fun hstep hshadows hholds hwf => ?_, fun hstep hheld => ?_, fun hstep => ?_, fun sd hstep hsd => ⟨fun hquiet => ?_, fun ⟨d, hd, hid⟩ => ?_⟩⟩
  · rw [moveStep_shoot hctx hstep]
    refine ⟨rfl, _, List.mem_append_right _ (List.mem_singleton.2 rfl), rfl, rfl, rfl, rfl, rfl, mem_putMove (m := m) hmem ?_⟩
    exact (same_iff ..).2 ⟨rfl, rfl, rfl⟩
  · have hall : s.shootDone (m.sd.getD 0) = true := List.all_eq_true.2 fun d hd => by
      by_cases hid : d.id = sd
      · simp [hdone d hd hid]
      · simp [hsd, hid]
    rw [moveStep_lock hstep, if_pos hall]
    exact ⟨mem_putMove hmem (at_same m 3), rfl, rfl⟩
  · have hnot : s.shootDone (m.sd.getD 0) = false := List.all_eq_false.2 ⟨d, hd, by simp [hsd, hid, hwaiting]⟩
    rw [moveStep_lock hstep, hnot, if_neg Bool.false_ne_true]
  · rw [moveStep_copy hstep hshadows, heldIn_idle hholds, heldIn_idle hholds, if_neg (by decide)]
    obtain ⟨hcopy, hrest⟩ := byte_fillRange_listed (t := s.freshRange new size) hwf rfl new old size
    have hmoves := congrArg State.moves (fillRange_rest (s.freshRange new size) new size (s.listed old size))
    exact ⟨mem_putMove (m := m) (hmoves ▸ hmem) (at_same m 4), hcopy, hrest⟩
  · rw [moveStep_leaf hstep, hheld, if_neg Bool.false_ne_true]
    obtain ⟨hword, hbytes⟩ := written_word (s := s) (key := m.leaf) (w := leafWord (s.word m.leaf) m.newLoc m.new false) rfl
    refine ⟨mem_putMove (m := m) ?_ (at_same m 5), hword, hbytes⟩
    rw [State.poke_moves]
    exact hmem
  · rw [moveStep_wake hstep]
    refine ⟨mem_putMove hmem (at_same m 6), rfl, ?_, fun line hlo hhi hnew hrest => ?_⟩
    · refine List.map_congr_left fun sp _ => ?_
      congr 1
      refine List.map_congr_left fun e _ => ?_
      unfold Entry.wokenBy
      simp only [Bool.and_eq_true, Bool.or_eq_true, decide_eq_true_eq, and_assoc]
      rfl
    · refine forwarded_only (m := m.at_ 6) (mem_putMove hmem (at_same m 6)) (Nat.le_succ 5) ⟨hlo, hhi⟩ (fun k hk => ?_) hnew
      exact (of_mem_putMove (at_same m 6) hk).imp_right fun ⟨hin, hne⟩ => hrest k hin hne
  · have hall : s.shootQuiet (m.sd.getD 0) = true := List.all_eq_true.2 fun d hd => by simp [hsd, hquiet d hd]
    have hgone : s.moves.filter (!·.same m) = s.moves.filter fun k => decide (k ≠ m) := List.filter_congr fun k hk => by
      by_cases hkm : k = m
      · simp [hkm, Move.same]
      · have hdiff : k.same m = false := Bool.eq_false_iff.2 fun h => by
          obtain ⟨hleaf, hloc, hold⟩ := (same_iff ..).1 h
          exact hkm (hone k hk hleaf hloc hold)
        simp [hkm, hdiff]
    rw [moveStep_end hstep, if_pos hall, hgone]
  · have hnot : s.shootQuiet (m.sd.getD 0) = false := List.all_eq_false.2 ⟨d, hd, by simp [hsd, hid]⟩
    rw [moveStep_end hstep, hnot, if_neg Bool.false_ne_true]

end Sys2Proof.Machine
end

section
/-! SUPPORT. Prefetch streams, cache control and lifetime hints as they issue, the table of hints, and the obligation about them (R141, R193 to
R195). -/

namespace Sys2Proof.Machine

/-! Words without requests that change the state when their guard is true. -/

section
variable {i : Instr} {s : State} {sp0 sp : Span} {I : List Nat} {a : Word}

/-- A word without requests has its effect behind the lanes that go on. -/
theorem quietOp_goes (h : Clear i s sp0 sp I a) (hheld : sp.memHeld = false) (hguard : acting i sp I ≠ []) {f : State → Iss → State} :
    quietOp i f s = .next ((f (s.putSpan (sp.onLanes I fun ln => { ln with pc := a + 8 })) (At i sp I a)).issued i (At i sp I a)) := by
  refine (issue_clear h (fun hp => by cases hp) (fun hw => by cases hw) rfl rfl (by simp [hheld])).trans ?_
  have hsome : (guardLanes sp (shape i).ctl I).isEmpty = false := by simpa [acting] using hguard
  simp only [hsome, Bool.false_eq_true, if_false]
  rfl

end

/-! Addresses (R182). -/

theorem base_toNat (sp : Span) (x : MEM) (l : Nat) : (sp.base x l).toNat =
    if x.a = 0xFF then 0 else if x.ctl.u || x.ka then (sp.s x.a.toNat).toNat else (sp.v x.a.toNat l).toNat + 2 ^ 32 * (sp.v (x.a.toNat + 1) l).toNat := by
  unfold Span.base Span.v64
  split
  · rfl
  · split
    · rfl
    · rw [BitVec.toNat_append, Nat.shiftLeft_eq, ← Nat.shiftLeft_eq, ← Nat.shiftLeft_add_eq_or_of_lt (sp.v x.a.toNat l).isLt, Nat.shiftLeft_eq]
      omega

theorem index_toNat (sp : Span) (x : MEM) (l : Nat) : (sp.index x l).toNat =
    if x.b = 0xFF then 0 else if x.ctl.u || x.kb then (sp.s x.b.toNat).toNat else (sp.v x.b.toNat l).toNat := by
  unfold Span.index
  split
  · rfl
  · split
    · rfl
    · rw [BitVec.toNat_setWidth, Nat.mod_eq_of_lt (Nat.lt_of_lt_of_le (sp.v x.b.toNat l).isLt (by decide))]

/-- The address of the model is that of R182. -/
theorem ea_eq_effAddr (sp : Span) (x : MEM) (l : Nat) : (sp.ea x true true l).toNat = effAddr sp x true true l := by
  unfold Span.ea effAddr
  simp only [if_true, Bool.not_true, Bool.false_or, decide_eq_true_eq, ← base_toNat, ← index_toNat]
  rw [BitVec.ofInt_add, BitVec.ofInt_add, BitVec.ofInt_natCast, BitVec.ofInt_natCast, BitVec.ofNat_toNat, BitVec.ofNat_toNat, BitVec.setWidth_eq,
    BitVec.setWidth_eq]
  rfl

/-- Where an address is found does not depend on the spans. -/
theorem lineAt_putSpan (s : State) (sp : Span) (cx : Context) (va : Nat) : (s.putSpan sp).lineAt cx va = s.lineAt cx va := rfl

/-! Prefetch streams (R193). -/

section
variable {s : State} {sp0 sp : Span} {I : List Nat} {a : Word} {x : RRR}

/-- The stream that a PFS starts. -/
def Span.stream (sp : Span) (x : RRR) : Stream :=
  { pier := sp.pier, ctx := sp.ctx, start := sp.s x.d.toNat, count := (sp.s x.a.toNat).toNat % 2 ^ 32, stride := sp.s x.b.toNat, shore := x.bit 0 }

theorem exec_pfs (h : Clear (.pfs x) s sp0 sp I a) (hheld : sp.memHeld = false) (hguard : acting (.pfs x) sp I ≠ []) :
    exec (.pfs x) s = .next ((if (sp.stream x).count = 0 then s.putSpan (sp.onLanes I fun ln => { ln with pc := a + 8 })
      else (s.putSpan (sp.onLanes I fun ln => { ln with pc := a + 8 })).startStream (sp.stream x)).issued (.pfs x) (At (.pfs x) sp I a)) := by
  change execPfs x s = _
  unfold execPfs
  rw [quietOp_goes h hheld hguard]
  rfl

theorem startStream_room {n : Stream} (h : (s.streams.filter fun m => decide (m.pier = n.pier)).length < 16) :
    s.startStream n = { s with streams := s.streams ++ [n] } := by
  unfold State.startStream
  dsimp only
  rw [if_neg (Nat.not_le.2 h)]

theorem startStream_full {n o : Stream} {rest : List Stream} (hmine : (s.streams.filter fun m => decide (m.pier = n.pier)) = o :: rest)
    (h : 16 ≤ (s.streams.filter fun m => decide (m.pier = n.pier)).length) : s.startStream n = { s with streams := s.streams.erase o ++ [n] } := by
  unfold State.startStream
  dsimp only
  rw [if_pos h, hmine]
  rfl

end

/-! Lifetime hints (R141). -/

/-- Does a hint cover an address of a context? -/
def Hint.covers (h : Hint) (ctx va : Nat) : Prop := h.ctx = ctx ∧ h.start ≤ va ∧ va < h.stop

/-- What lies outside a range covers what the hint covered, the range apart. -/
theorem outside_covers (h : Hint) (ctx lo hi c v : Nat) :
    (∃ g ∈ h.outside ctx lo hi, g.covers c v) ↔ h.covers c v ∧ ¬ (c = ctx ∧ lo ≤ v ∧ v < hi) := by
  unfold Hint.outside Hint.covers
  by_cases hout : h.ctx ≠ ctx ∨ h.stop ≤ lo ∨ hi ≤ h.start
  · rw [if_pos hout]
    simp only [List.mem_singleton, exists_eq_left, iff_self_and]
    omega
  · rw [if_neg hout]
    by_cases hbefore : h.start < lo <;> by_cases hafter : h.stop > hi <;> simp [hbefore, hafter] <;> omega

/-- A hint is ranked no later than another to give way: lower priority first, then the earlier step. -/
def Hint.noStronger (h g : Hint) : Prop := h.prio < g.prio ∨ (h.prio = g.prio ∧ h.step.toNat ≤ g.step.toNat)

theorem noStronger_of_not_weaker {b c : Hint} (h : c.weaker b = false) : b.noStronger c := by
  unfold Hint.weaker at h
  unfold Hint.noStronger
  simp only [Bool.or_eq_false_iff, Bool.and_eq_false_iff, decide_eq_false_iff_not] at h
  omega

theorem noStronger_of_weaker {b c : Hint} (h : c.weaker b = true) : c.noStronger b := by
  unfold Hint.weaker at h
  unfold Hint.noStronger
  simp only [Bool.or_eq_true, Bool.and_eq_true, decide_eq_true_eq] at h
  omega

theorem Hint.noStronger.trans {a b c : Hint} (h : a.noStronger b) (g : b.noStronger c) : a.noStronger c := by
  unfold Hint.noStronger at *
  omega

/-- A walk that keeps the weaker of two hints ends at the weakest of all. -/
theorem foldl_weakest (r : List Hint) (h : Hint) :
    r.foldl (fun b c => if c.weaker b then c else b) h ∈ h :: r ∧ ∀ g ∈ h :: r, (r.foldl (fun b c => if c.weaker b then c else b) h).noStronger g := by
  induction r generalizing h with
  | nil => simp [Hint.noStronger]
  | cons c r ih =>
    obtain ⟨hmem, hbest⟩ := ih (if c.weaker h then c else h)
    rw [List.foldl_cons]
    have hfirst := hbest _ List.mem_cons_self
    cases hw : c.weaker h with
    | true =>
      simp only [hw, if_true] at hmem hbest hfirst ⊢
      refine ⟨List.mem_cons_of_mem _ hmem, fun g hg => ?_⟩
      rcases List.mem_cons.1 hg with rfl | hg
      · exact hfirst.trans (noStronger_of_weaker hw)
      · exact hbest g hg
    | false =>
      simp only [hw, Bool.false_eq_true, if_false] at hmem hbest hfirst ⊢
      refine ⟨?_, fun g hg => ?_⟩
      · rcases List.mem_cons.1 hmem with hmem | hmem
        · rw [hmem]
          exact List.mem_cons_self
        · exact List.mem_cons_of_mem _ (List.mem_cons_of_mem _ hmem)
      · rcases List.mem_cons.1 hg with rfl | hg
        · exact hfirst
        · rcases List.mem_cons.1 hg with rfl | hg
          · exact hfirst.trans (noStronger_of_not_weaker hw)
          · exact hbest g (List.mem_cons_of_mem _ hg)

/-- The weakest hint gives way. -/
theorem dropWeakest_spec {hs : List Hint} (hne : hs ≠ []) : ∃ h ∈ hs, dropWeakest hs = hs.erase h ∧ ∀ g ∈ hs, h.noStronger g := by
  cases hs with
  | nil => exact absurd rfl hne
  | cons h r =>
    obtain ⟨hmem, hbest⟩ := foldl_weakest r h
    exact ⟨_, hmem, rfl, hbest⟩

theorem dropWeakest_length (hs : List Hint) : (dropWeakest hs).length = hs.length - 1 := by
  by_cases hne : hs = []
  · subst hne; rfl
  · obtain ⟨h, hmem, heq, -⟩ := dropWeakest_spec hne
    rw [heq, List.length_erase_of_mem hmem]

theorem foldl_dropWeakest_length (ks : List Nat) (hs : List Hint) : (ks.foldl (fun t _ => dropWeakest t) hs).length = hs.length - ks.length := by
  induction ks generalizing hs with
  | nil => rfl
  | cons k ks ih => rw [List.foldl_cons, ih, dropWeakest_length, List.length_cons]; omega

theorem makeRoom_free {n : Nat} {hs : List Hint} (h : hs.length + n ≤ 4096) : makeRoom n hs = hs := by
  unfold makeRoom
  rw [Nat.sub_eq_zero_of_le h]
  rfl

theorem makeRoom_length {n : Nat} (hn : n ≤ 4096) (hs : List Hint) : (makeRoom n hs).length = min hs.length (4096 - n) := by
  unfold makeRoom
  rw [foldl_dropWeakest_length, List.length_range]
  omega

theorem makeRoom_one_over {n : Nat} {hs : List Hint} (h : hs.length + n = 4097) : makeRoom n hs = dropWeakest hs := by
  unfold makeRoom
  rw [h]
  rfl

/-! The words. -/

section
variable {s : State} {sp0 sp : Span} {I : List Nat} {a : Word}

/-- What a CCTL does, by its code. -/
theorem exec_cctl {x : MEM} {cx : Context} (h : Clear (.cctl x) s sp0 sp I a) (hheld : sp.memHeld = false) (hguard : acting (.cctl x) sp I ≠ [])
    (hctx : s.ctx? sp.ctx = some cx) :
    let t := s.putSpan (sp.onLanes I fun ln => { ln with pc := a + 8 })
    exec (.cctl x) s = .next ((match x.d.toNat with
      | 0 => match s.lineAt cx (effAddr sp x true true 0) with | some n => t.dropL1 sp.pier n | none => t
      | 1 => { t with l1 := t.l1.filter fun c => decide (c.pier ≠ sp.pier) }
      | 2 => match s.lineAt cx (effAddr sp x true true 0) with
        | some n => { t with demoted := if t.demoted.contains n then t.demoted else t.demoted ++ [n] }
        | none => t
      | _ => t.onSpan sp.id fun w => { w with epoch := t.steps }).issued (.cctl x) (At (.cctl x) sp I a)) := by
  intro t
  change execCctl x s = _
  unfold execCctl
  rw [quietOp_goes h hheld hguard]
  have hline : (match t.ctx? sp.ctx with | some cx => t.lineAt cx (sp.ea x true true 0).toNat | none => none) =
      s.lineAt cx (effAddr sp x true true 0) := by
    rw [show t.ctx? sp.ctx = some cx from hctx, ea_eq_effAddr]
    exact lineAt_putSpan ..
  rw [← hline]
  rfl

/-- The hints of a partition after an LTH: those of its pages cut out, and unless it clears one in their place. -/
def Span.hinted (sp : Span) (x : RRR) (p : Partition) : Partition :=
  let start := (sp.s x.d.toNat).toNat
  let lo := start / 65536 * 65536
  let hi := (start + (sp.s x.a.toNat).toNat - 1) / 65536 * 65536 + 65536
  let h := sp.s x.b.toNat
  let cut := (p.hints.map fun g => g.outside sp.ctx lo hi).flatten
  if x.bit 0 then { p with hints := makeRoom 0 cut }
  else { p with hints := makeRoom 1 cut ++ [⟨sp.ctx, lo, hi, (h.extractLsb' 32 3).toNat, h.setWidth 32⟩] }

/-- What an LTH does: a range of no bytes changes no hint. -/
theorem exec_lth {x : RRR} (h : Clear (.lth x) s sp0 sp I a) (hheld : sp.memHeld = false) (hguard : acting (.lth x) sp I ≠ []) :
    exec (.lth x) s = .next ((if (sp.s x.a.toNat).toNat = 0 then s.putSpan (sp.onLanes I fun ln => { ln with pc := a + 8 })
      else (s.putSpan (sp.onLanes I fun ln => { ln with pc := a + 8 })).onPart sp.part (sp.hinted x)).issued (.lth x) (At (.lth x) sp I a)) := by
  change execLth x s = _
  unfold execLth
  rw [quietOp_goes h hheld hguard]
  rfl

end

/-- Settles O20: each word's effect is that of `exec_pfs`, `exec_cctl` and `exec_lth`; what is left of a hint is `outside_covers`, and the hint that
gives way is `dropWeakest_spec`. -/
theorem cacheAndHints : Obligations.cache_and_hints := by
  unfold Obligations.cache_and_hints
  refine ⟨fun s sp0 sp I a => ?_, fun s sp0 sp I a x h hheld hguard => ?_, fun h ctx lo hi c v => ?_, fun n hs hn => ?_⟩
  · intro moved
    refine ⟨fun x h hheld hguard => ?_, fun x cx h hheld hguard hctx => ?_⟩
    · intro n mine after
      have hexec := exec_pfs h hheld hguard
      refine ⟨fun hzero => ?_, fun hsome hroom => ?_, fun hsome o rest hmine hfull => ?_⟩
      · rw [if_pos (c := (sp.stream x).count = 0) hzero] at hexec
        exact hexec
      · rw [if_neg (c := (sp.stream x).count = 0) hsome, startStream_room (s := s.putSpan moved) (n := sp.stream x) hroom] at hexec
        exact hexec
      · rw [if_neg (c := (sp.stream x).count = 0) hsome, startStream_full (s := s.putSpan moved) (n := sp.stream x) hmine hfull] at hexec
        exact hexec
    · intro line after
      have hexec := exec_cctl h hheld hguard hctx
      refine ⟨fun hd n hn => ?_, fun hd => ?_, fun hd n hn => ?_, fun hd => ?_, fun hd hnone => ?_⟩
      · rw [hd, show s.lineAt cx (effAddr sp x true true 0) = some n from hn] at hexec
        exact hexec
      · rw [hd] at hexec
        exact hexec
      · rw [hd, show s.lineAt cx (effAddr sp x true true 0) = some n from hn] at hexec
        refine ⟨if s.demoted.contains n then s.demoted else s.demoted ++ [n], hexec, fun m => ?_⟩
        split
        case isTrue hin =>
          have hmem : n ∈ s.demoted := List.contains_iff_mem.1 hin
          exact ⟨.inl, fun hm => hm.elim id (· ▸ hmem)⟩
        case isFalse => simp
      · rw [hd] at hexec
        refine hexec.trans (congrArg (fun t : State => Host.Outcome.next (t.issued (.cctl x) (At (.cctl x) sp I a))) ?_)
        exact onSpan_putSpan s moved _ rfl
      · rcases hd with hd | hd <;> rw [hd, show s.lineAt cx (effAddr sp x true true 0) = none from hnone] at hexec <;> exact hexec
  · intro start len lo hi h' cut after
    have hexec := exec_lth h hheld hguard
    refine ⟨fun hzero => ?_, fun hsome hclear => ?_, fun hsome hput => ?_⟩
    · have hsame : { s with parts := s.parts.modify sp.part id } = s := by rw [List.modify_id]
      rw [if_pos (c := (sp.s x.a.toNat).toNat = 0) hzero] at hexec
      exact hexec.trans (by rw [hsame])
    · rw [if_neg (c := (sp.s x.a.toNat).toNat = 0) hsome, show sp.hinted x = _ from funext fun p => if_pos hclear] at hexec
      exact hexec
    · rw [if_neg (c := (sp.s x.a.toNat).toNat = 0) hsome, show sp.hinted x = _ from funext fun p => if_neg (by rw [hput]; decide)] at hexec
      exact hexec
  · simpa only [Hint.covers, and_assoc] using outside_covers h ctx lo hi c v
  · refine ⟨makeRoom_free, makeRoom_length hn hs, fun hover => ?_⟩
    obtain ⟨h, hmem, heq, hbest⟩ := dropWeakest_spec (hs := hs) (by rintro rfl; simp at hover; omega)
    exact ⟨h, hmem, (makeRoom_one_over hover).trans heq, hbest⟩

end Sys2Proof.Machine
end

section
/-! SUPPORT. TLBI and SNAP as they issue, the receivers of a shoot-down, what a snapshot latches, and the obligation about them (R145, R335, R338,
R370). -/

namespace Sys2Proof.Machine

/-! Shoot-downs (R145). -/

/-- The receivers of a shoot-down in a partition. -/
def Partition.receivers (p : Partition) : List Nat := (List.range Config.piers).filter p.row.piers.contains ++ p.dies.map (Config.piers + ·)

theorem mem_dies {p : Partition} {d : Nat} : d ∈ p.dies ↔ d < 4 ∧ ((∃ i ∈ p.row.piers, i / 40 = d) ∨ ∃ c ∈ p.row.channels, c / 128 = d) := by
  simp [Partition.dies, Config.dies, Config.piersPerDie]

theorem mem_receivers {p : Partition} {k : Nat} : k ∈ p.receivers ↔ (k < 160 ∧ k ∈ p.row.piers) ∨
    ∃ die, die < 4 ∧ k = 160 + die ∧ ((∃ i ∈ p.row.piers, i / 40 = die) ∨ ∃ c ∈ p.row.channels, c / 128 = die) := by
  unfold Partition.receivers
  rw [List.mem_append, List.mem_map]
  refine or_congr (by simp [Config.piers]) ⟨?_, ?_⟩
  · rintro ⟨die, hdie, rfl⟩
    obtain ⟨hlt, hof⟩ := mem_dies.1 hdie
    exact ⟨die, hlt, rfl, hof⟩
  · rintro ⟨die, hlt, rfl, hof⟩
    exact ⟨die, mem_dies.2 ⟨hlt, hof⟩, rfl⟩

section
variable {s : State} {part ctx start stop : Nat} {issuer : Option Nat} {p : Partition}

/-- A shoot-down that is sent takes the next number, and waits for every receiver of its partition. -/
theorem shoot_spec (hp : s.parts[part]? = some p) : ∃ d, s.shoot part ctx start stop issuer =
      ({ s with uid := s.uid + 1, shoots := s.shoots ++ [d] }, s.uid) ∧ d.id = s.uid ∧ d.part = part ∧ d.ctx = ctx ∧ d.issuer = issuer ∧
        d.holders = [] ∧ d.start = start ∧ d.stop = stop ∧ d.waiting = p.receivers := by
  unfold State.shoot
  rw [hp]
  exact ⟨_, rfl, rfl, rfl, rfl, rfl, rfl, rfl, rfl, rfl⟩

end

section
variable {s : State} {sp0 sp : Span} {I : List Nat} {a : Word} {x : RRR}

/-- The first and the last address of the pages that a TLBI names. -/
def Span.shotPages (sp : Span) (x : RRR) : Nat × Nat :=
  if x.bit 0 then (0, 2 ^ 64) else
    ((sp.s x.d.toNat).toNat / 65536 * 65536, ((sp.s x.d.toNat).toNat + (sp.s x.a.toNat).toNat - 1) / 65536 * 65536 + 65536)

theorem exec_tlbi (h : Clear (.tlbi x) s sp0 sp I a) (hmode : sp.hmode = true) (hguard : acting (.tlbi x) sp I ≠ []) :
    let t := s.putSpan (sp.onLanes I fun ln => { ln with pc := a + 8 })
    exec (.tlbi x) s = .next ((if !x.bit 0 && decide ((sp.s x.a.toNat).toNat = 0) then t else
      (t.shoot sp.part sp.ctx (sp.shotPages x).1 (sp.shotPages x).2 (some sp.uid)).1.onSpan sp.id fun w => { w with tlbi := some s.uid }).issued
        (.tlbi x) (At (.tlbi x) sp I a)) := by
  intro t
  change execTlbi x s = _
  unfold execTlbi
  rw [issue_clear h (fun _ => hmode) (fun hw => by cases hw) rfl rfl rfl]
  have hsome : (guardLanes sp (shape (.tlbi x)).ctl I).isEmpty = false := by simpa [acting] using hguard
  simp only [hsome, Bool.false_or]
  rfl

end

/-! Snapshots (R338, R370). -/

theorem insertSpan_length (sp : Span) (l : List Span) : (insertSpan sp l).length = l.length + 1 := by
  induction l with
  | nil => rfl
  | cons t r ih =>
    unfold insertSpan
    split
    · rfl
    · rw [List.length_cons, ih, List.length_cons]

theorem sortSpans_length (l : List Span) : (sortSpans l).length = l.length := by
  induction l with
  | nil => rfl
  | cons sp r ih => exact (insertSpan_length sp _).trans (congrArg (· + 1) ih)

theorem snapRecord_length (s : State) (sp : Span) : (s.snapRecord sp).length = 64 := by
  simp [State.snapRecord, toBytes_length]

/-- Two changes of a partition that agree on it are one. -/
theorem modify_congr {α : Type} {l : List α} {n : Nat} {a : α} (ha : l[n]? = some a) {f g : α → α} (hfg : f a = g a) : l.modify n f = l.modify n g := by
  refine List.ext_getElem? fun j => ?_
  rw [List.getElem?_modify, List.getElem?_modify]
  by_cases hj : n = j
  · subst hj
    simp [ha, hfg]
  · simp [hj]

theorem snapshot_taken {s : State} {part : Nat} {p : Partition} (hp : s.parts[part]? = some p) (hsnap : p.snap = none) (ctx source : Nat) (tag : Word) :
    ∃ j : SnapJob, s.snapshot part ctx source tag = ((s.onPart part fun q => { q with snap := some j }).trySnap part, true) ∧ j.ctx = ctx ∧
      j.at_ = p.snapbase ∧ j.head.length = 64 ∧ j.head.take 16 = toBytes 8 tag.toNat ++ toBytes 8 (s.time 0).toNat ∧
      j.recs.length = 64 * (s.spans.filter fun t => decide (t.part = part) && t.resident).length := by
  let sps := sortSpans (s.spans.filter fun sp => decide (sp.part = part) && sp.resident)
  let job (base : Word) : SnapJob := ⟨ctx, base, (sps.map s.snapRecord).flatten, toBytes 8 tag.toNat ++ toBytes 8 (s.time 0).toNat ++
    toBytes 8 (source + 2 ^ 8 * part) ++ toBytes 8 sps.length ++ toBytes 32 0⟩
  refine ⟨job p.snapbase, ?_, rfl, rfl, ?_, ?_, ?_⟩
  · have hpart : (s.onPart part fun q => { q with snap := some (job q.snapbase) }) = s.onPart part fun q => { q with snap := some (job p.snapbase) } :=
      congrArg (fun ps => { s with parts := ps }) (modify_congr (f := fun q : Partition => { q with snap := some (job q.snapbase) })
        (g := fun q => { q with snap := some (job p.snapbase) }) hp rfl)
    rw [← hpart]
    unfold State.snapshot
    rw [hp]
    simp only [hsnap, Option.isSome_none, Bool.false_eq_true, if_false]
    rfl
  · simp [job, toBytes_length]
  · simp [job, List.take_append, toBytes_length]
  · exact (flatten_length (snapRecord_length s) sps).trans (congrArg (64 * ·) (sortSpans_length _))

theorem snapshot_dropped {s : State} {part : Nat} {p : Partition} (hp : s.parts[part]? = some p) (hsnap : p.snap.isSome = true) (ctx source : Nat) (tag : Word) :
    s.snapshot part ctx source tag = (s, false) := by
  unfold State.snapshot
  rw [hp]
  exact if_pos hsnap

/-- A trigger tells whether it has latched the registers. -/
theorem snapshot_tells {s : State} {part : Nat} {p : Partition} (hp : s.parts[part]? = some p) (ctx source : Nat) (tag : Word) :
    (s.snapshot part ctx source tag).2 = p.snap.isNone := by
  cases hsnap : p.snap with
  | none =>
    obtain ⟨j, heq, -⟩ := snapshot_taken hp hsnap ctx source tag
    rw [heq]
    rfl
  | some j =>
    rw [snapshot_dropped hp (by rw [hsnap]; rfl)]
    rfl

theorem exec_snap {s : State} {sp0 sp : Span} {I : List Nat} {a : Word} {x : RRR} {p : Partition} (hp : s.parts[sp.part]? = some p) (h : Clear (.snap x) s sp0 sp I a) (hguard : acting (.snap x) sp I ≠ []) :
    exec (.snap x) s = .next (((((s.putSpan (sp.onLanes I fun ln => { ln with pc := a + 8 })).snapshot sp.part sp.ctx 0 (sp.s x.a.toNat)).1).onSpan sp.id
      (·.setQ x.d.toNat p.snap.isNone)).issued (.snap x) (At (.snap x) sp I a)) := by
  change execSnap x s = _
  unfold execSnap
  rw [issue_clear h (fun hp => by cases hp) (fun hw => by cases hw) rfl rfl rfl]
  have hsome : (guardLanes sp (shape (.snap x)).ctl I).isEmpty = false := by simpa [acting] using hguard
  simp only [hsome, Bool.false_eq_true, if_false]
  rw [snapshot_tells (s := s.putSpan (Iss.moved ⟨sp, I, guardLanes sp (shape (.snap x)).ctl I, a⟩)) hp]
  rfl

/-- Settles O30: a TLBI that names pages sends the shoot-down of `shoot_spec`; what a snapshot latches is `snapshot_taken`. -/
theorem shootDownsAndSnapshots : Obligations.shoot_downs_and_snapshots := by
  unfold Obligations.shoot_downs_and_snapshots
  intro s sp0 sp I a x p hp moved
  refine ⟨fun h hmode hguard => ?_, exec_snap hp, fun ctx source tag hsnap => snapshot_dropped hp hsnap ctx source tag,
    fun ctx source tag hsnap => snapshot_taken hp hsnap ctx source tag⟩
  intro start len
  have hexec := exec_tlbi h hmode hguard
  refine ⟨fun hbit hlen => ?_, fun hpages => ?_⟩
  · exact hexec.trans (by rw [if_pos (by rw [hbit]; simpa using hlen)])
  · have hsent : (!x.bit 0 && decide (len = 0)) = false := by
      rcases hpages with hbit | hlen
      · rw [hbit]; rfl
      · simp [hlen]
    obtain ⟨d, hshoot, hid, hpart, hctx, hissuer, hholders, hstart, hstop, hwaiting⟩ :=
      shoot_spec (s := s.putSpan moved) (ctx := sp.ctx) (start := (sp.shotPages x).1) (stop := (sp.shotPages x).2) (issuer := some sp.uid) hp
    refine ⟨d, hexec.trans ?_, hid, hpart, hctx, hissuer, hholders, fun hbit => ?_, fun hbit => ?_, fun k => by rw [hwaiting]; exact mem_receivers⟩
    · rw [if_neg (by rw [hsent]; decide), hshoot]
      exact congrArg (fun t : State => Host.Outcome.next (t.issued (.tlbi x) (At (.tlbi x) sp I a)))
        (onSpan_putSpan { s with uid := s.uid + 1, shoots := s.shoots ++ [d] } moved _ rfl)
    · rw [hstart, hstop, Span.shotPages, if_pos hbit]
      exact ⟨rfl, rfl⟩
    · rw [hstart, hstop, Span.shotPages, if_neg (by rw [hbit]; decide)]
      exact ⟨rfl, rfl⟩

end Sys2Proof.Machine
end

section
/-! SUPPORT. The forks of what waits for its span's earlier requests (R134, R206, R212, R250, R252, R298, R326). -/

namespace Sys2Proof.Machine

variable {s : State} {sp : Span}

/-! A ferry operation that ends without a completion word to write, or whose completion word has no place. -/

theorem ferryFinish_done {id : Nat} {o : FerryOp} (hs : s.span? id = some sp) (hcomp : o.comp = 0) (hfail : o.fail = none) :
    s.ferryFinish id o = ((s.opEnded sp o).onSpan id (·.freeFerry o.id)).settle id := by
  simp [State.ferryFinish, hs, hcomp, hfail]

theorem ferryFinish_bare {id : Nat} {o : FerryOp} {f : Word × Cause} (hs : s.span? id = some sp) (hfail : o.fail = some f)
    (hbare : o.comp.toNat % 8 ≠ 0 ∨ o.comp.getLsbD 63 = true) : s.ferryFinish id o = (s.opEnded sp o).ferryFail id o.id f := by
  have hb : (decide (o.comp.toNat % 8 ≠ 0) || o.comp.getLsbD 63) = true := by simpa using hbare
  simp only [State.ferryFinish, hs, hfail, hb, Bool.or_true, if_true]

/-! The fork of an operation whose drain is done (R134). -/

theorem exec_engineFork {what : ForkRef} (hs : s.span? sp.id = some sp) (hres : sp.resident = true) :
    exec (.engineFork sp.id what) s = .next (match what with
      | .ferry op => match sp.ferry? op with | some o => s.forkFerry sp o | none => s
      | .plane op => s.forkPlane sp op
      | .entry slot => match sp.landing.find? (fun e => decide (e.slot = slot)) with | some e => s.forkEntry sp e | none => s) := by
  change execEngineFork sp.id what s = _
  unfold execEngineFork
  rw [hs]
  exact if_neg (by simp [hres])

section
variable {o : FerryOp} (ho : sp.ferry? o.id = some o) (hst : o.st = .drain) (hdr : s.forkDrained sp o.seq = true)
include hst hdr

theorem forkFerry_copy (hkind : o.kind ≠ .nsend) : s.forkFerry sp o = s.ferryFork sp o := by
  simp [State.forkFerry, hst, hdr, hkind]

theorem forkFerry_send (hkind : o.kind = .nsend) : s.forkFerry sp o =
    if (s.tree? sp.part o.tree).isSome then s.onSpan sp.id (·.putFerry { o with st := .running, view := s.forking sp o.seq })
    else ((s.onSpan sp.id (·.freeFerry o.id)).onSpan sp.id (·.record .nettimeout)).settle sp.id := by
  simp [State.forkFerry, hst, hdr, hkind]

end

/-- The operation with what its fork hands on. -/
def State.forked (s : State) (sp : Span) (o : FerryOp) : FerryOp := { o with view := s.forking sp o.seq }

section
variable {o : FerryOp} {cx : Context} (hcx : s.ctx? sp.ctx = some cx) (hcan : o.cancel = false)
include hcx hcan

/-- The operation's view is no part of what refuses it. -/
theorem ferryFork_eq : s.ferryFork sp o = match s.ferryRefused cx sp o with
    | some f => s.ferryFinish sp.id { s.forked sp o with fail := some f }
    | none => if o.total = 0
      then (s.onSpan sp.id (·.putFerry { s.forked sp o with st := .running })).ferryFinish sp.id { s.forked sp o with st := .running }
      else s.onSpan sp.id (·.putFerry { s.forked sp o with st := .running }) := by
  unfold State.ferryFork
  rw [hcx]
  exact if_neg (Bool.eq_false_iff.1 hcan)

theorem ferryFork_fails {f : Word × Cause} (hs : s.span? sp.id = some sp) (h : s.ferryRefused cx sp o = some f)
    (hbare : o.comp.toNat % 8 ≠ 0 ∨ o.comp.getLsbD 63 = true) :
    s.ferryFork sp o = ((s.opEnded sp (s.forked sp o)).onSpan sp.id fun t =>
      ({ t.freeFerry o.id with lastFail := some f } : Span).record .ferryfail).settle sp.id := by
  rw [ferryFork_eq hcx hcan, h]
  exact ferryFinish_bare (o := { s.forked sp o with fail := some f }) hs rfl hbare

theorem ferryFork_runs (h : s.ferryRefused cx sp o = none) (htotal : o.total ≠ 0) :
    s.ferryFork sp o = s.onSpan sp.id (·.putFerry { s.forked sp o with st := .running }) := by
  rw [ferryFork_eq hcx hcan, h]
  exact if_neg htotal

/-- An operation of no bytes and no completion word ends at its fork. -/
theorem ferryFork_empty (hs : s.span? sp.id = some sp) (h : s.ferryRefused cx sp o = none) (htotal : o.total = 0) (hcomp : o.comp = 0)
    (hfail : o.fail = none) : s.ferryFork sp o = (((s.onSpan sp.id (·.putFerry { s.forked sp o with st := .running })).opEnded sp
        (s.forked sp o)).onSpan sp.id (·.freeFerry o.id)).settle sp.id := by
  rw [ferryFork_eq hcx hcan, h]
  exact (if_pos htotal).trans (ferryFinish_done (sp := sp.putFerry { s.forked sp o with st := .running })
    (o := { s.forked sp o with st := .running }) (span?_onSpan_self _ (fun _ => rfl) hs) hcomp hfail)

end

theorem ferryRefused_misalign {cx : Context} {o : FerryOp} (h : o.comp.toNat % 8 ≠ 0) : s.ferryRefused cx sp o = some (o.comp, .misalign) :=
  if_pos h

theorem ferryRefused_unmapped {cx : Context} {o : FerryOp} (h : o.comp.toNat % 8 = 0) (hdeck : o.comp.getLsbD 63 = true) :
    s.ferryRefused cx sp o = some (o.comp, .unmapped) := (if_neg (not_not.2 h)).trans (if_pos hdeck)

/-! The fork of a plane operation, and its check (R250, R252, R283). -/

theorem forkPlane_first {o : PlaneOp} (ho : s.planeq.find? (fun q => decide (q.uid = sp.uid) && decide (q.st = PState.drain)) = some o)
    (hdr : s.forkDrained sp o.seq = true) : s.forkPlane sp o.id = s.planeFork sp o := by
  simp only [State.forkPlane, ho, hdr, decide_true, Bool.and_true, if_true]

/-- The plane operation passes its check as `n`. -/
def State.planePass (s : State) (sp : Span) (n : PlaneOp) : State :=
  (s.queuePlane n).onSpan sp.id fun t => { t with checkOp := if t.checkOp = some n.id then none else t.checkOp }

section
variable {o : PlaneOp} {k : Block} (hk : s.block? o.blk = some k)
include hk

theorem planeFork_sparse (hkind : o.kind = .pmms) : s.planeFork sp o =
    if o.sparseBad (o.seen k) then s.planeTrap sp o .sparsemeta else (s.planePass sp { o with words := [] }).settle sp.id := by
  unfold State.planeFork
  simp only [hk, hkind]
  rfl

theorem planeFork_load (hkind : o.kind = .pacl) : s.planeFork sp o =
    if anchorOk (imageAnchor (sgets 0 k.deck o.opb.toNat imageSize))
    then (s.planePass sp { o with anchor := imageAnchor (sgets 0 k.deck o.opb.toNat imageSize) }).settle sp.id
    else s.planeTrap sp o .accrange := by
  unfold State.planeFork
  simp only [hk, hkind]
  rfl

theorem planeFork_unchecked (hmms : o.kind ≠ .pmms) (hacl : o.kind ≠ .pacl) : s.planeFork sp o = (s.planePass sp o).settle sp.id := by
  unfold State.planeFork
  rw [hk]
  dsimp only
  split
  · exact absurd ‹o.kind = .pmms› hmms
  · exact absurd ‹o.kind = .pacl› hacl
  · rfl

end

theorem sparseBad_iff {o : PlaneOp} (hkind : o.kind = .pmms) (k : Block) : o.sparseBad k = true ↔ ∃ i, i < 64 * ctlCount o.ctl ∧
    sparseBad (sparseN o.fmt) (sgets 0 k.deck (o.opa.toNat + i * (32 + 2 * sparseN o.fmt * fmtPA o.fmt))
      (32 + 2 * sparseN o.fmt * fmtPA o.fmt)) = true := by
  simp [PlaneOp.sparseBad, sizeA, hkind]

theorem sgets_drop_take {α : Type} (d : α) (m : List (Nat × α)) (k n i j : Nat) (h : i + j ≤ n) :
    ((sgets d m k n).drop i).take j = sgets d m (k + i) j := by
  refine List.ext_getElem (by simp [sgets_length]; omega) fun x h1 h2 => ?_
  simp [sgets_eq_map, Nat.add_assoc]

theorem imageAnchor_sgets (m : List (Nat × Byte)) (k : Nat) :
    imageAnchor (sgets 0 m k imageSize) = (BitVec.ofNat 64 (leNat (sgets 0 m (k + 49664) 8))).toInt := by
  rw [imageAnchor, sgets_drop_take (h := by decide)]

theorem anchorOk_iff (g : Int) : anchorOk g = true ↔ -512 ≤ g ∧ g ≤ 511 := by simp [anchorOk]

theorem planePass_span (hs : s.span? sp.id = some sp) (n : PlaneOp) :
    (s.planePass sp n).span? sp.id = some { sp with checkOp := if sp.checkOp = some n.id then none else sp.checkOp } :=
  have hqueued : (s.queuePlane n).span? sp.id = some sp := hs
  span?_onSpan_self (fun t => { t with checkOp := if t.checkOp = some n.id then none else t.checkOp }) (fun _ => rfl) hqueued

theorem planePass_queues (hs : s.span? sp.id = some sp) {o n : PlaneOp} (huid : n.uid = o.uid) (hid : n.id = o.id) :
    ∃ (u : State) (sp' : Span), (.next ((s.planePass sp n).settle sp.id) : Out) = .next (u.settle sp.id) ∧
      u.planeq = (s.planeq.filter fun q => !(decide (q.uid = o.uid) && decide (q.id = o.id))) ++ [{ n with st := .queued }] ∧
      { u with planeq := s.planeq, spans := s.spans } = s ∧ u.span? sp.id = some sp' ∧
      sp' = { sp with checkOp := if sp.checkOp = some o.id then none else sp.checkOp } := by
  refine ⟨s.planePass sp n, _, rfl, ?_, ?_, planePass_span hs n, by rw [hid]⟩
  · rw [← huid, ← hid]; rfl
  · unfold State.planePass State.queuePlane State.dropPlane State.onSpan; rfl

/-! The fork of a landing entry that holds a task record (R326). -/

theorem forkEntry_record {e : Entry} {r : TaskRec} (hst : e.st = .ordered) (hop : e.op = .record r) (hdr : s.drained sp e.seq = true) :
    s.forkEntry sp e = s.onEntry sp.id e.slot fun f => { f with st := .inflight, op := .record { r with view := s.forking sp e.seq } } := by
  simp [State.forkEntry, hst, hop, hdr]

/-- Settles O35: each fork goes by its own equation once its drain is done; the checks of a plane operation read the masks and the anchor of
the deck as the statement writes them. -/
theorem engineForks : Obligations.engine_forks := by
  unfold Obligations.engine_forks
  intro s sp hs hres
  refine ⟨fun o cx ho hst hdr hcx hcan hfail hkind => ?_, fun o ho hst hdr hkind => ?_, fun o k ho hdr hk => ?_, fun e r he hst hop hdr => ?_⟩
  · have hexec : exec (.engineFork sp.id (.ferry o.id)) s = .next (s.ferryFork sp o) := by
      rw [exec_engineFork hs hres]; simp only [ho, forkFerry_copy hst hdr hkind]
    rw [hexec]
    exact ⟨fun h => congrArg (β := Out) .next (ferryFork_fails hcx hcan hs (ferryRefused_misalign h) (.inl h)),
      fun h hdeck => congrArg (β := Out) .next (ferryFork_fails hcx hcan hs (ferryRefused_unmapped h hdeck) (.inr hdeck)),
      fun hpass htotal => congrArg (β := Out) .next (ferryFork_runs hcx hcan hpass htotal),
      fun hpass htotal hcomp => congrArg (β := Out) .next (ferryFork_empty hcx hcan hs hpass htotal hcomp hfail)⟩
  · have hexec := exec_engineFork (what := .ferry o.id) hs hres
    simp only [ho, forkFerry_send hst hdr hkind] at hexec
    rw [hexec]
    exact ⟨fun htree => by rw [if_pos (Option.isSome_iff_ne_none.2 htree)], fun htree => by rw [htree]; rfl⟩
  · have hexec : exec (.engineFork sp.id (.plane o.id)) s = .next (s.planeFork sp o) := by
      rw [exec_engineFork hs hres]; exact congrArg (β := Out) .next (forkPlane_first ho hdr)
    rw [hexec]
    refine ⟨fun hmms hacl => ?_, fun hmms => ?_, fun hacl g hg => ?_⟩
    · rw [planeFork_unchecked hk hmms hacl]
      exact planePass_queues hs rfl rfl
    · rw [planeFork_sparse hk hmms]
      simp only [← sparseBad_iff hmms]
      split
      · rfl
      · exact planePass_queues hs (n := { o with words := [] }) rfl rfl
    · rw [planeFork_load hk hacl]
      simp only [imageAnchor_sgets, ← anchorOk_iff, ← hg]
      split
      · exact planePass_queues hs (n := { o with anchor := g }) rfl rfl
      · rfl
  · rw [exec_engineFork hs hres]
    simp only [he, forkEntry_record hst hop hdr]
    rfl

end Sys2Proof.Machine
end

section
/-! SUPPORT. The engines at work: a copy's chunk within the deck (R149, R207), the plane engine's stripe steps (R239, R252), and a shadow
line's merge (R178, R191). -/

namespace Sys2Proof.Machine

variable {s : State}

/-! Dense and sparse lists. -/

theorem sdense_length {α : Type} (d : α) (n i : Nat) (m : List (Nat × α)) : (sdense d n i m).length = n := by
  induction n generalizing i m with
  | zero => rfl
  | succ n ih =>
    cases m with
    | nil => simp [sdense, ih]
    | cons e r => unfold sdense; split <;> simp [ih]

theorem sdense_above {α : Type} (d : α) (n i : Nat) {m : List (Nat × α)} (h : ∀ e ∈ m, i < e.1) :
    sdense d (n + 1) i m = d :: sdense d n (i + 1) m := by
  cases m with
  | nil => rfl
  | cons e r => exact if_neg (Nat.ne_of_gt (h e List.mem_cons_self))

/-- The entries of a list of values that are not the default, from key `i` on. -/
def sparseFrom {α : Type} [DecidableEq α] (d : α) (i : Nat) (vs : List α) : List (Nat × α) :=
  (imap (fun i v => if v = d then none else some (i, v)) i vs).filterMap id

theorem sparseFrom_cons {α : Type} [DecidableEq α] (d : α) (i : Nat) (v : α) (r : List α) :
    sparseFrom d i (v :: r) = if v = d then sparseFrom d (i + 1) r else (i, v) :: sparseFrom d (i + 1) r := by
  by_cases hv : v = d <;> simp [sparseFrom, imap, hv]

theorem le_of_mem_sparseFrom {α : Type} [DecidableEq α] (d : α) {i : Nat} {vs : List α} {e : Nat × α} (h : e ∈ sparseFrom d i vs) : i ≤ e.1 := by
  induction vs generalizing i with
  | nil => cases h
  | cons v r ih =>
    rw [sparseFrom_cons] at h
    split at h
    · exact (Nat.le_succ i).trans (ih h)
    · rcases List.mem_cons.1 h with rfl | h
      · exact Nat.le_refl i
      · exact (Nat.le_succ i).trans (ih h)

theorem sdense_sparseFrom {α : Type} [DecidableEq α] (d : α) (i : Nat) (vs : List α) : sdense d vs.length i (sparseFrom d i vs) = vs := by
  induction vs generalizing i with
  | nil => rfl
  | cons v r ih =>
    rw [sparseFrom_cons, List.length_cons]
    split
    case isTrue hv => rw [sdense_above d _ i fun e he => le_of_mem_sparseFrom d he, hv, ih]
    case isFalse => rw [sdense, if_pos rfl, ih]

theorem sdense_ssparse {α : Type} [DecidableEq α] (d : α) {n : Nat} {vs : List α} (h : vs.length = n) : sdense d n 0 (ssparse d vs) = vs :=
  h ▸ sdense_sparseFrom d 0 vs

theorem elems_make {acc : List (BitVec 96)} (h : acc.length = 4096) (nans : List Bool) (g : Int) : (Tile.make acc nans g).elems = acc :=
  sdense_ssparse 0 h

theorem nans_make {nans : List Bool} (h : nans.length = 4096) (acc : List (BitVec 96)) (g : Int) : (Tile.make acc nans g).nans = nans :=
  sdense_ssparse false h

/-! A stripe step of a product (R220, R239). -/

section
variable {α β γ : Type} (g : α → β → γ)

theorem grid_length (rows : List α) (cols : List β) : (rows.map fun a => cols.map (g a)).flatten.length = cols.length * rows.length := by
  induction rows with
  | nil => rfl
  | cons a rows ih => rw [List.map_cons, List.flatten_cons, List.length_append, ih, List.length_map, List.length_cons]; ring

theorem grid_getElem? {rows : List α} {cols : List β} {m n : Nat} {a : α} {b : β} (ha : rows[m]? = some a) (hb : cols[n]? = some b) :
    (rows.map fun a => cols.map (g a)).flatten[cols.length * m + n]? = some (g a b) := by
  have hn := (List.getElem?_eq_some_iff.1 hb).1
  induction rows generalizing m with
  | nil => cases ha
  | cons r rows ih =>
    rw [List.map_cons, List.flatten_cons]
    cases m with
    | zero =>
      cases ha
      rw [List.getElem?_append_left (by simpa using hn)]
      simp [hb]
    | succ m =>
      rw [List.getElem?_append_right (by rw [List.length_map]; nlinarith), List.length_map,
        show cols.length * (m + 1) + n - cols.length = cols.length * m + n by rw [Nat.mul_succ]; omega]
      exact ih ha

theorem zipWith_getD {xs : List α} {ys : List β} {j : Nat} {y : β} (hx : j < xs.length) (hy : ys[j]? = some y) (x0 : α) (c : γ) :
    (List.zipWith g xs ys).getD j c = g (xs.getD j x0) y := by
  simp [List.getD_eq_getElem?_getD, List.getElem?_zipWith, hy, hx]

end

theorem sum_zipWith_take (n : Nat) (xs ys : List Int) :
    (List.zipWith (· * ·) (xs.take n) (ys.take n)).sum = ((List.range n).map fun i => xs.getD i 0 * ys.getD i 0).sum := by
  induction n generalizing xs ys with
  | zero => simp
  | succ n ih =>
    rw [List.range_succ_eq_map, List.map_cons, List.map_map, List.sum_cons]
    cases xs with
    | nil => simp [Function.comp_def]
    | cons x xs =>
      cases ys with
      | nil => simp [Function.comp_def]
      | cons y ys =>
        rw [List.take_succ_cons, List.take_succ_cons, List.zipWith_cons_cons, List.sum_cons, ih]
        rfl

/-- The product of block `b` of two stripes. -/
theorem dot_block (b : Nat) (xs ys : List Int) : dot ((xs.drop (24 * b)).take 24) ((ys.drop (24 * b)).take 24) =
    ((List.range 24).map fun i => xs.getD (24 * b + i) 0 * ys.getD (24 * b + i) 0).sum := by
  rw [dot, sum_zipWith_take]
  simp [List.getD_eq_getElem?_getD, List.getElem?_drop]

theorem stripeProduct_sum (g : Int) (a b : Stripe) : (stripeProduct false g a b).1 = ((List.range 8).map fun k =>
    onGrid ((List.range 24).map fun i => a.2.getD (24 * k + i) 0 * b.2.getD (24 * k + i) 0).sum ((a.1.getD k 0 : Int) + b.1.getD k 0 - 254) g).sum := by
  simp [stripeProduct, dot_block, Function.comp_def]

theorem stripeProduct_nan (g : Int) (a b : Stripe) : (stripeProduct false g a b).2 =
    (List.range 8).any fun k => decide (a.1.getD k 0 = 255) || decide (b.1.getD k 0 = 255) := by
  simp [stripeProduct, Function.comp_def]

section
variable (t : Tile) {rows cols : List Stripe} (hrows : rows.length = 64) (hcols : cols.length = 64)
include hrows hcols

theorem addStripes_element {m n : Nat} (hm : m < 64) (hn : n < 64) :
    (t.addStripes false rows cols).elems.getD (64 * m + n) 0 = t.elems.getD (64 * m + n) 0 +
      BitVec.ofInt 96 (stripeProduct false t.anchor (rows.getD m ([], [])) (cols.getD n ([], []))).1 ∧
    (t.addStripes false rows cols).nans.getD (64 * m + n) false = (t.nans.getD (64 * m + n) false ||
      (stripeProduct false t.anchor (rows.getD m ([], [])) (cols.getD n ([], []))).2) := by
  have hrow : rows[m]? = some (rows.getD m ([], [])) := by rw [List.getD_eq_getElem _ _ (by omega), List.getElem?_eq_getElem]
  have hcol : cols[n]? = some (cols.getD n ([], [])) := by rw [List.getD_eq_getElem _ _ (by omega), List.getElem?_eq_getElem]
  have hadd := grid_getElem? (stripeProduct false t.anchor) hrow hcol
  rw [hcols] at hadd
  have hall : (rows.map fun a => cols.map (stripeProduct false t.anchor a)).flatten.length = 4096 := by rw [grid_length, hrows, hcols]
  have helems : t.elems.length = 4096 := sdense_length ..
  have hnans : t.nans.length = 4096 := sdense_length ..
  unfold Tile.addStripes
  rw [elems_make (by rw [List.length_zipWith, helems, hall]; rfl), nans_make (by rw [List.length_zipWith, hnans, hall]; rfl)]
  exact ⟨zipWith_getD _ (by omega) hadd _ _, zipWith_getD _ (by omega) hadd _ _⟩

end

theorem step_product {o : PlaneOp} (hkind : o.kind = .pmma ∨ o.kind = .pmms) (hwords : o.words = []) (k : Block) :
    o.step k = let t : Tile := k.tiles.getD (ctlTile o.ctl) {}
      { k with tiles := k.tiles.set (ctlTile o.ctl) (t.addStripes false (o.rowStripes k o.done) (o.colStripes k o.done)) } := by
  have hseen : o.seen k = k := by rw [PlaneOp.seen, hwords]; rfl
  rcases hkind with h | h <;> simp only [PlaneOp.step, h, hseen]

theorem rowStripes_length (o : PlaneOp) (k : Block) (i : Nat) : (o.rowStripes k i).length = 64 := by simp [PlaneOp.rowStripes]

theorem colStripes_length (o : PlaneOp) (k : Block) (i : Nat) : (o.colStripes k i).length = 64 := by simp [PlaneOp.colStripes]

theorem product_step {o : PlaneOp} (hkind : o.kind = .pmma ∨ o.kind = .pmms) (hwords : o.words = []) {k : Block}
    (htile : ctlTile o.ctl < k.tiles.length) : (o.step k).tiles.getD (ctlTile o.ctl) {} =
      (k.tiles.getD (ctlTile o.ctl) {}).addStripes false (o.rowStripes k o.done) (o.colStripes k o.done) := by
  rw [step_product hkind hwords]
  simp [List.getD_eq_getElem?_getD, htile]

/-! The engine's queue (R252). -/

theorem planeWrote_msgs (s : State) (o : PlaneOp) (ws : List (Nat × List Byte)) : ∃ ms, s.planeWrote o ws = { s with msgs := ms } := by
  induction ws generalizing s with
  | nil => exact ⟨s.msgs, rfl⟩
  | cons w ws ih =>
    obtain ⟨ms, h⟩ := ih (s.wrote (some o.blk) w.1 8 false)
    exact ⟨ms, h.trans rfl⟩

theorem unwritten_nil {o : PlaneOp} (hdrn : o.kind ≠ .pdrn) (hacs : o.kind ≠ .pacs) (k : Block) : o.unwritten k = [] := by
  have hout : o.output k = [] := by
    unfold PlaneOp.output
    dsimp only
    split
    · exact absurd ‹_› hdrn
    · exact absurd ‹_› hacs
    · rfl
  simp [PlaneOp.unwritten, hout]

theorem planeSteps_one {o : PlaneOp} (h : o.done < o.steps) : s.planeSteps o 1 =
    ((s.onBlock o.blk o.step).planeWrote o ((s.block? o.blk).elim [] o.unwritten), { o with done := o.done + 1, words := [] }) := by
  unfold State.planeSteps
  exact if_neg (Nat.not_le.2 h)

theorem planeOpStart_one {o : PlaneOp} {pier : Nat}
    (hidle : s.planeq.find? (fun q => decide (q.pier = pier) && decide (q.st = PState.running)) = none)
    (hnext : s.planeq.find? (fun q => decide (q.pier = pier) && decide (q.st = PState.queued) && s.planeRuns q) = some o) :
    exec (.planeOpStart pier 1) s = .next ((s.planeSteps { o with st := .running } 1).1.putPlane (s.planeSteps { o with st := .running } 1).2) := by
  change execPlaneOpStart pier 1 s = _
  unfold execPlaneOpStart
  simp only [hidle, hnext, Nat.min_self, ite_self]

theorem planeOpEnd_running {o : PlaneOp} {pier : Nat}
    (hrun : s.planeq.find? (fun q => decide (q.pier = pier) && decide (q.st = PState.running)) = some o) :
    exec (.planeOpEnd pier) s = .next (if o.steps ≤ o.done then ({ s.dropPlane o with
      engineAt := (if s.blockSaving o.blk then [(pier, o.blk)] else []) ++ s.engineAt.filter (·.1 ≠ pier) } : State).settle o.span else s) := by
  change execPlaneOpEnd pier s = _
  unfold execPlaneOpEnd
  rw [hrun]

/-! A shadow line (R178, R191). -/

theorem learnMerged_mem (bs : List (Nat × Nat)) (f : Block → Block) (t : State) :
    (bs.foldl (fun u b => u.onBlock b f) t).mem = t.mem ∧ (bs.foldl (fun u b => u.onBlock b f) t).shadows = t.shadows := by
  induction bs generalizing t with
  | nil => exact ⟨rfl, rfl⟩
  | cons b bs ih => exact ih (t.onBlock b f)

theorem exec_shadowMerge {n : Nat} {h : Shadow} (hn : s.shadows[n]? = some h) (hheld : s.lineHeld h.line = false) :
    exec (.shadowMerge n) s = .next (s.mergeShadow h) := by
  change execShadowMerge n s = _
  unfold execShadowMerge
  rw [hn]
  simp [hheld]

theorem mergeShadow_lost {h : Shadow} (hlost : (s.fenced.contains h.die || (homeDie (64 * h.line)).any s.fenced.contains) = true) :
    s.mergeShadow h = { s with shadows := s.shadows.erase h } := if_pos hlost

/-- A line with one element: its value is merged, and memory is else as it was. -/
theorem mergeShadow_one {h : Shadow} {off : Nat} {v : BitVec 64} (helems : h.elems = [(off, v)])
    (hlost : (s.fenced.contains h.die || (homeDie (64 * h.line)).any s.fenced.contains) = false) :
    (s.mergeShadow h).shadows = s.shadows.erase h ∧ (s.mergeShadow h).mem = (s.poke (64 * h.line + off)
      (toBytes h.size (rmw h.size h.aop h.aty (BitVec.ofNat 64 (s.nat (64 * h.line + off) h.size)) v).toNat)).mem := by
  have hne : ¬ (s.fenced.contains h.die || (homeDie (64 * h.line)).any s.fenced.contains) = true := by rw [hlost]; exact Bool.false_ne_true
  unfold State.mergeShadow
  rw [if_neg hne, helems, List.foldl_cons, List.foldl_nil]
  obtain ⟨hmem, hshadows⟩ := learnMerged_mem h.blks _ _
  refine ⟨hshadows.trans ?_, hmem.trans ?_⟩
  · exact State.poke_shadows ..
  · exact (poke_mem ..).trans (poke_mem s _ _).symm

/-! A chunk of a copy within the deck (R149, R207). -/

theorem joinViews_nil (v : View) : joinViews v [] = v := List.append_nil v

theorem deckWrite_span? (s : State) (b : Nat × Nat) (off : Nat) (bs : List Byte) (j : Nat) : (s.deckWrite b off bs).span? j = s.span? j := by
  unfold State.deckWrite
  split <;> rfl

theorem block?_onBlock_self {b : Nat × Nat} {k : Block} {f : Block → Block} (hk : s.block? b = some k)
    (hf : ∀ m, (f m).launch = m.launch ∧ (f m).idx = m.idx) : (s.onBlock b f).block? b = some (f k) := by
  have hkey : ((fun m : Block => decide (m.launch = b.1) && decide (m.idx = b.2)) ∘ fun m => if (m.launch = b.1 && m.idx = b.2) = true then f m else m) =
      fun m => decide (m.launch = b.1) && decide (m.idx = b.2) := by
    funext m
    dsimp only [Function.comp]
    split
    · rw [(hf m).1, (hf m).2]
    · rfl
  have hthere := List.find?_some hk
  unfold State.block? State.onBlock at *
  rw [List.find?_map, hkey, hk]
  exact congrArg some (if_pos hthere)

theorem deckWrite_block {b : Nat × Nat} {k : Block} (hk : s.block? b = some k) (off : Nat) (bs : List Byte) :
    ∃ k', (s.deckWrite b off bs).block? b = some k' ∧ { k' with deck := k.deck } = k ∧
      ∀ i, sget 0 k'.deck i = if off ≤ i ∧ i < off + bs.length then bs.getD (i - off) 0 else sget 0 k.deck i := by
  refine ⟨k.deckPut off bs, ?_, rfl, sget_deckPut k off bs⟩
  unfold State.deckWrite
  split
  case isTrue hnil => rw [hk, List.isEmpty_iff.1 hnil]; rfl
  case isFalse => exact block?_onBlock_self hk fun _ => ⟨rfl, rfl⟩

section
variable {sp : Span} {o : FerryOp} {c n : Nat}

/-- The operation with chunk `c` of `n` bytes performed. -/
def FerryOp.performed (o : FerryOp) (c n : Nat) : FerryOp := { o with done := o.done ++ [c], bytes := o.bytes + n }

theorem ferryChunk_deck {cx : Context} {k : Block} {src dst : Nat} (hkind : o.kind = .fcpy) (hmay : o.mayBegin c = true)
    (hcx : s.ctx? sp.ctx = some cx) (hk : s.block? sp.block = some k) (hstripes : o.stripes = []) (hwords : ∀ w ∈ o.words, w.1 ≠ c)
    (hchunk : o.chunk? c = some ⟨[(.deck src, n)], .deck dst, n⟩) :
    s.ferryChunk sp o c = (s.deckWrite sp.block dst (sgets 0 k.deck src n)).chunkDone sp o c n := by
  have hname : o.named c = (c, 0) := by simp [FerryOp.named, hkind]
  have hnew : o.stripes.find? (fun t => decide (t.chunk = c)) = none := by rw [hstripes]; rfl
  have hread : o.words.filter (fun w => decide (w.1 = c)) = [] := by simpa using hwords
  have hcopy : o.kind ≠ .fpln := by rw [hkind]; decide
  unfold State.ferryChunk
  rw [hname]
  dsimp only
  rw [hcx, hchunk]
  simp only [hnew, hmay, memRanges, List.filterMap_cons, List.filterMap_nil, List.foldl_nil, State.rangesHeld, List.any_nil,
    State.ferryWalk, List.map_nil, List.flatten_nil, List.append_nil, firstFatal, firstPark, List.findSome?_nil, List.any_cons, State.placeBusy,
    State.portsRead, List.foldl_cons, State.writePlace, State.readPlace, hk, State.seenAt, joinViews_nil, List.map_cons, List.flatten_cons,
    hread, Int.toNat_natCast, Bool.not_true, Bool.or_false, Bool.false_eq_true, if_false, if_pos hcopy]

theorem chunkDone_copy (hlink : o.link = none) (hcan : o.cancel = false) (hstripes : o.stripes = []) (hwords : ∀ w ∈ o.words, w.1 ≠ c) :
    s.chunkDone sp o c n = if o.total ≤ o.bytes + n then (s.onSpan sp.id (·.putFerry (o.performed c n))).ferryFinish sp.id (o.performed c n)
      else s.onSpan sp.id (·.putFerry (o.performed c n)) := by
  have hkept : o.words.filter (fun w => decide (w.1 ≠ c)) = o.words := List.filter_eq_self.2 (by simpa using hwords)
  have hnow : ({ o with
      done := o.done ++ [c], stripes := o.stripes.filter (fun t => decide (t.chunk ≠ c)), bytes := o.bytes + n
      words := o.words.filter fun w => decide (w.1 ≠ c) } : FerryOp) = o.performed c n := by
    simp only [FerryOp.performed, hkept, hstripes, List.filter_nil]
  have hfall (t : State) : t.linkFall sp o n = t := by unfold State.linkFall; rw [hlink]
  unfold State.chunkDone
  rw [hnow]
  simp only [hfall]
  exact if_congr (by simp [FerryOp.performed, hcan]) rfl rfl

theorem ferry?_putFerry {op : Nat} {o' : FerryOp} (ho : sp.ferry? op = some o) (hid : o'.id = o.id) : (sp.putFerry o').ferry? op = some o' := by
  have hkey (f : FerryOp) : (if f.id = o'.id then o' else f).id = f.id := by split <;> simp [*]
  unfold Span.ferry? Span.putFerry at *
  rw [find?_map_key sp.ferry FerryOp.id _ hkey op, ho]
  exact congrArg some (if_pos hid.symm)

theorem ferry?_freeFerry (sp : Span) (op : Nat) : (sp.freeFerry op).ferry? op = none := by
  simp [Span.ferry?, Span.freeFerry]

theorem exec_ferryChunk (hs : s.span? sp.id = some sp) (hres : sp.resident = true) (ho : sp.ferry? o.id = some o) (hst : o.st = .running)
    (hkind : o.kind ≠ .nsend) (hc : c < 2 ^ 80) : exec (.ferryChunk sp.id o.id c) s = .next (s.ferryChunk sp o c) := by
  change execFerryChunk sp.id o.id c s = _
  unfold execFerryChunk
  simp only [hs, ho]
  rw [if_neg (by simp [hres, hst, hkind]), if_pos hc]

theorem chunkDone_open (hlink : o.link = none) (hcan : o.cancel = false) (hstripes : o.stripes = []) (hwords : ∀ w ∈ o.words, w.1 ≠ c)
    (h : o.bytes + n < o.total) : s.chunkDone sp o c n = s.onSpan sp.id (·.putFerry (o.performed c n)) :=
  (chunkDone_copy hlink hcan hstripes hwords).trans (if_neg (Nat.not_le.2 h))

/-- The last chunk ends a copy that writes no completion word. -/
theorem chunkDone_last (hs : s.span? sp.id = some sp) (hlink : o.link = none) (hcan : o.cancel = false) (hstripes : o.stripes = [])
    (hwords : ∀ w ∈ o.words, w.1 ≠ c) (hcomp : o.comp = 0) (hfail : o.fail = none) (h : o.total ≤ o.bytes + n) :
    s.chunkDone sp o c n = (((s.onSpan sp.id (·.putFerry (o.performed c n))).opEnded sp o).onSpan sp.id (·.freeFerry o.id)).settle sp.id :=
  ((chunkDone_copy hlink hcan hstripes hwords).trans (if_pos h)).trans
    (ferryFinish_done (sp := sp.putFerry (o.performed c n)) (span?_onSpan_self _ (fun _ => rfl) hs) hcomp hfail)

end

/-- The bytes of a deck once `n` bytes of it stand at `dst` as well. -/
theorem copied_byte {k k' : Block} {dst src n : Nat} (hbytes : ∀ i, sget 0 k'.deck i =
      if dst ≤ i ∧ i < dst + (sgets 0 k.deck src n).length then (sgets 0 k.deck src n).getD (i - dst) 0 else sget 0 k.deck i) (b : Nat) :
    sget 0 k'.deck b = if dst ≤ b ∧ b < dst + n then sget 0 k.deck (src + (b - dst)) else sget 0 k.deck b := by
  rw [hbytes, sgets_length]
  split
  · rw [sgets_getD _ _ _ _ _ (by omega)]
  · rfl

/-- Settles O36: a chunk within the deck is one deck write and its account; the engine's step and its end are one equation each; a product's
step is the grid of its stripes' products; a shadow line of one element is one write of memory. -/
theorem enginesRun : Obligations.engines_run := by
  unfold Obligations.engines_run
  refine ⟨fun s sp o cx k c n src dst hs hres _ ho hst hkind hfail hcan hdone horder hcx hk hlink hcomp hstripes hc hwords hchunk => ?_,
    fun s => ⟨fun o pier hidle hnext hdone => ?_, fun o pier hrun => ?_, fun o k m n hkind hwords htile hm hn => ?_,
      fun h n off v hn hheld helems hsize => ?_⟩⟩
  · have hmay : o.mayBegin c = true := by simpa [FerryOp.mayBegin, hfail, hcan, horder] using hdone
    have hexec := exec_ferryChunk hs hres ho hst (by rw [hkind]; decide) hc
    rw [ferryChunk_deck hkind hmay hcx hk hstripes hwords hchunk] at hexec
    obtain ⟨k', hk', hrest, hbytes⟩ := deckWrite_block hk dst (sgets 0 k.deck src n)
    have hwritten : (s.deckWrite sp.block dst (sgets 0 k.deck src n)).span? sp.id = some sp := (deckWrite_span? ..).trans hs
    generalize s.deckWrite sp.block dst (sgets 0 k.deck src n) = t at hexec hk' hwritten
    have hput : (t.onSpan sp.id (·.putFerry (o.performed c n))).span? sp.id = some (sp.putFerry (o.performed c n)) :=
      span?_onSpan_self _ (fun _ => rfl) hwritten
    rcases Nat.lt_or_ge (o.bytes + n) o.total with hmore | hlast
    · rw [chunkDone_open hlink hcan hstripes hwords hmore] at hexec
      exact ⟨t.onSpan sp.id (·.putFerry (o.performed c n)), k', _, hk', hrest, hput, rfl, copied_byte hbytes, fun _ => ⟨hexec, ferry?_putFerry ho rfl⟩, fun h => absurd hmore (Nat.not_lt.2 h)⟩
    · rw [chunkDone_last hwritten hlink hcan hstripes hwords hcomp hfail hlast] at hexec
      have hfree : (((t.onSpan sp.id (·.putFerry (o.performed c n))).opEnded sp o).onSpan sp.id (·.freeFerry o.id)).span? sp.id =
          some ((sp.putFerry (o.performed c n)).freeFerry o.id) := span?_onSpan_self _ (fun _ => rfl) hput
      exact ⟨((t.onSpan sp.id (·.putFerry (o.performed c n))).opEnded sp o).onSpan sp.id (·.freeFerry o.id), k', _, hk', hrest, hfree, rfl, copied_byte hbytes,
        fun h => absurd h (Nat.not_lt.2 hlast), fun _ => ⟨hexec, ferry?_freeFerry ..⟩⟩
  · rw [planeOpStart_one hidle hnext, planeSteps_one (o := { o with st := .running }) hdone]
    by_cases hwrites : o.kind = .pdrn ∨ o.kind = .pacs
    · obtain ⟨ms, hms⟩ := planeWrote_msgs (s.onBlock o.blk { o with st := .running }.step) { o with st := .running }
        ((s.block? o.blk).elim [] { o with st := .running }.unwritten)
      rw [hms]
      exact ⟨ms, rfl, fun h1 h2 => absurd hwrites (not_or.2 ⟨h1, h2⟩)⟩
    · obtain ⟨hdrn, hacs⟩ := not_or.1 hwrites
      have hnone : (s.block? o.blk).elim [] { o with st := .running }.unwritten = [] := by
        cases s.block? o.blk with
        | none => rfl
        | some k => exact unwritten_nil (o := { o with st := .running }) hdrn hacs k
      rw [hnone]
      exact ⟨s.msgs, rfl, fun _ _ => rfl⟩
  · rw [planeOpEnd_running hrun]
    exact ⟨fun h => by rw [if_pos h]; rfl, fun h => by rw [if_neg (Nat.not_le.2 h)]⟩
  · obtain ⟨helem, hnan⟩ := addStripes_element (k.tiles.getD (ctlTile o.ctl) {}) (rowStripes_length o k o.done) (colStripes_length o k o.done) hm hn
    rw [stripeProduct_sum] at helem
    rw [stripeProduct_nan] at hnan
    dsimp only
    rw [product_step hkind hwords htile, step_product hkind hwords]
    exact ⟨helem, hnan, rfl, rfl, rfl⟩
  · rw [exec_shadowMerge hn hheld]
    refine ⟨fun hlost => by rw [mergeShadow_lost hlost], fun hlost => ?_⟩
    obtain ⟨hshadows, hmem⟩ := mergeShadow_one helems hlost
    obtain ⟨hrest, hnum⟩ := written_number hmem
    exact ⟨_, rfl, hshadows, by rw [hnum, BitVec.toNat_setWidth], hrest⟩

end Sys2Proof.Machine
end
